-- ==== Sys2Proof/Word.lean ====
section
/-!
DEFINITION. The word types of the Pyred 7 and their plainest arithmetic (R5, R46, R84).
-/

namespace Sys2Proof

/-- A 64-bit lane register value (R4). -/
abbrev Word := BitVec 64

/-- The byte, the smallest addressable unit of every space (R112). -/
abbrev Byte := BitVec 8

/-- A lane mask of one warp: bit `j` stands for lane `j` (R12). -/
abbrev Mask := BitVec 32

/-- The bit of lane `j`. -/
def laneBit (j : Nat) : Mask := BitVec.ofNat 32 (2 ^ j)

/-- The lane numbers of a warp, ascending (R6). -/
def lanes : List Nat := List.range 32

/-- The lanes a mask names, ascending. -/
def Mask.toList (m : Mask) : List Nat := lanes.filter fun j => m.getLsbD j

end Sys2Proof
end

