-- ==== Sys2Proof/Syntax.lean ====
section
/-!
DEFINITION. The instructions and events of the Pyred 7, one constructor per row of spec/opcode_table.json.

An encoded instruction carries the fields of its 32-bit slot that are not fixed, and those of its 10-bit
extension that its entry uses (R42, R46). The chain bit belongs to the slot, not to the instruction (R44),
and stands in `Slot`. An event carries what tells one happening of it from another.
-/

namespace Sys2Proof

/-- The fields of an R-format instruction that names a set operand, a destination and up to three sources
(R46): `k` the set operand, `d`, `a`, `b` operand codes (R47), `x` the extension's upper field (R42). -/
structure Opnds where
  k : BitVec 3
  d : BitVec 5
  a : BitVec 5
  b : BitVec 5
  x : BitVec 5
  deriving DecidableEq, Repr

/-- A warp of the device: its core, its slot, and whether it is the trap-handler warp of that slot (R347)
or the warp of the slot itself. -/
structure WarpRef where
  core : Nat
  slot : Nat
  hnd  : Bool
  deriving DecidableEq, Repr

/-- The operations of `atom` (R140). -/
inductive AtomOp where
  | add | fadd | binc | xchg | minS | maxS | minU | maxU | and | or | xor | cas
  deriving DecidableEq, Repr

/-- What a packet of another node asks for: a sync access at a home atomic unit (R379), a plain access, or, as a reply, nothing
(R378). -/
inductive RemoteOp where
  /-- A `.sys` atomic (R140): its operation, 64 bits or 32, its operands. -/
  | atom (op : AtomOp) (wide : Bool) (b c : Word)
  /-- The count of a guard word, or its read (R149). -/
  | guardAdd
  | guardRead
  /-- A future read, filled or cleared (R153). -/
  | futureRead
  | futureFill (val : Word)
  | futureClear
  /-- A plain read, and a plain write of the bytes of a sector that a mask names. -/
  | read
  | write (mask : BitVec 32) (data : BitVec 256)
  /-- What answers a packet of this device. -/
  | reply
  deriving DecidableEq, Repr

/-- An access of another node (R378, R379). -/
structure RemoteSync where
  /-- Physical address of its unit, or in its sector, in local memory. -/
  pa  : Nat
  op  : RemoteOp
  deriving DecidableEq, Repr

/-- The instructions and events. -/
inductive Instr where
  /-- `nop` (R71). -/
  | nop
  /-- `trail [wb slots] [tag qN]` (R57). -/
  | trail (te : BitVec 1) (tag : BitVec 3) (wb : BitVec 16)
  /-- `bra label` (R72). -/
  | bra (off : BitVec 26)
  /-- `bre kS, label` (R72). -/
  | bre (k : BitVec 3) (off : BitVec 26)
  /-- `brn kS, label` (R72). -/
  | brn (k : BitVec 3) (off : BitVec 26)
  /-- `brx a` (R73). -/
  | brx (k : BitVec 3) (a : BitVec 5) (x : BitVec 5)
  /-- `call label` (R73). -/
  | call (k : BitVec 3) (off : BitVec 26)
  /-- `ret a` (R73). -/
  | ret (k : BitVec 3) (a : BitVec 5) (x : BitVec 5)
  /-- `loop wD, label` (R74). -/
  | loop (k : BitVec 3) (d : BitVec 5) (off : BitVec 16)
  /-- `exit` (R75). -/
  | exit (k : BitVec 3)
  /-- `yield` (R76). -/
  | yield
  /-- `icinv.scope a, b` (R77). -/
  | icinv (a : BitVec 5) (b : BitVec 5) (x : BitVec 5) (scope : BitVec 2)
  /-- `claim #n` (R78). -/
  | claim (n : BitVec 16)
  /-- `give #n` (R78). -/
  | give (n : BitVec 16)
  /-- `ktest.CC.IT[.all] kT, kF, wA, wB` (R219). -/
  | ktestInt (k : BitVec 3) (d : BitVec 5) (a : BitVec 5) (b : BitVec 5) (ity : BitVec 3) (cc : BitVec 3) (all : BitVec 1) (kf : BitVec 3)
  /-- `ktest.FC.FT[.ftz][.all]` (R219). -/
  | ktestFloat (k : BitVec 3) (d : BitVec 5) (a : BitVec 5) (b : BitVec 5) (ty : BitVec 2) (fc : BitVec 3) (ftz : BitVec 1) (all : BitVec 1) (kf : BitVec 3)
  /-- `kand kD, kA, kB` (R221). -/
  | kand (d : BitVec 5) (a : BitVec 5) (b : BitVec 5)
  /-- `kor` (R221). -/
  | kor (d : BitVec 5) (a : BitVec 5) (b : BitVec 5)
  /-- `kdiff` (R221). -/
  | kdiff (d : BitVec 5) (a : BitVec 5) (b : BitVec 5)
  /-- `kcount wD, kA` (R222). -/
  | kcount (k : BitVec 3) (d : BitVec 5) (a : BitVec 5)
  /-- `kfirst wD, kA, wB` (R222). -/
  | kfirst (k : BitVec 3) (d : BitVec 5) (a : BitVec 5) (b : BitVec 5) (x : BitVec 5)
  /-- `kmake.v kD, wA` (R223). -/
  | kmakeV (d : BitVec 5) (a : BitVec 5)
  /-- `kmake.m kD, wA` (R223). -/
  | kmakeM (d : BitVec 5) (a : BitVec 5)
  /-- `kself kD` (R223). -/
  | kself (d : BitVec 5)
  /-- `kld kD, wA, wB|#imm` (R224). -/
  | kld (d : BitVec 5) (a : BitVec 5) (b : BitVec 5) (x : BitVec 5)
  /-- `kst kS, wA, wB|#imm` (R224). -/
  | kst (d : BitVec 5) (a : BitVec 5) (b : BitVec 5) (x : BitVec 5)
  /-- `kmerge kS, wA` (R225). -/
  | kmerge (d : BitVec 5) (a : BitVec 5)
  /-- `kfree kS` (R226). -/
  | kfree (d : BitVec 5)
  /-- `kqpush wD, kS, wA` (R228). -/
  | kqpush (d : BitVec 5) (a : BitVec 5) (b : BitVec 5)
  /-- `kqpop wD, wA` (R228). -/
  | kqpop (d : BitVec 5) (a : BitVec 5)
  /-- `apply.s kS` (R231). -/
  | applyS (k : BitVec 3) (off : BitVec 18)
  /-- `apply.r kS, vA, vB` (R231). -/
  | applyR (k : BitVec 3) (off : BitVec 18) (b0 : BitVec 4) (b1 : BitVec 4)
  /-- `enda` (R231). -/
  | enda
  /-- `gmake kD` (R229). -/
  | gmake (k : BitVec 3) (d : BitVec 5)
  /-- `join kG` (R229). -/
  | join (k : BitVec 3) (a : BitVec 5)
  /-- `leave kG` (R229). -/
  | leave (k : BitVec 3) (a : BitVec 5)
  /-- `gdis kG` (R229). -/
  | gdis (a : BitVec 5)
  /-- `add.IT` (R160). -/
  | add (o : Opnds) (ity : BitVec 3) (sat : BitVec 1)
  /-- `sub.IT` (R160). -/
  | sub (o : Opnds) (ity : BitVec 3) (sat : BitVec 1)
  /-- `min.IT` (R160). -/
  | min (o : Opnds) (ity : BitVec 3)
  /-- `max.IT` (R160). -/
  | max (o : Opnds) (ity : BitVec 3)
  /-- `mul.IT` (R160). -/
  | mul (o : Opnds) (ity : BitVec 3) (sat : BitVec 1)
  /-- `mulhi.IT` (R160). -/
  | mulhi (o : Opnds) (ity : BitVec 3)
  /-- `mad.IT` (R160). -/
  | mad (o : Opnds) (ity : BitVec 3) (sat : BitVec 1)
  /-- `and` (R161). -/
  | and (o : Opnds)
  /-- `or` (R161). -/
  | or (o : Opnds)
  /-- `xor` (R161). -/
  | xor (o : Opnds)
  /-- `andn` (R161). -/
  | andn (o : Opnds)
  /-- `shl.IT` (R162). -/
  | shl (o : Opnds) (ity : BitVec 3)
  /-- `shr.IT` (R162). -/
  | shr (o : Opnds) (ity : BitVec 3)
  /-- `sar.IT` (R162). -/
  | sar (o : Opnds) (ity : BitVec 3)
  /-- `rot.IT` (R162). -/
  | rot (o : Opnds) (ity : BitVec 3)
  /-- `clz.IT` (R162). -/
  | clz (k : BitVec 3) (d : BitVec 5) (a : BitVec 5) (ity : BitVec 3)
  /-- `ctz.IT` (R162). -/
  | ctz (k : BitVec 3) (d : BitVec 5) (a : BitVec 5) (ity : BitVec 3)
  /-- `popc.IT` (R162). -/
  | popc (k : BitVec 3) (d : BitVec 5) (a : BitVec 5) (ity : BitVec 3)
  /-- `brev.IT` (R162). -/
  | brev (k : BitVec 3) (d : BitVec 5) (a : BitVec 5) (ity : BitVec 3)
  /-- `cmp.CC.IT` (R163). -/
  | cmp (o : Opnds) (ity : BitVec 3) (cc : BitVec 3)
  /-- `sel wD, wA, wB, wC` (R161). -/
  | sel (o : Opnds)
  /-- `abs.IT` (R164). -/
  | abs (k : BitVec 3) (d : BitVec 5) (a : BitVec 5) (ity : BitVec 3) (sat : BitVec 1)
  /-- `neg.IT` (R164). -/
  | neg (k : BitVec 3) (d : BitVec 5) (a : BitVec 5) (ity : BitVec 3) (sat : BitVec 1)
  /-- `ext[.sx] wD, wA, #pos, #len` (R165). -/
  | ext (k : BitVec 3) (d : BitVec 5) (a : BitVec 5) (sx : BitVec 1) (lenm : BitVec 6) (p : BitVec 6)
  /-- `ins wD, wA, #pos, #len` (R165). -/
  | ins (k : BitVec 3) (d : BitVec 5) (a : BitVec 5) (lenm : BitVec 6) (p : BitVec 6)
  /-- `movi wD, #imm` (R166). -/
  | movi (k : BitVec 3) (d : BitVec 5) (imm : BitVec 16)
  /-- `movh wD, wA, #imm` (R166). -/
  | movh (k : BitVec 3) (d : BitVec 5) (a : BitVec 5) (imm : BitVec 16)
  /-- `addi wD, wA, #imm` (R166). -/
  | addi (k : BitVec 3) (d : BitVec 5) (a : BitVec 5) (imm : BitVec 16)
  /-- `lea.SH wD, wA, wB` (R166). -/
  | lea (o : Opnds) (sh : BitVec 3)
  /-- `icvt[.sat].DST.SRC[.partN]` (R167). -/
  | icvt (k : BitVec 3) (d : BitVec 5) (a : BitVec 5) (dst : BitVec 3) (src : BitVec 3) (sat : BitVec 1) (part : BitVec 3)
  /-- `fadd.FT` (R171). -/
  | fadd (o : Opnds) (ty : BitVec 2) (rm : BitVec 3) (ftz : BitVec 1)
  /-- `fsub.FT` (R171). -/
  | fsub (o : Opnds) (ty : BitVec 2) (rm : BitVec 3) (ftz : BitVec 1)
  /-- `fmul.FT` (R171). -/
  | fmul (o : Opnds) (ty : BitVec 2) (rm : BitVec 3) (ftz : BitVec 1)
  /-- `fma.FT` (R171). -/
  | fma (o : Opnds) (ty : BitVec 2) (rm : BitVec 3) (ftz : BitVec 1)
  /-- `fnma.FT` (R171). -/
  | fnma (o : Opnds) (ty : BitVec 2) (rm : BitVec 3) (ftz : BitVec 1)
  /-- `fmin.FT` (R172). -/
  | fmin (o : Opnds) (ty : BitVec 2) (ftz : BitVec 1)
  /-- `fmax.FT` (R172). -/
  | fmax (o : Opnds) (ty : BitVec 2) (ftz : BitVec 1)
  /-- `fdot2.FT` (R174). -/
  | fdot2 (o : Opnds) (ty : BitVec 2) (rm : BitVec 3) (ftz : BitVec 1)
  /-- `fsgn.OPC.FMT` (R173). -/
  | fsgn (o : Opnds) (efmt : BitVec 4) (opc : BitVec 2)
  /-- `frnd.FT` (R171). -/
  | frnd (k : BitVec 3) (d : BitVec 5) (a : BitVec 5) (ty : BitVec 2) (rm : BitVec 3) (ftz : BitVec 1)
  /-- `fscl.FT` (R171). -/
  | fscl (o : Opnds) (ty : BitVec 2) (rm : BitVec 3) (ftz : BitVec 1)
  /-- `fcvt.DST.SRC` (R175). -/
  | fcvt (k : BitVec 3) (d : BitVec 5) (a : BitVec 5) (dst : BitVec 4) (src : BitVec 4) (rm : BitVec 3) (ftz : BitVec 1) (part : BitVec 4)
  /-- `xperm.W` (R179). -/
  | xperm (o : Opnds) (wd : BitVec 3) (la : BitVec 4)
  /-- `xshf.MODE.W` (R179). -/
  | xshf (o : Opnds) (wd : BitVec 3) (mode : BitVec 2) (la : BitVec 4)
  /-- `xbc.W` (R179). -/
  | xbc (o : Opnds) (wd : BitVec 3) (la : BitVec 4)
  /-- `xbal.W` (R179). -/
  | xbal (k : BitVec 3) (d : BitVec 5) (a : BitVec 5) (wd : BitVec 3) (la : BitVec 4)
  /-- `xred.OP.RT` (R180). -/
  | xred (k : BitVec 3) (d : BitVec 5) (a : BitVec 5) (rty : BitVec 4) (rop : BitVec 2) (rm : BitVec 3) (ftz : BitVec 1) (la : BitVec 4)
  /-- `xscan.OP.RT` (R180). -/
  | xscan (k : BitVec 3) (d : BitVec 5) (a : BitVec 5) (rty : BitVec 4) (rop : BitVec 2) (rm : BitVec 3) (ftz : BitVec 1) (exc : BitVec 1) (la : BitVec 4)
  /-- `xtopk.SEL.RT #k` (R182). -/
  | xtopk (k : BitVec 3) (d : BitVec 5) (a : BitVec 5) (b : BitVec 5) (rty : BitVec 4) (sel : BitVec 1) (km1 : BitVec 5) (la : BitVec 4)
  /-- `sfq.FN.FT[.ftz] wD, wA, wB` (R185). -/
  | sfq (k : BitVec 3) (d : BitVec 5) (a : BitVec 5) (b : BitVec 5) (ty : BitVec 2) (fn : BitVec 4) (ftz : BitVec 1)
  /-- `sfw #mask` (R189). -/
  | sfw (mask : BitVec 16)
  /-- `sfp wD` (R191). -/
  | sfp (k : BitVec 3) (d : BitVec 5)
  /-- `ld.SZ[.na]` (R131). -/
  | ld (o : Opnds) (sz : BitVec 3) (cp : BitVec 2) (la : BitVec 4)
  /-- `st.SZ[.na]` (R131). -/
  | st (o : Opnds) (sz : BitVec 3) (cp : BitVec 2)
  /-- `ldn.SZ` (R131). -/
  | ldn (o : Opnds) (sz : BitVec 3) (la : BitVec 4)
  /-- `stn.SZ` (R131). -/
  | stn (o : Opnds) (sz : BitVec 3)
  /-- `ldt.DT` (R134). -/
  | ldt (o : Opnds) (dt : BitVec 1) (rm : BitVec 3) (ftz : BitVec 1) (chk : BitVec 1) (la : BitVec 4)
  /-- `stt.DT` (R134). -/
  | stt (o : Opnds) (dt : BitVec 1) (rm : BitVec 3) (ftz : BitVec 1) (chk : BitVec 1)
  /-- `pref.LV` (R139). -/
  | pref (k : BitVec 3) (a : BitVec 5) (b : BitVec 5) (x : BitVec 5) (lv : BitVec 1)
  /-- `atom` add (R140). -/
  | atomAdd (o : Opnds) (scope : BitVec 3) (w : BitVec 1)
  /-- `atom` fadd (R140). -/
  | atomFadd (o : Opnds) (scope : BitVec 3) (w : BitVec 1)
  /-- `atom` binc (R140). -/
  | atomBinc (o : Opnds) (scope : BitVec 3) (w : BitVec 1)
  /-- `atom` xchg (R140). -/
  | atomXchg (o : Opnds) (scope : BitVec 3) (w : BitVec 1)
  /-- `atom` min_signed (R140). -/
  | atomMinS (o : Opnds) (scope : BitVec 3) (w : BitVec 1)
  /-- `atom` max_signed (R140). -/
  | atomMaxS (o : Opnds) (scope : BitVec 3) (w : BitVec 1)
  /-- `atom` min_unsigned (R140). -/
  | atomMinU (o : Opnds) (scope : BitVec 3) (w : BitVec 1)
  /-- `atom` max_unsigned (R140). -/
  | atomMaxU (o : Opnds) (scope : BitVec 3) (w : BitVec 1)
  /-- `atom` and (R140). -/
  | atomAnd (o : Opnds) (scope : BitVec 3) (w : BitVec 1)
  /-- `atom` or (R140). -/
  | atomOr (o : Opnds) (scope : BitVec 3) (w : BitVec 1)
  /-- `atom` xor (R140). -/
  | atomXor (o : Opnds) (scope : BitVec 3) (w : BitVec 1)
  /-- `atom` cas (R140). -/
  | atomCas (o : Opnds) (scope : BitVec 3) (w : BitVec 1)
  /-- `rwr wA, wB` (R144). -/
  | rwr (k : BitVec 3) (a : BitVec 5) (b : BitVec 5) (x : BitVec 5)
  /-- `awt[.sub][.clr] wD, aN, wB|#imm` (R146). -/
  | awt (d : BitVec 5) (b : BitVec 5) (x : BitVec 5) (ctr : BitVec 2) (sub : BitVec 1) (clr : BitVec 1)
  /-- `bind wA, wB, wC` (R147). -/
  | bind (a : BitVec 5) (b : BitVec 5) (cc : BitVec 5)
  /-- `unbind wA, wB, wC` (R147). -/
  | unbind (a : BitVec 5) (b : BitVec 5) (cc : BitVec 5)
  /-- `acq.SCOPE wD, wA` (R148). -/
  | acq (k : BitVec 3) (d : BitVec 5) (a : BitVec 5) (scope : BitVec 3) (la : BitVec 4)
  /-- `rel.SCOPE wA` (R149). -/
  | rel (k : BitVec 3) (a : BitVec 5) (scope : BitVec 3)
  /-- `fence.SCOPE` (R150). -/
  | fence (scope : BitVec 3)
  /-- `publish wA` (R151). -/
  | publish (a : BitVec 5)
  /-- `fread.SCOPE wD, wA` (R153). -/
  | fread (k : BitVec 3) (d : BitVec 5) (a : BitVec 5) (scope : BitVec 3) (la : BitVec 4)
  /-- `ffill.SCOPE wA, wB` (R153). -/
  | ffill (k : BitVec 3) (a : BitVec 5) (b : BitVec 5) (x : BitVec 5) (scope : BitVec 3)
  /-- `fclr.SCOPE wA` (R153). -/
  | fclr (k : BitVec 3) (a : BitVec 5) (x : BitVec 5) (scope : BitVec 3)
  /-- `cpy.DIR cT, wD, wA, wB` (R246). -/
  | cpy (k : BitVec 3) (d : BitVec 5) (a : BitVec 5) (b : BitVec 5) (t : BitVec 6) (dir : BitVec 2)
  /-- `cpym.g2n cT, wD, wA, wB, #pmask` (R246). -/
  | cpym (k : BitVec 3) (d : BitVec 5) (a : BitVec 5) (b : BitVec 5) (t : BitVec 6) (pmask : BitVec 4)
  /-- `tall.gG #mask` (R244). -/
  | tall (g : BitVec 2) (mask : BitVec 16)
  /-- `tany.gG #mask` (R244). -/
  | tany (g : BitVec 2) (mask : BitVec 16)
  /-- `tffr wD, wA` (R245). -/
  | tffr (k : BitVec 3) (d : BitVec 5) (a : BitVec 5)
  /-- `mloop.FMT mT, wD` (R256). -/
  | mloop (k : BitVec 3) (d : BitVec 5) (t : BitVec 4) (zs : BitVec 1) (ftz : BitVec 1) (mx : BitVec 1) (fmt : BitVec 3)
  /-- `mzero mT` (R261). -/
  | mzero (k : BitVec 3) (t : BitVec 4)
  /-- `mrd.n[.bf16][.end] mT, wD` (R262). -/
  | mrdN (k : BitVec 3) (d : BitVec 5) (t : BitVec 4) (bf : BitVec 1) (e : BitVec 1)
  /-- `mrd.w[.end] mT, wD, wA` (R262). -/
  | mrdW (k : BitVec 3) (d : BitVec 5) (a : BitVec 5) (t : BitVec 4) (e : BitVec 1) (la : BitVec 4)
  /-- `mwr.n mT, wD` (R262). -/
  | mwrN (k : BitVec 3) (d : BitVec 5) (t : BitVec 4)
  /-- `mwr.w mT, wD, wA` (R262). -/
  | mwrW (k : BitVec 3) (d : BitVec 5) (a : BitVec 5) (t : BitVec 4)
  /-- `lacfg wA` (R281). -/
  | lacfg (k : BitVec 3) (a : BitVec 5)
  /-- `laseed wA, wB` (R281). -/
  | laseed (k : BitVec 3) (a : BitVec 5) (b : BitVec 5)
  /-- `lainf.n[.after] wD, wA, wB` (R282). -/
  | lainfN (k : BitVec 3) (d : BitVec 5) (a : BitVec 5) (b : BitVec 5) (after : BitVec 1)
  /-- `lainf.w[.after] wD, wA` (R282). -/
  | lainfW (k : BitVec 3) (d : BitVec 5) (a : BitVec 5) (after : BitVec 1) (la : BitVec 4)
  /-- `lafb.MODE wA, wB` (R283). -/
  | lafb (k : BitVec 3) (a : BitVec 5) (b : BitVec 5) (p : BitVec 1)
  /-- `lard.n[.inc][.after] wD, wA, wB` (R284). -/
  | lardN (k : BitVec 3) (d : BitVec 5) (a : BitVec 5) (b : BitVec 5) (inc : BitVec 1) (after : BitVec 1)
  /-- `lard.w[.after] wD, wA` (R284). -/
  | lardW (k : BitVec 3) (d : BitVec 5) (a : BitVec 5) (after : BitVec 1) (la : BitVec 4)
  /-- `lawr.n wD, wA, wB` (R284). -/
  | lawrN (k : BitVec 3) (d : BitVec 5) (a : BitVec 5) (b : BitVec 5)
  /-- `lawr.w wD, wA` (R284). -/
  | lawrW (k : BitVec 3) (d : BitVec 5) (a : BitVec 5)
  /-- `swsub wD, wA` (R292). -/
  | swsub (k : BitVec 3) (d : BitVec 5) (a : BitVec 5)
  /-- `swleave wA` (R305). -/
  | swleave (k : BitVec 3) (a : BitVec 5)
  /-- `swgo.DH #sid, wA` (R293). -/
  | swgo (k : BitVec 3) (a : BitVec 5) (sid : BitVec 4) (dh : BitVec 1)
  /-- `swrd[.bf16|.raw] wD, wA` (R304). -/
  | swrd (k : BitVec 3) (d : BitVec 5) (a : BitVec 5) (mm : BitVec 2)
  /-- `swmerge wD, wA, wB` (R300). -/
  | swmerge (k : BitVec 3) (d : BitVec 5) (a : BitVec 5) (b : BitVec 5)
  /-- `swwait wA` (R303). -/
  | swwait (a : BitVec 5)
  /-- `post.Q[.DIR] wD, wA` (R323). -/
  | post (d : BitVec 5) (a : BitVec 5) (q : BitVec 2) (dir : BitVec 2)
  /-- `spawn.Q[.DIR] wD, wA` (R323). -/
  | spawn (d : BitVec 5) (a : BitVec 5) (q : BitVec 2) (dir : BitVec 2)
  /-- `qtake.Q wD, wA` (R324). -/
  | qtake (d : BitVec 5) (a : BitVec 5) (q : BitVec 2)
  /-- `ams wD, wA, wB` (R325). -/
  | ams (d : BitVec 5) (a : BitVec 5) (b : BitVec 5)
  /-- `bbind bN, kG` (R326). -/
  | bbind (a : BitVec 5) (n : BitVec 6)
  /-- `bunb bN` (R326). -/
  | bunb (n : BitVec 6)
  /-- `barr wD, bN` (R327). -/
  | barr (k : BitVec 3) (d : BitVec 5) (n : BitVec 6)
  /-- `bwt bN, wA` (R328). -/
  | bwt (a : BitVec 5) (n : BitVec 6)
  /-- `dbar wD, dN` (R329). -/
  | dbar (k : BitVec 3) (d : BitVec 5) (n : BitVec 4)
  /-- `dwt dN, wA` (R329). -/
  | dwt (a : BitVec 5) (n : BitVec 4)
  /-- `trap #IMM` (R350). -/
  | trap (imm : BitVec 10)
  /-- `tret[.end]` (R350). -/
  | tret (e : BitVec 1)
  /-- `sysrd wD, REG` (R350). -/
  | sysrd (k : BitVec 3) (d : BitVec 5) (num : BitVec 10)
  /-- `syswr wA, REG` (R350). -/
  | syswr (a : BitVec 5) (num : BitVec 10)
  /-- `brk #IMM` (R350). -/
  | brk (imm : BitVec 10)
  /-- `lmark #IMM` (R350). -/
  | lmark (imm : BitVec 10)
  /-- `ppoint #MASK` (R350). -/
  | ppoint (mask : BitVec 16)
  /-- `idb wA, wB` (R350). -/
  | idb (a : BitVec 5) (b : BitVec 5)
  /-- `ide` (R350). -/
  | ide
  /-- Event: the packets of the warp's next run are fetched (R81). -/
  | instructionFetch (w : WarpRef)
  /-- Event: the run header of the warp acts (R51). -/
  | runHeader (w : WarpRef)
  /-- Event: the commit of the warp's run goes on (R58). -/
  | runCommit (w : WarpRef)
  /-- Event: an awaited value arrives at a core (R62). -/
  | pendingValueArrival (core : Nat) (id : Nat)
  /-- Event: a special-function operation completes (R186). -/
  | sfqCompletion (w : WarpRef) (token : Nat)
  /-- Event: a remote register write is deposited (R144). -/
  | deposit (core : Nat) (id : Nat)
  /-- Event: the core creates its next launch warp (R17, R399). -/
  | warpCreation (core : Nat)
  /-- Event: the claim at the head of the core's order is granted (R68). -/
  | claimGrant (core : Nat)
  /-- Event: a ready pending warp enters the active set (R33). -/
  | activeSetEntry (core : Nat)
  /-- Event: a warp whose lanes have all exited retires (R25). -/
  | warpRetirement (w : WarpRef)
  /-- Event: the end of a launch (R26). -/
  | launchEnd (l : Nat)
  /-- Event: the end of a launch that a fault or timeout ended (R27). -/
  | launchAbort (l : Nat)
  /-- Event: a device-barrier phase completes (R330). -/
  | deviceBarrierPhase (j : Nat)
  /-- Event: the core creates its next apply warp (R234). -/
  | applyWarpCreation (core : Nat)
  /-- Event: the watchdog of a warp expires (R36). -/
  | watchdogExpiry (w : WarpRef)
  /-- Event: the pool of a core declares claim deadlock (R70). -/
  | claimDeadlock (core : Nat)
  /-- Event: the trap-handler warp of a slot starts (R346). -/
  | handlerWarpCreation (core : Nat) (slot : Nat)
  /-- Event: an L1 sector is written back and evicted (R115). -/
  | l1Eviction (core : Nat) (sector : Nat)
  /-- Event: a home atomic unit performs the oldest access of a sector (R143). -/
  | homeAccessPerform (sector : Nat)
  /-- Event: an access received by the scoreboard proceeds (R264). -/
  | engineCommandStart (core : Nat) (id : Nat)
  /-- Event: an engine command completes (R240). -/
  | engineCommandCompletion (core : Nat) (id : Nat)
  /-- Event: Barchan fetches the next page of a sweep (R294). -/
  | sweepPageFetch (die : Nat) (idx : Nat)
  /-- Event: a staged page is delivered to a subscription (R297). -/
  | pageDelivery (die : Nat) (idx : Nat)
  /-- Event: the core creates its next sweep-handler warp (R298). -/
  | sweepHandlerCreation (core : Nat)
  /-- Event: the device reads a head card and its code header (R312). -/
  | cardRead (idx : Nat)
  /-- Event: a placement decision of a core (R318). -/
  | unitPlacement (core : Nat)
  /-- Event: the placer places an any-queue unit (R319). -/
  | anyQueuePlacement (pick : Nat)
  /-- Event: a member warp takes an ARGK launch (R314). -/
  | argkMemberStart (l : Nat) (w : WarpRef)
  /-- Event: the oldest active message of a core starts (R325). -/
  | amsArrival (core : Nat)
  /-- Event: a core decides to preempt a launch (R355). -/
  | preemptionRequest (core : Nat) (l : Nat)
  /-- Event: a warp of a preempted launch stops (R356). -/
  | warpStop (w : WarpRef)
  /-- Event: the stop limit of a preemption is reached (R358). -/
  | ptimeExpiry (core : Nat) (l : Nat)
  /-- Event: a stopped launch is saved on a core (R359). -/
  | contextSave (core : Nat) (l : Nat)
  /-- Event: a saved launch is restored on a core (R360). -/
  | contextResume (core : Nat) (l : Nat)
  /-- Event: the value or command `id` of a core is poisoned (R361). -/
  | uncorrectableDataError (core : Nat) (id : Nat)
  /-- Event: an error in a queue entry or the DEP word of a card (R362). -/
  | schedulingStateError (tenant : Nat) (card : Nat)
  /-- Event: the driver writes ENABLE (R371). -/
  | enable (v : Word)
  /-- Event: service command DRAIN (R383). -/
  | drain (core : Nat)
  /-- Event: service command UNFENCE (R383). -/
  | unfence (core : Nat)
  /-- Event: service command RETIRE (R383). -/
  | retire (pa : Nat)
  /-- Event: service command RECAL (R383). -/
  | recal (port : Nat)
  /-- Event: service command RELOAD (R383). -/
  | reload (cc : Nat)
  /-- Event: the running service command finishes (R386). -/
  | serviceCommandDone
  /-- Event: the host writes MBXCTL (R381). -/
  | mailboxGo (v : Word)
  /-- Event: power-up of the package (R380). -/
  | powerUp
  /-- Event: a firmware image arrives with its two signature verdicts and hash (R380). -/
  | imageArrival (mbx : Bool) (ed : Bool) (ml : Bool) (hash : (BitVec 384))
  /-- Event: firmware releases a core from reset (R339). -/
  | coreStart (core : Nat)
  /-- Event: a write of FRESOLVE (R122). -/
  | fresolve (tenant : Nat) (v : Word)
  /-- Event: a write of TLBINV with ALL = 0 (R374). -/
  | tlbinvPage (tenant : Nat) (v : Word)
  /-- Event: a write of TLBINV with ALL = 1 (R374). -/
  | tlbinvAll (tenant : Nat) (v : Word)
  /-- Event: an invalidation completes (R123). -/
  | tlbInvalidationDone (tenant : Nat)
  /-- Event: a write of POST (R374). -/
  | hostPost (tenant : Nat) (card : Word)
  /-- Event: a write of PREEMPT naming a core (R373). -/
  | preemptCore (tenant : Nat) (core : Nat)
  /-- Event: a write of PREEMPT naming all cores (R373). -/
  | preemptAll (tenant : Nat)
  /-- Event: a write of FQCTL (R375). -/
  | fqctlWrite (tenant : Nat) (v : Word)
  /-- Event: a write of another register of function `fn` (0: PF; t + 1: VF of tenant t) (R371, R373). -/
  | registerWrite (fn : Nat) (offset : Nat) (v : Word)
  /-- Event: a host write through BAR2 (R370). -/
  | bar2Write (pa : Nat) (bytes : (List Byte))
  /-- Event: a link flit arrives with the verdict of its CRC; `bad`: the sender found its retained copy uncorrectable (R377, R378). -/
  | linkFlitReceive (port : Nat) (seq : (BitVec 12)) (payload : (BitVec 256)) (crc : Bool) (bad : Bool)
  /-- Event: a packet is sent again end to end (R378). -/
  | endToEndResend (dst : Nat) (num : Nat)
  /-- Event: a sync access of another node arrives (R379). -/
  | remoteSyncArrival (src : Nat) (num : Nat) (acc : RemoteSync)
  /-- Event: no response within the bound (R378). -/
  | fabricResponseTimeout (core : Nat) (id : Nat)
  /-- Event: draw above PWRLIM (R385). -/
  | powerOverLimit
  /-- Event: junction at 105 degrees (R385). -/
  | thermalThrottle
  /-- Event: junction at 115 degrees (R385). -/
  | thermalHalt
  /-- Event: an `icinv` of the warp is complete (R77). -/
  | icinvCompletion (w : WarpRef)
  /-- Event: an acknowledgement returns to a core (R117). -/
  | acknowledgementReturn (core : Nat) (id : Nat)
  /-- Event: an attester's SPDM request (R380). -/
  | spdmRequest
  /-- Event: the host link trains (R368). -/
  | hostLinkTraining (rate : Nat) (width : Nat)
  deriving DecidableEq, Repr

/-- An instruction slot of a packet: the chain bit C (R44) and the instruction. -/
structure Slot where
  chain : Bool
  instr : Instr
  deriving DecidableEq, Repr

end Sys2Proof
end

