-- ==== Sys2Proof/Machine/Legal.lean ====
section
/-!
DEFINITION. The field values each instruction accepts (R47, R80 and each entry). A value refused here is the
ILLOP fate of the instruction at its issue, before any other trap of it (R344 item 1).
-/

namespace Sys2Proof

/-- A source operand code (R47): 30 and 31 are refused; 29 reads the x field. -/
def srcOk (c : BitVec 5) : Bool := c.toNat < 30

/-- A source operand code where x is in use for something else: 29 is refused too (R47). -/
def srcNoX (c : BitVec 5) : Bool := c.toNat < 29

/-- A destination operand code: window slot, temporary or z (R47). -/
def dstOk (c : BitVec 5) : Bool := c.toNat ≤ 24

/-- A window-slot code. -/
def winOk (c : BitVec 5) : Bool := c.toNat < 16

/-- The first of four consecutive window slots: w0, w4, w8 or w12. -/
def quadOk (c : BitVec 5) : Bool := c.toNat < 16 && c.toNat % 4 == 0

/-- A field that names a set register (R217). -/
def setOk (c : BitVec 5) : Bool := c.toNat < 8

/-- A field that names a set register as a destination: not k0 (R217). -/
def setDstOk (c : BitVec 5) : Bool := c.toNat < 8 && c.toNat != 0

/-- A rounding-mode code (R95). -/
def rmOk (rm : BitVec 3) : Bool := rm.toNat < 5

/-- Two or one sources and a destination, x used only through code 29. -/
def Opnds.ok (o : Opnds) : Bool := dstOk o.d && srcOk o.a && srcOk o.b

/-- Three sources, the third named by x, and a destination. -/
def Opnds.ok3 (o : Opnds) : Bool := dstOk o.d && srcNoX o.a && srcNoX o.b && srcNoX o.x

/-- The element formats of R108. -/
inductive EFmt where
  | raw | f64 | f32 | f16 | bf16 | t8 | t6 | h4 | i8 | i16 | i32 | i64 | n8 | n16 | n32 | n64
  deriving DecidableEq, Repr

/-- The EFMT codes of R108. -/
def EFmt.ofCode (c : BitVec 4) : EFmt :=
  match c.toNat with
  | 0 => .raw | 1 => .f64 | 2 => .f32 | 3 => .f16 | 4 => .bf16 | 5 => .t8 | 6 => .t6 | 7 => .h4
  | 8 => .i8 | 9 => .i16 | 10 => .i32 | 11 => .i64 | 12 => .n8 | 13 => .n16 | 14 => .n32 | _ => .n64

/-- The width of a sub-element (R84); a raw element is a byte. -/
def EFmt.width : EFmt → Nat
  | .raw => 8 | .f64 => 64 | .f32 => 32 | .f16 => 16 | .bf16 => 16 | .t8 => 8 | .t6 => 6 | .h4 => 4
  | .i8 => 8 | .i16 => 16 | .i32 => 32 | .i64 => 64 | .n8 => 8 | .n16 => 16 | .n32 => 32 | .n64 => 64

/-- The number of sub-elements of a lane register, `64 div w` (R84). -/
def EFmt.count (f : EFmt) : Nat := 64 / f.width

/-- The integer formats (EFMT 8-15, R175). -/
def EFmt.isInt : EFmt → Bool
  | .i8 | .i16 | .i32 | .i64 | .n8 | .n16 | .n32 | .n64 => true
  | _ => false

/-- The integer types of the ITY field (R156): n8, n16, n32, n64, i8, i16, i32, i64. -/
def ityFmt (ity : BitVec 3) : EFmt :=
  match ity.toNat with
  | 0 => .n8 | 1 => .n16 | 2 => .n32 | 3 => .n64 | 4 => .i8 | 5 => .i16 | 6 => .i32 | _ => .i64

/-- The float types of the TY field (R156). -/
def tyFmt (ty : BitVec 2) : EFmt :=
  match ty.toNat with
  | 0 => .f64 | 1 => .f32 | 2 => .f16 | _ => .bf16

/-- The types of the RTY field (R180); code 7 is refused by every entry. -/
def rtyFmt (r : BitVec 4) : EFmt :=
  match r.toNat with
  | 0 => .f64 | 1 => .f32 | 2 => .f16 | 3 => .bf16 | 4 => .t8 | 5 => .t6 | 6 => .h4 | 7 => .raw
  | 8 => .n8 | 9 => .n16 | 10 => .n32 | 11 => .n64 | 12 => .i8 | 13 => .i16 | 14 => .i32 | _ => .i64

/-- The number of parts of a conversion (R168). -/
def partCount (src dst : EFmt) : Nat :=
  if dst.count ≤ src.count then (src.count + dst.count - 1) / dst.count
  else (dst.count + src.count - 1) / src.count

/-- Fields of `xred` and `xscan` (R180). -/
def redOk (rty : BitVec 4) (rop : BitVec 2) (rm : BitVec 3) (ftz : BitVec 1) : Bool :=
  let r := rty.toNat
  !(4 ≤ r && r ≤ 7) && rm.toNat < 4 &&
    (if r < 4 then rop.toNat != 3 && (rm.toNat == 0 || rop.toNat == 0)
     else rm.toNat == 0 && ftz.toNat == 0)

/-- Fields of `atom` other than `cas` (R140): the scope, and x zero unless b is coded 29. -/
def atomOk (o : Opnds) (scope : BitVec 3) : Bool :=
  o.ok && 2 ≤ scope.toNat && scope.toNat ≤ 6 && (o.b.toNat == 29 || o.x.toNat == 0)

/-- Whether every field of an instruction has a value its entry accepts. Events have no fields to refuse. -/
def Instr.legal : Instr → Bool
  | .nop | .trail _ _ _ | .bra _ | .bre _ _ | .brn _ _ | .call _ _ | .exit _ | .yield => true
  | .brx _ a _ | .ret _ a _ => srcOk a
  | .loop _ d _ => winOk d
  | .icinv a b _ _ => srcOk a && srcOk b
  | .claim n | .give n => 1 ≤ n.toNat && n.toNat ≤ 15
  | .ktestInt _ d a b _ cc _ kf =>
    setDstOk d && kf.toNat != 0 && d.toNat != kf.toNat && srcNoX a && srcNoX b && cc.toNat < 6
  | .ktestFloat _ d a b _ fc _ _ kf =>
    setDstOk d && kf.toNat != 0 && d.toNat != kf.toNat && srcNoX a && srcNoX b && fc.toNat < 7
  | .kand d a b | .kor d a b | .kdiff d a b => setDstOk d && setOk a && setOk b
  | .kcount _ d a => dstOk d && setOk a
  | .kfirst _ d a b _ => dstOk d && setOk a && srcOk b
  | .kmakeV d a | .kmakeM d a => setDstOk d && srcOk a
  | .kself d => setDstOk d
  | .kld d a b _ => setDstOk d && srcOk a && srcOk b
  | .kst d a b _ => setOk d && srcOk a && srcOk b
  | .kmerge d a => setOk d && srcOk a
  | .kfree d => setOk d
  | .kqpush d a b => dstOk d && srcOk a && setOk b
  | .kqpop d a => dstOk d && srcOk a
  | .applyS _ _ | .applyR _ _ _ _ | .enda => true
  | .gmake _ d => setDstOk d
  | .join _ a | .leave _ a | .gdis a => setOk a
  | .add o _ _ | .sub o _ _ | .min o _ | .max o _ | .mul o _ _ | .mulhi o _ => o.ok
  | .mad o _ _ | .sel o => o.ok3
  | .and o | .or o | .xor o | .andn o | .shl o _ | .shr o _ | .sar o _ | .rot o _ | .lea o _ => o.ok
  | .clz _ d a _ | .ctz _ d a _ | .popc _ d a _ | .brev _ d a _ => dstOk d && srcOk a
  | .cmp o _ cc => o.ok && cc.toNat < 6
  | .abs _ d a ity _ => dstOk d && srcOk a && 4 ≤ ity.toNat
  | .neg _ d a _ _ => dstOk d && srcOk a
  | .ext _ d a _ lenm p | .ins _ d a lenm p => dstOk d && srcNoX a && p.toNat + lenm.toNat + 1 ≤ 64
  | .movi _ d _ => dstOk d
  | .movh _ d a _ | .addi _ d a _ => dstOk d && srcNoX a
  | .icvt _ d a dst src _ part =>
    dstOk d && srcNoX a && part.toNat < partCount (ityFmt src) (ityFmt dst)
  | .fadd o _ rm _ | .fsub o _ rm _ | .fmul o _ rm _ | .fscl o _ rm _ => o.ok && rmOk rm
  | .fma o _ rm _ | .fnma o _ rm _ => o.ok3 && rmOk rm
  | .fmin o _ _ | .fmax o _ _ => o.ok
  | .fdot2 o ty rm _ => o.ok3 && ty.toNat != 0 && rm.toNat < 4
  | .fsgn o e opc =>
    o.ok && 1 ≤ e.toNat && e.toNat ≤ 7 && opc.toNat < 3 &&
      (opc.toNat == 2 || (o.b.toNat == 0 && o.x.toNat == 0))
  | .frnd _ d a _ rm _ => dstOk d && srcOk a && rmOk rm
  | .fcvt _ d a dst src rm _ part =>
    dstOk d && srcNoX a && dst.toNat != 0 && src.toNat != 0 &&
      !((EFmt.ofCode dst).isInt && (EFmt.ofCode src).isInt) && rmOk rm &&
      (dst.toNat != 7 || rm.toNat == 0) && part.toNat < partCount (EFmt.ofCode src) (EFmt.ofCode dst)
  | .xperm o wd _ => o.ok && wd.toNat < 4
  | .xshf o wd _ _ | .xbc o wd _ => o.ok && wd.toNat < 6
  | .xbal _ d a wd _ => dstOk d && srcOk a && wd.toNat < 2
  | .xred _ d a rty rop rm ftz _ => dstOk d && srcNoX a && redOk rty rop rm ftz
  | .xscan _ d a rty rop rm ftz _ _ => dstOk d && srcNoX a && redOk rty rop rm ftz
  | .xtopk _ d a b rty _ _ _ => dstOk d && srcNoX a && srcNoX b && rty.toNat != 7
  | .sfq _ d a b ty fn _ =>
    winOk d && srcNoX a && dstOk b && ty.toNat != 0 && fn.toNat < 12
  | .sfw _ => true
  | .sfp _ d => dstOk d
  | .ld o sz cp _ =>
    (if sz.toNat == 7 then quadOk o.d else dstOk o.d) && srcOk o.a && srcOk o.b && cp.toNat < 2
  | .st o sz cp =>
    (if sz.toNat == 7 then quadOk o.d else srcOk o.d && sz.toNat < 4) && srcOk o.a && srcOk o.b
      && cp.toNat < 2
  | .ldn o sz _ => (if sz.toNat == 7 then quadOk o.d else dstOk o.d) && srcOk o.a && srcOk o.b
  | .stn o sz =>
    (if sz.toNat == 7 then quadOk o.d else srcOk o.d && sz.toNat < 4) && srcOk o.a && srcOk o.b
  | .ldt o _ rm _ chk _ =>
    dstOk o.d && rmOk rm && (if chk.toNat == 1 then srcNoX o.a && srcNoX o.b else srcOk o.a && srcOk o.b)
  | .stt o _ rm _ chk =>
    rmOk rm && (if chk.toNat == 1 then srcNoX o.d && srcNoX o.a && srcNoX o.b
                else srcOk o.d && srcOk o.a && srcOk o.b)
  | .pref _ a b _ _ => srcOk a && srcOk b
  | .atomAdd o sc _ | .atomFadd o sc _ | .atomBinc o sc _ | .atomXchg o sc _ | .atomMinS o sc _
  | .atomMaxS o sc _ | .atomMinU o sc _ | .atomMaxU o sc _ | .atomAnd o sc _ | .atomOr o sc _
  | .atomXor o sc _ => atomOk o sc
  | .atomCas o sc _ => o.ok3 && 2 ≤ sc.toNat && sc.toNat ≤ 6
  | .rwr _ a b _ => srcOk a && srcOk b
  | .awt d b _ _ _ _ => dstOk d && srcOk b
  | .bind a b cc | .unbind a b cc => srcNoX a && srcNoX b && srcNoX cc
  | .acq _ d a sc _ => dstOk d && srcOk a && sc.toNat < 7
  | .rel _ a sc => srcOk a && sc.toNat < 7
  | .fence sc => sc.toNat < 7
  | .publish a => srcOk a
  | .fread _ d a sc _ => dstOk d && srcOk a && 2 ≤ sc.toNat && sc.toNat ≤ 6
  | .ffill _ a b _ sc => srcOk a && srcOk b && 2 ≤ sc.toNat && sc.toNat ≤ 6
  | .fclr _ a _ sc => srcOk a && 2 ≤ sc.toNat && sc.toNat ≤ 6
  | .cpy _ d a b _ dir => winOk d && winOk a && winOk b && b.toNat % 2 == 0 && dir.toNat < 3
  | .cpym _ d a b _ pm => winOk d && winOk a && winOk b && b.toNat % 2 == 0 && pm.toNat != 0
  | .tall _ _ | .tany _ _ => true
  | .tffr _ d a => dstOk d && srcOk a
  | .mloop _ d _ _ _ mx fmt => quadOk d && fmt.toNat < 7 && (mx.toNat == 0 || fmt.toNat < 4)
  | .mzero _ _ => true
  | .mrdN _ d _ _ _ | .mwrN _ d _ => winOk d
  | .mrdW _ d a _ _ _ | .mwrW _ d a _ => quadOk d && winOk a
  | .lacfg _ a => winOk a
  | .laseed _ a b | .lafb _ a b _ => winOk a && winOk b
  | .lainfN _ d a b _ | .lardN _ d a b _ _ | .lawrN _ d a b => winOk d && winOk a && winOk b
  | .lainfW _ d a _ _ | .lardW _ d a _ _ | .lawrW _ d a => quadOk d && winOk a
  | .swsub _ d a => winOk d && quadOk a
  | .swleave _ a | .swgo _ a _ _ => winOk a
  | .swrd _ d a mm => winOk d && winOk a && mm.toNat < 3
  | .swmerge _ d a b => winOk d && winOk a && winOk b
  | .swwait a => winOk a
  | .post d a q dir | .spawn d a q dir =>
    dstOk d && srcOk a && q.toNat < 3 && (q.toNat == 1 || dir.toNat == 0)
  | .qtake d a q => dstOk d && srcOk a && (q.toNat == 0 || q.toNat == 2)
  | .ams d a b => (d.toNat == 0 || d.toNat == 8) && srcOk a && srcOk b
  | .bbind a n => setOk a && n.toNat < 48
  | .bunb n => n.toNat < 48
  | .barr _ d n => dstOk d && n.toNat < 48
  | .bwt a n => srcNoX a && n.toNat < 48
  | .dbar _ d _ => dstOk d
  | .dwt a _ => srcNoX a
  | .trap _ | .tret _ | .brk _ | .lmark _ | .ppoint _ | .ide => true
  | .sysrd _ d num => dstOk d && num.toNat < 12
  | .syswr a num => srcNoX a && num.toNat < 12
  | .idb a b => srcOk a && srcOk b
  | .instructionFetch _ | .runHeader _ | .runCommit _ | .pendingValueArrival _ _ | .sfqCompletion _ _
  | .deposit _ _ | .warpCreation _ | .claimGrant _ | .activeSetEntry _ | .warpRetirement _ | .launchEnd _
  | .launchAbort _ | .deviceBarrierPhase _ | .applyWarpCreation _ | .watchdogExpiry _ | .claimDeadlock _
  | .handlerWarpCreation _ _ | .l1Eviction _ _ | .homeAccessPerform _ | .engineCommandStart _ _
  | .engineCommandCompletion _ _ | .sweepPageFetch _ _ | .pageDelivery _ _ | .sweepHandlerCreation _
  | .cardRead _ | .unitPlacement _ | .anyQueuePlacement _ | .argkMemberStart _ _ | .amsArrival _
  | .preemptionRequest _ _ | .warpStop _ | .ptimeExpiry _ _ | .contextSave _ _ | .contextResume _ _
  | .uncorrectableDataError _ _ | .schedulingStateError _ _ | .enable _ | .drain _ | .unfence _ | .retire _
  | .recal _ | .reload _ | .serviceCommandDone | .mailboxGo _ | .powerUp | .imageArrival _ _ _ _
  | .coreStart _ | .fresolve _ _ | .tlbinvPage _ _ | .tlbinvAll _ _ | .tlbInvalidationDone _
  | .hostPost _ _ | .preemptCore _ _ | .preemptAll _ | .fqctlWrite _ _ | .registerWrite _ _ _
  | .bar2Write _ _ | .linkFlitReceive _ _ _ _ _ | .endToEndResend _ _ | .remoteSyncArrival _ _ _
  | .fabricResponseTimeout _ _ | .powerOverLimit | .thermalThrottle | .thermalHalt | .icinvCompletion _
  | .acknowledgementReturn _ _ | .spdmRequest | .hostLinkTraining _ _ => true

end Sys2Proof
end

