-- ==== Sys2Proof/WellFormed.lean ====
section
/-!
DEFINITION. Well-formed instructions and events: an encoded instruction whose fields its entry accepts (R47,
R80; `Instr.legal`), with the encoding conventions that R57 fixes, and an event that names cores, slots,
dies, tenants and ports of the device (R1, R3, R16).
-/

namespace Sys2Proof

/-- A core number (R16). -/
def coreOk (c : Nat) : Bool := c < 144

/-- A warp slot (R3). -/
def slotOk (s : Nat) : Bool := s < 64

/-- A warp the device can hold. -/
def WarpRef.ok (w : WarpRef) : Bool := coreOk w.core && slotOk w.slot

/-- A tenant number (R3). -/
def tenantOk (t : Nat) : Bool := t < 16

/-- Whether an instruction or event is well formed. -/
def Instr.WellFormed : Instr → Bool
  | .trail te tag _ => te.toNat == 1 || tag.toNat == 0
  | .instructionFetch w | .runHeader w | .runCommit w | .warpRetirement w | .watchdogExpiry w
  | .warpStop w | .icinvCompletion w => w.ok
  | .sfqCompletion w t => w.ok && t < 16
  | .argkMemberStart _ w => w.ok
  | .pendingValueArrival c _ | .deposit c _ | .warpCreation c | .claimGrant c | .activeSetEntry c
  | .applyWarpCreation c | .claimDeadlock c | .l1Eviction c _ | .engineCommandStart c _
  | .engineCommandCompletion c _ | .sweepHandlerCreation c | .unitPlacement c | .amsArrival c
  | .preemptionRequest c _ | .ptimeExpiry c _ | .contextSave c _ | .contextResume c _
  | .uncorrectableDataError c _ | .drain c | .unfence c | .coreStart c | .fabricResponseTimeout c _
  | .acknowledgementReturn c _ => coreOk c
  | .handlerWarpCreation c s => coreOk c && slotOk s
  | .deviceBarrierPhase j => j < 16
  | .sweepPageFetch d _ | .pageDelivery d _ => d < 4
  | .schedulingStateError t _ | .fresolve t _ | .tlbinvPage t _ | .tlbinvAll t _ | .tlbInvalidationDone t
  | .hostPost t _ | .preemptAll t | .fqctlWrite t _ => tenantOk t
  | .preemptCore t c => tenantOk t && coreOk c
  | .registerWrite fn off _ => fn < 17 && off % 8 == 0 && off < 65536
  | .reload c => c < 4
  | .recal p | .linkFlitReceive p _ _ _ _ => p < 72
  | i => i.legal

end Sys2Proof
end

