-- ==== Sys2Proof/Decode.lean ====
section
/-!
DEFINITION. Decoding and encoding of instruction slots (R40-R47 and the assignment tables R71, R129, R158,
R169, R177, R183, R218, R241, R279, R291, R322, R350).

A slot is a 32-bit word and the 10-bit extension its packet word holds for it. `Fields` splits both at the
places R46 and R42 give; the formats I and J are read from the same fields. Decoding is total. It rejects a
slot by a name: a reserved op code, a reserved fn code, or a nonzero field that must be zero; each is the fate
ILLOP of R80. Operand codes, types and other field values that an entry refuses are not the decoder's: they
are the ILLOP fates of the instruction when it issues (`Instr.legal`).
-/

namespace Sys2Proof

/-- Why a slot is no instruction (R79, R80). Each is met with ILLOP when the slot issues. -/
inductive DecodeErr where
  /-- The op code is reserved or unassigned. -/
  | reservedOp
  /-- The fn code, or the second selector of the op code, is reserved or unassigned. -/
  | reservedFn
  /-- A field that must be zero is not. -/
  | mustBeZero
  deriving DecidableEq, Repr

/-- The fields of a slot: those of its word (format R of R46) and of its extension (R42). -/
structure Fields where
  c  : BitVec 1
  op : BitVec 7
  k  : BitVec 3
  d  : BitVec 5
  a  : BitVec 5
  b  : BitVec 5
  fn : BitVec 6
  x  : BitVec 5
  la : BitVec 4
  z  : BitVec 1
  deriving DecidableEq, Repr

/-- Splits a slot's word and extension (R46, R42). -/
def Fields.ofSlot (w : BitVec 32) (e : BitVec 10) : Fields where
  c  := w.extractLsb' 31 1
  op := w.extractLsb' 24 7
  k  := w.extractLsb' 21 3
  d  := w.extractLsb' 16 5
  a  := w.extractLsb' 11 5
  b  := w.extractLsb' 6 5
  fn := w.extractLsb' 0 6
  x  := e.extractLsb' 5 5
  la := e.extractLsb' 1 4
  z  := e.extractLsb' 0 1

/-- The word of a slot's fields. -/
def Fields.word (f : Fields) : BitVec 32 := f.c ++ f.op ++ f.k ++ f.d ++ f.a ++ f.b ++ f.fn

/-- The extension of a slot's fields. -/
def Fields.ext (f : Fields) : BitVec 10 := f.x ++ f.la ++ f.z

/-- The 16-bit immediate of format I, `x ∥ imm11` (R46). -/
def Fields.imm16 (f : Fields) : BitVec 16 := f.x ++ f.b ++ f.fn

/-- The 26-bit immediate of format J, `x ∥ imm21` (R46). -/
def Fields.imm26 (f : Fields) : BitVec 26 := f.x ++ f.d ++ f.a ++ f.b ++ f.fn

/-- The operand fields of format R. -/
def Fields.opnds (f : Fields) : Opnds := { k := f.k, d := f.d, a := f.a, b := f.b, x := f.x }

/-- All fields zero but the op code. -/
def Fields.zero (op : BitVec 7) : Fields := ⟨0, op, 0, 0, 0, 0, 0, 0, 0, 0⟩

/-- Places a format-I immediate. -/
def Fields.withImm16 (f : Fields) (i : BitVec 16) : Fields :=
  { f with x := i.extractLsb' 11 5, b := i.extractLsb' 6 5, fn := i.extractLsb' 0 6 }

/-- Places a format-J immediate. -/
def Fields.withImm26 (f : Fields) (i : BitVec 26) : Fields :=
  { f with x := i.extractLsb' 21 5, d := i.extractLsb' 16 5, a := i.extractLsb' 11 5,
           b := i.extractLsb' 6 5, fn := i.extractLsb' 0 6 }

/-- Decodes the control, run and pool instructions (R71). -/
def decodeControl (f : Fields) : Except DecodeErr Instr :=
  match f.op.toNat with
  | 0x01 =>
    if f.c == 0#1 && f.k == 0#3 && f.d.extractLsb' 3 1 == 0#1 && f.x == 0#5 && f.la == 0#4
        && (f.d.extractLsb' 4 1 == 1#1 || f.d.extractLsb' 0 3 == 0#3) then
      .ok (.trail (f.d.extractLsb' 4 1) (f.d.extractLsb' 0 3) (f.a ++ f.b ++ f.fn))
    else .error .mustBeZero
  | 0x00 =>
    if f.k == 0#3 && f.d == 0#5 && f.a == 0#5 && f.b == 0#5 && f.fn == 0#6 && f.x == 0#5 && f.la == 0#4 then .ok (.nop)
    else .error .mustBeZero
  | 0x02 =>
    if f.k == 0#3 && f.la == 0#4 then .ok (.bra f.imm26)
    else .error .mustBeZero
  | 0x03 =>
    if f.la == 0#4 then .ok (.bre f.k f.imm26)
    else .error .mustBeZero
  | 0x04 =>
    if f.la == 0#4 then .ok (.brn f.k f.imm26)
    else .error .mustBeZero
  | 0x05 =>
    if f.d == 0#5 && f.b == 0#5 && f.fn == 0#6 && f.la == 0#4 then .ok (.brx f.k f.a f.x)
    else .error .mustBeZero
  | 0x06 =>
    if f.la == 0#4 then .ok (.call f.k f.imm26)
    else .error .mustBeZero
  | 0x07 =>
    if f.d == 0#5 && f.b == 0#5 && f.fn == 0#6 && f.la == 0#4 then .ok (.ret f.k f.a f.x)
    else .error .mustBeZero
  | 0x08 =>
    if f.a == 0#5 && f.la == 0#4 then .ok (.loop f.k f.d f.imm16)
    else .error .mustBeZero
  | 0x09 =>
    if f.d == 0#5 && f.a == 0#5 && f.b == 0#5 && f.fn == 0#6 && f.x == 0#5 && f.la == 0#4 then .ok (.exit f.k)
    else .error .mustBeZero
  | 0x0A =>
    if f.k == 0#3 && f.d == 0#5 && f.a == 0#5 && f.b == 0#5 && f.fn == 0#6 && f.x == 0#5 && f.la == 0#4 then .ok (.yield)
    else .error .mustBeZero
  | 0x0B =>
    if f.k == 0#3 && f.d == 0#5 && (f.fn.extractLsb' 2 4) == 0#4 && f.la == 0#4 then .ok (.icinv f.a f.b f.x (f.fn.extractLsb' 0 2))
    else .error .mustBeZero
  | 0x0C =>
    if f.k == 0#3 && f.d == 0#5 && f.a == 0#5 && f.la == 0#4 then .ok (.claim f.imm16)
    else .error .mustBeZero
  | 0x0D =>
    if f.k == 0#3 && f.d == 0#5 && f.a == 0#5 && f.la == 0#4 then .ok (.give f.imm16)
    else .error .mustBeZero
  | _ => .error .reservedOp

/-- Decodes the set instructions (R218). -/
def decodeSet (f : Fields) : Except DecodeErr Instr :=
  match f.op.toNat with
  | 0x10 =>
    if (f.x.extractLsb' 4 1) == 0#1 && f.la == 0#4 then .ok (.ktestInt f.k f.d f.a f.b (f.fn.extractLsb' 3 3) (f.fn.extractLsb' 0 3) (f.x.extractLsb' 3 1) (f.x.extractLsb' 0 3))
    else .error .mustBeZero
  | 0x11 =>
    if (f.x.extractLsb' 4 1) == 0#1 && f.la == 0#4 then .ok (.ktestFloat f.k f.d f.a f.b (f.fn.extractLsb' 4 2) (f.fn.extractLsb' 1 3) (f.fn.extractLsb' 0 1) (f.x.extractLsb' 3 1) (f.x.extractLsb' 0 3))
    else .error .mustBeZero
  | 0x12 =>
    if (f.fn.extractLsb' 2 4) == 0#4 && (f.fn.extractLsb' 0 2) == 0#2 then
      (if f.k == 0#3 && f.x == 0#5 && f.la == 0#4 then .ok (.kand f.d f.a f.b) else .error .mustBeZero)
    else if (f.fn.extractLsb' 2 4) == 0#4 && (f.fn.extractLsb' 0 2) == 1#2 then
      (if f.k == 0#3 && f.x == 0#5 && f.la == 0#4 then .ok (.kor f.d f.a f.b) else .error .mustBeZero)
    else if (f.fn.extractLsb' 2 4) == 0#4 && (f.fn.extractLsb' 0 2) == 2#2 then
      (if f.k == 0#3 && f.x == 0#5 && f.la == 0#4 then .ok (.kdiff f.d f.a f.b) else .error .mustBeZero)
    else .error .reservedFn
  | 0x13 =>
    if f.fn == 0#6 then
      (if f.b == 0#5 && f.x == 0#5 && f.la == 0#4 then .ok (.kcount f.k f.d f.a) else .error .mustBeZero)
    else if f.fn == 1#6 then
      (if f.la == 0#4 then .ok (.kfirst f.k f.d f.a f.b f.x) else .error .mustBeZero)
    else .error .reservedFn
  | 0x14 =>
    if f.fn == 0#6 then
      (if f.k == 0#3 && f.b == 0#5 && f.x == 0#5 && f.la == 0#4 then .ok (.kmakeV f.d f.a) else .error .mustBeZero)
    else if f.fn == 1#6 then
      (if f.k == 0#3 && f.b == 0#5 && f.x == 0#5 && f.la == 0#4 then .ok (.kmakeM f.d f.a) else .error .mustBeZero)
    else if f.fn == 2#6 then
      (if f.k == 0#3 && f.a == 0#5 && f.b == 0#5 && f.x == 0#5 && f.la == 0#4 then .ok (.kself f.d) else .error .mustBeZero)
    else .error .reservedFn
  | 0x15 =>
    if f.fn == 0#6 then
      (if f.k == 0#3 && f.la == 0#4 then .ok (.kld f.d f.a f.b f.x) else .error .mustBeZero)
    else if f.fn == 1#6 then
      (if f.k == 0#3 && f.la == 0#4 then .ok (.kst f.d f.a f.b f.x) else .error .mustBeZero)
    else .error .reservedFn
  | 0x16 =>
    if f.fn == 0#6 then
      (if f.k == 0#3 && f.b == 0#5 && f.x == 0#5 && f.la == 0#4 then .ok (.kmerge f.d f.a) else .error .mustBeZero)
    else if f.fn == 1#6 then
      (if f.k == 0#3 && f.a == 0#5 && f.b == 0#5 && f.x == 0#5 && f.la == 0#4 then .ok (.kfree f.d) else .error .mustBeZero)
    else .error .reservedFn
  | 0x17 =>
    if f.fn == 0#6 then
      (if f.k == 0#3 && f.x == 0#5 && f.la == 0#4 then .ok (.kqpush f.d f.a f.b) else .error .mustBeZero)
    else if f.fn == 1#6 then
      (if f.k == 0#3 && f.b == 0#5 && f.x == 0#5 && f.la == 0#4 then .ok (.kqpop f.d f.a) else .error .mustBeZero)
    else .error .reservedFn
  | 0x18 =>
    if (f.imm26.extractLsb' 0 8) == 0#8 && f.la == 0#4 then .ok (.applyS f.k (f.imm26.extractLsb' 8 18))
    else .error .mustBeZero
  | 0x19 =>
    if f.la == 0#4 then .ok (.applyR f.k (f.imm26.extractLsb' 8 18) (f.imm26.extractLsb' 4 4) (f.imm26.extractLsb' 0 4))
    else .error .mustBeZero
  | 0x1A =>
    if f.k == 0#3 && f.d == 0#5 && f.a == 0#5 && f.b == 0#5 && f.fn == 0#6 && f.x == 0#5 && f.la == 0#4 then .ok (.enda)
    else .error .mustBeZero
  | 0x1B =>
    if f.fn == 0#6 then
      (if f.a == 0#5 && f.b == 0#5 && f.x == 0#5 && f.la == 0#4 then .ok (.gmake f.k f.d) else .error .mustBeZero)
    else if f.fn == 1#6 then
      (if f.d == 0#5 && f.b == 0#5 && f.x == 0#5 && f.la == 0#4 then .ok (.join f.k f.a) else .error .mustBeZero)
    else if f.fn == 2#6 then
      (if f.d == 0#5 && f.b == 0#5 && f.x == 0#5 && f.la == 0#4 then .ok (.leave f.k f.a) else .error .mustBeZero)
    else if f.fn == 3#6 then
      (if f.k == 0#3 && f.d == 0#5 && f.b == 0#5 && f.x == 0#5 && f.la == 0#4 then .ok (.gdis f.a) else .error .mustBeZero)
    else .error .reservedFn
  | _ => .error .reservedOp

/-- Decodes the integer and address instructions (R158). -/
def decodeInteger (f : Fields) : Except DecodeErr Instr :=
  match f.op.toNat with
  | 0x20 =>
    if (f.fn.extractLsb' 0 2) == 0#2 then
      (if f.la == 0#4 then .ok (.add f.opnds (f.fn.extractLsb' 3 3) (f.fn.extractLsb' 2 1)) else .error .mustBeZero)
    else if (f.fn.extractLsb' 0 2) == 1#2 then
      (if f.la == 0#4 then .ok (.sub f.opnds (f.fn.extractLsb' 3 3) (f.fn.extractLsb' 2 1)) else .error .mustBeZero)
    else if (f.fn.extractLsb' 0 3) == 2#3 then
      (if f.la == 0#4 then .ok (.min f.opnds (f.fn.extractLsb' 3 3)) else .error .mustBeZero)
    else if (f.fn.extractLsb' 0 3) == 3#3 then
      (if f.la == 0#4 then .ok (.max f.opnds (f.fn.extractLsb' 3 3)) else .error .mustBeZero)
    else .error .reservedFn
  | 0x21 =>
    if (f.fn.extractLsb' 0 2) == 0#2 then
      (if f.la == 0#4 then .ok (.mul f.opnds (f.fn.extractLsb' 3 3) (f.fn.extractLsb' 2 1)) else .error .mustBeZero)
    else if (f.fn.extractLsb' 0 3) == 1#3 then
      (if f.la == 0#4 then .ok (.mulhi f.opnds (f.fn.extractLsb' 3 3)) else .error .mustBeZero)
    else if (f.fn.extractLsb' 0 2) == 2#2 then
      (if f.la == 0#4 then .ok (.mad f.opnds (f.fn.extractLsb' 3 3) (f.fn.extractLsb' 2 1)) else .error .mustBeZero)
    else .error .reservedFn
  | 0x22 =>
    if f.fn == 0#6 then
      (if f.la == 0#4 then .ok (.and f.opnds) else .error .mustBeZero)
    else if f.fn == 1#6 then
      (if f.la == 0#4 then .ok (.or f.opnds) else .error .mustBeZero)
    else if f.fn == 2#6 then
      (if f.la == 0#4 then .ok (.xor f.opnds) else .error .mustBeZero)
    else if f.fn == 3#6 then
      (if f.la == 0#4 then .ok (.andn f.opnds) else .error .mustBeZero)
    else .error .reservedFn
  | 0x23 =>
    if (f.fn.extractLsb' 0 3) == 0#3 then
      (if f.la == 0#4 then .ok (.shl f.opnds (f.fn.extractLsb' 3 3)) else .error .mustBeZero)
    else if (f.fn.extractLsb' 0 3) == 1#3 then
      (if f.la == 0#4 then .ok (.shr f.opnds (f.fn.extractLsb' 3 3)) else .error .mustBeZero)
    else if (f.fn.extractLsb' 0 3) == 2#3 then
      (if f.la == 0#4 then .ok (.sar f.opnds (f.fn.extractLsb' 3 3)) else .error .mustBeZero)
    else if (f.fn.extractLsb' 0 3) == 3#3 then
      (if f.la == 0#4 then .ok (.rot f.opnds (f.fn.extractLsb' 3 3)) else .error .mustBeZero)
    else .error .reservedFn
  | 0x24 =>
    if (f.fn.extractLsb' 0 3) == 0#3 then
      (if f.b == 0#5 && f.x == 0#5 && f.la == 0#4 then .ok (.clz f.k f.d f.a (f.fn.extractLsb' 3 3)) else .error .mustBeZero)
    else if (f.fn.extractLsb' 0 3) == 1#3 then
      (if f.b == 0#5 && f.x == 0#5 && f.la == 0#4 then .ok (.ctz f.k f.d f.a (f.fn.extractLsb' 3 3)) else .error .mustBeZero)
    else if (f.fn.extractLsb' 0 3) == 2#3 then
      (if f.b == 0#5 && f.x == 0#5 && f.la == 0#4 then .ok (.popc f.k f.d f.a (f.fn.extractLsb' 3 3)) else .error .mustBeZero)
    else if (f.fn.extractLsb' 0 3) == 3#3 then
      (if f.b == 0#5 && f.x == 0#5 && f.la == 0#4 then .ok (.brev f.k f.d f.a (f.fn.extractLsb' 3 3)) else .error .mustBeZero)
    else .error .reservedFn
  | 0x25 =>
    if f.la == 0#4 then .ok (.cmp f.opnds (f.fn.extractLsb' 3 3) (f.fn.extractLsb' 0 3))
    else .error .mustBeZero
  | 0x26 =>
    if f.fn == 0#6 && f.la == 0#4 then .ok (.sel f.opnds)
    else .error .mustBeZero
  | 0x27 =>
    if (f.fn.extractLsb' 0 2) == 0#2 then
      (if f.b == 0#5 && f.x == 0#5 && f.la == 0#4 then .ok (.abs f.k f.d f.a (f.fn.extractLsb' 3 3) (f.fn.extractLsb' 2 1)) else .error .mustBeZero)
    else if (f.fn.extractLsb' 0 2) == 1#2 then
      (if f.b == 0#5 && f.x == 0#5 && f.la == 0#4 then .ok (.neg f.k f.d f.a (f.fn.extractLsb' 3 3) (f.fn.extractLsb' 2 1)) else .error .mustBeZero)
    else .error .reservedFn
  | 0x28 =>
    if (f.imm16.extractLsb' 13 3) == 0#3 && f.la == 0#4 then .ok (.ext f.k f.d f.a (f.imm16.extractLsb' 12 1) (f.imm16.extractLsb' 6 6) (f.imm16.extractLsb' 0 6))
    else .error .mustBeZero
  | 0x29 =>
    if (f.imm16.extractLsb' 12 4) == 0#4 && f.la == 0#4 then .ok (.ins f.k f.d f.a (f.imm16.extractLsb' 6 6) (f.imm16.extractLsb' 0 6))
    else .error .mustBeZero
  | 0x2A =>
    if f.a == 0#5 && f.la == 0#4 then .ok (.movi f.k f.d f.imm16)
    else .error .mustBeZero
  | 0x2B =>
    if f.la == 0#4 then .ok (.movh f.k f.d f.a f.imm16)
    else .error .mustBeZero
  | 0x2C =>
    if f.la == 0#4 then .ok (.addi f.k f.d f.a f.imm16)
    else .error .mustBeZero
  | 0x2D =>
    if (f.fn.extractLsb' 3 3) == 0#3 && f.la == 0#4 then .ok (.lea f.opnds (f.fn.extractLsb' 0 3))
    else .error .mustBeZero
  | 0x2E =>
    if (f.imm16.extractLsb' 0 6) == 0#6 && f.la == 0#4 then .ok (.icvt f.k f.d f.a (f.imm16.extractLsb' 13 3) (f.imm16.extractLsb' 10 3) (f.imm16.extractLsb' 9 1) (f.imm16.extractLsb' 6 3))
    else .error .mustBeZero
  | _ => .error .reservedOp

/-- Decodes the float instructions (R169). -/
def decodeFloat (f : Fields) : Except DecodeErr Instr :=
  match f.op.toNat with
  | 0x38 =>
    if f.la == 0#4 then .ok (.fadd f.opnds (f.fn.extractLsb' 4 2) (f.fn.extractLsb' 1 3) (f.fn.extractLsb' 0 1))
    else .error .mustBeZero
  | 0x39 =>
    if f.la == 0#4 then .ok (.fsub f.opnds (f.fn.extractLsb' 4 2) (f.fn.extractLsb' 1 3) (f.fn.extractLsb' 0 1))
    else .error .mustBeZero
  | 0x3A =>
    if f.la == 0#4 then .ok (.fmul f.opnds (f.fn.extractLsb' 4 2) (f.fn.extractLsb' 1 3) (f.fn.extractLsb' 0 1))
    else .error .mustBeZero
  | 0x3B =>
    if f.la == 0#4 then .ok (.fma f.opnds (f.fn.extractLsb' 4 2) (f.fn.extractLsb' 1 3) (f.fn.extractLsb' 0 1))
    else .error .mustBeZero
  | 0x3C =>
    if f.la == 0#4 then .ok (.fnma f.opnds (f.fn.extractLsb' 4 2) (f.fn.extractLsb' 1 3) (f.fn.extractLsb' 0 1))
    else .error .mustBeZero
  | 0x3D =>
    if (f.fn.extractLsb' 1 3) == 0#3 && f.la == 0#4 then .ok (.fmin f.opnds (f.fn.extractLsb' 4 2) (f.fn.extractLsb' 0 1))
    else .error .mustBeZero
  | 0x3E =>
    if (f.fn.extractLsb' 1 3) == 0#3 && f.la == 0#4 then .ok (.fmax f.opnds (f.fn.extractLsb' 4 2) (f.fn.extractLsb' 0 1))
    else .error .mustBeZero
  | 0x3F =>
    if f.la == 0#4 then .ok (.fdot2 f.opnds (f.fn.extractLsb' 4 2) (f.fn.extractLsb' 1 3) (f.fn.extractLsb' 0 1))
    else .error .mustBeZero
  | 0x40 =>
    if f.la == 0#4 then .ok (.fsgn f.opnds (f.fn.extractLsb' 2 4) (f.fn.extractLsb' 0 2))
    else .error .mustBeZero
  | 0x41 =>
    if f.b == 0#5 && f.x == 0#5 && f.la == 0#4 then .ok (.frnd f.k f.d f.a (f.fn.extractLsb' 4 2) (f.fn.extractLsb' 1 3) (f.fn.extractLsb' 0 1))
    else .error .mustBeZero
  | 0x42 =>
    if f.la == 0#4 then .ok (.fscl f.opnds (f.fn.extractLsb' 4 2) (f.fn.extractLsb' 1 3) (f.fn.extractLsb' 0 1))
    else .error .mustBeZero
  | 0x43 =>
    if f.la == 0#4 then .ok (.fcvt f.k f.d f.a (f.imm16.extractLsb' 12 4) (f.imm16.extractLsb' 8 4) (f.imm16.extractLsb' 5 3) (f.imm16.extractLsb' 4 1) (f.imm16.extractLsb' 0 4))
    else .error .mustBeZero
  | _ => .error .reservedOp

/-- Decodes the cross-lane and special-function instructions (R177, R183). -/
def decodeCross (f : Fields) : Except DecodeErr Instr :=
  match f.op.toNat with
  | 0x48 =>
    if (f.fn.extractLsb' 0 3) == 0#3 then .ok (.xperm f.opnds (f.fn.extractLsb' 3 3) f.la)
    else .error .mustBeZero
  | 0x49 =>
    if (f.fn.extractLsb' 2 1) == 0#1 then .ok (.xshf f.opnds (f.fn.extractLsb' 3 3) (f.fn.extractLsb' 0 2) f.la)
    else .error .mustBeZero
  | 0x4A =>
    if (f.fn.extractLsb' 0 3) == 0#3 then .ok (.xbc f.opnds (f.fn.extractLsb' 3 3) f.la)
    else .error .mustBeZero
  | 0x4B =>
    if f.b == 0#5 && (f.fn.extractLsb' 0 3) == 0#3 && f.x == 0#5 then .ok (.xbal f.k f.d f.a (f.fn.extractLsb' 3 3) f.la)
    else .error .mustBeZero
  | 0x4C =>
    if f.b == 0#5 && (f.x.extractLsb' 0 1) == 0#1 then .ok (.xred f.k f.d f.a (f.fn.extractLsb' 2 4) (f.fn.extractLsb' 0 2) (f.x.extractLsb' 2 3) (f.x.extractLsb' 1 1) f.la)
    else .error .mustBeZero
  | 0x4D =>
    if f.b == 0#5 then .ok (.xscan f.k f.d f.a (f.fn.extractLsb' 2 4) (f.fn.extractLsb' 0 2) (f.x.extractLsb' 2 3) (f.x.extractLsb' 1 1) (f.x.extractLsb' 0 1) f.la)
    else .error .mustBeZero
  | 0x4E =>
    if (f.fn.extractLsb' 0 1) == 0#1 then .ok (.xtopk f.k f.d f.a f.b (f.fn.extractLsb' 2 4) (f.fn.extractLsb' 1 1) f.x f.la)
    else .error .mustBeZero
  | 0x50 =>
    if (f.x.extractLsb' 1 4) == 0#4 && f.la == 0#4 then .ok (.sfq f.k f.d f.a f.b (f.fn.extractLsb' 4 2) (f.fn.extractLsb' 0 4) (f.x.extractLsb' 0 1))
    else .error .mustBeZero
  | 0x51 =>
    if f.k == 0#3 && f.d == 0#5 && f.a == 0#5 && f.la == 0#4 then .ok (.sfw f.imm16)
    else .error .mustBeZero
  | 0x52 =>
    if f.a == 0#5 && f.b == 0#5 && f.fn == 0#6 && f.x == 0#5 && f.la == 0#4 then .ok (.sfp f.k f.d)
    else .error .mustBeZero
  | _ => .error .reservedOp

/-- Decodes the memory and sync instructions (R129). -/
def decodeMemory (f : Fields) : Except DecodeErr Instr :=
  match f.op.toNat with
  | 0x54 =>
    if (f.fn.extractLsb' 2 1) == 0#1 then .ok (.ld f.opnds (f.fn.extractLsb' 3 3) (f.fn.extractLsb' 0 2) f.la)
    else .error .mustBeZero
  | 0x55 =>
    if (f.fn.extractLsb' 2 1) == 0#1 && f.la == 0#4 then .ok (.st f.opnds (f.fn.extractLsb' 3 3) (f.fn.extractLsb' 0 2))
    else .error .mustBeZero
  | 0x56 =>
    if (f.fn.extractLsb' 0 3) == 0#3 then .ok (.ldn f.opnds (f.fn.extractLsb' 3 3) f.la)
    else .error .mustBeZero
  | 0x57 =>
    if (f.fn.extractLsb' 0 3) == 0#3 && f.la == 0#4 then .ok (.stn f.opnds (f.fn.extractLsb' 3 3))
    else .error .mustBeZero
  | 0x58 =>
    .ok (.ldt f.opnds (f.fn.extractLsb' 5 1) (f.fn.extractLsb' 2 3) (f.fn.extractLsb' 1 1) (f.fn.extractLsb' 0 1) f.la)
  | 0x59 =>
    if f.la == 0#4 then .ok (.stt f.opnds (f.fn.extractLsb' 5 1) (f.fn.extractLsb' 2 3) (f.fn.extractLsb' 1 1) (f.fn.extractLsb' 0 1))
    else .error .mustBeZero
  | 0x5A =>
    if f.d == 0#5 && (f.fn.extractLsb' 1 5) == 0#5 && f.la == 0#4 then .ok (.pref f.k f.a f.b f.x (f.fn.extractLsb' 0 1))
    else .error .mustBeZero
  | 0x5B =>
    if (f.fn.extractLsb' 0 2) == 0#2 then
      (if f.la == 0#4 then .ok (.atomAdd f.opnds (f.fn.extractLsb' 3 3) (f.fn.extractLsb' 2 1)) else .error .mustBeZero)
    else if (f.fn.extractLsb' 0 2) == 1#2 then
      (if f.la == 0#4 then .ok (.atomFadd f.opnds (f.fn.extractLsb' 3 3) (f.fn.extractLsb' 2 1)) else .error .mustBeZero)
    else if (f.fn.extractLsb' 0 2) == 2#2 then
      (if f.la == 0#4 then .ok (.atomBinc f.opnds (f.fn.extractLsb' 3 3) (f.fn.extractLsb' 2 1)) else .error .mustBeZero)
    else if (f.fn.extractLsb' 0 2) == 3#2 then
      (if f.la == 0#4 then .ok (.atomXchg f.opnds (f.fn.extractLsb' 3 3) (f.fn.extractLsb' 2 1)) else .error .mustBeZero)
    else .error .reservedFn
  | 0x5C =>
    if (f.fn.extractLsb' 0 2) == 0#2 then
      (if f.la == 0#4 then .ok (.atomMinS f.opnds (f.fn.extractLsb' 3 3) (f.fn.extractLsb' 2 1)) else .error .mustBeZero)
    else if (f.fn.extractLsb' 0 2) == 1#2 then
      (if f.la == 0#4 then .ok (.atomMaxS f.opnds (f.fn.extractLsb' 3 3) (f.fn.extractLsb' 2 1)) else .error .mustBeZero)
    else if (f.fn.extractLsb' 0 2) == 2#2 then
      (if f.la == 0#4 then .ok (.atomMinU f.opnds (f.fn.extractLsb' 3 3) (f.fn.extractLsb' 2 1)) else .error .mustBeZero)
    else if (f.fn.extractLsb' 0 2) == 3#2 then
      (if f.la == 0#4 then .ok (.atomMaxU f.opnds (f.fn.extractLsb' 3 3) (f.fn.extractLsb' 2 1)) else .error .mustBeZero)
    else .error .reservedFn
  | 0x5D =>
    if (f.fn.extractLsb' 0 2) == 0#2 then
      (if f.la == 0#4 then .ok (.atomAnd f.opnds (f.fn.extractLsb' 3 3) (f.fn.extractLsb' 2 1)) else .error .mustBeZero)
    else if (f.fn.extractLsb' 0 2) == 1#2 then
      (if f.la == 0#4 then .ok (.atomOr f.opnds (f.fn.extractLsb' 3 3) (f.fn.extractLsb' 2 1)) else .error .mustBeZero)
    else if (f.fn.extractLsb' 0 2) == 2#2 then
      (if f.la == 0#4 then .ok (.atomXor f.opnds (f.fn.extractLsb' 3 3) (f.fn.extractLsb' 2 1)) else .error .mustBeZero)
    else if (f.fn.extractLsb' 0 2) == 3#2 then
      (if f.la == 0#4 then .ok (.atomCas f.opnds (f.fn.extractLsb' 3 3) (f.fn.extractLsb' 2 1)) else .error .mustBeZero)
    else .error .reservedFn
  | 0x5E =>
    if f.d == 0#5 && f.fn == 0#6 && f.la == 0#4 then .ok (.rwr f.k f.a f.b f.x)
    else .error .mustBeZero
  | 0x5F =>
    if f.k == 0#3 && f.a == 0#5 && (f.fn.extractLsb' 0 2) == 0#2 && f.la == 0#4 then .ok (.awt f.d f.b f.x (f.fn.extractLsb' 4 2) (f.fn.extractLsb' 3 1) (f.fn.extractLsb' 2 1))
    else .error .mustBeZero
  | 0x60 =>
    if f.fn == 0#6 then
      (if f.k == 0#3 && f.d == 0#5 && f.la == 0#4 then .ok (.bind f.a f.b f.x) else .error .mustBeZero)
    else if f.fn == 1#6 then
      (if f.k == 0#3 && f.d == 0#5 && f.la == 0#4 then .ok (.unbind f.a f.b f.x) else .error .mustBeZero)
    else .error .reservedFn
  | 0x61 =>
    if f.b == 0#5 && (f.fn.extractLsb' 0 3) == 0#3 && f.x == 0#5 then .ok (.acq f.k f.d f.a (f.fn.extractLsb' 3 3) f.la)
    else .error .mustBeZero
  | 0x62 =>
    if f.d == 0#5 && f.b == 0#5 && (f.fn.extractLsb' 0 3) == 0#3 && f.x == 0#5 && f.la == 0#4 then .ok (.rel f.k f.a (f.fn.extractLsb' 3 3))
    else .error .mustBeZero
  | 0x63 =>
    if f.k == 0#3 && f.d == 0#5 && f.a == 0#5 && f.b == 0#5 && (f.fn.extractLsb' 0 3) == 0#3 && f.x == 0#5 && f.la == 0#4 then .ok (.fence (f.fn.extractLsb' 3 3))
    else .error .mustBeZero
  | 0x64 =>
    if f.k == 0#3 && f.d == 0#5 && f.b == 0#5 && f.fn == 0#6 && f.x == 0#5 && f.la == 0#4 then .ok (.publish f.a)
    else .error .mustBeZero
  | 0x65 =>
    if f.b == 0#5 && (f.fn.extractLsb' 0 3) == 0#3 && f.x == 0#5 then .ok (.fread f.k f.d f.a (f.fn.extractLsb' 3 3) f.la)
    else .error .mustBeZero
  | 0x66 =>
    if (f.fn.extractLsb' 0 3) == 0#3 then
      (if f.d == 0#5 && f.la == 0#4 then .ok (.ffill f.k f.a f.b f.x (f.fn.extractLsb' 3 3)) else .error .mustBeZero)
    else if (f.fn.extractLsb' 0 3) == 1#3 then
      (if f.d == 0#5 && f.b == 0#5 && f.la == 0#4 then .ok (.fclr f.k f.a f.x (f.fn.extractLsb' 3 3)) else .error .mustBeZero)
    else .error .reservedFn
  | _ => .error .reservedOp

/-- Decodes the copy, matrix, automaton and sweep instructions (R241, R279, R291). -/
def decodeEngine (f : Fields) : Except DecodeErr Instr :=
  match f.op.toNat with
  | 0x68 =>
    if (f.x.extractLsb' 2 3) == 0#3 && f.la == 0#4 then .ok (.cpy f.k f.d f.a f.b f.fn (f.x.extractLsb' 0 2))
    else .error .mustBeZero
  | 0x69 =>
    if (f.x.extractLsb' 4 1) == 0#1 && f.la == 0#4 then .ok (.cpym f.k f.d f.a f.b f.fn (f.x.extractLsb' 0 4))
    else .error .mustBeZero
  | 0x6A =>
    if f.a == 0#5 then
      (if f.k == 0#3 && (f.d.extractLsb' 2 3) == 0#3 && f.la == 0#4 then .ok (.tall (f.d.extractLsb' 0 2) f.imm16) else .error .mustBeZero)
    else if f.a == 1#5 then
      (if f.k == 0#3 && (f.d.extractLsb' 2 3) == 0#3 && f.la == 0#4 then .ok (.tany (f.d.extractLsb' 0 2) f.imm16) else .error .mustBeZero)
    else .error .reservedFn
  | 0x6B =>
    if f.b == 0#5 && f.fn == 0#6 && f.x == 0#5 && f.la == 0#4 then .ok (.tffr f.k f.d f.a)
    else .error .mustBeZero
  | 0x6C =>
    if f.a == 0#5 && f.b == 0#5 && (f.x.extractLsb' 4 1) == 0#1 && f.la == 0#4 then .ok (.mloop f.k f.d (f.fn.extractLsb' 2 4) (f.fn.extractLsb' 1 1) (f.fn.extractLsb' 0 1) (f.x.extractLsb' 3 1) (f.x.extractLsb' 0 3))
    else .error .mustBeZero
  | 0x6D =>
    if f.d == 0#5 && f.a == 0#5 && f.b == 0#5 && (f.fn.extractLsb' 0 2) == 0#2 && f.x == 0#5 && f.la == 0#4 then .ok (.mzero f.k (f.fn.extractLsb' 2 4))
    else .error .mustBeZero
  | 0x6E =>
    if (f.fn.extractLsb' 1 1) == 0#1 then
      (if f.a == 0#5 && f.b == 0#5 && (f.x.extractLsb' 1 4) == 0#4 && f.la == 0#4 then .ok (.mrdN f.k f.d (f.fn.extractLsb' 2 4) (f.fn.extractLsb' 0 1) (f.x.extractLsb' 0 1)) else .error .mustBeZero)
    else if (f.fn.extractLsb' 0 2) == 2#2 then
      (if f.b == 0#5 && (f.x.extractLsb' 1 4) == 0#4 then .ok (.mrdW f.k f.d f.a (f.fn.extractLsb' 2 4) (f.x.extractLsb' 0 1) f.la) else .error .mustBeZero)
    else .error .reservedFn
  | 0x6F =>
    if (f.fn.extractLsb' 0 2) == 0#2 then
      (if f.a == 0#5 && f.b == 0#5 && f.x == 0#5 && f.la == 0#4 then .ok (.mwrN f.k f.d (f.fn.extractLsb' 2 4)) else .error .mustBeZero)
    else if (f.fn.extractLsb' 0 2) == 2#2 then
      (if f.b == 0#5 && f.x == 0#5 && f.la == 0#4 then .ok (.mwrW f.k f.d f.a (f.fn.extractLsb' 2 4)) else .error .mustBeZero)
    else .error .reservedFn
  | 0x70 =>
    if f.fn == 0#6 then
      (if f.d == 0#5 && f.b == 0#5 && f.x == 0#5 && f.la == 0#4 then .ok (.lacfg f.k f.a) else .error .mustBeZero)
    else if f.fn == 1#6 then
      (if f.d == 0#5 && f.x == 0#5 && f.la == 0#4 then .ok (.laseed f.k f.a f.b) else .error .mustBeZero)
    else .error .reservedFn
  | 0x71 =>
    if (f.fn.extractLsb' 2 4) == 0#4 && (f.fn.extractLsb' 0 1) == 0#1 then
      (if f.x == 0#5 && f.la == 0#4 then .ok (.lainfN f.k f.d f.a f.b (f.fn.extractLsb' 1 1)) else .error .mustBeZero)
    else if (f.fn.extractLsb' 2 4) == 0#4 && (f.fn.extractLsb' 0 1) == 1#1 then
      (if f.b == 0#5 && f.x == 0#5 then .ok (.lainfW f.k f.d f.a (f.fn.extractLsb' 1 1) f.la) else .error .mustBeZero)
    else .error .reservedFn
  | 0x72 =>
    if f.d == 0#5 && (f.fn.extractLsb' 1 5) == 0#5 && f.x == 0#5 && f.la == 0#4 then .ok (.lafb f.k f.a f.b (f.fn.extractLsb' 0 1))
    else .error .mustBeZero
  | 0x73 =>
    if (f.fn.extractLsb' 4 2) == 0#2 && (f.fn.extractLsb' 0 2) == 0#2 then
      (if f.x == 0#5 && f.la == 0#4 then .ok (.lardN f.k f.d f.a f.b (f.fn.extractLsb' 3 1) (f.fn.extractLsb' 2 1)) else .error .mustBeZero)
    else if (f.fn.extractLsb' 3 3) == 0#3 && (f.fn.extractLsb' 0 2) == 1#2 then
      (if f.b == 0#5 && f.x == 0#5 then .ok (.lardW f.k f.d f.a (f.fn.extractLsb' 2 1) f.la) else .error .mustBeZero)
    else if f.fn == 2#6 then
      (if f.x == 0#5 && f.la == 0#4 then .ok (.lawrN f.k f.d f.a f.b) else .error .mustBeZero)
    else if f.fn == 3#6 then
      (if f.b == 0#5 && f.x == 0#5 && f.la == 0#4 then .ok (.lawrW f.k f.d f.a) else .error .mustBeZero)
    else .error .reservedFn
  | 0x74 =>
    if f.fn == 0#6 then
      (if f.b == 0#5 && f.x == 0#5 && f.la == 0#4 then .ok (.swsub f.k f.d f.a) else .error .mustBeZero)
    else if f.fn == 1#6 then
      (if f.d == 0#5 && f.b == 0#5 && f.x == 0#5 && f.la == 0#4 then .ok (.swleave f.k f.a) else .error .mustBeZero)
    else .error .reservedFn
  | 0x75 =>
    if (f.fn.extractLsb' 0 1) == 0#1 then
      (if f.d == 0#5 && f.b == 0#5 && f.x == 0#5 && f.la == 0#4 then .ok (.swgo f.k f.a (f.fn.extractLsb' 2 4) (f.fn.extractLsb' 1 1)) else .error .mustBeZero)
    else if (f.fn.extractLsb' 3 3) == 0#3 && (f.fn.extractLsb' 0 1) == 1#1 then
      (if f.b == 0#5 && f.x == 0#5 && f.la == 0#4 then .ok (.swrd f.k f.d f.a (f.fn.extractLsb' 1 2)) else .error .mustBeZero)
    else .error .reservedFn
  | 0x76 =>
    if f.fn == 0#6 && f.x == 0#5 && f.la == 0#4 then .ok (.swmerge f.k f.d f.a f.b)
    else .error .mustBeZero
  | 0x77 =>
    if f.k == 0#3 && f.d == 0#5 && f.b == 0#5 && f.fn == 0#6 && f.x == 0#5 && f.la == 0#4 then .ok (.swwait f.a)
    else .error .mustBeZero
  | _ => .error .reservedOp

/-- Decodes the task, barrier and system instructions (R322, R350). -/
def decodeTask (f : Fields) : Except DecodeErr Instr :=
  match f.op.toNat with
  | 0x78 =>
    if (f.fn.extractLsb' 0 2) == 0#2 then
      (if f.k == 0#3 && f.b == 0#5 && f.x == 0#5 && f.la == 0#4 then .ok (.post f.d f.a (f.fn.extractLsb' 4 2) (f.fn.extractLsb' 2 2)) else .error .mustBeZero)
    else if (f.fn.extractLsb' 0 2) == 1#2 then
      (if f.k == 0#3 && f.b == 0#5 && f.x == 0#5 && f.la == 0#4 then .ok (.spawn f.d f.a (f.fn.extractLsb' 4 2) (f.fn.extractLsb' 2 2)) else .error .mustBeZero)
    else if (f.fn.extractLsb' 0 4) == 2#4 then
      (if f.k == 0#3 && f.b == 0#5 && f.x == 0#5 && f.la == 0#4 then .ok (.qtake f.d f.a (f.fn.extractLsb' 4 2)) else .error .mustBeZero)
    else .error .reservedFn
  | 0x79 =>
    if f.k == 0#3 && f.fn == 0#6 && f.x == 0#5 && f.la == 0#4 then .ok (.ams f.d f.a f.b)
    else .error .mustBeZero
  | 0x7A =>
    if (f.imm16.extractLsb' 6 10) == 0#10 then
      (if f.k == 0#3 && f.d == 0#5 && f.la == 0#4 then .ok (.bbind f.a (f.imm16.extractLsb' 0 6)) else .error .mustBeZero)
    else if (f.imm16.extractLsb' 6 10) == 512#10 then
      (if f.k == 0#3 && f.d == 0#5 && f.a == 0#5 && f.la == 0#4 then .ok (.bunb (f.imm16.extractLsb' 0 6)) else .error .mustBeZero)
    else .error .reservedFn
  | 0x7B =>
    if (f.imm16.extractLsb' 6 10) == 0#10 then
      (if f.a == 0#5 && f.la == 0#4 then .ok (.barr f.k f.d (f.imm16.extractLsb' 0 6)) else .error .mustBeZero)
    else if (f.imm16.extractLsb' 6 10) == 512#10 then
      (if f.k == 0#3 && f.d == 0#5 && f.la == 0#4 then .ok (.bwt f.a (f.imm16.extractLsb' 0 6)) else .error .mustBeZero)
    else .error .reservedFn
  | 0x7C =>
    if (f.imm16.extractLsb' 4 12) == 0#12 then
      (if f.a == 0#5 && f.la == 0#4 then .ok (.dbar f.k f.d (f.imm16.extractLsb' 0 4)) else .error .mustBeZero)
    else if (f.imm16.extractLsb' 4 12) == 2048#12 then
      (if f.k == 0#3 && f.d == 0#5 && f.la == 0#4 then .ok (.dwt f.a (f.imm16.extractLsb' 0 4)) else .error .mustBeZero)
    else .error .reservedFn
  | 0x7E =>
    if f.fn == 0#6 then
      (if f.k == 0#3 && f.d == 0#5 && f.x == 0#5 && f.la == 0#4 then .ok (.trap (f.a ++ f.b)) else .error .mustBeZero)
    else if f.fn == 1#6 then
      (if f.k == 0#3 && f.d == 0#5 && (f.a.extractLsb' 1 4) == 0#4 && f.b == 0#5 && f.x == 0#5 && f.la == 0#4 then .ok (.tret (f.a.extractLsb' 0 1)) else .error .mustBeZero)
    else if f.fn == 2#6 then
      (if f.la == 0#4 && f.a == 0#5 then .ok (.sysrd f.k f.d (f.b ++ f.x)) else .error .mustBeZero)
    else if f.fn == 3#6 then
      (if f.la == 0#4 && f.d == 0#5 && f.k == 0#3 then .ok (.syswr f.a (f.b ++ f.x)) else .error .mustBeZero)
    else if f.fn == 4#6 then
      (if f.k == 0#3 && f.d == 0#5 && f.x == 0#5 && f.la == 0#4 then .ok (.brk (f.a ++ f.b)) else .error .mustBeZero)
    else if f.fn == 5#6 then
      (if f.k == 0#3 && f.d == 0#5 && f.x == 0#5 && f.la == 0#4 then .ok (.lmark (f.a ++ f.b)) else .error .mustBeZero)
    else if f.fn == 6#6 then
      (if f.k == 0#3 && (f.x.extractLsb' 1 4) == 0#4 && f.la == 0#4 then .ok (.ppoint (f.d ++ f.a ++ f.b ++ f.x.extractLsb' 0 1)) else .error .mustBeZero)
    else if f.fn == 7#6 then
      (if f.k == 0#3 && f.d == 0#5 && f.x == 0#5 && f.la == 0#4 then .ok (.idb f.a f.b) else .error .mustBeZero)
    else if f.fn == 8#6 then
      (if f.k == 0#3 && f.d == 0#5 && f.a == 0#5 && f.b == 0#5 && f.x == 0#5 && f.la == 0#4 then .ok (.ide) else .error .mustBeZero)
    else .error .reservedFn
  | _ => .error .reservedOp

/-- Decodes the fields of a slot (R79). Bit 0 of the extension must be zero (R42). -/
def decodeFields (f : Fields) : Except DecodeErr Instr :=
  if f.z == 1#1 then .error .mustBeZero
  else if f.op.toNat < 0x10 then decodeControl f
  else if f.op.toNat < 0x1C then decodeSet f
  else if f.op.toNat < 0x20 then .error .reservedOp
  else if f.op.toNat < 0x38 then decodeInteger f
  else if f.op.toNat < 0x48 then decodeFloat f
  else if f.op.toNat < 0x54 then decodeCross f
  else if f.op.toNat < 0x68 then decodeMemory f
  else if f.op.toNat < 0x78 then decodeEngine f
  else decodeTask f

/-- Decodes a slot, chain bit and all (R44). -/
def decodeSlot (w : BitVec 32) (e : BitVec 10) : Except DecodeErr Slot :=
  match decodeFields (Fields.ofSlot w e) with
  | .ok i => .ok { chain := (Fields.ofSlot w e).c == 1#1, instr := i }
  | .error r => .error r

/-- The fields of an instruction of the spec's encoding tables; `none` for an event, which has no encoding. -/
def encodeFields : Instr → Option Fields
  | .nop => some (Fields.zero 0x00#7)
  | .trail te tag wb => some { Fields.zero 0x01#7 with d := te ++ 0#1 ++ tag, a := wb.extractLsb' 11 5, b := wb.extractLsb' 6 5, fn := wb.extractLsb' 0 6 }
  | .bra off => some ((Fields.zero 0x02#7).withImm26 (off))
  | .bre k off => some { (Fields.zero 0x03#7).withImm26 (off) with k := k }
  | .brn k off => some { (Fields.zero 0x04#7).withImm26 (off) with k := k }
  | .brx k a x => some { Fields.zero 0x05#7 with k := k, a := a, x := x }
  | .call k off => some { (Fields.zero 0x06#7).withImm26 (off) with k := k }
  | .ret k a x => some { Fields.zero 0x07#7 with k := k, a := a, x := x }
  | .loop k d off => some { (Fields.zero 0x08#7).withImm16 (off) with k := k, d := d }
  | .exit k => some { Fields.zero 0x09#7 with k := k }
  | .yield => some (Fields.zero 0x0A#7)
  | .icinv a b x scope => some { Fields.zero 0x0B#7 with a := a, b := b, fn := 0#4 ++ scope, x := x }
  | .claim n => some ((Fields.zero 0x0C#7).withImm16 (n))
  | .give n => some ((Fields.zero 0x0D#7).withImm16 (n))
  | .ktestInt k d a b ity cc all kf => some { Fields.zero 0x10#7 with k := k, d := d, a := a, b := b, fn := ity ++ cc, x := 0#1 ++ all ++ kf }
  | .ktestFloat k d a b ty fc ftz all kf => some { Fields.zero 0x11#7 with k := k, d := d, a := a, b := b, fn := ty ++ fc ++ ftz, x := 0#1 ++ all ++ kf }
  | .kand d a b => some { Fields.zero 0x12#7 with d := d, a := a, b := b, fn := 0#4 ++ 0#2 }
  | .kor d a b => some { Fields.zero 0x12#7 with d := d, a := a, b := b, fn := 0#4 ++ 1#2 }
  | .kdiff d a b => some { Fields.zero 0x12#7 with d := d, a := a, b := b, fn := 0#4 ++ 2#2 }
  | .kcount k d a => some { Fields.zero 0x13#7 with k := k, d := d, a := a }
  | .kfirst k d a b x => some { Fields.zero 0x13#7 with k := k, d := d, a := a, b := b, fn := 1#6, x := x }
  | .kmakeV d a => some { Fields.zero 0x14#7 with d := d, a := a }
  | .kmakeM d a => some { Fields.zero 0x14#7 with d := d, a := a, fn := 1#6 }
  | .kself d => some { Fields.zero 0x14#7 with d := d, fn := 2#6 }
  | .kld d a b x => some { Fields.zero 0x15#7 with d := d, a := a, b := b, x := x }
  | .kst d a b x => some { Fields.zero 0x15#7 with d := d, a := a, b := b, fn := 1#6, x := x }
  | .kmerge d a => some { Fields.zero 0x16#7 with d := d, a := a }
  | .kfree d => some { Fields.zero 0x16#7 with d := d, fn := 1#6 }
  | .kqpush d a b => some { Fields.zero 0x17#7 with d := d, a := a, b := b }
  | .kqpop d a => some { Fields.zero 0x17#7 with d := d, a := a, fn := 1#6 }
  | .applyS k off => some { (Fields.zero 0x18#7).withImm26 (off ++ 0#8) with k := k }
  | .applyR k off b0 b1 => some { (Fields.zero 0x19#7).withImm26 (off ++ b0 ++ b1) with k := k }
  | .enda => some (Fields.zero 0x1A#7)
  | .gmake k d => some { Fields.zero 0x1B#7 with k := k, d := d }
  | .join k a => some { Fields.zero 0x1B#7 with k := k, a := a, fn := 1#6 }
  | .leave k a => some { Fields.zero 0x1B#7 with k := k, a := a, fn := 2#6 }
  | .gdis a => some { Fields.zero 0x1B#7 with a := a, fn := 3#6 }
  | .add o ity sat => some { Fields.zero 0x20#7 with k := o.k, d := o.d, a := o.a, b := o.b, fn := ity ++ sat ++ 0#2, x := o.x }
  | .sub o ity sat => some { Fields.zero 0x20#7 with k := o.k, d := o.d, a := o.a, b := o.b, fn := ity ++ sat ++ 1#2, x := o.x }
  | .min o ity => some { Fields.zero 0x20#7 with k := o.k, d := o.d, a := o.a, b := o.b, fn := ity ++ 2#3, x := o.x }
  | .max o ity => some { Fields.zero 0x20#7 with k := o.k, d := o.d, a := o.a, b := o.b, fn := ity ++ 3#3, x := o.x }
  | .mul o ity sat => some { Fields.zero 0x21#7 with k := o.k, d := o.d, a := o.a, b := o.b, fn := ity ++ sat ++ 0#2, x := o.x }
  | .mulhi o ity => some { Fields.zero 0x21#7 with k := o.k, d := o.d, a := o.a, b := o.b, fn := ity ++ 1#3, x := o.x }
  | .mad o ity sat => some { Fields.zero 0x21#7 with k := o.k, d := o.d, a := o.a, b := o.b, fn := ity ++ sat ++ 2#2, x := o.x }
  | .and o => some { Fields.zero 0x22#7 with k := o.k, d := o.d, a := o.a, b := o.b, x := o.x }
  | .or o => some { Fields.zero 0x22#7 with k := o.k, d := o.d, a := o.a, b := o.b, fn := 1#6, x := o.x }
  | .xor o => some { Fields.zero 0x22#7 with k := o.k, d := o.d, a := o.a, b := o.b, fn := 2#6, x := o.x }
  | .andn o => some { Fields.zero 0x22#7 with k := o.k, d := o.d, a := o.a, b := o.b, fn := 3#6, x := o.x }
  | .shl o ity => some { Fields.zero 0x23#7 with k := o.k, d := o.d, a := o.a, b := o.b, fn := ity ++ 0#3, x := o.x }
  | .shr o ity => some { Fields.zero 0x23#7 with k := o.k, d := o.d, a := o.a, b := o.b, fn := ity ++ 1#3, x := o.x }
  | .sar o ity => some { Fields.zero 0x23#7 with k := o.k, d := o.d, a := o.a, b := o.b, fn := ity ++ 2#3, x := o.x }
  | .rot o ity => some { Fields.zero 0x23#7 with k := o.k, d := o.d, a := o.a, b := o.b, fn := ity ++ 3#3, x := o.x }
  | .clz k d a ity => some { Fields.zero 0x24#7 with k := k, d := d, a := a, fn := ity ++ 0#3 }
  | .ctz k d a ity => some { Fields.zero 0x24#7 with k := k, d := d, a := a, fn := ity ++ 1#3 }
  | .popc k d a ity => some { Fields.zero 0x24#7 with k := k, d := d, a := a, fn := ity ++ 2#3 }
  | .brev k d a ity => some { Fields.zero 0x24#7 with k := k, d := d, a := a, fn := ity ++ 3#3 }
  | .cmp o ity cc => some { Fields.zero 0x25#7 with k := o.k, d := o.d, a := o.a, b := o.b, fn := ity ++ cc, x := o.x }
  | .sel o => some { Fields.zero 0x26#7 with k := o.k, d := o.d, a := o.a, b := o.b, x := o.x }
  | .abs k d a ity sat => some { Fields.zero 0x27#7 with k := k, d := d, a := a, fn := ity ++ sat ++ 0#2 }
  | .neg k d a ity sat => some { Fields.zero 0x27#7 with k := k, d := d, a := a, fn := ity ++ sat ++ 1#2 }
  | .ext k d a sx lenm p => some { (Fields.zero 0x28#7).withImm16 (0#3 ++ sx ++ lenm ++ p) with k := k, d := d, a := a }
  | .ins k d a lenm p => some { (Fields.zero 0x29#7).withImm16 (0#4 ++ lenm ++ p) with k := k, d := d, a := a }
  | .movi k d imm => some { (Fields.zero 0x2A#7).withImm16 (imm) with k := k, d := d }
  | .movh k d a imm => some { (Fields.zero 0x2B#7).withImm16 (imm) with k := k, d := d, a := a }
  | .addi k d a imm => some { (Fields.zero 0x2C#7).withImm16 (imm) with k := k, d := d, a := a }
  | .lea o sh => some { Fields.zero 0x2D#7 with k := o.k, d := o.d, a := o.a, b := o.b, fn := 0#3 ++ sh, x := o.x }
  | .icvt k d a dst src sat part => some { (Fields.zero 0x2E#7).withImm16 (dst ++ src ++ sat ++ part ++ 0#6) with k := k, d := d, a := a }
  | .fadd o ty rm ftz => some { Fields.zero 0x38#7 with k := o.k, d := o.d, a := o.a, b := o.b, fn := ty ++ rm ++ ftz, x := o.x }
  | .fsub o ty rm ftz => some { Fields.zero 0x39#7 with k := o.k, d := o.d, a := o.a, b := o.b, fn := ty ++ rm ++ ftz, x := o.x }
  | .fmul o ty rm ftz => some { Fields.zero 0x3A#7 with k := o.k, d := o.d, a := o.a, b := o.b, fn := ty ++ rm ++ ftz, x := o.x }
  | .fma o ty rm ftz => some { Fields.zero 0x3B#7 with k := o.k, d := o.d, a := o.a, b := o.b, fn := ty ++ rm ++ ftz, x := o.x }
  | .fnma o ty rm ftz => some { Fields.zero 0x3C#7 with k := o.k, d := o.d, a := o.a, b := o.b, fn := ty ++ rm ++ ftz, x := o.x }
  | .fmin o ty ftz => some { Fields.zero 0x3D#7 with k := o.k, d := o.d, a := o.a, b := o.b, fn := ty ++ 0#3 ++ ftz, x := o.x }
  | .fmax o ty ftz => some { Fields.zero 0x3E#7 with k := o.k, d := o.d, a := o.a, b := o.b, fn := ty ++ 0#3 ++ ftz, x := o.x }
  | .fdot2 o ty rm ftz => some { Fields.zero 0x3F#7 with k := o.k, d := o.d, a := o.a, b := o.b, fn := ty ++ rm ++ ftz, x := o.x }
  | .fsgn o efmt opc => some { Fields.zero 0x40#7 with k := o.k, d := o.d, a := o.a, b := o.b, fn := efmt ++ opc, x := o.x }
  | .frnd k d a ty rm ftz => some { Fields.zero 0x41#7 with k := k, d := d, a := a, fn := ty ++ rm ++ ftz }
  | .fscl o ty rm ftz => some { Fields.zero 0x42#7 with k := o.k, d := o.d, a := o.a, b := o.b, fn := ty ++ rm ++ ftz, x := o.x }
  | .fcvt k d a dst src rm ftz part => some { (Fields.zero 0x43#7).withImm16 (dst ++ src ++ rm ++ ftz ++ part) with k := k, d := d, a := a }
  | .xperm o wd la => some { Fields.zero 0x48#7 with k := o.k, d := o.d, a := o.a, b := o.b, fn := wd ++ 0#3, x := o.x, la := la }
  | .xshf o wd mode la => some { Fields.zero 0x49#7 with k := o.k, d := o.d, a := o.a, b := o.b, fn := wd ++ 0#1 ++ mode, x := o.x, la := la }
  | .xbc o wd la => some { Fields.zero 0x4A#7 with k := o.k, d := o.d, a := o.a, b := o.b, fn := wd ++ 0#3, x := o.x, la := la }
  | .xbal k d a wd la => some { Fields.zero 0x4B#7 with k := k, d := d, a := a, fn := wd ++ 0#3, la := la }
  | .xred k d a rty rop rm ftz la => some { Fields.zero 0x4C#7 with k := k, d := d, a := a, fn := rty ++ rop, x := rm ++ ftz ++ 0#1, la := la }
  | .xscan k d a rty rop rm ftz exc la => some { Fields.zero 0x4D#7 with k := k, d := d, a := a, fn := rty ++ rop, x := rm ++ ftz ++ exc, la := la }
  | .xtopk k d a b rty sel km1 la => some { Fields.zero 0x4E#7 with k := k, d := d, a := a, b := b, fn := rty ++ sel ++ 0#1, x := km1, la := la }
  | .sfq k d a b ty fn ftz => some { Fields.zero 0x50#7 with k := k, d := d, a := a, b := b, fn := ty ++ fn, x := 0#4 ++ ftz }
  | .sfw mask => some ((Fields.zero 0x51#7).withImm16 (mask))
  | .sfp k d => some { Fields.zero 0x52#7 with k := k, d := d }
  | .ld o sz cp la => some { Fields.zero 0x54#7 with k := o.k, d := o.d, a := o.a, b := o.b, fn := sz ++ 0#1 ++ cp, x := o.x, la := la }
  | .st o sz cp => some { Fields.zero 0x55#7 with k := o.k, d := o.d, a := o.a, b := o.b, fn := sz ++ 0#1 ++ cp, x := o.x }
  | .ldn o sz la => some { Fields.zero 0x56#7 with k := o.k, d := o.d, a := o.a, b := o.b, fn := sz ++ 0#3, x := o.x, la := la }
  | .stn o sz => some { Fields.zero 0x57#7 with k := o.k, d := o.d, a := o.a, b := o.b, fn := sz ++ 0#3, x := o.x }
  | .ldt o dt rm ftz chk la => some { Fields.zero 0x58#7 with k := o.k, d := o.d, a := o.a, b := o.b, fn := dt ++ rm ++ ftz ++ chk, x := o.x, la := la }
  | .stt o dt rm ftz chk => some { Fields.zero 0x59#7 with k := o.k, d := o.d, a := o.a, b := o.b, fn := dt ++ rm ++ ftz ++ chk, x := o.x }
  | .pref k a b x lv => some { Fields.zero 0x5A#7 with k := k, a := a, b := b, fn := 0#5 ++ lv, x := x }
  | .atomAdd o scope w => some { Fields.zero 0x5B#7 with k := o.k, d := o.d, a := o.a, b := o.b, fn := scope ++ w ++ 0#2, x := o.x }
  | .atomFadd o scope w => some { Fields.zero 0x5B#7 with k := o.k, d := o.d, a := o.a, b := o.b, fn := scope ++ w ++ 1#2, x := o.x }
  | .atomBinc o scope w => some { Fields.zero 0x5B#7 with k := o.k, d := o.d, a := o.a, b := o.b, fn := scope ++ w ++ 2#2, x := o.x }
  | .atomXchg o scope w => some { Fields.zero 0x5B#7 with k := o.k, d := o.d, a := o.a, b := o.b, fn := scope ++ w ++ 3#2, x := o.x }
  | .atomMinS o scope w => some { Fields.zero 0x5C#7 with k := o.k, d := o.d, a := o.a, b := o.b, fn := scope ++ w ++ 0#2, x := o.x }
  | .atomMaxS o scope w => some { Fields.zero 0x5C#7 with k := o.k, d := o.d, a := o.a, b := o.b, fn := scope ++ w ++ 1#2, x := o.x }
  | .atomMinU o scope w => some { Fields.zero 0x5C#7 with k := o.k, d := o.d, a := o.a, b := o.b, fn := scope ++ w ++ 2#2, x := o.x }
  | .atomMaxU o scope w => some { Fields.zero 0x5C#7 with k := o.k, d := o.d, a := o.a, b := o.b, fn := scope ++ w ++ 3#2, x := o.x }
  | .atomAnd o scope w => some { Fields.zero 0x5D#7 with k := o.k, d := o.d, a := o.a, b := o.b, fn := scope ++ w ++ 0#2, x := o.x }
  | .atomOr o scope w => some { Fields.zero 0x5D#7 with k := o.k, d := o.d, a := o.a, b := o.b, fn := scope ++ w ++ 1#2, x := o.x }
  | .atomXor o scope w => some { Fields.zero 0x5D#7 with k := o.k, d := o.d, a := o.a, b := o.b, fn := scope ++ w ++ 2#2, x := o.x }
  | .atomCas o scope w => some { Fields.zero 0x5D#7 with k := o.k, d := o.d, a := o.a, b := o.b, fn := scope ++ w ++ 3#2, x := o.x }
  | .rwr k a b x => some { Fields.zero 0x5E#7 with k := k, a := a, b := b, x := x }
  | .awt d b x ctr sub clr => some { Fields.zero 0x5F#7 with d := d, b := b, fn := ctr ++ sub ++ clr ++ 0#2, x := x }
  | .bind a b cc => some { Fields.zero 0x60#7 with a := a, b := b, x := cc }
  | .unbind a b cc => some { Fields.zero 0x60#7 with a := a, b := b, fn := 1#6, x := cc }
  | .acq k d a scope la => some { Fields.zero 0x61#7 with k := k, d := d, a := a, fn := scope ++ 0#3, la := la }
  | .rel k a scope => some { Fields.zero 0x62#7 with k := k, a := a, fn := scope ++ 0#3 }
  | .fence scope => some { Fields.zero 0x63#7 with fn := scope ++ 0#3 }
  | .publish a => some { Fields.zero 0x64#7 with a := a }
  | .fread k d a scope la => some { Fields.zero 0x65#7 with k := k, d := d, a := a, fn := scope ++ 0#3, la := la }
  | .ffill k a b x scope => some { Fields.zero 0x66#7 with k := k, a := a, b := b, fn := scope ++ 0#3, x := x }
  | .fclr k a x scope => some { Fields.zero 0x66#7 with k := k, a := a, fn := scope ++ 1#3, x := x }
  | .cpy k d a b t dir => some { Fields.zero 0x68#7 with k := k, d := d, a := a, b := b, fn := t, x := 0#3 ++ dir }
  | .cpym k d a b t pmask => some { Fields.zero 0x69#7 with k := k, d := d, a := a, b := b, fn := t, x := 0#1 ++ pmask }
  | .tall g mask => some { (Fields.zero 0x6A#7).withImm16 (mask) with d := 0#3 ++ g }
  | .tany g mask => some { (Fields.zero 0x6A#7).withImm16 (mask) with d := 0#3 ++ g, a := 1#5 }
  | .tffr k d a => some { Fields.zero 0x6B#7 with k := k, d := d, a := a }
  | .mloop k d t zs ftz mx fmt => some { Fields.zero 0x6C#7 with k := k, d := d, fn := t ++ zs ++ ftz, x := 0#1 ++ mx ++ fmt }
  | .mzero k t => some { Fields.zero 0x6D#7 with k := k, fn := t ++ 0#2 }
  | .mrdN k d t bf e => some { Fields.zero 0x6E#7 with k := k, d := d, fn := t ++ 0#1 ++ bf, x := 0#4 ++ e }
  | .mrdW k d a t e la => some { Fields.zero 0x6E#7 with k := k, d := d, a := a, fn := t ++ 2#2, x := 0#4 ++ e, la := la }
  | .mwrN k d t => some { Fields.zero 0x6F#7 with k := k, d := d, fn := t ++ 0#2 }
  | .mwrW k d a t => some { Fields.zero 0x6F#7 with k := k, d := d, a := a, fn := t ++ 2#2 }
  | .lacfg k a => some { Fields.zero 0x70#7 with k := k, a := a }
  | .laseed k a b => some { Fields.zero 0x70#7 with k := k, a := a, b := b, fn := 1#6 }
  | .lainfN k d a b after => some { Fields.zero 0x71#7 with k := k, d := d, a := a, b := b, fn := 0#4 ++ after ++ 0#1 }
  | .lainfW k d a after la => some { Fields.zero 0x71#7 with k := k, d := d, a := a, fn := 0#4 ++ after ++ 1#1, la := la }
  | .lafb k a b p => some { Fields.zero 0x72#7 with k := k, a := a, b := b, fn := 0#5 ++ p }
  | .lardN k d a b inc after => some { Fields.zero 0x73#7 with k := k, d := d, a := a, b := b, fn := 0#2 ++ inc ++ after ++ 0#2 }
  | .lardW k d a after la => some { Fields.zero 0x73#7 with k := k, d := d, a := a, fn := 0#3 ++ after ++ 1#2, la := la }
  | .lawrN k d a b => some { Fields.zero 0x73#7 with k := k, d := d, a := a, b := b, fn := 2#6 }
  | .lawrW k d a => some { Fields.zero 0x73#7 with k := k, d := d, a := a, fn := 3#6 }
  | .swsub k d a => some { Fields.zero 0x74#7 with k := k, d := d, a := a }
  | .swleave k a => some { Fields.zero 0x74#7 with k := k, a := a, fn := 1#6 }
  | .swgo k a sid dh => some { Fields.zero 0x75#7 with k := k, a := a, fn := sid ++ dh ++ 0#1 }
  | .swrd k d a mm => some { Fields.zero 0x75#7 with k := k, d := d, a := a, fn := 0#3 ++ mm ++ 1#1 }
  | .swmerge k d a b => some { Fields.zero 0x76#7 with k := k, d := d, a := a, b := b }
  | .swwait a => some { Fields.zero 0x77#7 with a := a }
  | .post d a q dir => some { Fields.zero 0x78#7 with d := d, a := a, fn := q ++ dir ++ 0#2 }
  | .spawn d a q dir => some { Fields.zero 0x78#7 with d := d, a := a, fn := q ++ dir ++ 1#2 }
  | .qtake d a q => some { Fields.zero 0x78#7 with d := d, a := a, fn := q ++ 2#4 }
  | .ams d a b => some { Fields.zero 0x79#7 with d := d, a := a, b := b }
  | .bbind a n => some { (Fields.zero 0x7A#7).withImm16 (0#10 ++ n) with a := a }
  | .bunb n => some ((Fields.zero 0x7A#7).withImm16 (512#10 ++ n))
  | .barr k d n => some { (Fields.zero 0x7B#7).withImm16 (0#10 ++ n) with k := k, d := d }
  | .bwt a n => some { (Fields.zero 0x7B#7).withImm16 (512#10 ++ n) with a := a }
  | .dbar k d n => some { (Fields.zero 0x7C#7).withImm16 (0#12 ++ n) with k := k, d := d }
  | .dwt a n => some { (Fields.zero 0x7C#7).withImm16 (2048#12 ++ n) with a := a }
  | .trap imm => some { Fields.zero 0x7E#7 with fn := 0#6, a := imm.extractLsb' 5 5, b := imm.extractLsb' 0 5 }
  | .tret e => some { Fields.zero 0x7E#7 with a := 0#4 ++ e, fn := 1#6 }
  | .sysrd k d num => some { Fields.zero 0x7E#7 with fn := 2#6, b := num.extractLsb' 5 5, x := num.extractLsb' 0 5, k := k, d := d }
  | .syswr a num => some { Fields.zero 0x7E#7 with fn := 3#6, b := num.extractLsb' 5 5, x := num.extractLsb' 0 5, a := a }
  | .brk imm => some { Fields.zero 0x7E#7 with fn := 4#6, a := imm.extractLsb' 5 5, b := imm.extractLsb' 0 5 }
  | .lmark imm => some { Fields.zero 0x7E#7 with fn := 5#6, a := imm.extractLsb' 5 5, b := imm.extractLsb' 0 5 }
  | .ppoint mask => some { Fields.zero 0x7E#7 with fn := 6#6, d := mask.extractLsb' 11 5, a := mask.extractLsb' 6 5, b := mask.extractLsb' 1 5, x := 0#4 ++ mask.extractLsb' 0 1 }
  | .idb a b => some { Fields.zero 0x7E#7 with a := a, b := b, fn := 7#6 }
  | .ide => some { Fields.zero 0x7E#7 with fn := 8#6 }
  | .instructionFetch _ => none
  | .runHeader _ => none
  | .runCommit _ => none
  | .pendingValueArrival _ _ => none
  | .sfqCompletion _ _ => none
  | .deposit _ _ => none
  | .warpCreation _ => none
  | .claimGrant _ => none
  | .activeSetEntry _ => none
  | .warpRetirement _ => none
  | .launchEnd _ => none
  | .launchAbort _ => none
  | .deviceBarrierPhase _ => none
  | .applyWarpCreation _ => none
  | .watchdogExpiry _ => none
  | .claimDeadlock _ => none
  | .handlerWarpCreation _ _ => none
  | .l1Eviction _ _ => none
  | .homeAccessPerform _ => none
  | .engineCommandStart _ _ => none
  | .engineCommandCompletion _ _ => none
  | .sweepPageFetch _ _ => none
  | .pageDelivery _ _ => none
  | .sweepHandlerCreation _ => none
  | .cardRead _ => none
  | .unitPlacement _ => none
  | .anyQueuePlacement _ => none
  | .argkMemberStart _ _ => none
  | .amsArrival _ => none
  | .preemptionRequest _ _ => none
  | .warpStop _ => none
  | .ptimeExpiry _ _ => none
  | .contextSave _ _ => none
  | .contextResume _ _ => none
  | .uncorrectableDataError _ _ => none
  | .schedulingStateError _ _ => none
  | .enable _ => none
  | .drain _ => none
  | .unfence _ => none
  | .retire _ => none
  | .recal _ => none
  | .reload _ => none
  | .serviceCommandDone => none
  | .mailboxGo _ => none
  | .powerUp => none
  | .imageArrival _ _ _ _ => none
  | .coreStart _ => none
  | .fresolve _ _ => none
  | .tlbinvPage _ _ => none
  | .tlbinvAll _ _ => none
  | .tlbInvalidationDone _ => none
  | .hostPost _ _ => none
  | .preemptCore _ _ => none
  | .preemptAll _ => none
  | .fqctlWrite _ _ => none
  | .registerWrite _ _ _ => none
  | .bar2Write _ _ => none
  | .linkFlitReceive _ _ _ _ _ => none
  | .endToEndResend _ _ => none
  | .remoteSyncArrival _ _ _ => none
  | .fabricResponseTimeout _ _ => none
  | .powerOverLimit => none
  | .thermalThrottle => none
  | .thermalHalt => none
  | .icinvCompletion _ => none
  | .acknowledgementReturn _ _ => none
  | .spdmRequest => none
  | .hostLinkTraining _ _ => none

/-- The word and the extension of an instruction with chain bit 0; `none` for an event. -/
def encode (i : Instr) : Option (BitVec 32 × BitVec 10) :=
  (encodeFields i).map fun f => (f.word, f.ext)

/-- The word and the extension of a slot. -/
def encodeSlot (s : Slot) : Option (BitVec 32 × BitVec 10) :=
  (encodeFields s.instr).map fun f => ({ f with c := if s.chain then 1#1 else 0#1 }.word, f.ext)

/-- Sixteen little-endian bytes of a packet that holds one slot, in position 0, and two `nop`s (R40, R41). -/
def packetBytes (w : BitVec 32) (e : BitVec 10) : List Byte :=
  let v : BitVec 128 := (0#22 ++ e) ++ 0#32 ++ 0#32 ++ w
  (List.range 16).map fun i => v.extractLsb' (8 * i) 8

/-- Reads slot `j` (0-2) of a packet from its sixteen little-endian bytes (R40, R41). -/
def packetSlot (bs : List Byte) (j : Nat) : BitVec 32 × BitVec 10 :=
  let byte (i : Nat) : Byte := bs.getD i 0
  let word (i : Nat) : BitVec 32 := byte (4 * i + 3) ++ byte (4 * i + 2) ++ byte (4 * i + 1) ++ byte (4 * i)
  (word j, (word 3).extractLsb' (10 * j) 10)

/-- The KIND field of a packet (R41). -/
def packetKind (bs : List Byte) : BitVec 2 := (bs.getD 15 0).extractLsb' 6 2

/-- The instruction the decoder reads from the slot whose word is `w`, of `nbits` bits, with a zero
extension; the bits of opcode_table.json are those of the slot's 32-bit word, laid out as a packet's bytes. -/
def decodeTableWord (nbits w : Nat) : Option Instr :=
  let bs := packetBytes (BitVec.ofNat 32 (w % 2 ^ nbits)) 0
  match decodeSlot (packetSlot bs 0).1 (packetSlot bs 0).2 with
  | .ok s => some s.instr
  | .error _ => none

end Sys2Proof
end

