-- ==== Sys2Proof/Machine/Tab.lean ====
section
/-!
DEFINITION. Sparse tables: what an unlisted key reads as is the table's default, and a table in its one
canonical form lists keys strictly rising and no entry equal to the default. The memories and register files
of the device are such tables (R112, R65, R51).
-/

namespace Sys2Proof.Machine

/-- A sparse table from numbers to values. -/
abbrev Tab (α : Type) := List (Nat × α)

/-- The value at a key; `d` is what an unlisted key reads as. -/
def Tab.get {α : Type} (d : α) (t : Tab α) (k : Nat) : α :=
  match t with
  | [] => d
  | e :: r => if e.1 = k then e.2 else Tab.get d r k

/-- The table without its entries at a key. -/
def Tab.drop {α : Type} (t : Tab α) (k : Nat) : Tab α :=
  match t with
  | [] => []
  | e :: r => if e.1 = k then Tab.drop r k else e :: Tab.drop r k

/-- The table with an entry in front of the first greater key. -/
def Tab.place {α : Type} (t : Tab α) (k : Nat) (v : α) : Tab α :=
  match t with
  | [] => [(k, v)]
  | e :: r => if k < e.1 then (k, v) :: e :: r else e :: Tab.place r k v

/-- The table with the value at a key replaced; a default value leaves no entry. -/
def Tab.set {α : Type} [DecidableEq α] (d : α) (t : Tab α) (k : Nat) (v : α) : Tab α :=
  if v = d then Tab.drop t k else Tab.place (Tab.drop t k) k v

/-- Whether the keys rise strictly and every one exceeds `lo`, and no entry holds the default. -/
def Tab.wfFrom {α : Type} [DecidableEq α] (d : α) (lo : Option Nat) (t : Tab α) : Bool :=
  match t with
  | [] => true
  | e :: r => (match lo with | none => true | some l => l < e.1) && decide (e.2 ≠ d) && Tab.wfFrom d (some e.1) r

/-- The canonical form. -/
def Tab.wf {α : Type} [DecidableEq α] (d : α) (t : Tab α) : Bool := Tab.wfFrom d none t

/-- The table with the values at several keys replaced, in order: a later write stands. -/
def Tab.setAll {α : Type} [DecidableEq α] (d : α) (t : Tab α) (ws : List (Nat × α)) : Tab α :=
  ws.foldl (fun t w => Tab.set d t w.1 w.2) t

/-- A table of things that may be absent. -/
abbrev Dict (α : Type) := Tab α

/-- The thing at a key of a dictionary, if any. -/
def Dict.find {α : Type} (t : Dict α) (k : Nat) : Option α :=
  match t with
  | [] => none
  | e :: r => if e.1 = k then some e.2 else Dict.find r k

/-- The dictionary with the thing at a key put. -/
def Dict.put {α : Type} (t : Dict α) (k : Nat) (v : α) : Dict α := Tab.place (Tab.drop t k) k v

/-- The dictionary with the thing at a key changed, if there is one. -/
def Dict.change {α : Type} (t : Dict α) (k : Nat) (f : α → α) : Dict α :=
  match t with
  | [] => []
  | e :: r => if e.1 = k then (k, f e.2) :: r else e :: Dict.change r k f

/-- The list with its `n`-th element changed. -/
def listChange {α : Type} (l : List α) (n : Nat) (f : α → α) : List α :=
  match l, n with
  | [], _ => []
  | x :: r, 0 => f x :: r
  | x :: r, n + 1 => x :: listChange r n f

end Sys2Proof.Machine
end

