-- ==== Sys2Proof/Machine/Memory.lean ====
section
/-!
DEFINITION. Byte memories in canonical form (R3, R112, R114): HBM and host memory by physical address, and a
core's near slice by offset. What a byte nothing has written reads as is `Memory.unlisted` (log 1).
-/

namespace Sys2Proof.Machine

/-- A memory: a list of addressed bytes, addresses strictly rising. -/
abbrev Memory := Tab Byte

/-- What a byte reads as that nothing has written (log 1: DESIGN CHOICE, the spec gives HBM no reset
contents; near slices are cleared by firmware, R382). -/
def Memory.unlisted : Byte := 0#8

/-- One byte. -/
def Memory.read (m : Memory) (a : Nat) : Byte := Tab.get Memory.unlisted m a

/-- One byte written. -/
def Memory.write (m : Memory) (a : Nat) (v : Byte) : Memory := Tab.set Memory.unlisted m a v

/-- The canonical form of a memory. -/
def Memory.wf (m : Memory) : Bool := Tab.wf Memory.unlisted m

/-- `n` bytes from an address, ascending. -/
def Memory.readBytes (m : Memory) (a : Nat) : Nat → List Byte
  | 0 => []
  | n + 1 => Memory.read m a :: Memory.readBytes m (a + 1) n

/-- Bytes written from an address, ascending. -/
def Memory.writeBytes (m : Memory) (a : Nat) (bs : List Byte) : Memory :=
  match bs with
  | [] => m
  | b :: r => Memory.writeBytes (Memory.write m a b) (a + 1) r

/-- The number a list of bytes holds, little-endian (R94). -/
def bytesToNat (bs : List Byte) : Nat :=
  match bs with
  | [] => 0
  | b :: r => b.toNat + 256 * bytesToNat r

/-- The `n` bytes of a number, little-endian. -/
def natToBytes (v : Nat) : Nat → List Byte
  | 0 => []
  | n + 1 => BitVec.ofNat 8 v :: natToBytes (v / 256) n

/-- The 8-byte word at an address. -/
def Memory.readWord (m : Memory) (a : Nat) : Word := BitVec.ofNat 64 (bytesToNat (Memory.readBytes m a 8))

/-- An 8-byte word written. -/
def Memory.writeWord (m : Memory) (a : Nat) (v : Word) : Memory := Memory.writeBytes m a (natToBytes v.toNat 8)

end Sys2Proof.Machine
end

