-- ==== Sys2Proof/Config.lean ====
section
/-!
DEFINITION. What the spec leaves to the running device or to its firmware. Every constant here that has no
body is a free value: nothing can be proved of it but what holds of every value (log entries 2, 4, 5, 6, 8, 9, 10).
-/

namespace Sys2Proof

/-- What moves next (log 2): a packet slot of a warp, one clock cycle, or an event of the device. -/
inductive Act where
  /-- The warp takes its next action: a slot of its run, the header, the fetch or the commit. -/
  | issue (w : WarpRef)
  /-- One arithmetic-clock cycle passes (R339). -/
  | tick
  /-- An event happens. -/
  | event (i : Instr)
  deriving DecidableEq, Repr, Inhabited

/-- The act that comes next where the agenda names none (R398: latencies and orders are not given). -/
opaque Config.freeAct : Nat → Act

/-- A choice between two behaviours the spec allows (R77, R123, R278). -/
opaque Config.freeBit : Nat → Bool

/-- A choice among several behaviours the spec allows (R278, R319). -/
opaque Config.freeNat : Nat → Nat

/-- A value the spec does not state, of 64 bits. -/
opaque Config.freeWord : Nat → BitVec 64

/-- The congestion limit of R320 on memory-bound warps: `none` when neither threshold is passed. The two
thresholds belong to the running firmware. -/
opaque Config.congestion : Nat → Option Nat

/-- Whether an `awt` at a counter, of the warp of a stamp that last took an issue port in a cycle, waits for a deposit of a
suspended warp (R386, log 40). -/
opaque Config.awaitsSuspended : Nat → Nat → Nat → Bool

/-- The number of spare 4 KiB blocks of each of the 12 stacks (R384). -/
opaque Config.spareBlocks : Nat → Nat

/-- What a save stores in its tenant's context save area (R359, R376), whose layout the spec does not give: offsets and
bytes (log 10). -/
opaque Config.saveImage : Nat → List (Nat × Byte)

/-- Whether the signatures of an image verify against the fused keys (R380): Ed25519, ML-DSA-65. -/
opaque Config.imageSigned : List Byte → Bool × Bool

/-- The payload of a flit that carries a packet, whose format the spec does not give (R377). -/
opaque Config.freeFlit : Nat → BitVec 256

/-- The code a failed service command reports where R384 gives none. -/
opaque Config.serviceCode : Nat → BitVec 8

end Sys2Proof
end

