-- ==== Sys2Proof/Machine/Parts.lean ====
section
/-!
DEFINITION. The pieces of the machine's state below the device: traps, held effects, engine commands, runs,
warps, launches, cores and dies. Plain data; what they do stands in the other files of this folder.
-/

namespace Sys2Proof.Machine

/-! ### Traps -/

/-- The trap codes of R342. -/
inductive Code where
  | illop | illpkt | runhaz | regbnd | setkind | setovf | engset | align | ownvio | spawndepth | barmis
  | claimdl | wdog | xlate | perm | futempty | logfull | brk | user | rpldiv | poison | peerflt | featmis | ptime
  deriving DecidableEq, Repr

/-- What a trap records (R349): its code, the position of its instruction, the INFO field, and the trapping
lanes where they are not all the live ones. -/
structure Trap where
  code  : Code
  pos   : Nat
  info  : Nat
  lanes : Option Mask
  /-- The access kind of an XLATE record (R375): 0 read, 1 write, 2 fetch. -/
  kind  : Nat
  /-- The faulting virtual address of an XLATE record (R375). -/
  addr  : Word := 0#64
  /-- Whether an XLATE record has been resolved while its handler was due or ran (R122, R352). -/
  resolved : Bool := false
  deriving DecidableEq, Repr

/-! ### Accesses to memory -/

/-- The kind of a global access (R120, R375). -/
inductive Access where
  | read | write | modify | fetch
  deriving DecidableEq, Repr

/-- A page's format entry as R110 gives it. -/
structure PageFmt where
  efmt : EFmt
  /-- 32-element blocks with a shared scale. -/
  mx   : Bool
  /-- The offset of the scale area from the page base (R108), in bytes. -/
  soff : Int
  deriving DecidableEq, Repr

/-- A translated page: virtual base, size, physical base, permissions and format entry (R108, R110). -/
structure Page where
  va   : Nat
  size : Nat
  pa   : Nat
  r    : Bool
  w    : Bool
  x    : Bool
  fmt  : Word
  deriving DecidableEq, Repr

/-- One byte of a plain store: the bits of `mask` are replaced by those of `val` (R138). -/
structure ByteWrite where
  pa   : Nat
  mask : Byte
  val  : Byte
  deriving DecidableEq, Repr

/-- An MX32 block: the physical addresses of its first element byte and of its scale byte (R90, R93). -/
structure Block where
  efmt  : EFmt
  data  : Nat
  scale : Nat
  deriving DecidableEq, Repr

/-- One element that an `stt` writes into a block: its index, the value's bits in the source format, and the
random bits of its rounding (R98). -/
structure BlockElt where
  idx  : Nat
  val  : Word
  rnd  : Word
  deriving DecidableEq, Repr

/-- A piece of an object in global memory: virtual base, length, physical base. -/
structure Span where
  va  : Nat
  len : Nat
  pa  : Nat
  deriving DecidableEq, Repr

/-- One lane's access of an atomic (R141): its unit, operands, the block its unit lies in when the page is
MX32, and the group that its thread joined first (R333), named by the warp whose `gmake` made it and that `gmake`'s
ordinal. -/
structure AtomAcc where
  op    : AtomOp
  /-- 64 bits; else 32. -/
  wide  : Bool
  lane  : Nat
  va    : Nat
  pa    : Nat
  b     : Word
  c     : Word
  block : Option Block
  grp   : Option (Nat × Nat)
  /-- Its scope: 0 lane, 1 warp, 2 core, 3 cluster, 4 die, 5 device, 6 system (R141, R196). At device scope a die-to-die gateway
  may combine it (R209). -/
  scope : Nat
  deriving DecidableEq, Repr

/-- An atomic held under deterministic mode with the rest of its sort key (R333): the logical warp, the lane and the
thread's count. -/
structure HeldAtom where
  launch : Nat
  /-- Its thread's name without the lane: the logical warp in the low 27 bits. -/
  warp   : Nat
  lane   : Nat
  ord    : Nat
  acc    : AtomAcc
  deriving DecidableEq, Repr

/-- What a home atomic unit performs as one access (R116, R143, R215, R227, R323). `th` names the thread an access
belongs to, by its name (`Warp.names`). -/
inductive HomeAcc where
  /-- One lane of an atomic. -/
  | atom (th : Nat) (a : AtomAcc)
  /-- The count of a guard word (R149). -/
  | guard (th va pa scope : Nat)
  /-- A future filled with a value, or cleared (R153). -/
  | future (th va pa scope : Nat) (val : Option Word)
  /-- Bytes of one store written into blocks of an MX32 page, as one access (R133, R198). -/
  | blockBytes (bs : List Block) (ws : List ByteWrite)
  /-- Elements written into a block (R137). -/
  | blockElts (b : Block) (src : EFmt) (elts : List BlockElt) (rm : BitVec 3) (ftz : Bool)
  /-- Members merged into a set object: (core, slot, mask), ascending (R225). -/
  | kmerge (th : Nat) (obj : List Span) (ms : List (Nat × Nat × Mask))
  /-- A set object written whole with capacity 64 (R214). -/
  | chunk (th : Nat) (obj : List Span) (ms : List (Nat × Nat × Mask))
  /-- A value pushed on a set queue (R228). -/
  | kqpush (th : Nat) (obj : List Span) (val : Word)
  /-- A value popped off a set queue (R228). -/
  | kqpop (th : Nat) (obj : List Span)
  /-- The post of a card (R323): the card's address, the physical address of its bytes 0x40 to 0x7F, the depth a
  `spawn` writes, whether to the any queue, the target core, the poster's tenant. -/
  | post (th card pa : Nat) (depth : Option Nat) (any : Bool) (core tenant : Nat)
  /-- A card that the host posts (R374): its address and that of its bytes 0x40 to 0x7F. -/
  | hostPost (card pa tenant : Nat)
  /-- The head card of a level's queue taken (R324). -/
  | qtake (core : Option Nat) (tenant level : Nat)
  /-- A sync access of another node (R379): its node, its number, and what it asks. -/
  | remote (src num : Nat) (r : RemoteSync)
  deriving DecidableEq, Repr

/-! ### Engine commands (R239, R264) -/

/-- A range of near space of one core, as physical bytes of its slice; `vis` tells which halves a `.shadow`
region offset reaches is resolved when the access is performed. -/
structure NearRange where
  core  : Nat
  lo    : Nat
  len   : Nat
  write : Bool
  deriving DecidableEq, Repr

/-- A copy (R246–R250), with its operands as read at issue and its global pages as translated then. -/
structure Copy where
  dir   : Nat
  /-- The destination cores of `cpym`. -/
  mcast : Option (List Nat)
  dst   : Word
  src   : Word
  rows  : Nat
  cnt   : Nat
  dstr  : Int
  sstr  : Int
  /-- The near side's format as a line tag (R252): one for each row of `.n2g`, one for all rows of `.g2n`. -/
  near  : List Nat
  rm    : BitVec 3
  ftz   : Bool
  tag   : Nat
  tid   : Word
  seed  : Word
  /-- The pages of the global side and of its scales. -/
  pages : List Page
  /-- The format entry of the global side. -/
  fmt   : Word
  deriving DecidableEq, Repr

/-- The descriptor of a matrix loop (R256). -/
structure Mloop where
  fmt : Nat
  mx  : Bool
  zs  : Bool
  ftz : Bool
  t   : Nat
  d0  : Word
  d1  : Word
  d2  : Word
  d3  : Word
  deriving DecidableEq, Repr

/-- Engine commands and the other accesses that the scoreboard of a core orders. -/
inductive Cmd where
  | copy (c : Copy)
  | mloop (m : Mloop)
  | mzero (t : Nat)
  | mrdN (t addr : Nat) (bf : Bool)
  | mwrN (t addr : Nat)
  /-- Elements by lane and slot: key 4·lane + q (R263). -/
  | mwrW (t r0 : Nat) (live : Mask) (vals : Tab Word)
  | lacfg (addr : Nat)
  | laseed (seed step : Word)
  | lainfN (dst src count : Nat) (after : Bool)
  | lafb (addr cls : Nat) (pos : Bool)
  | lardN (dst row count : Nat) (inc after : Bool)
  | lawrN (src row count : Nat)
  | lawrW (row : Nat) (live : Mask) (vals : Tab Word)
  /-- Partials of a handler (R300): near address, handle, sequence number. -/
  | swmerge (addr : Nat) (hdl seq : Word)
  | swrd (addr : Nat) (hdl : Word) (mm : Nat)
  deriving DecidableEq, Repr

/-- A command received by the scoreboard (R264), in received order. -/
structure EngRec where
  id     : Nat
  launch : Nat
  warp   : WarpRef
  /-- The creation stamp of the issuing warp. -/
  stamp  : Nat
  cmd    : Cmd
  ranges : List NearRange
  tiles  : List (Nat × Bool)
  started : Bool
  flags  : BitVec 5
  poison : Bool
  /-- Whether it was started on a frozen range of another core, so that its warp takes PEERFLT (R363). -/
  peer   : Bool
  /-- Cycles for which the command has waited for another node (R378). -/
  age    : Nat
  /-- The ARGK launch in whose block it was issued (R26, R314). -/
  argk   : Option Nat
  /-- The subscriptions that happen before it (R201, R296). -/
  heard  : List Nat
  deriving DecidableEq, Repr

/-- The request entries that an access of a core holds (R117): their number, whether the response comes from another node,
and the cycles it has waited for it (R378). -/
structure ReqEntry where
  id     : Nat
  n      : Nat
  remote : Bool
  age    : Nat
  deriving DecidableEq, Repr

/-- A special-function operation issued on a token (R184). -/
structure SfqOp where
  token : Nat
  reg   : Nat
  lanes : Mask
  /-- The operand of each lane. -/
  vals  : List (Nat × Word)
  fn    : Nat
  ty    : BitVec 2
  ftz   : Bool
  deriving DecidableEq, Repr

/-! ### Subscriptions -/

/-- A subscription place and its merge entries (R289, R290). -/
inductive SubState where
  | idle | run | done
  deriving DecidableEq, Repr

/-- One query's merge entry: m, l, and o[0..127] at keys 0 to 127. -/
structure Merge where
  m : BitVec 32
  l : BitVec 32
  o : Tab (BitVec 32)
  deriving DecidableEq, Repr

/-- A subscription. -/
structure Sub where
  launch  : Nat
  /-- The logical index of the warp that subscribed (R342). -/
  logical : Nat
  sid     : Nat
  list    : Word
  qb      : Nat
  lb      : Nat
  hent    : Word
  hg      : Nat
  nlb     : Nat
  et      : Bool
  dh      : Bool
  q       : Nat
  state   : SubState
  sweep   : Option Nat
  e       : Nat
  hold    : List (Nat × List Merge)
  /-- Pages delivered in the sweep, and pages fetched for it but not yet delivered. -/
  given   : Nat
  merges  : List Merge
  /-- Busy landing slots: slot, sequence number, sweep. -/
  busy    : List (Nat × Nat × Nat)
  /-- The numbers whose handlers retired without a merge while they lay above E + 8 (R302). -/
  late    : List Nat
  /-- Its name in the record of what happens before what (R296), given as it is committed. -/
  name    : Nat
  /-- The subscriptions whose commit happens before its own, itself among them. -/
  heard   : List Nat
  /-- Those that happen before the merges of its sweep, by the merge's number, and before those of earlier sweeps (R308). -/
  partials : List (Nat × List Nat)
  merged  : List Nat
  deriving DecidableEq, Repr

/-! ### Effects held until commit step 4 (R55, R56, R58) -/

/-- A held effect. A result `d` is the operand code the effect returns to (R141); 24 where it returns none. -/
inductive Held where
  | bytes (na : Bool) (ws : List ByteWrite)
  /-- Accesses performed one after another at home atomic units. Each returns its value under the identifier: an
  atomic to its lane, any other access to every lane of the mask. -/
  | home (id : Nat) (d : BitVec 5) (m : Mask) (hs : List HomeAcc)
  /-- Non-returning atomics that deterministic mode adds to the core's buffer (R333). -/
  | keep (as : List HeldAtom)
  /-- A core flush (R333), and what of it remains once begun. -/
  | flush
  | flushed (id : Nat) (as : List HeldAtom)
  /-- Bytes of a plain near store: core, offset in the launch's region there, byte. -/
  | near (m : Mask) (ws : List (Nat × Nat × Byte))
  | rwr (core slot ctr reg : Nat) (vals : List (Nat × Word))
  | bind (add : Bool) (base len guard : Word)
  | rel (id scope va pa : Nat) (thread : Nat) (m : Mask)
  | fence (scope : Nat)
  | icinv (scope : Nat) (base len : Word)
  | publish (region : Nat)
  | engine (c : Cmd)
  | ams (core card depth : Nat) (payload : List Word)
  | barr (id : Nat) (d : BitVec 5) (m : Mask) (n : Nat)
  | dbar (id : Nat) (d : BitVec 5) (m : Mask) (n : Nat)
  | lmark (imm : Nat)
  | sfq (op : SfqOp)
  | swsub (place : Nat) (u : Sub)
  | swleave (hdl : Word)
  /-- The start of a sweep, with the subscriptions (core, place) whose joins are decided already (R337). -/
  | swgo (sid : Nat) (dh : Bool) (base : Word) (page : Page) (joined : List (Nat × Nat))
  deriving DecidableEq, Repr

/-! ### Runs -/

/-- Where an awaited value goes: window slots, or a set register (R64, R224). -/
inductive Dest where
  | win (d : BitVec 5) (n : Nat)
  | set (k : Nat)
  deriving DecidableEq, Repr

/-- A value awaited inside a run (R64). -/
structure Pend where
  id      : Nat
  dest    : Dest
  /-- key 32·slot + lane. -/
  vals    : List (Nat × Word)
  /-- Instructions of the lookahead count still to issue. -/
  count   : Nat
  arrived : Bool
  poison  : Bool
  /-- The position of the read. -/
  pos     : Nat
  deriving DecidableEq, Repr

/-- The transfer of control at commit step 6. -/
inductive Xfer where
  | fall
  | goto (a : Word)
  | exit (m : Mask)
  /-- An admitted apply (R232): the value, its form, groups, block and continuation, and the members found at issue. -/
  | apply (v : Word) (repack : Bool) (b0 b1 : Nat) (block cont : Word) (ms : List (Nat × Nat × Mask))
  | enda
  | tret (e : Bool)
  deriving DecidableEq, Repr

/-- A staged change of the set store, or of another thing that commit step 3 changes (R58, R218). -/
inductive SetEff where
  /-- A reserved entry filled with a map of 2,048 bits. -/
  | fill (e : Nat) (bits : BitVec 2048)
  /-- A reserved spill chunk written with members (R214). -/
  | spill (chunk : Nat) (obj : List Span) (ms : List (Nat × Nat × Mask))
  | freeEntry (e : Nat) (gen : BitVec 8)
  | freeChunk (chunk : Nat)
  | group (e : Nat) (m : Mask)
  | join (gid : BitVec 24) (m : Mask)
  | leave (gid : BitVec 24) (m : Mask)
  | dissolve (gid : BitVec 24)
  | bbind (n : Nat) (gid : BitVec 24)
  | bunb (n : Nat)
  | syswr (num : Nat) (v : Word)
  | counter (ctr : Nat) (sub : BitVec 16) (clr : Bool)
  | idb (base len : Nat)
  | ide
  /-- The live bit of an accumulator tile (R254). -/
  | tile (t : Nat) (on : Bool)
  deriving DecidableEq, Repr

/-- What a run has reserved until it commits or is discarded (R60). -/
structure Reserved where
  /-- Groups of a granted claim. -/
  claim   : Option Nat
  entries : List Nat
  chunks  : List Nat
  tags    : List Nat
  tokens  : List Nat
  places  : List Nat
  merges  : Nat
  deriving DecidableEq, Repr

/-- The packets of the next run, fetched (R81). -/
structure Fetched where
  addr  : Word
  hdr   : BitVec 128
  packs : List (BitVec 128)
  deriving DecidableEq, Repr

/-- A run in progress (R48–R60). -/
structure Run where
  hdr    : Word
  /-- Its packets, as fetched. -/
  src    : Fetched
  b0     : Nat
  b1     : Nat
  /-- The slots of positions 1 to n with their extensions, and the address of each slot's packet. -/
  slots  : List (BitVec 32 × BitVec 10 × Word)
  fall   : Word
  /-- The position that issues next. -/
  pos    : Nat
  /-- The operands its first instruction read at the header, where it waits there (R146, R300, R303, R328). -/
  ops    : Word × Word
  /-- Window slots and temporaries: key 32·code + lane (R51). -/
  win    : Tab Word
  /-- Staged set values (R53). -/
  sets   : Dict Word
  setEff : List SetEff
  pend   : List Pend
  held   : List Held
  res    : Reserved
  give   : Option Nat
  xfer   : Xfer
  flags  : BitVec 5
  /-- Stochastic roundings made so far: key 32·position… counted a lane (R99). -/
  srs    : Tab Nat
  yield  : Bool
  ppoint : Option (BitVec 16)
  /-- `trap` or `brk` at the lowest position: code, position, immediate (R353). -/
  soft   : Option (Code × Nat × Nat)
  /-- Whether a load, atomic or future operation issued (R320). -/
  mem    : Bool
  /-- Special-function operations issued: destination code, token (R184). -/
  sfq    : List (BitVec 5 × Nat)
  /-- The commit in progress, if `trail` has issued: write-back mask, result tag, the step reached. -/
  commit : Option (BitVec 16 × Option Nat × Nat)
  /-- The home access or other event the commit waits for. -/
  waitId : Option Nat
  deriving DecidableEq, Repr

/-! ### Warps -/

/-- A mark on a main register (R62, R186). -/
inductive MarkBy where
  | tag (q : Nat)
  | untagged
  | token (t : Nat)
  deriving DecidableEq, Repr

/-- A value on its way to a marked main register. -/
structure Mark where
  reg    : Nat
  owner  : MarkBy
  id     : Nat
  lanes  : Mask
  /-- The values, once known: key lane. -/
  vals   : Tab Word
  known  : Bool
  poison : Bool
  deriving DecidableEq, Repr

/-- The scheduler state of R29. -/
inductive Sched where
  | active | pending | suspended
  deriving DecidableEq, Repr

/-- A `claim` a warp waits at (R68): its groups, the cycle in which the wait began, and whether it is granted. -/
structure ClaimWait where
  n       : Nat
  since   : Nat
  granted : Bool
  deriving DecidableEq, Repr

/-- What kind of warp it is (R17, R234, R298, R325, R347). -/
inductive WarpKind where
  | ordinary
  /-- An apply warp of a session: its session and, by lane, the packed position, source slot and source
  lane of its thread (R234). -/
  | apply (session : Nat) (src : List (Nat × Nat × Nat))
  /-- A sweep handler: handle, sequence number, landing slot, sweep. -/
  | sweep (hdl : Word) (seq slot sweep : Nat)
  | handler
  deriving DecidableEq, Repr

/-- An open apply of a warp (R233, R314). -/
structure OpenApply where
  cont    : Word
  k0      : Word
  session : Option Nat
  /-- The ARGK launch whose entry runs as the block. -/
  argk    : Option Nat
  deriving DecidableEq, Repr

/-- What a warp that is not ready waits for, beyond what its header tests. -/
inductive Wait where
  | none
  /-- The resolution of a fault record: 64 KiB page and kind (R122). -/
  | fault (page kind : Nat)
  /-- Its trap handler, live or to be created at the entry given (R346); LOGFULL's stands in `Warp.due`. -/
  | handler (t : Trap) (entry : Word)
  /-- A session of applies (R232). -/
  | session (id : Nat)
  deriving DecidableEq, Repr

/-- A resident warp. -/
structure Warp where
  stamp   : Nat
  launch  : Nat
  kind    : WarpKind
  logical : Nat
  live    : Mask
  tids    : List Word
  /-- The names of its lanes' threads in the order of events (R194): 32·logical + lane; a sweep handler's lanes are no threads of
  the launch (R298), and their names lie above 2^32. A log names each by the low 32 bits (R336). -/
  names   : List Nat
  g       : Nat
  regs    : Tab Word
  srn     : Tab Word
  k       : Tab Word
  marks   : List Mark
  ctr     : List (BitVec 16 × Bool)
  sfq     : List SfqOp
  fpflags : BitVec 5
  wdog    : Nat
  pc      : Word
  fetched : Option Fetched
  run     : Option Run
  sched   : Sched
  wait    : Wait
  /-- The LOGFULL trap whose handler is to be created, or is live, while the warp keeps its place and its held commit, and the
  handler's entry (R341, R346). -/
  due     : Option (Trap × Word)
  claim   : Option ClaimWait
  readyAt : Option Nat
  /-- The cycle since which the instruction at a position of its run waits in an order of grants, and that position (R243,
  R292). -/
  since   : Option (Nat × Nat)
  /-- Where the chain group at a position of its run cannot issue whole, that position, and the run at the slot of the group that
  waits, with those before it issued, as the last cycle left them (R45, R68, R243). -/
  stands  : Option (Nat × Run)
  /-- The sectors at whose units the read of its next instruction is queued, each with the rounds its unit had seen when it
  arrived (R143). -/
  queued  : List (Nat × Nat)
  lastIssue : Nat
  issued  : Bool
  tiles   : BitVec 16
  /-- The idempotent region (R357): its entry, none while the warp still waits at the apply session at which the region began;
  its range. -/
  region  : Option (Option Word × Nat × Nat)
  applies : List OpenApply
  ppoint  : Option (BitVec 16)
  stop    : Bool
  /-- The named barrier at whose `bwt` the warp waited as it stopped, and the phase for which it waits (R22, R360). -/
  stoppedAt : Option (Nat × Word)
  trap    : Option (Trap × Word)
  /-- What a `trap` or `brk` raises once the apply that its run made lets the warp go on (R353). -/
  later   : Option Trap
  history : List Bool
  poisoned : List Nat
  /-- Groups joined, in order (R333), and the count of `gmake`s made. -/
  groups  : List (Nat × BitVec 24)
  gmakes  : Nat
  icinv   : Option (Nat × Word × Word)
  /-- Whether a sweep handler has committed a `swmerge` for its sequence number (R302). -/
  merged  : Bool
  deriving DecidableEq, Repr

/-! ### Launches -/

/-- The held fields of a job card and its code header (R311, R372). -/
structure Card where
  addr   : Nat
  entry  : Word
  hdr    : Word
  arg    : Word
  nthr   : Nat
  near   : Nat
  wpc    : Nat
  tc     : Nat
  rg     : Nat
  seed   : Word
  spbase : Word
  tvt    : Word
  dbm    : BitVec 16
  spn    : Nat
  pri    : Nat
  depth  : Nat
  argk   : Bool
  det    : Bool
  mode   : Nat
  succ   : Word
  own    : Word
  ownn   : Nat
  seg    : Word
  slog   : Nat
  shadows : List (Nat × Nat)
  laswap : Bool
  lause  : Bool
  deriving DecidableEq, Repr

/-- A launch's hold of a core: its near region and tiles there, and what it keeps there. -/
structure Place where
  core    : Nat
  base    : Nat
  /-- Which half of each shadow region is visible (R253): `true`, the second. -/
  halves  : List Bool
  /-- The core's tiles that the launch names m0, m1, … (R254). -/
  tiles   : List Nat
  wdoglim : Word
  /-- A write of WDOGLIM that takes effect in the next cycle (R38). -/
  wdogNext : Option Word
  drops   : BitVec 32
  chunks  : List Nat
  frozen  : Bool
  /-- Whether the launch is suspended on the core: its region and tiles are saved (R359). -/
  away    : Bool
  /-- Logical warps placed and not yet created: the stamp of their unit's placement, the first, past the last; in order
  (R17, R399). -/
  todo    : List (Nat × Nat × Nat)
  deriving DecidableEq, Repr

/-- A place that sync events read and write (R194): a location at a home, a phase of a named or a device barrier, an arrival
counter of the warp of a stamp, a copy tag of a core. -/
inductive SyncLoc where
  | home (pa : Nat)
  | named (core n ph : Nat)
  | device (n ph : Nat)
  | counter (stamp n : Nat)
  | tag (core t : Nat)
  deriving DecidableEq, Repr

/-- Who makes a sync event (R196): its scope, as in `AtomAcc.scope`, its threads, their launch, and the warp that they occupy, with
its creation stamp. -/
structure SyncBy where
  scope   : Nat
  launch  : Nat
  threads : List Nat
  warp    : WarpRef
  stamp   : Nat
  deriving DecidableEq, Repr

/-- What a place tells a sync read (R200): the bytes that its last sync write left there, and the writes from which a read of
them synchronizes, each with the subscriptions that happen before it (R202, R296). -/
structure SyncMark where
  loc    : SyncLoc
  val    : List Byte
  writes : List (SyncBy × List Nat)
  deriving DecidableEq, Repr

/-- The cause with which a launch ends (R315, R342). -/
structure Cause where
  code   : Code
  detail : Nat
  deriving DecidableEq, Repr

/-- What an access received by a core's scoreboard tells those received after it that overlap it (R201, R264): its bounding
ranges, as core, first offset and the offset past the last in the launch's region there, the launch's tiles that it touches,
and the subscriptions that happen before it. -/
structure RangeMark where
  core  : Nat
  spans : List (Nat × Nat × Nat)
  tiles : List Nat
  ids   : List Nat
  deriving DecidableEq, Repr

/-- A launch (R9). -/
structure Launch where
  id      : Nat
  tenant  : Nat
  card    : Card
  depth   : Nat
  /-- An `ams` launch: no end actions (R325). -/
  ams     : Bool
  host    : Bool
  units   : Nat
  exited  : Nat
  places  : List Place
  binds   : List (Word × Word × Word)
  det     : Word
  /-- A write of DETMODE that takes effect in the next cycle (R332). -/
  detNext : Option Word
  logPos  : Nat
  logBase : Nat
  logWait : Bool
  /-- Decisions stalled for a record, in order (R337): the warp whose instruction causes each, word 0 of its record, and the
  thread it names. -/
  logQueue : List (Option WarpRef × Word × Nat)
  /-- Records of earlier segments that a replay has not consumed: offset in the log, words (R340). -/
  carry   : List (Nat × Word × Word)
  owns    : List (Nat × Nat)
  /-- Cards taken by `qtake` (R324), and whether the host posted each. -/
  taken   : List (Nat × Bool)
  cause   : Option Cause
  /-- The launch that posted the card of an ARGK launch (R314). -/
  poster  : Option Nat
  /-- ARGK members that have not committed their `enda` (R314). -/
  argkLeft : List (Nat × Nat × Mask)
  /-- The cores on which an ARGK launch has members: it runs there (R26, R314). -/
  argkCores : List Nat
  /-- Held-atomic counts of threads (R333): key 32·logical warp + lane. -/
  ords    : Tab Nat
  /-- The recorded or matched sync accesses of threads: thread and unit (R336). -/
  records : List (Nat × Nat)
  /-- Offsets in the log of the records a replay has consumed (R338). -/
  consumed : List Nat
  /-- The subscriptions whose commit happens before every event of the launch: those known to what started it (R201). -/
  base    : List Nat
  /-- The subscriptions whose commit happens before a thread's next event, by thread (R202, R296). -/
  heard   : Dict (List Nat)
  /-- What barriers, counters and copy tags tell the launch's events of them (R201). -/
  told    : List SyncMark
  /-- What accesses to near space and tiles learn of them (R201). -/
  ranged  : List RangeMark
  deriving DecidableEq, Repr

/-! ### Cores -/

/-- An L1 sector (R115). -/
structure Sector where
  data   : BitVec 256
  dirty  : BitVec 32
  filled : Bool
  deriving DecidableEq, Repr

/-- An entry of a core's set store (R213, R19). -/
structure SetEntry where
  gen    : BitVec 8
  /-- The holding launch; none: free. -/
  holder : Option Nat
  bits   : BitVec 2048
  /-- The group held in it, by its name: the logical warp whose `gmake` made it and that `gmake`'s ordinal (R333). -/
  group  : Option (Nat × Nat)
  deriving DecidableEq, Repr

/-- A named barrier (R326): the group it is bound to, its phase count, and each arrival counted: the phase
and the thread as 32·slot + lane. -/
structure Barrier where
  gid  : Option (BitVec 24)
  ph   : BitVec 32
  arr  : List (BitVec 32 × Nat)
  deriving DecidableEq, Repr

/-- A session of applies (R232–R236). -/
structure Session where
  id      : Nat
  launch  : Nat
  value   : Word
  repack  : Bool
  b0      : Nat
  b1      : Nat
  block   : Word
  /-- Arrived warps: slot, continuation. -/
  arrived : List (Nat × Word)
  started : Bool
  /-- Members: slot, lane; ascending. -/
  members : List (Nat × Nat)
  /-- `apply.s`: slots whose turn is to come. `apply.r`: apply warps created so far. -/
  turns   : List Nat
  next    : Nat
  /-- `apply.r`: source slots and lanes whose threads have exited in an apply warp (R236). -/
  gone    : List (Nat × Nat)
  deriving DecidableEq, Repr

/-- A place of the 128 and its generation. -/
structure SubPlace where
  gen : BitVec 8
  sub : Option Sub
  deriving DecidableEq, Repr

/-- A handler warp to be created (R298). -/
structure SweepJob where
  launch  : Nat
  logical : Nat
  hdl     : Word
  seq     : Nat
  slot    : Nat
  sweep   : Nat
  hent    : Word
  hg      : Nat
  /-- What v0 to v6 hold. -/
  regs    : List Word
  /-- The subscriptions that happen before the delivery's `publish` (R308). -/
  heard   : List Nat
  deriving DecidableEq, Repr

/-- The automaton array (R268–R272). Cells: key 1,024·row + column. -/
structure Automaton where
  holder : Option Nat
  /-- The byte of every cell that `cells` does not list. -/
  fill   : Byte
  cells  : Tab Byte
  /-- The cells as they stood before row writers that a reader may still read alongside (R278), oldest first: each with
  the first identifier that the core gave after that writer completed; none while it runs. -/
  before : List (Option Nat × Tab Byte)
  nf     : Nat
  nr     : Nat
  nc     : Nat
  t      : Nat
  n      : Nat
  nt     : List Byte
  /-- Rows: negative polarity, class, weight. -/
  rows   : List (Bool × Nat × Nat)
  cst    : List Byte
  seed   : Word
  step   : Word
  deriving DecidableEq, Repr

/-- A remote register write on its way (R144). -/
structure Deposit where
  id     : Nat
  launch : Nat
  slot   : Nat
  ctr    : Nat
  reg    : Nat
  vals   : List (Nat × Word)
  /-- Sending core and warp slot (R145). -/
  sender : Nat × Nat
  /-- Whether it has reached the target core. -/
  arrived : Bool
  /-- The subscriptions that happen before it (R202, R296). -/
  heard  : List Nat
  deriving DecidableEq, Repr

/-- An active message (R325). -/
structure Message where
  tenant  : Nat
  card    : Nat
  depth   : Nat
  payload : List Word
  /-- A fault its read waits for: 64 KiB page. -/
  fault   : Option Nat
  /-- The held fields of its card, once read (R312). -/
  held    : Option Card
  /-- The subscriptions that happen before it (R201, R296). -/
  heard   : List Nat
  deriving DecidableEq, Repr

/-- A preemption of a launch on a core (R355). -/
structure Preempt where
  launch : Nat
  /-- Cycles since the request. -/
  age    : Nat
  deriving DecidableEq, Repr

/-- A read that a slice made for the matrix engines of a cluster, and answers their later fetches of the same bytes with, for
64 cycles (R259, R366). -/
structure SliceRead where
  /-- The launch whose region it reads. -/
  launch  : Nat
  cluster : Nat
  age     : Nat
  /-- Whether it was answered with poison. -/
  poison  : Bool
  /-- The cores it has answered: each reads anew for its next loop (R259). -/
  readers : List Nat
  range   : List NearRange
  /-- The bytes by their offsets in the slice. -/
  bytes   : Dict Byte
  /-- Once its bytes have been written, or the region frozen: for the core at each position of the cluster, the number before which
  a command of it must have been received to be answered with it still (R205, R264, R363). -/
  closed  : Option (List Nat)
  deriving DecidableEq, Repr

/-- A core. -/
structure Core where
  started  : Bool
  fenced   : Bool
  draining : Bool
  cyc      : Word
  warps    : Dict Warp
  hnds     : Dict Warp
  near     : Tab Byte
  /-- Format tag of each 32-byte line of the slice: EFMT code + 16 for MX32 (R252). -/
  lineFmt  : Tab Nat
  /-- Tile elements: key 4,096·tile + 64·row + column. -/
  tiles    : Tab (BitVec 32)
  l1       : Dict Sector
  /-- Cached packets by physical address / 16, each with the epoch of code it belongs to (R81). -/
  icache   : Dict (BitVec 128 × Nat)
  tlb      : List (Nat × Page)
  reqs     : List ReqEntry
  nextId   : Nat
  store    : List SetEntry
  barriers : List Barrier
  engine   : List EngRec
  reads    : List SliceRead
  auto     : Automaton
  subs     : List SubPlace
  jobs     : List SweepJob
  deposits : List Deposit
  messages : List Message
  amsJobs  : List (Nat × List Word)
  sessions : List Session
  held     : List HeldAtom
  /-- The logical warp whose turn it is in deterministic mode (R333), by launch. -/
  turn     : Dict Nat
  preempts : List Preempt
  /-- Issue ports used this cycle (R30), and whether a warp was created, a claim granted, a warp entered
  and a unit placed this cycle. -/
  ports    : Nat
  created  : Bool
  granted  : Bool
  entered  : Bool
  placed   : Bool
  /-- Consecutive cycles of claim deadlock (R70), and the free slice-groups at the last cycle. -/
  deadlock : Nat
  poolWas  : Nat
  /-- Slice-groups given back in this cycle, free from the next (R69). -/
  returned : Nat
  /-- The warp, as 2·slot and 1 more for a handler, that issued or committed last in this cycle: the issues and commits of a
  cycle are taken in ascending slot (R213, R230, R264). -/
  acted    : Option Nat
  /-- The set store as the cycle's issues see it, once a commit of the cycle has changed it (R213). -/
  seen     : Option (List SetEntry)
  /-- Whether an active warp could issue as this cycle began (R29, R320). -/
  readyActive : Bool
  passes   : Nat
  /-- The tenant that a level's next decision asks first, by level; and whether the next decision for a tenant at a level
  prefers the any queue: key 16·level + tenant, 1 for the any queue (R318). -/
  rrTenant : Tab Nat
  rrAny    : Tab Nat
  deriving DecidableEq, Repr

/-! ### Dies, tenants and the device -/

/-- A page fetched by Barchan and staged on a receiving die (R297). -/
structure Staged where
  sweep  : Nat
  page   : Nat
  bytes  : List Byte
  /-- Subscriptions still to receive it: core, place, sequence number. -/
  todo   : List (Nat × Nat × Nat)
  /-- The subscriptions that happen before its fetch (R308). -/
  heard  : List Nat
  deriving DecidableEq, Repr

/-- A sweep (R293–R296). -/
structure Sweep where
  id     : Nat
  launch : Nat
  core   : Nat
  sid    : Nat
  base   : Word
  dh     : Bool
  et     : Bool
  /-- The last main-pass page whose fetch has begun. -/
  last   : Option Nat
  tail   : Bool
  /-- Subscriptions: core, place, pages still to sweep in the main pass, pages missed, pages fetched. -/
  subs   : List (Nat × Nat × List Nat × List Nat × Nat)
  /-- Page lists still to be read: core, place, whether it joins late. -/
  toRead : List (Nat × Nat × Bool)
  /-- Waits for a fault record's resolution: 64 KiB page. -/
  fault  : Option Nat
  /-- The subscriptions that happen before its fetches: those known to its `swgo` and to each join (R308). -/
  heard  : List Nat
  deriving DecidableEq, Repr

/-- A compute die. -/
structure Die where
  tlb    : List (Nat × Page)
  sweeps : List Sweep
  staged : List Staged
  deriving DecidableEq, Repr

/-- A tenant's registers (R373) and its unresolved records. -/
structure Tenant where
  troot   : Word
  fmtab   : Word
  fqbase  : Word
  fqctl   : Word
  fqhead  : Word
  fqtail  : Word
  ctxbase : Word
  ctxsize : Word
  winbase : List Word
  winlim  : List Word
  tlbBusy : Option (Option Nat)
  postst  : Bool
  /-- A POST is being performed (R374). -/
  posting : Bool
  seq     : Word
  /-- For each PREEMPT write not yet done, the launches and cores it named that are not yet saved (R376). -/
  preempting : List (List (Nat × Nat))
  /-- Unresolved XLATE records: die, 64 KiB page, kind (R155). -/
  unresolved : List (Nat × Nat × Nat)
  deriving DecidableEq, Repr

/-- A queued card (R317). -/
structure QItem where
  id     : Nat
  tenant : Nat
  level  : Nat
  /-- The core of a core queue; none: the any queue. -/
  core   : Option Nat
  addr   : Nat
  host   : Bool
  /-- Its held fields, once read as head (R312). -/
  card   : Option Card
  /-- Its launch, once begun. -/
  launch : Option Nat
  /-- A fault its read waits for: 64 KiB page. -/
  fault  : Option Nat
  deriving DecidableEq, Repr

/-- A device barrier (R329): its launch, phase count and arrivals: phase, 32·warp + lane. -/
structure DevBarrier where
  launch : Option Nat
  ph     : BitVec 32
  arr    : List (BitVec 32 × Nat)
  deriving DecidableEq, Repr

/-- A queued access of a home atomic unit (R143). -/
structure HomeReq where
  id     : Nat
  core   : Nat
  warp   : WarpRef
  stamp  : Nat
  launch : Nat
  sector : Nat
  /-- The arbitration rounds its sector had seen when it arrived (R143). -/
  round  : Nat
  /-- The source node and end-to-end number of an access that another node makes (R378). -/
  packet : Option (Nat × Nat)
  /-- The tenant whose translation it uses; 16 for an access of another node (R374). -/
  tenant : Nat
  /-- Cycles since it was sent (R378). -/
  age    : Nat
  /-- The threads to which its event belongs (R194). -/
  ths    : List Nat
  acc    : HomeAcc
  deriving DecidableEq, Repr

/-- A suspended launch saved from a core (R359). Bytes of its near region and its shadow halves, their line tags and its
tiles are keyed from its own base. Subscriptions stay on the core (R297). -/
structure SavedLaunch where
  core     : Nat
  launch   : Nat
  warps    : Dict Warp
  hnds     : Dict Warp
  near     : Tab Byte
  lineFmt  : Tab Nat
  tiles    : Tab (BitVec 32)
  sessions : List Session
  auto     : Option Automaton
  /-- The set-store entries that it goes on holding, with their bits, and the named barriers bound to its groups, by number. -/
  store    : List (Nat × SetEntry)
  barriers : List (Nat × Barrier)
  /-- Bytes it takes in the tenant's save area; the spec gives no layout. -/
  size     : Nat
  deriving DecidableEq, Repr

/-- A caravan core (R380). -/
inductive Boot where
  | rom | fetching | verifying | running | rejected
  deriving DecidableEq, Repr

/-- A fabric port (R377). -/
structure Port where
  inService : Bool
  /-- The number of the next flit to receive, and the flit it has asked to be replayed from. -/
  next      : BitVec 12
  asked     : Option (BitVec 12)
  /-- The number of the next flit to send. -/
  send      : BitVec 12
  /-- Flits sent and not acknowledged, oldest first: the replay window. -/
  window    : List (BitVec 12 × BitVec 256)
  /-- Flits put on the link, in order, each with whether its retained copy was correct. -/
  line      : List (BitVec 12 × BitVec 256 × Bool)
  deriving DecidableEq, Repr

/-- An image under verification (R380): whether both signatures verify, and its hash. -/
structure ImageCheck where
  valid : Bool
  hash  : BitVec 384
  deriving DecidableEq, Repr

/-- The running service command (R383). -/
structure Service where
  cmd  : Nat
  arg  : Nat
  done : Bool
  fail : BitVec 8
  deriving DecidableEq, Repr

end Sys2Proof.Machine
end

