-- ==== Sys2Proof/Machine/State.lean ====
section
/-!
DEFINITION. The state of the device and its state after reset. What the fields hold stands in INVENTORY.md
with the rule that names each; fields the model adds are `agenda`, `oracle`, `focus`, `stall` and `chain` (log 2).
-/

namespace Sys2Proof.Machine

/-- The device's own registers and queues, beyond memory, cores, dies, tenants and launches. -/
structure Device where
  dbars    : List DevBarrier
  queue    : List QItem
  placeP   : Nat
  /-- Whether an any-queue unit was placed this cycle (R318). -/
  anyPlaced : Bool
  homeQ    : List HomeReq
  /-- Cards, by tenant and address, whose DEP word holds an uncorrectable error (R362). -/
  depErrors : List (Nat × Nat)
  saved    : List SavedLaunch
  devcap0  : Word
  devcap1  : Word
  drvcap0  : Word
  drvcap1  : Word
  enable   : Bool
  nodeid   : BitVec 8
  pwrlim   : Nat
  mbxaddr  : Word
  mbxlen   : Word
  mbxgo    : Bool
  svc      : Option Service
  svcFail  : BitVec 8
  caravan  : List Boot
  /-- Whether a caravan core fetches under RELOAD (R383). -/
  reload   : Option Nat
  rejects  : Nat
  measure  : Option (BitVec 384)
  /-- The image under verification (R380). -/
  image    : Option ImageCheck
  spdm     : Nat
  linkUp   : Bool
  linkRate : Nat
  linkWidth : Nat
  ports    : List Port
  /-- Payloads of flits that wait for a port (R377). -/
  unsent   : List (BitVec 256)
  /-- Next end-to-end number performed from each source node, packets held back, and sent packets kept: node, number (R378). -/
  e2eSeen  : Tab Nat
  e2eHeld  : List (Nat × Nat × RemoteSync)
  e2eSent  : List (Nat × Nat)
  /-- The next end-to-end number for each destination node. -/
  e2eNext  : Tab Nat
  /-- Accesses performed so far at each sector's atomic unit (R143). -/
  rounds   : Tab Nat
  /-- Blocks moved by RETIRE: block, spare; and spare blocks used of each stack. -/
  spares   : List (Nat × Nat)
  spareUsed : Tab Nat
  clkPower : Bool
  clkHeat  : Bool
  halted   : Bool
  /-- MSI-X vectors sent: function, vector (R368). -/
  vectors  : List (Nat × Nat)
  nextLaunch : Nat
  nextStamp  : Nat
  /-- Who made the last accepted post of a card: key 2^57·tenant + card address; 0 the host, n + 1 launch n (R314, R374). -/
  posters  : Dict Nat
  deriving DecidableEq, Repr

/-- The state of the device. -/
structure State where
  mem      : Memory
  cores    : List Core
  dies     : List Die
  tenants  : List Tenant
  launches : Dict Launch
  dev      : Device
  agenda   : List Act
  oracle   : Nat
  focus    : Option WarpRef
  stall    : Bool
  /-- The warp whose chain group is being issued (R45). -/
  chain    : Option WarpRef
  /-- What sync reads of a location of global memory learn of the subscriptions that happen before them (R200, R296). -/
  marks    : List SyncMark
  /-- The subscriptions that happen before the last accepted post of a card, by 2^57·tenant + card (R201, R296). -/
  posted   : Dict (List Nat)
  deriving DecidableEq, Repr

/-- Why the machine stops with a fault. No step raises one: a step puts a warp in focus before it runs an
instruction of a run. -/
inductive Fault where
  /-- `exec` of an instruction of a run while no warp is in focus. Raised by every meaning of an encoded
  instruction; safe, since no step reaches it. -/
  | noWarp
  /-- `exec` of an instruction of a run while the warp in focus has no run in progress. Raised by every
  meaning of an encoded instruction; safe, since no step reaches it. -/
  | noRun
  deriving DecidableEq, Repr

/-- Why the model refuses an instruction. -/
inductive Refusal where
  /-- The instruction has no meaning in the model yet; raised in the dispatcher alone; safe. -/
  | notModelled (mnemonic : String)
  deriving DecidableEq, Repr

/-- An automaton array at the start of a hold (R270, R272). -/
def Automaton.start (l : Option Nat) : Automaton where
  holder := l
  fill := 127#8
  cells := []
  before := []
  nf := 512
  nr := 256
  nc := 1
  t := 127
  n := 128
  nt := List.replicate 8 0#8
  rows := List.replicate 256 (false, 0, 1)
  cst := List.replicate 256 0#8
  seed := 0#64
  step := 0#64

/-- A core before firmware releases it (R382, R339; log 20). -/
def Core.reset : Core where
  started := false
  fenced := false
  draining := false
  cyc := 0#64
  warps := []
  hnds := []
  near := []
  lineFmt := []
  tiles := []
  l1 := []
  icache := []
  tlb := []
  reqs := []
  nextId := 0
  store := List.replicate 256 { gen := 0#8, holder := none, bits := 0#2048, group := none }
  barriers := List.replicate 48 { gid := none, ph := 0#32, arr := [] }
  engine := []
  reads := []
  auto := Automaton.start none
  subs := List.replicate 128 { gen := 0#8, sub := none }
  jobs := []
  deposits := []
  messages := []
  amsJobs := []
  sessions := []
  held := []
  turn := []
  preempts := []
  ports := 0
  created := false
  granted := false
  entered := false
  placed := false
  deadlock := 0
  poolWas := 3072
  returned := 0
  acted := none
  seen := none
  readyActive := false
  passes := 0
  rrTenant := []
  rrAny := []

/-- A tenant's registers at reset (R373). -/
def Tenant.reset : Tenant where
  troot := 0#64
  fmtab := 0#64
  fqbase := 0#64
  fqctl := 0#64
  fqhead := 0#64
  fqtail := 0#64
  ctxbase := 0#64
  ctxsize := 0#64
  winbase := List.replicate 16 0#64
  winlim := List.replicate 16 0#64
  tlbBusy := none
  postst := false
  posting := false
  seq := 0#64
  preempting := []
  unresolved := []

/-- The device's registers at reset (R371: features 0–10 are offered, bit 8 only with a nonzero NODEID). -/
def Device.reset : Device where
  dbars := List.replicate 16 { launch := none, ph := 0#32, arr := [] }
  queue := []
  placeP := 0
  anyPlaced := false
  homeQ := []
  depErrors := []
  saved := []
  devcap0 := 0x6FF#64
  devcap1 := 0#64
  drvcap0 := 0#64
  drvcap1 := 0#64
  enable := false
  nodeid := 0#8
  pwrlim := 2500
  mbxaddr := 0#64
  mbxlen := 0#64
  mbxgo := false
  svc := none
  svcFail := 0#8
  caravan := List.replicate 4 Boot.rom
  reload := none
  rejects := 0
  measure := none
  image := none
  spdm := 0
  linkUp := false
  linkRate := 0
  linkWidth := 0
  ports := List.replicate 72 { inService := true, next := 0#12, asked := none, send := 0#12, window := [], line := [] }
  unsent := []
  e2eSeen := []
  e2eHeld := []
  e2eSent := []
  e2eNext := []
  rounds := []
  spares := []
  spareUsed := []
  clkPower := false
  clkHeat := false
  halted := false
  vectors := []
  nextLaunch := 0
  nextStamp := 0
  posters := []

/-- The device right after reset. -/
def State.reset : State where
  mem := []
  cores := List.replicate 144 Core.reset
  dies := List.replicate 4 { tlb := [], sweeps := [], staged := [] }
  tenants := List.replicate 16 Tenant.reset
  launches := []
  dev := Device.reset
  agenda := []
  oracle := 0
  focus := none
  stall := false
  chain := none
  marks := []
  posted := []

end Sys2Proof.Machine
end

