-- ==== Sys2Proof/Machine/Access.lean ====
section
/-!
DEFINITION. Reaching and changing the parts of the state: cores, warps, runs, launches, tenants, the free
choices. A write of a part that is absent changes nothing.
-/

namespace Sys2Proof.Machine

/-- A core. -/
def State.core (s : State) (c : Nat) : Core := s.cores.getD c Core.reset

/-- A core changed. -/
def State.modCore (s : State) (c : Nat) (f : Core → Core) : State := { s with cores := listChange s.cores c f }

/-- A tenant's registers. -/
def State.tenant (s : State) (t : Nat) : Tenant := s.tenants.getD t Tenant.reset

/-- A tenant's registers changed. -/
def State.modTenant (s : State) (t : Nat) (f : Tenant → Tenant) : State :=
  { s with tenants := listChange s.tenants t f }

/-- A die changed. -/
def State.modDie (s : State) (d : Nat) (f : Die → Die) : State := { s with dies := listChange s.dies d f }

/-- A die. -/
def State.die (s : State) (d : Nat) : Die := s.dies.getD d { tlb := [], sweeps := [], staged := [] }

/-- The device's registers changed. -/
def State.modDev (s : State) (f : Device → Device) : State := { s with dev := f s.dev }

/-- A launch, while it lasts. -/
def State.launch? (s : State) (l : Nat) : Option Launch := Dict.find s.launches l

/-- A launch changed. -/
def State.modLaunch (s : State) (l : Nat) (f : Launch → Launch) : State :=
  { s with launches := Dict.change s.launches l f }

/-- The warp of a core's slot or handler context. -/
def Core.warp? (c : Core) (slot : Nat) (hnd : Bool) : Option Warp :=
  if hnd then Dict.find c.hnds slot else Dict.find c.warps slot

/-- A warp, while it is resident. -/
def State.warp? (s : State) (w : WarpRef) : Option Warp := (s.core w.core).warp? w.slot w.hnd

/-- A core with a warp changed. -/
def Core.modWarp (c : Core) (slot : Nat) (hnd : Bool) (f : Warp → Warp) : Core :=
  if hnd then { c with hnds := Dict.change c.hnds slot f } else { c with warps := Dict.change c.warps slot f }

/-- A warp changed. -/
def State.modWarp (s : State) (w : WarpRef) (f : Warp → Warp) : State :=
  s.modCore w.core fun c => c.modWarp w.slot w.hnd f

/-- The run of a warp changed. -/
def State.modRun (s : State) (w : WarpRef) (f : Run → Run) : State :=
  s.modWarp w fun p => { p with run := p.run.map f }

/-- The warp that holds the main registers, the allocation and k1–k7 of a warp: for a trap-handler warp, the
warp it handles (R347). -/
def ownerRef (w : WarpRef) : WarpRef := { w with hnd := false }

/-- A bit the spec leaves open, and the state after it is drawn. -/
def State.drawBit (s : State) : Bool × State := (Config.freeBit s.oracle, { s with oracle := s.oracle + 1 })

/-- A number the spec leaves open, below `n` when `n` is positive. -/
def State.drawNat (s : State) (n : Nat) : Nat × State :=
  (Config.freeNat s.oracle % n, { s with oracle := s.oracle + 1 })

/-- One of several numbers, where the spec leaves open which: none where there is none. -/
def State.pick (s : State) (xs : List Nat) : Option Nat := xs[Config.freeNat s.oracle % xs.length]?

/-- The state after a free choice. -/
def State.drawn (s : State) : State := { s with oracle := s.oracle + 1 }

/-- A value the spec leaves open. -/
def State.drawWord (s : State) : Word × State := (Config.freeWord s.oracle, { s with oracle := s.oracle + 1 })

/-- Several values the spec leaves open. -/
def State.drawWords (s : State) : Nat → List Word × State
  | 0 => ([], s)
  | n + 1 => (s.drawWord.1 :: (s.drawWord.2.drawWords n).1, (s.drawWord.2.drawWords n).2)

/-- A fresh identifier of a core's requests and commands. -/
def State.freshId (s : State) (c : Nat) : Nat × State :=
  ((s.core c).nextId, s.modCore c fun k => { k with nextId := k.nextId + 1 })

/-- The launch of a warp. -/
def State.launchOf (s : State) (w : WarpRef) : Option Launch := (s.warp? w).bind fun p => s.launch? p.launch

/-- The launch without the stalled decisions of a warp (R337). -/
def Launch.forget (l : Launch) (w : WarpRef) : Launch :=
  { l with logQueue := l.logQueue.filter fun e => e.1 != some w }

/-- A launch's hold of a core. -/
def Launch.place? (l : Launch) (c : Nat) : Option Place := l.places.find? fun p => p.core == c

/-- A launch's hold of a core changed. -/
def Launch.modPlace (l : Launch) (c : Nat) (f : Place → Place) : Launch :=
  { l with places := l.places.map fun p => if p.core == c then f p else p }

/-- The key of a warp of a core: its slot, and 64 more for a trap-handler warp. -/
def sessionKey (w : WarpRef) : Nat := w.slot + (if w.hnd then 64 else 0)

/-- Whether a launch is suspended on a core (R359). -/
def State.suspended (s : State) (l core : Nat) : Bool := s.dev.saved.any fun x => x.launch == l && x.core == core

/-- Whether a core preempts a launch (R355). -/
def Core.preempting (k : Core) (l : Nat) : Bool := k.preempts.any fun x => x.launch == l

/-- The cluster of a core (R16). -/
def clusterOf (c : Nat) : Nat :=
  9 * (c / 36) + 3 * ((c % 36 / 6) / 2) + (c % 6) / 2

/-- The position of a core in its cluster (R16). -/
def positionOf (c : Nat) : Nat := 2 * ((c % 36 / 6) % 2) + (c % 6) % 2

/-- The core at a position of the cluster of a core (R16). -/
def coreAt (c pos : Nat) : Nat :=
  36 * (c / 36) + 6 * (2 * ((c % 36 / 6) / 2) + pos / 2) + 2 * ((c % 6) / 2) + pos % 2

/-- The core at a position of a cluster (R16). -/
def clusterCore (cl pos : Nat) : Nat := coreAt (36 * (cl / 9) + 12 * (cl % 9 / 3) + 2 * (cl % 3)) pos

/-- The die of a core (R16). -/
def dieOf (c : Nat) : Nat := c / 36

/-- The cores within a scope of a core, by the codes of R128: core, cluster, die; device and beyond. -/
def coresWithin (c scope : Nat) : List Nat :=
  (List.range 144).filter fun o =>
    match scope with
    | 0 | 1 | 2 => o == c
    | 3 => clusterOf o == clusterOf c
    | 4 => dieOf o == dieOf c
    | _ => true

/-- Whether some deposit on its way to a core of a cluster has not reached it (R144). -/
def State.depositsOut (s : State) (core : Nat) (mine : Deposit → Bool) : Bool :=
  (List.range 4).any fun i => (s.core (coreAt core i)).deposits.any fun d => !d.arrived && d.sender.1 == core && mine d

/-- Whether a deposit that the threads of a warp have sent, in it or in its trap handler, has not reached its target core: their
later sync events come after it (R199). -/
def State.depositOut (s : State) (w : WarpRef) : Bool := s.depositsOut w.core fun d => d.sender.2 % 64 == w.slot

/-- Whether a deposit that a launch's threads have sent from a core has not reached its target core: the held atomics of the core
come after it (R199, R333). -/
def State.launchDepositOut (s : State) (core l : Nat) : Bool := s.depositsOut core fun d => d.launch == l

/-- The lowest lane of a mask (R130). -/
def lowest (m : Mask) : Option Nat := lanes.find? fun j => m.getLsbD j

/-- The number of lanes of a mask. -/
def countLanes (m : Mask) : Nat := m.toList.length

/-- The number of slices that hold a lane of the mask (R12, R13). -/
def liveSlices (m : Mask) : Nat :=
  ((List.range 4).filter fun q => m.extractLsb' (8 * q) 8 != 0#8).length

/-- The local set value of lanes of a slot; the empty value for no lane (R210, R212). -/
def localValue (slot : Nat) (m : Mask) : Word :=
  if m == 0#32 then 0#64
  else BitVec.ofNat 64 (2 ^ 60 + (slot % 64) * 2 ^ 32) ||| m.setWidth 64

/-- The number of a trap code (R342). -/
def Code.num : Code → Nat
  | .illop => 1 | .illpkt => 2 | .runhaz => 3 | .regbnd => 4 | .setkind => 5 | .setovf => 6 | .engset => 7
  | .align => 8 | .ownvio => 9 | .spawndepth => 10 | .barmis => 11 | .claimdl => 12 | .wdog => 13
  | .xlate => 14 | .perm => 15 | .futempty => 16 | .logfull => 17 | .brk => 18 | .user => 19 | .rpldiv => 20
  | .poison => 21 | .peerflt => 22 | .featmis => 23 | .ptime => 24

/-- Whether a code never goes to a handler (R342). -/
def Code.never : Code → Bool
  | .rpldiv | .poison | .peerflt | .featmis | .ptime => true
  | _ => false

/-- The INFO field of an address: its bits 56:5 (R349). -/
def infoOf (a : Word) : Nat := (a.extractLsb' 5 52).toNat

end Sys2Proof.Machine
end

