-- ==== Sys2Proof/Machine/Ops.lean ====
section
/-!
DEFINITION. The named operations over memory, caches, translation and near space, and taking a trap (R112–R125,
R342–R352).
-/

namespace Sys2Proof.Machine

/-! ### Physical memory (R114, R369, R383) -/

/-- The cell a physical address names: the device's own node is local HBM (R369), and a block that RETIRE has
moved is its spare (R383). Spare blocks lie above every physical address. -/
def State.cell (s : State) (pa : Nat) : Nat :=
  let n := pa / 2 ^ 44 % 256
  let p := if n != 0 && n != 255 && n == s.dev.nodeid.toNat then pa % 2 ^ 44 else pa
  match s.dev.spares.find? fun e => e.1 == p / 4096 with
  | some e => 2 ^ 60 + e.2 * 4096 + p % 4096
  | none => p

/-- A byte at its home. -/
def State.readByte (s : State) (pa : Nat) : Byte := Memory.read s.mem (s.cell pa)

/-- A byte written at its home. -/
def State.writeByte (s : State) (pa : Nat) (v : Byte) : State := { s with mem := Memory.write s.mem (s.cell pa) v }

/-- Bytes at their homes, ascending. -/
def State.readBytes (s : State) (pa : Nat) : Nat → List Byte
  | 0 => []
  | n + 1 => s.readByte pa :: s.readBytes (pa + 1) n

/-- Bytes written at their homes, ascending. -/
def State.writeBytes (s : State) (pa : Nat) (bs : List Byte) : State :=
  match bs with
  | [] => s
  | b :: r => (s.writeByte pa b).writeBytes (pa + 1) r

/-- An 8-byte word at its home. -/
def State.readWord (s : State) (pa : Nat) : Word := BitVec.ofNat 64 (bytesToNat (s.readBytes pa 8))

/-- An 8-byte word written at its home. -/
def State.writeWord (s : State) (pa : Nat) (v : Word) : State := s.writeBytes pa (natToBytes v.toNat 8)

/-! ### Packets to other nodes (R369, R377, R378) -/

/-- Whether a physical address lies on another node of the fabric (R369). -/
def State.remotePa (s : State) (pa : Nat) : Bool :=
  let n := pa / 2 ^ 44 % 256
  n != 0 && n != 255 && n != s.dev.nodeid.toNat

/-- The node that a physical address names (R369). -/
def nodeOf (pa : Nat) : Nat := pa / 2 ^ 44 % 256

/-- Whether a port can send a flit: it is in service, and its replay window of 512 has room. -/
def Port.canSend (p : Port) : Bool := p.inService && p.window.length < 512

/-- A flit put on a link, and kept in the window. -/
def Port.put (p : Port) (v : BitVec 256) : Port :=
  { p with send := p.send + 1, window := p.window ++ [(p.send, v)], line := p.line ++ [(p.send, v, true)] }

/-- Waiting flits put on links that can take them, at most `n`; which port carries a flit is left open (log 65). -/
def State.pump (s : State) : Nat → State
  | 0 => s
  | n + 1 =>
    match s.dev.unsent, s.pick (((s.dev.ports.zipIdx).filter fun p => p.1.canSend).map (·.2)) with
    | v :: r, some i => (s.drawn.modDev fun d => { d with
        unsent := r, ports := listChange d.ports i fun p => p.put v }).pump n
    | _, _ => s

/-- A packet sent: its flit, whose payload the spec does not give, goes on a link (log 65). -/
def State.transmit (s : State) : State :=
  let s := s.drawn.modDev fun d => { d with unsent := d.unsent ++ [Config.freeFlit s.oracle] }
  s.pump s.dev.unsent.length

/-- A packet sent to another node with the next end-to-end number of the pair: the source keeps it until it is acknowledged
(R378). -/
def State.sendPacket (s : State) (node : Nat) : State :=
  let n := Tab.get 0 s.dev.e2eNext node
  (s.modDev fun d => { d with
    e2eNext := Tab.set 0 d.e2eNext node (n + 1), e2eSent := d.e2eSent ++ [(node, n)] }).transmit

/-- The distinct elements of a list. -/
def dedup (l : List Nat) : List Nat := l.foldl (fun a x => if a.contains x then a else a ++ [x]) []

/-- The packets of an access sent: one for each of its sectors that lies on another node. An access is performed by the act that
sends its packets, so that the packets of a pair are performed in the order of their numbers (R378; log 75). -/
def State.packets (s : State) (secs : List Nat) : State :=
  (secs.filter fun x => s.remotePa (32 * x)).foldl (fun s x => s.sendPacket (nodeOf (32 * x))) s

/-! ### The L1 (R115) -/

/-- Byte `i` of a sector's data. -/
def sectorByte (d : BitVec 256) (i : Nat) : Byte := d.extractLsb' (8 * i) 8

/-- The data of 32 bytes. -/
def sectorOf (bs : List Byte) : BitVec 256 := BitVec.ofNat 256 (bytesToNat bs)

/-- A sector's data with some bytes replaced: byte `i` by `f i` where `f` gives one. -/
def sectorWith (d : BitVec 256) (f : Nat → Option Byte) : BitVec 256 :=
  sectorOf ((List.range 32).map fun i => (f i).getD (sectorByte d i))

/-- The sector a load that allocates finds: filled from home, dirty bytes kept. -/
def State.filledSector (s : State) (c sec : Nat) : Sector :=
  match Dict.find (s.core c).l1 sec with
  | some x =>
    if x.filled then x
    else { x with
      data := sectorWith x.data fun i => if x.dirty.getLsbD i then none else some (s.readByte (32 * sec + i))
      filled := true }
  | none => { data := sectorOf (s.readBytes (32 * sec) 32), dirty := 0#32, filled := true }

/-- A sector of a core's L1 put in its place. -/
def State.setSector (s : State) (c sec : Nat) (x : Sector) : State :=
  s.modCore c fun k => { k with l1 := Dict.put k.l1 sec x }

/-- The dirty bytes of a sector of a core written to their homes. -/
def State.writeBack (s : State) (c sec : Nat) : State :=
  match Dict.find (s.core c).l1 sec with
  | some x =>
    let s := if x.dirty = 0#32 then s else s.packets [sec]
    ((List.range 32).foldl (fun s i => if x.dirty.getLsbD i then s.writeByte (32 * sec + i) (sectorByte x.data i) else s)
      s).setSector c sec { x with dirty := 0#32 }
  | none => s

/-- A sector dropped from a core's L1. -/
def State.dropSector (s : State) (c sec : Nat) : State :=
  s.modCore c fun k => { k with l1 := Tab.drop k.l1 sec }

/-- A sector written back and invalidated. -/
def State.flushSector (s : State) (c sec : Nat) : State := (s.writeBack c sec).dropSector c sec

/-- Every sector a core holds. -/
def State.l1Sectors (s : State) (c : Nat) : List Nat := (s.core c).l1.map (·.1)

/-- The state with room for one more sector in a core's L1: the 256 KiB hold 8,192, and where they are full one of them,
which the spec leaves open, is written back and evicted (R3, R115; log 35). -/
def State.roomInL1 (s : State) (c : Nat) : State :=
  if (s.core c).l1.length < 8192 then s
  else match s.pick (s.l1Sectors c) with
    | some v => (s.flushSector c v).drawn
    | none => s

/-- A sector of a core's L1 put, one evicted where it is new and the L1 full. -/
def State.putSector (s : State) (c sec : Nat) (x : Sector) : State :=
  if (Dict.find (s.core c).l1 sec).isSome then s.setSector c sec x else (s.roomInL1 c).setSector c sec x

/-- The sectors that hold a byte of a range. -/
def sectorsOf (pa n : Nat) : List Nat :=
  if n = 0 then [] else (List.range ((pa + n - 1) / 32 - pa / 32 + 1)).map (· + pa / 32)

/-- A byte as a core's L1 gives it without allocating: the cached byte where the core holds one. -/
def State.coreByte (s : State) (c pa : Nat) : Byte :=
  match Dict.find (s.core c).l1 (pa / 32) with
  | some x => if x.filled || x.dirty.getLsbD (pa % 32) then sectorByte x.data (pa % 32) else s.readByte pa
  | none => s.readByte pa

/-- Bytes as `coreByte` gives them, ascending. -/
def State.coreBytes (s : State) (c pa : Nat) : Nat → List Byte
  | 0 => []
  | n + 1 => s.coreByte c pa :: s.coreBytes c (pa + 1) n

/-- Whether a plain load of `n` bytes fills a sector it touches: where it misses, unless it carries `.na`; and one not filled of
which it hits dirty bytes and touches a clean one (R115). -/
def State.mustFill (s : State) (c pa n : Nat) (na : Bool) (sec : Nat) : Bool :=
  match Dict.find (s.core c).l1 sec with
  | none => !na
  | some x =>
    let touches (dirty : Bool) : Bool :=
      (List.range 32).any fun i => pa ≤ 32 * sec + i && 32 * sec + i < pa + n && x.dirty.getLsbD i == dirty
    !x.filled && touches false && (!na || touches true)

/-- The L1 after a plain load: a sector of which it reads a byte at home is filled, but for a miss with `.na`. -/
def State.loadFill (s : State) (c pa n : Nat) (na : Bool) : State :=
  (sectorsOf pa n).foldl
    (fun s sec =>
      let s := if s.mustFill c pa n false sec then s.packets [sec] else s
      if s.mustFill c pa n na sec then s.putSector c sec (s.filledSector c sec) else s) s

/-- One byte of a plain store (R115, R132): into the sector, marked dirty; with `.na`, into any hit sector, clean, and
through to the home, after the sector's dirty bytes, so that an earlier store is not split (R198). The bits outside the mask keep
what the core holds (R138). -/
def State.storeByte (s : State) (c : Nat) (na : Bool) (w : ByteWrite) : State :=
  let s := if na then s.writeBack c (w.pa / 32) else s
  let v := (w.val &&& w.mask) ||| (s.coreByte c w.pa &&& ~~~w.mask)
  let i := w.pa % 32
  match Dict.find (s.core c).l1 (w.pa / 32) with
  | some x =>
    let x' := { x with data := sectorWith x.data fun j => if j = i then some v else none }
    if na then (s.putSector c (w.pa / 32) x').writeByte w.pa v
    else s.putSector c (w.pa / 32) { x' with dirty := x.dirty ||| BitVec.ofNat 32 (2 ^ i) }
  | none =>
    if na then s.writeByte w.pa v
    else s.putSector c (w.pa / 32)
      { data := sectorWith 0#256 fun j => if j = i then some v else none,
        dirty := BitVec.ofNat 32 (2 ^ i), filled := false }

/-- A byte as its home will hold it once a core's dirty bytes are written back (R116). -/
def State.flushedByte (s : State) (c pa : Nat) : Byte :=
  match Dict.find (s.core c).l1 (pa / 32) with
  | some x => if x.dirty.getLsbD (pa % 32) then sectorByte x.data (pa % 32) else s.readByte pa
  | none => s.readByte pa

/-- An 8-byte word as `flushedByte` gives its bytes. -/
def State.flushedWord (s : State) (c pa : Nat) : Word :=
  BitVec.ofNat 64 (bytesToNat ((List.range 8).map fun i => s.flushedByte c (pa + i)))

/-- A plain store's bytes in order. -/
def State.storeBytes (s : State) (c : Nat) (na : Bool) (ws : List ByteWrite) : State :=
  ws.foldl (fun s w => s.storeByte c na w) (if na then s.packets (dedup (ws.map fun w => w.pa / 32)) else s)

/-- A core's L1 written back whole. -/
def State.writeBackAll (s : State) (c : Nat) : State := (s.l1Sectors c).foldl (fun s k => s.writeBack c k) s

/-- A core's L1 written back and invalidated whole (R150). -/
def State.flushAll (s : State) (c : Nat) : State := (s.l1Sectors c).foldl (fun s k => s.flushSector c k) s

/-! ### Translation (R113, R118–R123) -/

/-- The table levels: shift and number of index bits of the address, and the alignment of the table. -/
def levelShift : Nat → Nat
  | 3 => 44 | 2 => 30 | 1 => 21 | _ => 16

def levelBits : Nat → Nat
  | 3 => 13 | 2 => 14 | 1 => 9 | _ => 5

def tableAlign : Nat → Nat
  | 3 => 2 ^ 16 | 2 => 2 ^ 17 | 1 => 2 ^ 12 | _ => 2 ^ 8

/-- A field of a table entry. -/
def bitsOf (w : Word) (hi lo : Nat) : Nat := (w.extractLsb' lo (hi - lo + 1)).toNat

/-- Whether a frame lies inside a tenant's memory window (R119, R373). -/
def Tenant.inWindow (t : Tenant) (win pa size : Nat) : Bool :=
  let base := bitsOf (t.winbase.getD win 0#64) 51 21 * 2 ^ 21
  let lim := bitsOf (t.winlim.getD win 0#64) 51 21 * 2 ^ 21
  base ≤ pa && pa + size ≤ lim

/-- Whether an entry's bits break R120, for an entry of a level. -/
def entryBad (e : Word) (level : Nat) : Bool :=
  let leaf := e.getLsbD 5
  let pa := bitsOf e 51 8 * 256
  bitsOf e 55 52 != 0 || bitsOf e 7 6 != 0 || e.getLsbD 1
    || (level == 0 && !leaf) || (level == 3 && leaf)
    || (if leaf then pa % 2 ^ levelShift level != 0
        else pa % tableAlign (level - 1) != 0 || bitsOf e 63 56 != 0 || bitsOf e 4 2 != 0)

/-- The local form of a physical address: the device's own node is local HBM (R369). -/
def State.localPa (s : State) (pa : Nat) : Nat :=
  if pa / 2 ^ 44 % 256 != 0 && pa / 2 ^ 44 % 256 != 255 && pa / 2 ^ 44 % 256 == s.dev.nodeid.toNat then pa % 2 ^ 44
  else pa

/-- One entry of a walk (R119, R120): the leaf it holds, the table it points to, or the code of its failure. -/
def State.walkEntry (s : State) (t va table level : Nat) : Except Code (Page ⊕ Nat) :=
  let e := s.readWord (table + 8 * (va / 2 ^ levelShift level % 2 ^ levelBits level))
  if !e.getLsbD 0 then .error .xlate
  else if entryBad e level then .error .perm
  else if e.getLsbD 5 then
    let size := 2 ^ levelShift level
    let pa := bitsOf e 51 8 * 256
    if !(s.tenant t).inWindow (bitsOf e 63 60) pa size then .error .perm
    else if s.localPa pa / 2 ^ 44 == 0 && 768 * 2 ^ 30 < s.localPa pa + size then .error .perm
    else .ok (.inl
      { va := va / size * size, size := size, pa := s.localPa pa,
        r := e.getLsbD 2, w := e.getLsbD 3, x := e.getLsbD 4,
        fmt := s.readWord (bitsOf (s.tenant t).fmtab 51 7 * 128 + 8 * bitsOf e 59 56) })
  else .ok (.inr (bitsOf e 51 8 * 256))

/-- The walk of a tenant's tables from a level down (R118). -/
def State.walkFrom (s : State) (t va table : Nat) : Nat → Except Code Page
  | 0 =>
    match s.walkEntry t va table 0 with
    | .error e => .error e
    | .ok (.inl p) => .ok p
    | .ok (.inr _) => .error .perm
  | n + 1 =>
    match s.walkEntry t va table (n + 1) with
    | .error e => .error e
    | .ok (.inl p) => .ok p
    | .ok (.inr next) => s.walkFrom t va next n

/-- A walk from the tenant's root (R118, R373). -/
def State.walk (s : State) (t : Nat) (va : Nat) : Except Code Page :=
  let r := (s.tenant t).troot
  if !r.getLsbD 0 then .error .xlate else s.walkFrom t va (bitsOf r 51 16 * 2 ^ 16) 3

/-- Whether a page permits an access (R120). -/
def Page.permits (p : Page) : Access → Bool
  | .read => p.r
  | .write => p.w
  | .modify => p.r && p.w
  | .fetch => p.x

/-- The kind of an access in a fault record (R375). -/
def Access.kind : Access → Nat
  | .read => 0
  | .write | .modify => 1
  | .fetch => 2

/-- The page of a cached translation that covers an address. -/
def tlbFind (tlb : List (Nat × Page)) (t va : Nat) : Option Page :=
  (tlb.find? fun e => e.1 == t && e.2.va ≤ va && va < e.2.va + e.2.size).map (·.2)

/-- A translation cached, the oldest giving way in a full table (R121). -/
def tlbInsert (tlb : List (Nat × Page)) (cap t : Nat) (p : Page) : List (Nat × Page) :=
  if tlb.any fun e => e.1 == t && e.2 == p then tlb
  else (tlb ++ [(t, p)]).drop (tlb.length + 1 - cap)

/-- The translation of an address by a core of a tenant (R121, R123): where a cached translation and the walk
differ, the access may use either (log 5). -/
def State.pageOf (s : State) (c t va : Nat) : Except Code Page × State :=
  let w := s.walk t va
  let cached := (tlbFind (s.core c).tlb t va) <|> (tlbFind (s.die (dieOf c)).tlb t va)
  let keep (p : Page) (s : State) : State :=
    (s.modCore c fun k => { k with tlb := tlbInsert k.tlb 2048 t p }).modDie (dieOf c) fun d =>
      { d with tlb := tlbInsert d.tlb 65536 t p }
  match cached, w with
  | none, .ok p => (.ok p, keep p s)
  | none, .error e => (.error e, s)
  | some p, .ok q =>
    if p = q then (.ok p, s)
    else match s.drawBit with
      | (true, s) => (.ok p, s)
      | (false, s) => (.ok q, keep q s)
  | some p, .error e =>
    match s.drawBit with
    | (true, s) => (.ok p, s)
    | (false, s) => (.error e, s)

/-- An address translated for an access, with the checks of R113, R120 and R379. -/
def State.translate (s : State) (c t : Nat) (va : Word) (acc : Access) : Except Code Page × State :=
  if bitsOf va 63 57 != 0 then (.error .perm, s)
  else
    match s.pageOf c t va.toNat with
    | (.error e, s) => (.error e, s)
    | (.ok p, s) =>
      if !p.permits acc || (s.remotePa p.pa && !s.dev.devcap0.getLsbD 8) then (.error .perm, s)
      else (.ok p, s)

/-- The physical address of a virtual one in its page. -/
def Page.phys (p : Page) (va : Nat) : Nat := p.pa + (va - p.va)

/-- An engine's or the device's own access (R315, R345): the walk as it stands, no cached translation. -/
def State.translateHome (s : State) (t : Nat) (va : Word) (acc : Access) : Except Code Nat :=
  if bitsOf va 63 57 != 0 then .error .perm
  else match s.walk t va.toNat with
    | .error e => .error e
    | .ok p => if p.permits acc && (!s.remotePa p.pa || s.dev.devcap0.getLsbD 8) then .ok (p.phys va.toNat) else .error .perm

/-- The format of a format entry (R108). -/
def fmtOf (e : Word) : PageFmt where
  efmt := EFmt.ofCode (e.extractLsb' 0 4)
  mx := bitsOf e 7 6 == 1
  soff := (e.extractLsb' 8 40).toInt

/-- Whether an entry is one through which R109 permits no formatted access and no plain write. -/
def fmtBad (e : Word) : Bool :=
  bitsOf e 63 48 != 0 || bitsOf e 5 4 != 0 || bitsOf e 7 6 ≥ 2
    || (bitsOf e 7 6 == 1 && !(5 ≤ bitsOf e 3 0 && bitsOf e 3 0 ≤ 8))

/-! ### Near space (R125–R127, R252, R253) -/

/-- The core a near address names, for an issuing core. -/
def nearCore (c : Nat) (a : Word) : Nat := if bitsOf a 31 24 == 255 then c else bitsOf a 31 24

/-- The offset a near address names. -/
def nearOff (a : Word) : Nat := bitsOf a 18 0

/-- The PERM checks of R125 for `n` bytes: an access of no byte covers none beyond the region (R280, R282). -/
def Launch.nearOk (l : Launch) (c : Nat) (a : Word) (n : Nat) : Bool :=
  bitsOf a 63 32 == 0 && bitsOf a 23 19 == 0 && (nearCore c a) < 144
    && (l.place? (nearCore c a)).isSome && (n == 0 || nearOff a + n ≤ l.card.near)

/-- The sum of the lengths of the first shadow regions of a list. -/
def shadowSum (rs : List (Nat × Nat)) : Nat → Nat
  | 0 => 0
  | n + 1 => match rs with
    | [] => 0
    | r :: rest => r.2 + shadowSum rest n

/-- The shadow region an offset lies in: its number, start and length (R253). -/
def shadowAt (rs : List (Nat × Nat)) (off : Nat) : Option (Nat × Nat × Nat) :=
  ((rs.zipIdx).find? fun e => e.1.1 ≤ off && off < e.1.1 + e.1.2).map fun e => (e.2, e.1.1, e.1.2)

/-- The byte of the slice an offset of a launch's region names, in the half that `hidden` selects (R253): the
second halves stand behind the region, in the order of the declarations. -/
def Launch.sliceOff (l : Launch) (p : Place) (off : Nat) (hidden : Bool) : Nat :=
  match shadowAt l.card.shadows off with
  | none => p.base + off
  | some (i, start, _) =>
    if (p.halves.getD i false) != hidden then
      p.base + l.card.near + shadowSum l.card.shadows i + (off - start)
    else p.base + off

/-- A byte of a launch's near region on a core, in the visible or the hidden half. -/
def State.nearByte (s : State) (l : Launch) (c off : Nat) (hidden : Bool) : Byte :=
  match l.place? c with
  | none => Memory.unlisted
  | some p => Memory.read (s.core c).near (l.sliceOff p off hidden)

/-- Bytes of a near region, ascending. -/
def State.nearBytes (s : State) (l : Launch) (c off : Nat) (hidden : Bool) : Nat → List Byte
  | 0 => []
  | n + 1 => s.nearByte l c off hidden :: s.nearBytes l c (off + 1) hidden n

/-- A byte of a near region written. -/
def State.nearWrite (s : State) (l : Launch) (c off : Nat) (hidden : Bool) (v : Byte) : State :=
  match l.place? c with
  | none => s
  | some p => s.modCore c fun k => { k with near := Memory.write k.near (l.sliceOff p off hidden) v }

/-- Bytes of a near region written, ascending. -/
def State.nearWrites (s : State) (l : Launch) (c off : Nat) (hidden : Bool) (bs : List Byte) : State :=
  match bs with
  | [] => s
  | b :: r => (s.nearWrite l c off hidden b).nearWrites l c (off + 1) hidden r

/-- The format tag of a near line: EFMT code, and 16 for MX32 (R252). -/
def State.lineTag (s : State) (l : Launch) (c off : Nat) (hidden : Bool) : Nat :=
  match l.place? c with
  | none => 0
  | some p => Tab.get 0 (s.core c).lineFmt (l.sliceOff p off hidden / 32)

/-- The tags of the lines of a written range. -/
def State.setTags (s : State) (l : Launch) (c off n : Nat) (hidden : Bool) (tag : Nat) : State :=
  match l.place? c with
  | none => s
  | some p =>
    (sectorsOf off n).foldl
      (fun s line => s.modCore c fun k =>
        { k with lineFmt := Tab.set 0 k.lineFmt (l.sliceOff p (max off (32 * line)) hidden / 32) tag }) s

/-! ### Fault records (R155, R375) -/

/-- A record written to a tenant's fault queue, or discarded (R375). -/
def State.faultRecord (s : State) (t : Nat) (addr : Word) (core : Nat) (cause : Code) (kind card : Nat) : State :=
  let r := s.tenant t
  let seq := r.seq
  let s := s.modTenant t fun r => { r with seq := r.seq + 1 }
  let log := bitsOf r.fqctl 3 0
  if !r.fqctl.getLsbD 12 || bitsOf (r.fqtail - r.fqhead) 31 0 == 2 ^ log then
    s.modTenant t fun r => { r with fqctl := r.fqctl ||| 0x100#64 }
  else
    let at_ := bitsOf r.fqbase 51 5 * 32 + 32 * (r.fqtail.toNat % 2 ^ log)
    let w1 := BitVec.ofNat 64 (core * 2 ^ 56 + cause.num * 2 ^ 48 + kind * 2 ^ 46)
    let s := (((s.writeWord at_ addr).writeWord (at_ + 8) w1).writeWord (at_ + 16)
      (BitVec.ofNat 64 card)).writeWord (at_ + 24) seq
    let s := s.modTenant t fun r => { r with fqtail := BitVec.ofNat 64 ((r.fqtail.toNat + 1) % 2 ^ 32) }
    if r.fqtail == r.fqhead then s.modDev fun d => { d with vectors := d.vectors ++ [(t + 1, 0)] } else s

/-- An XLATE record, merged with an unresolved one of its die, page and kind (R155). A record that R375 discards counts as
unresolved too, and the records of card reads, whose CORE is 255, merge among themselves as if of one die more (DESIGN
CHOICE, log 18). -/
def State.xlateRecord (s : State) (t : Nat) (addr : Word) (core kind card : Nat) : State :=
  let key := (dieOf core, addr.toNat / 65536, kind)
  if (s.tenant t).unresolved.contains key then s
  else (s.faultRecord t addr core .xlate kind card).modTenant t fun r =>
    { r with unresolved := r.unresolved ++ [key] }

/-! ### Ending a launch and taking a trap (R27, R342–R348, R363) -/

/-- A shared read of a slice that from now on answers only the loops that its cluster's cores have received already; where a
command of one of them, received as a number, is the writer, of that core only those received before it (R205, R259, R264). -/
def State.closeRead (s : State) (writer : Option (Nat × Nat)) (x : SliceRead) : SliceRead :=
  let next := (List.range 4).map fun i =>
    let c := clusterCore x.cluster i
    match writer with
    | some (w, id) => if w == c then id else (s.core c).nextId
    | none => (s.core c).nextId
  { x with closed := some (match x.closed with | some old => List.zipWith min old next | none => next) }

/-- The launch's end under R27: its first cause stands, and its near region on the core freezes (R363): no loop received later is
answered with what the slice had read for it before (R366). -/
def State.endLaunch (s : State) (l : Nat) (c : Nat) (cause : Cause) : State :=
  (s.modLaunch l fun x =>
    { x with cause := x.cause <|> some cause,
             places := x.places.map fun p => if p.core == c then { p with frozen := true } else p }).modCore c fun k =>
    { k with reads := k.reads.map fun x => if x.launch == l then s.closeRead none x else x }

/-- The bits that TRAPPC holds of an address (R349). -/
def trapAddr (a : Word) : Word := a &&& 0x01FFFFFFFFFFFFF0#64

/-- The run in progress discarded (R60): nothing of it remains but its packets, from which it restarts at step 1 of R51
with no new fetch (R74, R81; log 6), and what it reserved is free again. -/
def Warp.discard (p : Warp) : Warp :=
  { p with run := none, claim := none, later := none, queued := [], since := none, stands := none
           fetched := match p.run with | some r => some r.src | none => p.fetched }

/-- The default fate of a trap (R342). -/
def State.defaultFate (s : State) (w : WarpRef) (p : Warp) (t : Trap) : State :=
  match t.code with
  | .xlate =>
    s.modWarp w fun p => { p with wait := .fault (t.info / 2048) t.kind, sched := .pending, readyAt := none }
  | .futempty =>
    s.modWarp w fun p =>
      { p with sched := .pending, readyAt := some (s.core w.core).cyc.toNat, wdog := 0 }
  | .brk | .logfull => s
  | code => s.endLaunch p.launch w.core { code := code, detail := p.logical }

/-- The handler entry of a trap code in a launch's vector table (R345): none for no handler; an error for a
table word that ends the launch. -/
def State.vector (s : State) (l : Launch) (c : Code) : Except Unit (Option Word) :=
  if l.card.tvt == 0#64 then .ok none
  else
    match s.translateHome l.tenant (l.card.tvt + BitVec.ofNat 64 (8 * c.num)) .read with
    | .error _ => .error ()
    | .ok pa =>
      let e := s.readWord pa
      if bitsOf e 63 57 != 0 || bitsOf e 3 0 != 0 then .error ()
      else .ok (if e == 0#64 then none else some e)

/-- TAKING A TRAP in a warp (R343, R346, R348): the run is discarded; an XLATE sends its record; then the
default fate, or the warp leaves the active set and waits for its handler. -/
def State.takeTrap (s : State) (w : WarpRef) (t : Trap) : State :=
  match s.warp? w with
  | none => s
  | some p =>
    match s.launch? p.launch with
    | none => s
    | some l =>
      let s := (s.modWarp w Warp.discard).modLaunch p.launch fun x => x.forget w
      let s := if t.code = .xlate then
          s.xlateRecord l.tenant t.addr w.core t.kind l.card.addr
        else s
      if w.hnd then
        if t.code = .xlate then s.defaultFate w p t
        else s.endLaunch p.launch w.core { code := t.code, detail := p.logical }
      else if t.code.never then s.defaultFate w p t
      else
        match s.vector l t.code with
        | .error _ => s.endLaunch p.launch w.core { code := t.code, detail := p.logical }
        | .ok none => s.defaultFate w p t
        | .ok (some e) =>
          s.modWarp w fun p => { p with sched := .pending, readyAt := none, wait := .handler t e }

/-- The trap whose handler a warp waits for, and the handler's entry: that of LOGFULL comes first (R341, R346). -/
def Warp.handlerDue (p : Warp) : Option (Trap × Word) :=
  p.due <|> (match p.wait with | .handler t e => some (t, e) | _ => none)

/-- Whether a warp's commit is in progress. -/
def Warp.inCommit (p : Warp) : Bool :=
  match p.run with
  | some r => r.commit.isSome
  | none => false

/-- Whether a run has performed a part of its commit. -/
def Warp.committing (p : Warp) : Bool :=
  match p.run with
  | some r => match r.commit with | some (_, _, n) => 0 < n | none => false
  | none => false

/-- What step 4 of a commit raises once the commit has ended (log 67), before a `trap` or `brk` of the run (R353). -/
def Run.soften (c : Code) (r : Run) : Run :=
  match r.soft with
  | some (_, 25, _) => r
  | _ => { r with soft := some (c, 25, 0) }

/-- PEERFLT of a warp (R363): after a commit that has begun its effects, else at once. -/
def State.peerFault (s : State) (w : WarpRef) : State :=
  match s.warp? w with
  | none => s
  | some p =>
    if p.committing then s.modRun w (Run.soften .peerflt)
    else s.takeTrap w { code := .peerflt, pos := 25, info := 0, lanes := none, kind := 0 }

/-- Whether a warp that returns from a trap still waits for its record's resolution (R352): not where software changed
ADDR, nor where the record was resolved while the handler was due or ran. -/
def Trap.blocks (t : Trap) (changed : Bool) : Bool := t.code = .xlate && !changed && !t.resolved

/-- The return from a trap (R352): the warp restarts at an address, its watchdog at zero. With `yielded`, it is
pending and ready from this commit; else it takes the handler's place in the active set. One that has stopped for a preemption
stays so, and is pending and ready once it is resumed (R355, R360). -/
def State.returnFrom (s : State) (w : WarpRef) (t : Trap) (at_ : Word) (changed yielded wasActive : Bool) : State :=
  s.modWarp w fun p =>
    { p with pc := at_
             wdog := 0
             fetched := if at_ = p.pc && !p.stop then p.fetched else none
             wait := if t.blocks changed then .fault (t.info / 2048) t.kind else .none
             sched := if p.stop then p.sched else if yielded || !wasActive || t.blocks changed then .pending else .active
             readyAt := if yielded && !p.stop then some (s.core w.core).cyc.toNat else none
             lastIssue := (s.core w.core).cyc.toNat }

end Sys2Proof.Machine
end

