-- ==== Sys2Proof/Machine/Log.lean ====
section
/-!
DEFINITION. Record and replay (R332, R336–R338, R340, R341): whether a decision may be made now.
-/

namespace Sys2Proof.Machine

/-- The MODE of a launch's DETMODE: 0 none, 1 record, 2 replay (R332). -/
def Launch.mode (l : Launch) : Nat := bitsOf l.det 2 1

/-- Whether a launch is in deterministic mode (R332). -/
def Launch.isDet (l : Launch) : Bool := l.det.getLsbD 0

/-- The base of the current log segment, and its size in bytes (R332). -/
def Launch.segBase (l : Launch) : Word := BitVec.ofNat 64 (bitsOf l.det 56 12 * 4096)

def Launch.segSize (l : Launch) : Nat := 4096 * 2 ^ bitsOf l.det 11 8

/-- Whether a launch has a live warp, resident or saved with the launch (R359). -/
def State.hasWarp (s : State) (l : Nat) : Bool :=
  (s.cores.any fun c => c.warps.any (fun e => e.2.launch == l) || c.hnds.any fun e => e.2.launch == l)
    || s.dev.saved.any fun x => x.launch == l && (x.warps != [] || x.hnds != [])

/-- LOGFULL (R337): at most one outstanding a launch. It runs the handler of the warp whose instruction caused
the decision, which keeps its place (R341, R346) and whose header and live lanes it names, even where the held commit ends
before the handler is created; a launch with no warp ends. It is not raised while a handler of that warp is due or live. -/
def State.logFull (s : State) (l : Nat) (w : Option WarpRef) : State :=
  match s.launch? l with
  | none => s
  | some x =>
    if x.logWait then s
    else
      match w with
      | none =>
        let s := s.modLaunch l fun x => { x with logWait := true }
        if s.hasWarp l then s
        else s.modLaunch l fun x => { x with cause := x.cause <|> some { code := .logfull, detail := 0 } }
      | some w =>
        match s.warp? w with
        | none => s
        | some p =>
          if p.handlerDue.isSome then s
          else
            let s := s.modLaunch l fun x => { x with logWait := true }
            if w.hnd then s.endLaunch l w.core { code := .logfull, detail := p.logical }
            else match s.vector x .logfull with
              | .error _ => s.endLaunch l w.core { code := .logfull, detail := p.logical }
              | .ok none => s
              | .ok (some e) =>
                s.modWarp w fun p =>
                  let t : Trap :=
                    { code := .logfull, pos := 25, info := 0, lanes := some p.live, kind := 0, addr := p.pc }
                  { p with due := some (t, e) }

/-- The two words of the record at an offset of the current segment; zero where the log cannot be read. -/
def State.logRecord (s : State) (x : Launch) (off : Nat) : Word × Word :=
  match s.translateHome x.tenant (x.segBase + BitVec.ofNat 64 off) .read with
  | .error _ => (0#64, 0#64)
  | .ok pa => (s.readWord pa, s.readWord (pa + 8))

/-- KIND of a record. -/
def recordKind (r : Word × Word) : Nat := bitsOf r.1 63 60

/-- The records of the current segment from one of them up to the last, at most a number of them: offset in the log, words. -/
def State.recordsFrom (s : State) (x : Launch) (i : Nat) : Nat → List (Nat × Word × Word)
  | 0 => []
  | n + 1 =>
    let r := s.logRecord x (16 * i)
    if recordKind r = 0 then [] else (x.logBase + 16 * i, r) :: s.recordsFrom x (i + 1) n

/-- The records of the current segment, up to the last (R340). -/
def State.segRecords (s : State) (x : Launch) : List (Nat × Word × Word) := s.recordsFrom x 0 (x.segSize / 16)

/-- The records of the log that a replay has been supplied with and has not consumed, in order. -/
def State.unconsumed (s : State) (x : Launch) : List (Nat × Word × Word) :=
  (x.carry ++ s.segRecords x).filter fun r => !x.consumed.contains r.1

/-- Word 0 of a record. -/
def recordWord (kind : Nat) (obj : Word) : Word :=
  BitVec.ofNat 64 (kind * 2 ^ 60) ||| (obj &&& 0x01FFFFFFFFFFFFFF#64)

/-- The name of a thread in word 1: lane and logical warp; `th` is 32·logical + lane. -/
def recordThread (th low : Nat) : Word :=
  BitVec.ofNat 64 ((th % 32) * 2 ^ 59 + (th / 32 % 2 ^ 27) * 2 ^ 32 + low % 2 ^ 32)

/-- RPLDIV: the launch ends, and STATUS names the first unmatched record (R338, R340); its near region on the core of the warp
that raises it freezes (R363). -/
def State.diverge (s : State) (l : Nat) (w : Option WarpRef) (x : Launch) : State :=
  let first := match s.unconsumed x with
    | r :: _ => r.1
    | [] => x.logBase + 16 * (s.segRecords x).length
  s.endLaunch l ((w.map (·.core)).getD 144) { code := .rpldiv, detail := first }

/-- DETMODE written (R332): the new segment starts at its first byte; what a replay has not consumed of the old one stays in
the log (R340), and the stalled decisions resume (R337). -/
def State.writeDetmode (s : State) (l : Nat) (v : Word) : State :=
  match s.launch? l with
  | none => s
  | some x =>
    let old := if x.mode = 2 then 16 * (s.segRecords x).length else x.logPos
    s.modLaunch l fun y =>
      { y with det := (v &&& 0x01FFFFFFFFFFFF00#64) ||| (x.det &&& 7#64)
               logBase := x.logBase + old, logPos := 0, logWait := false, detNext := none
               carry := if x.mode = 2 then s.unconsumed x else []
               consumed := []
               logQueue := if x.mode = 2 then [] else x.logQueue }

/-- What becomes of a decision: it is made, it waits, or LOGFULL or RPLDIV is raised for it. -/
inductive Decided where
  | made (s : State)
  | wait
  | raised (s : State)

/-- Whether a stalled decision that no warp's instruction causes still stands: its card is queued, or its subscription's
page list is still to be read. -/
def State.stillDue (s : State) (l : Nat) (word : Word) : Bool :=
  match bitsOf word 63 60 with
  | 3 => s.dev.queue.any fun q => q.launch == some l
  | 4 => s.dies.any fun d => d.sweeps.any fun x => x.launch == l && x.toRead != []
  | _ => true

/-- Whether a decision stands first among the stalled ones of its launch (R337). -/
def State.headOfLog (s : State) (l : Nat) (x : Launch) (key : Option WarpRef × Word × Nat) : Bool :=
  match x.logQueue.filter fun e => e.1.isSome || s.stillDue l e.2.1 with
  | [] => true
  | e :: _ => e == key

/-- A decision put among the stalled ones of its launch. -/
def State.queueForLog (s : State) (l : Nat) (key : Option WarpRef × Word × Nat) : State :=
  s.modLaunch l fun x => if x.logQueue.contains key then x else { x with logQueue := x.logQueue ++ [key] }

/-- A decision that stalls for a record (R337): it waits in its place, and the first raises LOGFULL. A launch without a live
warp ends. -/
def State.stallForLog (s : State) (l : Nat) (x : Launch) (w : Option WarpRef) (key : Option WarpRef × Word × Nat) : Decided :=
  let busy := match w.bind s.warp? with
    | some p => p.handlerDue.isSome
    | none => false
  if x.logWait && w.isNone && !s.hasWarp l then
    if x.cause.isSome then .wait
    else .raised (s.modLaunch l fun x => { x with cause := some { code := .logfull, detail := 0 } })
  else if x.logWait || busy || !s.headOfLog l x key then
    if x.logQueue.contains key then .wait else .raised (s.queueForLog l key)
  else .raised ((s.queueForLog l key).logFull l w)

/-- A decision that matches no later record (R338): RPLDIV, unless the launch already ends. -/
def State.divergeFor (s : State) (l : Nat) (w : Option WarpRef) (x : Launch) : Decided :=
  if x.cause.isSome then .wait else .raised (s.diverge l w x)

/-- Whether a decision of a launch may be made now, and the state after it: its record appended or consumed
(R336–R338). `w` is the warp whose instruction causes it. -/
def State.decide (s : State) (l : Nat) (w : Option WarpRef) (kind : Nat) (obj word1 : Word) : Decided :=
  match s.launch? l with
  | none => .made s
  | some x =>
    let word := recordWord kind obj
    let key := (w, word, bitsOf word1 63 32)
    let go (y : Launch) : Launch := { y with logQueue := y.logQueue.filter (· != key) }
    match x.mode with
    | 1 =>
      if x.logWait || !s.headOfLog l x key || x.segSize < x.logPos + 16 then s.stallForLog l x w key
      else
        let s := match s.translateHome x.tenant (x.segBase + BitVec.ofNat 64 x.logPos) .write with
          | .error _ => s
          | .ok pa => (s.writeWord pa word).writeWord (pa + 8) word1
        .made (s.modLaunch l fun x => go { x with logPos := x.logPos + 16 })
    | 2 =>
      let free := s.unconsumed x
      match free.find? fun r => r.2.1 == word with
      | some r =>
        if r.2.2 == word1 then
          .made (s.modLaunch l fun x => go { x with consumed := x.consumed ++ [r.1] })
        else if free.any fun r => r.2 == (word, word1) then .wait
        else if free.any fun r => recordKind r.2 == 15 then s.divergeFor l w x
        else s.stallForLog l x w key
      | none =>
        if free.any fun r => recordKind r.2 == 15 then s.divergeFor l w x
        else s.stallForLog l x w key
    | _ => .made s

/-- The decision of a sync access by a thread at a unit (R336, kind 1). -/
def State.decideSync (s : State) (l : Nat) (w : Option WarpRef) (th va : Nat) : Decided :=
  match s.launch? l with
  | none => .made s
  | some x =>
    let ord := (x.records.filter fun e => e == (th % 2 ^ 32, va)).length
    match s.decide l w 1 (BitVec.ofNat 64 va) (recordThread th ord) with
    | .made s =>
      .made (if x.mode = 1 || x.mode = 2 then s.modLaunch l fun x => { x with records := x.records ++ [(th % 2 ^ 32, va)] } else s)
    | r => r

/-- Several decisions of one act, in order: all made, or none. `key` is that of the first. -/
def State.decideEach (s : State) (l : Nat) (w : Option WarpRef) (key : Option WarpRef × Word × Nat)
    (ds : List (State → Decided)) : Decided :=
  match s.launch? l with
  | none => .made s
  | some x =>
    if ds.length = 0 then .made s
    else if x.mode = 1 && (x.logWait || !s.headOfLog l x key || x.segSize < x.logPos + 16 * ds.length) then
      s.stallForLog l x w key
    else
      let queue (q : List (Option WarpRef × Word × Nat)) (s : State) : State :=
        s.modLaunch l fun y => if x.mode = 1 then { y with logQueue := q } else y
      match ds.foldl (fun r f => match r with | .made s => f s | r => r) (Decided.made (queue [] s)) with
      | .made s => .made (queue (x.logQueue.filter (· != key)) s)
      | .raised s => .raised (s.modLaunch l fun y => { y with consumed := x.consumed, records := x.records })
      | .wait => .wait

/-- The decisions of a list of threads at their units, in order (R336): all made, or none. -/
def State.decideAll (s : State) (l : Nat) (w : WarpRef) (ts : List (Nat × Nat)) : Decided :=
  let first := ts.head?.getD (0, 0)
  s.decideEach l (some w) (some w, recordWord 1 (BitVec.ofNat 64 first.2), bitsOf (recordThread first.1 0) 63 32)
    (ts.map fun e s => s.decideSync l (some w) e.1 e.2)

end Sys2Proof.Machine
end

