-- ==== Sys2Proof/Machine/Operands.lean ====
section
/-!
DEFINITION. Operands (R15, R47, R52, R216), the issue of an instruction of a run, and the lookahead rule (R64).
-/

namespace Sys2Proof.Machine

/-- What a meaning sees: the warp in focus, its run, its launch, and the warp that owns its registers. -/
structure Ctx where
  w   : WarpRef
  p   : Warp
  r   : Run
  l   : Launch
  own : Warp

/-- What the issue of an instruction comes to: it issues and leaves a run; it traps; or it cannot issue now and
stalls inside the run (R32). -/
inductive Issue where
  | go (s : State) (r : Run)
  | trap (s : State) (t : Trap)
  | stall
  /-- It cannot issue, and something was raised for it (R337). -/
  | raised (s : State)

/-- The context of a warp. -/
def State.ctx? (s : State) (w : WarpRef) : Option Ctx :=
  match s.warp? w with
  | none => none
  | some p =>
    match p.run, s.launch? p.launch, s.warp? (ownerRef w) with
    | some r, some l, some o => some { w := w, p := p, r := r, l := l, own := o }
    | _, _, _ => none

/-- A trap of the instruction that issues. -/
def Ctx.trap (c : Ctx) (code : Code) (info : Nat := 0) : Trap :=
  { code := code, pos := c.r.pos, info := info, lanes := none, kind := 0 }

/-- The value of a set register as the run sees it (R53): k0 is the warp's own, k1–k7 the owner's (R347). -/
def Ctx.kval (c : Ctx) (k : Nat) : Word :=
  match Dict.find c.r.sets k with
  | some v => v
  | none => Tab.get 0#64 (if k = 0 then c.p.k else c.own.k) k

/-- The kind of a set value (R210). -/
def setKind (v : Word) : Nat := bitsOf v 63 60

/-- Whether a value's kind is assigned and its must-be-zero bits are zero (R210). -/
def setWellFormed (v : Word) : Bool :=
  match setKind v with
  | 0 => v == 0#64
  | 1 => bitsOf v 59 38 == 0
  | 2 => bitsOf v 59 24 == 0
  | 3 => bitsOf v 59 57 == 0 && bitsOf v 4 0 == 0
  | 4 => bitsOf v 59 24 == 0
  | _ => false

/-- The lanes a set operand names (R216): those of an empty value or a local value of the issuing warp's slot,
less the lanes that are not live (R11); `none` is SETKIND. -/
def Ctx.laneSet (c : Ctx) (v : Word) : Option Mask :=
  if v == 0#64 then some 0#32
  else if setKind v == 1 && setWellFormed v && bitsOf v 37 32 == c.w.slot then some (v.setWidth 32 &&& c.p.live)
  else none

/-- The set operand of an instruction. -/
def Ctx.mask (c : Ctx) (k : BitVec 3) : Option Mask := c.laneSet (c.kval k.toNat)

/-- The live lanes of k0. -/
def Ctx.k0 (c : Ctx) : Mask := (c.kval 0).setWidth 32 &&& c.p.live

/-- Whether a pending value covers a slot or temporary. -/
def Pend.covers (q : Pend) (code : Nat) : Bool :=
  match q.dest with
  | .win d n => d.toNat ≤ code && code < d.toNat + n
  | .set _ => false

/-- Whether an operand code names a value that an instruction must wait for (R64). -/
def Ctx.awaits (c : Ctx) (code : BitVec 5) : Bool :=
  code.toNat < 24 && c.r.pend.any fun q => q.count == 0 && q.covers code.toNat

/-- Whether one of some operand codes is awaited. -/
def Ctx.busy (c : Ctx) (codes : List (BitVec 5)) : Bool := codes.any c.awaits

/-- Whether a set register is awaited (R224). -/
def Ctx.busyK (c : Ctx) (k : Nat) : Bool :=
  c.r.pend.any fun q => match q.dest with | .set j => j == k | .win _ _ => false

/-- The value of `lane` in a lane (R15): the packed position in an apply warp. -/
def Ctx.laneNo (c : Ctx) (j : Nat) : Nat :=
  match c.own.kind with
  | .apply _ src => (src.getD j (j, 0, 0)).1
  | _ => j

/-- A source operand in a lane (R15, R47). -/
def Ctx.src (c : Ctx) (code x : BitVec 5) (j : Nat) : Word :=
  if code.toNat < 24 then Tab.get 0#64 c.r.win (32 * code.toNat + j)
  else match code.toNat with
    | 25 => BitVec.ofNat 64 (c.laneNo j)
    | 26 => c.own.tids.getD j 0#64
    | 27 => BitVec.ofNat 64 c.w.slot
    | 28 => BitVec.ofNat 64 c.w.core
    | 29 => x.signExtend 64
    | _ => 0#64

/-- A source operand in the lowest lane of a mask; zero where there is none (R218). -/
def Ctx.low (c : Ctx) (m : Mask) (code x : BitVec 5) : Word :=
  match lowest m with
  | some j => c.src code x j
  | none => 0#64

/-- A result written in the lanes of a mask (R47, R52): a window slot or a temporary at once, `z` discarded. -/
def Run.write (r : Run) (d : BitVec 5) (m : Mask) (f : Nat → Word) : Run :=
  if d.toNat < 24 then
    { r with win := m.toList.foldl (fun t j => Tab.set 0#64 t (32 * d.toNat + j) (f j)) r.win }
  else r

/-- A staged set value (R53). -/
def Run.setK (r : Run) (k : Nat) (v : Word) : Run := { r with sets := Dict.put r.sets k v }

/-- A staged effect. -/
def Run.hold (r : Run) (h : Held) : Run := { r with held := r.held ++ [h] }

/-- A staged effect of commit step 3. -/
def Run.stage (r : Run) (e : SetEff) : Run := { r with setEff := r.setEff ++ [e] }

/-- Flags that arise (R104). -/
def Run.flag (r : Run) (f : BitVec 5) : Run := { r with flags := r.flags ||| f }

/-- The main register that a window slot maps (R50). -/
def Run.regOf (r : Run) (i : Nat) : Nat := if i < 8 then 8 * r.b0 + i else 8 * r.b1 + (i - 8)

/-- The address of the packet that holds the instruction that issues. -/
def Run.packet (r : Run) : Word := (r.slots.getD (r.pos - 1) (0#32, 0#10, r.hdr)).2.2

/-- A value delivered to its destination. -/
def Run.deliver (r : Run) (q : Pend) : Run :=
  match q.dest with
  | .win d n =>
    if d.toNat < 24 then
      { r with win := q.vals.foldl (fun t e => if e.1 < 32 * n then Tab.set 0#64 t (32 * d.toNat + e.1) e.2 else t) r.win }
    else r
  | .set k => r.setK k ((q.vals.head?.map (·.2)).getD 0#64)

/-- Every value that has arrived and whose count has run out is delivered (R64). Of two values for one destination the last
to be delivered stands (the spec does not say which; DESIGN CHOICE, log 77). -/
def Run.settle (r : Run) : Run :=
  { (r.pend.filter fun q => q.arrived && q.count == 0).foldl Run.deliver r with
    pend := r.pend.filter fun q => !(q.arrived && q.count == 0) }

/-- The end of an instruction's issue: the counts of the lookahead go down and the position goes on. -/
def Run.advance (r : Run) : Run :=
  Run.settle { r with pos := r.pos + 1, pend := r.pend.map fun q => { q with count := q.count - 1 } }

/-- A value awaited from a read of the instruction that issues, with its lookahead count (R64). The count
includes the instruction itself, which `Run.advance` takes off. -/
def Run.await (r : Run) (id : Nat) (dest : Dest) (vals : List (Nat × Word)) (la : BitVec 4) : Run :=
  { r with pend := r.pend ++
      [{ id := id, dest := dest, vals := vals, count := la.toNat + 1, arrived := false, poison := false, pos := r.pos }] }

/-- The issue of an instruction of a run in the warp in focus: a field its entry refuses is ILLOP (R80, R344);
else its meaning decides. -/
def State.issue (s : State) (i : Instr) (f : State → Ctx → Issue) : Host.Outcome State Fault Refusal :=
  match s.focus with
  | none => .fault .noWarp
  | some w =>
    match s.ctx? w with
    | none => .fault .noRun
    | some c =>
      if i.legal then
        match f s c with
        | .go s r => .next (s.modWarp w fun p => { p with run := some r.advance })
        | .trap s t => .next (s.takeTrap w t)
        | .stall => .next { s with stall := true }
        | .raised s => .next s
      else .next (s.takeTrap w (c.trap .illop))

/-- An instruction on lanes of a set operand that only writes a destination: `uses` are the operand codes it
reads, `f` gives each lane's result and the flags that arise. -/
def Ctx.vec (c : Ctx) (s : State) (k : BitVec 3) (d : BitVec 5) (uses : List (BitVec 5))
    (f : Nat → Word × BitVec 5) : Issue :=
  if c.busyK k.toNat || c.busy (d :: uses) then .stall
  else match c.mask k with
    | none => .trap s (c.trap .setkind)
    | some m => .go s ((c.r.write d m fun j => (f j).1).flag (m.toList.foldl (fun x j => x ||| (f j).2) 0#5))

/-- A vector instruction that raises no flag. -/
def Ctx.pure (c : Ctx) (s : State) (k : BitVec 3) (d : BitVec 5) (uses : List (BitVec 5)) (f : Nat → Word) : Issue :=
  if c.busyK k.toNat || c.busy (d :: uses) then .stall
  else match c.mask k with
    | none => .trap s (c.trap .setkind)
    | some m => .go s (c.r.write d m f)

end Sys2Proof.Machine
end

