-- ==== Sys2Proof/Machine/Waits.lean ====
section
/-!
DEFINITION. What the waits of R31 and R32 test: tags, tokens, counters, barriers, subscriptions; and the tests a
header makes of its run (R44, R48–R55, R57).
-/

namespace Sys2Proof.Machine

/-- Whether a copy tag of a launch on a core is busy (R242). -/
def Core.tagBusy (k : Core) (l t : Nat) : Bool :=
  k.engine.any fun e => e.launch == l && (match e.cmd with | .copy x => x.tag == t | _ => false)

/-- Whether a `tall` or `tany` waits (R244). -/
def Core.tagWaits (k : Core) (l : Nat) (any : Bool) (g : Nat) (mask : BitVec 16) : Bool :=
  let named := (List.range 16).filter fun j => mask.getLsbD j
  let busy := named.filter fun j => k.tagBusy l (16 * g + j)
  if any then named != [] && busy.length == named.length else busy != []

/-- Whether a phase has not completed (R328). -/
def phaseWaits (ph : BitVec 32) (a : Word) : Bool :=
  let d := (ph - a.setWidth 32).toNat
  !(1 ≤ d && d ≤ 2 ^ 31 - 1)

/-- The subscription a handle names for a launch; none when the handle is stale (R289). -/
def Core.sub? (k : Core) (l : Nat) (hdl : Word) : Option Sub :=
  match k.subs[bitsOf hdl 7 0]? with
  | none => none
  | some x =>
    match x.sub with
    | none => none
    | some u => if x.gen == hdl.extractLsb' 16 8 && u.launch == l then some u else none

/-- Whether a handle breaks the format of R289 on a core. -/
def handleBad (c : Nat) (hdl : Word) : Bool :=
  bitsOf hdl 63 24 != 0 || 128 ≤ bitsOf hdl 7 0 || bitsOf hdl 15 8 != c

/-- A core with its set store as the instructions that issue in this cycle see it: as every commit made before this cycle left
it (R213). -/
def Core.asSeen (k : Core) : Core := { k with store := k.seen.getD k.store }

/-- The same for an instruction that resolves a value: a run sees an entry that it has reserved itself, under the generation with
which it reserved it, though a lower slot freed the entry in this very cycle (R212, R213). -/
def Core.seenFor (k : Core) (own : List Nat) (v : Word) : Core :=
  if setKind v == 2 && own.contains (bitsOf v 7 0)
      && (k.store[bitsOf v 7 0]?.map fun x => x.gen.toNat) == some (bitsOf v 23 16) then k
  else k.asSeen

/-- A core whose set store a commit of this cycle is about to change (R213). -/
def Core.keepSeen (k : Core) : Core := { k with seen := k.seen <|> some k.store }

/-- The group id of a live group of a launch on a core (R20), as its set-store entry. -/
def Core.group? (k : Core) (c l : Nat) (gid : BitVec 24) : Option Nat :=
  let e := (gid.extractLsb' 0 8).toNat
  match k.store[e]? with
  | none => none
  | some x =>
    if (gid.extractLsb' 8 8).toNat == c && x.gen == gid.extractLsb' 16 8 && x.group.isSome && x.holder == some l then some e
    else none

/-- A named barrier that is bound to a group of a launch, with that group's entry (R326). -/
def Core.boundTo (k : Core) (c l n : Nat) : Option (Barrier × Nat) :=
  match k.barriers[n]? with
  | none => none
  | some b =>
    match b.gid with
    | none => none
    | some gid => (k.group? c l gid).map fun e => (b, e)

/-- Whether a deposit that has reached a core for a slot of a launch has not been made (R144). -/
def Core.arrivedFor (k : Core) (l slot : Nat) : Bool :=
  k.deposits.any fun d => d.arrived && d.slot == slot && d.launch == l

/-- The instruction at a position of a run; none where its slot is no instruction. -/
def Run.instrAt (r : Run) (pos : Nat) : Option Instr :=
  match r.slots[pos - 1]? with
  | none => none
  | some x => match decodeSlot x.1 x.2.1 with
    | .ok y => some y.instr
    | .error _ => none

/-- The instruction at the position of a run. -/
def Run.current (r : Run) : Option Instr := r.instrAt r.pos

/-- The run of a warp at the slot at which it stands: where the chain group at its position waits for a later slot of the
group, with the slots before that one issued (R45). -/
def Warp.standing (p : Warp) : Option Run :=
  match p.run, p.stands with
  | some r, some (n, x) => some (if n == r.pos && r.commit.isNone then x else r)
  | r, _ => r

/-! ### Orders of grants (R243, R292) -/

/-- The grant that a waiting instruction asks for: a copy tag of its launch, or the places and entries of subscriptions. -/
def Instr.grant (l : Nat) : Instr → Option (Nat × Nat × Nat)
  | .cpy _ _ _ _ t _ => some (0, l, t.toNat)
  | .cpym _ _ _ _ t _ => some (0, l, t.toNat)
  | .swsub _ _ _ => some (1, 0, 0)
  | _ => none

/-- The grant that the slot at a position of a warp's run asks for. -/
def Warp.grantAt (p : Warp) (pos : Nat) : Option (Nat × Nat × Nat) :=
  match p.run with
  | some r => if r.commit.isSome then none else (r.instrAt pos).bind (Instr.grant p.launch)
  | none => none

/-- The position at which a warp has waited for a grant that it has not passed, and the cycle since which it waits. -/
def Warp.waitsSince (p : Warp) : Option (Nat × Nat) :=
  match p.since, p.run with
  | some x, some r => if r.pos ≤ x.2 then some x else none
  | _, _ => none

/-- Lexicographic order. -/
def keyBefore : List Nat → List Nat → Bool
  | [], _ => false
  | _ :: _, [] => false
  | x :: xs, y :: ys => x < y || (x == y && keyBefore xs ys)

/-- Whether another warp of a core has waited longer for the grant that a warp asks for at the position of its run; ties go to
the lower slot. -/
def Core.grantedFirst (k : Core) (slot : Nat) (hnd : Bool) (p : Warp) : Bool :=
  let pos := match p.run with | some r => r.pos | none => 0
  let since := match p.waitsSince with | some x => if x.2 = pos then x.1 else k.cyc.toNat | none => k.cyc.toNat
  let other (h : Nat) (e : Nat × Warp) : Bool := match e.2.waitsSince with
    | some x => e.2.grantAt x.2 == p.grantAt pos && keyBefore [x.1, e.1, h] [since, slot, if hnd then 1 else 0]
    | none => false
  k.warps.any (other 0) || k.hnds.any (other 1)

/-! ### What a header tests of its run -/

/-- The pipes an op code allows (R43): 0 X, 1 V, 2 M, 3 E. -/
def pipesOf (op fn : Nat) : List Nat :=
  if op = 0 || op = 1 then []
  else if op = 0x0B then [2]
  else if op ≤ 0x0D then [0]
  else if op = 0x15 || op = 0x16 || op = 0x17 then [2]
  else if op ≤ 0x1B then [0]
  else if op ≤ 0x37 then [0, 1]
  else if op ≤ 0x4F then [1]
  else if op = 0x50 then [3]
  else if op = 0x51 || op = 0x52 || op = 0x5F then [0]
  else if op ≤ 0x67 then [2]
  else if op = 0x6A || op = 0x6B || op = 0x77 then [0]
  else if op ≤ 0x76 then [3]
  else if op = 0x78 || op = 0x79 then [2]
  else if op ≤ 0x7D then [0]
  else if fn = 5 then [2]
  else [0]

/-- Whether words of a chain group can be given distinct pipes (R44). -/
def assignable (used : List Nat) : List (List Nat) → Bool
  | [] => true
  | [] :: r => assignable used r
  | ps :: r => ps.any fun q => !used.contains q && assignable (q :: used) r

/-- Whether a chapter assigns an op code (R79) and, within it, the fn code: the part of fn that selects an instruction or a
function of the op. A must-be-zero bit of fn, a type, a size or a scope beside it is another field (log 72). -/
def codeAssigned (op fn : Nat) : Bool :=
  match op with
  | 0x0B => fn < 4
  | 0x12 | 0x14 | 0x21 | 0x40 | 0x78 => fn % 4 != 3
  | 0x27 => fn % 4 < 2
  | 0x50 => fn % 16 < 12
  | 0x7E => fn < 9
  | 0x0E | 0x0F | 0x1C | 0x1D | 0x1E | 0x1F | 0x4F | 0x53 | 0x67 | 0x7D | 0x7F => false
  | _ => !((0x2F ≤ op && op ≤ 0x37) || (0x44 ≤ op && op ≤ 0x47))

/-- A slot as the header sees it: its fields and whether its op and fn codes are assigned. -/
structure SlotView where
  f  : Fields
  ok : Bool
  deriving DecidableEq, Repr

/-- The view of a slot. -/
def SlotView.of (w : BitVec 32) (e : BitVec 10) : SlotView where
  f := Fields.ofSlot w e
  ok := codeAssigned (Fields.ofSlot w e).op.toNat (Fields.ofSlot w e).fn.toNat

/-- Whether a slot is a control instruction (R54). -/
def SlotView.control (v : SlotView) : Bool :=
  let op := v.f.op.toNat
  v.ok && ((2 ≤ op && op ≤ 9) || op == 0x18 || op == 0x19 || op == 0x1A || (op == 0x7E && v.f.fn.toNat == 1))

/-- Whether a slot is an effect instruction (R55). -/
def SlotView.effect (v : SlotView) : Bool :=
  let b (i : Nat) := v.f.fn.getLsbD i
  v.ok && (match v.f.op.toNat with
    | 0x0B | 0x17 | 0x50 | 0x55 | 0x57 | 0x59 | 0x5B | 0x5C | 0x5D | 0x5E | 0x60 | 0x62 | 0x63 | 0x64 | 0x66 => true
    | 0x68 | 0x69 | 0x6C | 0x6D | 0x6F | 0x70 | 0x72 | 0x74 | 0x75 | 0x76 | 0x78 | 0x79 => true
    | 0x15 => b 0
    | 0x16 => !b 0
    | 0x6E => !b 1
    | 0x71 => !b 0
    | 0x73 => b 1 || !b 0
    | 0x7B | 0x7C => !v.f.x.getLsbD 4
    | 0x7E => v.f.fn.toNat == 5
    | _ => false)

/-- The slots of a run's packets in order: word, extension, packet address. -/
def slotsOf (addr : Word) (packs : List (BitVec 128)) : List (BitVec 32 × BitVec 10 × Word) :=
  (packs.zipIdx).flatMap fun e =>
    (List.range 3).map fun j =>
      (e.1.extractLsb' (32 * j) 32, e.1.extractLsb' (96 + 10 * j) 10, addr + BitVec.ofNat 64 (16 * (e.2 + 1)))

/-- The header's fields (R49). -/
def hdrLen (h : BitVec 128) : Nat := (h.extractLsb' 3 5).toNat
def hdrLoad (h : BitVec 128) : BitVec 16 := h.extractLsb' 8 16
def hdrB1 (h : BitVec 128) : Nat := (h.extractLsb' 24 4).toNat
def hdrB0 (h : BitVec 128) : Nat := (h.extractLsb' 28 4).toNat
def hdrAwait (h : BitVec 128) : BitVec 8 := h.extractLsb' 56 8

/-- Whether a header packet itself is well formed (R49). -/
def hdrOk (h : BitVec 128) : Bool :=
  1 ≤ hdrLen h && hdrLen h ≤ 24 && h.extractLsb' 0 3 == 0#3 && h.extractLsb' 32 24 == 0#24
    && h.extractLsb' 64 32 == 0#32 && h.extractLsb' 96 30 == 0#30 && h.extractLsb' 126 2 == 1#2

/-- The chain groups of a packet's slots (R44). -/
def chainGroups : List SlotView → List (List SlotView)
  | [] => []
  | [v] => [[v]]
  | v :: r =>
    match chainGroups r with
    | [] => [[v]]
    | g :: gs => if v.f.c == 1#1 then (v :: g) :: gs else [v] :: g :: gs

/-- Whether a plain packet's chaining is well formed (R44). -/
def packetOk (p : BitVec 128) : Bool :=
  let vs := (List.range 3).map fun j => SlotView.of (p.extractLsb' (32 * j) 32) (p.extractLsb' (96 + 10 * j) 10)
  p.extractLsb' 126 2 == 0#2 && !p.getLsbD 95
    && (chainGroups vs).all fun g =>
      assignable [] (g.map fun v => if v.ok then pipesOf v.f.op.toNat v.f.fn.toNat else [])

/-- Whether a trail slot has the form of R57. -/
def trailOk (w : BitVec 32) (e : BitVec 10) : Bool :=
  w.extractLsb' 24 7 == 1#7 && !w.getLsbD 31 && w.extractLsb' 21 3 == 0#3 && !w.getLsbD 19 && e == 0#10
    && (w.getLsbD 20 || w.extractLsb' 16 3 == 0#3)

/-- No two elements of a list are equal. -/
def distinct (l : List Nat) : Bool :=
  match l with
  | [] => true
  | x :: r => !r.contains x && distinct r

/-- Whether a run passes the tests that raise ILLPKT at its header (R48, R49, R54, R55, R57, R80, R146, R243,
R300, R356). -/
def runOk (f : Fetched) : Bool :=
  let n := hdrLen f.hdr
  let slots := slotsOf f.addr f.packs
  let vs := slots.map fun x => SlotView.of x.1 x.2.1
  let body := vs.take (n - 1)
  let ops (p : SlotView → Bool) := (body.filter p).length
  hdrOk f.hdr && f.packs.length == (n + 2) / 3 && f.packs.all packetOk
    && (match slots[n - 1]? with | some x => trailOk x.1 x.2.1 | none => false)
    && (slots.drop n).all (fun x => x.1 == 0#32 && x.2.1 == 0#10)
    && body.all (fun v => v.f.op != 1#7)
    && (body.dropLast).all (fun v => !v.control)
    && ops SlotView.effect ≤ 8
    && ops (fun v => v.ok && (v.f.op == 0x0C#7 || v.f.op == 0x0D#7)) ≤ 1
    && (body.drop 1).all (fun v => !(v.ok && (v.f.op == 0x5F#7 || v.f.op == 0x76#7)))
    && distinct ((body.filter fun v => v.ok && (v.f.op == 0x68#7 || v.f.op == 0x69#7)).map fun v => v.f.fn.toNat)
    && ops (fun v => v.ok && v.f.op == 0x7E#7 && v.f.fn == 6#6) ≤ 1

end Sys2Proof.Machine
end

