-- ==== Sys2Proof/Machine/Groups.lean ====
section
/-!
DEFINITION. Members of set values, canonical set results, the set store, groups, named barriers, and the exit of
lanes (R19–R24, R211–R215, R326, R327).
-/

namespace Sys2Proof.Machine

/-- Members of a set: core, slot and lanes, ascending by core and slot, no mask zero. -/
abbrev Members := List (Nat × Nat × Mask)

/-- The members that a core has in each of its slots. -/
def membersOf (c : Nat) (f : Nat → Mask) : Members :=
  (List.range 64).filterMap fun q => if f q == 0#32 then none else some (c, q, f q)

/-- The lanes that members have in a slot of a core. -/
def Members.lanesIn (ms : Members) (c q : Nat) : Mask :=
  ms.foldl (fun m e => if e.1 == c && e.2.1 == q then m ||| e.2.2 else m) 0#32

/-- Lanes of a slot in a bitmap (R213). -/
def maskBits (q : Nat) (m : Mask) : BitVec 2048 := m.setWidth 2048 <<< (32 * q)

/-- The bitmap of members (R213). -/
def Members.bitmap (ms : Members) : BitVec 2048 :=
  ms.foldl (fun b e => b ||| maskBits e.2.1 e.2.2) 0#2048

/-- The lanes that a bitmap has in a slot (R213). -/
def bitmapLanes (b : BitVec 2048) (q : Nat) : Mask := b.extractLsb' (32 * q) 32

/-- Members in ascending order of core and slot, equal ones united (R222). -/
def Members.sorted (ms : Members) : Members :=
  let t : Tab Mask := ms.foldl (fun t e => Tab.set 0#32 t (64 * e.1 + e.2.1) (Tab.get 0#32 t (64 * e.1 + e.2.1) ||| e.2.2)) []
  t.map fun e => (e.1 / 64, e.1 % 64, e.2)

/-- The live lanes of a launch's warp in a slot (R211). -/
def Core.liveIn (k : Core) (l q : Nat) : Mask :=
  match Dict.find k.warps q with
  | some p => if p.launch == l then p.live else 0#32
  | none => 0#32

/-- The members of a bitmap on a core that are live lanes of a launch's warps. -/
def Core.liveMembers (k : Core) (c l : Nat) (b : BitVec 2048) : Members :=
  membersOf c fun q => bitmapLanes b q &&& k.liveIn l q

/-! ### Objects in memory (R215, R227) -/

/-- The physical address of an offset of an object. -/
def spanPa (obj : List Span) (off : Nat) : Option Nat :=
  match obj with
  | [] => none
  | x :: r => if off < x.len then some (x.pa + off) else spanPa r (off - x.len)

/-- The length of an object's translated part. -/
def spanLen (obj : List Span) : Nat := obj.foldl (fun n x => n + x.len) 0

/-- An 8-byte word of an object; zero beyond it. -/
def State.objWord (s : State) (obj : List Span) (off : Nat) : Word :=
  match spanPa obj off with
  | some pa => s.readWord pa
  | none => 0#64

/-- An 8-byte word of an object written; nothing beyond it. -/
def State.setObjWord (s : State) (obj : List Span) (off : Nat) (v : Word) : State :=
  match spanPa obj off with
  | some pa => s.writeWord pa v
  | none => s

/-- A range of global bytes translated piece by piece, one piece to each 64 KiB of virtual address. -/
def State.spans (s : State) (c t : Nat) (va : Word) (n : Nat) (acc : Access) : Nat → Except (Code × Word) (List Span) × State
  | 0 => (.ok [], s)
  | fuel + 1 =>
    if n = 0 then (.ok [], s)
    else match s.translate c t va acc with
      | (.error e, s) => (.error (e, va), s)
      | (.ok p, s) =>
        let len := min n (65536 - va.toNat % 65536)
        match s.spans c t (va + BitVec.ofNat 64 len) (n - len) acc fuel with
        | (.error e, s) => (.error e, s)
        | (.ok r, s) => (.ok ({ va := va.toNat, len := len, pa := p.phys va.toNat } :: r), s)

/-- The pieces of a range of global bytes up to the first that does not translate, which raises nothing. -/
def State.spansWhile (s : State) (c t : Nat) (va : Word) (n : Nat) (acc : Access) : Nat → List Span × State
  | 0 => ([], s)
  | fuel + 1 =>
    if n = 0 then ([], s)
    else match s.translate c t va acc with
      | (.error _, s) => ([], s)
      | (.ok p, s) =>
        let len := min n (65536 - va.toNat % 65536)
        match s.spansWhile c t (va + BitVec.ofNat 64 len) (n - len) acc fuel with
        | (r, s) => ({ va := va.toNat, len := len, pa := p.phys va.toNat } :: r, s)

/-- An object whose extent its header gives, translated: its pieces, and the number of its bytes. `extent` is the number of
bytes after the header, from the word at offset `at_`, with the core's dirty bytes of it, which the access writes back first
(R116, R215): what that word names as the core reads it at issue is checked (DEDUCED, log 68). Up to `most` bytes, the pieces go
on beyond that as far as they translate, for a word that changes before the access is performed. -/
def State.objSpans (s : State) (c t : Nat) (va : Word) (acc : Access) (at_ : Nat) (extent : Word → Nat) (most : Nat) :
    Except (Code × Word) (List Span × Nat) × State :=
  match s.spans c t va 32 acc 2 with
  | (.error e, s) => (.error e, s)
  | (.ok h, s) =>
    let need := 32 + extent (match spanPa h at_ with | some pa => s.flushedWord c pa | none => 0#64)
    match s.spans c t va need acc 6 with
    | (.error e, s) => (.error e, s)
    | (.ok obj, s) =>
      match s.spansWhile c t (va + BitVec.ofNat 64 need) (most - need) acc 6 with
      | (more, s) => (.ok (obj ++ more, need), s)

/-- The first bytes of an object. -/
def spanTake (n : Nat) : List Span → List Span
  | [] => []
  | x :: r => if n = 0 then [] else { x with len := min n x.len } :: spanTake (n - x.len) r

/-- The capacity of a set object (R215). -/
def setCap (w : Word) : Nat := min (bitsOf w 31 0) 9216

/-- The number of slots of a set queue (R227). -/
def queueCap (w : Word) : Nat := 2 ^ bitsOf w 3 0

/-- The sectors of an object. -/
def spanSectors (obj : List Span) : List Nat := obj.flatMap fun x => sectorsOf x.pa x.len

/-- The members of a set object (R215). -/
def State.objMembers (s : State) (obj : List Span) : Members :=
  let n := min (bitsOf (s.objWord obj 0) 31 0) (setCap (s.objWord obj 8))
  Members.sorted ((List.range n).filterMap fun i =>
    let e := s.objWord obj (32 + 8 * i)
    if bitsOf e 47 40 ≤ 143 && bitsOf e 31 0 != 0 then some (bitsOf e 47 40, bitsOf e 37 32, e.setWidth 32) else none)

/-- Whether an access at a home atomic unit is queued on one of some sectors (R143). -/
def State.homeBusy (s : State) (secs : List Nat) : Bool := s.dev.homeQ.any fun q => secs.contains q.sector

/-- What a resolution comes to: members, a trap's code and address, or a wait. -/
inductive Resolved where
  | members (ms : Members)
  | bad (code : Code) (a : Word)
  | wait
  /-- LOGFULL or RPLDIV was raised for its read. -/
  | raised

/-- The bits of a set-store entry as a run sees it: its own staged filling first (R53). -/
def entryBits (x : SetEntry) (e : Nat) (staged : List SetEff) : BitVec 2048 :=
  staged.foldl (fun b f => match f with | .fill n bits => if n = e then bits else b | _ => b) x.bits

/-- The entries that runs on a core have reserved. -/
def Core.reservedEntries (k : Core) : List Nat :=
  (k.warps ++ k.hnds).flatMap fun e => match e.2.run with | some r => r.res.entries | none => []

/-- The entries that runs of a launch on a core have reserved. -/
def Core.reservedBy (k : Core) (l : Nat) : List Nat :=
  (k.warps ++ k.hnds).flatMap fun e =>
    match e.2.run with | some r => if e.2.launch == l then r.res.entries else [] | none => []

/-- The lowest free entry of a core's set store (R213). -/
def Core.freeEntry (k : Core) : Option Nat :=
  (List.range 256).find? fun e =>
    (match k.store[e]? with | some x => x.holder.isNone | none => false) && !k.reservedEntries.contains e

/-- Whether a core value names an entry held by a launch (R211). -/
def Core.coreValueOk (k : Core) (c l : Nat) (v : Word) : Bool :=
  bitsOf v 15 8 == c
    && (match k.store[bitsOf v 7 0]? with
      | some x => x.gen.toNat == bitsOf v 23 16 && (x.holder == some l || (k.reservedBy l).contains (bitsOf v 7 0))
      | none => false)

/-- Which members of a memory value an instruction takes (R211, R222): each must lie on the core, and lives there; those on the
core live, the others as stored; all as stored. -/
inductive MemView where
  | onCore
  | liveHere
  | stored
  deriving DecidableEq, Repr

/-- A set value resolved on a core for a launch (R211). `k` is the core as the one who resolves sees its store. -/
def State.resolve (s : State) (k : Core) (c l t : Nat) (staged : List SetEff) (v : Word) (view : MemView) : Resolved × State :=
  if !setWellFormed v then (.bad .setkind 0#64, s)
  else match setKind v with
    | 0 => (.members [], s)
    | 1 =>
      let m := v.setWidth 32 &&& k.liveIn l (bitsOf v 37 32)
      (.members (if m == 0#32 then [] else [(c, bitsOf v 37 32, m)]), s)
    | 2 =>
      match k.coreValueOk c l v, k.store[bitsOf v 7 0]? with
      | true, some x => (.members (k.liveMembers c l (entryBits x (bitsOf v 7 0) staged)), s)
      | _, _ => (.bad .setkind 0#64, s)
    | 4 =>
      match k.group? c l (v.setWidth 24) with
      | some e =>
        match k.store[e]? with
        | some x => (.members (k.liveMembers c l x.bits), s)
        | none => (.bad .setkind 0#64, s)
      | none => (.bad .setkind 0#64, s)
    | _ =>
      let a := v &&& 0x01FFFFFFFFFFFFE0#64
      match s.objSpans c t a .read 8 (fun w => 8 * setCap w) 0 with
      | (.error e, s) => (.bad e.1 e.2, s)
      | (.ok (obj, _), s) =>
        if s.homeBusy (spanSectors (obj.take 1)) then (.wait, s)
        else
          let s := ((spanSectors obj).foldl (fun s sec => s.flushSector c sec) s).packets (spanSectors obj)
          let ms := s.objMembers obj
          if view == .stored then (.members ms, s)
          else if view == .onCore && ms.any fun e => e.1 != c then (.bad .setkind 0#64, s)
          else (.members ((ms.map fun e => (e.1, e.2.1, if e.1 == c then e.2.2 &&& k.liveIn l e.2.1 else e.2.2)).filter
            fun e => e.2.2 != 0#32), s)

/-! ### Canonical results (R212) -/

/-- The spill chunks of a launch on a core that are in use or reserved (R214). -/
def State.usedChunks (s : State) (c : Nat) (l : Launch) : List Nat :=
  (match l.place? c with | some p => p.chunks | none => [])
    ++ (((s.core c).warps ++ (s.core c).hnds).flatMap fun e =>
      match e.2.run with | some r => if e.2.launch == l.id then r.res.chunks else [] | none => [])

/-- The address of a spill chunk (R214). -/
def chunkAddr (l : Launch) (c j : Nat) : Word := l.card.spbase + BitVec.ofNat 64 (544 * (l.card.spn * c + j))

/-- What a canonical result comes to: its value, what it reserves, and the effect that fills it; or a trap. -/
inductive Canon where
  | value (v : Word)
  | entry (v : Word) (e : Nat)
  | chunk (v : Word) (j : Nat) (obj : List Span)
  | bad (code : Code) (a : Word)

/-- A set result on a core as a canonical value (R212): `ops` are the operands that resolve to exactly the result
and are of core or memory kind, lower-numbered first. -/
def State.canonical (s : State) (c : Nat) (l : Launch) (ms : Members) (ops : List Word) : Canon × State :=
  match ms with
  | [] => (.value 0#64, s)
  | [(_, q, m)] => (.value (localValue q m), s)
  | _ =>
    match ops with
    | v :: _ => (.value v, s)
    | [] =>
      match (s.core c).freeEntry with
      | some e =>
        match (s.core c).store[e]? with
        | some x => (.entry (BitVec.ofNat 64 (2 * 2 ^ 60 + x.gen.toNat * 2 ^ 16 + c * 2 ^ 8 + e)) e, s)
        | none => (.bad .setovf 0#64, s)
      | none =>
        match (List.range l.card.spn).find? fun j => !(s.usedChunks c l).contains j with
        | none => (.bad .setovf 0#64, s)
        | some j =>
          match s.spans c l.tenant (chunkAddr l c j) 544 .modify 3 with
          | (.error e, s) => (.bad e.1 e.2, s)
          | (.ok obj, s) => (.chunk (0x3000000000000000#64 ||| (chunkAddr l c j &&& 0x01FFFFFFFFFFFFE0#64)) j obj, s)

/-! ### Groups and barriers -/

/-- The id of the group in an entry (R20). -/
def groupId (c e : Nat) (gen : BitVec 8) : BitVec 24 := gen ++ BitVec.ofNat 8 c ++ BitVec.ofNat 8 e

/-- The threads of a bitmap, as 32·slot + lane. -/
def bitmapThreads (b : BitVec 2048) : List Nat := (List.range 2048).filter fun i => b.getLsbD i

/-- A barrier whose open phase completes while every current member has arrived in it (R23, R327). -/
def Barrier.settle (members : List Nat) (b : Barrier) : Nat → Barrier
  | 0 => b
  | n + 1 =>
    if members != [] && members.all fun t => b.arr.contains (b.ph, t) then
      Barrier.settle members { b with ph := b.ph + 1, arr := b.arr.filter fun a => a.1 != b.ph } n
    else b

/-- The barriers bound to the group of an entry, after its membership changed (R23). -/
def Core.settleBarriers (k : Core) (c e : Nat) : Core :=
  match k.store[e]? with
  | none => k
  | some x =>
    let ts := bitmapThreads x.bits
    { k with barriers := k.barriers.map fun b =>
        if b.gid == some (groupId c e x.gen) then
          Barrier.settle ts { b with arr := b.arr.filter fun a => ts.contains a.2 } (b.arr.length + 1)
        else b }

/-- Every barrier of a core, after the members of several groups changed (R23). -/
def Core.settleAll (k : Core) (c : Nat) : Core :=
  (List.range 256).foldl (fun k e =>
    match k.store[e]? with
    | some x => if x.group.isSome then k.settleBarriers c e else k
    | none => k) k

/-- An entry freed (R213): its generation goes on. -/
def Core.freeStore (k : Core) (e : Nat) : Core :=
  { k with store := listChange k.store e fun x =>
      { gen := x.gen + 1, holder := none, bits := 0#2048, group := none } }

/-- A group dissolved (R22): its barriers are unbound and their arrivals discarded, its entry is free. -/
def Core.dissolve (k : Core) (c e : Nat) : Core :=
  match k.store[e]? with
  | none => k
  | some x =>
    let gid := groupId c e x.gen
    let k : Core := { k with
      barriers := k.barriers.map fun b => if b.gid == some gid then { b with gid := none, arr := [] } else b
      warps := k.warps.map fun w => (w.1, { w.2 with groups := w.2.groups.filter fun g => g.2 != gid }) }
    k.freeStore e

/-- Lanes of a slot become members of the group of an entry (R229). -/
def Core.joinGroup (k : Core) (c e slot : Nat) (m : Mask) : Core :=
  match k.store[e]? with
  | none => k
  | some x =>
    let gid := groupId c e x.gen
    let new := m.toList.filter fun j => !x.bits.getLsbD (32 * slot + j)
    ({ k with store := listChange k.store e fun x => { x with bits := x.bits ||| maskBits slot m } }).modWarp
      slot false fun p => { p with groups := p.groups ++ new.map fun j => (j, gid) }

/-- Lanes of a slot cease to be members of the group of an entry; the group then dissolves or its barriers are
tested (R21–R23). -/
def Core.leaveGroup (k : Core) (c e slot : Nat) (m : Mask) : Core :=
  match k.store[e]? with
  | none => k
  | some x =>
    let gid := groupId c e x.gen
    let bits := x.bits &&& ~~~(maskBits slot m)
    let k := ({ k with store := listChange k.store e fun x => { x with bits := bits } }).modWarp slot false fun p =>
      { p with groups := p.groups.filter fun g => !(g.2 == gid && m.getLsbD g.1) }
    if bits == x.bits then k
    else if bits == 0#2048 then k.dissolve c e
    else k.settleBarriers c e

/-- Lanes of a slot leave every group of their launch on the core (R21). -/
def Core.leaveGroups (k : Core) (c l slot : Nat) (m : Mask) : Core :=
  (List.range 256).foldl (fun k e =>
    match k.store[e]? with
    | some x => if x.group.isSome && x.holder == some l then k.leaveGroup c e slot m else k
    | none => k) k

/-- Lanes of a warp exit (R24): they are absent from now on, k0 loses them, their threads leave their groups, and the exit of the
last ends its region (R357). A trap-handler warp never exits lanes (R347). -/
def State.exitLanes (s : State) (w : WarpRef) (m : Mask) : State :=
  match s.warp? w with
  | none => s
  | some p =>
    let m := m &&& p.live
    let s := s.modWarp w fun p =>
      { p with live := p.live &&& ~~~m
               region := if p.live &&& ~~~m = 0#32 then none else p.region
               k := Tab.set 0#64 p.k 0 (localValue w.slot ((Tab.get 0#64 p.k 0).setWidth 32 &&& p.live &&& ~~~m)) }
    match p.kind with
    | .apply _ _ => s
    | .ordinary =>
      let gone := m.toList.map fun j => 32 * p.logical + j
      let s := (s.modCore w.core fun k => k.leaveGroups w.core p.launch w.slot m).modLaunch p.launch fun l =>
        { l with exited := l.exited + countLanes m }
      let without (b : DevBarrier) : DevBarrier :=
        if b.launch == some p.launch then { b with arr := b.arr.filter fun a => !gone.contains a.2 } else b
      s.modDev fun d => { d with dbars := d.dbars.map without }
    | _ => s.modCore w.core fun k => k.leaveGroups w.core p.launch w.slot m

/-- A staged filling of a set-store entry without the lanes of a slot (R213). -/
def SetEff.clearSlot (slot : Nat) : SetEff → SetEff
  | .fill e bits => .fill e (bits &&& ~~~(maskBits slot 0xFFFFFFFF#32))
  | e => e

/-- A slot cleared in every entry of a core's set store, as its warp retires, and in what runs in progress are to fill an entry
with, so that a later warp in the slot inherits no membership (R213). -/
def Core.clearSlot (k : Core) (slot : Nat) : Core :=
  let bare (x : SetEntry) : SetEntry := { x with bits := x.bits &&& ~~~(maskBits slot 0xFFFFFFFF#32) }
  let unfill (e : Nat × Warp) : Nat × Warp :=
    (e.1, { e.2 with run := e.2.run.map fun (r : Run) => { r with setEff := r.setEff.map (SetEff.clearSlot slot) } })
  { k with store := k.store.map bare, seen := k.seen.map (List.map bare), warps := k.warps.map unfill, hnds := k.hnds.map unfill }

/-- A slot of a core free again: its warp and its handler context are gone, and what reached it and was not made is discarded
(R24, R144, R213). -/
def Core.freeSlotOf (k : Core) (slot : Nat) : Core :=
  let l := (Dict.find k.warps slot).map fun (p : Warp) => p.launch
  let k := k.clearSlot slot
  { k with
    warps := Tab.drop k.warps slot, hnds := Tab.drop k.hnds slot
    deposits := k.deposits.filter fun d => !(d.arrived && d.slot == slot && some d.launch == l) }

/-- The phase in which a thread's next arrival counts (R327): the earliest, from the open one on, in which it has
not arrived. -/
def nextPhase (ph : BitVec 32) (arr : List (BitVec 32 × Nat)) (t : Nat) : Nat → BitVec 32
  | 0 => ph
  | n + 1 => if arr.contains (ph, t) then nextPhase (ph + 1) arr t n else ph

end Sys2Proof.Machine
end

