-- ==== Sys2Proof/Machine/Flags.lean ====
section
/-!
DEFINITION. The floating-point flags (R103) and the flag computations of rounding (R82, R86, R88, R96, R97, R100).
-/

namespace Sys2Proof.Machine

/-- Invalid. -/
def fNV : BitVec 5 := 1#5
/-- Overflow. -/
def fOF : BitVec 5 := 2#5
/-- Underflow. -/
def fUF : BitVec 5 := 4#5
/-- Inexact. -/
def fNX : BitVec 5 := 8#5
/-- Saturate. -/
def fSAT : BitVec 5 := 16#5

/-- A flag that arises under a condition. -/
def flagIf (c : Bool) (f : BitVec 5) : BitVec 5 := if c then f else 0#5

/-- The value `sysrd` reads of FPFLAGS: bits 63:5 zero (R103). -/
def flagsWord (f : BitVec 5) : Word := f.setWidth 64

end Sys2Proof.Machine
end

