-- ==== Sys2Proof/Machine/Num.lean ====
section
/-!
DEFINITION. Numbers: decoding and encoding of every format, the rounding modes, and exact arithmetic
(R82–R92, R95–R102, R105, R107).
-/

namespace Sys2Proof.Machine

/-- A value: a NaN, an infinity, or `± n / d · 2^e` with `d` positive. -/
inductive Val where
  | nan (signalling : Bool)
  | inf (neg : Bool)
  | num (neg : Bool) (n d : Nat) (e : Int)
  deriving DecidableEq, Repr

/-- An integer as a value. -/
def Val.ofInt (i : Int) : Val := .num (i < 0) i.natAbs 1 0

/-- Whether a value is a NaN. -/
def Val.isNan : Val → Bool
  | .nan _ => true
  | _ => false

/-- Whether a value is a signalling NaN. -/
def Val.isSig : Val → Bool
  | .nan b => b
  | _ => false

/-- Whether a value is a zero. -/
def Val.isZero : Val → Bool
  | .num _ n _ _ => n == 0
  | _ => false

/-- The sign of a value; of a NaN, plus. -/
def Val.neg : Val → Bool
  | .nan _ => false
  | .inf b => b
  | .num b _ _ _ => b

/-- The value with its sign changed. -/
def Val.flip : Val → Val
  | .nan b => .nan b
  | .inf b => .inf !b
  | .num b n d e => .num (!b) n d e

/-- The value without its sign. -/
def Val.abs : Val → Val
  | .nan b => .nan b
  | .inf _ => .inf false
  | .num _ n d e => .num false n d e

/-- `2^e` for a nonnegative exponent, 1 otherwise. -/
def pow2 (e : Int) : Nat := 2 ^ e.toNat

/-- The floor of the base-2 logarithm of `n / d`, for positive numbers. -/
def log2Ratio (n d : Nat) : Int :=
  let a : Int := (Nat.log2 n : Int) - Nat.log2 d
  if d * pow2 a ≤ n * pow2 (-a) then a else a - 1

/-- Compares `n1/d1·2^e1` with `n2/d2·2^e2`. -/
def cmpMag (n1 d1 : Nat) (e1 : Int) (n2 d2 : Nat) (e2 : Int) : Ordering :=
  compare (n1 * d2 * pow2 (e1 - e2)) (n2 * d1 * pow2 (e2 - e1))

/-- Compares two values that are no NaN; zeros of either sign are equal. -/
def Val.cmp : Val → Val → Ordering
  | .nan _, _ => .eq
  | _, .nan _ => .eq
  | .inf a, .inf b => if a = b then .eq else if a then .lt else .gt
  | .inf a, .num _ _ _ _ => if a then .lt else .gt
  | .num _ _ _ _, .inf b => if b then .gt else .lt
  | .num a n d e, .num b m f g =>
    if n = 0 ∧ m = 0 then .eq
    else if n = 0 then (if b then .gt else .lt)
    else if m = 0 then (if a then .lt else .gt)
    else match a, b with
      | true, false => .lt
      | false, true => .gt
      | false, false => cmpMag n d e m f g
      | true, true => cmpMag m f g n d e

/-! ### Formats -/

/-- The parameters of an IEEE format: width, precision, largest exponent (R83). -/
structure Ieee where
  width : Nat
  prec  : Nat
  emax  : Nat
  deriving DecidableEq, Repr

/-- The IEEE parameters of a format, if it is one. -/
def ieeeOf : EFmt → Option Ieee
  | .f64 => some ⟨64, 53, 1023⟩
  | .f32 => some ⟨32, 24, 127⟩
  | .f16 => some ⟨16, 11, 15⟩
  | .bf16 => some ⟨16, 8, 127⟩
  | _ => none

/-- Decodes an IEEE code. -/
def Ieee.decode (p : Ieee) (code : Nat) : Val :=
  let fb := p.prec - 1
  let s := code / 2 ^ (p.width - 1) % 2 == 1
  let ex := code / 2 ^ fb % 2 ^ (p.width - p.prec)
  let f := code % 2 ^ fb
  if ex = 2 ^ (p.width - p.prec) - 1 then
    if f = 0 then .inf s else .nan (f < 2 ^ (fb - 1))
  else if ex = 0 then .num s f 1 (1 - (p.emax : Int) - fb)
  else .num s (2 ^ fb + f) 1 ((ex : Int) - p.emax - fb)

/-- The canonical quiet NaN (R101). -/
def Ieee.qnan (p : Ieee) : Nat := (2 ^ (p.width - p.prec + 1) - 1) * 2 ^ (p.prec - 2)

/-- Whether a code is a nonzero subnormal. -/
def Ieee.isSub (p : Ieee) (code : Nat) : Bool :=
  code / 2 ^ (p.prec - 1) % 2 ^ (p.width - p.prec) == 0 && code % 2 ^ (p.prec - 1) != 0

/-- The number of leading bits of `M`, from bit `n - 1` down, that equal `b`. -/
def leadRun (m : Nat) (b : Bool) : Nat → Nat
  | 0 => 0
  | n + 1 => if m.testBit n = b then leadRun m b n + 1 else 0

/-- Decodes the magnitude field of a tapered code: `n` bits, `es` exponent bits (R85). -/
def taperMag (m n es : Nat) : Nat × Int :=
  let b := m.testBit (n - 1)
  let r := leadRun m b n
  let k : Int := if b then (r : Int) - 1 else -(r : Int)
  let q := n - r - 1
  let rest := m % 2 ^ q
  if es ≤ q then
    let e := rest / 2 ^ (q - es)
    let f := rest % 2 ^ (q - es)
    (2 ^ (q - es) + f, k * 2 ^ es + e - (q - es : Nat))
  else (1, k * 2 ^ es + (rest * 2 ^ (es - q) : Nat))

/-- The parameters of a tapered format: n, es (R85). -/
def taperOf : EFmt → Option (Nat × Nat)
  | .t8 => some (7, 2)
  | .t6 => some (5, 1)
  | _ => none

/-- A code read as a two's complement number. -/
def signedOf (w code : Nat) : Int :=
  let c := code % 2 ^ w
  if c < 2 ^ (w - 1) then c else (c : Int) - 2 ^ w

/-- Whether a format is a signed integer. -/
def fmtSigned : EFmt → Bool
  | .i8 | .i16 | .i32 | .i64 => true
  | _ => false

/-- Decodes a code of a format; raw elements are bytes (R82–R87). -/
def decodeVal (f : EFmt) (code : Nat) : Val :=
  match ieeeOf f with
  | some p => p.decode (code % 2 ^ p.width)
  | none =>
    match taperOf f with
    | some (n, es) =>
      let s := code.testBit n
      let m := code % 2 ^ n
      if m = 0 then (if s then .nan false else .num false 0 1 0)
      else let v := taperMag m n es; .num s v.1 1 v.2
    | none =>
      match f with
      | .h4 => let t := 2 * signedOf 4 code + 1; .num (t < 0) t.natAbs 1 (-1)
      | _ => if fmtSigned f then .ofInt (signedOf f.width code) else .ofInt (code % 2 ^ f.width : Nat)

/-- Decodes a source under `.ftz` (R100): a subnormal IEEE source is a zero of its sign. -/
def decodeFtz (f : EFmt) (ftz : Bool) (code : Nat) : Val :=
  match ieeeOf f with
  | some p => if ftz && p.isSub code then .num (code.testBit (p.width - 1)) 0 1 0 else decodeVal f code
  | none => decodeVal f code

/-! ### Rounding (R95–R97) -/

/-- Whether rounding goes from the lower magnitude to the next, where the value stands `num/den` of the gap above
it, `0 < num < den`; `odd` tells the parity of the lower code. Stochastic rounding chooses between the adjacent
values as signed numbers (R97). -/
def roundUp (rm : BitVec 3) (neg odd : Bool) (num den u : Nat) : Bool :=
  match rm.toNat with
  | 0 => den < 2 * num || (2 * num == den && odd)
  | 1 => false
  | 2 => neg
  | 3 => !neg
  | _ => if neg then !(u < 2 ^ 32 * (den - num) / den) else u < 2 ^ 32 * num / den

/-- `n/d·2^e` as a multiple of `2^q`: the multiple rounded, and whether it is inexact. -/
def roundAt (rm : BitVec 3) (neg : Bool) (n d : Nat) (e q : Int) (u : Nat) : Nat × Bool :=
  let num := n * pow2 (e - q)
  let den := d * pow2 (q - e)
  let lo := num / den
  let rem := num % den
  if rem = 0 then (lo, false)
  else (if roundUp rm neg (lo % 2 == 1) rem den u then lo + 1 else lo, true)

/-- Whether a nonzero number is tiny in an IEEE format: below its smallest normal number once rounded with an unbounded
exponent (R83). -/
def Ieee.tiny (p : Ieee) (rm : BitVec 3) (u : Nat) (neg : Bool) (n d : Nat) (e : Int) : Bool :=
  let emin : Int := 1 - p.emax
  let big := log2Ratio n d + e
  big < emin && !(big + 1 = emin && (roundAt rm neg n d e (big - (p.prec - 1)) u).1 = 2 ^ p.prec)

/-- Rounds a nonzero number into an IEEE format (R83, R96, R97, R100). -/
def Ieee.round (p : Ieee) (rm : BitVec 3) (ftz : Bool) (u : Nat) (neg : Bool) (n d : Nat) (e : Int) : Nat × BitVec 5 :=
  let fb := p.prec - 1
  let emax : Int := p.emax
  let emin : Int := 1 - emax
  let s := if neg then 2 ^ (p.width - 1) else 0
  let infC := s + (2 ^ (p.width - p.prec) - 1) * 2 ^ fb
  let maxC := infC - 1
  let lead := log2Ratio n d
  let big := lead + e
  -- Above the largest finite value stochastic rounding goes by magnitude, and from the threshold of RN on it
  -- gives infinity (R97).
  let q := max big emin - fb
  let rn := roundAt 0#3 neg n d e q u
  let rnOver := emax < q + fb || (q + fb == emax && 2 ^ p.prec ≤ rn.1)
  let past := cmpMag n d e (2 ^ p.prec - 1) 1 (emax - fb) == .gt
  let sr := 4 ≤ rm.toNat
  if sr && rnOver then (infC, fOF ||| fNX)
  else
    let x := roundAt rm (neg && !(sr && past)) n d e q u
    let mag := x.1
    let overflow := emax < q + fb || (q + fb == emax && 2 ^ p.prec ≤ mag)
    if overflow then
      (match rm.toNat with
       | 1 => maxC
       | 2 => if neg then infC else maxC
       | 3 => if neg then maxC else infC
       | _ => infC, fOF ||| fNX)
    else
      let tiny := p.tiny rm u neg n d e
      let fl := flagIf x.2 fNX ||| flagIf (x.2 && tiny) fUF
      if mag < 2 ^ fb then
        if ftz && (mag != 0 || x.2) then (s, fUF ||| fNX) else (s + mag, fl)
      else (s + (q + fb + emax - 1).toNat * 2 ^ fb + mag, fl)

/-- The largest magnitude code whose value is at most `n/d·2^e`, counting codes from `m` down. -/
def taperFloor (w es n d : Nat) (e : Int) : Nat → Nat
  | 0 => 0
  | m + 1 =>
    let v := taperMag (m + 1) w es
    if cmpMag v.1 1 v.2 n d e = .gt then taperFloor w es n d e m else m + 1

/-- Rounds a nonzero number into a tapered format (R86 steps 3–5). -/
def roundTaper (w es : Nat) (rm : BitVec 3) (u : Nat) (neg : Bool) (n d : Nat) (e : Int) : Nat × BitVec 5 :=
  let s := if neg then 2 ^ w else 0
  let top := 2 ^ w - 1
  let vt := taperMag top w es
  let v1 := taperMag 1 w es
  if cmpMag n d e vt.1 1 vt.2 = .gt then (s + top, fSAT ||| fNX)
  else if cmpMag n d e v1.1 1 v1.2 = .lt then (s + 1, fUF ||| fNX)
  else
    let lo := taperFloor w es n d e top
    let a := taperMag lo w es
    if cmpMag a.1 1 a.2 n d e = .eq then (s + lo, 0#5)
    else
      let b := taperMag (lo + 1) w es
      -- all three over the common denominator d · 2^-g
      let g := min (min a.2 b.2) e
      let x := n * pow2 (e - g)
      let y := a.1 * d * pow2 (a.2 - g)
      let z := b.1 * d * pow2 (b.2 - g)
      (s + (if roundUp rm neg (lo % 2 == 1) (x - y) (z - y) u then lo + 1 else lo), fNX)

/-- Rounds a number into h4 (R88). -/
def roundH4 (neg : Bool) (n d : Nat) (e : Int) : Nat × BitVec 5 :=
  if cmpMag n d e 15 1 (-1) = .gt then ((if neg then 8 else 7), fSAT ||| fNX)
  else
    -- 2x over 2: the level of code c is (2c + 1) / 2
    let den := 2 * d * pow2 (-e)
    let num : Int := (if neg then -1 else 1) * (2 * n * pow2 e : Nat) - (d * pow2 (-e) : Nat)
    let c := num / (den : Int)
    let rem := (num % (den : Int)).toNat
    let up := den < 2 * rem || (2 * rem == den && c % 2 == 1)
    let c' := if up then c + 1 else c
    ((c' % 16).toNat, flagIf (rem != 0) fNX)

/-- The bounds of an integer format. -/
def intBounds (f : EFmt) : Int × Int :=
  if fmtSigned f then (-(2 ^ (f.width - 1) : Nat), (2 ^ (f.width - 1) : Nat) - 1) else (0, (2 ^ f.width : Nat) - 1)

/-- An integer clamped to a format's range, as a code; whether it was outside. -/
def clampInt (f : EFmt) (i : Int) : Nat × Bool :=
  let b := intBounds f
  let c := if i < b.1 then b.1 else if b.2 < i then b.2 else i
  ((c % (2 ^ f.width : Nat)).toNat, i < b.1 || b.2 < i)

/-- An integer modulo a format's width, as a code. -/
def wrapInt (f : EFmt) (i : Int) : Nat := (i % (2 ^ f.width : Nat)).toNat

/-- Rounds a number into an integer format (R96): a value outside the range gives the nearest bound (log 48). -/
def roundInt (f : EFmt) (rm : BitVec 3) (u : Nat) (neg : Bool) (n d : Nat) (e : Int) : Nat × BitVec 5 :=
  let bound : Int := if neg then (intBounds f).1 else (intBounds f).2
  if cmpMag n d e bound.natAbs 1 0 == .gt then ((clampInt f bound).1, fSAT ||| fNX)
  else
    let x := roundAt rm neg n d e 0 u
    ((clampInt f (if neg then -(x.1 : Int) else x.1)).1, flagIf x.2 fNX)

/-- Encodes a value into a format: the code and the flags that arise. -/
def encodeVal (f : EFmt) (rm : BitVec 3) (ftz : Bool) (u : Nat) (v : Val) : Nat × BitVec 5 :=
  match ieeeOf f with
  | some p =>
    match v with
    | .nan b => (p.qnan, flagIf b fNV)
    | .inf s => ((if s then 2 ^ (p.width - 1) else 0) + (2 ^ (p.width - p.prec) - 1) * 2 ^ (p.prec - 1), 0#5)
    | .num s n d e => if n = 0 then ((if s then 2 ^ (p.width - 1) else 0), 0#5) else p.round rm ftz u s n d e
  | none =>
    match taperOf f with
    | some (w, es) =>
      match v with
      | .nan b => (2 ^ w, flagIf b fNV)
      | .inf s => ((if s then 2 ^ w else 0) + 2 ^ w - 1, fSAT ||| fNX)
      | .num s n d e => if n = 0 then (0, 0#5) else roundTaper w es rm u s n d e
    | none =>
      match f with
      | .h4 =>
        match v with
        | .nan _ => (0, fNV)
        | .inf s => ((if s then 8 else 7), fSAT ||| fNX)
        | .num s n d e => roundH4 s n d e
      | _ =>
        match v with
        | .nan _ => (0, fNV)
        | .inf s => ((clampInt f (if s then (intBounds f).1 else (intBounds f).2)).1, fSAT ||| fNX)
        | .num s n d e => roundInt f rm u s n d e

/-! ### Exact arithmetic -/

/-- A sum of two values, exact; a zero sum of numbers of unlike sign is `+0`, under `.rd` `-0`. `none`: no value,
invalid. -/
def Val.add (rm : BitVec 3) (a b : Val) : Val × BitVec 5 :=
  match a, b with
  | .nan x, y => (.nan false, flagIf (x || y.isSig) fNV)
  | x, .nan y => (.nan false, flagIf (x.isSig || y) fNV)
  | .inf x, .inf y => if x = y then (.inf x, 0#5) else (.nan false, fNV)
  | .inf x, .num _ _ _ _ => (.inf x, 0#5)
  | .num _ _ _ _, .inf y => (.inf y, 0#5)
  | .num s n d e, .num t m f g =>
    let q := min e g
    let x : Int := (n * f * pow2 (e - q) : Nat)
    let y : Int := (m * d * pow2 (g - q) : Nat)
    let z := (if s then -x else x) + (if t then -y else y)
    if z = 0 then (.num (if s = t then s else rm.toNat == 2) 0 1 0, 0#5)
    else (.num (z < 0) z.natAbs (d * f) q, 0#5)

/-- A product of two values, exact. -/
def Val.mul (a b : Val) : Val × BitVec 5 :=
  match a, b with
  | .nan x, y => (.nan false, flagIf (x || y.isSig) fNV)
  | x, .nan y => (.nan false, flagIf (x.isSig || y) fNV)
  | .inf x, .inf y => (.inf (x != y), 0#5)
  | .inf x, .num t m _ _ => if m = 0 then (.nan false, fNV) else (.inf (x != t), 0#5)
  | .num s n _ _, .inf y => if n = 0 then (.nan false, fNV) else (.inf (s != y), 0#5)
  | .num s n d e, .num t m f g => (.num (s != t) (n * m) (d * f) (e + g), 0#5)

/-- A quotient of two values, exact: IEEE division. -/
def Val.div (a b : Val) : Val × BitVec 5 :=
  match a, b with
  | .nan x, y => (.nan false, flagIf (x || y.isSig) fNV)
  | x, .nan y => (.nan false, flagIf (x.isSig || y) fNV)
  | .inf _, .inf _ => (.nan false, fNV)
  | .inf x, .num t _ _ _ => (.inf (x != t), 0#5)
  | .num s _ _ _, .inf y => (.num (s != y) 0 1 0, 0#5)
  | .num s n d e, .num t m f g =>
    if m = 0 then (if n = 0 then (.nan false, fNV) else (.inf (s != t), 0#5))
    else (.num (s != t) (n * f) (d * m) (e - g), 0#5)

/-- A value times a power of two. -/
def Val.scale (v : Val) (k : Int) : Val :=
  match v with
  | .num s n d e => .num s n d (e + k)
  | x => x

/-! ### Random bits (R98) -/

/-- The mixing of R98 and R275 after the inputs are combined. -/
def mixBits (x : Word) : Word :=
  let x := (x ^^^ (x >>> 30)) * 0xBF58476D1CE4E5B9#64
  let x := (x ^^^ (x >>> 27)) * 0x94D049BB133111EB#64
  x ^^^ (x >>> 31)

/-- The random bits of a stochastic rounding (R98). -/
def srBits (seed tid n i : Word) : Nat :=
  bitsOf' (mixBits ((seed ^^^ (tid * 0x9E3779B97F4A7C15#64)) + n * 0xD1B54A32D192ED03#64 + i * 0x8CB92BA72F3D8DD7#64))
where
  bitsOf' (x : Word) : Nat := (x.extractLsb' 32 32).toNat

/-! ### Sub-elements (R84) -/

/-- Sub-element `i` of a register, as a code. -/
def subOf (f : EFmt) (v : Word) (i : Nat) : Nat := (v.toNat / 2 ^ (f.width * i)) % 2 ^ f.width

/-- The register whose sub-elements are the codes of a list, lowest first; the bits above them are zero. -/
def packSubs (f : EFmt) (cs : List Nat) : Word :=
  BitVec.ofNat 64 (cs.foldr (fun c a => c % 2 ^ f.width + 2 ^ f.width * a) 0)

/-- A register made sub-element by sub-element, with the flags that arise. -/
def mapSubs (f : EFmt) (g : Nat → Nat × BitVec 5) : Word × BitVec 5 :=
  let xs := (List.range f.count).map g
  (packSubs f (xs.map (·.1)), xs.foldl (fun a x => a ||| x.2) 0#5)

/-! ### Trees and ranking (R105, R107) -/

/-- One pass of a tree over adjacent pairs. -/
def treePass {α : Type} (op : α → α → α) : List α → List α
  | x :: y :: r => op x y :: treePass op r
  | l => l

/-- The tree of R105: `fuel` passes, enough when it is the list's length. -/
def treeFold {α : Type} (op : α → α → α) (zero : α) : Nat → List α → α
  | _, [] => zero
  | _, [x] => x
  | 0, x :: _ => x
  | n + 1, l => treeFold op zero n (treePass op l)

/-- The rank order of values (R107): NaNs lowest and equal, then from −∞ up; zeros equal. -/
def rankCmp (a b : Val) : Ordering :=
  match a.isNan, b.isNan with
  | true, true => .eq
  | true, false => .lt
  | false, true => .gt
  | false, false => a.cmp b

end Sys2Proof.Machine
end

