-- ==== Sys2Proof/Machine/Integer.lean ====
section
/-!
DEFINITION. Integer and address instructions, 0x20–0x2E (R156–R168).
-/

namespace Sys2Proof.Machine

/-- Sub-element `i` of source b (R157): where b is coded 29, the 5-bit value of x, sign-extended to the width of
an integer type and converted exactly into another format. -/
def Ctx.subB (c : Ctx) (f : EFmt) (o : Opnds) (j i : Nat) : Nat :=
  if o.b.toNat = 29 then
    (if f.isInt then wrapInt f o.x.toInt else (encodeVal f 0#3 false 0 (.ofInt o.x.toInt)).1)
  else subOf f (c.src o.b o.x j) i

/-- A code of an integer type as its value (R160). -/
def intOf (f : EFmt) (code : Nat) : Int := if fmtSigned f then signedOf f.width code else (code % 2 ^ f.width : Nat)

/-- An exact integer result as an element: wrapped, or with `.sat` clamped (R82, R160). -/
def intResult (f : EFmt) (sat : BitVec 1) (r : Int) : Nat × BitVec 5 :=
  if sat == 1#1 then ((clampInt f r).1, flagIf (clampInt f r).2 fSAT) else (wrapInt f r, 0#5)

/-- Element-wise execution over two sources (R157). -/
def Ctx.elem2 (c : Ctx) (f : EFmt) (o : Opnds) (g : Nat → Nat → Nat × BitVec 5) (j : Nat) : Word × BitVec 5 :=
  mapSubs f fun i => g (subOf f (c.src o.a o.x j) i) (c.subB f o j i)

/-- Element-wise execution over three sources, the third named by x (R157). -/
def Ctx.elem3 (c : Ctx) (f : EFmt) (o : Opnds) (g : Nat → Nat → Nat → Nat × BitVec 5) (j : Nat) : Word × BitVec 5 :=
  mapSubs f fun i => g (subOf f (c.src o.a o.x j) i) (subOf f (c.src o.b o.x j) i) (subOf f (c.src o.x o.x j) i)

/-- Element-wise execution over one source (R157). -/
def Ctx.elem1 (c : Ctx) (f : EFmt) (a : BitVec 5) (g : Nat → Nat × BitVec 5) (j : Nat) : Word × BitVec 5 :=
  mapSubs f fun i => g (subOf f (c.src a 0#5 j) i)

/-- `mulhi`: the upper half of the exact product (R160). -/
def mulHigh (f : EFmt) (a b : Nat) : Nat := wrapInt f (intOf f a * intOf f b / (2 ^ f.width : Nat))

/-- `add.IT` (R160). -/
def execAdd (o : Opnds) (ity : BitVec 3) (sat : BitVec 1) (s : State) : Host.Outcome State Fault Refusal :=
  s.issue (.add o ity sat) fun s c => c.vec s o.k o.d [o.a, o.b] <|
    c.elem2 (ityFmt ity) o fun a b => intResult (ityFmt ity) sat (intOf (ityFmt ity) a + intOf (ityFmt ity) b)

/-- `sub.IT` (R160). -/
def execSub (o : Opnds) (ity : BitVec 3) (sat : BitVec 1) (s : State) : Host.Outcome State Fault Refusal :=
  s.issue (.sub o ity sat) fun s c => c.vec s o.k o.d [o.a, o.b] <|
    c.elem2 (ityFmt ity) o fun a b => intResult (ityFmt ity) sat (intOf (ityFmt ity) a - intOf (ityFmt ity) b)

/-- `min.IT` (R160). -/
def execMin (o : Opnds) (ity : BitVec 3) (s : State) : Host.Outcome State Fault Refusal :=
  s.issue (.min o ity) fun s c => c.vec s o.k o.d [o.a, o.b] <|
    c.elem2 (ityFmt ity) o fun a b => (if intOf (ityFmt ity) b < intOf (ityFmt ity) a then b else a, 0#5)

/-- `max.IT` (R160). -/
def execMax (o : Opnds) (ity : BitVec 3) (s : State) : Host.Outcome State Fault Refusal :=
  s.issue (.max o ity) fun s c => c.vec s o.k o.d [o.a, o.b] <|
    c.elem2 (ityFmt ity) o fun a b => (if intOf (ityFmt ity) a < intOf (ityFmt ity) b then b else a, 0#5)

/-- `mul.IT` (R160). -/
def execMul (o : Opnds) (ity : BitVec 3) (sat : BitVec 1) (s : State) : Host.Outcome State Fault Refusal :=
  s.issue (.mul o ity sat) fun s c => c.vec s o.k o.d [o.a, o.b] <|
    c.elem2 (ityFmt ity) o fun a b => intResult (ityFmt ity) sat (intOf (ityFmt ity) a * intOf (ityFmt ity) b)

/-- `mulhi.IT` (R160). -/
def execMulhi (o : Opnds) (ity : BitVec 3) (s : State) : Host.Outcome State Fault Refusal :=
  s.issue (.mulhi o ity) fun s c => c.vec s o.k o.d [o.a, o.b] <|
    c.elem2 (ityFmt ity) o fun a b => (mulHigh (ityFmt ity) a b, 0#5)

/-- `mad.IT` (R160). -/
def execMad (o : Opnds) (ity : BitVec 3) (sat : BitVec 1) (s : State) : Host.Outcome State Fault Refusal :=
  s.issue (.mad o ity sat) fun s c => c.vec s o.k o.d [o.a, o.b, o.x] <|
    c.elem3 (ityFmt ity) o fun a b d =>
      intResult (ityFmt ity) sat (intOf (ityFmt ity) a * intOf (ityFmt ity) b + intOf (ityFmt ity) d)

/-- `and` (R161). -/
def execAnd (o : Opnds) (s : State) : Host.Outcome State Fault Refusal :=
  s.issue (.and o) fun s c => c.pure s o.k o.d [o.a, o.b] fun j => c.src o.a o.x j &&& c.src o.b o.x j

/-- `or` (R161). -/
def execOr (o : Opnds) (s : State) : Host.Outcome State Fault Refusal :=
  s.issue (.or o) fun s c => c.pure s o.k o.d [o.a, o.b] fun j => c.src o.a o.x j ||| c.src o.b o.x j

/-- `xor` (R161). -/
def execXor (o : Opnds) (s : State) : Host.Outcome State Fault Refusal :=
  s.issue (.xor o) fun s c => c.pure s o.k o.d [o.a, o.b] fun j => c.src o.a o.x j ^^^ c.src o.b o.x j

/-- `andn` (R161). -/
def execAndn (o : Opnds) (s : State) : Host.Outcome State Fault Refusal :=
  s.issue (.andn o) fun s c => c.pure s o.k o.d [o.a, o.b] fun j => c.src o.a o.x j &&& ~~~c.src o.b o.x j

/-- `sel` (R161). -/
def execSel (o : Opnds) (s : State) : Host.Outcome State Fault Refusal :=
  s.issue (.sel o) fun s c => c.pure s o.k o.d [o.a, o.b, o.x] fun j =>
    (c.src o.a o.x j &&& c.src o.x o.x j) ||| (c.src o.b o.x j &&& ~~~c.src o.x o.x j)

/-- `shl.IT` (R162). -/
def execShl (o : Opnds) (ity : BitVec 3) (s : State) : Host.Outcome State Fault Refusal :=
  s.issue (.shl o ity) fun s c => c.vec s o.k o.d [o.a, o.b] <|
    c.elem2 (ityFmt ity) o fun a b => (a * 2 ^ (b % (ityFmt ity).width) % 2 ^ (ityFmt ity).width, 0#5)

/-- `shr.IT` (R162). -/
def execShr (o : Opnds) (ity : BitVec 3) (s : State) : Host.Outcome State Fault Refusal :=
  s.issue (.shr o ity) fun s c => c.vec s o.k o.d [o.a, o.b] <|
    c.elem2 (ityFmt ity) o fun a b => (a / 2 ^ (b % (ityFmt ity).width), 0#5)

/-- `sar.IT` (R162): whatever the type's signedness, bit w − 1 fills. -/
def execSar (o : Opnds) (ity : BitVec 3) (s : State) : Host.Outcome State Fault Refusal :=
  s.issue (.sar o ity) fun s c => c.vec s o.k o.d [o.a, o.b] <|
    c.elem2 (ityFmt ity) o fun a b =>
      (wrapInt (ityFmt ity) (signedOf (ityFmt ity).width a / (2 ^ (b % (ityFmt ity).width) : Nat)), 0#5)

/-- `rot.IT` (R162). -/
def execRot (o : Opnds) (ity : BitVec 3) (s : State) : Host.Outcome State Fault Refusal :=
  s.issue (.rot o ity) fun s c => c.vec s o.k o.d [o.a, o.b] <|
    c.elem2 (ityFmt ity) o fun a b =>
      let w := (ityFmt ity).width
      (a * 2 ^ (b % w) % 2 ^ w + a / 2 ^ (w - b % w), 0#5)

/-- The number of zero bits above the highest one bit of a `w`-bit code (R162). -/
def clzOf (w a : Nat) : Nat := if a = 0 then w else w - 1 - Nat.log2 a

/-- The number of zero bits below the lowest one bit of a `w`-bit code (R162). -/
def ctzOf (w a : Nat) : Nat := ((List.range w).find? fun i => a.testBit i).getD w

/-- The number of one bits of a `w`-bit code (R162). -/
def popcOf (w a : Nat) : Nat := ((List.range w).filter fun i => a.testBit i).length

/-- A `w`-bit code with bit j moved to bit w − 1 − j (R162). -/
def brevOf (w a : Nat) : Nat :=
  (List.range w).foldl (fun x i => 2 * x + (if a.testBit i then 1 else 0)) 0

/-- `clz.IT` (R162). -/
def execClz (k : BitVec 3) (d a : BitVec 5) (ity : BitVec 3) (s : State) : Host.Outcome State Fault Refusal :=
  s.issue (.clz k d a ity) fun s c => c.vec s k d [a] <|
    c.elem1 (ityFmt ity) a fun x => (clzOf (ityFmt ity).width x, 0#5)

/-- `ctz.IT` (R162). -/
def execCtz (k : BitVec 3) (d a : BitVec 5) (ity : BitVec 3) (s : State) : Host.Outcome State Fault Refusal :=
  s.issue (.ctz k d a ity) fun s c => c.vec s k d [a] <|
    c.elem1 (ityFmt ity) a fun x => (ctzOf (ityFmt ity).width x, 0#5)

/-- `popc.IT` (R162). -/
def execPopc (k : BitVec 3) (d a : BitVec 5) (ity : BitVec 3) (s : State) : Host.Outcome State Fault Refusal :=
  s.issue (.popc k d a ity) fun s c => c.vec s k d [a] <|
    c.elem1 (ityFmt ity) a fun x => (popcOf (ityFmt ity).width x, 0#5)

/-- `brev.IT` (R162). -/
def execBrev (k : BitVec 3) (d a : BitVec 5) (ity : BitVec 3) (s : State) : Host.Outcome State Fault Refusal :=
  s.issue (.brev k d a ity) fun s c => c.vec s k d [a] <|
    c.elem1 (ityFmt ity) a fun x => (brevOf (ityFmt ity).width x, 0#5)

/-- A comparison code's condition on the order of A and B (R163). -/
def ccHolds (cc : BitVec 3) (a b : Int) : Bool :=
  match cc.toNat with
  | 0 => a == b
  | 1 => a != b
  | 2 => a < b
  | 3 => a ≤ b
  | 4 => b < a
  | _ => b ≤ a

/-- `cmp.CC.IT` (R163). -/
def execCmp (o : Opnds) (ity : BitVec 3) (cc : BitVec 3) (s : State) : Host.Outcome State Fault Refusal :=
  s.issue (.cmp o ity cc) fun s c => c.vec s o.k o.d [o.a, o.b] <|
    c.elem2 (ityFmt ity) o fun a b =>
      (if ccHolds cc (intOf (ityFmt ity) a) (intOf (ityFmt ity) b) then 2 ^ (ityFmt ity).width - 1 else 0, 0#5)

/-- `abs.IT` (R164). -/
def execAbs (k : BitVec 3) (d a : BitVec 5) (ity : BitVec 3) (sat : BitVec 1) (s : State) :
    Host.Outcome State Fault Refusal :=
  s.issue (.abs k d a ity sat) fun s c => c.vec s k d [a] <|
    c.elem1 (ityFmt ity) a fun x => intResult (ityFmt ity) sat (intOf (ityFmt ity) x).natAbs

/-- `neg.IT` (R164). -/
def execNeg (k : BitVec 3) (d a : BitVec 5) (ity : BitVec 3) (sat : BitVec 1) (s : State) :
    Host.Outcome State Fault Refusal :=
  s.issue (.neg k d a ity sat) fun s c => c.vec s k d [a] <|
    c.elem1 (ityFmt ity) a fun x => intResult (ityFmt ity) sat (-intOf (ityFmt ity) x)

/-- The field of `len` bits from bit `p` of a register, extended (R165). -/
def extField (sx : Bool) (p len : Nat) (v : Word) : Word :=
  let f := v.toNat / 2 ^ p % 2 ^ len
  if sx then BitVec.ofInt 64 (signedOf len f) else BitVec.ofNat 64 f

/-- A register with the field of `len` bits from bit `p` replaced (R165). -/
def insField (p len : Nat) (old v : Word) : Word :=
  let m : Word := BitVec.ofNat 64 ((2 ^ len - 1) * 2 ^ p)
  (old &&& ~~~m) ||| ((v <<< p) &&& m)

/-- `ext[.sx]` (R165). -/
def execExt (k : BitVec 3) (d a : BitVec 5) (sx : BitVec 1) (lenm p : BitVec 6) (s : State) :
    Host.Outcome State Fault Refusal :=
  s.issue (.ext k d a sx lenm p) fun s c => c.pure s k d [a] fun j =>
    extField (sx == 1#1) p.toNat (lenm.toNat + 1) (c.src a 0#5 j)

/-- `ins` (R165): the destination is a source too. -/
def execIns (k : BitVec 3) (d a : BitVec 5) (lenm p : BitVec 6) (s : State) : Host.Outcome State Fault Refusal :=
  s.issue (.ins k d a lenm p) fun s c => c.pure s k d [a] fun j =>
    insField p.toNat (lenm.toNat + 1) (c.src d 0#5 j) (c.src a 0#5 j)

/-- `movi` (R166). -/
def execMovi (k : BitVec 3) (d : BitVec 5) (imm : BitVec 16) (s : State) : Host.Outcome State Fault Refusal :=
  s.issue (.movi k d imm) fun s c => c.pure s k d [] fun _ => imm.signExtend 64

/-- `movh` (R166). -/
def execMovh (k : BitVec 3) (d a : BitVec 5) (imm : BitVec 16) (s : State) : Host.Outcome State Fault Refusal :=
  s.issue (.movh k d a imm) fun s c => c.pure s k d [a] fun j => (c.src a 0#5 j <<< 16) ||| imm.setWidth 64

/-- `addi` (R166). -/
def execAddi (k : BitVec 3) (d a : BitVec 5) (imm : BitVec 16) (s : State) : Host.Outcome State Fault Refusal :=
  s.issue (.addi k d a imm) fun s c => c.pure s k d [a] fun j => c.src a 0#5 j + imm.signExtend 64

/-- `lea.SH` (R166). -/
def execLea (o : Opnds) (sh : BitVec 3) (s : State) : Host.Outcome State Fault Refusal :=
  s.issue (.lea o sh) fun s c => c.pure s o.k o.d [o.a, o.b] fun j =>
    c.src o.a o.x j + (c.src o.b o.x j <<< sh.toNat)

/-- A conversion's placement (R168): the destination after part `part` of `src` is converted into it. -/
def convertParts (src dst : EFmt) (part : Nat) (a old : Word) (g : Nat → Nat → Nat × BitVec 5) : Word × BitVec 5 :=
  if dst.count ≤ src.count then
    mapSubs dst fun i =>
      if part * dst.count + i < src.count then g i (subOf src a (part * dst.count + i)) else (0, 0#5)
  else
    mapSubs dst fun j =>
      if part * src.count ≤ j && j < (part + 1) * src.count then g j (subOf src a (j - part * src.count))
      else (subOf dst old j, 0#5)

/-- `icvt` (R167, R168). -/
def execIcvt (k : BitVec 3) (d a : BitVec 5) (dst src : BitVec 3) (sat : BitVec 1) (part : BitVec 3) (s : State) :
    Host.Outcome State Fault Refusal :=
  s.issue (.icvt k d a dst src sat part) fun s c => c.vec s k d [a] fun j =>
    convertParts (ityFmt src) (ityFmt dst) part.toNat (c.src a 0#5 j) (c.src d 0#5 j) fun _ x =>
      intResult (ityFmt dst) sat (intOf (ityFmt src) x)

end Sys2Proof.Machine
end

