-- ==== Sys2Proof/Machine/Float.lean ====
section
/-!
DEFINITION. Float instructions, 0x38–0x43 (R169–R176).
-/

namespace Sys2Proof.Machine

/-- The random bits of a stochastic rounding of the instruction that issues (R98, R99, R192): the thread's count
is its SRN and the stochastic instructions before this one in its run. -/
def Ctx.random (c : Ctx) (j i : Nat) : Nat :=
  srBits c.l.card.seed (c.own.tids.getD j 0#64)
    (Tab.get 0#64 c.own.srn j + BitVec.ofNat 64 (Tab.get 0 c.r.srs j)) (BitVec.ofNat 64 i)

/-- A run after an instruction that rounds under `rm`: a stochastic one counts once in each lane it names (R99). -/
def Run.rounded (r : Run) (rm : BitVec 3) (m : Mask) : Run :=
  if rm.toNat = 4 then
    { r with srs := m.toList.foldl (fun t j => Tab.set 0 t j (Tab.get 0 t j + 1)) r.srs }
  else r

/-- A vector instruction that rounds under `rm` (R157, R99). -/
def Ctx.vecR (c : Ctx) (s : State) (k : BitVec 3) (d : BitVec 5) (uses : List (BitVec 5)) (rm : BitVec 3)
    (f : Nat → Word × BitVec 5) : Issue :=
  match c.vec s k d uses f with
  | .go s r => .go s (r.rounded rm ((c.mask k).getD 0#32))
  | x => x

/-- The result of an arithmetic form: the exact value rounded once, with the flags of the operation and of the
rounding (R171). -/
def floatResult (f : EFmt) (rm : BitVec 3) (ftz : BitVec 1) (u : Nat) (v : Val × BitVec 5) : Nat × BitVec 5 :=
  let r := encodeVal f rm (ftz == 1#1) u v.1
  (r.1, r.2 ||| v.2)

/-- A two-source arithmetic form (R171). -/
def Ctx.float2 (c : Ctx) (o : Opnds) (f : EFmt) (rm : BitVec 3) (ftz : BitVec 1) (g : Val → Val → Val × BitVec 5)
    (j : Nat) : Word × BitVec 5 :=
  mapSubs f fun i =>
    floatResult f rm ftz (c.random j i)
      (g (decodeFtz f (ftz == 1#1) (subOf f (c.src o.a o.x j) i)) (decodeFtz f (ftz == 1#1) (c.subB f o j i)))

/-- A three-source arithmetic form (R171). -/
def Ctx.float3 (c : Ctx) (o : Opnds) (f : EFmt) (rm : BitVec 3) (ftz : BitVec 1)
    (g : Val → Val → Val → Val × BitVec 5) (j : Nat) : Word × BitVec 5 :=
  mapSubs f fun i =>
    floatResult f rm ftz (c.random j i)
      (g (decodeFtz f (ftz == 1#1) (subOf f (c.src o.a o.x j) i))
        (decodeFtz f (ftz == 1#1) (subOf f (c.src o.b o.x j) i))
        (decodeFtz f (ftz == 1#1) (subOf f (c.src o.x o.x j) i)))

/-- A product and a sum rounded once (R171). -/
def mulAdd (rm : BitVec 3) (minus : Bool) (a b d : Val) : Val × BitVec 5 :=
  let p := a.mul b
  let q := (if minus then p.1.flip else p.1).add rm d
  (q.1, p.2 ||| q.2)

/-- `fadd.FT` (R171). -/
def execFadd (o : Opnds) (ty : BitVec 2) (rm : BitVec 3) (ftz : BitVec 1) (s : State) :
    Host.Outcome State Fault Refusal :=
  s.issue (.fadd o ty rm ftz) fun s c => c.vecR s o.k o.d [o.a, o.b] rm <|
    c.float2 o (tyFmt ty) rm ftz fun a b => a.add rm b

/-- `fsub.FT` (R171). -/
def execFsub (o : Opnds) (ty : BitVec 2) (rm : BitVec 3) (ftz : BitVec 1) (s : State) :
    Host.Outcome State Fault Refusal :=
  s.issue (.fsub o ty rm ftz) fun s c => c.vecR s o.k o.d [o.a, o.b] rm <|
    c.float2 o (tyFmt ty) rm ftz fun a b => a.add rm b.flip

/-- `fmul.FT` (R171). -/
def execFmul (o : Opnds) (ty : BitVec 2) (rm : BitVec 3) (ftz : BitVec 1) (s : State) :
    Host.Outcome State Fault Refusal :=
  s.issue (.fmul o ty rm ftz) fun s c => c.vecR s o.k o.d [o.a, o.b] rm <|
    c.float2 o (tyFmt ty) rm ftz Val.mul

/-- `fma.FT` (R171). -/
def execFma (o : Opnds) (ty : BitVec 2) (rm : BitVec 3) (ftz : BitVec 1) (s : State) :
    Host.Outcome State Fault Refusal :=
  s.issue (.fma o ty rm ftz) fun s c => c.vecR s o.k o.d [o.a, o.b, o.x] rm <|
    c.float3 o (tyFmt ty) rm ftz (mulAdd rm false)

/-- `fnma.FT` (R171). -/
def execFnma (o : Opnds) (ty : BitVec 2) (rm : BitVec 3) (ftz : BitVec 1) (s : State) :
    Host.Outcome State Fault Refusal :=
  s.issue (.fnma o ty rm ftz) fun s c => c.vecR s o.k o.d [o.a, o.b, o.x] rm <|
    c.float3 o (tyFmt ty) rm ftz (mulAdd rm true)

/-- The code of an operand as FTZ leaves it (R100). -/
def flushCode (f : EFmt) (ftz : Bool) (code : Nat) : Nat :=
  match ieeeOf f with
  | some p => if ftz && p.isSub code then code / 2 ^ (p.width - 1) % 2 * 2 ^ (p.width - 1) else code
  | none => code

/-- The canonical NaN of a float format (R101). -/
def nanCode (f : EFmt) : Nat := (encodeVal f 0#3 false 0 (.nan false)).1

/-- `fmin` and `fmax` of two codes (R172): −0 below +0, a NaN gives way to a number. -/
def minMax (f : EFmt) (ftz big : Bool) (x y : Nat) : Nat × BitVec 5 :=
  let a := flushCode f ftz x
  let b := flushCode f ftz y
  let va := decodeVal f a
  let vb := decodeVal f b
  let fl := flagIf (va.isSig || vb.isSig) fNV
  match va.isNan, vb.isNan with
  | true, true => (nanCode f, fl)
  | true, false => (b, fl)
  | false, true => (a, fl)
  | false, false =>
    let lt := va.cmp vb == .lt || (va.cmp vb == .eq && va.neg && !vb.neg)
    ((if big then (if lt then b else a) else (if lt then a else b)), fl)

/-- `fmin.FT` (R172). -/
def execFmin (o : Opnds) (ty : BitVec 2) (ftz : BitVec 1) (s : State) : Host.Outcome State Fault Refusal :=
  s.issue (.fmin o ty ftz) fun s c => c.vec s o.k o.d [o.a, o.b] <|
    c.elem2 (tyFmt ty) o (minMax (tyFmt ty) (ftz == 1#1) false)

/-- `fmax.FT` (R172). -/
def execFmax (o : Opnds) (ty : BitVec 2) (ftz : BitVec 1) (s : State) : Host.Outcome State Fault Refusal :=
  s.issue (.fmax o ty ftz) fun s c => c.vec s o.k o.d [o.a, o.b] <|
    c.elem2 (tyFmt ty) o (minMax (tyFmt ty) (ftz == 1#1) true)

/-- The rounded sum of two codes with their flags, as a tree adds them (R105). -/
def treeAdd (f : EFmt) (rm : BitVec 3) (ftz : BitVec 1) (x y : Nat × BitVec 5) : Nat × BitVec 5 :=
  let r := floatResult f rm ftz 0 ((decodeVal f x.1).add rm (decodeVal f y.1))
  (r.1, r.2 ||| x.2 ||| y.2)

/-- An element of a tree's list as a source (R105): flushed, a NaN canonical, a signalling NaN invalid. -/
def treeSource (f : EFmt) (ftz : BitVec 1) (x : Nat) : Nat × BitVec 5 :=
  let c := flushCode f (ftz == 1#1) x
  let v := decodeVal f c
  if v.isNan then (nanCode f, flagIf v.isSig fNV) else (c, 0#5)

/-- The tree sum of a list of codes (R105). -/
def treeSum (f : EFmt) (rm : BitVec 3) (ftz : BitVec 1) (xs : List Nat) : Nat × BitVec 5 :=
  treeFold (treeAdd f rm ftz) (0, 0#5) xs.length (xs.map (treeSource f ftz))

/-- `fdot2` in one lane (R174). -/
def dot2 (f : EFmt) (rm : BitVec 3) (ftz : BitVec 1) (a b d : Word) : Word × BitVec 5 :=
  let p := (List.range f.count).map fun i =>
    floatResult .f32 rm ftz 0
      ((decodeFtz f (ftz == 1#1) (subOf f a i)).mul (decodeFtz f (ftz == 1#1) (subOf f b i)))
  let r := treeSum .f32 rm ftz (p.map (·.1) ++ [subOf .f32 d 0])
  (packSubs .f32 [r.1, 0], p.foldl (fun x y => x ||| y.2) r.2)

/-- `fdot2.FT` (R174). -/
def execFdot2 (o : Opnds) (ty : BitVec 2) (rm : BitVec 3) (ftz : BitVec 1) (s : State) :
    Host.Outcome State Fault Refusal :=
  s.issue (.fdot2 o ty rm ftz) fun s c => c.vec s o.k o.d [o.a, o.b, o.x] fun j =>
    dot2 (tyFmt ty) rm ftz (c.src o.a o.x j) (c.src o.b o.x j) (c.src o.x o.x j)

/-- The sign operations on a code (R102, R173): `want` is the sign the result shall have, given that of A. -/
def signOp (f : EFmt) (a : Nat) (want : Bool → Bool) : Nat :=
  match f with
  | .h4 => if want (a.testBit 3) = a.testBit 3 then a else (15 - a) % 16
  | _ =>
    let w := f.width
    if ((taperOf f).isSome && a % 2 ^ (w - 1) == 0) then a
    else a % 2 ^ (w - 1) + (if want (a.testBit (w - 1)) then 2 ^ (w - 1) else 0)

/-- `fsgn.OPC.FMT` (R173). -/
def execFsgn (o : Opnds) (efmt : BitVec 4) (opc : BitVec 2) (s : State) : Host.Outcome State Fault Refusal :=
  s.issue (.fsgn o efmt opc) fun s c =>
    c.vec s o.k o.d (if opc.toNat = 2 then [o.a, o.b] else [o.a]) <|
      c.elem2 (EFmt.ofCode efmt) o fun a b =>
        (signOp (EFmt.ofCode efmt) a fun sg =>
          match opc.toNat with
          | 0 => !sg
          | 1 => false
          | _ => b.testBit ((EFmt.ofCode efmt).width - 1), 0#5)

/-- A code rounded to an integral value of its format (R171). -/
def integral (f : EFmt) (rm : BitVec 3) (ftz : BitVec 1) (u a : Nat) : Nat × BitVec 5 :=
  match decodeFtz f (ftz == 1#1) a with
  | .num s n d e =>
    let x := roundAt rm s n d e 0 u
    ((encodeVal f 0#3 false 0 (.num s x.1 1 0)).1, flagIf x.2 fNX)
  | v => encodeVal f 0#3 false 0 v

/-- `frnd.FT` (R171). -/
def execFrnd (k : BitVec 3) (d a : BitVec 5) (ty : BitVec 2) (rm : BitVec 3) (ftz : BitVec 1) (s : State) :
    Host.Outcome State Fault Refusal :=
  s.issue (.frnd k d a ty rm ftz) fun s c => c.vecR s k d [a] rm fun j =>
    mapSubs (tyFmt ty) fun i => integral (tyFmt ty) rm ftz (c.random j i) (subOf (tyFmt ty) (c.src a 0#5 j) i)

/-- The scale of `fscl` (R171), within bounds beyond which every format over- or underflows. -/
def scaleOf (f : EFmt) (code : Nat) : Int := max (-5000) (min 5000 (signedOf f.width code))

/-- `fscl.FT` (R171). -/
def execFscl (o : Opnds) (ty : BitVec 2) (rm : BitVec 3) (ftz : BitVec 1) (s : State) :
    Host.Outcome State Fault Refusal :=
  s.issue (.fscl o ty rm ftz) fun s c => c.vecR s o.k o.d [o.a, o.b] rm fun j =>
    mapSubs (tyFmt ty) fun i =>
      let v := decodeFtz (tyFmt ty) (ftz == 1#1) (subOf (tyFmt ty) (c.src o.a o.x j) i)
      let n := if o.b.toNat = 29 then o.x.toInt else scaleOf (tyFmt ty) (subOf (tyFmt ty) (c.src o.b o.x j) i)
      floatResult (tyFmt ty) rm ftz (c.random j i) (v.scale n, 0#5)

/-- `fcvt.DST.SRC` (R175, R176). -/
def execFcvt (k : BitVec 3) (d a : BitVec 5) (dst src : BitVec 4) (rm : BitVec 3) (ftz : BitVec 1) (part : BitVec 4)
    (s : State) : Host.Outcome State Fault Refusal :=
  s.issue (.fcvt k d a dst src rm ftz part) fun s c => c.vecR s k d [a] rm fun j =>
    convertParts (EFmt.ofCode src) (EFmt.ofCode dst) part.toNat (c.src a 0#5 j) (c.src d 0#5 j) fun i x =>
      encodeVal (EFmt.ofCode dst) rm (ftz == 1#1) (c.random j i) (decodeFtz (EFmt.ofCode src) (ftz == 1#1) x)

end Sys2Proof.Machine
end

