-- ==== Sys2Proof/Machine/Block.lean ====
section
/-!
DEFINITION. Elements in memory: their places in a page, MX32 blocks and their scales, and what plain and formatted
writes stage (R89–R94, R108, R109, R133, R135–R138).
-/

namespace Sys2Proof.Machine

/-! ### Blocks (R89–R93) -/

/-- The bytes of a block (R94). -/
def blockLen (f : EFmt) : Nat := 4 * f.width

/-- The exact value of an element of a block under a scale byte (R90). -/
def blockVal (f : EFmt) (scale code : Nat) : Val :=
  if scale = 255 then .nan false
  else match decodeVal f code with
    | .nan _ => .nan false
    | v => v.scale ((scale : Int) - 127)

/-- The exponent of the largest element (R91). -/
def blockExp : EFmt → Int
  | .t8 => 4 | .t6 => 2 | .h4 => 3 | _ => 7

/-- The ceiling of the base-2 logarithm of a positive number `n / d · 2^e`. -/
def ceilLog2 (n d : Nat) (e : Int) : Int :=
  let f := log2Ratio n d
  e + (if cmpMag n d 0 1 1 f = .eq then f else f + 1)

/-- The scale that an encoder of a whole block chooses (R91): `none` for the NaN scale. -/
def chooseScale (f : EFmt) (xs : List Val) : Option Nat :=
  if (f = .h4 || f = .i8) && xs.any Val.isNan then none
  else
    let ms := (xs.filter fun v => !v.isNan).map Val.abs
    match ms with
    | [] => some 127
    | x :: r =>
      match r.foldl (fun a b => if a.cmp b == .lt then b else a) x with
      | .inf _ => some 254
      | .num _ n d e =>
        if n = 0 then some 127
        else some (min 254 (max 0 (ceilLog2 n d e - blockExp f + 127))).toNat
      | .nan _ => some 127

/-- A whole block encoded (R91): the scale, the codes and the flags. `us` are the random bits of the elements. -/
def encodeBlock (f : EFmt) (rm : BitVec 3) (ftz : Bool) (xs : List Val) (us : List Nat) : Nat × List Nat × BitVec 5 :=
  match chooseScale f xs with
  | none => (255, xs.map fun _ => 0, fNV)
  | some s =>
    let rs := (xs.zip us).map fun e => encodeVal f rm ftz e.2 (e.1.scale (127 - (s : Int)))
    (s, rs.map (·.1), rs.foldl (fun a r => a ||| r.2) 0#5)

/-- An element of a partial block write (R92). -/
def encodePartial (f : EFmt) (rm : BitVec 3) (ftz : Bool) (scale u : Nat) (v : Val) : Nat × BitVec 5 :=
  encodeVal f rm ftz u (v.scale (127 - (if scale = 255 then 127 else (scale : Int))))

/-! ### Bits of elements -/

/-- The code of the element of `w` bits that begins at a bit of a list of bytes (R94). -/
def bitsAt (bs : List Byte) (bit w : Nat) : Nat := bytesToNat bs / 2 ^ bit % 2 ^ w

/-- The byte writes that put a code of `w` bits at a bit offset from a physical address (R94, R138). -/
def bitWrites (pa bit w code : Nat) : List ByteWrite :=
  let lo := bit / 8
  let hi := (bit + w - 1) / 8
  let v := code % 2 ^ w * 2 ^ (bit % 8)
  let m := (2 ^ w - 1) * 2 ^ (bit % 8)
  (List.range (hi - lo + 1)).map fun i =>
    { pa := pa + lo + i, mask := BitVec.ofNat 8 (m / 2 ^ (8 * i)), val := BitVec.ofNat 8 (v / 2 ^ (8 * i)) }

/-- The element that a page offset begins (R135). -/
def elementAt (f : EFmt) (p : Nat) : Option Nat :=
  match f with
  | .h4 => some (2 * p)
  | .t6 => if p % 3 = 0 then some (4 * (p / 3)) else none
  | _ => if p % (f.width / 8) = 0 then some (p / (f.width / 8)) else none

/-- The number of elements in the whole groups or blocks of a page (R94, R136). -/
def elementCount (f : PageFmt) (size : Nat) : Nat :=
  if f.mx then 32 * (size / blockLen f.efmt)
  else match f.efmt with
    | .h4 => 2 * size
    | .t6 => 4 * (size / 3)
    | g => size / (g.width / 8)

/-! ### Blocks of a page -/

/-- The block of number `j` of a page: its bytes and its scale byte, translated for an access (R93, R109). The scale's
page must be readable, and writable for a writer. -/
def State.blockOf (s : State) (c t : Nat) (p : Page) (j : Nat) (acc : Access) : Except (Code × Word) Block × State :=
  let f := fmtOf p.fmt
  let sva := BitVec.ofInt 64 ((p.va : Int) + f.soff + j)
  match s.translate c t sva (if acc = .write then .modify else acc) with
  | (.error e, s) => (.error (e, sva), s)
  | (.ok q, s) => (.ok { efmt := f.efmt, data := p.pa + j * blockLen f.efmt, scale := q.phys sva.toNat }, s)

/-- Several blocks of a page, up to the first that fails. -/
def State.blocksOf (s : State) (c t : Nat) (p : Page) (acc : Access) :
    List Nat → Except (Code × Word) (List Block) × State
  | [] => (.ok [], s)
  | j :: r =>
    match s.blockOf c t p j acc with
    | (.error e, s) => (.error e, s)
    | (.ok b, s) =>
      match s.blocksOf c t p acc r with
      | (.error e, s) => (.error e, s)
      | (.ok bs, s) => (.ok (b :: bs), s)

/-- The sectors of a block and of its scale. -/
def Block.sectors (b : Block) : List Nat := sectorsOf b.data (blockLen b.efmt) ++ [b.scale / 32]

/-- An MX32 block's bytes as its home holds them. -/
def State.blockBytes (s : State) (b : Block) : List Byte := s.readBytes b.data (blockLen b.efmt)

/-! ### Staged writes -/

/-- Staged effects with one more; plain bytes join the bytes before them, home accesses the accesses before them. -/
def addHeld (hs : List Held) (h : Held) : List Held :=
  match hs with
  | [] => [h]
  | [x] =>
    match x, h with
    | .bytes na ws, .bytes nb vs => if na = nb then [.bytes na (ws ++ vs)] else [x, h]
    | .home i d m as, .home j _ _ bs => if i = j then [.home i d m (as ++ bs)] else [x, h]
    | _, _ => [x, h]
  | x :: r => x :: addHeld r h

/-- What a plain write of bytes at an address of a page stages (R132, R133): plain bytes, or one block write under the
identifier `id` where bytes fall in MX32 blocks (R198). The page of a scale must permit writes. Bytes beyond a page's last
whole block are in no block and have no scale: a store of such bytes alone is a plain write (DESIGN CHOICE, log 58). -/
def State.plainWrite (s : State) (c t id : Nat) (na : Bool) (p : Page) (va : Nat) (bs : List Byte) (hs : List Held) :
    Except (Code × Word) (List Held) × State :=
  let ws := (bs.zipIdx).map fun e => ({ pa := p.phys va + e.2, mask := 0xFF#8, val := e.1 } : ByteWrite)
  let f := fmtOf p.fmt
  if fmtBad p.fmt then (.error (.perm, BitVec.ofNat 64 va), s)
  else
    let js := if f.mx then
        ((ws.map fun w => (w.pa - p.pa) / blockLen f.efmt).foldl (fun l j => if l.contains j then l else l ++ [j]) []).filter
          fun j => j < p.size / blockLen f.efmt
      else []
    if js = [] then (.ok (addHeld hs (.bytes na ws)), s)
    else match s.blocksOf c t p .write js with
      | (.error e, s) => (.error e, s)
      | (.ok bks, s) => (.ok (addHeld hs (.home id 24#5 0#32 [.blockBytes bks ws])), s)

end Sys2Proof.Machine
end

