-- ==== Sys2Proof/Machine/Locate.lean ====
section
/-!
DEFINITION. What memory instructions share at issue: their traps, the addresses of their lanes, their request
entries (R113, R117, R130, R132, R335).
-/

namespace Sys2Proof.Machine

/-- A trap of the instruction that issues with the address that caused it (R349, R375). -/
def Ctx.trapAt (c : Ctx) (e : Code × Word) (acc : Access) : Trap :=
  match e.1 with
  | .align | .xlate | .perm => { c.trap e.1 (infoOf e.2) with kind := acc.kind, addr := e.2 }
  | code => c.trap code

/-- The tenant of the warp that issues. -/
def Ctx.tenant (c : Ctx) : Nat := c.l.tenant

/-- The thread of a lane (R336), by its name in the order of events. -/
def Ctx.thread (c : Ctx) (j : Nat) : Nat := c.own.names.getD j 0

/-- The group that a lane's thread joined first among those it belongs to, by its name (R333). A trap-handler warp
belongs to no group (R347). -/
def Ctx.groupName (c : Ctx) (s : State) (j : Nat) : Option (Nat × Nat) :=
  let k := (s.core c.w.core).asSeen
  let at_ : List (Nat × BitVec 24) × Nat := match c.own.kind with
    | .apply _ src =>
      (((Dict.find k.warps (src.getD j (0, 0, 0)).2.1).map fun (p : Warp) => p.groups).getD [], (src.getD j (0, 0, 0)).2.2)
    | _ => (if c.w.hnd then [] else c.own.groups, j)
  match at_.1.find? fun g => g.1 == at_.2 with
  | some g => (k.store[(g.2.extractLsb' 0 8).toNat]?).bind fun x => x.group
  | none => none

/-- The thread of the lowest live lane of a mask. -/
def Ctx.lowThread (c : Ctx) (m : Mask) : Nat := c.thread ((lowest m).getD 0)

/-- A global address checked and translated (R132): PERM of R113, ALIGN, XLATE, PERM of R120. -/
def State.locate (s : State) (c : Ctx) (a : Word) (size : Nat) (acc : Access) : Except (Code × Word) Page × State :=
  if bitsOf a 63 57 != 0 then (.error (.perm, a), s)
  else if a.toNat % size != 0 then (.error (.align, a), s)
  else match s.translate c.w.core c.tenant a acc with
    | (.error e, s) => (.error (e, a), s)
    | (.ok p, s) => (.ok p, s)

/-- Lanes located in ascending order, up to the first that traps (R132). -/
def State.locateAll (s : State) (c : Ctx) (size : Nat) (acc : Access) :
    List (Nat × Word) → Except (Code × Word) (List (Nat × Word × Page)) × State
  | [] => (.ok [], s)
  | x :: r =>
    match s.locate c x.2 size acc with
    | (.error e, s) => (.error e, s)
    | (.ok p, s) =>
      match s.locateAll c size acc r with
      | (.error e, s) => (.error e, s)
      | (.ok l, s) => (.ok ((x.1, x.2, p) :: l), s)

/-- An address offset (R132): the x field times the access size, or operand b. -/
def Ctx.offset (c : Ctx) (b x : BitVec 5) (size j : Nat) : Word :=
  if b.toNat = 29 then x.signExtend 64 * BitVec.ofNat 64 size else c.src b x j

/-- Request entries taken by a core for some sectors, one to each (R117): none where too few are free. -/
def State.takeReqs (s : State) (c id : Nat) (secs : List Nat) : Option State :=
  if secs = [] then some s
  else if (s.core c).reqs.foldl (fun t e => t + e.n) 0 + secs.length ≤ 8192 then
    some (s.modCore c fun k => { k with
      reqs := k.reqs ++ [{ id := id, n := secs.length, remote := secs.any fun x => s.remotePa (32 * x), age := 0 }] })
  else none

/-- Whether a write breaks a deterministic launch's ownership (R335): some byte lies in no range. -/
def Launch.ownBad (l : Launch) (va n : Nat) : Bool :=
  l.isDet && (List.range n).any fun i => !l.owns.any fun r => r.1 ≤ va + i && va + i < r.1 + r.2

/-- A plain read of bytes through a core's L1 (R115, R132): the bytes, and the state with the sectors filled. -/
def State.plainRead (s : State) (c pa n : Nat) (na : Bool) : List Byte × State :=
  let bs := s.coreBytes c pa n
  (bs, s.loadFill c pa n na)

end Sys2Proof.Machine
end

