-- ==== Sys2Proof/Machine/Order.lean ====
section
/-!
DEFINITION. What happens before a sweep starts (R194–R202, R296, R308): for each thread of a launch, the subscriptions whose
commit happens before its next event, and what the places of sync events pass on of them. The order of events within a thread,
the synchronization of R200, and the edges of R201, R267 and R308 are kept; see log 34.
-/

namespace Sys2Proof.Machine

/-- How a sync event touches its place (R194): `add` is an arrival or a deposit, which every later read of the place sees. -/
inductive Touch where
  | read
  | write
  | rmw
  | add
  deriving DecidableEq, Repr

/-- Whether a sync event covers a thread of another (R196). -/
def SyncBy.covers (a b : SyncBy) : Bool :=
  b.threads != [] && match a.scope with
    | 0 => a.launch == b.launch && b.threads.any a.threads.contains
    | 1 => a.stamp == b.stamp
    | 2 => a.warp.core == b.warp.core
    | 3 => clusterOf a.warp.core == clusterOf b.warp.core
    | 4 => dieOf a.warp.core == dieOf b.warp.core
    | _ => true

/-- Whether two sync events are mutual (R196). -/
def SyncBy.mutual (a b : SyncBy) : Bool := a.covers b && b.covers a

/-- The device itself as it makes a sync event for a launch: a guard's release at the launch's end (R201), the read of an ARGK
card's set object (R194). -/
def SyncBy.device : SyncBy :=
  { scope := 5, launch := 0, threads := [2 ^ 50], warp := { core := 144, slot := 0, hnd := false }, stamp := 0 }

/-- The subscriptions that happen before the next event of some thread (R202). -/
def Launch.heardBy (x : Launch) (ths : List Nat) : List Nat :=
  dedup (x.base ++ ths.flatMap fun t => (Dict.find x.heard t).getD [])

/-- Threads that have now heard of some subscriptions. -/
def Launch.hear (x : Launch) (ths ids : List Nat) : Launch :=
  { x with heard := ths.foldl (fun d t => Dict.put d t ids) x.heard }

/-- The writes from which a read of a place synchronizes, where it holds the bytes `now`: none once a write that is no sync
event has come between (R200). -/
def marksAt (ms : List SyncMark) (loc : SyncLoc) (now : List Byte) : List (SyncBy × List Nat) :=
  match ms.find? fun m => m.loc == loc with
  | some m => if m.val == now then m.writes else []
  | none => []

/-- A place told by an event, after some earlier ones. -/
def markAt (ms : List SyncMark) (loc : SyncLoc) (val : List Byte) (old : List (SyncBy × List Nat)) (who : SyncBy)
    (ids : List Nat) : List SyncMark :=
  let ws := (old.filter fun w => w.1 != who) ++ (if ids = [] then [] else [(who, ids)])
  (ms.filter fun m => m.loc != loc) ++ (if ws = [] then [] else [{ loc := loc, val := val, writes := ws }])

/-- The marks of the places to which a place belongs: a location of global memory has one for every launch; the barriers, counters
and copy tags of a launch are its own. -/
def State.marksFor (s : State) (l : Nat) : SyncLoc → List SyncMark
  | .home _ => s.marks
  | _ => match s.launch? l with | some x => x.told | none => []

/-- The same marks replaced. -/
def State.setMarks (s : State) (l : Nat) (loc : SyncLoc) (ms : List SyncMark) : State :=
  match loc with
  | .home _ => { s with marks := ms }
  | _ => s.modLaunch l fun x => { x with told := ms }

/-- A sync event, before which the subscriptions `ids` happen, put in the marks of its place. -/
def State.syncTell (s : State) (l : Nat) (loc : SyncLoc) (who : SyncBy) (how : Touch) (pre post : List Byte) (ids : List Nat) :
    State :=
  let ms := s.marksFor l loc
  match how with
  | .read => s
  | .write => s.setMarks l loc (markAt ms loc post [] who ids)
  | _ => s.setMarks l loc (markAt ms loc post (marksAt ms loc pre) who ids)

/-- The subscriptions that happen before the writes from which a sync event of a launch reads at a place that holds `pre`. At a
location, it synchronizes with the writes to which it is mutual (R200); at a barrier, a counter or a copy tag, with all (R144,
R196, R201). -/
def State.syncGets (s : State) (l : Nat) (loc : SyncLoc) (who : SyncBy) (pre : List Byte) : List Nat :=
  let syncs (w : SyncBy × List Nat) : Bool := match loc with
    | .home _ => w.1.mutual who
    | _ => true
  ((marksAt (s.marksFor l loc) loc pre).filter syncs).flatMap (·.2)

/-- The subscriptions that happen before an event of some threads of a launch, with some that it reads from, heard by those
threads: an event that belongs to several threads comes after the events of each and before the later ones of each (R195). -/
def State.hears (s : State) (l : Nat) (ths got : List Nat) : List Nat × State :=
  match s.launch? l with
  | none => (got, s)
  | some x =>
    let ids := dedup (x.heardBy ths ++ got)
    (ids, if ids = [] then s else s.modLaunch l fun x => x.hear ths ids)

/-- A sync event of a launch at a place that held `pre` and holds `post`. -/
def State.sync (s : State) (l : Nat) (loc : SyncLoc) (who : SyncBy) (how : Touch) (pre post : List Byte) : State :=
  match s.hears l who.threads (if how = .read || how = .rmw then s.syncGets l loc who pre else []) with
  | (ids, s) => s.syncTell l loc who how pre post ids

/-- The marks of a location kept over a read-modify-write of the device before which no event of a thread happens: the decrement of
a dependence count (R194, R200). -/
def State.keepMarks (s : State) (pa : Nat) (pre post : List Byte) : State :=
  { s with marks := s.marks.map fun m => if m.loc == .home pa && m.val == pre then { m with val := post } else m }

/-- What an accepted post of a card tells the launch that it starts (R201): the subscriptions `ids` that happen before it. -/
def State.notePosted (s : State) (tenant card : Nat) (ids : List Nat) : State :=
  let key := 2 ^ 57 * tenant + card
  { s with posted := if ids = [] then Tab.drop s.posted key else Dict.put s.posted key ids }

/-- The subscriptions that happen before the launch that a post of a card starts. -/
def State.postedIds (s : State) (tenant card : Nat) : List Nat := (Dict.find s.posted (2 ^ 57 * tenant + card)).getD []

/-- A named barrier of a core bound anew: its phases are none of those before (R326). -/
def Launch.forgetBarrier (x : Launch) (core n : Nat) : Launch :=
  { x with told := x.told.filter fun m => match m.loc with | .named c i _ => !(c == core && i == n) | _ => true }

/-! ### The reads of an instruction -/

/-- A sync read that an instruction makes (R194): its place, the bytes that it read there, who makes it. -/
abbrev SyncRead := SyncLoc × List Byte × SyncBy

/-- An event of some threads of a launch that a warp of a stamp runs. -/
def eventOf (l stamp : Nat) (w : WarpRef) (scope : Nat) (ths : List Nat) : SyncBy :=
  { scope := scope, launch := l, threads := ths, warp := w, stamp := stamp }

/-- The sync read of some bytes of global memory, where they translate. -/
def State.readsHome (s : State) (t : Nat) (who : SyncBy) (va : Word) (n : Nat) : List SyncRead :=
  match (s.translate who.warp.core t va .read).1 with
  | .ok p => [(.home (p.phys va.toNat), s.readBytes (p.phys va.toNat) n, who)]
  | .error _ => []

/-- The read of the object of a set whose value is kept in memory (R194). -/
def State.readsObject (s : State) (t : Nat) (who : SyncBy) (v : Word) : List SyncRead :=
  if setKind v == 3 then s.readsHome t who (v &&& 0x01FFFFFFFFFFFFE0#64) 32 else []

/-- Sync reads made by a launch. -/
def State.syncAll (s : State) (l : Nat) (es : List SyncRead) : State := es.foldl (fun s e => s.sync l e.1 e.2.2 .read e.2.1 []) s

/-! ### Near space -/

/-- The bounding ranges of some ranges, one to each slice and side (R264), in the launch's own offsets. -/
def Launch.bounds (x : Launch) (rs : List NearRange) : List (Nat × Nat × Nat) :=
  [false, true].flatMap fun side =>
    let rs := rs.filter fun r => r.write == side && r.len != 0
    (dedup (rs.map (·.core))).filterMap fun c => (x.place? c).map fun p =>
      let rs := rs.filter fun r => r.core == c
      let lo := rs.foldl (fun n r => min n r.lo) (2 ^ 20)
      let hi := rs.foldl (fun n r => max n (r.lo + r.len)) 0
      (c, lo - p.base, hi - p.base)

/-- The launch's names of some tiles of a core. -/
def Launch.tileNames (x : Launch) (core : Nat) (ts : List (Nat × Bool)) : List Nat :=
  match x.place? core with
  | some p => ts.filterMap fun t => p.tiles.findIdx? fun i => i == t.1
  | none => []

/-- Whether an access overlaps some ranges and tiles of an access that the same core receives (R201). -/
def RangeMark.meets (m : RangeMark) (core : Nat) (spans : List (Nat × Nat × Nat)) (tiles : List Nat) : Bool :=
  m.core == core && (m.tiles.any tiles.contains
    || m.spans.any fun a => spans.any fun b => a.1 == b.1 && a.2.1 < b.2.2 && b.2.1 < a.2.2)

/-- An access that a core's scoreboard receives: the subscriptions that happen before it, those before an
earlier access that it overlaps among them (R201); `own` are those that happen before what makes it. -/
def Launch.receive (x : Launch) (core : Nat) (rs : List NearRange) (ts : List (Nat × Bool)) (own : List Nat) :
    List Nat × Launch :=
  if own = [] && x.ranged = [] then ([], x)
  else
    let spans := x.bounds rs
    let tiles := x.tileNames core ts
    let ids := dedup (own ++ (x.ranged.filter fun m => m.meets core spans tiles).flatMap (·.ids))
    let m : RangeMark := { core := core, spans := spans, tiles := tiles, ids := ids }
    (ids, if ids = [] then x else { x with ranged := (x.ranged.filter fun o => o != m) ++ [m] })

/-- The same for a slot instruction, whose threads' later events come after it. -/
def Launch.touch (x : Launch) (core : Nat) (rs : List NearRange) (ts : List (Nat × Bool)) (ths : List Nat) : Launch :=
  match x.receive core rs ts (x.heardBy ths) with
  | ([], x) => x
  | (ids, x) => x.hear ths ids

/-- The name of the subscription in a place of a core. -/
def State.subName (s : State) (core place : Nat) : Nat :=
  match ((s.core core).subs[place]?).bind (·.sub) with
  | some u => u.name
  | none => 0

/-- A subscription committed by some threads (R296): an event of them all. -/
def Launch.subscribed (x : Launch) (ths : List Nat) (n : Nat) : Launch := x.hear ths (x.heardBy ths ++ [n])

/-- The subscriptions that happen before the merges that a subscription has made (R308). -/
def Sub.mergeIds (u : Sub) : List Nat := dedup (u.merged ++ (u.partials.filter fun x => decide (x.1 < u.e)).flatMap (·.2))

/-- A deposit performed at the counter of its target (R144, R200). -/
def State.tellDeposit (s : State) (p : Warp) (d : Deposit) : State :=
  if d.heard = [] then s
  else s.syncTell d.launch (.counter p.stamp d.ctr)
    (eventOf d.launch 0 { core := d.sender.1, slot := d.sender.2, hnd := false } 3 []) .add [] [] d.heard

/-- The threads of some lanes of a run's warp. -/
def Ctx.threads (c : Ctx) (m : Mask) : List Nat := m.toList.map c.thread

/-- An event of some threads of a run's warp. -/
def Ctx.event (c : Ctx) (scope : Nat) (ths : List Nat) : SyncBy := eventOf c.p.launch c.p.stamp c.w scope ths

end Sys2Proof.Machine
end

