-- ==== Sys2Proof/Machine/Cross.lean ====
section
/-!
DEFINITION. Cross-lane instructions, 0x48–0x4E (R177–R182): long-latency, with their values read at issue.
-/

namespace Sys2Proof.Machine

/-- An instruction on lanes of a set operand whose results come later (R64): `f` gives, for the lanes named, each
result and the flags. With no live lane it does nothing (R178). -/
def Ctx.late (c : Ctx) (s : State) (k : BitVec 3) (d : BitVec 5) (uses : List (BitVec 5)) (la : BitVec 4)
    (f : Mask → List (Nat × Word) × BitVec 5) : Issue :=
  if c.busyK k.toNat || c.busy (d :: uses) then .stall
  else match c.mask k with
    | none => .trap s (c.trap .setkind)
    | some m =>
      if m = 0#32 then .go s c.r
      else .go (s.freshId c.w.core).2
        ((c.r.await (s.freshId c.w.core).1 (.win d 1) (f m).1 la).flag (f m).2)

/-- The width of a move as a format (R156). -/
def wdFmt (wd : BitVec 3) : EFmt :=
  match wd.toNat with
  | 0 => .n64 | 1 => .n32 | 2 => .n16 | 3 => .n8 | 4 => .t6 | _ => .h4

/-- Element `e` of an operand over all lanes of the warp; zero in an absent lane (R178). -/
def Ctx.element (c : Ctx) (f : EFmt) (a x : BitVec 5) (e : Nat) : Nat :=
  if c.p.live.getLsbD (e / f.count) then subOf f (c.src a x (e / f.count)) (e % f.count) else 0

/-- The lanes of a mask, each with the register its elements make. -/
def lanesMade (f : EFmt) (m : Mask) (g : Nat → Nat → Nat) : List (Nat × Word) :=
  m.toList.map fun j => (j, packSubs f ((List.range f.count).map (g j)))

/-- `xperm.W` (R179). -/
def execXperm (o : Opnds) (wd : BitVec 3) (la : BitVec 4) (s : State) : Host.Outcome State Fault Refusal :=
  s.issue (.xperm o wd la) fun s c => c.late s o.k o.d [o.a, o.b] la fun m =>
    (lanesMade (wdFmt wd) m fun j i =>
      let idx := if o.b.toNat = 29 then wrapInt (wdFmt wd) o.x.toInt else subOf (wdFmt wd) (c.src o.b o.x j) i
      c.element (wdFmt wd) o.a o.x (idx % (32 * (wdFmt wd).count)), 0#5)

/-- The source of element `e` in a shift by `n` among `t` elements, if it is in range (R179). -/
def shiftFrom (mode : BitVec 2) (t e n : Nat) : Option Nat :=
  match mode.toNat with
  | 0 => if e < n then none else some (e - n)
  | 1 => if t ≤ e + n then none else some (e + n)
  | 2 => some ((e + n) % t)
  | _ => if t ≤ e ^^^ (n % t) then none else some (e ^^^ (n % t))

/-- `xshf.MODE.W` (R179). -/
def execXshf (o : Opnds) (wd : BitVec 3) (mode : BitVec 2) (la : BitVec 4) (s : State) :
    Host.Outcome State Fault Refusal :=
  s.issue (.xshf o wd mode la) fun s c => c.late s o.k o.d [o.a, o.b] la fun m =>
    let f := wdFmt wd
    (lanesMade f m fun j i =>
      match shiftFrom mode (32 * f.count) (f.count * j + i) (c.low m o.b o.x).toNat with
      | some e => c.element f o.a o.x e
      | none => 0, 0#5)

/-- `xbc.W` (R179). -/
def execXbc (o : Opnds) (wd : BitVec 3) (la : BitVec 4) (s : State) : Host.Outcome State Fault Refusal :=
  s.issue (.xbc o wd la) fun s c => c.late s o.k o.d [o.a, o.b] la fun m =>
    let f := wdFmt wd
    (lanesMade f m fun _ _ => c.element f o.a o.x ((c.low m o.b o.x).toNat % (32 * f.count)), 0#5)

/-- `xbal.W` (R179). -/
def execXbal (k : BitVec 3) (d a : BitVec 5) (wd : BitVec 3) (la : BitVec 4) (s : State) :
    Host.Outcome State Fault Refusal :=
  s.issue (.xbal k d a wd la) fun s c => c.late s k d [a] la fun m =>
    let f := wdFmt wd
    let v := (List.range (32 * f.count)).filter fun e => m.getLsbD (e / f.count) && c.element f a 0#5 e != 0
    let w : Word := BitVec.ofNat 64 (v.foldl (fun x e => x + 2 ^ e) 0)
    (m.toList.map fun j => (j, w), 0#5)

/-- The elements of a in the lanes named, in order, each with its lane and place (R105). -/
def Ctx.listOf (c : Ctx) (f : EFmt) (a : BitVec 5) (m : Mask) : List (Nat × Nat × Nat) :=
  m.toList.flatMap fun j => (List.range f.count).map fun i => (j, i, subOf f (c.src a 0#5 j) i)

/-- Whether a format is an integer type. -/
def isIntTy (f : EFmt) : Bool := f.isInt

/-- The identity of a reduction (R181). -/
def redIdentity (f : EFmt) (rop : BitVec 2) : Nat :=
  if f.isInt then
    match rop.toNat with
    | 1 => wrapInt f (intBounds f).2
    | 2 => wrapInt f (intBounds f).1
    | _ => 0
  else
    match rop.toNat with
    | 1 => (encodeVal f 0#3 false 0 (.inf false)).1
    | 2 => (encodeVal f 0#3 false 0 (.inf true)).1
    | _ => 0

/-- The reduction of a list of codes (R181). -/
def reduce (f : EFmt) (rop : BitVec 2) (rm : BitVec 3) (ftz : BitVec 1) (xs : List Nat) : Nat × BitVec 5 :=
  match xs with
  | [] => (redIdentity f rop, 0#5)
  | x :: r =>
    if f.isInt then
      (match rop.toNat with
       | 0 => wrapInt f (r.foldl (fun a b => a + b) x : Nat)
       | 1 => r.foldl (fun a b => if intOf f b < intOf f a then b else a) x
       | 2 => r.foldl (fun a b => if intOf f a < intOf f b then b else a) x
       | _ => r.foldl (fun a b => a ||| b) x, 0#5)
    else if rop.toNat = 0 then treeSum f rm ftz xs
    else
      let step (a : Nat × BitVec 5) (b : Nat) : Nat × BitVec 5 :=
        let y := minMax f (ftz == 1#1) (rop.toNat == 2) a.1 b
        (y.1, y.2 ||| a.2)
      match r with
      | [] => minMax f (ftz == 1#1) (rop.toNat == 2) x x
      | _ => r.foldl step (x, 0#5)

/-- `xred.OP.RT` (R180, R181). -/
def execXred (k : BitVec 3) (d a : BitVec 5) (rty : BitVec 4) (rop : BitVec 2) (rm : BitVec 3) (ftz : BitVec 1)
    (la : BitVec 4) (s : State) : Host.Outcome State Fault Refusal :=
  s.issue (.xred k d a rty rop rm ftz la) fun s c => c.late s k d [a] la fun m =>
    let f := rtyFmt rty
    let x := reduce f rop rm ftz ((c.listOf f a m).map (·.2.2))
    (lanesMade f m fun _ _ => x.1, x.2)

/-- `xscan[.exc].OP.RT` (R180, R181). The flags are those of the prefixes: the last element of `.exc`, which is in none, raises no
NV (DEDUCED, log 83). -/
def execXscan (k : BitVec 3) (d a : BitVec 5) (rty : BitVec 4) (rop : BitVec 2) (rm : BitVec 3) (ftz exc : BitVec 1)
    (la : BitVec 4) (s : State) : Host.Outcome State Fault Refusal :=
  s.issue (.xscan k d a rty rop rm ftz exc la) fun s c => c.late s k d [a] la fun m =>
    let f := rtyFmt rty
    let xs := (c.listOf f a m).map (·.2.2)
    let ys := (List.range xs.length).map fun n =>
      reduce f rop rm ftz (xs.take (if exc == 1#1 then n else n + 1))
    (m.toList.zipIdx.map fun e =>
      (e.1, packSubs f ((List.range f.count).map fun i => (ys.getD (e.2 * f.count + i) (0, 0#5)).1)),
      ys.foldl (fun x y => x ||| y.2) 0#5)

/-- A key of a ranking: its code and its global index (R107). -/
abbrev Key := Nat × Word

/-- Whether a key ranks ahead of another (R107). -/
def Key.ahead (f : EFmt) (a b : Key) : Bool :=
  match rankCmp (decodeVal f a.1) (decodeVal f b.1) with
  | .gt => true
  | .lt => false
  | .eq => a.2.toNat < b.2.toNat

/-- A key placed behind every key that it does not rank ahead of. -/
def insertKey (f : EFmt) (x : Key) : List Key → List Key
  | [] => [x]
  | y :: r => if Key.ahead f x y then x :: y :: r else y :: insertKey f x r

/-- Keys in ranking order; equal keys keep their order (R107). -/
def rankKeys (f : EFmt) (ks : List Key) : List Key := ks.foldl (fun l x => insertKey f x l) []

/-- `xtopk.SEL.RT` (R182). -/
def execXtopk (k : BitVec 3) (d a b : BitVec 5) (rty : BitVec 4) (sel : BitVec 1) (km1 : BitVec 5) (la : BitVec 4)
    (s : State) : Host.Outcome State Fault Refusal :=
  s.issue (.xtopk k d a b rty sel km1 la) fun s c => c.late s k d [a, b] la fun m =>
    let f := rtyFmt rty
    let ks := rankKeys f ((c.listOf f a m).map fun e => (e.2.2, c.src b 0#5 e.1 + BitVec.ofNat 64 e.2.1))
    (m.toList.map fun j =>
      (j, match (if j < km1.toNat + 1 then ks[j]? else none) with
          | some x => if sel == 0#1 then BitVec.ofNat 64 x.1 else x.2
          | none => BitVec.allOnes 64), 0#5)

end Sys2Proof.Machine
end

