-- ==== Sys2Proof/Machine/Sets.lean ====
section
/-!
DEFINITION. Set instructions, 0x10–0x17 (R218–R228): testing, algebra, counting, making, sets in memory, set queues.
-/

namespace Sys2Proof.Machine

/-- Two set results of a test staged (R220). -/
def Ctx.test (c : Ctx) (s : State) (k : BitVec 3) (d kf : Nat) (uses : List (BitVec 5))
    (f : Nat → Bool × BitVec 5) : Issue :=
  if c.busyK k.toNat || c.busyK d || c.busyK kf || c.busy uses then .stall
  else match c.mask k with
    | none => .trap s (c.trap .setkind)
    | some m =>
      if m = 0#32 then .go s c.r
      else
      let t := m.toList.foldl (fun t j => if (f j).1 then t ||| BitVec.ofNat 32 (2 ^ j) else t) (0#32 : Mask)
      let r := (c.r.setK d (localValue c.w.slot t)).setK kf (localValue c.w.slot (m &&& ~~~t))
      .go s (r.flag (m.toList.foldl (fun x j => x ||| (f j).2) 0#5))

/-- Whether a lane's conditions hit: all of them, or one (R219). -/
def hits (all : BitVec 1) (cs : List Bool) : Bool := if all = 1#1 then cs.all id else cs.any id

/-- `ktest.CC.IT` (R219, R220). -/
def execKtestInt (k : BitVec 3) (d a b : BitVec 5) (ity cc : BitVec 3) (all : BitVec 1) (kf : BitVec 3) (s : State) :
    Host.Outcome State Fault Refusal :=
  s.issue (.ktestInt k d a b ity cc all kf) fun s c => c.test s k d.toNat kf.toNat [a, b] fun j =>
    let f := ityFmt ity
    (hits all ((List.range f.count).map fun i =>
      ccHolds cc (intOf f (subOf f (c.src a 0#5 j) i)) (intOf f (subOf f (c.src b 0#5 j) i))), 0#5)

/-- A float condition with the flag it raises (R219, R220). -/
def fcHolds (fc : BitVec 3) (a b : Val) : Bool × BitVec 5 :=
  let nan := a.isNan || b.isNan
  let quiet := flagIf (a.isSig || b.isSig) fNV
  let o := a.cmp b
  match fc.toNat with
  | 0 => (!nan && o == .eq, quiet)
  | 1 => (nan || o != .eq, quiet)
  | 2 => (!nan && o == .lt, flagIf nan fNV)
  | 3 => (!nan && o != .gt, flagIf nan fNV)
  | 4 => (!nan && o == .gt, flagIf nan fNV)
  | 5 => (!nan && o != .lt, flagIf nan fNV)
  | _ => (nan, quiet)

/-- `ktest.FC.FT` (R219, R220). -/
def execKtestFloat (k : BitVec 3) (d a b : BitVec 5) (ty : BitVec 2) (fc : BitVec 3) (ftz all : BitVec 1)
    (kf : BitVec 3) (s : State) : Host.Outcome State Fault Refusal :=
  s.issue (.ktestFloat k d a b ty fc ftz all kf) fun s c => c.test s k d.toNat kf.toNat [a, b] fun j =>
    let f := tyFmt ty
    let rs := (List.range f.count).map fun i =>
      fcHolds fc (decodeFtz f (ftz == 1#1) (subOf f (c.src a 0#5 j) i))
        (decodeFtz f (ftz == 1#1) (subOf f (c.src b 0#5 j) i))
    (hits all (rs.map (·.1)), rs.foldl (fun x r => x ||| r.2) 0#5)

/-! ### Algebra -/

/-- The members of a set value as the warp that issues reads them (R211). The read of a memory value waits for the deposits that
the warp has sent (R199). -/
def Ctx.readSet (c : Ctx) (s : State) (v : Word) (view : MemView) : Resolved × State :=
  if setKind v == 3 && s.depositOut c.w then (.wait, s)
  else s.resolve ((s.core c.w.core).seenFor c.r.res.entries v) c.w.core c.p.launch c.tenant c.r.setEff v view

/-- The decisions that the reads of set values need (R336): one for each memory value, at its object. -/
def Ctx.setDecisions (c : Ctx) (vs : List Word) : List (Nat × Nat) :=
  (vs.filter fun v => setKind v == 3).map fun v => (c.lowThread c.k0, (v &&& 0x01FFFFFFFFFFFFE0#64).toNat)

/-- The members of a set value, with the record a memory value's read needs (R211, R336). -/
def Ctx.resolve (c : Ctx) (s : State) (v : Word) (view : MemView) : Resolved × State :=
  match c.readSet s v view with
  | (.members ms, t) =>
    match t.decideAll c.p.launch c.w (c.setDecisions [v]) with
    | .made t => (.members ms, t)
    | .wait => (.wait, t)
    | .raised t => (.raised, t)
  | r => r

/-- A canonical result staged in a set register, with what it reserves (R212). -/
def Ctx.stageSet (c : Ctx) (s : State) (d : Nat) (ms : Members) (ops : List Word) : Issue :=
  match s.canonical c.w.core c.l ms ops with
  | (.value v, s) => .go s (c.r.setK d v)
  | (.entry v e, s) =>
    let r := (c.r.setK d v).stage (.fill e ms.bitmap)
    .go s { r with res := { r.res with entries := r.res.entries ++ [e] } }
  | (.chunk v j obj, s) =>
    let r := (c.r.setK d v).stage (.spill j obj ms)
    .go s { r with res := { r.res with chunks := r.res.chunks ++ [j] } }
  | (.bad e a, s) => .trap s (c.trapAt (e, a) .modify)

/-- A set operation on two set registers (R221). The records that the reads of two memory values need are both made or neither, so
that an instruction that stalls and is tried again decides nothing twice (R336, R341). -/
def Ctx.algebra (c : Ctx) (s : State) (d a b : BitVec 5) (f : Mask → Mask → Mask) : Issue :=
  if c.busyK d.toNat || c.busyK a.toNat || c.busyK b.toNat then .stall
  else match c.readSet s (c.kval a.toNat) .onCore with
    | (.bad e x, s) => .trap s (c.trapAt (e, x) .read)
    | (.wait, _) => .stall
    | (.raised, s) => .raised s
    | (.members ma, s) =>
      match c.readSet s (c.kval b.toNat) .onCore with
      | (.bad e x, s) => .trap s (c.trapAt (e, x) .read)
      | (.wait, _) => .stall
      | (.raised, s) => .raised s
      | (.members mb, s) =>
        match s.decideAll c.p.launch c.w (c.setDecisions [c.kval a.toNat, c.kval b.toNat]) with
        | .wait => .stall
        | .raised s => .raised s
        | .made s =>
          let ms := membersOf c.w.core fun q => f (ma.lanesIn c.w.core q) (mb.lanesIn c.w.core q)
          let keep (n : BitVec 5) (m : Members) : List Word :=
            if (setKind (c.kval n.toNat) == 2 || setKind (c.kval n.toNat) == 3) && m == ms then [c.kval n.toNat] else []
          c.stageSet s d.toNat ms (if b.toNat < a.toNat then keep b mb ++ keep a ma else keep a ma ++ keep b mb)

/-- `kand` (R221). -/
def execKand (d a b : BitVec 5) (s : State) : Host.Outcome State Fault Refusal :=
  s.issue (.kand d a b) fun s c => c.algebra s d a b fun x y => x &&& y

/-- `kor` (R221). -/
def execKor (d a b : BitVec 5) (s : State) : Host.Outcome State Fault Refusal :=
  s.issue (.kor d a b) fun s c => c.algebra s d a b fun x y => x ||| y

/-- `kdiff` (R221). -/
def execKdiff (d a b : BitVec 5) (s : State) : Host.Outcome State Fault Refusal :=
  s.issue (.kdiff d a b) fun s c => c.algebra s d a b fun x y => x &&& ~~~y

/-! ### Counting and selecting -/

/-- The number of members (R222). -/
def Members.count (ms : Members) : Nat := ms.foldl (fun n e => n + countLanes e.2.2) 0

/-- The descriptor of the member at a rank, or all ones (R222). -/
def Members.rank (ms : Members) (r : Nat) : Word :=
  match (ms.flatMap fun e => e.2.2.toList.map fun j => (e.1, e.2.1, j))[r]? with
  | some (c, q, j) => BitVec.ofNat 64 (c * 2 ^ 16 + q * 2 ^ 8 + j)
  | none => 0xFFFFFFFFFFFFFFFF#64

/-- An instruction that writes what a set's members give; the value read for a memory value comes later (R222). -/
def Ctx.ofMembers (c : Ctx) (s : State) (k : BitVec 3) (d a : BitVec 5) (uses : List (BitVec 5))
    (f : Members → Nat → Word) : Issue :=
  if c.busyK k.toNat || c.busyK a.toNat || c.busy (d :: uses) then .stall
  else match c.mask k with
    | none => .trap s (c.trap .setkind)
    | some m =>
      if m = 0#32 then .go s c.r
      else match c.resolve s (c.kval a.toNat) .stored with
        | (.bad e x, s) => .trap s (c.trapAt (e, x) .read)
        | (.wait, _) => .stall
        | (.raised, s) => .raised s
        | (.members ms, s) =>
          if setKind (c.kval a.toNat) == 3 then
            .go (s.freshId c.w.core).2
              (c.r.await (s.freshId c.w.core).1 (.win d 1) (m.toList.map fun j => (j, f ms j)) 0#4)
          else .go s (c.r.write d m (f ms))

/-- `kcount` (R222). -/
def execKcount (k : BitVec 3) (d a : BitVec 5) (s : State) : Host.Outcome State Fault Refusal :=
  s.issue (.kcount k d a) fun s c => c.ofMembers s k d a [] fun ms _ => BitVec.ofNat 64 ms.count

/-- `kfirst` (R222). -/
def execKfirst (k : BitVec 3) (d a b x : BitVec 5) (s : State) : Host.Outcome State Fault Refusal :=
  s.issue (.kfirst k d a b x) fun s c => c.ofMembers s k d a [b] fun ms j => ms.rank (c.src b x j).toNat

/-! ### Making sets -/

/-- The checks of `kmake.v` (R223). -/
def Core.kmakeOk (k : Core) (c l : Nat) (v : Word) : Bool :=
  setWellFormed v && (match setKind v with
    | 2 => bitsOf v 15 8 == c && (match k.store[bitsOf v 7 0]? with
      | some x => x.gen.toNat == bitsOf v 23 16
      | none => false)
    | 4 => (k.group? c l (v.setWidth 24)).isSome
    | _ => true)

/-- `kmake.v` (R223). -/
def execKmakeV (d a : BitVec 5) (s : State) : Host.Outcome State Fault Refusal :=
  s.issue (.kmakeV d a) fun s c =>
    if c.busyK d.toNat || c.busy [a] then .stall
    else
      let v := c.low c.k0 a 0#5
      if ((s.core c.w.core).seenFor c.r.res.entries v).kmakeOk c.w.core c.p.launch v then .go s (c.r.setK d.toNat v)
      else .trap s (c.trap .setkind)

/-- `kmake.m` (R223). -/
def execKmakeM (d a : BitVec 5) (s : State) : Host.Outcome State Fault Refusal :=
  s.issue (.kmakeM d a) fun s c =>
    if c.busyK d.toNat || c.busy [a] then .stall
    else .go s (c.r.setK d.toNat (localValue c.w.slot ((c.low c.k0 a 0#5).setWidth 32 &&& c.p.live)))

/-- `kself` (R223). -/
def execKself (d : BitVec 5) (s : State) : Host.Outcome State Fault Refusal :=
  s.issue (.kself d) fun s c =>
    if c.busyK d.toNat then .stall else .go s (c.r.setK d.toNat (localValue c.w.slot c.p.live))

/-! ### Sets in memory -/

/-- The bytes of a word, ascending. -/
def wordBytes (v : Word) : List Byte := natToBytes v.toNat 8

/-- `kld` (R224): a plain read at issue; the value is checked when it arrives. -/
def execKld (d a b x : BitVec 5) (s : State) : Host.Outcome State Fault Refusal :=
  s.issue (.kld d a b x) fun s c =>
    if c.busyK d.toNat || c.busy [a, b] then .stall
    else
      let va := c.low c.k0 a x + (match lowest c.k0 with | some j => c.offset b x 8 j | none => 0#64)
      match s.locate c va 8 .read with
      | (.error e, s) => .trap s (c.trapAt e .read)
      | (.ok p, s) =>
        match s.freshId c.w.core with
        | (id, s) =>
          match s.takeReqs c.w.core id [p.phys va.toNat / 32] with
          | none => .stall
          | some s =>
            match s.plainRead c.w.core (p.phys va.toNat) 8 false with
            | (bs, s) => .go s (c.r.await id (.set d.toNat) [(0, BitVec.ofNat 64 (bytesToNat bs))] 0#4)

/-- `kst` (R224): a plain write at commit step 4. -/
def execKst (d a b x : BitVec 5) (s : State) : Host.Outcome State Fault Refusal :=
  s.issue (.kst d a b x) fun s c =>
    if c.busyK d.toNat || c.busy [a, b] then .stall
    else
      let va := c.low c.k0 a x + (match lowest c.k0 with | some j => c.offset b x 8 j | none => 0#64)
      match s.locate c va 8 .write with
      | (.error e, s) => .trap s (c.trapAt e .write)
      | (.ok p, s) =>
        match s.freshId c.w.core with
        | (id, s) =>
          match s.plainWrite c.w.core c.tenant id false p va.toNat (wordBytes (c.kval d.toNat)) [] with
          | (.error e, s) => .trap s (c.trapAt e .write)
          | (.ok hs, s) =>
            if c.l.ownBad va.toNat 8 then .trap s (c.trap .ownvio) else .go s { c.r with held := c.r.held ++ hs }

/-- The most bytes of a set object and of a set queue (R215, R227). -/
def setMost : Nat := 32 + 8 * 9216

def queueMost : Nat := 32 + 8 * 32768

/-- `kmerge` (R225): the object's address is checked first, then the members are resolved at issue; the object is changed at
commit step 4. -/
def execKmerge (d a : BitVec 5) (s : State) : Host.Outcome State Fault Refusal :=
  s.issue (.kmerge d a) fun s c =>
    if c.busyK d.toNat || c.busy [a] then .stall
    else
      let va := c.low c.k0 a 0#5
      if bitsOf va 63 57 != 0 then .trap s (c.trapAt (.perm, va) .modify)
      else if va.toNat % 32 != 0 then .trap s (c.trapAt (.align, va) .modify)
      else match s.objSpans c.w.core c.tenant va .modify 8 (fun w => 8 * setCap w) setMost with
        | (.error e, s) => .trap s (c.trapAt e .modify)
        | (.ok (obj, need), s) =>
          match c.resolve s (c.kval d.toNat) .liveHere with
          | (.bad e x, s) => .trap s (c.trapAt (e, x) .read)
          | (.wait, _) => .stall
          | (.raised, s) => .raised s
          | (.members ms, s) =>
            if ms = [] then .go s c.r
            else if c.l.ownBad va.toNat need then .trap s (c.trap .ownvio)
            else match s.freshId c.w.core with
              | (id, s) => .go s (c.r.hold (.home id 24#5 0#32 [.kmerge (c.lowThread c.k0) obj ms]))

/-- `kfree` (R226). -/
def execKfree (d : BitVec 5) (s : State) : Host.Outcome State Fault Refusal :=
  s.issue (.kfree d) fun s c =>
    if c.busyK d.toNat then .stall
    else
      let v := c.kval d.toNat
      let k := (s.core c.w.core).seenFor c.r.res.entries v
      if !setWellFormed v then .trap s (c.trap .setkind)
      else match setKind v with
        | 2 =>
          let e := bitsOf v 7 0
          if !k.coreValueOk c.w.core c.p.launch v || (k.store[e]?.bind (·.group)).isSome then .trap s (c.trap .setkind)
          else .go s (c.r.stage (.freeEntry e (v.extractLsb' 16 8)))
        | 4 => .trap s (c.trap .setkind)
        | 3 =>
          match (s.usedChunks c.w.core c.l).find? fun j =>
              (chunkAddr c.l c.w.core j &&& 0x01FFFFFFFFFFFFE0#64) == (v &&& 0x01FFFFFFFFFFFFE0#64) with
          | some j => .go s (c.r.stage (.freeChunk j))
          | none => .go s c.r
        | _ => .go s c.r

/-- The queue that an operand names, checked and translated whole (R227, R228). -/
def Ctx.queue (c : Ctx) (s : State) (a : BitVec 5) (f : State → List Span → Issue) : Issue :=
  let va := c.low c.k0 a 0#5
  if bitsOf va 63 57 != 0 then .trap s (c.trapAt (.perm, va) .modify)
  else if va.toNat % 32 != 0 then .trap s (c.trapAt (.align, va) .modify)
  else match s.objSpans c.w.core c.tenant va .modify 16 (fun w => 8 * queueCap w) queueMost with
    | (.error e, s) => .trap s (c.trapAt e .modify)
    | (.ok (obj, need), s) => if c.l.ownBad va.toNat need then .trap s (c.trap .ownvio) else f s obj

/-- `kqpush` (R228). -/
def execKqpush (d a b : BitVec 5) (s : State) : Host.Outcome State Fault Refusal :=
  s.issue (.kqpush d a b) fun s c =>
    if c.busyK b.toNat || c.busy [a, d] then .stall
    else c.queue s a fun s obj =>
      match s.freshId c.w.core with
      | (id, s) => .go s (c.r.hold (.home id d c.k0 [.kqpush (c.lowThread c.k0) obj (c.kval b.toNat)]))

/-- `kqpop` (R228). -/
def execKqpop (d a : BitVec 5) (s : State) : Host.Outcome State Fault Refusal :=
  s.issue (.kqpop d a) fun s c =>
    if c.busy [a, d] then .stall
    else c.queue s a fun s obj =>
      match s.freshId c.w.core with
      | (id, s) => .go s (c.r.hold (.home id d c.k0 [.kqpop (c.lowThread c.k0) obj]))

end Sys2Proof.Machine
end

