-- ==== Sys2Proof/Machine/Apply.lean ====
section
/-!
DEFINITION. Groups and applies, 0x18–0x1B (R229–R237): what the instructions do at issue, what an apply and an
`enda` do at commit step 6, and the creation of apply warps.
-/

namespace Sys2Proof.Machine

/-! ### Groups (R229, R230) -/

/-- A group value (R210). -/
def groupValue (gid : BitVec 24) : Word := 0x4000000000000000#64 ||| gid.setWidth 64

/-- `gmake` (R229): the lowest free entry is reserved; the group is made at commit step 3. -/
def execGmake (k : BitVec 3) (d : BitVec 5) (s : State) : Host.Outcome State Fault Refusal :=
  s.issue (.gmake k d) fun s c =>
    if c.busyK k.toNat || c.busyK d.toNat then .stall
    else match c.mask k with
      | none => .trap s (c.trap .setkind)
      | some m =>
        if m = 0#32 then .go s (c.r.setK d.toNat 0#64)
        else match (s.core c.w.core).freeEntry with
          | none => .trap s (c.trap .setovf)
          | some e =>
            match (s.core c.w.core).store[e]? with
            | none => .trap s (c.trap .setovf)
            | some x =>
              let r := (c.r.setK d.toNat (groupValue (groupId c.w.core e x.gen))).stage (.group e m)
              .go s { r with res := { r.res with entries := r.res.entries ++ [e] } }

/-- The live group that a set register names (R20, R210). -/
def Ctx.groupOf (c : Ctx) (s : State) (a : BitVec 5) : Option (BitVec 24) :=
  let v := c.kval a.toNat
  if setKind v == 4 && setWellFormed v && ((s.core c.w.core).asSeen.group? c.w.core c.p.launch (v.setWidth 24)).isSome then
    some (v.setWidth 24)
  else none

/-- `join` and `leave` at issue (R229); with no live lane they do nothing (R218). -/
def Ctx.changeGroup (c : Ctx) (s : State) (k : BitVec 3) (a : BitVec 5) (f : BitVec 24 → Mask → SetEff) : Issue :=
  if c.busyK k.toNat || c.busyK a.toNat then .stall
  else match c.mask k with
    | none => .trap s (c.trap .setkind)
    | some m =>
      if m = 0#32 then .go s c.r
      else match c.groupOf s a with
        | some g => .go s (c.r.stage (f g m))
        | none => .trap s (c.trap .setkind)

/-- `join` (R229). -/
def execJoin (k : BitVec 3) (a : BitVec 5) (s : State) : Host.Outcome State Fault Refusal :=
  s.issue (.join k a) fun s c => c.changeGroup s k a .join

/-- `leave` (R229). -/
def execLeave (k : BitVec 3) (a : BitVec 5) (s : State) : Host.Outcome State Fault Refusal :=
  s.issue (.leave k a) fun s c => c.changeGroup s k a .leave

/-- `gdis` (R229). -/
def execGdis (a : BitVec 5) (s : State) : Host.Outcome State Fault Refusal :=
  s.issue (.gdis a) fun s c =>
    if c.busyK a.toNat then .stall
    else match c.groupOf s a with
      | some g => .go s (c.r.stage (.dissolve g))
      | none => .trap s (c.trap .setkind)

/-! ### Applies at issue (R231, R232, R237) -/

/-- The warp of a session's key. -/
def keyRef (core key : Nat) : WarpRef := { core := core, slot := key % 64, hnd := 64 ≤ key }

/-- The members of a value on a core, of a launch, restricted to that core (R232). -/
def Members.here (ms : Members) (k : Core) (c l : Nat) : Members :=
  ((ms.filter fun e => e.1 == c).map fun e => (e.1, e.2.1, e.2.2 &&& k.liveIn l e.2.1)).filter fun e => e.2.2 != 0#32

/-- The slots of members. -/
def Members.slots (ms : Members) : List Nat := ms.map fun e => e.2.1

/-- Whether a value's session that has not started differs from an apply in its form, groups or block (R232). -/
def Core.sessionClash (k : Core) (l : Nat) (v : Word) (repack : Bool) (b0 b1 : Nat) (block : Word) : Bool :=
  k.sessions.any fun x => x.launch == l && !x.started && x.value == v
    && !(x.repack == repack && x.b0 == b0 && x.b1 == b1 && x.block == block)

/-- An apply at issue (R232): admitted with the members found, or a trap. An empty value or one with no member only
moves to the continuation. -/
def Ctx.apply (c : Ctx) (s : State) (k : BitVec 3) (off : BitVec 18) (repack : Bool) (b0 b1 : Nat) : Issue :=
  let cont := c.r.packet + ((off.signExtend 64) <<< 4)
  let v := c.kval k.toNat
  let inApply := match c.own.kind with | .apply _ _ => true | _ => false
  if c.busyK k.toNat then .stall
  else if repack && inApply then .trap s (c.trap .setkind)
  else match c.resolve s v .onCore with
    | (.bad e a, s) => .trap s (c.trapAt (e, a) .read)
    | (.wait, _) => .stall
    | (.raised, s) => .raised s
    | (.members ms, s) =>
      let ms := ms.here (s.core c.w.core) c.w.core c.p.launch
      if ms = [] then .go s { c.r with xfer := .goto cont }
      else if ms.lanesIn c.w.core c.w.slot == 0#32 || (setKind v == 1 && bitsOf v 37 32 != c.w.slot)
          || (s.core c.w.core).sessionClash c.p.launch v repack b0 b1 c.r.fall then .trap s (c.trap .setkind)
      else if 4 ≤ c.p.applies.length then .trap s (c.trap .setovf)
      else .go s { c.r with xfer := .apply v repack b0 b1 c.r.fall cont ms }

/-- `apply.s` (R231, R232). -/
def execApplyS (k : BitVec 3) (off : BitVec 18) (s : State) : Host.Outcome State Fault Refusal :=
  s.issue (.applyS k off) fun s c => c.apply s k off false 0 0

/-- `apply.r` (R231, R232). -/
def execApplyR (k : BitVec 3) (off : BitVec 18) (b0 b1 : BitVec 4) (s : State) : Host.Outcome State Fault Refusal :=
  s.issue (.applyR k off b0 b1) fun s c => c.apply s k off true b0.toNat b1.toNat

/-- `enda` (R231, R237). -/
def execEnda (s : State) : Host.Outcome State Fault Refusal :=
  s.issue .enda fun s c =>
    let inApply := match c.p.kind with | .apply _ _ => true | _ => false
    if c.p.applies = [] && !inApply then .trap s (c.trap .illop) else .go s { c.r with xfer := .enda }

/-! ### Sessions (R232–R234) -/

/-- A warp that waited goes on at an address; one that left the active set is ready from now. A region that began as it came to
wait has its entry there (R357). -/
def State.continueAt (s : State) (w : WarpRef) (pc : Word) : State :=
  s.modWarp w fun p =>
    { p with pc := pc, fetched := none, wait := .none
             region := p.region.map fun r => (r.1 <|> some pc, r.2)
             readyAt := if p.sched == .active then none else some (s.core w.core).cyc.toNat }

/-- A warp enters the block of an apply with its members (R233 step 1). -/
def State.enterBlock (s : State) (w : WarpRef) (block cont : Word) (m : Mask) (session argk : Option Nat) : State :=
  (s.modWarp w fun p =>
    { p with applies := p.applies ++ [{ cont := cont, k0 := Tab.get 0#64 p.k 0, session := session, argk := argk }]
             k := Tab.set 0#64 p.k 0 (localValue w.slot (m &&& p.live)) }).continueAt w block

/-- A core's session changed. -/
def State.modSession (s : State) (c id : Nat) (f : Session → Session) : State :=
  s.modCore c fun k => { k with sessions := k.sessions.map fun x => if x.id == id then f x else x }

/-- A core's session. -/
def Core.session? (k : Core) (id : Nat) : Option Session := k.sessions.find? fun x => x.id == id

/-- The lanes that a session's members have in a slot. -/
def Session.lanesOf (x : Session) (q : Nat) : Mask :=
  x.members.foldl (fun m e => if e.1 == q then m ||| laneBit e.2 else m) 0#32

/-- A session's end: every arrived warp continues at its continuation. -/
def State.endSession (s : State) (c : Nat) (x : Session) : State :=
  let s := x.arrived.foldl (fun s e =>
    match s.warp? (keyRef c e.1) with
    | some p => if p.wait == .session x.id then s.continueAt (keyRef c e.1) e.2 else s
    | none => s) s
  s.modCore c fun k => { k with sessions := k.sessions.filter fun y => y.id != x.id }

/-- The next turn of an `apply.s` session, or its end (R233). A warp that is gone gives up its turn. -/
def State.nextTurn (s : State) (c id : Nat) : List Nat → State
  | [] => match (s.core c).session? id with
    | some x => s.endSession c x
    | none => s
  | q :: r =>
    match (s.core c).session? id, s.warp? (keyRef c q) with
    | some x, some p =>
      if p.live == 0#32 then s.nextTurn c id r
      else
        let cont := ((x.arrived.find? fun e => e.1 == q).map (·.2)).getD 0#64
        (s.enterBlock (keyRef c q) x.block cont (x.lanesOf (q % 64)) (some id) none).modSession c id fun x =>
          { x with turns := r }
    | _, _ => s.nextTurn c id r

/-- The number of apply warps of an `apply.r` session (R234). -/
def Session.warps (x : Session) : Nat := (x.members.length + 31) / 32

/-- A session starts (R232): arrived warps with no member continue at once. A trap-handler warp has no slot of its own (R347),
and its turn comes after the turns of the ordinary slots (R233 does not place it; DESIGN CHOICE, log 74). -/
def State.startSession (s : State) (c : Nat) (x : Session) (ms : Members) : State :=
  let members := ms.flatMap fun e => e.2.2.toList.map fun j => (e.2.1, j)
  let out := x.arrived.filter fun e => !members.any fun m => m.1 == e.1 % 64
  let stay := x.arrived.filter fun e => members.any fun m => m.1 == e.1 % 64
  let s := out.foldl (fun s e =>
    match s.warp? (keyRef c e.1) with
    | some p => if p.wait == .session x.id then s.continueAt (keyRef c e.1) e.2 else s
    | none => s) s
  let turns := (List.range 128).filter fun q => stay.any fun e => e.1 == q
  let order := (turns.filter fun q => q < 64) ++ turns.filter fun q => 64 ≤ q
  let s := s.modSession c x.id fun x =>
    { x with started := true, arrived := stay, members := members, turns := if x.repack then [] else order, next := 0 }
  if members = [] then s.endSession c { x with arrived := stay }
  else if x.repack then s
  else s.nextTurn c x.id order

/-- What committing an apply comes to: done, or a wait or a raised record for the second resolution of its value. -/
inductive Applied where
  | done (s : State)
  | wait
  | raised (s : State)

/-- The members of a value at a commit (R232): a value that fails its checks has none. The read of a value kept in memory is an
event of the warp's live threads (R194). -/
def State.resolveAgain (s : State) (w : WarpRef) (p : Warp) (t : Nat) (v : Word) : Resolved × State :=
  match s.resolve (s.core w.core) w.core p.launch t [] v .onCore with
  | (.members ms, s) =>
    if setKind v == 3 then
      let s := s.syncAll p.launch (s.readsObject t (eventOf p.launch p.stamp w 5 (p.live.toList.map fun j => p.names.getD j 0)) v)
      match s.decideSync p.launch (some w) (p.names.getD ((lowest p.live).getD 0) 0) (v &&& 0x01FFFFFFFFFFFFE0#64).toNat with
      | .made s => (.members (ms.here (s.core w.core) w.core p.launch), s)
      | .wait => (.wait, s)
      | .raised s => (.raised, s)
    else (.members (ms.here (s.core w.core) w.core p.launch), s)
  | r => r

/-- An apply at commit step 6 (R232–R234). -/
def State.commitApply (s : State) (w : WarpRef) (v : Word) (repack : Bool) (b0 b1 : Nat) (block cont : Word)
    (ms : Members) : Applied :=
  match s.warp? w with
  | none => .done s
  | some p =>
    if ms.slots.length = 1 && !repack then
      .done (s.enterBlock w block cont (ms.lanesIn w.core w.slot) none none)
    else
      let t := match s.launch? p.launch with | some l => l.tenant | none => 0
      let again := if ms.slots.length = 1 then (.members ms, s) else s.resolveAgain w p t v
      match again with
      | (.wait, _) => .wait
      | (.raised, s) => .raised s
      | (r, s) =>
        let now : Members := match r with | .members x => x | _ => []
        let need := match r with | .members x => x.slots | _ => ms.slots
        let open_ := (s.core w.core).sessions.find? fun x => x.launch == p.launch && !x.started && x.value == v
          && x.repack == repack && x.b0 == b0 && x.b1 == b1 && x.block == block && ms.slots.length != 1
        let (x, s) : Session × State := match open_ with
          | some x => (x, s)
          | none =>
            let x : Session :=
              { id := (s.core w.core).nextId, launch := p.launch, value := v, repack := repack, b0 := b0, b1 := b1,
                block := block, arrived := [], started := false, members := [], turns := [], next := 0, gone := [] }
            (x, s.modCore w.core fun k => { k with nextId := k.nextId + 1, sessions := k.sessions ++ [x] })
        let x : Session := { x with arrived := x.arrived ++ [(sessionKey w, cont)] }
        let s := (s.modSession w.core x.id fun _ => x).modWarp w fun p => { p with wait := .session x.id }
        let s := if need.all fun q => x.arrived.any fun e => e.1 % 64 == q then s.startSession w.core x now else s
        .done (s.modWarp w fun p =>
          match p.wait with
          | .session _ => { p with sched := if p.sched == .suspended then .suspended else .pending, readyAt := none }
          | _ => p)

/-! ### The end of a block -/

/-- The turn of a warp in an `apply.s` session ends: the next member begins, or the session ends (R233). -/
def State.endTurn (s : State) (c id : Nat) : State :=
  match (s.core c).session? id with
  | some x => s.nextTurn c id x.turns
  | none => s

/-- The sessions of the open applies of a warp that retires: it ends its turn (R233). -/
def State.dropTurns (s : State) (c : Nat) (as : List OpenApply) : State :=
  as.reverse.foldl (fun s a => match a.session with | some id => s.endTurn c id | none => s) s

/-- Whether an apply warp of a session is resident on a core. -/
def Core.applyLive (k : Core) (id : Nat) : Bool :=
  k.warps.any fun e => match e.2.kind with | .apply x _ => x == id | _ => false

/-- The source warps of an `apply.r` session go on, once the last wave has finished (R234, R236): threads that exited
in an apply warp are now absent in their source lanes. -/
def State.closeRepack (s : State) (c id : Nat) : State :=
  match (s.core c).session? id with
  | none => s
  | some x =>
    if x.started && x.repack && x.warps ≤ x.next && !(s.core c).applyLive id then
      let s := x.arrived.foldl (fun s e =>
        let m := x.gone.foldl (fun m g => if g.1 == e.1 % 64 then m ||| laneBit g.2 else m) 0#32
        if m == 0#32 then s else s.exitLanes (keyRef c (e.1 % 64)) m) s
      s.endSession c x
    else s

/-- The flags of an apply warp join those of every source warp of its session (R104). -/
def State.sourceFlags (s : State) (c id : Nat) (p : Warp) : State :=
  match (s.core c).session? id with
  | none => s
  | some x => x.arrived.foldl (fun s e => s.modWarp (keyRef c e.1) fun o => { o with fpflags := o.fpflags ||| p.fpflags }) s

/-- An apply warp retires (R236): its flags reach its sources, its exited threads are noted and leave the groups of which they were
members in its slot (R21, R22), its slot is free, its session goes on. -/
def State.retireApply (s : State) (w : WarpRef) : State :=
  match s.warp? w with
  | none => s
  | some p =>
    match p.kind with
    | .apply id src =>
      let gone := (src.zipIdx).filterMap fun e => if p.live.getLsbD e.2 then none else some (e.1.2.1, e.1.2.2)
      let s := s.sourceFlags w.core id p
      let s := s.modSession w.core id fun x => { x with gone := x.gone ++ gone }
      let s := s.dropTurns w.core p.applies
      let out : Mask := (src.zipIdx).foldl (fun m e => if p.live.getLsbD e.2 then m else m ||| laneBit e.2) 0#32
      let s := s.modCore w.core fun k =>
        ((k.leaveGroups w.core p.launch w.slot out).freeSlotOf w.slot).settleAll w.core
      s.closeRepack w.core id
    | _ => s

/-- The registers of the two named groups copied back to the source lanes (R236 step 2), the threads' SRN with them. -/
def State.copyBack (s : State) (w : WarpRef) (p : Warp) (id : Nat) (src : List (Nat × Nat × Nat)) : State :=
  match (s.core w.core).session? id with
  | none => s
  | some x =>
    let regs := dedupNat (((List.range 8).map (8 * x.b0 + ·)) ++ ((List.range 8).map (8 * x.b1 + ·)))
    ((src.zipIdx).filter fun e => p.live.getLsbD e.2).foldl (fun s e =>
      s.modWarp { core := w.core, slot := e.1.2.1, hnd := false } fun o =>
        { o with
          regs := (regs.filter fun r => r < 8 * o.g && r < 8 * p.g).foldl (fun t r =>
            Tab.set 0#64 t (32 * r + e.1.2.2) (Tab.get 0#64 p.regs (32 * r + e.2))) o.regs
          srn := Tab.set 0#64 o.srn e.1.2.2 (Tab.get 0#64 p.srn e.2) }) s
where
  dedupNat (l : List Nat) : List Nat := l.foldl (fun a x => if a.contains x then a else a ++ [x]) []

/-- `enda` at commit step 6 (R233 step 3, R236): `none` where an apply warp must still wait for its tokens, its tags and its
untagged values (R59). -/
def State.commitEnda (s : State) (w : WarpRef) : Option State :=
  match s.warp? w with
  | none => some s
  | some p =>
    match p.applies.getLast? with
    | some a =>
      let s := s.modWarp w fun p =>
        { p with applies := p.applies.dropLast
                 k := Tab.set 0#64 p.k 0 (localValue w.slot (a.k0.setWidth 32 &&& p.live)) }
      match a.session, a.argk with
      | some id, _ =>
        let s := s.modWarp w fun p => { p with wait := .session id }
        let s := s.endTurn w.core id
        some (s.modWarp w fun p =>
          match p.wait with
          | .session _ => { p with sched := if p.sched == .suspended then .suspended else .pending, readyAt := none }
          | _ => p)
      | none, some l =>
        some ((s.continueAt w a.cont).modLaunch l fun x =>
          { x with argkLeft := x.argkLeft.filter fun m => !(m.1 == w.core && m.2.1 == w.slot) })
      | none, none => some (s.continueAt w a.cont)
    | none =>
      match p.kind with
      | .apply id src =>
        if p.marks != [] || p.sfq != []
            || (s.core w.core).engine.any (fun e => e.warp == w && e.stamp == p.stamp) then none
        else some ((s.copyBack w p id src).retireApply w)
      | _ => some s

/-! ### Creation of warps and the pool (R17, R66, R234, R235, R399) -/

/-- The groups of a claim that a warp has been granted and not yet committed. -/
def Warp.granted (p : Warp) : Nat :=
  match p.claim with
  | some x => if x.granted then x.n else 0
  | none => 0

/-- The slice-groups of a core's pool that are free: those given back in this cycle are not yet (R66, R68, R69). -/
def Core.poolFree (k : Core) : Nat :=
  3072 - k.warps.foldl (fun n e => n + (e.2.g + e.2.granted) * liveSlices e.2.live) 0
    - k.hnds.foldl (fun n e => n + e.2.granted * liveSlices e.2.live) 0 - k.returned

/-- A warp as created (R18, R235, R298, R347): `stamp` is its creation stamp. -/
def Warp.fresh (stamp launch : Nat) (kind : WarpKind) (logical slot g : Nat) (live : Mask) (tids : List Word)
    (pc : Word) : Warp where
  stamp := stamp
  launch := launch
  kind := kind
  logical := logical
  live := live
  tids := tids
  names := (List.range 32).map fun j =>
    (match kind with | .sweep _ _ _ _ => 2 ^ 32 * (stamp + 1) | _ => 0) + 32 * logical + j
  g := g
  regs := []
  srn := []
  k := Tab.set 0#64 [] 0 (localValue slot live)
  marks := []
  ctr := List.replicate 4 (0#16, false)
  sfq := []
  fpflags := 0#5
  wdog := 0
  pc := pc
  fetched := none
  run := none
  sched := .pending
  wait := .none
  due := none
  claim := none
  readyAt := none
  since := none
  stands := none
  queued := []
  lastIssue := 0
  issued := false
  tiles := 0#16
  region := none
  applies := []
  ppoint := none
  stop := false
  stoppedAt := none
  trap := none
  later := none
  history := []
  poisoned := []
  groups := []
  gmakes := 0
  icinv := none
  merged := false

/-- A warp put in a slot of a core. -/
def State.addWarp (s : State) (c slot : Nat) (p : Warp) : State :=
  (s.modCore c fun k => { k with warps := Dict.put k.warps slot { p with readyAt := none }, created := true }).modDev
    fun d => { d with nextStamp := d.nextStamp + 1 }

/-- The apply warp that a core creates next: its session and its index (R234, R399). Of several sessions that could have one,
the oldest goes first (the spec gives no order among them; DESIGN CHOICE, log 74). -/
def Core.nextApply (k : Core) : Option (Session × Nat) :=
  (k.sessions.find? fun x => x.started && x.repack && x.next < x.warps && !k.preempting x.launch
    && (x.next % 4 != 0 || !k.applyLive x.id)).map fun x => (x, x.next)

/-- The occupied lanes of an apply warp of a session. -/
def Session.laneCount (x : Session) (i : Nat) : Nat := min 32 (x.members.length - 32 * i)

/-- A mask of the lowest lanes. -/
def lowLanes (n : Nat) : Mask := BitVec.ofNat 32 (2 ^ n - 1)

/-- The slice-groups that the next apply warp needs (R234). -/
def Session.need (x : Session) (i : Nat) : Nat := (max x.b0 x.b1 + 1) * liveSlices (lowLanes (x.laneCount i))

/-- Whether a claim waits for slice-groups on a core (R399). -/
def Core.claimWaits (k : Core) : Bool :=
  (k.warps ++ k.hnds).any fun e => match e.2.claim with | some x => !x.granted | none => false

/-- The free slots of a range of slots of a core (R17, R234, R298). -/
def Core.freeSlots (k : Core) (lo n : Nat) : List Nat :=
  ((List.range n).map (lo + ·)).filter fun q => (Dict.find k.warps q).isNone

/-- Event APPLY_WARP_CREATION (R234, R235): the core creates its next apply warp. -/
def execApplyWarpCreation (core : Nat) (s : State) : Host.Outcome State Fault Refusal :=
  let k := s.core core
  match k.nextApply with
  | none => .next s
  | some (x, i) =>
    match s.pick (k.freeSlots 60 4) with
    | none => .next s
    | some q =>
      if k.claimWaits || k.created || k.poolFree < x.need i then .next s
      else
        let src := (x.members.drop (32 * i)).take 32
        let live := lowLanes src.length
        let source (e : Nat × Nat) : Warp :=
          ((s.warp? { core := core, slot := e.1, hnd := false }).getD
            (Warp.fresh 0 0 .ordinary 0 0 1 0#32 [] 0#64))
        let groups := ((List.range 8).map (8 * x.b0 + ·)) ++ ((List.range 8).map (8 * x.b1 + ·))
        let p := Warp.fresh s.dev.nextStamp x.launch (.apply x.id ((src.zipIdx).map fun e => (32 * i + e.2, e.1.1, e.1.2)))
          ((src.head?.map fun e => (source e).logical).getD 0) q (max x.b0 x.b1 + 1) live (src.map fun e => (source e).tids.getD e.2 0#64) x.block
        let p : Warp := { p with
          names := src.map fun e => (source e).names.getD e.2 0
          regs := (src.zipIdx).foldl (fun t e => groups.foldl (fun t r =>
            Tab.set 0#64 t (32 * r + e.2) (if r < 8 * (source e.1).g then Tab.get 0#64 (source e.1).regs (32 * r + e.1.2) else 0#64)) t) []
          srn := (src.zipIdx).foldl (fun t e => Tab.set 0#64 t e.2 (Tab.get 0#64 (source e.1).srn e.1.2)) [] }
        .next ((s.drawn.addWarp core q p).modSession core x.id fun x => { x with next := i + 1 })

end Sys2Proof.Machine
end

