-- ==== Sys2Proof/Machine/Scoreboard.lean ====
section
/-!
DEFINITION. The range scoreboard of a core (R264): which accesses wait for which.
-/

namespace Sys2Proof.Machine

/-- Whether two ranges of near space overlap and one of them writes (R264). -/
def NearRange.clash (a b : NearRange) : Bool :=
  a.core == b.core && (a.write || b.write) && a.lo < b.lo + b.len && b.lo < a.lo + a.len

/-- Whether a command's ranges and tiles clash with some others. -/
def EngRec.clash (e : EngRec) (rs : List NearRange) (ts : List (Nat × Bool)) : Bool :=
  e.ranges.any (fun a => rs.any fun b => a.clash b)
    || e.tiles.any fun a => ts.any fun b => a.1 == b.1 && (a.2 || b.2)

/-- Whether an access that a core receives now must wait for a command received before it. -/
def Core.mustWait (k : Core) (rs : List NearRange) (ts : List (Nat × Bool)) : Bool :=
  k.engine.any fun e => !e.started && e.clash rs ts

/-- A range of a launch's near region on a core; both halves of a shadow region count as the bytes addressed. -/
def Launch.range (l : Launch) (c off len : Nat) (write : Bool) : List NearRange :=
  match l.place? c with
  | some p => if len = 0 then [] else [{ core := c, lo := p.base + off, len := len, write := write }]
  | none => []

/-- The tile of the core that a launch names (R254). -/
def Launch.tile (l : Launch) (c t : Nat) : Nat :=
  match l.place? c with
  | some p => p.tiles.getD t t
  | none => t

/-- Whether a near range lies on a core where the launch is suspended (R359). -/
def Launch.awayFor (l : Launch) (rs : List NearRange) : Bool :=
  rs.any fun r => match l.place? r.core with | some p => p.away | none => false

/-- Whether the scoreboard is full (R264). -/
def Core.boardFull (k : Core) : Bool := 256 ≤ k.engine.length

/-- Whether a launch's region on a core is frozen for an access of another core (R363). -/
def Launch.frozenFor (l : Launch) (c from_ : Nat) : Bool :=
  c != from_ && (match l.place? c with | some p => p.frozen | none => false)

/-- Writes noted in the slices' shared reads of the bytes written (R205, R259, R264): those of an engine command of a core,
received as a number, or of an access that is performed as it is received. -/
def State.noteWrites (s : State) (writer : Option (Nat × Nat)) (rs : List NearRange) : State :=
  let note (r : NearRange) (x : SliceRead) : SliceRead :=
    if x.range.any (fun q => r.clash q) then s.closeRead writer x else x
  rs.foldl (fun s r => if r.write then s.modCore r.core fun k => { k with reads := k.reads.map (note r) } else s) s

/-- Whether a shared read of a slice answers the loop that a core received as a number: a core is answered once, and a loop
that was received after the bytes were written reads them anew (R205, R259; log 70). Poison answers no loop of the slice's own
core, for which nothing is frozen (R363). -/
def SliceRead.answers (x : SliceRead) (slice core id : Nat) : Bool :=
  x.cluster == clusterOf core && !x.readers.contains core && !(x.poison && core == slice)
    && (match x.closed with | none => true | some n => id < n.getD (positionOf core) 0)

/-- The shared reads of some bytes of a core's slice forgotten: a launch takes them as its region. -/
def Core.dropReads (k : Core) (base len : Nat) : Core :=
  { k with reads := k.reads.filter fun r => !r.range.any fun q => base < q.lo + q.len && q.lo < base + len }

end Sys2Proof.Machine
end

