-- ==== Sys2Proof/Machine/System.lean ====
section
/-!
DEFINITION. System and trap instructions at issue, 0x7E (R349–R354, R356, R357).
-/

namespace Sys2Proof.Machine

/-- TRAPCODE (R349). -/
def Trap.word (t : Trap) : Word := BitVec.ofNat 64 (t.info * 4096 + t.pos * 32 + t.code.num)

/-- TAGRDY of a launch on a core (R242). -/
def Core.tagReady (k : Core) (l : Nat) : Word :=
  BitVec.ofNat 64 (((List.range 64).filter fun t => !k.tagBusy l t).foldl (fun n t => n + 2 ^ t) 0)

/-- The committed value of a system register (R351), as the warp reads it. -/
def Ctx.sysReg (c : Ctx) (s : State) (num : Nat) : Word :=
  match num with
  | 0 => match c.p.trap with | some t => t.1.word | none => 0#64
  | 1 => match c.p.trap with | some t => t.2 &&& 0x01FFFFFFFFFFFFF0#64 | none => 0#64
  | 2 => match c.p.trap with
    | some t => localValue c.w.slot (t.1.lanes.getD c.own.live)
    | none => 0#64
  | 3 => (s.core c.w.core).tagReady c.p.launch
  | 4 => (s.core c.w.core).cyc
  | 5 => flagsOf c.p.fpflags
  | 6 => match c.l.place? c.w.core with | some p => p.drops.setWidth 64 | none => 0#64
  | 7 => c.l.det
  | 8 => s.dev.devcap0
  | 9 => s.dev.devcap1
  | 10 => BitVec.ofNat 64 (clusterOf c.w.core * 256 + c.w.core)
  | _ => match c.l.place? c.w.core with | some p => p.wdoglim | none => 0#64
where
  flagsOf (f : BitVec 5) : Word := f.setWidth 64

/-- `sysrd` (R351). -/
def execSysrd (k : BitVec 3) (d : BitVec 5) (num : BitVec 10) (s : State) : Host.Outcome State Fault Refusal :=
  s.issue (.sysrd k d num) fun s c => c.pure s k d [] fun _ => c.sysReg s num.toNat

/-- `syswr` (R351): the write takes effect at commit step 3. -/
def execSyswr (a : BitVec 5) (num : BitVec 10) (s : State) : Host.Outcome State Fault Refusal :=
  s.issue (.syswr a num) fun s c =>
    if c.busy [a] then .stall else .go s (c.r.stage (.syswr num.toNat (c.low c.k0 a 0#5)))

/-- `trap` and `brk` (R353): the one at the lowest position acts after the commit. -/
def Run.raise (r : Run) (code : Code) (imm : BitVec 10) : Run :=
  { r with soft := match r.soft with | some x => some x | none => some (code, r.pos, imm.toNat) }

/-- `trap` (R353). -/
def execTrap (imm : BitVec 10) (s : State) : Host.Outcome State Fault Refusal :=
  s.issue (.trap imm) fun s c => .go s (c.r.raise .user imm)

/-- `brk` (R353). -/
def execBrk (imm : BitVec 10) (s : State) : Host.Outcome State Fault Refusal :=
  s.issue (.brk imm) fun s c => .go s (c.r.raise .brk imm)

/-- `tret` (R352): outside a handler warp ILLOP. -/
def execTret (e : BitVec 1) (s : State) : Host.Outcome State Fault Refusal :=
  s.issue (.tret e) fun s c =>
    if c.w.hnd then .go s { c.r with xfer := .tret (e == 1#1) } else .trap s (c.trap .illop)

/-- `lmark` (R354) at issue. -/
def execLmark (imm : BitVec 10) (s : State) : Host.Outcome State Fault Refusal :=
  s.issue (.lmark imm) fun s c => .go s (c.r.hold (.lmark imm.toNat))

/-- `ppoint` (R356). -/
def execPpoint (mask : BitVec 16) (s : State) : Host.Outcome State Fault Refusal :=
  s.issue (.ppoint mask) fun s c => .go s { c.r with ppoint := some mask }

/-- `idb` (R357) at issue. -/
def execIdb (a b : BitVec 5) (s : State) : Host.Outcome State Fault Refusal :=
  s.issue (.idb a b) fun s c =>
    if c.busy [a, b] then .stall
    else
      let n := c.low c.k0 a 0#5
      let len := c.low c.k0 b 0#5
      if !c.l.nearOk c.w.core n len.toNat || nearCore c.w.core n != c.w.core then
        .trap s { c.trap .perm (infoOf n) with kind := 1 }
      else if nearOff n % 32 != 0 then .trap s { c.trap .align (infoOf n) with kind := 1 }
      else if len.toNat % 32 != 0 then .trap s (c.trap .align)
      else if c.p.region.isSome then .trap s (c.trap .illop)
      else .go s (c.r.stage (.idb (nearOff n) len.toNat))

/-- `ide` (R357). -/
def execIde (s : State) : Host.Outcome State Fault Refusal :=
  s.issue .ide fun s c => .go s (c.r.stage .ide)

end Sys2Proof.Machine
end

