-- ==== Sys2Proof/Machine/Control.lean ====
section
/-!
DEFINITION. Control, run and pool instructions, 0x00 and 0x02–0x0D (R71–R78): what they do at issue. The transfer they
stage takes place at commit step 6 (R58).
-/

namespace Sys2Proof.Machine

/-- A branch target: the packet's address plus an offset in packets (R46, R72). -/
def target (r : Run) (off : Word) : Word := r.packet + (off <<< 4)

/-- `nop` (R71). -/
def execNop (s : State) : Host.Outcome State Fault Refusal := s.issue .nop fun s c => .go s c.r

/-- `bra` (R72). -/
def execBra (off : BitVec 26) (s : State) : Host.Outcome State Fault Refusal :=
  s.issue (.bra off) fun s c => .go s { c.r with xfer := .goto (target c.r (off.signExtend 64)) }

/-- A conditional branch: taken when the lanes kS names are none, or some (R72). -/
def Ctx.branch (c : Ctx) (s : State) (k : BitVec 3) (off : BitVec 26) (onEmpty : Bool) : Issue :=
  if c.busyK k.toNat then .stall
  else match c.mask k with
    | none => .trap s (c.trap .setkind)
    | some m =>
      if (m == 0#32) == onEmpty then .go s { c.r with xfer := .goto (target c.r (off.signExtend 64)) }
      else .go s { c.r with xfer := .fall }

/-- `bre` (R72). -/
def execBre (k : BitVec 3) (off : BitVec 26) (s : State) : Host.Outcome State Fault Refusal :=
  s.issue (.bre k off) fun s c => c.branch s k off true

/-- `brn` (R72). -/
def execBrn (k : BitVec 3) (off : BitVec 26) (s : State) : Host.Outcome State Fault Refusal :=
  s.issue (.brn k off) fun s c => c.branch s k off false

/-- An indirect branch (R73): no live lane makes no transfer. -/
def Ctx.indirect (c : Ctx) (s : State) (k : BitVec 3) (a x : BitVec 5) : Issue :=
  if c.busyK k.toNat || c.busy [a] then .stall
  else match c.mask k with
    | none => .trap s (c.trap .setkind)
    | some m =>
      if m = 0#32 then .go s { c.r with xfer := .fall }
      else
        let t := c.low m a x
        if t.extractLsb' 0 4 != 0#4 then .trap s (c.trap .align (infoOf t))
        else .go s { c.r with xfer := .goto t }

/-- `brx` (R73). -/
def execBrx (k : BitVec 3) (a x : BitVec 5) (s : State) : Host.Outcome State Fault Refusal :=
  s.issue (.brx k a x) fun s c => c.indirect s k a x

/-- `ret` (R73). -/
def execRet (k : BitVec 3) (a x : BitVec 5) (s : State) : Host.Outcome State Fault Refusal :=
  s.issue (.ret k a x) fun s c => c.indirect s k a x

/-- `call` (R73): the return address into w15; the transfer is made with no live lane too. -/
def execCall (k : BitVec 3) (off : BitVec 26) (s : State) : Host.Outcome State Fault Refusal :=
  s.issue (.call k off) fun s c =>
    if c.busyK k.toNat || c.busy [15#5] then .stall
    else match c.mask k with
      | none => .trap s (c.trap .setkind)
      | some m =>
        .go s { c.r.write 15#5 m (fun _ => c.r.fall) with xfer := .goto (target c.r (off.signExtend 64)) }

/-- `loop` (R74). -/
def execLoop (k : BitVec 3) (d : BitVec 5) (off : BitVec 16) (s : State) : Host.Outcome State Fault Refusal :=
  s.issue (.loop k d off) fun s c =>
    if c.busyK k.toNat || c.busy [d] then .stall
    else match c.mask k with
      | none => .trap s (c.trap .setkind)
      | some m =>
        let r := c.r.write d m fun j => c.src d 0#5 j - 1
        let take := match lowest m with
          | none => false
          | some j => c.src d 0#5 j - 1 != 0#64
        .go s { r with xfer := if take then .goto (target c.r (off.signExtend 64)) else .fall }

/-- `exit` (R75); in a trap-handler warp ILLOP (R347). -/
def execExit (k : BitVec 3) (s : State) : Host.Outcome State Fault Refusal :=
  s.issue (.exit k) fun s c =>
    if c.w.hnd then .trap s (c.trap .illop)
    else if c.busyK k.toNat then .stall
    else match c.mask k with
      | none => .trap s (c.trap .setkind)
      | some m => .go s { c.r with xfer := .exit m }

/-- `yield` (R76). -/
def execYield (s : State) : Host.Outcome State Fault Refusal :=
  s.issue .yield fun s c => .go s { c.r with yield := true }

/-- `icinv` at issue (R77): its range, from the lowest live lane of k0. -/
def execIcinv (a b x : BitVec 5) (scope : BitVec 2) (s : State) : Host.Outcome State Fault Refusal :=
  s.issue (.icinv a b x scope) fun s c =>
    if c.busy [a, b] then .stall
    else .go s (c.r.hold (.icinv (scope.toNat + 2) (c.low c.k0 a x) (c.low c.k0 b x)))

/-- `claim` (R78): it waits until the pool grants it (R68). -/
def execClaim (n : BitVec 16) (s : State) : Host.Outcome State Fault Refusal :=
  s.issue (.claim n) fun s c =>
    if 16 < c.own.g + n.toNat then .trap s (c.trap .regbnd)
    else match c.p.claim with
      | some x => if x.granted then .go s { c.r with res := { c.r.res with claim := some n.toNat } } else .stall
      | none => .stall

/-- `give` (R78). -/
def execGive (n : BitVec 16) (s : State) : Host.Outcome State Fault Refusal :=
  s.issue (.give n) fun s c =>
    if c.own.g ≤ n.toNat then .trap s (c.trap .regbnd) else .go s { c.r with give := some n.toNat }

end Sys2Proof.Machine
end

