-- ==== Sys2Proof/Machine/Ranges.lean ====
section
/-!
DEFINITION. The near ranges and tiles of engine commands, and the line tags their writes leave (R252, R257, R264, R286,
R307).
-/

namespace Sys2Proof.Machine

/-! ### Formats as line tags -/

/-- The element format of a line tag. -/
def tagFmt (t : Nat) : EFmt := EFmt.ofCode (BitVec.ofNat 4 t)

/-- Whether a line tag has MX32 geometry. -/
def tagMx (t : Nat) : Bool := 16 ≤ t

/-- The line tag of a format entry (R248). -/
def entryTag (e : Word) : Nat := bitsOf e 3 0 + (if bitsOf e 7 6 == 1 then 16 else 0)

/-- The bytes of a row of elements, packed (R94, R247). -/
def rowBytes (t cnt : Nat) : Nat :=
  if tagMx t then cnt / 32 * blockLen (tagFmt t) else (cnt * (tagFmt t).width + 7) / 8

/-- The unit of a format's alignment (R249). -/
def unitBytes (t : Nat) : Nat :=
  if tagMx t then blockLen (tagFmt t)
  else match tagFmt t with
    | .h4 => 1
    | .t6 => 3
    | f => f.width / 8

/-! ### Near operands of 32 bits -/

/-- The near address in bits 31:0 of a slot, and in bits 63:32 (R246, R256). -/
def nearLow (v : Word) : Word := v &&& 0xFFFFFFFF#64
def nearHigh (v : Word) : Word := v >>> 32

/-- Whether a near address names a core on which the launch holds a region, its reserved bits zero (R125). -/
def Launch.regionOk (l : Launch) (c : Nat) (a : Word) : Bool :=
  bitsOf a 63 32 == 0 && bitsOf a 23 19 == 0 && nearCore c a < 144 && (l.place? (nearCore c a)).isSome

/-- Whether bytes at an integer offset lie in a near region. -/
def Launch.insideNear (l : Launch) (off : Int) (n : Nat) : Bool := n == 0 || (0 ≤ off && off + n ≤ l.card.near)

/-- The range that bounds pieces at integer offsets of a near region. -/
def Launch.bound (l : Launch) (core : Nat) (write : Bool) (xs : List (Int × Nat)) : List NearRange :=
  match xs.filter fun x => x.2 != 0 with
  | [] => []
  | x :: r =>
    let lo := r.foldl (fun a y => min a y.1) x.1
    let hi := r.foldl (fun a y => max a (y.1 + (y.2 : Int))) (x.1 + (x.2 : Int))
    l.range core lo.toNat (hi - lo).toNat write

/-! ### Copies -/

/-- The near tag of a row of a copy. -/
def Copy.tagOf (c : Copy) (r : Nat) : Nat := if c.dir = 1 then c.near.getD r 0 else c.near.headD 0

/-- The destination cores of a copy's near side. -/
def Copy.targets (c : Copy) (core : Nat) : List Nat :=
  match c.mcast with
  | some ts => ts
  | none => [nearCore core (nearLow c.dst)]

/-- The offset of a row from a base offset. -/
def rowOff (off : Nat) (stride : Int) (r : Nat) : Int := (off : Int) + stride * r

/-- The rows of a copy that move something. -/
def Copy.rowList (c : Copy) : List Nat := if c.cnt = 0 then [] else List.range c.rows

/-- The pieces of the near side of a copy: data rows. -/
def Copy.dataPieces (c : Copy) (a : Word) (stride : Int) : List (Int × Nat) :=
  c.rowList.map fun r => (rowOff (nearOff a) stride r, if c.dir = 2 then c.cnt else rowBytes (c.tagOf r) c.cnt)

/-- The pieces of the near side of a copy: scales of MX32 rows (R248). -/
def Copy.scalePieces (c : Copy) (a : Word) : List (Int × Nat) :=
  (c.rowList.filter fun r => tagMx (c.tagOf r)).map fun r =>
    ((nearOff a : Int) + (r * (c.cnt / 32) : Nat), c.cnt / 32)

/-- The near ranges of a copy of a core. -/
def Copy.ranges (c : Copy) (l : Launch) (core : Nat) : List NearRange :=
  match c.dir with
  | 0 => (c.targets core).flatMap fun t =>
      l.bound t true (c.dataPieces (nearLow c.dst) c.dstr)
        ++ l.bound (if c.mcast.isSome then t else nearCore core (nearHigh c.dst)) true (c.scalePieces (nearHigh c.dst))
  | 1 => l.bound (nearCore core (nearLow c.src)) false (c.dataPieces (nearLow c.src) c.sstr)
      ++ l.bound (nearCore core (nearHigh c.src)) false (c.scalePieces (nearHigh c.src))
  | _ => l.bound (nearCore core (nearLow c.src)) false (c.dataPieces (nearLow c.src) c.sstr)
      ++ l.bound (nearCore core (nearLow c.dst)) true (c.dataPieces (nearLow c.dst) c.dstr)

/-! ### Matrix loops -/

/-- The element format of a matrix format (R255). -/
def mloopFmt (fmt : Nat) : EFmt :=
  match fmt with
  | 0 => .t8 | 1 => .i8 | 2 => .t6 | 3 => .h4 | 4 => .bf16 | 5 => .f16 | _ => .f32

/-- The step depth K (R255). -/
def mloopK (fmt : Nat) : Nat :=
  match fmt with
  | 0 => 32 | 1 => 32 | 2 => 64 | 3 => 64 | 4 => 16 | 5 => 16 | _ => 8

/-- The element alignment (R255). -/
def mloopAlign (fmt : Nat) : Nat :=
  match fmt with
  | 0 => 1 | 1 => 1 | 2 => 3 | 3 => 1 | 4 => 2 | 5 => 2 | _ => 4

/-- The number of steps of a matrix loop. -/
def Mloop.steps (m : Mloop) : Nat := bitsOf m.d2 47 32

/-- The bytes of K elements. -/
def Mloop.rowLen (m : Mloop) : Nat := mloopK m.fmt * (mloopFmt m.fmt).width / 8

/-- The increments of A and B. -/
def Mloop.ia (m : Mloop) : Int := (m.d1.extractLsb' 0 32).toInt
def Mloop.ib (m : Mloop) : Int := (m.d1.extractLsb' 32 32).toInt

/-- The offset in A's region of row `i` in step `st`, and in B's of column `j` (R257). -/
def Mloop.offA (m : Mloop) (st i : Nat) : Int := (nearOff (nearLow m.d0) : Int) + m.ia * st + (bitsOf m.d2 15 0 * i : Nat)
def Mloop.offB (m : Mloop) (st j : Nat) : Int :=
  (nearOff (nearHigh m.d0) : Int) + m.ib * st + (bitsOf m.d2 31 16 * j : Nat)

/-- The offset of the scale of element `c` of row `i` of A, and of column `j` of B (R257). -/
def Mloop.scaleA (m : Mloop) (st i c : Nat) : Nat :=
  nearOff (nearLow m.d3) + bitsOf m.d2 55 48 * i + (st * mloopK m.fmt + c) / 32
def Mloop.scaleB (m : Mloop) (st j c : Nat) : Nat :=
  nearOff (nearHigh m.d3) + bitsOf m.d2 63 56 * j + (st * mloopK m.fmt + c) / 32

/-- The corners of the steps and rows of a loop: offsets are linear in both. -/
def Mloop.corners (m : Mloop) (f : Nat → Nat → Int) : List (Int × Nat) :=
  if m.steps = 0 then []
  else [0, m.steps - 1].flatMap fun st => [0, 63].map fun i => (f st i, m.rowLen)

/-- The corners of the scales of a loop. -/
def Mloop.scaleCorners (m : Mloop) (f : Nat → Nat → Nat → Nat) : List (Int × Nat) :=
  if m.steps = 0 || !m.mx then []
  else [(0, 0), (m.steps - 1, mloopK m.fmt - 1)].flatMap fun x => [0, 63].map fun i => ((f x.1 i x.2 : Int), 1)

/-- The near range of A of a matrix loop of a core. -/
def Mloop.rangeA (m : Mloop) (l : Launch) (core : Nat) : List NearRange :=
  l.bound (nearCore core (nearLow m.d0)) false (m.corners m.offA)

/-- The near ranges of a matrix loop of a core but that of A. -/
def Mloop.otherRanges (m : Mloop) (l : Launch) (core : Nat) : List NearRange :=
  l.bound (nearCore core (nearHigh m.d0)) false (m.corners m.offB)
    ++ l.bound (nearCore core (nearLow m.d3)) false (m.scaleCorners m.scaleA)
    ++ l.bound (nearCore core (nearHigh m.d3)) false (m.scaleCorners m.scaleB)

/-- The near ranges of a matrix loop of a core. -/
def Mloop.ranges (m : Mloop) (l : Launch) (core : Nat) : List NearRange := m.rangeA l core ++ m.otherRanges l core

/-! ### Every command -/

/-- The head dimension of a subscription (R287). -/
def Sub.dim (u : Sub) : Nat := if u.dh then 128 else 64

/-- The bytes of a partial's record (R300). -/
def Sub.recordLen (u : Sub) : Nat := 8 + 4 * u.dim

/-- The bytes of a query in the output of `swrd` (R304). -/
def Sub.outLen (u : Sub) (mm : Nat) : Nat := match mm with | 0 => 4 * u.dim | 1 => 2 * u.dim | _ => u.recordLen

/-- The near ranges that a command of a core reaches (R264). -/
def Cmd.ranges (x : Cmd) (k : Core) (l : Launch) (core : Nat) : List NearRange :=
  let at_ (a : Nat) (n : Nat) (w : Bool) := l.range core (nearOff (BitVec.ofNat 64 a)) n w
  match x with
  | .copy c => c.ranges l core
  | .mloop m => m.ranges l core
  | .mrdN _ a bf => l.range (nearCore core (BitVec.ofNat 64 a)) (nearOff (BitVec.ofNat 64 a)) (if bf then 8192 else 16384) true
  | .mwrN _ a => l.range (nearCore core (BitVec.ofNat 64 a)) (nearOff (BitVec.ofNat 64 a)) 16384 false
  | .lacfg a => at_ a 784 false
  | .lainfN d a n _ => at_ a (64 * n) false ++ at_ d (32 * n) true
  | .lafb a _ _ => at_ a 64 false
  | .lardN d _ n inc _ => at_ d (n * (if inc then 128 else 1024)) true
  | .lawrN a _ n => at_ a (1024 * n) false
  | .swmerge a hdl _ => match k.sub? l.id hdl with | some u => at_ a (u.q * u.recordLen) false | none => []
  | .swrd a hdl mm => match k.sub? l.id hdl with | some u => at_ a (u.q * u.outLen mm) true | none => []
  | .mzero _ | .mwrW _ _ _ _ | .laseed _ _ | .lawrW _ _ _ => []

/-- The tiles that a command reaches, and whether it writes them. -/
def Cmd.tiles (x : Cmd) (l : Launch) (core : Nat) : List (Nat × Bool) :=
  match x with
  | .mloop m => [(l.tile core m.t, true)]
  | .mzero t => [(l.tile core t, true)]
  | .mrdN t _ _ => [(l.tile core t, false)]
  | .mwrN t _ => [(l.tile core t, true)]
  | .mwrW t _ _ _ => [(l.tile core t, true)]
  | _ => []

/-! ### Line tags -/

/-- The tag that the destination lines of a `.n2n` copy take: that of the source lines of their bytes where they agree,
else raw (R252). Lines: destination offset of the first written byte of a line, and tag. -/
def State.movedTags (s : State) (l : Launch) (core : Nat) (c : Copy) : List (Nat × Nat) :=
  let src := nearCore core (nearLow c.src)
  let bytes := c.rowList.flatMap fun r =>
    let d := rowOff (nearOff (nearLow c.dst)) c.dstr r
    let o := rowOff (nearOff (nearLow c.src)) c.sstr r
    (List.range c.cnt).map fun (i : Nat) => ((d + (i : Int)).toNat, (o + (i : Int)).toNat)
  let t : Tab (Option Nat) := bytes.foldl (fun t b =>
    let tag := s.lineTag l src b.2 false
    match Dict.find t (b.1 / 32) with
    | none => Dict.put t (b.1 / 32) (some tag)
    | some (some x) => if x = tag then t else Dict.put t (b.1 / 32) none
    | some none => t) []
  t.map fun e => (32 * e.1, e.2.getD 0)

/-- The state with the line tags that a command's writes leave (R252, R286, R307). A line in which one copy writes both data and
scales becomes raw (DESIGN CHOICE, log 78). -/
def State.cmdTags (s : State) (l : Launch) (core : Nat) (x : Cmd) : State :=
  let at_ (a : Nat) (n tag : Nat) : State := s.setTags l core (nearOff (BitVec.ofNat 64 a)) n true tag
  match x with
  | .copy c =>
    match c.dir with
    | 0 => (c.targets core).foldl (fun s t =>
        let s := (c.dataPieces (nearLow c.dst) c.dstr).foldl (fun s p => s.setTags l t p.1.toNat p.2 true (c.tagOf 0)) s
        (c.scalePieces (nearHigh c.dst)).foldl (fun s p =>
          s.setTags l (if c.mcast.isSome then t else nearCore core (nearHigh c.dst)) p.1.toNat p.2 true 0) s) s
    | 1 => s
    | _ => (s.movedTags l core c).foldl (fun s e => s.setTags l (nearCore core (nearLow c.dst)) e.1 1 true e.2) s
  | .mrdN _ a bf =>
    s.setTags l (nearCore core (BitVec.ofNat 64 a)) (nearOff (BitVec.ofNat 64 a)) (if bf then 8192 else 16384) true
      (if bf then 4 else 2)
  | .lainfN d _ n _ => at_ d (32 * n) 0
  | .lardN d _ n inc _ => at_ d (n * (if inc then 128 else 1024)) 0
  | .swrd a hdl mm => match (s.core core).sub? l.id hdl with
    | some u => at_ a (u.q * u.outLen mm) (match mm with | 0 => 2 | 1 => 4 | _ => 0)
    | none => s
  | _ => s

/-- The halves of a shadow region of a launch on a core exchanged (R151, R206). -/
def State.swapHalves (s : State) (l core region : Nat) : State :=
  s.modLaunch l fun x => x.modPlace core fun p => { p with halves := listChange p.halves region fun b => !b }

/-- The state of the line tags that an access of a run finds, once every access that the core received before it, and
those that the run holds, are performed (R248, R252, R264). -/
def State.tagsAhead (s : State) (l : Nat) (core : Nat) (held : List Held) : State :=
  let s := (s.core core).engine.foldl (fun s e =>
    match s.launch? e.launch with
    | some x => if e.started then s else s.cmdTags x core e.cmd
    | none => s) s
  held.foldl (fun s h =>
    match s.launch? l with
    | none => s
    | some x =>
      match h with
      | .engine c => s.cmdTags x core c
      | .near _ ws => ws.foldl (fun s w => s.setTags x w.1 w.2.1 1 false 0) s
      | .publish r => s.swapHalves l core r
      | _ => s) s

end Sys2Proof.Machine
end

