-- ==== Sys2Proof/Machine/Engine.lean ====
section
/-!
DEFINITION. Copy and matrix commands at issue, 0x68–0x6F, and the tag waits (R239–R263).
-/

namespace Sys2Proof.Machine

/-! ### Tag waits (R244, R245) -/

/-- `tall` (R244): at position 1 the header has waited; elsewhere it stalls inside the run. -/
def execTall (g : BitVec 2) (mask : BitVec 16) (s : State) : Host.Outcome State Fault Refusal :=
  s.issue (.tall g mask) fun s c =>
    if c.r.pos != 1 && (s.core c.w.core).tagWaits c.p.launch false g.toNat mask then .stall else .go s c.r

/-- `tany` (R244). -/
def execTany (g : BitVec 2) (mask : BitVec 16) (s : State) : Host.Outcome State Fault Refusal :=
  s.issue (.tany g mask) fun s c =>
    if c.r.pos != 1 && (s.core c.w.core).tagWaits c.p.launch true g.toNat mask then .stall else .go s c.r

/-- `tffr` (R245). -/
def execTffr (k : BitVec 3) (d a : BitVec 5) (s : State) : Host.Outcome State Fault Refusal :=
  s.issue (.tffr k d a) fun s c =>
    if c.busyK k.toNat || c.busy [d, a] then .stall
    else match c.mask k with
      | none => .trap s (c.trap .setkind)
      | some m =>
        let tags := c.low m a 0#5
        let t := (List.range 64).find? fun t => tags.getLsbD t && !(s.core c.w.core).tagBusy c.p.launch t
        .go s (c.r.write d m fun _ => match t with | some t => BitVec.ofNat 64 t | none => 0xFFFFFFFFFFFFFFFF#64)

/-! ### Engine commands -/

/-- An engine command at issue (R239): a k field other than 0b000 is ENGSET; then the operands it uses are awaited. -/
def Ctx.engine (c : Ctx) (s : State) (k : BitVec 3) (uses : List (BitVec 5)) (f : Issue) : Issue :=
  if k != 0#3 then .trap s (c.trap .engset) else if c.busy uses then .stall else f

/-- The value of a window slot in the lowest live lane of k0 (R239). -/
def Ctx.slot (c : Ctx) (d : BitVec 5) : Word := c.low c.k0 d 0#5

/-- A trap with the address that caused it. -/
def Ctx.trapNear (c : Ctx) (code : Code) (a : Word) (write : Bool) : Trap :=
  { c.trap code (infoOf a) with kind := if write then 1 else 0, addr := a }

/-- Whether a command is a copy that moves nothing: its tag becomes busy and then ready at once (R247). -/
def Cmd.movesNothing : Cmd → Bool
  | .copy c => c.rows = 0 || c.cnt = 0
  | _ => false

/-- A command held for commit step 4. -/
def Run.command (r : Run) (x : Cmd) : Run := r.hold (.engine x)

/-! ### Copies (R246–R251) -/

/-- Whether a run of another warp of the launch on the core, or this run, has a copy tag reserved (R243). -/
def Core.tagReserved (k : Core) (l t : Nat) : Bool :=
  (k.warps ++ k.hnds).any fun e =>
    e.2.launch == l && (match e.2.run with | some r => r.res.tags.contains t | none => false)

/-- The pieces of a global range, one to each page it translates to; where a walk fails, to the next 64 KiB. -/
def State.pieces (s : State) (c t : Nat) (va : Word) (n : Nat) (acc : Access) :
    Nat → List (Word × Nat × Except Code Page) × State
  | 0 => ([], s)
  | fuel + 1 =>
    if n = 0 then ([], s)
    else match s.translate c t va acc with
      | (r, s) =>
        let len := match r with
          | .ok p => min n (p.va + p.size - va.toNat)
          | .error _ => min n (65536 - va.toNat % 65536)
        match s.pieces c t (va + BitVec.ofNat 64 len) (n - len) acc fuel with
        | (rest, s) => ((va, len, r) :: rest, s)

/-- The pieces of several ranges. -/
def State.piecesAll (s : State) (c t : Nat) (acc : Access) :
    List (Word × Nat) → List (List (Word × Nat × Except Code Page)) × State
  | [] => ([], s)
  | x :: r =>
    match s.pieces c t x.1 x.2 acc (x.2 / 65536 + 2) with
    | (a, s) =>
      match s.piecesAll c t acc r with
      | (rest, s) => (a :: rest, s)

/-- The fault of a list of pieces that goes first: XLATE, then PERM (R249). -/
def firstBad (ps : List (Word × Nat × Except Code Page)) : Option (Code × Word) :=
  let bad := ps.filterMap fun p => match p.2.2 with | .error e => some (e, p.1) | .ok _ => none
  (bad.find? fun e => e.1 == .xlate) <|> bad.head?

/-- The pages of a list of pieces, each once. -/
def pagesOf (ps : List (Word × Nat × Except Code Page)) : List Page :=
  ps.foldl (fun l p => match p.2.2 with
    | .ok q => if l.contains q then l else l ++ [q]
    | .error _ => l) []

/-- Whether a row's pieces break the alignment of the global side (R94, R135, R248). -/
def rowMisaligned (u : Nat) (ps : List (Word × Nat × Except Code Page)) : Option Word :=
  let last := ps.length - 1
  ((ps.zipIdx).find? fun e =>
    match e.1.2.2 with
    | .ok q =>
      let off := e.1.1.toNat - q.va
      off % u != 0 || q.size / u * u < off + (e.1.2.1 + u - 1) / u * u || (e.2 != last && e.1.2.1 % u != 0)
    | .error _ => false).map fun e => e.1.1

/-- Whether the near side of a copy lies in the launch's regions (R125), for the cores it reaches; `none` when it does,
else the trap's code and operand. -/
def Copy.nearBad (cp : Copy) (l : Launch) (core : Nat) (near : Word) (stride : Int) : Option (Code × Word) :=
  let rows := cp.rowList
  let hi := nearHigh near
  let mx := rows.any fun r => tagMx (cp.tagOf r)
  let cores (a : Word) : List Nat := match cp.mcast with | some ts => ts | none => [nearCore core a]
  let shared (a : Word) : Bool := cp.mcast.isSome && bitsOf a 31 24 != 255
  let okRegion (a : Word) : Bool :=
    bitsOf a 23 19 == 0 && !shared a && (cores a).all fun t => t < 144 && (l.place? t).isSome
  if !okRegion (nearLow near) || !(cp.dataPieces (nearLow near) stride).all (fun p => l.insideNear p.1 p.2) then
    some (.perm, near)
  else if !mx then (if hi = 0#64 then none else some (.perm, near))
  else if !okRegion hi || !(cp.scalePieces hi).all (fun p => l.insideNear p.1 p.2) then some (.perm, near)
  else none

/-- The addresses of the rows of the global side. -/
def Copy.globalRows (cp : Copy) : List Word :=
  let base := if cp.dir = 0 then cp.src else cp.dst
  let stride := if cp.dir = 0 then cp.sstr else cp.dstr
  cp.rowList.map fun (r : Nat) => base + BitVec.ofInt 64 (stride * (r : Int))

/-- A copy between near regions checked (R248, R249). -/
def Ctx.checkMove (c : Ctx) (cp : Copy) : Except Trap Copy :=
  match cp.nearBad c.l c.w.core cp.src cp.sstr, cp.nearBad c.l c.w.core cp.dst cp.dstr with
  | some e, _ => .error (c.trapNear e.1 e.2 false)
  | none, some e => .error (c.trapNear e.1 e.2 true)
  | none, none => .ok cp

/-- What a piece of a global range says of its page: where the access is refused, what the walk found (R120). -/
def State.pieceOf (s : State) (t : Nat) (p : Word × Nat × Except Code Page) : Option Page :=
  match p.2.2 with
  | .ok q => some q
  | .error _ => match s.walk t p.1.toNat with
    | .ok q => some q
    | .error _ => none

/-- The scale bytes of the blocks of a row's pieces (R94, R109): ranges of scale addresses, as far as their pages are known. -/
def State.scaleRanges (s : State) (t : Nat) (f : PageFmt) (ps : List (Word × Nat × Except Code Page)) : List (Word × Nat) :=
  ps.filterMap fun p => (s.pieceOf t p).map fun q =>
    let b := blockLen f.efmt
    let first := (p.1.toNat - q.va) / b
    let last := (p.1.toNat - q.va + p.2.1 - 1) / b
    (BitVec.ofInt 64 ((q.va : Int) + f.soff + first), last - first + 1)

/-- The first byte of some ranges of global addresses that R113 refuses. -/
def firstBeyond (rs : List (Word × Nat)) : Option Word :=
  (rs.find? fun r => 2 ^ 57 < r.1.toNat + r.2).map fun r => if 2 ^ 57 ≤ r.1.toNat then r.1 else BitVec.ofNat 64 (2 ^ 57)

/-- The checks of R249 after the translation of a copy's global side: the format entry of its pages, the format PERM of R248 and
R109, the alignment of both sides, the ownership of what it writes. `e0` is the first page's entry, `rows` and `scales` are the
pieces of the rows and of the scale bytes. The PERM of an h4 destination with an RM other than 0 comes with the format PERM, also
where the descriptor gives the h4 (DESIGN CHOICE, log 78). -/
def Ctx.checkFormats (c : Ctx) (cp : Copy) (ts : List Nat) (e0 : Word)
    (rows : List (List (Word × Nat × Except Code Page))) (scales : List (Word × Nat × Except Code Page)) : Except Trap Copy :=
  let toNear := cp.dir == 0
  let near := if toNear then cp.dst else cp.src
  let nstr := if toNear then cp.dstr else cp.sstr
  let vas := cp.globalRows
  let f := entryTag e0
  let other := rows.flatten.find? fun p => match p.2.2 with | .ok q => q.fmt != e0 | .error _ => false
  if fmtBad e0 then .error (c.trapNear .perm (vas.headD 0#64) (!toNear))
  else match other with
    | some p => .error (c.trapNear .perm p.1 (!toNear))
    | none =>
      if ts.any (fun t => (t % 16 == 0) != (f % 16 == 0))
          || (tagFmt (if toNear then ts.headD 0 else f) == .h4 && cp.rm != 0#3) then
        .error (c.trap .perm)
      else if (tagMx f || ts.any tagMx) && cp.cnt % 32 != 0 then .error (c.trap .align)
      else match rows.findSome? (rowMisaligned (unitBytes f)) with
        | some a => .error (c.trapNear .align a (!toNear))
        | none =>
          let cp : Copy := { cp with near := ts, pages := pagesOf (rows.flatten ++ scales), fmt := e0 }
          if cp.rowList.any fun r => rowOff (nearOff (nearLow near)) nstr r % (unitBytes (cp.tagOf r) : Int) != 0 then
            .error (c.trapNear .align near toNear)
          else if !toNear && (vas.any (fun a => c.l.ownBad a.toNat (rowBytes f cp.cnt))
              || scales.any fun p => c.l.ownBad p.1.toNat p.2.1) then .error (c.trap .ownvio)
          else .ok cp

/-- A copy between global memory and near space checked in the order of R249: PERM of R113 and R125 for every byte, its scale
bytes among them, as far as the walks of its pages give the row length and the format; for a page that gives none, for the first
byte of every row; then XLATE, and so on. `known` is the near side's format, where the descriptor or the line tags give it. -/
def State.checkCopy (s : State) (c : Ctx) (cp : Copy) (known : Option (List Nat)) : Except Trap Copy × State :=
  let toNear := cp.dir == 0
  let near := if toNear then cp.dst else cp.src
  let nstr := if toNear then cp.dstr else cp.sstr
  let acc : Access := if toNear then .read else .write
  let sacc : Access := if toNear then .read else .modify
  let vas := cp.globalRows
  let gv := vas.headD 0#64
  let perm (a : Word) (write : Bool) : Trap := c.trapNear .perm a write
  let nb (ts : List Nat) : Option Trap :=
    (({ cp with near := ts } : Copy).nearBad c.l c.w.core near nstr).map fun e => c.trapNear e.1 e.2 toNear
  let bad1 := (vas.find? fun a => bitsOf a 63 57 != 0).map fun a => perm a (!toNear)
  let bad2 := match known with
    | some ts => nb ts
    | none =>
      if (({ cp with near := [0], cnt := 1 } : Copy).nearBad c.l c.w.core (nearLow near) nstr).isSome then
        some (perm near toNear)
      else none
  match bad1 <|> bad2 with
  | some t => (.error t, s)
  | none =>
    match s.translate c.w.core c.tenant gv acc with
    | (first, s) =>
      let e0 : Option Word := match first with
        | .ok p => some p.fmt
        | .error _ => match s.walk c.tenant gv.toNat with | .ok p => some p.fmt | .error _ => none
      let legal := match e0 with | some e => !fmtBad e | none => false
      let f := entryTag (e0.getD 0#64)
      let len := match e0 with | some _ => if legal then rowBytes f cp.cnt else cp.cnt | none => 1
      let bad3 := (firstBeyond (vas.map fun a => (a, len))).map fun a => perm a (!toNear)
      let bad4 := if legal && known.isNone then nb [f] else none
      match bad3 <|> bad4 with
      | some t => (.error t, s)
      | none =>
        match s.piecesAll c.w.core c.tenant acc (vas.map fun a => (a, len)) with
        | (rows, s) =>
          let ranges := if legal && tagMx f then rows.flatMap (s.scaleRanges c.tenant (fmtOf (e0.getD 0#64))) else []
          match firstBeyond ranges with
          | some a => (.error (perm a (!toNear)), s)
          | none =>
            match s.piecesAll c.w.core c.tenant sacc ranges with
            | (scales, s) =>
              let bad := firstBad (rows.flatten ++ scales.flatten)
              match first, bad with
              | .ok p0, none => (c.checkFormats cp (known.getD [f]) p0.fmt rows scales.flatten, s)
              | .ok _, some e => (.error (c.trapAt e acc), s)
              | .error e, bad => (.error (c.trapAt (bad.getD (e, gv)) acc), s)

/-- The tag reserved and the command held (R243, R249); a busy or reserved tag stalls, and so does one for which another
warp has waited longer. -/
def Ctx.sendCopy (c : Ctx) (s : State) (cp : Copy) : Issue :=
  if (s.core c.w.core).tagBusy c.p.launch cp.tag || (s.core c.w.core).tagReserved c.p.launch cp.tag
      || (s.core c.w.core).grantedFirst c.w.slot c.w.hnd c.p then .stall
  else
    let r := c.r.command (.copy cp)
    .go s { r with res := { r.res with tags := r.res.tags ++ [cp.tag] } }

/-- The copy that a descriptor pair in window slots b and b + 1 describes (R247). -/
def Ctx.copyOf (c : Ctx) (d a b : BitVec 5) (t : BitVec 6) (dir : Nat) (mcast : Option (List Nat)) : Copy :=
  let w0 := c.slot b
  let w1 := c.slot (b + 1#5)
  { dir := dir, mcast := mcast, dst := c.slot d, src := c.slot a, rows := bitsOf w0 39 24, cnt := bitsOf w0 23 0,
    dstr := (w1.extractLsb' 32 32).toInt, sstr := (w1.extractLsb' 0 32).toInt, near := [], rm := w0.extractLsb' 45 3,
    ftz := w0.getLsbD 48, tag := t.toNat,
    tid := match lowest c.k0 with | some j => c.own.tids.getD j 0#64 | none => 0#64,
    seed := c.l.card.seed, pages := [], fmt := 0#64 }

/-- Whether the first byte of some row of the near source of a copy lies outside the region it names, so that its line
tags cannot be read. -/
def Ctx.tagsUnreadable (c : Ctx) (cp : Copy) : Bool :=
  !(c.l.regionOk c.w.core (nearLow cp.src)
    && cp.rowList.all fun r => c.l.insideNear (rowOff (nearOff (nearLow cp.src)) cp.sstr r) 1)

/-- The format of the near side of a copy with the descriptor's code `ne` and block bit `ng` (R248): the descriptor's;
without one, for `.n2g` the line tags as the commands ahead leave them, row by row; for `.g2n` that of the global side. -/
def State.nearFormat (s : State) (c : Ctx) (cp : Copy) (ne ng : Nat) : Option (List Nat) :=
  if ne != 0 || ng != 0 then some (if cp.dir = 1 then cp.rowList.map fun _ => ne + 16 * ng else [ne + 16 * ng])
  else if cp.dir = 1 then
    match (s.tagsAhead c.p.launch c.w.core c.r.held).launch? c.p.launch with
    | some l => some (cp.rowList.map fun r =>
        (s.tagsAhead c.p.launch c.w.core c.r.held).lineTag l (nearCore c.w.core (nearLow cp.src))
          (rowOff (nearOff (nearLow cp.src)) cp.sstr r).toNat false)
    | none => some []
  else none

/-- A copy at issue (R246–R250). -/
def Ctx.copy (c : Ctx) (s : State) (d a b : BitVec 5) (t : BitVec 6) (dir : Nat) (mcast : Option (List Nat)) : Issue :=
  let w0 := c.slot b
  let ne := bitsOf w0 43 40
  let ng := bitsOf w0 44 44
  let cp := c.copyOf d a b t dir mcast
  if bitsOf w0 63 49 != 0 || !rmOk cp.rm then .trap s (c.trap .perm)
  else if cp.rows = 0 || cp.cnt = 0 then c.sendCopy s { cp with rows := 0, cnt := 0 }
  else if ng == 1 && !(5 ≤ ne && ne ≤ 8) then .trap s (c.trap .perm)
  else if dir = 2 then
    if ne != 0 || ng != 0 || cp.rm != 0#3 || cp.ftz then .trap s (c.trap .perm)
    else match c.checkMove { cp with near := [0] } with
      | .error t => .trap s t
      | .ok cp => c.sendCopy s cp
  else if dir = 1 && ne == 0 && ng == 0 && c.tagsUnreadable cp then .trap s (c.trapNear .perm cp.src false)
  else match s.checkCopy c cp (s.nearFormat c cp ne ng) with
    | (.error t, s) => .trap s t
    | (.ok cp, s) => c.sendCopy s cp

/-- `cpy` (R246). -/
def execCpy (k : BitVec 3) (d a b : BitVec 5) (t : BitVec 6) (dir : BitVec 2) (s : State) :
    Host.Outcome State Fault Refusal :=
  s.issue (.cpy k d a b t dir) fun s c => c.engine s k [d, a, b, b + 1#5] (c.copy s d a b t dir.toNat none)

/-- `cpym` (R250). -/
def execCpym (k : BitVec 3) (d a b : BitVec 5) (t : BitVec 6) (pmask : BitVec 4) (s : State) :
    Host.Outcome State Fault Refusal :=
  s.issue (.cpym k d a b t pmask) fun s c => c.engine s k [d, a, b, b + 1#5]
    (c.copy s d a b t 0 (some (((List.range 4).filter fun i => pmask.getLsbD i).map (coreAt c.w.core))))

/-! ### Matrix commands (R254–R263) -/

/-- Whether a launch names a tile that it does not hold (R254). -/
def Ctx.tileBad (c : Ctx) (t : BitVec 4) : Bool := c.l.card.tc ≤ t.toNat

/-- A near operand of 32 bits that fails R125, or names a core that it may not. -/
def Ctx.operandBad (c : Ctx) (a : Word) (cores : List Nat) : Bool :=
  !c.l.regionOk c.w.core a || !cores.contains (nearCore c.w.core a)

/-- The fate of a matrix loop's descriptor (R256, R257). -/
def Mloop.bad (m : Mloop) (c : Ctx) : Option (Code × Word) :=
  let aa := nearLow m.d0
  let ba := nearHigh m.d0
  let sa := nearLow m.d3
  let sb := nearHigh m.d3
  let al := mloopAlign m.fmt
  let here := [c.w.core]
  let cluster := (List.range 4).map (coreAt c.w.core)
  let inside (xs : List (Int × Nat)) : Bool := xs.all fun x => c.l.insideNear x.1 x.2
  if !m.mx && (bitsOf m.d2 63 48 != 0 || m.d3 != 0#64) then some (.perm, 0#64)
  else if c.operandBad aa cluster || !inside (m.corners m.offA) then some (.perm, aa)
  else if c.operandBad ba here || !inside (m.corners m.offB) then some (.perm, ba)
  else if m.mx && (c.operandBad sa [nearCore c.w.core aa] || !inside (m.scaleCorners m.scaleA)) then some (.perm, sa)
  else if m.mx && (c.operandBad sb here || !inside (m.scaleCorners m.scaleB)) then some (.perm, sb)
  else if nearOff aa % al != 0 then some (.align, aa)
  else if nearOff ba % al != 0 then some (.align, ba)
  else if m.ia % al != 0 || m.ib % al != 0 || bitsOf m.d2 15 0 % al != 0 || bitsOf m.d2 31 16 % al != 0 then
    some (.align, 0#64)
  else none

/-- `mloop` (R256–R258) at issue. -/
def execMloop (k : BitVec 3) (d : BitVec 5) (t : BitVec 4) (zs ftz mx : BitVec 1) (fmt : BitVec 3) (s : State) :
    Host.Outcome State Fault Refusal :=
  s.issue (.mloop k d t zs ftz mx fmt) fun s c => c.engine s k [d, d + 1#5, d + 2#5, d + 3#5]
    (let m : Mloop :=
      { fmt := fmt.toNat, mx := mx == 1#1, zs := zs == 1#1, ftz := ftz == 1#1, t := t.toNat,
        d0 := c.slot d, d1 := c.slot (d + 1#5), d2 := c.slot (d + 2#5), d3 := c.slot (d + 3#5) }
     match m.bad c with
     | some e => .trap s (c.trapNear e.1 e.2 false)
     | none =>
       if c.tileBad t then .trap s (c.trap .perm)
       else .go s ((c.r.command (.mloop m)).stage (.tile t.toNat true)))

/-- `mzero` (R261) at issue. -/
def execMzero (k : BitVec 3) (t : BitVec 4) (s : State) : Host.Outcome State Fault Refusal :=
  s.issue (.mzero k t) fun s c => c.engine s k []
    (if c.tileBad t then .trap s (c.trap .perm)
     else .go s ((c.r.command (.mzero t.toNat)).stage (.tile t.toNat true)))

/-- `mrd.n` (R262, R263) at issue. Its near address need not be a multiple of an element's size (DEDUCED, log 84). -/
def execMrdN (k : BitVec 3) (d : BitVec 5) (t : BitVec 4) (bf e : BitVec 1) (s : State) :
    Host.Outcome State Fault Refusal :=
  s.issue (.mrdN k d t bf e) fun s c => c.engine s k [d]
    (let a := c.slot d
     if c.tileBad t then .trap s (c.trap .perm)
     else if !c.l.nearOk c.w.core a (if bf = 1#1 then 8192 else 16384) then .trap s (c.trapNear .perm a true)
     else
       let r := c.r.command (.mrdN t.toNat a.toNat (bf == 1#1))
       .go s (if e = 1#1 then r.stage (.tile t.toNat false) else r))

/-- The row and the column of element `e` of slot `q` of a lane in the window forms (R263), from row base `r0`. -/
def tileKey (t r0 j q e : Nat) : Nat := 4096 * t + 64 * (r0 + j / 8) + (8 * (j % 8) + 2 * q + e)

/-- Whether a row base breaks R262. -/
def rowBaseBad (v : Word) : Bool := v.toNat % 4 != 0 || 60 < v.toNat

/-- `mrd.w` (R262, R263): received at issue. -/
def execMrdW (k : BitVec 3) (d a : BitVec 5) (t : BitVec 4) (e : BitVec 1) (la : BitVec 4) (s : State) :
    Host.Outcome State Fault Refusal :=
  s.issue (.mrdW k d a t e la) fun s c => c.engine s k [a, d, d + 1#5, d + 2#5, d + 3#5]
    (let r0 := c.slot a
     let tile := c.l.tile c.w.core t.toNat
     if rowBaseBad r0 || c.tileBad t then .trap s (c.trap .perm)
     else if (s.core c.w.core).mustWait [] [(tile, false)] || (s.core c.w.core).boardFull then .stall
     else
       let el (j q x : Nat) : BitVec 32 := Tab.get 0#32 (s.core c.w.core).tiles (tileKey tile r0.toNat j q x)
       let vs := c.k0.toList.flatMap fun j => (List.range 4).map fun q => (32 * q + j, el j q 1 ++ el j q 0)
       let r := c.r.await (s.freshId c.w.core).1 (.win d 4) vs la
       .go (s.freshId c.w.core).2 (if e = 1#1 then r.stage (.tile t.toNat false) else r))

/-- `mwr.n` (R262, R263) at issue. Its near address need not be a multiple of an element's size (DEDUCED, log 84). -/
def execMwrN (k : BitVec 3) (d : BitVec 5) (t : BitVec 4) (s : State) : Host.Outcome State Fault Refusal :=
  s.issue (.mwrN k d t) fun s c => c.engine s k [d]
    (let a := c.slot d
     if c.tileBad t then .trap s (c.trap .perm)
     else if !c.l.nearOk c.w.core a 16384 then .trap s (c.trapNear .perm a false)
     else .go s ((c.r.command (.mwrN t.toNat a.toNat)).stage (.tile t.toNat true)))

/-- `mwr.w` (R262, R263) at issue: the four slots of every live lane are read. -/
def execMwrW (k : BitVec 3) (d a : BitVec 5) (t : BitVec 4) (s : State) : Host.Outcome State Fault Refusal :=
  s.issue (.mwrW k d a t) fun s c => c.engine s k [a, d, d + 1#5, d + 2#5, d + 3#5]
    (let r0 := c.slot a
     if rowBaseBad r0 || c.tileBad t then .trap s (c.trap .perm)
     else
       let vs := c.k0.toList.flatMap fun j => (List.range 4).map fun q => (4 * j + q, c.src (d + BitVec.ofNat 5 q) 0#5 j)
       .go s ((c.r.command (.mwrW t.toNat r0.toNat c.k0 vs)).stage (.tile t.toNat true)))

end Sys2Proof.Machine
end

