-- ==== Sys2Proof/Machine/Automaton.lean ====
section
/-!
DEFINITION. The learning-automaton array and its commands, 0x70–0x73 (R268–R286).
-/

namespace Sys2Proof.Machine

/-! ### The array (R268, R269, R272–R274) -/

/-- The state of a cell: its byte plus one (R268). -/
def Automaton.state (a : Automaton) (cells : Tab Byte) (r c : Nat) : Nat := (Tab.get a.fill cells (1024 * r + c)).toNat + 1

/-- The active columns, ascending (R269). -/
def Automaton.columns (a : Automaton) : List Nat := List.range a.nf ++ (List.range a.nf).map (512 + ·)

/-- The configuration of a row: negative polarity, class, weight (R272). -/
def Automaton.row (a : Automaton) (r : Nat) : Bool × Nat × Nat := a.rows.getD r (false, 0, 1)

/-- The active rows of a class, ascending (R269). -/
def Automaton.rowsOf (a : Automaton) (y : Nat) : List Nat :=
  if a.nc ≤ y then [] else (List.range a.nr).filter fun r => (a.row r).2.1 == y

/-- Whether a cell of an active column includes its literal (R269, R274). -/
def Automaton.included (a : Automaton) (cells : Tab Byte) (r c : Nat) : Bool := a.n < a.state cells r c

/-- The value of a literal under a vector, bit `i` being feature `i` (R274). -/
def literal (x c : Nat) : Bool := if c < 512 then x.testBit c else !x.testBit (c - 512)

/-- The output of a clause (R274). -/
def Automaton.clause (a : Automaton) (cells : Tab Byte) (r x : Nat) (fb : Bool) : Bool :=
  let cs := a.columns.filter fun c => a.included cells r c
  if cs.isEmpty then fb else cs.all fun c => literal x c

/-- The sum of the votes of rows, clamped to T (R274). -/
def Automaton.tally (a : Automaton) (rows : List Nat) (out : Nat → Bool) : Int :=
  let t := rows.foldl (fun (t : Int) r =>
    let w : Int := (a.row r).2.2
    if out r then (if (a.row r).1 then t - w else t + w) else t) 0
  max (-(a.t : Int)) (min (a.t : Int) t)

/-- Whether a threshold passes a random byte (R273). -/
def passes (th : Byte) (u : Nat) : Bool := th == 0xFF#8 || u < th.toNat

/-- The random byte of a cell or of a row's selection (R275). -/
def laByte (seed step : Word) (row col : Nat) : Nat :=
  let x := seed ^^^ (step * 0x9E3779B97F4A7C15#64)
  let x := x + BitVec.ofNat 64 (row * 1025 + col) * 0xD1B54A32D192ED03#64
  let x := (x ^^^ (x >>> 30)) * 0xBF58476D1CE4E5B9#64
  let x := (x ^^^ (x >>> 27)) * 0x94D049BB133111EB#64
  ((x ^^^ (x >>> 31)).setWidth 8).toNat

/-- The configuration that a block gives (R272, R273). -/
def Automaton.configure (a : Automaton) (bs : List Byte) : Automaton :=
  let w := BitVec.ofNat 64 (bytesToNat (bs.take 8))
  let n := max 1 (min 128 (bitsOf w 7 0))
  let top := BitVec.ofNat 8 (2 * n - 1)
  let clampByte (s : Byte) : Byte := if top.toNat < s.toNat then top else s
  let fill := if w.getLsbD 38 then BitVec.ofNat 8 (n - 1) else clampByte a.fill
  { a with
    n := n
    t := max 1 (bitsOf w 14 8)
    nc := bitsOf w 19 16 + 1
    nr := bitsOf w 27 20 + 1
    nf := min 512 (bitsOf w 37 28 + 1)
    nt := (bs.drop 8).take 8
    rows := (List.range 256).map fun r =>
      let e := BitVec.ofNat 64 (bytesToNat ((bs.drop (16 + 2 * r)).take 2))
      (e.getLsbD 15, bitsOf e 11 8, bitsOf e 7 0)
    cst := (bs.drop 528).take 256
    fill := fill
    cells := if w.getLsbD 38 then [] else a.cells.foldl (fun t e => Tab.set fill t e.1 (clampByte e.2)) []
    before := [] }

/-! ### Feedback (R276, R277) -/

/-- The nudge case of a cell, and whether it goes up (R277): `two` for type II, `o` the clause's output. -/
def nudgeCase (two o lit incl : Bool) : Option (Nat × Bool) :=
  match two, o, lit, incl with
  | false, true, true, true => some (0, true)
  | false, true, true, false => some (1, true)
  | false, true, false, false => some (2, false)
  | false, true, false, true => none
  | false, false, _, true => some (3, false)
  | false, false, _, false => some (4, false)
  | true, true, false, false => some (5, true)
  | true, true, true, false => some (6, false)
  | true, true, true, true => some (7, false)
  | true, true, false, true => none
  | true, false, _, _ => none

/-- The cells after the feedback of one selected row (R276). -/
def Automaton.nudgeRow (a : Automaton) (cells : Tab Byte) (r x : Nat) (pos : Bool) (o : Bool) : Tab Byte :=
  a.columns.foldl (fun t c =>
    match nudgeCase ((a.row r).1 == pos) o (literal x c) (a.included cells r c) with
    | none => t
    | some (k, up) =>
      if passes (a.nt.getD k 0#8) (laByte a.seed a.step r c) then
        let st := a.state cells r c
        Tab.set a.fill t (1024 * r + c) (BitVec.ofNat 8 ((if up then min (st + 1) (2 * a.n) else max (st - 1) 1) - 1))
      else t) cells

/-- The array after a feedback step (R276). -/
def Automaton.feedback (a : Automaton) (y x : Nat) (pos : Bool) : Automaton :=
  let rows := a.rowsOf y
  let v := a.tally rows fun r => a.clause a.cells r x true
  let j := (128 + (if pos then v else -v)).toNat
  let sel := rows.filter fun r => passes (a.cst.getD j 0#8) (laByte a.seed a.step r 1024)
  { a with
    cells := sel.foldl (fun t r => a.nudgeRow t r x pos (a.clause a.cells r x true)) a.cells
    step := a.step + 1 }

/-- The array with bytes written to columns of a row, and whether one was clamped (R284). -/
def Automaton.writeRow (a : Automaton) (r : Nat) (ws : List (Nat × Byte)) : Bool × Automaton :=
  let top := 2 * a.n - 1
  let stored := ws.map fun w => (1024 * r + w.1, if top < w.2.toNat then BitVec.ofNat 8 top else w.2)
  (ws.any fun w => top < w.2.toNat, { a with cells := Tab.setAll a.fill a.cells stored })

/-! ### Order (R278) -/

/-- Whether a command is a full writer, a row writer, or a reader of the array. -/
def Cmd.fullWriter : Cmd → Bool
  | .lacfg _ | .laseed _ _ => true
  | _ => false

def Cmd.rowWriter : Cmd → Bool
  | .lafb _ _ _ | .lawrN _ _ _ | .lawrW _ _ _ => true
  | _ => false

def Cmd.reader : Cmd → Bool
  | .lainfN _ _ _ _ | .lardN _ _ _ _ _ => true
  | _ => false

/-- Whether a command is one of the automaton's. -/
def Cmd.automaton (x : Cmd) : Bool := x.fullWriter || x.rowWriter || x.reader

/-- Whether a reader with or without `.after` may start behind commands that have not completed (R278 rules 4, 5). -/
def readerMayStart (earlier : List EngRec) (after : Bool) : Bool :=
  !(earlier.any fun e => e.cmd.fullWriter || (after && e.cmd.rowWriter))

/-- Whether a command may start behind commands received before it that have not completed (R278). -/
def Cmd.mayStart (x : Cmd) (earlier : List EngRec) : Bool :=
  if x.fullWriter then !(earlier.any fun e => e.cmd.automaton)
  else if x.rowWriter then
    !(earlier.any fun e => e.cmd.fullWriter || e.cmd.rowWriter || (e.cmd.reader && !e.started))
  else match x with
    | .lainfN _ _ _ after => readerMayStart earlier after
    | .lardN _ _ _ _ after => readerMayStart earlier after
    | _ => true

/-- The versions of the cells that a reader with an identifier may see, oldest first (R278 rule 4). -/
def Automaton.versions (a : Automaton) (id : Nat) (after : Bool) : List (Tab Byte) :=
  if after then [a.cells]
  else ((a.before.filter fun e => match e.1 with | none => true | some n => id < n).map (·.2)) ++ [a.cells]

/-- Free numbers up to `m`, as many as `n`. -/
def State.drawUpTo (s : State) (m : Nat) : Nat → List Nat × State
  | 0 => ([], s)
  | n + 1 =>
    match s.drawNat (m + 1) with
    | (x, s) =>
      match s.drawUpTo m n with
      | (xs, s) => (x :: xs, s)

/-- For each row, the vectors from which a reader of `m` vectors sees each later version: a later vector never sees an
older one (R278 rule 4). -/
def State.drawSwitches (s : State) (versions m : Nat) : Nat → List (List Nat) × State
  | 0 => ([], s)
  | n + 1 =>
    match s.drawUpTo m (versions - 1) with
    | (x, s) =>
      match s.drawSwitches versions m n with
      | (xs, s) => (x :: xs, s)

/-- The cells of a row that a reader sees for a vector. -/
def versionAt (vs : List (Tab Byte)) (switches : List (List Nat)) (r j : Nat) : Tab Byte :=
  vs.getD ((switches.getD r []).filter fun t => t ≤ j).length []

/-! ### Commands performed -/

/-- The class votes of a vector, as 16-bit values (R274, R282). -/
def Automaton.votes (a : Automaton) (cells : Nat → Tab Byte) (x : Nat) : List (BitVec 16) :=
  (List.range 16).map fun y =>
    BitVec.ofInt 16 (a.tally (a.rowsOf y) fun r => a.clause (cells r) r x false)

/-- The bytes of a row: counters, or inclusion bits (R284). -/
def Automaton.rowOut (a : Automaton) (cells : Tab Byte) (r : Nat) (inc : Bool) : List Byte :=
  if inc then
    (List.range 128).map fun b => BitVec.ofNat 8 ((List.range 8).foldl (fun v i =>
      let c := 8 * b + i
      if c % 512 < a.nf && a.included cells r c then v + 2 ^ i else v) 0)
  else (List.range 1024).map fun c => Tab.get a.fill cells (1024 * r + c)

/-- The array of a core changed by a row writer: the cells before it stay readable while it runs (R278). -/
def State.rowWrite (s : State) (core : Nat) (f : Automaton → Automaton) : State :=
  s.modCore core fun k => { k with auto := { f k.auto with before := k.auto.before ++ [(none, k.auto.cells)] } }

/-- The number that bytes of near space hold. -/
def State.nearNat (s : State) (l : Launch) (core off n : Nat) : Nat := bytesToNat (s.nearBytes l core off false n)

/-- An automaton command performed: its flags (R273, R276, R281–R284). `id` is its identifier. `lainf.n` reads all its vectors
before it writes, which R282 leaves open where its ranges overlap (DESIGN CHOICE, log 78). -/
def State.performAuto (s : State) (l : Launch) (core id : Nat) (x : Cmd) : BitVec 5 × State :=
  let a := (s.core core).auto
  let off (v : Nat) : Nat := nearOff (BitVec.ofNat 64 v)
  match x with
  | .lacfg addr =>
    (0#5, s.modCore core fun k => { k with auto := k.auto.configure (s.nearBytes l core (off addr) false 784) })
  | .laseed seed st =>
    (0#5, s.modCore core fun k => { k with auto := { k.auto with seed := seed, step := st, before := [] } })
  | .lafb addr y pos => (0#5, s.rowWrite core fun a => a.feedback y (s.nearNat l core (off addr) 64) pos)
  | .lainfN dst src m after =>
    let vs := a.versions id after
    match s.drawSwitches vs.length m 256 with
    | (sw, s) =>
      let out := (List.range m).flatMap fun j =>
        (a.votes (fun r => versionAt vs sw r j) (s.nearNat l core (off src + 64 * j) 64)).flatMap fun v => natToBytes v.toNat 2
      (0#5, (s.cmdTags l core x).nearWrites l core (off dst) true out)
  | .lardN dst row n inc after =>
    let vs := a.versions id after
    match s.drawSwitches vs.length 1 256 with
    | (sw, s) =>
      let out := (List.range n).flatMap fun i => a.rowOut (versionAt vs sw (row + i) 0) (row + i) inc
      (0#5, (s.cmdTags l core x).nearWrites l core (off dst) true out)
  | .lawrN src row n =>
    let rows := (List.range n).map fun i =>
      (row + i, ((s.nearBytes l core (off src + 1024 * i) false 1024).zipIdx).map fun e => (e.2, e.1))
    (if rows.any fun r => (a.writeRow r.1 r.2).1 then fSAT else 0#5,
      s.rowWrite core fun a => rows.foldl (fun a r => (a.writeRow r.1 r.2).2) a)
  | .lawrW row live vals =>
    let ws := live.toList.flatMap fun j => (List.range 4).flatMap fun q => (List.range 8).map fun i =>
      (32 * j + 8 * q + i, (Tab.get 0#64 vals (4 * j + q)).extractLsb' (8 * i) 8)
    (if (a.writeRow row ws).1 then fSAT else 0#5, s.rowWrite core fun a => (a.writeRow row ws).2)
  | _ => (0#5, s)

/-- The array after a command with an identifier completes: `next` is the first identifier given later, `left` the
commands that remain. Versions that no reader may see any more are dropped. -/
def Automaton.completed (a : Automaton) (x : Cmd) (next : Nat) (left : List EngRec) : Automaton :=
  let before := if x.rowWriter then a.before.map fun e => if e.1.isNone then (some next, e.2) else e else a.before
  { a with before := before.filter fun e => match e.1 with
      | none => true
      | some n => left.any fun q => q.cmd.reader && !q.started && q.id < n }

/-! ### At issue -/

/-- An automaton command at issue (R279, R280): ENGSET, then PERM where the launch does not hold the array. -/
def Ctx.array (c : Ctx) (s : State) (k : BitVec 3) (uses : List (BitVec 5)) (f : Issue) : Issue :=
  c.engine s k uses (if (s.core c.w.core).auto.holder != some c.p.launch then .trap s (c.trap .perm) else f)

/-- The trap of a near operand of an automaton or sweep command on `n` bytes (R280): it must lie on the issuing core. -/
def Ctx.ownNear (c : Ctx) (a : Word) (n align : Nat) (write : Bool) : Option Trap :=
  if !c.l.nearOk c.w.core a n || nearCore c.w.core a != c.w.core then some (c.trapNear .perm a write)
  else if nearOff a % align != 0 then some (c.trapNear .align a write)
  else none

/-- A command held after the checks of its near operands. -/
def Ctx.sendIf (c : Ctx) (s : State) (bad : Option Trap) (x : Cmd) : Issue :=
  match bad with
  | some t => .trap s t
  | none => .go s (c.r.command x)

/-- `lacfg` (R281). -/
def execLacfg (k : BitVec 3) (a : BitVec 5) (s : State) : Host.Outcome State Fault Refusal :=
  s.issue (.lacfg k a) fun s c => c.array s k [a] (c.sendIf s (c.ownNear (c.slot a) 784 8 false) (.lacfg (c.slot a).toNat))

/-- `laseed` (R281). -/
def execLaseed (k : BitVec 3) (a b : BitVec 5) (s : State) : Host.Outcome State Fault Refusal :=
  s.issue (.laseed k a b) fun s c => c.array s k [a, b] (c.sendIf s none (.laseed (c.slot a) (c.slot b)))

/-- The first of two traps of near operands: a PERM before an ALIGN; of two with one code, the first operand's (DESIGN CHOICE,
log 85). -/
def firstTrap (a b : Option Trap) : Option Trap :=
  match a, b with
  | some x, some y => if x.code == .align && y.code == .perm then some y else some x
  | some x, none => some x
  | none, y => y

/-- `lainf.n` (R282). The count's PERM comes before those of the near operands (DESIGN CHOICE, log 85). -/
def execLainfN (k : BitVec 3) (d a b : BitVec 5) (after : BitVec 1) (s : State) : Host.Outcome State Fault Refusal :=
  s.issue (.lainfN k d a b after) fun s c => c.array s k [d, a, b]
    (let m := (c.slot b).toNat
     if 65535 < m then .trap s (c.trap .perm)
     else c.sendIf s (firstTrap (c.ownNear (c.slot a) (64 * m) 32 false) (c.ownNear (c.slot d) (32 * m) 32 true))
       (.lainfN (c.slot d).toNat (c.slot a).toNat m (after == 1#1)))

/-- Whether a window form that reads the array must stall (R264, R278). -/
def Ctx.readerStalls (c : Ctx) (s : State) (rs : List NearRange) (after : BitVec 1) : Bool :=
  let k := s.core c.w.core
  !readerMayStart k.engine (after == 1#1) || k.mustWait rs [] || k.boardFull

/-- `lainf.w` (R282). -/
def execLainfW (k : BitVec 3) (d a : BitVec 5) (after : BitVec 1) (la : BitVec 4) (s : State) :
    Host.Outcome State Fault Refusal :=
  s.issue (.lainfW k d a after la) fun s c => c.array s k [a, d, d + 1#5, d + 2#5, d + 3#5]
    (match c.ownNear (c.slot a) 64 32 false with
     | some t => .trap s t
     | none =>
       if c.readerStalls s (c.l.range c.w.core (nearOff (c.slot a)) 64 false) after then .stall
       else
         let au := (s.core c.w.core).auto
         match s.freshId c.w.core with
         | (id, s) =>
           let vs := au.versions id (after == 1#1)
           match s.drawSwitches vs.length 1 256 with
           | (sw, s) =>
             let votes := au.votes (fun r => versionAt vs sw r 0) (s.nearNat c.l c.w.core (nearOff (c.slot a)) 64)
             let slot (q : Nat) : Word := votes.getD (4 * q + 3) 0#16 ++ votes.getD (4 * q + 2) 0#16
               ++ votes.getD (4 * q + 1) 0#16 ++ votes.getD (4 * q) 0#16
             .go s (c.r.await id (.win d 4)
               (c.k0.toList.flatMap fun j => (List.range 4).map fun q => (32 * q + j, slot q)) la))

/-- `lafb` (R283). The PERM of y comes before that of the near operand (DESIGN CHOICE, log 85). -/
def execLafb (k : BitVec 3) (a b : BitVec 5) (p : BitVec 1) (s : State) : Host.Outcome State Fault Refusal :=
  s.issue (.lafb k a b p) fun s c => c.array s k [a, b]
    (if 15 < (c.slot b).toNat then .trap s (c.trap .perm)
     else c.sendIf s (c.ownNear (c.slot a) 64 32 false) (.lafb (c.slot a).toNat (c.slot b).toNat (p == 1#1)))

/-- Whether rows lie outside the array (R284). -/
def rowsBad (a n : Word) : Bool := 255 < a.toNat || 256 < a.toNat + n.toNat

/-- `lard.n` (R284). The PERM of the rows comes before that of the near operand (DESIGN CHOICE, log 85). -/
def execLardN (k : BitVec 3) (d a b : BitVec 5) (inc after : BitVec 1) (s : State) : Host.Outcome State Fault Refusal :=
  s.issue (.lardN k d a b inc after) fun s c => c.array s k [d, a, b]
    (let n := (c.slot b).toNat
     if rowsBad (c.slot a) (c.slot b) then .trap s (c.trap .perm)
     else c.sendIf s (c.ownNear (c.slot d) (n * (if inc = 1#1 then 128 else 1024)) 32 true)
       (.lardN (c.slot d).toNat (c.slot a).toNat n (inc == 1#1) (after == 1#1)))

/-- `lard.w` (R284). -/
def execLardW (k : BitVec 3) (d a : BitVec 5) (after : BitVec 1) (la : BitVec 4) (s : State) :
    Host.Outcome State Fault Refusal :=
  s.issue (.lardW k d a after la) fun s c => c.array s k [a, d, d + 1#5, d + 2#5, d + 3#5]
    (if rowsBad (c.slot a) 1#64 then .trap s (c.trap .perm)
     else if c.readerStalls s [] after then .stall
     else
       let au := (s.core c.w.core).auto
       match s.freshId c.w.core with
       | (id, s) =>
         let vs := au.versions id (after == 1#1)
         match s.drawSwitches vs.length 1 256 with
         | (sw, s) =>
           let row := (c.slot a).toNat
           let cells := versionAt vs sw row 0
           let slot (j q : Nat) : Word := BitVec.ofNat 64 (bytesToNat ((List.range 8).map fun i =>
             Tab.get au.fill cells (1024 * row + 32 * j + 8 * q + i)))
           .go s (c.r.await id (.win d 4)
             (c.k0.toList.flatMap fun j => (List.range 4).map fun q => (32 * q + j, slot j q)) la))

/-- `lawr.n` (R284). The PERM of the rows comes before that of the near operand (DESIGN CHOICE, log 85). -/
def execLawrN (k : BitVec 3) (d a b : BitVec 5) (s : State) : Host.Outcome State Fault Refusal :=
  s.issue (.lawrN k d a b) fun s c => c.array s k [d, a, b]
    (if rowsBad (c.slot a) (c.slot b) then .trap s (c.trap .perm)
     else c.sendIf s (c.ownNear (c.slot d) (1024 * (c.slot b).toNat) 32 false)
       (.lawrN (c.slot d).toNat (c.slot a).toNat (c.slot b).toNat))

/-- `lawr.w` (R284). -/
def execLawrW (k : BitVec 3) (d a : BitVec 5) (s : State) : Host.Outcome State Fault Refusal :=
  s.issue (.lawrW k d a) fun s c => c.array s k [a, d, d + 1#5, d + 2#5, d + 3#5]
    (if rowsBad (c.slot a) 1#64 then .trap s (c.trap .perm)
     else
       let vs := c.k0.toList.flatMap fun j => (List.range 4).map fun q => (4 * j + q, c.src (d + BitVec.ofNat 5 q) 0#5 j)
       .go s (c.r.command (.lawrW (c.slot a).toNat c.k0 vs)))

end Sys2Proof.Machine
end

