-- ==== Sys2Proof/Machine/SfMath.lean ====
section
/-!
DEFINITION. The special functions (R185–R188): the exact value of each at an f32 operand, enclosed between two
numbers, and its one rounding. Fixed-point numbers here are integers in units of `2^-832`.
-/

namespace Sys2Proof.Machine

/-- The fraction bits of the fixed-point numbers. -/
def fixBits : Nat := 832

/-- One. -/
def fixOne : Int := 2 ^ fixBits

/-- The product of two fixed-point numbers, truncated. -/
def fixMul (a b : Int) : Int := a * b / fixOne

/-- The quotient of two fixed-point numbers, truncated. -/
def fixDiv (a b : Int) : Int := a * fixOne / b

/-- The integer square root of `n`, bit by bit from bit `k - 1` down, above the part `r` found. -/
def isqrtFrom (n r : Nat) : Nat → Nat
  | 0 => r
  | k + 1 => if (r + 2 ^ k) * (r + 2 ^ k) ≤ n then isqrtFrom n (r + 2 ^ k) k else isqrtFrom n r k

/-- The integer square root. -/
def isqrt (n : Nat) : Nat := isqrtFrom n 0 (Nat.log2 n / 2 + 1)

/-- The series `Σ ± u^(2k+1) / (2k+1)` for `u = 1/m`, in units of `2^-bits`: atan, or atanh with `alt` false. -/
def invSeries (m : Nat) (alt : Bool) (t k : Nat) : Nat → Int
  | 0 => 0
  | n + 1 => (if alt && k % 2 == 1 then -1 else 1) * (t / (2 * k + 1) : Nat) + invSeries m alt (t / (m * m)) (k + 1) n

/-- π in units of `2^-(832+256)`. -/
def piWide : Int :=
  16 * invSeries 5 true (2 ^ (fixBits + 256) / 5) 0 260 - 4 * invSeries 239 true (2 ^ (fixBits + 256) / 239) 0 80

/-- π. -/
def fixPi : Int := piWide / 2 ^ 256

/-- ln 2. -/
def fixLn2 : Int :=
  18 * invSeries 26 false (2 ^ fixBits / 26) 0 100 - 2 * invSeries 4801 false (2 ^ fixBits / 4801) 0 40
    + 8 * invSeries 8749 false (2 ^ fixBits / 8749) 0 40

/-- The series of e^y from its `k`-th term `t`. -/
def expSeries (y t : Int) (k : Nat) : Nat → Int
  | 0 => 0
  | n + 1 => t + expSeries y (fixMul t y / (k + 1 : Nat)) (k + 1) n

/-- e^y for a small y. -/
def fixExpSmall (y : Int) : Int := expSeries y fixOne 0 130

/-- 2^x for x at most 0. -/
def fixExp2Neg (x : Int) : Int :=
  let n := x / fixOne
  let f := x - n * fixOne
  fixExpSmall (fixMul f fixLn2) / pow2 (-n)

/-- e^x for x at most 0. -/
def fixExpNeg (x : Int) : Int := fixExp2Neg (fixDiv x fixLn2)

/-- The series of atanh z from its `k`-th term, `t` the power of z. -/
def atanhSeries (z2 t : Int) (k : Nat) : Nat → Int
  | 0 => 0
  | n + 1 => t / (2 * k + 1 : Nat) + atanhSeries z2 (fixMul t z2) (k + 1) n

/-- ln x for x between 2/3 and 4/3, or `1 + t` given as such. -/
def fixLnNear (x : Int) : Int :=
  let z := fixDiv (x - fixOne) (x + fixOne)
  2 * atanhSeries (fixMul z z) z 0 190

/-- ln x for x between 1 and 2. -/
def fixLn12 (x : Int) : Int :=
  if 3 * x ≤ 4 * fixOne then fixLnNear x else fixLnNear (x / 2) + fixLn2

/-- The series of sin or cos from its `k`-th term. -/
def sinSeries (y2 t : Int) (k : Nat) : Nat → Int
  | 0 => 0
  | n + 1 => t + sinSeries y2 (-(fixMul t y2) / ((k + 1) * (k + 2) : Nat)) (k + 2) n

/-- sin y for a small y. -/
def fixSinSmall (y : Int) : Int := sinSeries (fixMul y y) y 1 90

/-- cos y for a small y. -/
def fixCosSmall (y : Int) : Int := sinSeries (fixMul y y) fixOne 0 90

/-- The series `Σ (−w)^k / (k! (2k+1))` from its `k`-th term, `t` its numerator. -/
def erfSeries (w t : Int) (k : Nat) : Nat → Int
  | 0 => 0
  | n + 1 => t / (2 * k + 1 : Nat) + erfSeries w (-(fixMul t w) / (k + 1 : Nat)) (k + 1) n

/-- √π. -/
def fixSqrtPi : Int := (isqrt (fixPi * fixOne).toNat : Nat)

/-- erf x for |x| at most 11. -/
def fixErf (x : Int) : Int := fixDiv (2 * fixMul x (erfSeries (fixMul x x) fixOne 0 700)) fixSqrtPi

/-- sin (quadrant 0) or cos (quadrant 1) of x, `m · 2^e` exact and `m` an integer: reduced by a multiple of π/2
with no error but that of π. -/
def fixTrig (quad : Nat) (m : Int) (e : Int) : Int :=
  -- x in units of 2^-(832+256)
  let x := if 0 ≤ e + fixBits + 256 then m * pow2 (e + fixBits + 256) else m / pow2 (-(e + fixBits + 256))
  let half := piWide / 2
  let n := (2 * x + half) / (2 * half)
  let y := (x - n * half) / 2 ^ 256
  match ((n + quad) % 4).toNat with
  | 0 => fixSinSmall y
  | 1 => fixCosSmall y
  | 2 => -fixSinSmall y
  | _ => -fixCosSmall y

/-- What is known of an exact value: the value itself, or that it lies strictly between two fixed-point numbers. -/
inductive Enclosure where
  | exact (v : Val)
  | between (lo hi : Int)
  deriving DecidableEq, Repr

/-- The numbers within `2^-600` of a fixed-point number. -/
def around (v : Int) : Enclosure := .between (v - 2 ^ (fixBits - 600)) (v + 2 ^ (fixBits - 600))

/-- The positive numbers below `2^-160`. -/
def tinyPos : Enclosure := .between 1 (2 ^ (fixBits - 160))

/-- The square root of `n · 2^e`, exact where it is a dyadic number with few bits. -/
def sqrtOf (n : Nat) (e : Int) : Enclosure :=
  let n' := if e % 2 = 0 then n else 2 * n
  let h := (if e % 2 = 0 then e else e - 1) / 2
  let r := isqrt (n' * 2 ^ 200)
  if r * r = n' * 2 ^ 200 then .exact (.num false r 1 (h - 100))
  else .between (r * pow2 (h - 100 + fixBits)) ((r + 1) * pow2 (h - 100 + fixBits))

/-- The exact value of a function of R185 at a finite nonzero operand `± n · 2^e` inside the function's domain. -/
def functionAt (fn : Nat) (neg : Bool) (n : Nat) (e : Int) : Enclosure :=
  let m : Int := if neg then -(n : Int) else n
  let big := (Nat.log2 n : Int) + e
  -- the operand in fixed point, for a magnitude below 2^9
  let x : Int := if 0 ≤ e + fixBits then m * pow2 (e + fixBits) else m / pow2 (-(e + fixBits))
  let a : Int := if neg then -x else x
  match fn with
  | 0 =>
    if 9 ≤ big then (if neg then tinyPos else .between (2 ^ 300 * fixOne) (2 ^ 301 * fixOne))
    else if x % fixOne = 0 then .exact (.num false 1 1 (x / fixOne))
    else
      let k := x / fixOne
      let y := fixExpSmall (fixMul (x - k * fixOne) fixLn2)
      .between ((y - 2 ^ 100) * pow2 k / pow2 (-k)) ((y + 2 ^ 100) * pow2 k / pow2 (-k) + 1)
  | 1 =>
    let k := Nat.log2 n
    if n = 2 ^ k then .exact (.ofInt ((k : Int) + e))
    else
      let r : Int := (n * 2 ^ fixBits / 2 ^ k : Nat)
      around (((k : Int) + e) * fixOne + fixDiv (fixLn12 r) fixLn2)
  | 2 => .exact (.num neg 1 n (-e))
  | 3 =>
    match sqrtOf n e with
    | .exact (.num _ r d g) => .exact (.num false d r (-g))
    | .between lo hi => .between (fixOne * fixOne / hi) (fixOne * fixOne / lo + 1)
    | z => z
  | 4 => sqrtOf n e
  | 5 => around (fixTrig 0 m e)
  | 6 => around (fixTrig 1 m e)
  | 7 =>
    if 6 ≤ big then
      (if neg then .between (-fixOne) (-fixOne + 2 ^ (fixBits - 80)) else .between (fixOne - 2 ^ (fixBits - 80)) fixOne)
    else
      let t := fixExpNeg (-2 * a)
      let y := fixDiv (fixOne - t) (fixOne + t)
      around (if neg then -y else y)
  | 8 =>
    if 8 ≤ big then (if neg then tinyPos else .between (fixOne - 2 ^ (fixBits - 80)) fixOne)
    else
      let t := fixExpNeg (-a)
      around (if neg then fixDiv t (fixOne + t) else fixDiv fixOne (fixOne + t))
  | 9 =>
    if 4 ≤ big then
      (if neg then .between (-(2 ^ (fixBits - 160))) (-1)
       else if 140 ≤ big then .exact (.num false n 1 e)
       else .between (m * pow2 (e + fixBits) - 2 ^ (fixBits - 100)) (m * pow2 (e + fixBits)))
    else
      let w := fixMul x x / 2
      let c := fixDiv (isqrt (2 * fixOne * fixOne).toNat : Nat) fixSqrtPi
      around (fixMul x (fixOne + fixMul c (fixMul x (erfSeries w fixOne 0 700))) / 2)
  | 10 =>
    if 3 ≤ big then
      (if neg then .between (-fixOne) (-fixOne + 2 ^ (fixBits - 80)) else .between (fixOne - 2 ^ (fixBits - 80)) fixOne)
    else around (fixErf x)
  | _ =>
    if 8 ≤ big then
      (if neg then tinyPos
       else .between (m * pow2 (e + fixBits)) (m * pow2 (e + fixBits) + 2 ^ (fixBits - 200)))
    else
      let t := fixExpNeg (-a)
      let y := fixLn12 (fixOne + t)
      around (if neg then y else x + y)

/-- A fixed-point number as a value. -/
def fixVal (v : Int) : Val := .num (v < 0) v.natAbs 1 (-(fixBits : Int))

/-- Rounds an enclosed value into a format, RN. DEDUCED (log 12): no rounding boundary of f32 lies between the two ends,
so the value rounds as their middle does. A value strictly between the ends is no exact case: it is inexact. -/
def roundEnclosure (f : EFmt) (ftz : Bool) : Enclosure → Nat × BitVec 5
  | .exact v => encodeVal f 0#3 ftz 0 v
  | .between lo hi =>
    let x := encodeVal f 0#3 ftz 0 (fixVal ((lo + hi) / 2))
    (x.1, x.2 ||| fNX)

/-- The results of R187 for special operands: the value and the flags; `none` for an operand inside the domain. -/
def specialResult (fn : Nat) (v : Val) : Option (Val × BitVec 5) :=
  let nan : Val × BitVec 5 := (.nan false, fNV)
  match v with
  | .nan b => some (.nan false, flagIf b fNV)
  | .inf true =>
    some (match fn with
      | 0 | 8 | 11 => (.num false 0 1 0, 0#5)
      | 2 | 9 => (.num true 0 1 0, 0#5)
      | 7 | 10 => (.ofInt (-1), 0#5)
      | _ => nan)
  | .inf false =>
    some (match fn with
      | 0 | 1 | 4 | 9 | 11 => (.inf false, 0#5)
      | 2 | 3 => (.num false 0 1 0, 0#5)
      | 5 | 6 => nan
      | _ => (.ofInt 1, 0#5))
  | .num s n d e =>
    if n = 0 then
      match fn with
      | 0 | 6 => some (.ofInt 1, 0#5)
      | 1 => some (.inf true, 0#5)
      | 2 | 3 => some (.inf s, 0#5)
      | 8 => some (.num false 1 1 (-1), 0#5)
      | 11 => none
      | _ => some (.num s 0 1 0, 0#5)
    else if s && (fn == 1 || fn == 3 || fn == 4) then some nan
    else (fun _ => none) (d, e)

/-- The exact value of a function at an operand inside its domain; softplus of a zero is ln 2. -/
def enclosureAt (fn : Nat) : Val → Enclosure
  | .num s n _ e => if n = 0 then around fixLn2 else functionAt fn s n e
  | v => .exact v

/-- The f32 result of a function at an operand (R187). -/
def function32 (fn : Nat) (ftz : Bool) (v : Val) : Nat × BitVec 5 :=
  match specialResult fn v with
  | some r => let x := encodeVal .f32 0#3 ftz 0 r.1; (x.1, x.2 ||| r.2)
  | none => roundEnclosure .f32 ftz (enclosureAt fn v)

/-- Whether a value is tiny in a format as RN rounds it there (R83), or is a zero. -/
def isTiny (p : Ieee) : Val → Bool
  | .num s n d e => n == 0 || p.tiny 0#3 0 s n d e
  | _ => false

/-- The comparison of an enclosed exact value with the value of a code: whether they differ (R188). -/
def differs (x : Enclosure) (v : Val) : Bool :=
  match x with
  | .exact w => !(w.cmp v == .eq)
  | .between _ _ => true

/-- The result of a function on a 16-bit operand (R188): the f32 result rounded a second time, with the flags of the
16-bit result against the exact value. -/
def function16 (fn : Nat) (f : EFmt) (ftz : Bool) (v : Val) : Nat × BitVec 5 :=
  match ieeeOf f with
  | none => (0, 0#5)
  | some p =>
    match specialResult fn v with
    | some r => let x := encodeVal f 0#3 ftz 0 r.1; (x.1, x.2 ||| r.2)
    | none =>
      let r32 := function32 fn false v
      let mid := decodeVal .f32 r32.1
      let r := encodeVal f 0#3 ftz 0 mid
      let out := decodeVal f r.1
      match out with
      | .inf _ => (r.1, fOF ||| fNX)
      | _ =>
        let ne := differs (enclosureAt fn v) out
        (r.1, flagIf ne fNX ||| flagIf (ne && isTiny p mid) fUF)

/-- A special function on an element (R187, R188). -/
def specialFunction (fn : Nat) (f : EFmt) (ftz : Bool) (code : Nat) : Nat × BitVec 5 :=
  let v := decodeFtz f ftz code
  match f with
  | .f32 => function32 fn ftz v
  | _ => function16 fn f ftz v

end Sys2Proof.Machine
end

