-- ==== Sys2Proof/Machine/Sfq.lean ====
section
/-!
DEFINITION. The special-function queue, 0x50–0x52 (R183–R191).
-/

namespace Sys2Proof.Machine

/-- Whether a register carries a mark of a tag or a token (R63, R190). -/
def Warp.marked (p : Warp) (reg : Nat) : Bool := p.marks.any fun m => m.reg == reg && m.owner != .untagged

/-- Whether a register that a warp and its owner share carries such a mark: a handler and the warp it handles use the same
main registers (R346, R347). -/
def Warp.hazard (p o : Warp) (reg : Nat) : Bool := p.marked reg || o.marked reg

/-- Whether a token of a warp is busy (R184). -/
def Warp.tokenBusy (p : Warp) (t : Nat) : Bool := p.sfq.any fun q => q.token == t

/-- The lowest token neither busy nor reserved in the run (R186). -/
def Ctx.freeToken (c : Ctx) : Option Nat :=
  (List.range 16).find? fun t => !c.p.tokenBusy t && !c.r.res.tokens.contains t

/-- `sfq.FN.FT` at issue (R185, R186): where a and b name one slot, a is read before b is written, as R157 has every source
read first (DEDUCED, log 61). -/
def execSfq (k : BitVec 3) (d a b : BitVec 5) (ty : BitVec 2) (fn : BitVec 4) (ftz : BitVec 1) (s : State) :
    Host.Outcome State Fault Refusal :=
  s.issue (.sfq k d a b ty fn ftz) fun s c =>
    if c.busyK k.toNat || c.busy [a, b] then .stall
    else match c.mask k with
      | none => .trap s (c.trap .setkind)
      | some m =>
        let reg := c.r.regOf d.toNat
        if 8 * c.own.g ≤ reg then .trap s (c.trap .regbnd)
        else if c.p.hazard c.own reg || (c.r.sfq.any fun e => c.r.regOf e.1.toNat == reg) then
          .trap s (c.trap .runhaz)
        else match c.freeToken with
          | none => .stall
          | some t =>
            let op : SfqOp := { token := t, reg := reg, lanes := m, fn := fn.toNat, ty := ty, ftz := ftz == 1#1,
                                vals := m.toList.map fun j => (j, c.src a 0#5 j) }
            let r := (c.r.write b m fun _ => BitVec.ofNat 64 t).hold (.sfq op)
            .go s { r with sfq := r.sfq ++ [(d, t)], res := { r.res with tokens := r.res.tokens ++ [t] } }

/-- Whether `sfw` would wait (R189). -/
def Warp.sfwWaits (p : Warp) (mask : BitVec 16) : Bool := p.sfq.any fun q => mask.getLsbD q.token

/-- `sfw #mask` (R189): at position 1 the header has waited; elsewhere it stalls. -/
def execSfw (mask : BitVec 16) (s : State) : Host.Outcome State Fault Refusal :=
  s.issue (.sfw mask) fun s c => if c.p.sfwWaits mask then .stall else .go s c.r

/-- `sfp` (R191). -/
def execSfp (k : BitVec 3) (d : BitVec 5) (s : State) : Host.Outcome State Fault Refusal :=
  s.issue (.sfp k d) fun s c => c.pure s k d [] fun _ =>
    BitVec.ofNat 64 (((List.range 16).filter fun t => !c.p.tokenBusy t).foldl (fun x t => x + 2 ^ t) 0)

/-- The result of an operation in a lane, with its flags (R186–R188). -/
def SfqOp.result (q : SfqOp) (v : Word) : Word × BitVec 5 :=
  mapSubs (tyFmt q.ty) fun i => specialFunction q.fn (tyFmt q.ty) q.ftz (subOf (tyFmt q.ty) v i)

/-- Marks without the lanes that a result has been written to in a register: a value that a write-back of the issuing run still
awaits there is replaced by the result (R186). -/
def Mark.yields (reg : Nat) (lanes : Mask) (m : Mark) : Mark :=
  if m.reg == reg then { m with lanes := m.lanes &&& ~~~lanes } else m

/-- Event SFQ_COMPLETION: the operation on a token completes (R186). A result of a lane that is no longer live,
or for a register above the allocation, is discarded; the others replace what the issuing run's write-back still awaits. -/
def execSfqCompletion (w : WarpRef) (token : Nat) (s : State) : Host.Outcome State Fault Refusal :=
  match s.warp? w, s.warp? (ownerRef w) with
  | some p, some o =>
    match p.sfq.find? fun q => q.token == token with
    | none => .next s
    | some q =>
      let rs := (q.vals.filter fun e => p.live.getLsbD e.1).map fun e => (e.1, q.result e.2)
      let s := s.modWarp (ownerRef w) fun o' =>
        if q.reg < 8 * o.g then
          let kept := rs.filter fun e => q.lanes.getLsbD e.1
          { o' with regs := kept.foldl (fun t e => Tab.set 0#64 t (32 * q.reg + e.1) e.2.1) o'.regs }
        else o'
      .next (s.modWarp w fun p =>
        { p with sfq := p.sfq.filter fun x => x.token != token
                 marks := (p.marks.filter fun x => x.owner != .token token).map
                   (Mark.yields q.reg (rs.foldl (fun m e => m ||| laneBit e.1) 0#32 &&& q.lanes))
                 fpflags := p.fpflags ||| rs.foldl (fun x e => x ||| e.2.2) 0#5 })
  | _, _ => .next s

end Sys2Proof.Machine
end

