-- ==== Sys2Proof/Machine/Fetch.lean ====
section
/-!
DEFINITION. The fetch of a run and its header (R31, R49–R51, R60, R63, R77, R81, R124).
-/

namespace Sys2Proof.Machine

/-! ### Instruction fetch -/

/-- The packet of a line of physical memory. -/
def State.packetAt (s : State) (line : Nat) : BitVec 128 := BitVec.ofNat 128 (bytesToNat (s.readBytes (16 * line) 16))

/-- Whether some line of a core's instruction cache differs from memory. -/
def State.staleCode (s : State) (c : Nat) : Bool := (s.core c).icache.any fun e => e.2.1 != s.packetAt e.1

/-- Lines taken from memory put in a core's instruction cache. They form one view of code with every cached line that agrees
with memory; where some line does not, that view is a new one, and no later fetch sees an old line beside one of them (R81; DESIGN
CHOICE, log 6). -/
def State.fillCode (s : State) (c : Nat) (ls : List (Nat × BitVec 128)) : State :=
  let cache := (s.core c).icache
  let epoch := cache.foldl (fun m e => max m e.2.2) 0 + (if s.staleCode c then 1 else 0)
  let kept := cache.map fun e => if e.2.1 == s.packetAt e.1 then (e.1, e.2.1, epoch) else e
  s.modCore c fun k => { k with icache := ls.foldl (fun t e => Dict.put t e.1 (e.2, epoch)) kept }

/-- The view of code that a core has cached under an epoch. -/
def Core.oldView (k : Core) (epoch line : Nat) : Option (BitVec 128) :=
  match Dict.find k.icache line with
  | some e => if e.2 = epoch then some e.1 else none
  | none => none

/-- Packets at ascending code addresses from one view (R124), with their lines: none where the view lacks one. -/
def State.viewPackets (s : State) (c t : Nat) (va : Word) (view : Nat → Option (BitVec 128)) :
    Nat → Option (Except (Code × Word) (List (Nat × BitVec 128)) × State)
  | 0 => some (.ok [], s)
  | n + 1 =>
    match s.translate c t va .fetch with
    | (.error e, s) => some (.error (e, va), s)
    | (.ok p, s) =>
      let line := p.phys va.toNat / 16
      match view line with
      | none => none
      | some v =>
        match s.viewPackets c t (va + 16#64) view n with
        | some (.ok r, s) => some (.ok ((line, v) :: r), s)
        | r => r

/-- The number of packets after a header; none where its LEN is not a length. -/
def hdrPackets (h : BitVec 128) : Nat := if 1 ≤ hdrLen h && hdrLen h ≤ 24 then (hdrLen h + 2) / 3 else 0

/-- A trap of the fetch (R80, R349). -/
def fetchTrap (e : Code × Word) : Trap := { code := e.1, pos := 26, info := infoOf e.2, lanes := none, kind := 2, addr := e.2 }

/-- The packets of a run from one view of code: a packet that is no header is ILLPKT. -/
def State.viewRun (s : State) (c t : Nat) (va : Word) (view : Nat → Option (BitVec 128)) :
    Option (Except Trap (List (Nat × BitVec 128)) × State) :=
  match s.viewPackets c t va view 1 with
  | some (.ok [h], s) =>
    if h.2.extractLsb' 126 2 != 1#2 then
      some (.error { code := .illpkt, pos := 26, info := 0, lanes := none, kind := 0 }, s)
    else match s.viewPackets c t (va + 16#64) view (hdrPackets h.2) with
      | some (.ok ps, s) => some (.ok (h :: ps), s)
      | some (.error e, s) => some (.error (fetchTrap e), s)
      | none => none
  | some (.error e, s) => some (.error (fetchTrap e), s)
  | _ => none

/-- The run at a code address as the instruction cache of a core had it, whole, where it holds it so (R81). -/
def State.oldRun (s : State) (c t : Nat) (va : Word) : Option (Except Trap (List (Nat × BitVec 128)) × State) :=
  match s.translate c t va .fetch with
  | (.ok p, _) =>
    match Dict.find (s.core c).icache (p.phys va.toNat / 16) with
    | some e => s.viewRun c t va ((s.core c).oldView e.2)
    | none => none
  | _ => none

/-- The run at a code address: every packet from one view of code (R81). Where a cached line differs from memory, the fetch
may use either view (R77; log 6). -/
def State.fetchRun (s : State) (c t : Nat) (va : Word) : Option (Except Trap (List (BitVec 128)) × State) :=
  let (old, s) := if s.staleCode c then s.drawBit else (false, s)
  match (if old then s.oldRun c t va else none) with
  | some (r, u) => some (r.map fun ls => ls.map (·.2), u)
  | none =>
    match s.viewRun c t va fun line => some (s.packetAt line) with
    | some (.ok ls, u) => some (.ok (ls.map (·.2)), u.fillCode c ls)
    | some (.error e, u) => some (.error e, u)
    | none => none

/-- Event INSTRUCTION_FETCH: a warp at a boundary fetches its next run whole (R81, R124). A packet that is no
header is ILLPKT. -/
def execInstructionFetch (w : WarpRef) (s : State) : Host.Outcome State Fault Refusal :=
  match s.warp? w with
  | none => .next { s with stall := true }
  | some p =>
    match s.launch? p.launch with
    | none => .next { s with stall := true }
    | some l =>
      if p.run.isSome || p.fetched.isSome || p.icinv.isSome || p.sched == .suspended || p.wait != .none
          || p.live == 0#32 then .next { s with stall := true }
      else match p.later with
      | some t => .next (s.takeTrap w t)
      | none =>
        match s.fetchRun w.core l.tenant p.pc with
        | some (.ok (h :: ps), s) =>
          .next (s.modWarp w fun p => { p with fetched := some { addr := p.pc, hdr := h, packs := ps } })
        | some (.error t, s) => .next (s.takeTrap w t)
        | _ => .next { s with stall := true }

/-! ### The header -/

/-- What a header's first instruction does to it: nothing, a wait, or a trap (R31). -/
inductive HdrWait where
  | go
  | wait
  | trap (t : Trap)
  deriving DecidableEq, Repr

/-- A header trap. -/
def hdrTrap (code : Code) : Trap := { code := code, pos := 0, info := 0, lanes := none, kind := 0 }

/-- The main register that a window slot maps under a header (R50). -/
def hdrReg (h : BitVec 128) (i : Nat) : Nat := if i < 8 then 8 * hdrB0 h + i else 8 * hdrB1 h + (i - 8)

/-- A main register of the owner in a lane: zero at or above the allocation (R51). -/
def Warp.mainReg (o : Warp) (reg lane : Nat) : Word :=
  if reg < 8 * o.g then Tab.get 0#64 o.regs (32 * reg + lane) else 0#64

/-- An operand of a wait at the header, from the main registers, in the lowest live lane of k0 (R146, R300,
R303, R328). -/
def hdrOperand (w : WarpRef) (p o : Warp) (h : BitVec 128) (code x : BitVec 5) : Word :=
  match lowest ((Tab.get 0#64 p.k 0).setWidth 32 &&& p.live) with
  | none => 0#64
  | some j =>
    if code.toNat < 16 then o.mainReg (hdrReg h code.toNat) j
    else match code.toNat with
      | 25 => match o.kind with
        | .apply _ src => BitVec.ofNat 64 (src.getD j (j, 0, 0)).1
        | _ => BitVec.ofNat 64 j
      | 26 => p.tids.getD j 0#64
      | 27 => BitVec.ofNat 64 w.slot
      | 28 => BitVec.ofNat 64 w.core
      | 29 => x.signExtend 64
      | _ => 0#64

/-- Whether an operand of a wait at the header is a marked register (R63 as R146 and R328 apply it). -/
def hdrHazard (p o : Warp) (h : BitVec 128) (code : BitVec 5) : Bool :=
  code.toNat < 16 && p.hazard o (hdrReg h code.toNat)

/-- The operands that a run's first instruction reads at the header (R146, R300, R303, R328). -/
def hdrOps (w : WarpRef) (p o : Warp) (h : BitVec 128) : Option Instr → Word × Word
  | some (.awt _ b x _ _ _) => (hdrOperand w p o h b x, 0#64)
  | some (.bwt a _) | some (.dwt a _) | some (.swwait a) => (hdrOperand w p o h a 0#5, 0#64)
  | some (.swmerge _ _ a b) => (hdrOperand w p o h a 0#5, hdrOperand w p o h b 0#5)
  | _ => (0#64, 0#64)

/-- The wait that a run's first instruction makes at the header. The sync reads of `awt`, `bwt` and `dwt` come after the
deposits that the warp has sent, and `awt` counts every deposit that has reached its core (R199, R200). An instruction that its entry refuses makes none:
it traps when it issues. -/
def State.firstWait (s : State) (w : WarpRef) (p o : Warp) (l : Launch) (h : BitVec 128) (i : Instr) : HdrWait :=
  let k := s.core w.core
  let waitIf (b : Bool) : HdrWait := if b then .wait else .go
  if !i.legal then .go
  else match i with
    | .sfw mask => waitIf (p.sfwWaits mask)
    | .tall g mask => waitIf (k.tagWaits p.launch false g.toNat mask)
    | .tany g mask => waitIf (k.tagWaits p.launch true g.toNat mask)
    | .awt _ b x ctr _ _ =>
      if hdrHazard p o h b then .trap (hdrTrap .runhaz)
      else waitIf (s.depositOut w || k.arrivedFor p.launch w.slot
        || (p.ctr.getD ctr.toNat (0#16, false)).1.toNat < min (hdrOperand w p o h b x).toNat 65535)
    | .bwt a n =>
      if hdrHazard p o h a then .trap (hdrTrap .runhaz)
      else match k.asSeen.boundTo w.core p.launch n.toNat with
        | none => .trap (hdrTrap .barmis)
        | some b => waitIf (s.depositOut w || phaseWaits b.1.ph (hdrOperand w p o h a 0#5))
    | .dwt a n =>
      if hdrHazard p o h a then .trap (hdrTrap .runhaz)
      else if !l.card.dbm.getLsbD n.toNat then .go
      else match s.dev.dbars[n.toNat]? with
        | none => .go
        | some b => waitIf (s.depositOut w || phaseWaits b.ph (hdrOperand w p o h a 0#5))
    | .claim n =>
      if 16 < o.g + n.toNat then .go else waitIf (match p.claim with | some x => !x.granted | none => true)
    | .swwait a =>
      if handleBad w.core (hdrOperand w p o h a 0#5) then .go
      else waitIf (match k.sub? p.launch (hdrOperand w p o h a 0#5) with | some u => u.state != .done | none => false)
    | .swmerge _ _ a b =>
      if handleBad w.core (hdrOperand w p o h a 0#5) then .go
      else waitIf (match k.sub? p.launch (hdrOperand w p o h a 0#5) with
        | some u => u.e + 8 < (hdrOperand w p o h b 0#5).toNat
        | none => false)
    | _ => .go

/-- The first instruction of a fetched run, where its slot is one. -/
def Fetched.first (f : Fetched) : Option Instr :=
  match slotsOf f.addr f.packs with
  | [] => none
  | x :: _ => match decodeSlot x.1 x.2.1 with
    | .ok y => some y.instr
    | .error _ => none

/-- The window that the header loads for the live lanes (R51). -/
def loadWindow (p o : Warp) (h : BitVec 128) : Tab Word :=
  ((List.range 16).filter fun i => (hdrLoad h).getLsbD i).foldl
    (fun t i => p.live.toList.foldl (fun t j => Tab.set 0#64 t (32 * i + j) (o.mainReg (hdrReg h i) j)) t) []

/-- The run that a header begins. -/
def Run.start (w : WarpRef) (p o : Warp) (f : Fetched) : Run where
  hdr := f.addr
  src := f
  b0 := hdrB0 f.hdr
  b1 := hdrB1 f.hdr
  slots := (slotsOf f.addr f.packs).take (hdrLen f.hdr)
  fall := f.addr + BitVec.ofNat 64 (16 * (1 + f.packs.length))
  pos := 1
  ops := hdrOps w p o f.hdr f.first
  win := loadWindow p o f.hdr
  sets := []
  setEff := []
  pend := []
  held := []
  res := { claim := none, entries := [], chunks := [], tags := [], tokens := [], places := [], merges := 0 }
  give := none
  xfer := .fall
  flags := 0#5
  srs := []
  yield := false
  ppoint := none
  soft := none
  mem := false
  sfq := []
  commit := none
  waitId := none

/-- The header of a fetched run in a warp (R49, R51): its tests, its waits, its hazards, its loads. Its ILLPKT tests come before the
AWAIT wait of step 1, and the wait of its first instruction, with the traps of that wait, before the hazard check of step 2 (DESIGN
CHOICE, log 82). -/
def State.header (s : State) (w : WarpRef) (p o : Warp) (l : Launch) (f : Fetched) : Issue :=
  let loads := ((List.range 16).filter fun i => (hdrLoad f.hdr).getLsbD i).map (hdrReg f.hdr)
  let first := match f.first with | some i => s.firstWait w p o l f.hdr i | none => .go
  if p.marks.any fun m => m.owner == .untagged then .stall
  else if !runOk f then .trap s (hdrTrap .illpkt)
  else if p.marks.any fun m => match m.owner with
      | .tag q => (hdrAwait f.hdr).getLsbD q
      | _ => false then .stall
  else match first with
    | .trap t => .trap s t
    | .wait => .stall
    | .go =>
      if loads.any (p.hazard o) then .trap s (hdrTrap .runhaz)
      else if loads.any fun r => o.poisoned.contains r && r < 8 * o.g then .trap s (hdrTrap .poison)
      else .go s (Run.start w p o f)

/-- Event RUN_HEADER: the next run of an active warp at a boundary passes its header. -/
def execRunHeader (w : WarpRef) (s : State) : Host.Outcome State Fault Refusal :=
  match s.warp? w, s.warp? (ownerRef w) with
  | some p, some o =>
    match s.launch? p.launch, p.fetched with
    | some l, some f =>
      if p.run.isSome || p.sched == .suspended || p.wait != .none || p.live == 0#32 then .next { s with stall := true }
      else match s.header w p o l f with
        | .stall => .next { s with stall := true }
        | .raised s => .next s
        | .trap s t => .next (s.takeTrap w t)
        | .go s r => .next (s.modWarp w fun p => { p with run := some r, ppoint := none })
    | _, _ => .next { s with stall := true }
  | _, _ => .next { s with stall := true }

end Sys2Proof.Machine
end

