-- ==== Sys2Proof/Machine/Sweep.lean ====
section
/-!
DEFINITION. The page sweep engine: subscriptions, sweeps, deliveries, handlers and merges, 0x74–0x77 (R287–R310).
-/

namespace Sys2Proof.Machine

/-! ### Subscriptions -/

/-- The bytes of a key–value page (R287). -/
def pageBytes (dh et : Bool) : Nat := 32 * (if dh then 128 else 64) * (if et then 1 else 2)

/-- The bytes of a landing slot of a subscription (R292). -/
def Sub.pageLen (u : Sub) : Nat := pageBytes u.dh u.et

/-- An entry with nothing merged (R292). -/
def Merge.empty : Merge := { m := 0xFF800000#32, l := 0#32, o := [] }

/-- The subscription at a place of a core. -/
def State.subAt (s : State) (core place : Nat) : Option Sub := ((s.core core).subs[place]?).bind (·.sub)

/-- A subscription changed. -/
def State.modSub (s : State) (core place : Nat) (f : Sub → Sub) : State :=
  s.modCore core fun k => { k with subs := listChange k.subs place fun p => { p with sub := p.sub.map f } }

/-- The runs in progress on a core. -/
def Core.runs (k : Core) : List Run := (k.warps ++ k.hnds).filterMap fun e => e.2.run

/-- The subscription places that are free and not reserved (R292). -/
def Core.freePlaces (k : Core) : List Nat :=
  (List.range 128).filter fun i =>
    (match k.subs[i]? with | some p => p.sub.isNone | none => false) && !(k.runs.any fun r => r.res.places.contains i)

/-- The merge entries free and not reserved (R289, R292). -/
def Core.freeMerges (k : Core) : Nat :=
  128 - (k.subs.foldl (fun n p => n + (match p.sub with | some u => u.q | none => 0)) 0)
    - k.runs.foldl (fun n r => n + r.res.merges) 0

/-- The handle of a place (R289). -/
def handleOf (core place : Nat) (gen : BitVec 8) : Word := BitVec.ofNat 64 (gen.toNat * 2 ^ 16 + core * 2 ^ 8 + place)

/-- The near offsets of the landing slots of a subscription (R292). -/
def Sub.landing (u : Sub) : List Nat := (List.range u.nlb).map fun i => nearOff (BitVec.ofNat 64 u.lb) + i * u.pageLen

/-- The shadow region that is exactly a landing slot. -/
def Launch.regionAt (l : Launch) (off len : Nat) : Option Nat :=
  ((l.card.shadows.zipIdx).find? fun e => e.1 == (off, len)).map (·.2)

/-! ### Issue -/

/-- The subscription that the descriptor in window slots a to a + 3 describes (R292). -/
def Ctx.subOf (c : Ctx) (a : BitVec 5) : Sub :=
  let w1 := c.slot (a + 1#5)
  let w3 := c.slot (a + 3#5)
  { launch := c.p.launch, logical := c.own.logical, sid := bitsOf w3 23 20, list := c.slot a, qb := bitsOf w1 63 32,
    lb := bitsOf w1 31 0, hent := c.slot (a + 2#5), hg := bitsOf w3 19 16 + 1, nlb := bitsOf w3 10 8 + 1,
    et := w3.getLsbD 5, dh := w3.getLsbD 4, q := bitsOf w3 3 0 + 1, state := .idle, sweep := none, e := 0,
    hold := [], given := 0, merges := List.replicate (bitsOf w3 3 0 + 1) Merge.empty, busy := [], late := [],
    name := 0, heard := [], partials := [], merged := [] }

/-- `swsub` (R292): its checks in the order the entry lists them, then its reservations. -/
def execSwsub (k : BitVec 3) (d a : BitVec 5) (s : State) : Host.Outcome State Fault Refusal :=
  s.issue (.swsub k d a) fun s c => c.engine s k [d, a, a + 1#5, a + 2#5, a + 3#5]
    (let list := c.slot a
     let hent := c.slot (a + 2#5)
     let w3 := c.slot (a + 3#5)
     let kc := s.core c.w.core
     let u := c.subOf a
     let own (n : Word) : Bool := c.l.nearOk c.w.core n 1 && nearCore c.w.core n == c.w.core
     if bitsOf hent 63 57 != 0 || bitsOf w3 63 24 != 0 || bitsOf w3 15 11 != 0 || bitsOf w3 7 6 != 0 then
       .trap s (c.trap .perm)
     else match s.translate c.w.core c.tenant list .read with
       | (.error e, s) => .trap s (c.trapAt (e, list) .read)
       | (.ok _, s) =>
         if !own (BitVec.ofNat 64 u.qb) then .trap s (c.trapNear .perm (BitVec.ofNat 64 u.qb) false)
         else if !own (BitVec.ofNat 64 u.lb) || u.landing.any (fun o => (c.l.regionAt o u.pageLen).isNone) then
           .trap s (c.trapNear .perm (BitVec.ofNat 64 u.lb) true)
         else if kc.subs.any fun p => match p.sub with
             | some v => v.launch == u.launch && v.landing.any fun o => u.landing.contains o
             | none => false then .trap s (c.trapNear .perm (BitVec.ofNat 64 u.lb) true)
         else if list.toNat % 8 != 0 then .trap s (c.trapAt (.align, list) .read)
         else if hent.toNat % 16 != 0 then .trap s (c.trapAt (.align, hent) .read)
         else match s.pick kc.freePlaces with
           | none => .stall
           | some i =>
             if kc.freeMerges < u.q || kc.grantedFirst c.w.slot c.w.hnd c.p then .stall
             else
               let gen := match kc.subs[i]? with | some p => p.gen | none => 0#8
               let r := (c.r.write d c.k0 fun _ => handleOf c.w.core i gen).hold (.swsub i u)
               .go s.drawn { r with res := { r.res with places := r.res.places ++ [i], merges := r.res.merges + u.q } })

/-- `swleave` (R305) at issue. -/
def execSwleave (k : BitVec 3) (a : BitVec 5) (s : State) : Host.Outcome State Fault Refusal :=
  s.issue (.swleave k a) fun s c => c.engine s k [a]
    (if handleBad c.w.core (c.slot a) then .trap s (c.trap .perm) else .go s (c.r.hold (.swleave (c.slot a))))

/-- Whether a format entry is one that a sweep accepts (R287). -/
def sweepFormat (e : Word) : Bool := !fmtBad e && bitsOf e 7 6 == 0 && (bitsOf e 3 0 == 4 || bitsOf e 3 0 == 5)

/-- `swgo` (R293) at issue. -/
def execSwgo (k : BitVec 3) (a : BitVec 5) (sid : BitVec 4) (dh : BitVec 1) (s : State) :
    Host.Outcome State Fault Refusal :=
  s.issue (.swgo k a sid dh) fun s c => c.engine s k [a]
    (let base := c.slot a
     if bitsOf base 63 57 != 0 then .trap s (c.trapAt (.perm, base) .read)
     else if base.toNat % 256 != 0 then .trap s (c.trapAt (.align, base) .read)
     else match s.translate c.w.core c.tenant base .read with
       | (.error e, s) => .trap s (c.trapAt (e, base) .read)
       | (.ok p, s) =>
         if !sweepFormat p.fmt then .trap s (c.trapAt (.perm, base) .read)
         else .go s (c.r.hold (.swgo sid.toNat (dh == 1#1) base p [])))

/-- `swrd` (R304) at issue. -/
def execSwrd (k : BitVec 3) (d a : BitVec 5) (mm : BitVec 2) (s : State) : Host.Outcome State Fault Refusal :=
  s.issue (.swrd k d a mm) fun s c => c.engine s k [d, a]
    (let h := c.slot a
     if handleBad c.w.core h then .trap s (c.trap .perm)
     else match (s.core c.w.core).sub? c.p.launch h with
       | none => .trap s (c.trap .perm)
       | some u => c.sendIf s (c.ownNear (c.slot d) (u.q * u.outLen mm.toNat) 32 true) (.swrd (c.slot d).toNat h mm.toNat))

/-- `swmerge` (R300) at issue: the handle and the number are those that the header read. -/
def execSwmerge (k : BitVec 3) (d a b : BitVec 5) (s : State) : Host.Outcome State Fault Refusal :=
  s.issue (.swmerge k d a b) fun s c => c.engine s k [d]
    (let h := c.r.ops.1
     let n := c.r.ops.2
     let len := match (s.core c.w.core).sub? c.p.launch h with | some u => u.q * u.recordLen | none => 1
     if handleBad c.w.core h then .trap s (c.trap .perm)
     else c.sendIf s (c.ownNear (c.slot d) len 32 false) (.swmerge (c.slot d).toNat h n))

/-- `swwait` (R303): at position 1 the header has waited; elsewhere it stalls inside the run. -/
def execSwwait (a : BitVec 5) (s : State) : Host.Outcome State Fault Refusal :=
  s.issue (.swwait a) fun s c =>
    let h := if c.r.pos = 1 then c.r.ops.1 else c.slot a
    if c.r.pos != 1 && c.busy [a] then .stall
    else if handleBad c.w.core h then .trap s (c.trap .perm)
    else if c.r.pos = 1 then .go s c.r
    else match (s.core c.w.core).sub? c.p.launch h with
      | some u => if u.state == .done then .go s c.r else .stall
      | none => .go s c.r

/-! ### Merging (R300–R302, R304) -/

/-- The f32 value of a code, and its code. -/
def f32Val (x : BitVec 32) : Val := decodeVal .f32 x.toNat
def f32Code (v : Val) : BitVec 32 := BitVec.ofNat 32 (encodeVal .f32 0#3 false 0 v).1

/-- `ex` of R301. -/
def mergeEx (y : Val) : Val :=
  let a := encodeVal .f32 0#3 false 0 (y.mul (f32Val 0x3FB8AA3B#32)).1
  decodeVal .f32 (specialFunction 0 .f32 false a.1).1

/-- Whether an f32 code is finite. -/
def f32Finite (x : BitVec 32) : Bool := x.extractLsb' 23 8 != 0xFF#8

/-- A record merged into an entry (R301): the difference that `ex` takes is exact, and each result is rounded once. Of two zeros of
unlike sign, the maximum is the entry's own (DESIGN CHOICE, log 87). -/
def Merge.combine (dim : Nat) (e r : Merge) : Merge :=
  let o (x : Merge) (i : Nat) : BitVec 32 := Tab.get 0#32 x.o i
  let nan := f32Code (.nan false)
  if (f32Val e.m).isNan || (f32Val r.m).isNan || r.m == 0x7F800000#32 || !f32Finite r.l
      || (List.range dim).any fun i => !f32Finite (o r i) then
    { m := nan, l := nan, o := Tab.setAll 0#32 [] ((List.range dim).map fun i => (i, nan)) }
  else if r.m == 0xFF800000#32 then e
  else
    let m := f32Val e.m
    let m' := f32Val r.m
    let mn := if m.cmp m' == .lt then m' else m
    let sub (x : Val) : Val := (x.add 0#3 mn.flip).1
    let a := mergeEx (sub m)
    let b := mergeEx (sub m')
    let mix (x y : BitVec 32) : BitVec 32 :=
      f32Code (((f32Val y).mul b).1.add 0#3 (f32Val (f32Code ((f32Val x).mul a).1))).1
    { m := f32Code mn, l := mix e.l r.l,
      o := Tab.setAll 0#32 [] ((List.range dim).map fun i => (i, mix (o e i) (o r i))) }

/-- A partial merged into every entry of a subscription, and E advanced. -/
def Sub.mergeOne (u : Sub) (rs : List Merge) : Sub :=
  { u with merges := (u.merges.zip rs).map fun x => x.1.combine u.dim x.2, e := u.e + 1 }

/-- The held partials that follow, merged in order; `n` bounds their number. -/
def Sub.drain (u : Sub) : Nat → Sub
  | 0 => u
  | n + 1 =>
    match u.hold.find? fun h => h.1 == u.e with
    | some h => ({ u with hold := u.hold.filter fun x => x.1 != h.1 }.mergeOne h.2).drain n
    | none => u

/-- Whether a subscription takes a partial of a sequence number (R300). -/
def Sub.takes (u : Sub) (n : Nat) : Bool := u.e ≤ n && n < u.given && !u.hold.any fun h => h.1 == n

/-- A partial of a sequence number taken by a subscription (R300): merged, held, or ignored. -/
def Sub.takeOne (u : Sub) (n : Nat) (rs : List Merge) : Sub :=
  if !u.takes n then u
  else if u.e < n then { u with hold := u.hold ++ [(n, rs)] }
  else (u.mergeOne rs).drain (u.hold.length + 1)

/-- The records of a handler that merged nothing (R302). -/
def Sub.nulls (u : Sub) : List Merge := List.replicate u.q { m := 0xFF800000#32, l := 0#32, o := [] }

/-- The merges of handlers retired without one, each once its number is at most E + 8 (R302); `n` bounds their number. -/
def Sub.takeLate (u : Sub) : Nat → Sub
  | 0 => u
  | n + 1 =>
    match u.late.find? fun x => decide (x ≤ u.e + 8) with
    | some x => ({ u with late := u.late.erase x }.takeOne x u.nulls).takeLate n
    | none => u

/-- What happens before the merge of a number (R308). -/
def Sub.noteMerge (u : Sub) (n : Nat) (ids : List Nat) : Sub :=
  if ids = [] then u else { u with partials := u.partials ++ [(n, ids)] }

/-- A partial taken (R300), and the merges that it lets follow (R302); the subscriptions `ids` happen before it. -/
def Sub.takePartial (u : Sub) (n : Nat) (rs : List Merge) (ids : List Nat) : Sub :=
  ((if u.takes n then u.noteMerge n ids else u).takeOne n rs).takeLate (u.late.length + 1)

/-- The landing slot of a delivery made free where it holds that delivery, of whatever sweep (R300). -/
def Sub.freeSlot (u : Sub) (n : Nat) : Sub :=
  { u with busy := u.busy.filter fun b => !(b.1 == n % u.nlb && b.2.1 == n) }

/-- The landing slot of a handler's own delivery made free (R302). -/
def Sub.freeOwn (u : Sub) (slot n sweep : Nat) : Sub :=
  { u with busy := u.busy.filter fun b => b != (slot, n, sweep) }

/-- A handler of a sequence number that retires without having merged it (R302); the subscriptions `ids` happen before its end. -/
def Sub.retireNull (u : Sub) (n : Nat) (ids : List Nat) : Sub :=
  { u.noteMerge n ids with late := u.late ++ [n] }.takeLate (u.late.length + 1)

/-- The records of a partial in near space (R300). -/
def State.readPartial (s : State) (l : Launch) (core off : Nat) (u : Sub) : List Merge :=
  (List.range u.q).map fun q =>
    let word (i : Nat) : BitVec 32 :=
      BitVec.ofNat 32 (bytesToNat (s.nearBytes l core (off + q * u.recordLen + 4 * i) false 4))
    { m := word 0, l := word 1, o := Tab.setAll 0#32 [] ((List.range u.dim).map fun i => (i, word (2 + i))) }

/-! ### The course of a sweep -/

/-- A range of global bytes as the device reads it at home: its pages by walk, one piece to each 64 KiB. -/
def State.homePages (s : State) (t : Nat) (va : Word) (n : Nat) (acc : Access) :
    Nat → Except (Code × Word) (List (Span × Page))
  | 0 => .ok []
  | fuel + 1 =>
    if n = 0 then .ok []
    else if bitsOf va 63 57 != 0 then .error (.perm, va)
    else match s.walk t va.toNat with
      | .error e => .error (e, va)
      | .ok p =>
        if !p.permits acc || (s.remotePa p.pa && !s.dev.devcap0.getLsbD 8) then .error (.perm, va)
        else
          let len := min n (65536 - va.toNat % 65536)
          match s.homePages t (va + BitVec.ofNat 64 len) (n - len) acc fuel with
          | .error e => .error e
          | .ok r => .ok (({ va := va.toNat, len := len, pa := p.phys va.toNat }, p) :: r)

/-- The bytes of translated pieces, at home. -/
def State.spanBytes (s : State) (ps : List (Span × Page)) : List Byte := ps.flatMap fun p => s.readBytes p.1.pa p.1.len

/-- A page list read (R288): its distinct page numbers, ascending. -/
def State.readList (s : State) (t : Nat) (va : Word) : Except (Code × Word) (List Nat) :=
  match s.homePages t va 8 .read 2 with
  | .error e => .error e
  | .ok h =>
    let n := min (bytesToNat ((s.spanBytes h).take 4)) 65536
    match s.homePages t (va + 8#64) (4 * n) .read 6 with
    | .error e => .error e
    | .ok ps =>
      let bs := s.spanBytes ps
      let t : Tab Unit := (List.range n).foldl (fun t j => Dict.put t (bytesToNat ((bs.drop (4 * j)).take 4)) ()) []
      .ok (t.map (·.1))

/-- The first page of a list that lies above the last page begun in the main pass, and whether a sweep is in it (R295). -/
def Sweep.firstLater (w : Sweep) (ps : List Nat) : Option Nat :=
  if w.tail then none else ps.find? fun n => match w.last with | some m => decide (m < n) | none => true

/-- Whether a page list still to be read is one of a late join that holds no page of the main pass (R310). -/
def State.missesAll (s : State) (w : Sweep) (x : Nat × Nat × Bool) : Bool :=
  x.2.2 && match s.subAt x.1 x.2.1 with
    | none => true
    | some u => match s.launch? w.launch with
      | none => true
      | some l => match s.readList l.tenant u.list with
        | .error _ => false
        | .ok ps => (w.firstLater ps).isNone

/-- Subscriptions that are done, sweeps that end, and main passes that end, on a die (R290, R293, R310). -/
def State.settleDie (s : State) (d : Nat) : State :=
  let die := s.die d
  let open_ (w : Sweep) (x : Nat × Nat × List Nat × List Nat × Nat) : Bool :=
    match s.subAt x.1 x.2.1 with
    | none => false
    | some u => !(x.2.2.1 == [] && x.2.2.2.1 == [] && u.given == x.2.2.2.2 && u.e == u.given) && u.sweep == some w.id
  let finished := die.sweeps.flatMap fun w => (w.subs.filter fun x => !open_ w x).map fun x => (w.id, x.1, x.2.1)
  let s := finished.foldl (fun s x => s.modSub x.2.1 x.2.2 fun u =>
    if u.sweep == some x.1 then { u with state := .done, sweep := none } else u) s
  s.modDie d fun die => { die with
    sweeps := (die.sweeps.map fun w => { w with
        subs := w.subs.filter (open_ w)
        tail := w.tail || (w.toRead.all (s.missesAll w) && (w.subs.all fun x => x.2.2.1 == [])
          && !(s.dies.any fun y => y.staged.any fun g => g.sweep == w.id)) }).filter
      fun w => !(w.subs == [] && w.toRead == []) }

/-- The same on every die. -/
def State.settleSweeps (s : State) : State := [0, 1, 2, 3].foldl State.settleDie s

/-- A subscription enters RUN (R293). -/
def Sub.begin (u : Sub) (sweep : Nat) : Sub :=
  { u with state := .run, sweep := some sweep, e := 0, hold := [], given := 0, late := [],
           merged := u.mergeIds, partials := [], merges := List.replicate u.q Merge.empty }

/-- The end of a launch for a failure of its sweep (R299): PERM. -/
def State.sweepFails (s : State) (l : Nat) : State := s.endLaunch l 144 { code := .perm, detail := 0 }

/-- The subscriptions of a launch and sweep id that a sweep which some threads start takes: core and place (R293). In
deterministic mode, those whose commit happens before the start (R296). -/
def State.sweepTakes (s : State) (l : Launch) (sid : Nat) (ths : List Nat) : List (Nat × Nat) :=
  (s.cores.zipIdx).flatMap fun c => (c.1.subs.zipIdx).filterMap fun p =>
    match p.1.sub with
    | some u =>
      if u.launch == l.id && u.sid == sid && u.state != .run
          && (!l.isDet || (l.heardBy ths).contains (s.subName c.2 p.2)) then some (c.2, p.2)
      else none
    | none => none

/-- Whether a sweep of a launch and sweep id runs (R293). -/
def State.sweepRuns (s : State) (l sid : Nat) : Bool := s.dies.any fun d => d.sweeps.any fun w => w.launch == l && w.sid == sid

/-- The next subscription whose join a starting sweep has still to decide, after those of `joined`. -/
def State.nextJoin (s : State) (l : Launch) (sid : Nat) (ths : List Nat) (joined : List (Nat × Nat)) : Option (Nat × Nat) :=
  (s.sweepTakes l sid ths).find? fun x => !joined.contains x

/-- The decision of a subscription's join of a sweep that starts (R336, kind 4): the address of its page list, and the sweep
id. -/
def State.decideJoin (s : State) (l : Nat) (w : Option WarpRef) (sid : Nat) (x : Nat × Nat) : Decided :=
  match s.subAt x.1 x.2 with
  | some u => s.decide l w 4 u.list (BitVec.ofNat 64 sid)
  | none => .made s

/-- `swgo` at commit step 4 (R293), once every join has been decided: the sweep starts. -/
def State.startSweep (s : State) (w : WarpRef) (l : Launch) (sid : Nat) (ths : List Nat) (dh : Bool) (base : Word)
    (page : Page) : State :=
  let et := bitsOf page.fmt 3 0 == 5
  let us := s.sweepTakes l sid ths
  if us = [] then s
  else
    let id := s.dev.nextStamp
    let bad := us.any fun x => match s.subAt x.1 x.2 with | some u => u.dh != dh || u.et != et | none => false
    let s := us.foldl (fun s x => s.modSub x.1 x.2 fun u => u.begin id) s
    let sw : Sweep := { id := id, launch := l.id, core := w.core, sid := sid, base := base, dh := dh, et := et, last := none,
                        tail := false, subs := [], toRead := us.map fun x => (x.1, x.2, false), fault := none,
                        heard := l.heardBy ths }
    let s := (s.modDie (dieOf w.core) fun d => { d with sweeps := d.sweeps ++ [sw] }).modDev fun d =>
      { d with nextStamp := d.nextStamp + 1 }
    if bad then s.sweepFails l.id else s

/-- `swsub` at commit step 4 (R292, R295, R296): the subscription is entered under a name, and joins a sweep in its main pass. -/
def State.enterSub (s : State) (l : Launch) (core place : Nat) (ths : List Nat) (u : Sub) : State :=
  let n := s.dev.nextStamp
  let u : Sub := { u with name := n, heard := l.heardBy ths ++ [n] }
  let s := ((s.modCore core fun k => { k with subs := listChange k.subs place fun p => { p with sub := some u } }).modDev fun d =>
    { d with nextStamp := n + 1 }).modLaunch l.id fun x => x.subscribed ths n
  if l.isDet then s
  else (List.range 4).foldl (fun s d => s.modDie d fun die => { die with
    sweeps := die.sweeps.map fun w =>
      if w.launch == u.launch && w.sid == u.sid && !w.tail then { w with toRead := w.toRead ++ [(core, place, true)] }
      else w }) s

/-- A count that saturates at 32 bits (R306). -/
def addDrops (n : BitVec 32) (k : Nat) : BitVec 32 := BitVec.ofNat 32 (min (n.toNat + k) (2 ^ 32 - 1))

/-- A subscription leaves (R305): any sweep, its staged pages, its place. The handlers of pages that it has written and published are
still created (DESIGN CHOICE, log 89). -/
def State.leaveSub (s : State) (core place : Nat) : State :=
  match s.subAt core place with
  | none => s
  | some u =>
    let drops := s.dies.foldl (fun n d => n + d.staged.foldl (fun n g =>
      n + (g.todo.filter fun t => t.1 == core && t.2.1 == place).length) 0) 0
    let s := (List.range 4).foldl (fun s d => s.modDie d fun die => { die with
      sweeps := die.sweeps.map fun w => { w with
        subs := w.subs.filter fun x => !(x.1 == core && x.2.1 == place)
        toRead := w.toRead.filter fun x => !(x.1 == core && x.2.1 == place) }
      staged := (die.staged.map fun g => { g with todo := g.todo.filter fun t => !(t.1 == core && t.2.1 == place) }).filter
        fun g => g.todo != [] }) s
    let s := s.modLaunch u.launch fun x => x.modPlace core fun p => { p with drops := addDrops p.drops drops }
    (s.modCore core fun k => { k with
      subs := listChange k.subs place fun p => { gen := p.gen + 1, sub := none } }).settleSweeps

/-! ### Sweep commands performed -/

/-- The output of a query (R304). -/
def Merge.output (e : Merge) (dim mm : Nat) : List Byte :=
  let o (i : Nat) : BitVec 32 := Tab.get 0#32 e.o i
  if mm = 2 then
    natToBytes e.m.toNat 4 ++ natToBytes e.l.toNat 4 ++ (List.range dim).flatMap fun i => natToBytes (o i).toNat 4
  else
    let f : EFmt := if mm = 1 then .bf16 else .f32
    (List.range dim).flatMap fun i =>
      natToBytes (if e.m == 0xFF800000#32 then 0
        else (encodeVal f 0#3 false 0 ((f32Val (o i)).div (f32Val e.l)).1).1) (f.width / 8)

/-- A sweep command performed (R300, R304); the subscriptions `ids` happen before it (R308). One whose handle has gone stale since
its issue does nothing (DESIGN CHOICE, log 88). -/
def State.performSweep (s : State) (l : Launch) (core : Nat) (ids : List Nat) (x : Cmd) : BitVec 5 × State :=
  match x with
  | .swmerge addr hdl n =>
    match (s.core core).sub? l.id hdl with
    | none => (0#5, s)
    | some u =>
      let rs := s.readPartial l core (nearOff (BitVec.ofNat 64 addr)) u
      (0#5, (s.modSub core (bitsOf hdl 7 0) fun u => (u.takePartial n.toNat rs ids).freeSlot n.toNat).settleSweeps)
  | .swrd addr hdl mm =>
    match (s.core core).sub? l.id hdl with
    | none => (0#5, s)
    | some u =>
      (0#5, (s.cmdTags l core x).nearWrites l core (nearOff (BitVec.ofNat 64 addr)) true
        (u.merges.flatMap fun e => e.output u.dim mm))
  | _ => (0#5, s)

/-- What a sweep handler's retirement does to its subscription (R302); its threads are named `ths`. -/
def State.retireHandler (s : State) (core l : Nat) (merged : Bool) (hdl : Word) (n slot sweep : Nat) (ths : List Nat) : State :=
  match (s.core core).sub? l hdl with
  | none => s
  | some _ =>
    let ids := match s.launch? l with | some x => x.heardBy ths | none => []
    (s.modSub core (bitsOf hdl 7 0) fun u => ((if merged then u else u.retireNull n ids).freeOwn slot n sweep)).settleSweeps

/-! ### Fetching pages (R288, R294, R295, R297, R299) -/

/-- A failure of a read by Barchan (R299): a fault record, and the sweep pauses; or the launch ends. `begun` is the page of
the main pass whose fetch had begun (R295). -/
def State.sweepFault (s : State) (d idx : Nat) (w : Sweep) (t card : Nat) (begun : Option Nat) (e : Code × Word) : State :=
  if e.1 = .xlate then
    (s.xlateRecord t e.2 w.core 0 card).modDie d fun die => { die with
      sweeps := listChange die.sweeps idx fun w => { w with
        fault := some (e.2.toNat / 65536), last := if begun.isSome then begun else w.last } }
  else s.sweepFails w.launch

/-- A sweep that reads the next page list (R288, R293, R295), or goes on without it where a replay holds the join to a
later page; none where it must wait. A join with no page left in the main pass is recorded with the number of the next page
boundary (DESIGN CHOICE, log 71). -/
def State.sweepRead (s : State) (d idx : Nat) (w : Sweep) (l : Launch) (x : Nat × Nat × Bool) : Option State :=
  let drop (s : State) : State := s.modDie d fun die => { die with
    sweeps := listChange die.sweeps idx fun w => { w with toRead := w.toRead.drop 1 } }
  match s.subAt x.1 x.2.1 with
  | none => some (drop s)
  | some u =>
    match s.readList l.tenant u.list with
    | .error e => some (s.sweepFault d idx w l.tenant l.card.addr none e)
    | .ok ps =>
      let next := match w.last with | some n => n + 1 | none => 0
      let first := (w.firstLater ps).getD next
      let word := BitVec.ofNat 64 (w.sid + 16 * (first + 1))
      let main := if w.tail then [] else ps.filter fun n => next ≤ n
      let enter (s : State) : State :=
        let s := if x.2.2 then s.modSub x.1 x.2.1 fun u => u.begin w.id else s
        let entry := (x.1, x.2.1, if x.2.2 then main else ps, if x.2.2 then ps.filter fun n => !main.contains n else [], 0)
        let s := (drop s).modDie d fun die => { die with
          sweeps := listChange die.sweeps idx fun w => { w with
            subs := w.subs ++ [entry]
            heard := if x.2.2 then dedup (w.heard ++ u.heard) else w.heard } }
        if u.dh != w.dh || u.et != w.et then s.sweepFails w.launch else s.settleSweeps
      if !x.2.2 then some (enter s)
      else
        let due := if l.mode = 2 then (s.unconsumed l).find? fun r => r.2.1 == recordWord 4 u.list else none
        let later := match due with
          | some r => r.2.2.toNat % 16 == w.sid && word.toNat < r.2.2.toNat
          | none => false
        if later && w.subs.any (fun y => y.2.2.1 != []) then none
        else match s.decide w.launch none 4 u.list word with
          | .made s => some (enter s)
          | .raised s => some s
          | .wait => none

/-- The lowest of some numbers. -/
def least (l : List Nat) : Option Nat := l.foldl (fun m x => match m with | none => some x | some y => some (min x y)) none

/-- A sweep that fetches its next page (R294, R297); none where it must wait. -/
def State.sweepFetch (s : State) (d idx : Nat) (w : Sweep) (l : Launch) : Option State :=
  let pages (y : Nat × Nat × List Nat × List Nat × Nat) : List Nat := if w.tail then y.2.2.2.1 else y.2.2.1
  match least (w.subs.flatMap pages) with
  | none => none
  | some n =>
    let takers := w.subs.filter fun y => (pages y).contains n
    let dies := (List.range 4).filter fun e => takers.any fun y => dieOf y.1 == e
    if dies.any fun e => 64 ≤ (s.die e).staged.length then none
    else
      let len := pageBytes w.dh w.et
      match s.homePages l.tenant (w.base + BitVec.ofNat 64 (n * len)) len .read 3 with
      | .error e => some (s.sweepFault d idx w l.tenant l.card.addr (if w.tail then w.last else some n) e)
      | .ok ps =>
        if ps.any fun p => !sweepFormat p.2.fmt || (bitsOf p.2.fmt 3 0 == 5) != w.et then some (s.sweepFails w.launch)
        else
          let bytes := s.spanBytes ps
          let s := dies.foldl (fun s e => s.modDie e fun die => { die with
            staged := die.staged ++ [{ sweep := w.id, page := n, bytes := bytes,
                                       todo := (takers.filter fun y => dieOf y.1 == e).map (fun y => (y.1, y.2.1, y.2.2.2.2)),
                                       heard := w.heard }] }) s
          let taken (y : Nat × Nat × List Nat × List Nat × Nat) : Nat × Nat × List Nat × List Nat × Nat :=
            if (pages y).contains n then
              if w.tail then (y.1, y.2.1, y.2.2.1, y.2.2.2.1.filter fun m => m != n, y.2.2.2.2 + 1)
              else (y.1, y.2.1, y.2.2.1.filter fun m => m != n, y.2.2.2.1, y.2.2.2.2 + 1)
            else y
          let w' : Sweep := { w with subs := w.subs.map taken, last := if w.tail then w.last else some n, fault := none }
          some (s.modDie d fun die => { die with sweeps := die.sweeps.eraseIdx idx ++ [w'] })

/-- What a sweep does next; none while it is paused (R294, R299). -/
def State.sweepStep (s : State) (d idx : Nat) : Option State :=
  match (s.die d).sweeps[idx]? with
  | none => none
  | some w =>
    match s.launch? w.launch with
    | none => none
    | some l =>
      if l.cause.isSome then none
      else if (match w.fault with | some p => (s.tenant l.tenant).unresolved.contains (d, p, 0) | none => false) then none
      else match w.toRead with
        | x :: _ =>
          match s.sweepRead d idx w l x with
          | some t => some t
          | none => s.sweepFetch d idx w l
        | [] => s.sweepFetch d idx w l

/-- Event SWEEP_PAGE_FETCH (R294): the Barchan of a die serves a sweep; those ahead of it in turn are paused. -/
def execSweepPageFetch (die idx : Nat) (s : State) : Host.Outcome State Fault Refusal :=
  if (List.range idx).any fun i => (s.sweepStep die i).isSome then .next s
  else match s.sweepStep die idx with
    | some t => .next t
    | none => .next s

/-! ### Delivery (R297, R298) -/

/-- Whether an unfinished engine command of a core writes a range (R151 step 1). -/
def Core.engineWrites (k : Core) (rs : List NearRange) : Bool :=
  k.engine.any fun e => (e.ranges.filter (·.write)).any fun a => rs.any fun b => a.clash b

/-- A delivery made (R297), where its slot is free and every earlier access has been performed; else none. -/
def State.deliver (s : State) (g : Staged) (t : Nat × Nat × Nat) : Option State :=
  match s.subAt t.1 t.2.1 with
  | none => none
  | some u =>
    match s.launch? u.launch with
    | none => none
    | some l =>
      let slot := t.2.2 % u.nlb
      let off := nearOff (BitVec.ofNat 64 u.lb) + slot * u.pageLen
      let rs := l.range t.1 off u.pageLen true
      let k := s.core t.1
      match l.regionAt off u.pageLen with
      | none => none
      | some region =>
        if u.given != t.2.2 || u.busy.any (fun b => b.1 == slot) || s.suspended u.launch t.1 || l.cause.isSome
            || k.mustWait rs [] || k.engineWrites rs || k.boardFull then none
        else
          let gen := match k.subs[t.2.1]? with | some p => p.gen | none => 0#8
          let hdl := handleOf t.1 t.2.1 gen
          let near := BitVec.ofNat 64 (0xFF * 2 ^ 24 + off)
          let s := ((s.nearWrites l t.1 off true g.bytes).setTags l t.1 off u.pageLen true (if u.et then 5 else 4)).noteWrites none rs
          let s := s.swapHalves u.launch t.1 region
          let heard := (l.receive t.1 rs [] g.heard).1
          let s := if heard = [] then s else s.modLaunch u.launch fun x => (x.receive t.1 rs [] g.heard).2
          let job : SweepJob :=
            { launch := u.launch, logical := u.logical, hdl := hdl, seq := t.2.2, slot := slot, sweep := g.sweep, hent := u.hent,
              hg := u.hg,
              regs := [hdl, BitVec.ofNat 64 t.2.2, BitVec.ofNat 64 g.page, near, BitVec.ofNat 64 u.qb, BitVec.ofNat 64 u.q,
                BitVec.ofNat 64 ((if u.dh then 1 else 0) + (if u.et then 2 else 0))],
              heard := heard }
          let s := s.modSub t.1 t.2.1 fun u => { u with given := u.given + 1, busy := u.busy ++ [(slot, t.2.2, g.sweep)] }
          some (s.modCore t.1 fun k => { k with jobs := k.jobs ++ [job] })

/-- Event PAGE_DELIVERY (R297): the delivery at an index among those that a die's staged pages still need. It is made once the page is
written and published and its handler waits to be created (R310; DEDUCED, log 90). -/
def execPageDelivery (die idx : Nat) (s : State) : Host.Outcome State Fault Refusal :=
  let all := (s.die die).staged.flatMap fun g => g.todo.map fun t => (g, t)
  match all[idx]? with
  | none => .next s
  | some (g, t) =>
    match s.deliver g t with
    | none => .next s
    | some s =>
      .next (s.modDie die fun d => { d with
        staged := (d.staged.map fun x =>
          if x.sweep == g.sweep && x.page == g.page then { x with todo := x.todo.filter fun y => y != t } else x).filter
          fun x => x.todo != [] }).settleSweeps

/-- Whether a claim or an apply warp goes before any sweep handler or launch warp (R399). -/
def Core.heldBack (k : Core) : Bool :=
  k.claimWaits || (match k.nextApply with
    | some (x, i) => k.poolFree < x.need i || k.freeSlots 60 4 != []
    | none => false)

/-- The handler warp that a core creates next (R298): the first in delivery order of a launch that is not being preempted or suspended
there (DESIGN CHOICE, log 86). -/
def State.nextJob (s : State) (core : Nat) : Option SweepJob :=
  (s.core core).jobs.find? fun j => !(s.core core).preempting j.launch && !s.suspended j.launch core

/-- Event SWEEP_HANDLER_CREATION (R298): the core creates its next sweep handler. -/
def execSweepHandlerCreation (core : Nat) (s : State) : Host.Outcome State Fault Refusal :=
  let k := s.core core
  match s.nextJob core, s.pick (k.freeSlots 0 60) with
  | some j, some q =>
    if k.heldBack || k.created || k.poolFree < 4 * j.hg then .next s
    else
      let p := Warp.fresh s.dev.nextStamp j.launch (.sweep j.hdl j.seq j.slot j.sweep) j.logical q j.hg 0xFFFFFFFF#32
        (List.replicate 32 0#64) j.hent
      let p : Warp := { p with
        regs := (j.regs.zipIdx).foldl (fun t e => lanes.foldl (fun t i => Tab.set 0#64 t (32 * e.2 + i) e.1) t) [] }
      let s := (s.drawn.addWarp core q p).modCore core fun k => { k with jobs := k.jobs.erase j }
      .next (if j.heard = [] then s else (s.hears j.launch p.names j.heard).2)
  | _, _ => .next s

end Sys2Proof.Machine
end

