-- ==== Sys2Proof/Machine/Transfer.lean ====
section
/-!
DEFINITION. Copy and matrix commands performed (R106, R201, R247–R263): what their reads and writes do.
-/

namespace Sys2Proof.Machine

/-! ### Rows of elements -/

/-- Codes of `w` bits taken from a number, lowest first. -/
def splitCodes (v w : Nat) : Nat → List Nat
  | 0 => []
  | n + 1 => v % 2 ^ w :: splitCodes (v / 2 ^ w) w n

/-- Codes of `w` bits joined, lowest first. -/
def joinCodes (w : Nat) (cs : List Nat) : Nat :=
  match cs with
  | [] => 0
  | c :: r => c % 2 ^ w + 2 ^ w * joinCodes w r

/-- Blocks of 32 of a list; `n` bounds their number. -/
def blocksOf (cs : List α) : Nat → List (List α)
  | 0 => []
  | n + 1 => if cs.isEmpty then [] else cs.take 32 :: blocksOf (cs.drop 32) n

/-- The exact values of a row's codes (R85–R90, R100). -/
def rowValues (tag : Nat) (ftz : Bool) (cs scales : List Nat) : List Val :=
  if tagMx tag then
    ((blocksOf cs (cs.length / 32 + 1)).zip scales).flatMap fun b => b.1.map fun c => blockVal (tagFmt tag) b.2 c
  else cs.map fun c => decodeFtz (tagFmt tag) ftz c

/-- A row converted (R248): its codes, its scales, its flags. `u` gives the random bits of an element. -/
def convertRow (sf df : Nat) (rm : BitVec 3) (ftz : Bool) (u : Nat → Nat) (cs scales : List Nat) :
    List Nat × List Nat × BitVec 5 :=
  if sf = df then (cs, scales, 0#5)
  else
    let vs := rowValues sf ftz cs scales
    if tagMx df then
      let bs := (blocksOf ((vs.zipIdx).map fun v => (v.1, u v.2)) (vs.length / 32 + 1)).map fun b =>
        encodeBlock (tagFmt df) rm ftz (b.map (·.1)) (b.map (·.2))
      (bs.flatMap (·.2.1), bs.map (·.1), bs.foldl (fun f b => f ||| b.2.2) 0#5)
    else
      let rs := (vs.zipIdx).map fun v => encodeVal (tagFmt df) rm ftz (u v.2) v.1
      (rs.map (·.1), [], rs.foldl (fun f r => f ||| r.2) 0#5)

/-- The bytes of a row's codes, each with the mask of its bits that the row writes. -/
def rowMasked (tag : Nat) (cs : List Nat) : List (Byte × Byte) :=
  let w := (tagFmt tag).width
  let n := rowBytes tag cs.length
  let used := 2 ^ (w * cs.length) - 1
  (natToBytes (joinCodes w cs) n).zip (natToBytes used n)

/-! ### Places of bytes -/

/-- A byte to be written: in near space, in the hidden half of a shadow region, or at home. -/
inductive Put where
  | near (core off : Nat) (val mask : Byte)
  | home (pa : Nat) (val mask : Byte)
  deriving DecidableEq, Repr

/-- The address that groups writes into aligned units of 8 bytes. -/
def Put.unit : Put → Nat
  | .near _ off _ _ => off / 8
  | .home pa _ _ => pa / 8

/-- A byte written; bits outside the mask keep their value (R253: engine writes reach the hidden half). -/
def State.put (s : State) (l : Launch) : Put → State
  | .near c off v m => s.nearWrite l c off true ((v &&& m) ||| (s.nearByte l c off true &&& ~~~m))
  | .home pa v m => s.writeByte pa ((v &&& m) ||| (s.readByte pa &&& ~~~m))

/-- Writes split into their aligned units of 8 bytes, in order. -/
def splitUnits (ws : List Put) : List (List Put) :=
  ws.foldr (fun w r => match r with
    | (x :: g) :: rest => if x.unit = w.unit then (w :: x :: g) :: rest else [w] :: (x :: g) :: rest
    | _ => [w] :: r) []

/-- A list in an order that the spec leaves open; `n` bounds its length. -/
def State.shuffle (s : State) (xs : List α) : Nat → List α × State
  | 0 => (xs, s)
  | n + 1 =>
    match xs with
    | [] => ([], s)
    | y :: _ =>
      match s.drawNat xs.length with
      | (i, s) =>
        match s.shuffle (xs.eraseIdx i) n with
        | (rest, s) => ((xs.getD i y) :: rest, s)

/-- The physical address of a global byte of a copy, by the pages it was translated with. -/
def Copy.phys (c : Copy) (va : Word) : Nat :=
  match c.pages.find? fun p => p.va ≤ va.toNat && va.toNat < p.va + p.size with
  | some p => p.phys va.toNat
  | none => 0

/-- The physical address of the scale of the block at a global address (R94). -/
def Copy.scalePhys (c : Copy) (va : Word) : Nat :=
  match c.pages.find? fun p => p.va ≤ va.toNat && va.toNat < p.va + p.size with
  | some p =>
    c.phys (BitVec.ofInt 64 ((p.va : Int) + (fmtOf c.fmt).soff + ((va.toNat - p.va) / blockLen (fmtOf c.fmt).efmt : Nat)))
  | none => 0

/-- The physical addresses of `n` global bytes. -/
def Copy.physAll (c : Copy) (va : Word) (n : Nat) : List Nat :=
  (List.range n).map fun i => c.phys (va + BitVec.ofNat 64 i)

/-- The physical addresses of the scales of a global row of `n` blocks. -/
def Copy.scaleAll (c : Copy) (va : Word) (n : Nat) : List Nat :=
  (List.range n).map fun i => c.scalePhys (va + BitVec.ofNat 64 (i * blockLen (fmtOf c.fmt).efmt))

/-- The sectors of the global side of a copy. -/
def Copy.sectors (c : Copy) : List Nat :=
  let f := entryTag c.fmt
  let rows := c.globalRows
  dedup (rows.flatMap fun va =>
    (c.physAll va (rowBytes f c.cnt)).map (· / 32) ++ (if tagMx f then (c.scaleAll va (c.cnt / 32)).map (· / 32) else []))

/-! ### A copy performed -/

/-- The row of codes and scales that a copy reads: from global memory at home, or from the visible halves of near space. -/
def State.readRow (s : State) (l : Launch) (core : Nat) (c : Copy) (r : Nat) : List Nat × List Nat :=
  if c.dir = 0 then
    let f := entryTag c.fmt
    let va := c.src + BitVec.ofInt 64 (c.sstr * r)
    (splitCodes (bytesToNat ((c.physAll va (rowBytes f c.cnt)).map s.readByte)) (tagFmt f).width c.cnt,
      if tagMx f then (c.scaleAll va (c.cnt / 32)).map fun pa => (s.readByte pa).toNat else [])
  else
    let t := c.tagOf r
    let a := nearLow c.src
    (splitCodes (bytesToNat (s.nearBytes l (nearCore core a) (rowOff (nearOff a) c.sstr r).toNat false
        (rowBytes t c.cnt))) (tagFmt t).width c.cnt,
      if tagMx t then
        (s.nearBytes l (nearCore core (nearHigh c.src)) (nearOff (nearHigh c.src) + r * (c.cnt / 32)) false
          (c.cnt / 32)).map fun b => b.toNat
      else [])

/-- The bytes of a row's data, with the write of each, in their units: a block with its scale, else aligned 8 bytes (R198,
R248). `scale` writes the scale of a block. -/
def rowUnits (tag : Nat) (ws : List Put) (scales : List Put) : List (List Put) :=
  if tagMx tag then
    (scales.zipIdx).map fun e => ((ws.drop (blockLen (tagFmt tag) * e.2)).take (blockLen (tagFmt tag))) ++ [e.1]
  else splitUnits ws

/-- The writes of a row of a copy, in units. -/
def Copy.rowPuts (c : Copy) (core r : Nat) (cs scales : List Nat) : List (List Put) :=
  if c.dir = 0 then
    let t := c.tagOf r
    (c.targets core).flatMap fun o =>
      rowUnits t
        (((rowMasked t cs).zipIdx).map fun b =>
          Put.near o ((rowOff (nearOff (nearLow c.dst)) c.dstr r).toNat + b.2) b.1.1 b.1.2)
        ((scales.zipIdx).map fun e =>
          Put.near (if c.mcast.isSome then o else nearCore core (nearHigh c.dst))
            (nearOff (nearHigh c.dst) + r * (c.cnt / 32) + e.2) (BitVec.ofNat 8 e.1) 0xFF#8)
  else
    let f := entryTag c.fmt
    let va := c.dst + BitVec.ofInt 64 (c.dstr * r)
    rowUnits f (((rowMasked f cs).zip (c.physAll va (rowBytes f c.cnt))).map fun b => Put.home b.2 b.1.1 b.1.2)
      (if tagMx f then (scales.zip (c.scaleAll va (c.cnt / 32))).map fun e => Put.home e.2 (BitVec.ofNat 8 e.1) 0xFF#8
       else [])

/-- Whether the data that a copy writes to near space and the scales beside it may share bytes. -/
def Copy.areasMeet (c : Copy) (core : Nat) : Bool :=
  c.dir = 0 && (c.mcast.isSome || nearCore core (nearLow c.dst) == nearCore core (nearHigh c.dst))
    && (c.dataPieces (nearLow c.dst) c.dstr).any fun p => (c.scalePieces (nearHigh c.dst)).any fun q =>
      p.1 < q.1 + q.2 && q.1 < p.1 + p.2

/-- Whether the rows that a copy writes may overlap one another. -/
def Copy.rowsOverlap (c : Copy) : Bool :=
  1 < c.rows && c.dstr.natAbs <
    (if c.dir = 2 then c.cnt else rowBytes (if c.dir = 0 then c.tagOf 0 else entryTag c.fmt) c.cnt)

/-- Writes made; where rows or areas overlap, their units in an order left open (R249: rows are moved in any order), a block
before its own scale (DESIGN CHOICE, log 78). -/
def State.putAll (s : State) (l : Launch) (overlap : Bool) (us : List (List Put)) : State :=
  if overlap then
    match s.shuffle us us.length with
    | (us, s) => us.flatten.foldl (fun s w => s.put l w) s
  else us.flatten.foldl (fun s w => s.put l w) s

/-- The bytes of a `.n2n` copy: source offset, destination offset; one list to each aligned destination unit. -/
def Copy.moves (c : Copy) : List (List (Nat × Nat)) :=
  c.rowList.flatMap fun r =>
    let d := (rowOff (nearOff (nearLow c.dst)) c.dstr r).toNat
    let o := (rowOff (nearOff (nearLow c.src)) c.sstr r).toNat
    (List.range ((d + c.cnt - 1) / 8 - d / 8 + 1)).map fun u =>
      ((List.range c.cnt).filter fun i => (d + i) / 8 == d / 8 + u).map fun i => (o + i, d + i)

/-- Units of a `.n2n` copy moved one after another, each source unit as it stood at the start or as it stands now: what
R249 allows of a copy whose sides overlap (log 8). -/
def State.moveUnits (s : State) (old : State) (l : Launch) (sc dc : Nat) : List (List (Nat × Nat)) → State
  | [] => s
  | u :: r =>
    match s.drawWord with
    | (bits, s) =>
      let t := u.foldl (fun t m =>
        let from_ := if bits.getLsbD (m.1 / 8 % 64) then old else s
        t.nearWrite l dc m.2 true (from_.nearByte l sc m.1 false)) s
      t.moveUnits old l sc dc r

/-- Whether the near ranges of the sides of a `.n2n` copy meet, or its rows. -/
def Copy.selfOverlap (c : Copy) (l : Launch) (core : Nat) : Bool :=
  c.rowsOverlap || (match c.ranges l core with
    | [a, b] => a.clash b
    | _ => false)

/-- A copy performed: its flags (R249). -/
def State.performCopy (s : State) (l : Launch) (core : Nat) (c : Copy) : BitVec 5 × State :=
  let tagged (s : State) : State := s.cmdTags l core (.copy c)
  if c.rows = 0 || c.cnt = 0 then (0#5, s)
  else if c.dir = 2 then
    let sc := nearCore core (nearLow c.src)
    let dc := nearCore core (nearLow c.dst)
    let s := tagged s
    if c.selfOverlap l core then
      match s.shuffle c.moves c.moves.length with
      | (us, s) => (0#5, s.moveUnits s l sc dc us)
    else
      (0#5, c.moves.flatten.foldl (fun t m => t.nearWrite l dc m.2 true (s.nearByte l sc m.1 false)) s)
  else
    let secs := c.sectors
    let s := (secs.foldl (fun s sec => if c.dir = 0 then s.writeBack core sec else s.flushSector core sec) s).packets secs
    let rows := c.rowList.map fun r =>
      let x := s.readRow l core c r
      let f := entryTag c.fmt
      let t := c.tagOf r
      let u (i : Nat) : Nat :=
        srBits c.seed c.tid (BitVec.ofNat 64 (2 ^ 63 + c.tag * 2 ^ 32 + r)) (BitVec.ofNat 64 i)
      let y := if c.dir = 0 then convertRow f t c.rm c.ftz u x.1 x.2 else convertRow t f c.rm c.ftz u x.1 x.2
      (c.rowPuts core r y.1 y.2.1, y.2.2)
    let s := (tagged s).putAll l (c.rowsOverlap || c.areasMeet core) (rows.flatMap (·.1))
    (rows.foldl (fun f r => f ||| r.2) 0#5, s)

/-- The L1 actions at a copy's completion (R201): its global destination sectors are written back and invalidated. -/
def State.closeCopy (s : State) (core : Nat) (c : Copy) : State :=
  if c.dir = 1 && c.rows != 0 && c.cnt != 0 then c.sectors.foldl (fun s sec => s.flushSector core sec) s else s

/-! ### The matrix step (R106, R255–R258) -/

/-- One element of a step (R106): its new code and its flags. A signalling NaN among its operands sets invalid (R101, R103). -/
def stepElement (ftz : Bool) (d : BitVec 32) (terms : List (Val × Val)) : BitVec 32 × BitVec 5 :=
  let ps := terms.map fun t =>
    if t.1.isNan || t.2.isNan then ((.nan false : Val), flagIf (t.1.isSig || t.2.isSig) fNV) else t.1.mul t.2
  let x := decodeFtz .f32 ftz d.toNat
  let nv := ps.foldl (fun f p => f ||| p.2) (flagIf x.isSig fNV)
  let r : Nat × BitVec 5 :=
    if x.isNan || ps.any fun p => p.1.isNan then (nanCode' , nv)
    else
      let sum := ps.foldl (fun (a : Val × BitVec 5) p => let r := a.1.add 0#3 p.1; (r.1, a.2 ||| r.2)) (x, 0#5)
      let e := encodeVal .f32 0#3 ftz 0 sum.1
      (e.1, e.2 ||| sum.2)
  (BitVec.ofNat 32 r.1, r.2)
where
  nanCode' : Nat := (encodeVal .f32 0#3 false 0 (.nan false)).1

/-- The K values of a row of A or a column of B, with their scales (R90, R257). -/
def State.operand (s : State) (l : Launch) (core : Nat) (m : Mloop) (off : Nat) (scale : Nat → Nat) (sc : Nat) : List Val :=
  let f := mloopFmt m.fmt
  let k := mloopK m.fmt
  let cs := splitCodes (bytesToNat (s.nearBytes l core off false m.rowLen)) f.width k
  (cs.zipIdx).map fun c =>
    if m.mx then blockVal f (s.nearByte l sc (scale c.2) false).toNat c.1 else decodeFtz f m.ftz c.1

/-- What a loop's fetch of A finds: whether it is answered with poison; the bytes of the slice that reads shared with it
give, and those reads' positions among the slice's; the bytes it reads itself. -/
structure FetchA where
  poison : Bool
  shared : Dict Byte
  used   : List Nat
  own    : Dict Byte
  deriving DecidableEq, Repr

/-- The fetch of A by a matrix loop that a core received as number `id`: bytes that the slice has read for other cores of its
cluster within 64 cycles come from that read, with its poison (R259, R366); the others it reads now. -/
def State.fetchA (s : State) (l : Launch) (core id : Nat) (m : Mloop) : FetchA :=
  let ca := nearCore core (nearLow m.d0)
  match l.place? ca with
  | none => { poison := false, shared := [], used := [], own := [] }
  | some p =>
    let k := s.core ca
    let reads := k.reads.zipIdx.filter fun x => x.1.answers ca core id
      && (m.rangeA l core).any fun r => x.1.range.any fun q => r.lo < q.lo + q.len && q.lo < r.lo + r.len
    let offs := (List.range m.steps).flatMap fun st => (List.range 64).flatMap fun i =>
      (List.range m.rowLen).map fun b => l.sliceOff p ((m.offA st i).toNat + b) false
    let r := offs.foldl (fun (r : FetchA) o =>
      match reads.findSome? fun x => (Dict.find x.1.bytes o).map fun v => (x, v) with
      | some (x, v) =>
        { r with poison := r.poison || x.1.poison, shared := Dict.put r.shared o v,
                 used := if r.used.contains x.2 then r.used else r.used ++ [x.2] }
      | none => { r with own := Dict.put r.own o (Memory.read k.near o) })
      { poison := false, shared := [], used := [], own := [] }
    { r with poison := r.poison || (r.own != [] && l.frozenFor ca core) }

/-- One step of a matrix loop (R258), with A's bytes taken from a state. A step that `.zs` lets the device skip has the same
result (R260). -/
def State.matrixStep (s from_ : State) (l : Launch) (core : Nat) (m : Mloop) (st : Nat) : BitVec 5 × State :=
  let ca := nearCore core (nearLow m.d0)
  let csa := nearCore core (nearLow m.d3)
  let as := (List.range 64).map fun i => from_.operand l ca m (m.offA st i).toNat (m.scaleA st i) csa
  let bs := (List.range 64).map fun j => s.operand l core m (m.offB st j).toNat (m.scaleB st j) core
  let t := l.tile core m.t
  let old := (s.core core).tiles
  let rs := (as.zipIdx).flatMap fun a => (bs.zipIdx).map fun b =>
    let key := 4096 * t + 64 * a.2 + b.2
    (key, stepElement m.ftz (Tab.get 0#32 old key) (a.1.zip b.1))
  (rs.foldl (fun f r => f ||| r.2.2) 0#5,
    s.modCore core fun k => { k with tiles := Tab.setAll 0#32 k.tiles (rs.map fun r => (r.1, r.2.1)) })

/-- The steps of a matrix loop in ascending order. -/
def State.matrixSteps (s from_ : State) (l : Launch) (core : Nat) (m : Mloop) (st : Nat) : Nat → BitVec 5 × State
  | 0 => (0#5, s)
  | n + 1 =>
    match s.matrixStep from_ l core m st with
    | (f, s) =>
      match s.matrixSteps from_ l core m (st + 1) n with
      | (g, s) => (f ||| g, s)

/-- A matrix loop that a core received as number `id` performed: its flags (R258, R259). -/
def State.performLoop (s : State) (l : Launch) (core id : Nat) (m : Mloop) : BitVec 5 × State :=
  let seen := s.modCore (nearCore core (nearLow m.d0)) fun k => { k with
    near := (s.fetchA l core id m).shared.foldl (fun t e => Memory.write t e.1 e.2) k.near }
  s.matrixSteps seen l core m 0 m.steps

/-- The element code that `mrd.n` writes (R263): f32, or rounded RN into bf16, with its flags; a signalling NaN is invalid
(R101). -/
def tileOut (bf : Bool) (d : BitVec 32) : Nat × BitVec 5 :=
  if bf then encodeVal .bf16 0#3 false 0 (decodeVal .f32 d.toNat) else (d.toNat, 0#5)

/-- A tile command performed: its flags (R261, R263). -/
def State.performTile (s : State) (l : Launch) (core : Nat) (x : Cmd) : BitVec 5 × State :=
  match x with
  | .mzero t =>
    let lo := 4096 * l.tile core t
    (0#5, s.modCore core fun k => { k with tiles := k.tiles.filter fun e => e.1 < lo || lo + 4096 ≤ e.1 })
  | .mrdN t a bf =>
    let lo := 4096 * l.tile core t
    let addr := BitVec.ofNat 64 a
    let rs := (List.range 4096).map fun i => tileOut bf (Tab.get 0#32 (s.core core).tiles (lo + i))
    let bytes := rs.flatMap fun r => natToBytes r.1 (if bf then 2 else 4)
    (rs.foldl (fun f r => f ||| r.2) 0#5,
      (s.cmdTags l core x).nearWrites l (nearCore core addr) (nearOff addr) true bytes)
  | .mwrN t a =>
    let lo := 4096 * l.tile core t
    let addr := BitVec.ofNat 64 a
    let v := (List.range 4096).map fun i =>
      (lo + i, BitVec.ofNat 32 (bytesToNat (s.nearBytes l (nearCore core addr) (nearOff addr + 4 * i) false 4)))
    (0#5, s.modCore core fun k => { k with tiles := Tab.setAll 0#32 k.tiles v })
  | .mwrW t r0 live vals =>
    let tile := l.tile core t
    let ws := live.toList.flatMap fun j => (List.range 4).flatMap fun q => (List.range 2).map fun e =>
      (tileKey tile r0 j q e, (Tab.get 0#64 vals (4 * j + q)).extractLsb' (32 * e) 32)
    (0#5, s.modCore core fun k => { k with tiles := Tab.setAll 0#32 k.tiles ws })
  | _ => (0#5, s)

end Sys2Proof.Machine
end

