-- ==== Sys2Proof/Machine/Commands.lean ====
section
/-!
DEFINITION. Engine commands from their receipt to their completion (R239, R240, R264, R361, R363).
-/

namespace Sys2Proof.Machine

/-- The commands that a core received before one and has not completed. -/
def Core.ahead (k : Core) (id : Nat) : List EngRec := k.engine.takeWhile fun e => e.id != id

/-- The subscriptions that happen before a command in a core's scoreboard (R201). -/
def Core.heardBefore (k : Core) (id : Nat) : List Nat :=
  match k.engine.find? fun e => e.id == id with
  | some e => e.heard
  | none => []

/-- A command performed on its ranges and tiles: its flags. `id` is its identifier. -/
def State.performCmd (s : State) (l : Launch) (core id : Nat) (x : Cmd) : BitVec 5 × State :=
  match x with
  | .copy c => s.performCopy l core c
  | .mloop m => s.performLoop l core id m
  | .mzero t => s.performTile l core (.mzero t)
  | .mrdN t a bf => s.performTile l core (.mrdN t a bf)
  | .mwrN t a => s.performTile l core (.mwrN t a)
  | .mwrW t r0 live vals => s.performTile l core (.mwrW t r0 live vals)
  | .swmerge a hdl n => s.performSweep l core ((s.core core).heardBefore id) (.swmerge a hdl n)
  | .swrd a hdl mm => s.performSweep l core [] (.swrd a hdl mm)
  | x => s.performAuto l core id x

/-- The response to a loop's fetch of A noted at its slice: in the reads it shared, and as a read of its own (R259). What the
slice's own core reads of a frozen region is shared with no other core, each of which gets poison (R363, R366). -/
def State.noteFetch (s : State) (l : Launch) (core id : Nat) (x : Cmd) : State :=
  match x with
  | .mloop m =>
    let f := s.fetchA l core id m
    let ca := nearCore core (nearLow m.d0)
    let own : SliceRead :=
      { launch := l.id, cluster := clusterOf core, age := 0, poison := l.frozenFor ca core, readers := [core], range := m.rangeA l core,
        bytes := f.own, closed := none }
    s.modCore ca fun k => { k with
      reads := (k.reads.zipIdx.map fun x =>
        if f.used.contains x.2 then { x.1 with readers := x.1.readers ++ [core] } else x.1)
        ++ (if f.own = [] || (core == ca && (l.place? ca).any (·.frozen)) then [] else [own]) }
  | _ => s

/-- Whether an earlier command that has not started keeps a command from starting (R264, R278). -/
def Core.mayStart (k : Core) (e : EngRec) : Bool :=
  !((k.ahead e.id).any fun x => !x.started && x.clash e.ranges e.tiles) && e.cmd.mayStart (k.ahead e.id)

/-- Whether a command reads poison: a region frozen for its core (R363), a response of poison to a fetch of A that it shares
(R366), or an error noted in its record. -/
def EngRec.poisoned (e : EngRec) (s : State) (l : Launch) (core : Nat) : Bool :=
  e.poison || match e.cmd with
    | .mloop m => (s.fetchA l core e.id m).poison || (m.otherRanges l core).any fun r => l.frozenFor r.core core
    | _ => e.ranges.any fun r => l.frozenFor r.core core

/-- A record of a core's scoreboard changed. -/
def State.modCmd (s : State) (core id : Nat) (f : EngRec → EngRec) : State :=
  s.modCore core fun k => { k with engine := k.engine.map fun e => if e.id == id then f e else e }

/-- Event ENGINE_COMMAND_START (R264): a command that no earlier one keeps back is performed. -/
def execEngineCommandStart (core id : Nat) (s : State) : Host.Outcome State Fault Refusal :=
  match (s.core core).engine.find? fun e => e.id == id with
  | none => .next s
  | some e =>
    match s.launch? e.launch with
    | none => .next s
    | some l =>
      if e.started || !(s.core core).mayStart e || l.awayFor e.ranges then .next s
      else if e.poisoned s l core then
        .next ((s.noteFetch l core id e.cmd).modCmd core id fun e =>
          { e with started := true, poison := true, peer := !e.poison })
      else
        match s.performCmd l core id e.cmd with
        | (fl, t) =>
          let t := (t.noteFetch l core id e.cmd).noteWrites (some (core, id)) e.ranges
          .next (t.modCmd core id fun e => { e with started := true, flags := fl })

/-- Event ENGINE_COMMAND_COMPLETION (R240): the command's flags join its warp's, its copy tag is ready; poison ends the
launch (R361), and where a frozen slice gave it, its warp raises PEERFLT (R363, R366). -/
def execEngineCommandCompletion (core id : Nat) (s : State) : Host.Outcome State Fault Refusal :=
  match (s.core core).engine.find? fun e => e.id == id with
  | none => .next s
  | some e =>
    if !e.started then .next s
    else
      let s := match e.cmd with | .copy c => s.closeCopy core c | _ => s
      let s := s.modCore core fun k =>
        let left := k.engine.filter fun x => x.id != id
        { k with engine := left, auto := if e.cmd.automaton then k.auto.completed e.cmd k.nextId left else k.auto }
      let s := s.modWarp e.warp fun p => if p.stamp == e.stamp then { p with fpflags := p.fpflags ||| e.flags } else p
      let s := if e.poison then s.endLaunch e.launch 144 { code := .poison, detail := 0 } else s
      .next (match s.warp? e.warp with
        | some p => if e.peer && p.stamp == e.stamp then s.peerFault e.warp else s
        | none => s)

end Sys2Proof.Machine
end

