-- ==== Sys2Proof/Machine/Global.lean ====
section
/-!
DEFINITION. Loads, stores, formatted accesses and prefetches at issue, 0x54–0x5A (R129–R139).
-/

namespace Sys2Proof.Machine

/-! ### Sizes (R131) -/

/-- The bytes of an access size. -/
def szBytes (sz : BitVec 3) : Nat :=
  match sz.toNat with
  | 0 | 4 => 1 | 1 | 5 => 2 | 2 | 6 => 4 | 3 => 8 | _ => 32

/-- The operand codes an access of a size reads or writes as data. -/
def szCodes (d : BitVec 5) (sz : BitVec 3) : List (BitVec 5) := if sz.toNat = 7 then [d, d + 1, d + 2, d + 3] else [d]

/-- The registers that loaded bytes make, by slot (R132). -/
def loadValues (sz : BitVec 3) (bs : List Byte) : List Word :=
  if sz.toNat = 7 then (List.range 4).map fun i => BitVec.ofNat 64 (bytesToNat ((bs.drop (8 * i)).take 8))
  else if 4 ≤ sz.toNat then [BitVec.ofInt 64 (signedOf (8 * szBytes sz) (bytesToNat bs))]
  else [BitVec.ofNat 64 (bytesToNat bs)]

/-- The bytes that a lane stores (R132). -/
def Ctx.storeData (c : Ctx) (d x : BitVec 5) (sz : BitVec 3) (j : Nat) : List Byte :=
  if sz.toNat = 7 then (List.range 4).flatMap fun i => wordBytes' (c.src (d + BitVec.ofNat 5 i) x j)
  else natToBytes (c.src d x j).toNat (szBytes sz)
where
  wordBytes' (v : Word) : List Byte := natToBytes v.toNat 8

/-- The lanes of a mask with their effective addresses (R132). -/
def Ctx.addresses (c : Ctx) (m : Mask) (a b x : BitVec 5) (size : Nat) : List (Nat × Word) :=
  m.toList.map fun j => (j, c.src a x j + c.offset b x size j)

/-- What an instruction on lanes of a set operand does (R130, R216): it waits for the values it uses; with no live
lane it does nothing. -/
def Ctx.onLanes (c : Ctx) (s : State) (k : BitVec 3) (uses : List (BitVec 5)) (f : Mask → Issue) : Issue :=
  if c.busyK k.toNat || c.busy uses then .stall
  else match c.mask k with
    | none => .trap s (c.trap .setkind)
    | some m => if m = 0#32 then .go s c.r else f m

/-! ### Global loads and stores -/

/-- Values loaded lane by lane through the L1: key 32·slot + lane. -/
def State.loadLanes (s : State) (c : Nat) (sz : BitVec 3) (na : Bool) :
    List (Nat × Word × Page) → List (Nat × Word) × State
  | [] => ([], s)
  | x :: r =>
    match s.plainRead c (x.2.2.phys x.2.1.toNat) (szBytes sz) na with
    | (bs, s) =>
      match s.loadLanes c sz na r with
      | (vs, s) => (((loadValues sz bs).zipIdx).map (fun e => (32 * e.2 + x.1, e.1)) ++ vs, s)

/-- The sectors that lanes touch. -/
def laneSectors (size : Nat) (ls : List (Nat × Word × Page)) : List Nat :=
  dedup (ls.flatMap fun x => sectorsOf (x.2.2.phys x.2.1.toNat) size)

/-- `ld.SZ` (R132): values read at issue, delivered under R64. -/
def execLd (o : Opnds) (sz : BitVec 3) (cp : BitVec 2) (la : BitVec 4) (s : State) :
    Host.Outcome State Fault Refusal :=
  s.issue (.ld o sz cp la) fun s c => c.onLanes s o.k (szCodes o.d sz ++ [o.a, o.b]) fun m =>
    match s.locateAll c (szBytes sz) .read (c.addresses m o.a o.b o.x (szBytes sz)) with
    | (.error e, s) => .trap s (c.trapAt e .read)
    | (.ok ls, s) =>
      match s.freshId c.w.core with
      | (id, s) =>
        match s.takeReqs c.w.core id (laneSectors (szBytes sz) ls) with
        | none => .stall
        | some s =>
          match s.loadLanes c.w.core sz (cp == 1#2) ls with
          | (vs, s) =>
            .go s { c.r.await id (.win o.d (if sz.toNat = 7 then 4 else 1)) vs la with mem := true }

/-- What the lanes of a plain store stage, ascending, up to the first lane that traps (R132, R133). -/
def State.storeLanes (s : State) (c : Ctx) (id : Nat) (o : Opnds) (sz : BitVec 3) (na : Bool) :
    List (Nat × Word) → List Held → Except (Code × Word) (List Held) × State
  | [], hs => (.ok hs, s)
  | x :: r, hs =>
    match s.locate c x.2 (szBytes sz) .write with
    | (.error e, s) => (.error e, s)
    | (.ok p, s) =>
      match s.plainWrite c.w.core c.tenant id na p x.2.toNat (c.storeData o.d o.x sz x.1) hs with
      | (.error e, s) => (.error e, s)
      | (.ok hs, s) => s.storeLanes c id o sz na r hs

/-- `st.SZ` (R132): data read at issue, written at commit step 4. -/
def execSt (o : Opnds) (sz : BitVec 3) (cp : BitVec 2) (s : State) : Host.Outcome State Fault Refusal :=
  s.issue (.st o sz cp) fun s c => c.onLanes s o.k (szCodes o.d sz ++ [o.a, o.b]) fun m =>
    let ls := c.addresses m o.a o.b o.x (szBytes sz)
    match s.freshId c.w.core with
    | (id, s) =>
      match s.storeLanes c id o sz (cp == 1#2) ls [] with
      | (.error e, s) => .trap s (c.trapAt e .write)
      | (.ok hs, s) =>
        if ls.any fun x => c.l.ownBad x.2.toNat (szBytes sz) then .trap s (c.trap .ownvio)
        else .go s { c.r with held := c.r.held ++ hs }

/-! ### Near loads and stores -/

/-- The first lane whose near address traps: PERM of R125, then ALIGN (R132). -/
def Ctx.nearBad (c : Ctx) (size : Nat) (ls : List (Nat × Word)) : Option (Code × Word) :=
  ls.findSome? fun x =>
    if !c.l.nearOk c.w.core x.2 size then some (.perm, x.2)
    else if nearOff x.2 % size != 0 then some (.align, x.2)
    else none

/-- The near ranges that lanes touch. -/
def Ctx.nearRanges (c : Ctx) (size : Nat) (write : Bool) (ls : List (Nat × Word)) : List NearRange :=
  ls.flatMap fun x => c.l.range (nearCore c.w.core x.2) (nearOff x.2) size write

/-- `ldn.SZ` (R127, R132): the slice read at issue, after the engine commands it must wait for (R264). A slice
frozen for this core answers with PEERFLT (R363). -/
def execLdn (o : Opnds) (sz : BitVec 3) (la : BitVec 4) (s : State) : Host.Outcome State Fault Refusal :=
  s.issue (.ldn o sz la) fun s c => c.onLanes s o.k (szCodes o.d sz ++ [o.a, o.b]) fun m =>
    let ls := c.addresses m o.a o.b o.x (szBytes sz)
    match c.nearBad (szBytes sz) ls with
    | some e => .trap s (c.trapAt e .read)
    | none =>
      if (s.core c.w.core).mustWait (c.nearRanges (szBytes sz) false ls) [] || (s.core c.w.core).boardFull
          || c.l.awayFor (c.nearRanges (szBytes sz) false ls) then .stall
      else if ls.any fun x => c.l.frozenFor (nearCore c.w.core x.2) c.w.core then .trap s (c.trap .peerflt)
      else
        let vs := ls.flatMap fun x =>
          ((loadValues sz (s.nearBytes c.l (nearCore c.w.core x.2) (nearOff x.2) false (szBytes sz))).zipIdx).map
            fun e => (32 * e.2 + x.1, e.1)
        .go (s.freshId c.w.core).2
          (c.r.await (s.freshId c.w.core).1 (.win o.d (if sz.toNat = 7 then 4 else 1)) vs la)

/-- `stn.SZ` (R127, R132). -/
def execStn (o : Opnds) (sz : BitVec 3) (s : State) : Host.Outcome State Fault Refusal :=
  s.issue (.stn o sz) fun s c => c.onLanes s o.k (szCodes o.d sz ++ [o.a, o.b]) fun m =>
    let ls := c.addresses m o.a o.b o.x (szBytes sz)
    match c.nearBad (szBytes sz) ls with
    | some e => .trap s (c.trapAt e .write)
    | none =>
      .go s (c.r.hold (.near m (ls.flatMap fun x =>
        ((c.storeData o.d o.x sz x.1).zipIdx).map fun e => (nearCore c.w.core x.2, nearOff x.2 + e.2, e.1))))

/-! ### Formatted access -/

/-- The element format of the registers of `ldt` and `stt` (R134). -/
def dtFmt (dt : BitVec 1) : EFmt := if dt = 1#1 then .bf16 else .f32

/-- Whether a format entry permits formatted access and matches a check (R109, R134, R136). -/
def formatOk (e : Word) (chk : BitVec 1) (x : BitVec 5) : Bool :=
  !fmtBad e && (fmtOf e).efmt != .raw
    && (chk == 0#1 || (EFmt.ofCode (x.extractLsb' 0 4) == (fmtOf e).efmt && (!x.getLsbD 4 || (fmtOf e).mx)))

/-- The elements that a lane names: its page and first element, or its trap (R135, R136); the scales of their blocks
must translate too (R109), which is tested after the ALIGN of the elements (DESIGN CHOICE, log 59). -/
def State.elements (s : State) (c : Ctx) (o : Opnds) (dt : BitVec 1) (chk : BitVec 1) (acc : Access) (j : Nat) :
    Except (Code × Word) (Page × Nat) × State :=
  let ea := c.src o.a o.x j
  match s.translate c.w.core c.tenant ea acc with
  | (.error e, s) => (.error (e, ea), s)
  | (.ok p, s) =>
    if !formatOk p.fmt chk o.x then (.error (.perm, ea), s)
    else match elementAt (fmtOf p.fmt).efmt (ea.toNat - p.va) with
      | none => (.error (.align, ea), s)
      | some e =>
        let first := (BitVec.ofNat 64 e + c.offset o.b o.x (dtFmt dt).count j).toNat
        if elementCount (fmtOf p.fmt) p.size < first + (dtFmt dt).count then (.error (.align, ea), s)
        else if !(fmtOf p.fmt).mx then (.ok (p, first), s)
        else match s.blockOf c.w.core c.tenant p (first / 32) acc with
          | (.error x, s) => (.error x, s)
          | (.ok _, s) =>
            match s.blockOf c.w.core c.tenant p ((first + (dtFmt dt).count - 1) / 32) acc with
            | (.error x, s) => (.error x, s)
            | (.ok _, s) => (.ok (p, first), s)

/-- The code of an element and, in an MX32 page, its block's scale (R90, R94, R116): a block is read at home after
this core's dirty bytes in its sectors are written back; other elements are read through the L1. -/
def State.readElement (s : State) (c t : Nat) (p : Page) (e : Nat) :
    Except (Code × Word) (Nat × Option Nat × List Nat) × State :=
  let f := fmtOf p.fmt
  let w := f.efmt.width
  if f.mx then
    match s.blockOf c t p (e / 32) .read with
    | (.error x, s) => (.error x, s)
    | (.ok b, s) =>
      let s := (b.sectors.foldl (fun s sec => s.flushSector c sec) s).packets b.sectors
      (.ok (bitsAt (s.blockBytes b) (w * (e % 32)) w, some (s.readByte b.scale).toNat, b.sectors), s)
  else
    let lo := w * e / 8
    let n := (w * e + w - 1) / 8 - lo + 1
    match s.plainRead c (p.pa + lo) n false with
    | (bs, s) => (.ok (bitsAt bs (w * e - 8 * lo) w, none, sectorsOf (p.pa + lo) n), s)

/-- The elements of a lane loaded: the register, the flags and the sectors touched. -/
def State.loadElements (s : State) (c : Ctx) (p : Page) (first : Nat) (dt : BitVec 1) (rm : BitVec 3) (ftz : BitVec 1)
    (j : Nat) : Except (Code × Word) (Word × BitVec 5 × List Nat) × State :=
  let f := fmtOf p.fmt
  let r := (List.range (dtFmt dt).count).foldl (fun r i =>
    match r with
    | (.error e, s) => (.error e, s)
    | (.ok (cs, fl, secs), s) =>
      match s.readElement c.w.core c.tenant p (first + i) with
      | (.error e, s) => (.error e, s)
      | (.ok (code, scale, ss), s) =>
        let v := match scale with
          | some q => blockVal f.efmt q code
          | none => decodeFtz f.efmt (ftz == 1#1) code
        let x := encodeVal (dtFmt dt) rm (ftz == 1#1) (c.random j i) v
        (.ok (cs ++ [x.1], fl ||| x.2, secs ++ ss), s))
    ((.ok ([], 0#5, []), s) : Except (Code × Word) (List Nat × BitVec 5 × List Nat) × State)
  match r with
  | (.error e, s) => (.error e, s)
  | (.ok (cs, fl, secs), s) => (.ok (packSubs (dtFmt dt) cs, fl, secs), s)

/-- The lanes of an `ldt`, up to the first that traps. -/
def State.loadFormatted (s : State) (c : Ctx) (o : Opnds) (dt : BitVec 1) (rm : BitVec 3) (ftz chk : BitVec 1) :
    List Nat → Except (Code × Word) (List (Nat × Word) × BitVec 5 × List Nat) × State
  | [] => (.ok ([], 0#5, []), s)
  | j :: r =>
    match s.elements c o dt chk .read j with
    | (.error e, s) => (.error e, s)
    | (.ok (p, first), s) =>
      match s.loadElements c p first dt rm ftz j with
      | (.error e, s) => (.error e, s)
      | (.ok (v, fl, secs), s) =>
        match s.loadFormatted c o dt rm ftz chk r with
        | (.error e, s) => (.error e, s)
        | (.ok (vs, fl', secs'), s) => (.ok ((j, v) :: vs, fl ||| fl', secs ++ secs'), s)

/-- `ldt` (R134–R136). -/
def execLdt (o : Opnds) (dt : BitVec 1) (rm : BitVec 3) (ftz chk : BitVec 1) (la : BitVec 4) (s : State) :
    Host.Outcome State Fault Refusal :=
  s.issue (.ldt o dt rm ftz chk la) fun s c => c.onLanes s o.k [o.d, o.a, o.b] fun m =>
    match s.loadFormatted c o dt rm ftz chk m.toList with
    | (.error e, s) => .trap s (c.trapAt e .read)
    | (.ok (vs, fl, secs), s) =>
      match s.freshId c.w.core with
      | (id, s) =>
        match s.takeReqs c.w.core id (dedup secs) with
        | none => .stall
        | some s =>
          .go s { ((c.r.await id (.win o.d 1) vs la).flag fl).rounded rm m with mem := true }

/-- One element of an `stt`: its page and number, its value in the register format, its random bits. -/
structure EltWrite where
  page : Page
  num  : Nat
  code : Nat
  rnd  : Nat

/-- The elements that lanes of an `stt` write, ascending, up to the first lane that traps (R136). -/
def State.storeElements (s : State) (c : Ctx) (o : Opnds) (dt : BitVec 1) (rm : BitVec 3) (chk : BitVec 1) :
    List Nat → Except Trap (List EltWrite) × State
  | [] => (.ok [], s)
  | j :: r =>
    match s.elements c o dt chk .write j with
    | (.error e, s) => (.error (c.trapAt e .write), s)
    | (.ok (p, first), s) =>
      if (fmtOf p.fmt).efmt = .h4 && rm != 0#3 then (.error (c.trap .illop), s)
      else match s.storeElements c o dt rm chk r with
        | (.error t, s) => (.error t, s)
        | (.ok es, s) =>
          (.ok ((List.range (dtFmt dt).count).map (fun i =>
            { page := p, num := first + i, code := subOf (dtFmt dt) (c.src o.d o.x j) i, rnd := c.random j i : EltWrite })
              ++ es), s)

/-- The block writes of an `stt` (R137): all writes of one block together, blocks ascending in the order of the
pages named first. -/
def State.blockWrites (s : State) (c t : Nat) (src : EFmt) (rm : BitVec 3) (ftz : Bool) (es : List EltWrite) :
    List (Page × Nat) → Except (Code × Word) (List HomeAcc) × State
  | [] => (.ok [], s)
  | b :: r =>
    match s.blockOf c t b.1 b.2 .write with
    | (.error e, s) => (.error e, s)
    | (.ok blk, s) =>
      match s.blockWrites c t src rm ftz es r with
      | (.error e, s) => (.error e, s)
      | (.ok hs, s) =>
        let mine := es.filter fun e => e.page == b.1 && e.num / 32 == b.2
        let last := mine.foldl (fun l e =>
          l.filter (fun (x : BlockElt) => x.idx != e.num % 32) ++
            [{ idx := e.num % 32, val := BitVec.ofNat 64 e.code, rnd := BitVec.ofNat 64 e.rnd }]) []
        (.ok (.blockElts blk src last rm ftz :: hs), s)

/-- The blocks of MX32 pages that element writes name: those of one page ascending, pages in the order named (R137). -/
def blockOrder (es : List EltWrite) : List (Page × Nat) :=
  let blocks := (es.filter fun e => (fmtOf e.page.fmt).mx).foldl (fun l e =>
    if l.contains (e.page, e.num / 32) then l else l ++ [(e.page, e.num / 32)]) []
  blocks.foldl (fun l b => l.takeWhile (fun x => !(x.1 == b.1 && b.2 < x.2)) ++ [b] ++
    l.dropWhile (fun x => !(x.1 == b.1 && b.2 < x.2))) []

/-- The element writes of a whole block as values and random bits, by index (R137). -/
def wholeBlock (src : EFmt) (ftz : Bool) (es : List BlockElt) : Option (List Val × List Nat) :=
  let xs := (List.range 32).filterMap fun i => es.find? fun e => e.idx == i
  if xs.length = 32 then some (xs.map fun e => decodeFtz src ftz e.val.toNat, xs.map fun e => e.rnd.toNat) else none

/-- The flags that a block write raises at issue: those of a whole block (R136). -/
def HomeAcc.issueFlags : HomeAcc → BitVec 5
  | .blockElts b src es rm ftz =>
    match wholeBlock src ftz es with
    | some (xs, us) => (encodeBlock b.efmt rm ftz xs us).2.2
    | none => 0#5
  | _ => 0#5

/-- Whether a block that an `stt` writes whole, and whose scale it therefore writes, has that scale outside the ranges its
launch owns (R335). -/
def Launch.scaleBad (l : Launch) (es : List EltWrite) : Bool :=
  (blockOrder es).any fun b =>
    let idx := (es.filter fun e => e.page == b.1 && e.num / 32 == b.2).map fun e => e.num % 32
    (List.range 32).all (fun i => idx.contains i)
      && l.ownBad (BitVec.ofInt 64 ((b.1.va : Int) + (fmtOf b.1.fmt).soff + b.2)).toNat 1

/-- `stt` (R134–R138). -/
def execStt (o : Opnds) (dt : BitVec 1) (rm : BitVec 3) (ftz chk : BitVec 1) (s : State) :
    Host.Outcome State Fault Refusal :=
  s.issue (.stt o dt rm ftz chk) fun s c => c.onLanes s o.k [o.d, o.a, o.b] fun m =>
    match s.storeElements c o dt rm chk m.toList with
    | (.error t, s) => .trap s t
    | (.ok es, s) =>
      let plain := es.filter fun e => !(fmtOf e.page.fmt).mx
      let enc := plain.map fun e =>
        (e, encodeVal (fmtOf e.page.fmt).efmt rm (ftz == 1#1) e.rnd (decodeFtz (dtFmt dt) (ftz == 1#1) e.code))
      let ws := enc.flatMap fun e =>
        bitWrites e.1.page.pa ((fmtOf e.1.page.fmt).efmt.width * e.1.num) (fmtOf e.1.page.fmt).efmt.width e.2.1
      match s.blockWrites c.w.core c.tenant (dtFmt dt) rm (ftz == 1#1) es (blockOrder es) with
      | (.error e, s) => .trap s (c.trapAt e .write)
      | (.ok hs, s) =>
        if c.l.scaleBad es || es.any fun e =>
            let w := (fmtOf e.page.fmt).efmt.width
            c.l.ownBad (e.page.va + w * e.num / 8) ((w * e.num + w - 1) / 8 - w * e.num / 8 + 1) then
          .trap s (c.trap .ownvio)
        else match s.freshId c.w.core with
          | (id, s) =>
            let r := if ws = [] then c.r else c.r.hold (.bytes false ws)
            let r := if hs = [] then r else r.hold (.home id 24#5 0#32 hs)
            .go s ((r.flag ((enc.foldl (fun x e => x ||| e.2.2) 0#5) |||
              hs.foldl (fun x h => x ||| h.issueFlags) 0#5)).rounded rm m)

/-! ### Prefetch -/

/-- `pref` (R139): it brings sectors into the L1 (`.l1`); the memory-side cache holds the only copy below it, so
`.msc` changes nothing. A prefetch that fails is dropped. -/
def execPref (k : BitVec 3) (a b x : BitVec 5) (lv : BitVec 1) (s : State) : Host.Outcome State Fault Refusal :=
  s.issue (.pref k a b x lv) fun s c => c.onLanes s k [a, b] fun m =>
    let r := (c.addresses m a b x 32).foldl (fun (r : List Nat × State) e =>
      match r.2.translate c.w.core c.tenant e.2 .read with
      | (.error _, s) => (r.1, s)
      | (.ok p, s) => (r.1 ++ [p.phys e.2.toNat / 32], s)) ([], s)
    match r.2.freshId c.w.core with
    | (id, s) =>
      match s.takeReqs c.w.core id (dedup r.1) with
      | none => .go s c.r
      | some s =>
        .go ((dedup r.1).foldl (fun s sec => if lv = 0#1 then s.loadFill c.w.core (32 * sec) 32 false else s) s) c.r

end Sys2Proof.Machine
end

