-- ==== Sys2Proof/Machine/Home.lean ====
section
/-!
DEFINITION. The home atomic units: what each access does there, and which access a unit performs next (R116, R133,
R137, R140–R143, R149, R153, R214, R215, R225, R227, R228, R316, R317, R323, R324, R379).
-/

namespace Sys2Proof.Machine

/-! ### Which sectors an access reaches -/

/-- A sector number of its own for the queues of cards, which have no address (R324). -/
def queueSector : Nat := 2 ^ 60

/-- The sector of an object's header (R215). -/
def headSector (obj : List Span) : List Nat := (spanSectors obj).take 1

/-- The sectors an access reads or writes; of a set object or a set queue, that of its header, which gives its extent. -/
def HomeAcc.sectors : HomeAcc → List Nat
  | .atom _ a => match a.block with | some b => b.sectors | none => [a.pa / 32]
  | .guard _ _ pa _ => [pa / 32]
  | .future _ _ pa _ _ => [pa / 32]
  | .blockBytes bs ws => dedup (bs.flatMap Block.sectors ++ ws.map fun w => w.pa / 32)
  | .blockElts b _ _ _ _ => b.sectors
  | .kmerge _ obj _ => headSector obj
  | .chunk _ obj _ => spanSectors obj
  | .kqpush _ obj _ => headSector obj
  | .kqpop _ obj => headSector obj
  | .post _ _ pa _ _ _ _ => sectorsOf pa 64
  | .hostPost _ pa _ => sectorsOf pa 64
  | .qtake _ _ _ => []
  | .remote _ _ r => [r.pa / 32]

/-- The further sectors of a set object or a set queue, as its header now gives them (R215, R227). -/
def State.reach (s : State) : HomeAcc → List Nat
  | .kmerge _ obj _ => spanSectors (spanTake (32 + 8 * setCap (s.objWord obj 8)) obj)
  | .kqpush _ obj _ => spanSectors (spanTake (32 + 8 * queueCap (s.objWord obj 16)) obj)
  | .kqpop _ obj => spanSectors (spanTake (32 + 8 * queueCap (s.objWord obj 16)) obj)
  | _ => []

/-- The sector whose unit serves an access (R116, R215). -/
def HomeAcc.sector (h : HomeAcc) : Nat := h.sectors.headD queueSector

/-- The request entries an access takes (R117): atomics, future operations, guards and block writes take one to each
sector. -/
def HomeAcc.entries : HomeAcc → List Nat
  | .atom th a => (HomeAcc.atom th a).sectors
  | .guard th va pa sc => (HomeAcc.guard th va pa sc).sectors
  | .future th va pa sc v => (HomeAcc.future th va pa sc v).sectors
  | .blockBytes bs ws => (HomeAcc.blockBytes bs ws).sectors
  | .blockElts b f es rm z => (HomeAcc.blockElts b f es rm z).sectors
  | _ => []

/-- The thread and the unit of a sync access (R336); none for an access that needs no record. -/
def HomeAcc.unit : HomeAcc → Option (Nat × Nat)
  | .atom th a => some (th, a.va)
  | .guard th va _ _ => some (th, va)
  | .future th va _ _ _ => some (th, va)
  | .kmerge th obj _ => obj.head?.map fun x => (th, x.va)
  | .chunk th obj _ => obj.head?.map fun x => (th, x.va)
  | .kqpush th obj _ => obj.head?.map fun x => (th, x.va)
  | .kqpop th obj => obj.head?.map fun x => (th, x.va)
  | .post th card _ _ _ _ _ => some (th, card + 0x40)
  | _ => none

/-! ### Atomics -/

/-- The bits of an atomic's unit. -/
def AtomAcc.width (a : AtomAcc) : Nat := if a.wide then 64 else 32

/-- The new value an atomic leaves (R140), from the old one. -/
def AtomAcc.result (a : AtomAcc) (old : Nat) : Nat :=
  let w := a.width
  let b := a.b.toNat % 2 ^ w
  match a.op with
  | .add => (old + b) % 2 ^ w
  | .fadd =>
    let f : EFmt := if a.wide then .f64 else .f32
    (floatResult f 0#3 0#1 0 ((decodeVal f old).add 0#3 (decodeVal f b))).1
  | .binc => if old < b then old + 1 else old
  | .xchg => b
  | .minS => if signedOf w b < signedOf w old then b else old
  | .maxS => if signedOf w old < signedOf w b then b else old
  | .minU => min old b
  | .maxU => max old b
  | .and => (BitVec.ofNat w old &&& BitVec.ofNat w b).toNat
  | .or => (BitVec.ofNat w old ||| BitVec.ofNat w b).toNat
  | .xor => (BitVec.ofNat w old ^^^ BitVec.ofNat w b).toNat
  | .cas => if old = a.c.toNat % 2 ^ w then b else old

/-- The value an atomic returns (R140). -/
def AtomAcc.returned (a : AtomAcc) (old : Nat) : Word :=
  match a.op with
  | .minS | .maxS => BitVec.ofInt 64 (signedOf a.width old)
  | _ => BitVec.ofNat 64 old

/-- An atomic performed at its home: the value returned. -/
def State.performAtom (s : State) (a : AtomAcc) : Word × State :=
  let n := a.width / 8
  let old := bytesToNat (s.readBytes a.pa n)
  (a.returned old, s.writeBytes a.pa (natToBytes (a.result old) n))

/-! ### Blocks -/

/-- Element codes put into the bytes of a block. -/
def putElements (f : EFmt) (bs : List Byte) (cs : List (Nat × Nat)) : List Byte :=
  let w := f.width
  natToBytes (cs.foldl (fun v c =>
    v - v / 2 ^ (w * c.1) % 2 ^ w * 2 ^ (w * c.1) + c.2 % 2 ^ w * 2 ^ (w * c.1)) (bytesToNat bs)) bs.length

/-- Element writes of a block performed (R91, R92, R137): the flags of a partial write. -/
def State.performElements (s : State) (b : Block) (src : EFmt) (es : List BlockElt) (rm : BitVec 3) (ftz : Bool) :
    BitVec 5 × State :=
  match wholeBlock src ftz es with
  | some (xs, us) =>
    let r := encodeBlock b.efmt rm ftz xs us
    (0#5, (s.writeBytes b.data (putElements b.efmt (s.blockBytes b) ((r.2.1.zipIdx).map fun e => (e.2, e.1)))).writeByte
      b.scale (BitVec.ofNat 8 r.1))
  | none =>
    let scale := (s.readByte b.scale).toNat
    let rs := es.map fun e => (e.idx, encodePartial b.efmt rm ftz scale e.rnd.toNat (decodeFtz src ftz e.val.toNat))
    (rs.foldl (fun x r => x ||| r.2.2) 0#5,
      s.writeBytes b.data (putElements b.efmt (s.blockBytes b) (rs.map fun r => (r.1, r.2.1))))

/-! ### Set objects and set queues -/

/-- The word of an entry of a set object (R215). -/
def entryWord (e : Nat × Nat × Mask) : Word := BitVec.ofNat 64 (e.1 * 2 ^ 40 + e.2.1 * 2 ^ 32 + e.2.2.toNat)

/-- Members merged into a set object (R225). Entries that its capacity has taken in since the issue, on pages that did not
translate then, do not count (log 68). -/
def State.performMerge (s : State) (obj : List Span) (ms : List (Nat × Nat × Mask)) : State :=
  ms.foldl (fun s e =>
    let h := s.objWord obj 0
    let cap := min (setCap (s.objWord obj 8)) ((spanLen obj - 32) / 8)
    let n := bitsOf h 31 0
    let at_ := (List.range (min n cap)).find? fun i =>
      bitsOf (s.objWord obj (32 + 8 * i)) 47 40 == e.1 && bitsOf (s.objWord obj (32 + 8 * i)) 37 32 == e.2.1
    match at_ with
    | some i => s.setObjWord obj (32 + 8 * i) (s.objWord obj (32 + 8 * i) ||| e.2.2.setWidth 64)
    | none =>
      let ovf := h &&& 0x100000000#64
      if n < cap then
        (s.setObjWord obj (32 + 8 * n) (entryWord e)).setObjWord obj 0 (ovf ||| BitVec.ofNat 64 (n + 1))
      else s.setObjWord obj 0 (BitVec.ofNat 64 (2 ^ 32 + n))) s

/-- A set object written whole, with capacity 64 (R214). Members beyond the capacity set OVF, as a merge does. -/
def State.performChunk (s : State) (obj : List Span) (ms : List (Nat × Nat × Mask)) : State :=
  let s := (s.setObjWord obj 0 0#64).setObjWord obj 8 64#64
  s.performMerge obj ms

/-- Whether a slot of a set queue lies in what could be translated at issue (log 68). -/
def slotIn (obj : List Span) (i : Nat) : Bool := 32 + 8 * i + 8 ≤ spanLen obj

/-- A value pushed on a set queue: what is returned (R228). -/
def State.performPush (s : State) (obj : List Span) (v : Word) : Word × State :=
  let head := s.objWord obj 0
  let tail := s.objWord obj 8
  let cap := queueCap (s.objWord obj 16)
  if v = 0#64 then (1#64, s)
  else if (tail - head).toNat < cap && slotIn obj (tail.toNat % cap) then
    (1#64, (s.setObjWord obj (32 + 8 * (tail.toNat % cap)) v).setObjWord obj 8 (tail + 1#64))
  else (0#64, s)

/-- A value popped off a set queue: what is returned (R228). -/
def State.performPop (s : State) (obj : List Span) : Word × State :=
  let head := s.objWord obj 0
  let cap := queueCap (s.objWord obj 16)
  if s.objWord obj 8 != head && slotIn obj (head.toNat % cap) then (s.objWord obj (32 + 8 * (head.toNat % cap)), s.setObjWord obj 0 (head + 1#64))
  else (0#64, s)

/-! ### Cards -/

/-- A field of a word replaced. -/
def setBits (w : Word) (hi lo v : Nat) : Word :=
  let m := (2 ^ (hi - lo + 1) - 1) * 2 ^ lo
  (w &&& ~~~(BitVec.ofNat 64 m)) ||| BitVec.ofNat 64 (v % 2 ^ (hi - lo + 1) * 2 ^ lo)

/-- Whether the queue storage of R317 has room for one more card. -/
def State.queueRoom (s : State) (core : Option Nat) : Bool :=
  match core with
  | some c => (s.dev.queue.filter fun q => q.core == some c).length < 1024
  | none => (s.dev.queue.filter fun q => q.core.isNone).length < 65536

/-- A card queued (R317, R323): its level is the PRI of the word at 0x40, at most 11. -/
def State.enqueueCard (s : State) (tenant card : Nat) (w40 : Word) (core : Option Nat) (host : Bool) : State :=
  s.modDev fun d => { d with
    queue := d.queue ++ [{ id := d.nextStamp, tenant := tenant, level := min (bitsOf w40 15 12) 11, core := core,
                           addr := card, host := host, card := none, launch := none, fault := none }]
    nextStamp := d.nextStamp + 1 }

/-- The post of a card (R323): what is returned. -/
def State.performPost (s : State) (card pa : Nat) (depth : Option Nat) (any : Bool) (core tenant : Nat) (host : Bool) :
    Word × State :=
  let w40 := s.readWord pa
  let w50 := s.readWord (pa + 0x10)
  if w50.getLsbD 16 then (0#64, s)
  else
    let w50' := setBits (setBits (setBits w50 31 24 core) 23 23 (if any then 1 else 0)) 16 16 1
    let w40' := match depth with | some n => setBits w40 11 8 n | none => w40
    let s := ((s.writeWord pa w40').writeWord (pa + 0x10) w50').writeWord (pa + 0x38) 0#64
    (1#64, if bitsOf w50 15 0 = 0 then s.enqueueCard tenant card w40 (if any then none else some core) host else s)

/-- Who made an accepted post of a card, noted (R314, R374). -/
def State.notePoster (s : State) (tenant card who : Nat) : State :=
  s.modDev fun d => { d with posters := Dict.put d.posters (2 ^ 57 * tenant + card) who }

/-- Whether the host made the last accepted post of a card (R374). -/
def State.hostPosted (s : State) (tenant card : Nat) : Bool := Dict.find s.dev.posters (2 ^ 57 * tenant + card) == some 0

/-- Whether a post must wait for queue storage (R323). -/
def State.postWaits (s : State) (pa : Nat) (any : Bool) (core : Nat) : Bool :=
  let w50 := s.readWord (pa + 0x10)
  !w50.getLsbD 16 && bitsOf w50 15 0 == 0 && !s.queueRoom (if any then none else some core)

/-- The head card of a level's queue, where no unit of it has been placed (R324). -/
def State.headCard (s : State) (core : Option Nat) (tenant level : Nat) : Option QItem :=
  match s.dev.queue.find? fun q => q.core == core && q.tenant == tenant && q.level == level with
  | some q => if q.launch.isNone then some q else none
  | none => none

/-! ### Accesses of other nodes (R378, R379) -/

/-- Whether an access of another node is a sync access, performed at a home atomic unit (R379). -/
def isSyncOp : RemoteOp → Bool
  | .atom _ _ _ _ | .guardAdd | .guardRead | .futureRead | .futureFill _ | .futureClear => true
  | .read | .write _ _ | .reply => false

/-- An access of another node performed: the value that goes back. -/
def State.performRemote (s : State) (r : RemoteSync) : Word × State :=
  match r.op with
  | .atom op wide b c =>
    s.performAtom { op := op, wide := wide, lane := 0, va := 0, pa := r.pa, b := b, c := c, block := none, grp := none, scope := 6 }
  | .guardAdd => (0#64, s.writeWord r.pa (s.readWord r.pa + 1#64))
  | .read => (s.readWord r.pa, s)
  | .write mask data =>
    (0#64, (List.range 32).foldl
      (fun s i => if mask.getLsbD i then s.writeByte (32 * (r.pa / 32) + i) (sectorByte data i) else s) s)
  | .reply => (0#64, s)
  | .guardRead => (s.readWord r.pa, s)
  | .futureRead => (if (s.readWord (r.pa + 8)).getLsbD 0 then s.readWord r.pa else 0#64, s)
  | .futureFill v => (0#64, (s.writeWord r.pa v).writeWord (r.pa + 8) 1#64)
  | .futureClear => (0#64, s.writeWord (r.pa + 8) 0#64)

/-! ### Regions bound to a guard (R148) -/

/-- The physical ranges of a region that translate for reads, one to each 64 KiB (R148). -/
def State.regionRanges (s : State) (t : Nat) (base len : Nat) : Nat → List (Nat × Nat)
  | 0 => []
  | n + 1 =>
    if len = 0 then []
    else
      let m := min len (65536 - base % 65536)
      let rest := s.regionRanges t (base + m) (len - m) n
      match s.translateHome t (BitVec.ofNat 64 base) .read with
      | .ok pa => if base < 2 ^ 57 then (s.localPa pa, m) :: rest else rest
      | .error _ => rest

/-- The sectors of a core's L1 that overlap a region bound to a guard (R148). -/
def State.boundSectors (s : State) (c : Nat) (l : Launch) (g : Word) : List Nat :=
  let rs := (l.binds.filter fun b => b.2.2 == g).flatMap fun b =>
    s.regionRanges l.tenant b.1.toNat b.2.1.toNat (b.2.1.toNat / 65536 + 2)
  (s.l1Sectors c).filter fun sec => rs.any fun r => r.1 < 32 * sec + 32 && 32 * sec < r.1 + r.2

/-! ### Performing an access -/

/-- Whether an access can be performed now. -/
def State.canPerform (s : State) : HomeAcc → Bool
  | .post _ _ pa _ any core _ => !s.postWaits pa any core
  | .hostPost _ pa _ => !s.postWaits pa true 0
  | _ => true

/-- An access performed: the value it returns, the flags of a partial block write, and the state after it. `l` is
the launch it is made for. -/
def State.performAcc (s : State) (l : Nat) : HomeAcc → Word × BitVec 5 × State
  | .atom _ a => let r := s.performAtom a; (r.1, 0#5, r.2)
  | .guard _ _ pa _ => (0#64, 0#5, s.writeWord pa (s.readWord pa + 1#64))
  | .future _ _ pa _ (some v) => (0#64, 0#5, (s.writeWord pa v).writeWord (pa + 8) 1#64)
  | .future _ _ pa _ none => (0#64, 0#5, s.writeWord (pa + 8) 0#64)
  | .blockBytes _ ws =>
    (0#64, 0#5, ws.foldl (fun s w => s.writeByte w.pa ((w.val &&& w.mask) ||| (s.readByte w.pa &&& ~~~w.mask))) s)
  | .blockElts b f es rm z => let r := s.performElements b f es rm z; (0#64, r.1, r.2)
  | .kmerge _ obj ms => (0#64, 0#5, s.performMerge obj ms)
  | .chunk _ obj ms => (0#64, 0#5, s.performChunk obj ms)
  | .kqpush _ obj v => let r := s.performPush obj v; (r.1, 0#5, r.2)
  | .kqpop _ obj => let r := s.performPop obj; (r.1, 0#5, r.2)
  | .post _ card pa depth any core tenant =>
    let r := s.performPost card pa depth any core tenant false
    (r.1, 0#5, if r.1 = 1#64 then r.2.notePoster tenant card (l + 1) else r.2)
  | .hostPost card pa tenant =>
    let r := s.performPost card pa none true 0 tenant true
    let t := if r.1 = 1#64 then r.2.notePoster tenant card 0 else r.2
    (r.1, 0#5, t.modTenant tenant fun x => { x with postst := r.1 == 1#64, posting := false })
  | .qtake core tenant level =>
    match s.headCard core tenant level with
    | none => (0#64, 0#5, s)
    | some q =>
      (BitVec.ofNat 64 q.addr, 0#5,
        (s.modDev fun d => { d with queue := d.queue.filter fun x => x.id != q.id }).modLaunch l fun x =>
          { x with taken := x.taken ++ [(q.addr, q.host)] })
  | .remote _ _ r => let x := s.performRemote r; (x.1, 0#5, x.2)

/-- What making an access at its home comes to. -/
inductive Performed where
  | done (val : Word) (flags : BitVec 5) (s : State)
  | wait
  | raised (s : State)

/-- The push of `rel` (R149, R203), which its guard access makes as it is performed: at a scope of cluster or wider, the core's
dirty bytes of the regions bound to the guard go home. -/
def State.push (s : State) (c l : Nat) : HomeAcc → State
  | .guard _ va _ scope =>
    match s.launch? l with
    | some x =>
      if 3 ≤ scope && c < 144 then (s.boundSectors c x (BitVec.ofNat 64 va)).foldl (fun s sec => s.writeBack c sec) s else s
    | none => s
  | _ => s

/-- An access made at its home for a core's launch: the core's dirty bytes in its sectors are written back and the
sectors invalidated there (R116), and what it pushes goes home; its decision is recorded or matched (R336–R338). -/
def State.perform (s : State) (c l : Nat) (w : Option WarpRef) (h : HomeAcc) : Performed :=
  if !s.canPerform h then .wait
  else
    let go (s : State) : Performed :=
      let s := s.push c l h
      let flush (s : State) (secs : List Nat) : State :=
        secs.foldl (fun s sec => if c < 144 then s.flushSector c sec else s) s
      let t := flush s h.sectors
      let r := (flush t (t.reach h)).performAcc l h
      .done r.1 r.2.1 r.2.2
    match h.unit with
    | none => go s
    | some (th, va) =>
      match s.decideSync l w th va with
      | .wait => .wait
      | .raised s => .raised s
      | .made s => go s

/-- Whether one queued access goes before another (R143): older, then the lower requester, requests from the fabric
last. -/
def HomeReq.before (a b : HomeReq) : Bool :=
  a.round < b.round || (a.round == b.round && a.core < b.core)

/-- An access sent to its home (R143). -/
def State.sendHome (s : State) (q : HomeReq) : State := s.modDev fun d => { d with homeQ := d.homeQ ++ [q] }

/-! ### What the performance leaves in the warp that waits -/

/-- The first access of the head of a list of held effects, and the list without it. The flag says whether that
effect is done. -/
def heldPop : List Held → Option (Bool × List Held)
  | .home id d m (_ :: hs) :: r => some (hs.isEmpty, if hs.isEmpty then r else .home id d m hs :: r)
  | .flushed id (_ :: as) :: r => some (as.isEmpty, if as.isEmpty then r else .flushed id as :: r)
  | _ => none

/-- The lanes that the value of an access reaches. -/
def HomeAcc.lanes (h : HomeAcc) (m : Mask) : Mask :=
  match h with
  | .atom _ a => laneBit a.lane
  | _ => m

/-- The value of an access put into the mark that waits for it; `done` makes the mark known. -/
def Mark.take (x : Mark) (id : Nat) (h : HomeAcc) (v : Word) (done : Bool) : Mark :=
  if x.id = id then
    { x with vals := (h.lanes x.lanes &&& x.lanes).toList.foldl (fun t j => Tab.set 0#64 t j v) x.vals
             known := x.known || done }
  else x

/-- The waiting warp after its access was performed: the effect is popped, its value noted in the marks of the
register's owner, the flags of a partial block write reach FPFLAGS (R136). -/
def State.notePerformed (s : State) (q : HomeReq) (v : Word) (fl : BitVec 5) : State :=
  match s.warp? q.warp with
  | none => s
  | some p =>
    if p.stamp != q.stamp then s
    else match p.run with
      | none => s
      | some r =>
        if r.waitId != some q.id then s
        else match heldPop r.held with
          | none => s
          | some (done, held) =>
            s.modWarp q.warp fun p =>
              { p with fpflags := p.fpflags ||| fl
                       run := p.run.map fun r => { r with held := held, waitId := none }
                       marks := p.marks.map fun x => x.take q.id q.acc v done }

/-- Whether an access can be performed now: it waits for no decision of its launch (R337, R338) and for no queue storage. -/
def State.servable (s : State) (q : HomeReq) : Bool :=
  match s.perform q.core q.launch (if q.core < 144 then some q.warp else none) q.acc with
  | .wait => false
  | _ => true

/-- Whether the queued read of a warp of a core comes before a queued access (R143). -/
def readBefore (core : Nat) (r : List (Nat × Nat)) (q : HomeReq) : Bool :=
  match r.find? fun x => x.1 == q.sector with
  | some x => x.2 < q.round || (x.2 == q.round && core < q.core)
  | none => false

/-- Whether the queued read of some warp comes before a queued access. -/
def State.readerBefore (s : State) (q : HomeReq) : Bool :=
  (s.cores.zipIdx).any fun k => (k.1.warps ++ k.1.hnds).any fun e => readBefore k.2 e.2.queued q

/-- The reads queued at units: the warp that makes each and what it is queued with. -/
def State.readsQueued (s : State) : List (WarpRef × List (Nat × Nat)) :=
  (s.cores.zipIdx).flatMap fun k =>
    let of (hnd : Bool) (ws : Dict Warp) : List (WarpRef × List (Nat × Nat)) :=
      (ws.filter fun e => e.2.queued != []).map fun e => ({ core := k.2, slot := e.1, hnd := hnd }, e.2.queued)
    of false k.1.warps ++ of true k.1.hnds

/-- Whether what arrived at the unit of a sector with an age, from a core, comes before the read of a warp (R143): `r` tells what
the read is queued with, and one that is not queued comes last. Reads of one core and one age go by slot. -/
def beforeRead (w : WarpRef) (r : List (Nat × Nat)) (sec age core key : Nat) : Bool :=
  match r.find? fun x => x.1 == sec with
  | some x => age < x.2 || (age == x.2 && (core < w.core || (core == w.core && key < sessionKey w)))
  | none => true

/-- Whether the read of a warp of some sectors at their units must wait for an access or for another read that arrived before it
(R143). -/
def State.homeBefore (s : State) (w : WarpRef) (r : List (Nat × Nat)) (secs : List Nat) : Bool :=
  (s.dev.homeQ.any fun q => secs.contains q.sector && s.servable q && beforeRead w r q.sector q.round q.core 0)
    || s.readsQueued.any fun x => x.1 != w
        && x.2.any fun e => secs.contains e.1 && beforeRead w r e.1 e.2 x.1.core (sessionKey x.1)

/-! ### Arrival at a unit (R143, R398) -/

/-- Whether one more access or read may arrive at the unit of a sector now. Others wait on their way, which takes no stated time
(R398), so that at most 1,024 are queued there, the 16 that the host can post among them, and none that has arrived waits more
than 1,024 rounds (R143). -/
def State.unitRoom (s : State) (sec : Nat) : Bool :=
  (s.dev.homeQ.filter fun q => q.sector == sec).length
    + (s.readsQueued.filter fun r => r.2.any fun x => x.1 == sec).length < 1000

/-- Whether an access may arrive at the unit of a sector now: not in the round in which a read of several sectors arrived there,
so that no two wait for each other. -/
def State.accessArrives (s : State) (sec : Nat) : Bool :=
  s.unitRoom sec && !(s.readsQueued.any fun r => r.2.length != 1 && r.2.contains (sec, Tab.get 0 s.dev.rounds sec))

/-- Whether a read of some sectors may arrive at their units now: one of several sectors not in the round in which an access or
another read arrived at one of them. -/
def State.readArrives (s : State) (secs : List Nat) : Bool :=
  secs.all fun sec => s.accessArrives sec
    && (secs.length == 1 || !((s.dev.homeQ.any fun q => q.sector == sec && q.round == Tab.get 0 s.dev.rounds sec)
      || s.readsQueued.any fun r => r.2.contains (sec, Tab.get 0 s.dev.rounds sec)))

/-- A packet of another node taken: its number has been seen, and it is held back no longer (R378, R379). -/
def State.takePacket (s : State) (src num : Nat) : State :=
  s.modDev fun d => { d with
    e2eSeen := Tab.set 0 d.e2eSeen src (num + 1)
    e2eHeld := d.e2eHeld.filter fun x => !(x.1 == src && x.2.1 == num) }

/-- A sync access of another node queued at its home here (R143, R379). -/
def State.queueRemote (s : State) (src num : Nat) (acc : RemoteSync) : State :=
  let h : HomeAcc := .remote src num acc
  ((s.takePacket src num).sendHome
    { id := s.dev.nextStamp, core := 256 + src, warp := { core := 256, slot := 0, hnd := false }, stamp := 0,
      launch := 0, sector := h.sector, round := Tab.get 0 s.dev.rounds h.sector, packet := some (src, num), tenant := 16,
      age := 0, ths := [], acc := h }).modDev fun d => { d with nextStamp := d.nextStamp + 1 }

/-- A plain access of another node performed here, and answered; a reply asks for nothing (R378; log 75). -/
def State.takePlain (s : State) (src num : Nat) (acc : RemoteSync) : State :=
  let s := ((s.takePacket src num).performRemote acc).2
  if acc.op = .reply then s else s.sendPacket src

/-- Whether a packet of another node may be performed next: every one of lower number of its pair has been performed (R378), and a
sync access may arrive at its unit. -/
def State.packetNext (s : State) (x : Nat × Nat × RemoteSync) : Bool :=
  x.2.1 == Tab.get 0 s.dev.e2eSeen x.1 && !(s.dev.homeQ.any fun q => q.core == 256 + x.1)
    && (!isSyncOp x.2.2.op || s.accessArrives (x.2.2.pa / 32))

/-- The packets of other nodes that are next in number of their pair, taken: a sync access is queued at its unit, any other is
performed. `n` bounds their number (R378). -/
def State.drainRemote (s : State) : Nat → State
  | 0 => s
  | n + 1 =>
    match s.dev.e2eHeld.find? s.packetNext with
    | some x =>
      (if isSyncOp x.2.2.op then s.queueRemote x.1 x.2.1 x.2.2 else s.takePlain x.1 x.2.1 x.2.2).drainRemote n
    | none => s

/-- A read performed at the units of its sectors (R116, R143): the core's dirty bytes go home first, its sectors there are
invalidated, and a round of each unit ends. -/
def State.readAtHome (s : State) (w : WarpRef) (secs : List Nat) : State :=
  let s := (((secs.foldl (fun s sec => s.flushSector w.core sec) s).packets secs).modDev fun d => { d with
    rounds := secs.foldl (fun t sec => Tab.set 0 t sec (Tab.get 0 t sec + 1)) d.rounds }).modWarp w fun p =>
      { p with queued := [] }
  s.drainRemote s.dev.e2eHeld.length

/-- The access that the unit of a sector serves next (R143): the oldest that can be performed, where no read that is queued
there comes before it. -/
def State.nextAccess (s : State) (sec : Nat) : Option HomeReq :=
  (s.dev.homeQ.filter fun q => q.sector == sec && !s.readerBefore q && s.servable q).foldl
    (fun b q => match b with
      | none => some q
      | some x => if q.before x then some q else some x) none

/-- Where an access touches memory as a sync event, and how (R194): its place, the bytes there, its scope. -/
def HomeAcc.touch : HomeAcc → Option (Nat × Nat × Touch × Nat)
  | .atom _ a => some (a.pa, a.width / 8, .rmw, a.scope)
  | .guard _ _ pa scope => some (pa, 8, .rmw, scope)
  | .future _ _ pa scope _ => some (pa, 16, .write, scope)
  | .kmerge _ obj _ => obj.head?.map fun x => (x.pa, 32, .rmw, 5)
  | .chunk _ obj _ => obj.head?.map fun x => (x.pa, 32, .write, 5)
  | .kqpush _ obj _ => obj.head?.map fun x => (x.pa, 32, .rmw, 5)
  | .kqpop _ obj => obj.head?.map fun x => (x.pa, 32, .rmw, 5)
  | .post _ _ pa _ _ _ _ => some (pa + 0x10, 8, .rmw, 6)
  | _ => none

/-- The tenant and the card of a post, and where its words lie. -/
def HomeAcc.postedCard : HomeAcc → Option (Nat × Nat × Nat)
  | .post _ card pa _ _ _ tenant => some (tenant, card, pa)
  | .hostPost card pa tenant => some (tenant, card, pa)
  | _ => none

/-- Where a read-modify-write that no thread of the device makes touches memory: the host's, or another node's. -/
def HomeAcc.foreign : HomeAcc → Option (Nat × Nat)
  | .hostPost _ pa _ => some (pa + 0x10, 8)
  | .remote _ _ r => match r.op with
    | .atom _ wide _ _ => some (r.pa, if wide then 8 else 4)
    | .guardAdd => some (r.pa, 8)
    | _ => none
  | _ => none

/-- The bytes of a location as an access of a core finds them: the core's own dirty bytes come home before it (R116). -/
def State.bytesFor (s : State) (core pa n : Nat) : List Byte := (List.range n).map fun i => s.flushedByte core (pa + i)

/-- What the event of an access performed tells the events after it (R200, R202); `s` is the state before it, `t` after. -/
def State.tellEvent (s : State) (q : HomeReq) (t : State) : State :=
  match q.acc.touch, q.acc.foreign with
  | some (pa, n, how, scope), _ =>
    t.sync q.launch (.home pa) (eventOf q.launch q.stamp q.warp scope q.ths) how (s.bytesFor q.core pa n) (t.readBytes pa n)
  | none, some (pa, n) => t.keepMarks pa (s.readBytes pa n) (t.readBytes pa n)
  | none, none => t

/-- The same, and what an accepted post tells the launch that it starts (R201). -/
def State.tell (s : State) (q : HomeReq) (t : State) : State :=
  let t := s.tellEvent q t
  match q.acc.postedCard with
  | some (tenant, card, pa) =>
    if (s.readWord (pa + 0x10)).getLsbD 16 then t
    else t.notePosted tenant card (if q.ths = [] then [] else (t.hears q.launch q.ths []).1)
  | none => t

/-- The packets of an access that is performed: those of its sectors on other nodes, or the answer to another node (R378, R379). -/
def State.packetsOf (s : State) : HomeAcc → State
  | .remote src _ _ => s.sendPacket src
  | h => s.packets h.sectors

/-- A queued access performed (R143), or what it raises. A packet of another node is performed once, and what it returns goes
back as a packet (R378, R379). -/
def State.serve (s : State) (q : HomeReq) : Decided :=
  let was := s
  match s.perform q.core q.launch (if q.core < 144 then some q.warp else none) q.acc with
  | .wait => .wait
  | .raised s => .raised s
  | .done v fl s =>
    let s := (s.modDev fun d => { d with homeQ := d.homeQ.filter fun x => !(x.id == q.id && x.core == q.core) }).packetsOf q.acc
    .made (was.tell q (s.notePerformed q v fl))

/-- A round of a sector's unit ended (R143): packets of other nodes that waited for room arrive. -/
def State.endRound (s : State) (sec : Nat) : State :=
  let s := s.modDev fun d => { d with rounds := Tab.set 0 d.rounds sec (Tab.get 0 d.rounds sec + 1) }
  s.drainRemote s.dev.e2eHeld.length

/-! ### Combining at a gateway (R209) -/

/-- Whether two accesses are atomics of one operation at device scope on one location. -/
def HomeAcc.combines : HomeAcc → HomeAcc → Bool
  | .atom _ a, .atom _ b => a.scope == 5 && b.scope == 5 && a.op == b.op && a.wide == b.wide && a.pa == b.pa
  | _, _ => false

/-- The next access of the effect that a warp's commit performs, as a request of its own lane's thread, where it combines with the
last one. -/
def State.nextCombined (s : State) (q : HomeReq) : Option HomeReq :=
  match s.warp? q.warp with
  | none => none
  | some p =>
    match p.run with
    | none => none
    | some r =>
      match r.held with
      | .home id _ _ (h :: _) :: _ =>
        if p.stamp == q.stamp && r.waitId.isNone && id == q.id && q.acc.combines h then
          some { q with acc := h, ths := match h with | .atom th _ => [th] | _ => q.ths }
        else none
      | _ => none

/-- The lanes after a request that has been served which combine with it, in lane order; `n` bounds their number. A lane that
must wait, or raises something, is sent on its own later. -/
def State.serveLanes (s : State) (q : HomeReq) : Nat → State
  | 0 => s
  | n + 1 =>
    match s.nextCombined q with
    | none => s
    | some q' =>
      match (s.modRun q.warp fun r => { r with waitId := some q.id }).serve q' with
      | .made t => t.serveLanes q' n
      | _ => s

/-- A combined group performed: every core's dirty bytes go home first (R116), then the accesses follow one another, with
nothing between them. -/
def State.serveGroup (s : State) (qs : List HomeReq) : State :=
  let s := qs.foldl (fun s q => q.acc.sectors.foldl (fun s sec => s.flushSector q.core sec) s) s
  qs.foldl (fun s q => match s.serve q with
    | .made t => t.serveLanes q 32
    | .raised t => t
    | .wait => s) s

/-- The requests of a die that a gateway can combine with one: at most one warp of each core, in ascending core order. Which die
each home stack lies on is not stated (R3): the requests of every die can combine, the home's own die too (DESIGN CHOICE,
log 69). -/
def State.combined (s : State) (q : HomeReq) : List HomeReq :=
  (List.range 144).filterMap fun c =>
    if c == q.core then some q
    else if dieOf c == dieOf q.core then
      s.dev.homeQ.find? fun x => x.core == c && x.acc.combines q.acc && s.servable x && !s.readerBefore x
    else none

/-- Event HOME_ACCESS_PERFORM: the unit of a sector performs its oldest access, and a round ends (R143). Where a gateway has
combined that access with others of its die, they are performed together, adjacent and in ascending order of core and lane
(R209), and count as one access of the unit; which it combines is left open (log 69). -/
def execHomeAccessPerform (sector : Nat) (s : State) : Host.Outcome State Fault Refusal :=
  match s.nextAccess sector with
  | none => .next s
  | some q =>
    match (if q.core < 144 && q.acc.combines q.acc then s.drawBit else (false, s)) with
    | (true, s) => .next ((s.serveGroup (s.combined q)).endRound sector)
    | (false, s) => match s.serve q with
      | .made t => .next (t.endRound sector)
      | .raised t => .next t
      | .wait => .next s

end Sys2Proof.Machine
end

