-- ==== Sys2Proof/Machine/Sync.lean ====
section
/-!
DEFINITION. Atomics, remote register writes, guards, fences, `publish` and futures at issue, 0x5B–0x66 (R140–R154).
-/

namespace Sys2Proof.Machine

/-! ### Atomics (R140, R141) -/

/-- The block a unit of an MX32 page lies in; none elsewhere and beyond the last whole block (R141). -/
def State.unitBlock (s : State) (c t : Nat) (p : Page) (va : Nat) : Except (Code × Word) (Option Block) × State :=
  let f := fmtOf p.fmt
  if !f.mx || p.size / blockLen f.efmt ≤ (va - p.va) / blockLen f.efmt then (.ok none, s)
  else match s.blockOf c t p ((va - p.va) / blockLen f.efmt) .write with
    | (.error e, s) => (.error e, s)
    | (.ok b, s) => (.ok (some b), s)

/-- The accesses of the lanes of an atomic, up to the first that traps. -/
def State.atomLanes (s : State) (c : Ctx) (op : AtomOp) (wide : Bool) (scope : Nat) (b x : BitVec 5) :
    List (Nat × Word) → Except (Code × Word) (List HomeAcc) × State
  | [] => (.ok [], s)
  | e :: r =>
    match s.locate c e.2 (if wide then 8 else 4) .modify with
    | (.error t, s) => (.error t, s)
    | (.ok p, s) =>
      if fmtBad p.fmt then (.error (.perm, e.2), s)
      else match s.unitBlock c.w.core c.tenant p e.2.toNat with
        | (.error t, s) => (.error t, s)
        | (.ok blk, s) =>
          match s.atomLanes c op wide scope b x r with
          | (.error t, s) => (.error t, s)
          | (.ok hs, s) =>
            (.ok (.atom (c.thread e.1)
              { op := op, wide := wide, lane := e.1, va := e.2.toNat, pa := p.phys e.2.toNat,
                b := c.src b x e.1, c := if op = .cas then c.src x 0#5 e.1 else 0#64, block := blk,
                grp := c.groupName s e.1, scope := scope } :: hs), s)

/-- An atomic at issue: checks and operands; it is performed at commit step 4 (R141). -/
def State.issueAtom (s : State) (i : Instr) (op : AtomOp) (o : Opnds) (scope : BitVec 3) (w : BitVec 1) :
    Host.Outcome State Fault Refusal :=
  s.issue i fun s c => c.onLanes s o.k ([o.d, o.a, o.b] ++ (if op = .cas then [o.x] else [])) fun m =>
    match s.atomLanes c op (w == 1#1) scope.toNat o.b o.x (m.toList.map fun j => (j, c.src o.a o.x j)) with
    | (.error e, s) => .trap s (c.trapAt e .modify)
    | (.ok hs, s) =>
      if m.toList.any fun j => c.l.ownBad (c.src o.a o.x j).toNat (if w = 1#1 then 8 else 4) then
        .trap s (c.trap .ownvio)
      else match s.freshId c.w.core with
        | (id, s) => .go s { c.r.hold (.home id o.d m hs) with mem := true }

/-- `atom.add` (R140). -/
def execAtomAdd (o : Opnds) (scope : BitVec 3) (w : BitVec 1) (s : State) : Host.Outcome State Fault Refusal :=
  s.issueAtom (.atomAdd o scope w) .add o scope w

/-- `atom.fadd` (R140). -/
def execAtomFadd (o : Opnds) (scope : BitVec 3) (w : BitVec 1) (s : State) : Host.Outcome State Fault Refusal :=
  s.issueAtom (.atomFadd o scope w) .fadd o scope w

/-- `atom.binc` (R140). -/
def execAtomBinc (o : Opnds) (scope : BitVec 3) (w : BitVec 1) (s : State) : Host.Outcome State Fault Refusal :=
  s.issueAtom (.atomBinc o scope w) .binc o scope w

/-- `atom.xchg` (R140). -/
def execAtomXchg (o : Opnds) (scope : BitVec 3) (w : BitVec 1) (s : State) : Host.Outcome State Fault Refusal :=
  s.issueAtom (.atomXchg o scope w) .xchg o scope w

/-- `atom.min`, signed (R140). -/
def execAtomMinS (o : Opnds) (scope : BitVec 3) (w : BitVec 1) (s : State) : Host.Outcome State Fault Refusal :=
  s.issueAtom (.atomMinS o scope w) .minS o scope w

/-- `atom.max`, signed (R140). -/
def execAtomMaxS (o : Opnds) (scope : BitVec 3) (w : BitVec 1) (s : State) : Host.Outcome State Fault Refusal :=
  s.issueAtom (.atomMaxS o scope w) .maxS o scope w

/-- `atom.min`, unsigned (R140). -/
def execAtomMinU (o : Opnds) (scope : BitVec 3) (w : BitVec 1) (s : State) : Host.Outcome State Fault Refusal :=
  s.issueAtom (.atomMinU o scope w) .minU o scope w

/-- `atom.max`, unsigned (R140). -/
def execAtomMaxU (o : Opnds) (scope : BitVec 3) (w : BitVec 1) (s : State) : Host.Outcome State Fault Refusal :=
  s.issueAtom (.atomMaxU o scope w) .maxU o scope w

/-- `atom.and` (R140). -/
def execAtomAnd (o : Opnds) (scope : BitVec 3) (w : BitVec 1) (s : State) : Host.Outcome State Fault Refusal :=
  s.issueAtom (.atomAnd o scope w) .and o scope w

/-- `atom.or` (R140). -/
def execAtomOr (o : Opnds) (scope : BitVec 3) (w : BitVec 1) (s : State) : Host.Outcome State Fault Refusal :=
  s.issueAtom (.atomOr o scope w) .or o scope w

/-- `atom.xor` (R140). -/
def execAtomXor (o : Opnds) (scope : BitVec 3) (w : BitVec 1) (s : State) : Host.Outcome State Fault Refusal :=
  s.issueAtom (.atomXor o scope w) .xor o scope w

/-- `atom.cas` (R140). -/
def execAtomCas (o : Opnds) (scope : BitVec 3) (w : BitVec 1) (s : State) : Host.Outcome State Fault Refusal :=
  s.issueAtom (.atomCas o scope w) .cas o scope w

/-! ### Remote register writes and counters (R144, R146) -/

/-- `rwr` (R144). -/
def execRwr (k : BitVec 3) (a b x : BitVec 5) (s : State) : Host.Outcome State Fault Refusal :=
  s.issue (.rwr k a b x) fun s c => c.onLanes s k [a, b] fun m =>
    let t := c.low m a x
    if bitsOf t 63 17 != 0 then .trap s (c.trap .perm)
    else .go s (c.r.hold (.rwr (coreAt c.w.core (bitsOf t 1 0)) (bitsOf t 7 2) (bitsOf t 16 15) (bitsOf t 14 8)
      (m.toList.map fun j => (j, c.src b x j))))

/-- `awt` (R146), after its wait at the header: the count n is the one the header waited for. -/
def execAwt (d b x : BitVec 5) (ctr : BitVec 2) (sub clr : BitVec 1) (s : State) : Host.Outcome State Fault Refusal :=
  s.issue (.awt d b x ctr sub clr) fun s c =>
    if c.busy [d] then .stall
    else
      let n := min c.r.ops.1.toNat 65535
      let v := c.p.ctr.getD ctr.toNat (0#16, false)
      let r := c.r.write d c.p.live fun _ => BitVec.ofNat 64 (v.1.toNat + (if v.2 then 65536 else 0))
      .go s (r.stage (.counter ctr.toNat (if sub = 1#1 then BitVec.ofNat 16 n else 0#16) (clr == 1#1)))

/-! ### Guards and bindings (R147–R149) -/

/-- `bind` and `unbind` at issue (R147). Of the binds staged earlier in the run, those of triples that the table lacks count
against its entries, each as often as it is staged (DESIGN CHOICE, log 57). -/
def State.issueBind (s : State) (i : Instr) (add : Bool) (a b cc : BitVec 5) : Host.Outcome State Fault Refusal :=
  s.issue i fun s c =>
    if c.busy [a, b, cc] then .stall
    else
      let base := c.low c.k0 a 0#5
      let len := c.low c.k0 b 0#5
      let g := c.low c.k0 cc 0#5
      let staged := c.r.held.filterMap fun h => match h with | .bind true x y z => some (x, y, z) | _ => none
      if base.toNat % 32 != 0 then .trap s (c.trapAt (.align, base) .read)
      else if len.toNat % 32 != 0 then .trap s (c.trap .align)
      else if g.toNat % 8 != 0 then .trap s (c.trapAt (.align, g) .read)
      else if len = 0#64 then .go s c.r
      else if add && !c.l.binds.contains (base, len, g) && !staged.contains (base, len, g)
          && 512 ≤ c.l.binds.length + (staged.filter fun x => !c.l.binds.contains x).length then
        .trap s (c.trap .perm)
      else .go s (c.r.hold (.bind add base len g))

/-- `bind` (R147). -/
def execBind (a b cc : BitVec 5) (s : State) : Host.Outcome State Fault Refusal :=
  s.issueBind (.bind a b cc) true a b cc

/-- `unbind` (R147). -/
def execUnbind (a b cc : BitVec 5) (s : State) : Host.Outcome State Fault Refusal :=
  s.issueBind (.unbind a b cc) false a b cc

/-- `acq` (R148): the guard word read at home, and for a scope of cluster or wider this core's sectors of the
regions bound to it written back and invalidated. -/
def execAcq (k : BitVec 3) (d a : BitVec 5) (scope : BitVec 3) (la : BitVec 4) (s : State) :
    Host.Outcome State Fault Refusal :=
  s.issue (.acq k d a scope la) fun s c => c.onLanes s k [d, a] fun m =>
    let g := c.low m a 0#5
    match s.locate c g 8 .read with
    | (.error e, s) => .trap s (c.trapAt e .read)
    | (.ok p, s) =>
      let pa := p.phys g.toNat
      if s.depositOut c.w || s.homeBefore c.w c.p.queued [pa / 32] then .stall
      else match s.decideSync c.p.launch (some c.w) (c.lowThread m) g.toNat with
        | .wait => .stall
        | .raised s => .raised s
        | .made s =>
          match s.freshId c.w.core with
          | (id, s) =>
            match s.takeReqs c.w.core id [pa / 32] with
            | none => .stall
            | some s =>
              let s := s.readAtHome c.w [pa / 32]
              let v := s.readWord pa
              let s := if 3 ≤ scope.toNat then
                  (s.boundSectors c.w.core c.l g).foldl (fun s sec => s.flushSector c.w.core sec) s
                else s
              .go s (c.r.await id (.win d 1) (m.toList.map fun j => (j, v)) la)

/-- `rel` (R149) at issue. -/
def execRel (k : BitVec 3) (a : BitVec 5) (scope : BitVec 3) (s : State) : Host.Outcome State Fault Refusal :=
  s.issue (.rel k a scope) fun s c => c.onLanes s k [a] fun m =>
    let g := c.low m a 0#5
    match s.locate c g 8 .modify with
    | (.error e, s) => .trap s (c.trapAt e .modify)
    | (.ok p, s) =>
      if fmtBad p.fmt then .trap s (c.trapAt (.perm, g) .modify)
      else if c.l.ownBad g.toNat 8 then .trap s (c.trap .ownvio)
      else match s.freshId c.w.core with
        | (id, s) => .go s (c.r.hold (.rel id scope.toNat g.toNat (p.phys g.toNat) (c.lowThread m) m))

/-- `fence` (R150): its issue step, and its commit step staged. A deposit that the warp has sent comes before it (R199). -/
def execFence (scope : BitVec 3) (s : State) : Host.Outcome State Fault Refusal :=
  s.issue (.fence scope) fun s c =>
    if s.depositOut c.w then .stall
    else .go (if 3 ≤ scope.toNat then s.flushAll c.w.core else s) (c.r.hold (.fence scope.toNat))

/-- `publish` (R151) at issue. -/
def execPublish (a : BitVec 5) (s : State) : Host.Outcome State Fault Refusal :=
  s.issue (.publish a) fun s c =>
    if c.busy [a] then .stall
    else
      let n := c.low c.k0 a 0#5
      let region := (c.l.card.shadows.zipIdx).find? fun e => e.1.1 == nearOff n
      match region with
      | some e =>
        if bitsOf n 63 32 == 0 && bitsOf n 23 19 == 0 && nearCore c.w.core n == c.w.core
            && (c.l.place? c.w.core).isSome then .go s (c.r.hold (.publish e.2))
        else .trap s (c.trapAt (.perm, n) .write)
      | none => .trap s (c.trapAt (.perm, n) .write)

/-! ### Futures (R152, R153) -/

/-- Lanes of a future's writer located in ascending order, with the PERM of R109, up to the first that traps (R132). -/
def State.locateWrites (s : State) (c : Ctx) (size : Nat) :
    List (Nat × Word) → Except (Code × Word) (List (Nat × Word × Page)) × State
  | [] => (.ok [], s)
  | x :: r =>
    match s.locate c x.2 size .write with
    | (.error e, s) => (.error e, s)
    | (.ok p, s) =>
      if fmtBad p.fmt then (.error (.perm, x.2), s)
      else match s.locateWrites c size r with
        | (.error e, s) => (.error e, s)
        | (.ok l, s) => (.ok ((x.1, x.2, p) :: l), s)

/-- `fread` (R153): every named future must be full. -/
def execFread (k : BitVec 3) (d a : BitVec 5) (scope : BitVec 3) (la : BitVec 4) (s : State) :
    Host.Outcome State Fault Refusal :=
  s.issue (.fread k d a scope la) fun s c => c.onLanes s k [d, a] fun m =>
    match s.locateAll c 16 .read (m.toList.map fun j => (j, c.src a 0#5 j)) with
    | (.error e, s) => .trap s (c.trapAt e .read)
    | (.ok ls, s) =>
      let secs := laneSectors 16 ls
      if s.depositOut c.w || s.homeBefore c.w c.p.queued secs then .stall
      else match s.decideAll c.p.launch c.w (ls.map fun x => (c.thread x.1, x.2.1.toNat)) with
        | .wait => .stall
        | .raised s => .raised s
        | .made s =>
          match s.freshId c.w.core with
          | (id, s) =>
            match s.takeReqs c.w.core id secs with
            | none => .stall
            | some t =>
              let t := t.readAtHome c.w secs
              let empty := ls.filter fun x => !(t.readWord (x.2.2.phys x.2.1.toNat + 8)).getLsbD 0
              match empty with
              | [] =>
                .go t { c.r.await id (.win d 1) (ls.map fun x => (x.1, t.readWord (x.2.2.phys x.2.1.toNat))) la with
                        mem := true }
              | x :: _ =>
                .trap t { c.trap .futempty (infoOf x.2.1) with
                  lanes := some (empty.foldl (fun m e => m ||| BitVec.ofNat 32 (2 ^ e.1)) 0#32) }

/-- `ffill` and `fclr` at issue (R153). -/
def State.issueFuture (s : State) (i : Instr) (k : BitVec 3) (a x : BitVec 5) (scope : BitVec 3) (uses : List (BitVec 5))
    (val : Ctx → Nat → Option Word) : Host.Outcome State Fault Refusal :=
  s.issue i fun s c => c.onLanes s k uses fun m =>
    match s.locateWrites c 16 (m.toList.map fun j => (j, c.src a x j)) with
    | (.error e, s) => .trap s (c.trapAt e .write)
    | (.ok ls, s) =>
      if ls.any fun e => c.l.ownBad e.2.1.toNat 16 then .trap s (c.trap .ownvio)
      else match s.freshId c.w.core with
        | (id, s) =>
          .go s { c.r.hold (.home id 24#5 m (ls.map fun e =>
            .future (c.thread e.1) e.2.1.toNat (e.2.2.phys e.2.1.toNat) scope.toNat (val c e.1))) with mem := true }

/-- `ffill` (R153). -/
def execFfill (k : BitVec 3) (a b x : BitVec 5) (scope : BitVec 3) (s : State) : Host.Outcome State Fault Refusal :=
  s.issueFuture (.ffill k a b x scope) k a x scope [a, b] fun c j => some (c.src b x j)

/-- `fclr` (R153). -/
def execFclr (k : BitVec 3) (a x : BitVec 5) (scope : BitVec 3) (s : State) : Host.Outcome State Fault Refusal :=
  s.issueFuture (.fclr k a x scope) k a x scope [a] fun _ _ => none

/-! ### Reads that are queued at their units (R143) -/

/-- The sectors that the read at the position of a run is to make at their units, where nothing but queued accesses holds it
back. -/
def State.readSectors (s : State) (c : Ctx) : List Nat :=
  let made (ts : List (Nat × Nat)) (secs : List Nat) : List Nat :=
    match s.decideAll c.p.launch c.w ts with | .made _ => secs | _ => []
  match c.r.current with
  | some (.acq k d a _ _) =>
    if c.busyK k.toNat || c.busy [d, a] || s.depositOut c.w then []
    else match c.mask k with
      | none => []
      | some m =>
        if m = 0#32 then []
        else match s.locate c (c.low m a 0#5) 8 .read with
          | (.ok p, _) => made [(c.lowThread m, (c.low m a 0#5).toNat)] [p.phys (c.low m a 0#5).toNat / 32]
          | _ => []
  | some (.fread k d a _ _) =>
    if c.busyK k.toNat || c.busy [d, a] || s.depositOut c.w then []
    else match c.mask k with
      | none => []
      | some m =>
        match s.locateAll c 16 .read (m.toList.map fun j => (j, c.src a 0#5 j)) with
        | (.ok ls, _) => made (ls.map fun x => (c.thread x.1, x.2.1.toNat)) (laneSectors 16 ls)
        | _ => []
  | _ => []

/-- What the read of a warp's next instruction is queued with: it keeps what it arrived with, and arrives where an access
or a read queued before it holds it back, its units have room and its request entries are free (R117, R143). -/
def State.queuedRead (s : State) (w : WarpRef) (p : Warp) : List (Nat × Nat) :=
  if p.sched != .active || p.stop then []
  else match s.ctx? w with
    | none => []
    | some c =>
      if c.r.commit.isSome then []
      else
        let secs := s.readSectors { c with r := p.standing.getD c.r }
        let kept := p.queued.filter fun x => secs.contains x.1
        if (s.takeReqs w.core 0 secs).isNone then []
        else if kept.length == secs.length then kept
        else if s.homeBefore w [] secs && s.readArrives secs then secs.map fun sec => (sec, Tab.get 0 s.dev.rounds sec)
        else []

end Sys2Proof.Machine
end

