-- ==== Sys2Proof/Machine/Tasks.lean ====
section
/-!
DEFINITION. Posting, taking, messages and barriers at issue, 0x78–0x7C (R322–R331).
-/

namespace Sys2Proof.Machine

/-! ### Posting (R323) -/

/-- The neighbour of a core in a direction on its die, wrapping (R16, R322). -/
def neighbour (c : Nat) (dir : BitVec 2) : Nat :=
  let d := c / 36
  let y := c % 36 / 6
  let x := c % 6
  match dir.toNat with
  | 0 => 36 * d + 6 * y + (x + 1) % 6
  | 1 => 36 * d + 6 * y + (x + 5) % 6
  | 2 => 36 * d + 6 * ((y + 1) % 6) + x
  | _ => 36 * d + 6 * ((y + 5) % 6) + x

/-- A `post` or `spawn` at issue (R323). -/
def State.issuePost (s : State) (i : Instr) (d a : BitVec 5) (q dir : BitVec 2) (spawn : Bool) :
    Host.Outcome State Fault Refusal :=
  s.issue i fun s c =>
    if c.busy [a, d] then .stall
    else
      let card := c.low c.k0 a 0#5
      if card.toNat % 128 != 0 then .trap s (c.trapAt (.align, card) .modify)
      else if bitsOf (card + 0x40#64) 63 57 != 0 then .trap s (c.trapAt (.perm, card + 0x40#64) .modify)
      else match s.translate c.w.core c.tenant (card + 0x40#64) .modify with
        | (.error e, s) => .trap s (c.trapAt (e, card + 0x40#64) .modify)
        | (.ok p, s) =>
          if spawn && c.l.depth == 8 then .trap s (c.trap .spawndepth)
          else match s.freshId c.w.core with
            | (id, s) =>
              .go s (c.r.hold (.home id d c.k0
                [.post (c.lowThread c.k0) card.toNat (p.phys (card.toNat + 0x40))
                  (if spawn then some (c.l.depth + 1) else none) (q == 2#2)
                  (if q = 1#2 then neighbour c.w.core dir else c.w.core) c.tenant]))

/-- `post` (R323). -/
def execPost (d a : BitVec 5) (q dir : BitVec 2) (s : State) : Host.Outcome State Fault Refusal :=
  s.issuePost (.post d a q dir) d a q dir false

/-- `spawn` (R323). -/
def execSpawn (d a : BitVec 5) (q dir : BitVec 2) (s : State) : Host.Outcome State Fault Refusal :=
  s.issuePost (.spawn d a q dir) d a q dir true

/-- `qtake` (R324). -/
def execQtake (d a : BitVec 5) (q : BitVec 2) (s : State) : Host.Outcome State Fault Refusal :=
  s.issue (.qtake d a q) fun s c =>
    if c.busy [a, d] then .stall
    else
      let level := (c.low c.k0 a 0#5).toNat
      if 11 < level then .trap s (c.trap .perm)
      else match s.freshId c.w.core with
        | (id, s) =>
          .go s (c.r.hold (.home id d c.k0 [.qtake (if q = 2#2 then none else some c.w.core) c.tenant level]))

/-- `ams` (R325). -/
def execAms (d a b : BitVec 5) (s : State) : Host.Outcome State Fault Refusal :=
  s.issue (.ams d a b) fun s c =>
    if c.busy ([a, b] ++ (List.range 8).map fun i => d + BitVec.ofNat 5 i) then .stall
    else
      let card := c.low c.k0 a 0#5
      let t := (c.low c.k0 b 0#5).toNat
      if card.toNat % 128 != 0 then .trap s (c.trapAt (.align, card) .read)
      else match s.locate c card 128 .read with
        | (.error e, s) => .trap s (c.trapAt e .read)
        | (.ok _, s) =>
          if 144 ≤ t && t != 255 then .trap s (c.trap .perm)
          else if c.l.depth == 8 then .trap s (c.trap .spawndepth)
          else .go s (c.r.hold (.ams (if t = 255 then c.w.core else t) card.toNat (c.l.depth + 1)
            ((List.range 8).map fun i => c.low c.k0 (d + BitVec.ofNat 5 i) 0#5)))

/-! ### Named barriers (R326–R328) -/

/-- The group of this launch that a named barrier is bound to, as its set-store entry (R326). -/
def Ctx.boundEntry (c : Ctx) (s : State) (n : BitVec 6) : Option Nat :=
  ((s.core c.w.core).asSeen.boundTo c.w.core c.p.launch n.toNat).map (·.2)

/-- `bbind` (R326). -/
def execBbind (a : BitVec 5) (n : BitVec 6) (s : State) : Host.Outcome State Fault Refusal :=
  s.issue (.bbind a n) fun s c =>
    if c.busyK a.toNat then .stall
    else match c.groupOf s a with
      | none => .trap s (c.trap .setkind)
      | some g =>
        if ((s.core c.w.core).barriers[n.toNat]?.bind (·.gid)).isSome then .trap s (c.trap .barmis)
        else .go s (c.r.stage (.bbind n.toNat g))

/-- `bunb` (R326). -/
def execBunb (n : BitVec 6) (s : State) : Host.Outcome State Fault Refusal :=
  s.issue (.bunb n) fun s c =>
    if (c.boundEntry s n).isSome then .go s (c.r.stage (.bunb n.toNat)) else .trap s (c.trap .barmis)

/-- The lanes of the issuing warp that a set-store entry holds as members: by the bits of its own slot, an apply warp's too
(DESIGN CHOICE, log 54); a trap-handler warp belongs to no group (R347). -/
def Ctx.memberLanes (c : Ctx) (s : State) (e : Nat) : Mask :=
  if c.w.hnd then 0#32 else bitmapLanes (((s.core c.w.core).asSeen.store[e]?.map (·.bits)).getD 0#2048) c.w.slot

/-- `barr` (R327) at issue. -/
def execBarr (k : BitVec 3) (d : BitVec 5) (n : BitVec 6) (s : State) : Host.Outcome State Fault Refusal :=
  s.issue (.barr k d n) fun s c =>
    if c.busyK k.toNat || c.busy [d] then .stall
    else match c.mask k with
      | none => .trap s (c.trap .setkind)
      | some m =>
        match c.boundEntry s n with
        | none => .trap s (c.trap .barmis)
        | some e =>
          if c.memberLanes s e &&& m != m then .trap s (c.trap .barmis)
          else if m = 0#32 then .go s c.r
          else match s.freshId c.w.core with
            | (id, s) => .go s (c.r.hold (.barr id d m n.toNat))

/-- `bwt` (R328): at position 1 the header has waited; elsewhere it stalls inside the run. -/
def execBwt (a : BitVec 5) (n : BitVec 6) (s : State) : Host.Outcome State Fault Refusal :=
  s.issue (.bwt a n) fun s c =>
    if c.r.pos = 1 then .go s c.r
    else if c.busy [a] then .stall
    else match (s.core c.w.core).asSeen.boundTo c.w.core c.p.launch n.toNat with
      | none => .trap s (c.trap .barmis)
      | some b => if s.depositOut c.w || phaseWaits b.1.ph (c.low c.k0 a 0#5) then .stall else .go s c.r

/-! ### Device barriers (R329, R330) -/

/-- Whether a warp is a trap-handler or sweep-handler warp. -/
def WarpKind.isHandler : WarpKind → Bool
  | .handler => true
  | .sweep _ _ _ _ => true
  | _ => false

/-- `dbar` (R329) at issue. -/
def execDbar (k : BitVec 3) (d : BitVec 5) (n : BitVec 4) (s : State) : Host.Outcome State Fault Refusal :=
  s.issue (.dbar k d n) fun s c =>
    if c.busyK k.toNat || c.busy [d] then .stall
    else match c.mask k with
      | none => .trap s (c.trap .setkind)
      | some m =>
        if !c.l.card.dbm.getLsbD n.toNat || c.p.kind.isHandler then .trap s (c.trap .barmis)
        else if m = 0#32 then .go s c.r
        else match s.freshId c.w.core with
          | (id, s) => .go s (c.r.hold (.dbar id d m n.toNat))

/-- `dwt` (R329): as `bwt`; the completion of the wait acts as a fence-issue at device scope (R201). -/
def execDwt (a : BitVec 5) (n : BitVec 4) (s : State) : Host.Outcome State Fault Refusal :=
  s.issue (.dwt a n) fun s c =>
    if !c.l.card.dbm.getLsbD n.toNat then .trap s (c.trap .barmis)
    else if c.r.pos = 1 then .go (s.flushAll c.w.core) c.r
    else if c.busy [a] then .stall
    else match s.dev.dbars[n.toNat]? with
      | none => .trap s (c.trap .barmis)
      | some b =>
        if s.depositOut c.w || phaseWaits b.ph (c.low c.k0 a 0#5) then .stall else .go (s.flushAll c.w.core) c.r

end Sys2Proof.Machine
end

