-- ==== Sys2Proof/Machine/Held.lean ====
section
/-!
DEFINITION. Held effects performed at commit step 4, one after another (R58, R77, R117, R127, R144–R151, R184, R264,
R323–R330, R333, R354).
-/

namespace Sys2Proof.Machine

/-! ### Deterministic mode (R333) -/

/-- Whether a held effect is atomics; with `ret`, atomics that return a value. -/
def Held.isAtom (ret : Bool) : Held → Bool
  | .home _ d _ as => (as.any fun a => match a with | .atom _ _ => true | _ => false) && (d != 24#5) == ret
  | _ => false

/-- The accesses of a held effect. -/
def Held.accesses : Held → List HomeAcc
  | .home _ _ _ as => as
  | _ => []

/-- Atomics as the core's buffer holds them: each takes its thread's next ordinal. -/
def keepAtoms (l : Nat) (ords : Tab Nat) : List HomeAcc → List HeldAtom × Tab Nat
  | [] => ([], ords)
  | .atom th a :: r =>
    let n := Tab.get 0 ords (th % 2 ^ 32)
    let x := keepAtoms l (Tab.set 0 ords (th % 2 ^ 32) (n + 1)) r
    ({ launch := l, warp := th / 32, lane := th % 32, ord := n, acc := a } :: x.1, x.2)
  | _ :: r => keepAtoms l ords r

/-- The held effects of a run of a deterministic launch in the order of R333, and the counts after them. -/
def detHeld (l : Nat) (ords : Tab Nat) (hs : List Held) : List Held × Tab Nat :=
  let flush (h : Held) : List Held := match h with
    | .barr _ _ _ _ => [.flush, h]
    | .rel _ _ _ _ _ _ => [.flush, h]
    | h => [h]
  if hs.any (Held.isAtom true) then
    let kept := keepAtoms l ords ((hs.filter (Held.isAtom false)).flatMap Held.accesses)
    let rest := (hs.filter fun h => !h.isAtom false).flatMap flush
    (.keep kept.1 :: rest.takeWhile (fun h => !h.isAtom true) ++ .flush :: rest.dropWhile (fun h => !h.isAtom true), kept.2)
  else
    hs.foldl (fun r h =>
      if h.isAtom false then
        let x := keepAtoms l r.2 h.accesses
        (r.1 ++ [.keep x.1], x.2)
      else (r.1 ++ flush h, r.2)) ([], ords)

/-- The sort key of a held atomic (R333): group, logical warp, lane, ordinal; no group ranks last. -/
def HeldAtom.key (a : HeldAtom) : List Nat :=
  (match a.acc.grp with | some g => [0, g.1, g.2] | none => [1, 0, 0]) ++ [a.warp % 2 ^ 27, a.lane, a.ord]

/-- A held atomic put in its place in a sorted list. -/
def insertHeld (a : HeldAtom) : List HeldAtom → List HeldAtom
  | [] => [a]
  | b :: r => if keyBefore a.key b.key then a :: b :: r else b :: insertHeld a r

/-- Held atomics in the order of their keys. -/
def sortHeld (as : List HeldAtom) : List HeldAtom := as.foldr insertHeld []

/-! ### One effect -/

/-- What performing a held effect comes to. -/
inductive HeldStep where
  /-- It, or a part of it, is performed; the run holds what remains. -/
  | done (s : State)
  /-- An access was sent to its home, or something was raised: the commit goes on later. -/
  | sent (s : State)
  | wait

/-- The held effects of a run replaced. -/
def State.setHeld (s : State) (w : WarpRef) (hs : List Held) : State := s.modRun w fun r => { r with held := hs }

/-- The threads to which the event of an access belongs (R194): that of its lane, or those of the lanes that the instruction
names, in k0 where `m` gives none. -/
def Ctx.ownersOf (c : Ctx) (m : Mask) : HomeAcc → List Nat
  | .atom th _ => [th]
  | .future th _ _ _ _ => [th]
  | _ => c.threads (if m = 0#32 then c.k0 else m)

/-- An access sent to its home: the commit waits until it is performed. -/
def State.sendAccess (s : State) (c : Ctx) (id : Nat) (m : Mask) (h : HomeAcc) : State :=
  (s.sendHome { id := id, core := c.w.core, warp := c.w, stamp := c.p.stamp, launch := c.p.launch, sector := h.sector,
                round := Tab.get 0 s.dev.rounds h.sector, packet := none, tenant := c.l.tenant, age := 0, ths := c.ownersOf m h,
                acc := h }).modRun c.w fun r => { r with waitId := some id }

/-- The accesses that a run still holds under an identifier. -/
def Run.accessesOf (r : Run) (id : Nat) : List HomeAcc :=
  r.held.flatMap fun h => match h with
    | .home i _ _ hs => if i = id then hs else []
    | .flushed i as => if i = id then as.map fun a => .atom (32 * a.warp + a.lane) a.acc else []
    | _ => []

/-- The first of some accesses sent, once it may arrive at its unit (R143) and the request entries of every access under its
identifier are taken (R117): one to each sector, and never more than the core has, so that a flush of more sectors goes on with
them (R333; log 35). -/
def State.sendFirst (s : State) (c : Ctx) (id : Nat) (m : Mask) (hs : List HomeAcc) : HeldStep :=
  match hs with
  | [] => .wait
  | h :: _ =>
    if !s.accessArrives h.sector then .wait
    else if (s.core c.w.core).reqs.any fun q => q.id == id then .sent (s.sendAccess c id m h)
    else match s.takeReqs c.w.core id ((dedup ((c.r.accessesOf id).flatMap HomeAcc.entries)).take 8192) with
      | none => .wait
      | some s => .sent (s.sendAccess c id m h)

/-- The physical ranges that code addresses name, one to each 64 KiB that a walk finds (R77, R124). Bytes that do not translate
are skipped without a trap or a record, and the range is walked anew at completion (DESIGN CHOICE, log 56). -/
def State.codeRanges (s : State) (t base len : Nat) : Nat → List (Nat × Nat)
  | 0 => []
  | n + 1 =>
    if len = 0 || 2 ^ 57 ≤ base then []
    else
      let m := min len (65536 - base % 65536)
      let rest := s.codeRanges t (base + m) (len - m) n
      match s.walk t base with
      | .ok p => (p.phys base, m) :: rest
      | .error _ => rest

/-- The value of an arrival put into the mark that waits for it. -/
def State.noteArrival (s : State) (w : WarpRef) (id j : Nat) (v : Word) (done : Bool) : State :=
  s.modWarp w fun p => { p with marks := p.marks.map fun x =>
    if x.id = id then
      { x with vals := if x.lanes.getLsbD j then Tab.set 0#64 x.vals j v else x.vals, known := x.known || done }
    else x }

/-- What an arrival at a barrier tells the waits that its phase satisfies (R201). -/
def State.tellArrival (s : State) (c : Ctx) (j : Nat) (loc : SyncLoc) : State :=
  s.sync c.p.launch loc (c.event 5 [c.thread j]) .add [] []

/-- An arrival of a lane at a named barrier (R23, R327). A lane that is no longer a member of a bound group counts in no
phase; the spec states no value for it. Where the barrier has lost its binding, the warp takes BARMIS once the commit has ended
(R39; log 28). -/
def State.arriveNamed (s : State) (c : Ctx) (id n j : Nat) (last : Bool) : Decided :=
  let k := s.core c.w.core
  let bound := k.boundTo c.w.core c.p.launch n
  let member : Option (Barrier × BitVec 2048) := match bound.bind fun x => (k.store[x.2]?).map fun e => (x.1, e.bits) with
    | some (b, bits) => if bits.getLsbD (32 * c.w.slot + j) then some (b, bits) else none
    | none => none
  match member with
  | none =>
    match s.drawWord with
    | (v, s) =>
      let s := s.noteArrival c.w id j v last
      .made (if bound.isNone then s.modRun c.w (Run.soften .barmis) else s)
  | some (b, bits) =>
    let t := 32 * c.w.slot + j
    let ph := nextPhase b.ph b.arr t (b.arr.length + 1)
    match s.decide c.p.launch (some c.w) 2 (BitVec.ofNat 64 (64 * c.w.core + n)) (recordThread (c.thread j) ph.toNat) with
    | .made s =>
      .made ((s.modCore c.w.core fun k => { k with
        barriers := listChange k.barriers n fun b =>
          Barrier.settle (bitmapThreads bits) { b with arr := b.arr ++ [(ph, t)] } (b.arr.length + 2) }).noteArrival
        c.w id j (ph.setWidth 64) last |>.tellArrival c j (.named c.w.core n ph.toNat))
    | r => r

/-- An arrival of a lane at a device barrier (R201, R329): the core's dirty bytes are written back first. -/
def State.arriveDevice (s : State) (c : Ctx) (id n j : Nat) (last : Bool) : Decided :=
  let s := s.writeBackAll c.w.core
  match s.dev.dbars[n]? with
  | none => .made s
  | some b =>
    let t := c.thread j
    let ph := nextPhase b.ph b.arr t (b.arr.length + 1)
    match s.decide c.p.launch (some c.w) 2 (BitVec.ofNat 64 (0x100 + n)) (recordThread t ph.toNat) with
    | .made s =>
      .made ((s.modDev fun d => { d with
        dbars := listChange d.dbars n fun b => { b with arr := b.arr ++ [(ph, t)] } }).noteArrival
        c.w id j (ph.setWidth 64) last |>.tellArrival c j (.device n ph.toNat))
    | r => r

/-- A held effect that needs a decision: done with what remains, or waiting. -/
def HeldStep.ofDecided (w : WarpRef) (rest : List Held) : Decided → HeldStep
  | .made s => .done (s.setHeld w rest)
  | .raised s => .sent s
  | .wait => .wait

/-- A frozen slice has answered a near store (R127, R363): PEERFLT is raised once the commit has ended (log 67). -/
def HeldStep.peerFault (w : WarpRef) : HeldStep → HeldStep
  | .done s => .done (s.modRun w (Run.soften .peerflt))
  | h => h

/-- Whether a held effect is a sync event or a fence, which comes after the deposits that its warp has sent (R199). -/
def Held.isSync : Held → Bool
  | .home _ _ _ hs => hs.any fun h => match h with | .blockBytes _ _ => false | .blockElts _ _ _ _ _ => false | _ => true
  | .flushed _ _ | .rwr _ _ _ _ _ | .rel _ _ _ _ _ _ | .fence _ | .publish _ | .ams _ _ _ _ | .barr _ _ _ _ | .dbar _ _ _ _ => true
  | _ => false

/-- Whether a held effect is a flush of a core's held atomics (R333). -/
def Held.isFlush : Held → Bool
  | .flush | .flushed _ _ => true
  | _ => false

/-- The ARGK launch whose block a warp runs, itself or as an apply warp of a warp that does; `n` bounds the nesting (R314). -/
def Core.argkOf (k : Core) (p : Warp) : Nat → Option Nat
  | 0 => none
  | n + 1 =>
    match p.applies.findSome? (·.argk) with
    | some l => some l
    | none => match p.kind with
      | .apply _ src => match src.head?.bind fun x => Dict.find k.warps x.2.1 with
        | some o => k.argkOf o n
        | none => none
      | _ => none

/-- Whether a command is the `swmerge` of a sweep handler for its own sequence number (R302). -/
def Warp.ownMerge (p : Warp) : Cmd → Bool
  | .swmerge _ hdl n => match p.kind with
    | .sweep h m _ _ => h == hdl && m == n.toNat
    | _ => false
  | _ => false

/-- The subscriptions that happen before a read of a subscription's merged outputs, received now (R308). -/
def Cmd.readsMerges (k : Core) (l : Nat) : Cmd → List Nat
  | .swrd _ hdl _ => match k.sub? l hdl with
    | some u => u.mergeIds
    | none => []
  | _ => []

/-- What an engine command received tells those that overlap it after it, and of a copy those that find its tag complete (R201);
with the subscriptions that happen before it. -/
def State.tellCommand (s : State) (c : Ctx) (x : Cmd) (rs : List NearRange) (ts : List (Nat × Bool)) : List Nat × State :=
  match s.launch? c.p.launch with
  | none => ([], s)
  | some l =>
    let own := dedup (l.heardBy (c.threads c.k0) ++ x.readsMerges (s.core c.w.core) c.p.launch)
    match l.receive c.w.core rs ts own with
    | (ids, l) =>
      let s := s.modLaunch c.p.launch fun _ => l
      (ids, match x with
        | .copy y => s.syncTell c.p.launch (.tag c.w.core y.tag) (c.event 5 (c.threads c.k0)) .write [] [] ids
        | _ => s)

/-- The first held effect of a run performed, or its next part (R58 step 4); `rest` are the effects after it. Every deposit on
its way takes one of the 64 entries of its target core, whether its target is suspended or not (DESIGN CHOICE, log 60). -/
def State.heldStep (s : State) (c : Ctx) (h : Held) (rest : List Held) : HeldStep :=
  let core := c.w.core
  let k := s.core core
  let done (s : State) : HeldStep := .done (s.setHeld c.w rest)
  if h.isSync && s.depositOut c.w || h.isFlush && s.launchDepositOut core c.p.launch then .wait
  else match h with
  | .bytes na ws => done (s.storeBytes core na ws)
  | .home _ _ _ [] => done s
  | .home id _ m hs => s.sendFirst c id m hs
  | .keep as => done (s.modCore core fun k => { k with held := k.held ++ as })
  | .flush =>
    let mine := sortHeld (k.held.filter fun a => a.launch == c.p.launch)
    let s := s.modCore core fun k => { k with held := k.held.filter fun a => a.launch != c.p.launch }
    match s.freshId core with
    | (id, s) => .done (s.setHeld c.w (.flushed id mine :: rest))
  | .flushed _ [] => done s
  | .flushed id as => s.sendFirst c id 0#32 (as.map fun a => .atom (32 * a.warp + a.lane) a.acc)
  | .near m ws =>
    let rs := ws.flatMap fun x => c.l.range x.1 x.2.1 1 true
    if k.mustWait rs [] || k.boardFull || c.l.awayFor rs then .wait
    else
      let t := ws.foldl (fun s x =>
        if c.l.frozenFor x.1 core then s
        else (s.nearWrite c.l x.1 x.2.1 false x.2.2).setTags c.l x.1 x.2.1 1 false 0) s
      let s := done ((t.noteWrites none rs).modLaunch c.p.launch fun l => l.touch core rs [] (c.threads m))
      if ws.any fun x => c.l.frozenFor x.1 core then HeldStep.peerFault c.w s else s
  | .rwr target slot ctr reg vals =>
    if 64 ≤ (s.core target).deposits.length then .wait
    else match s.freshId target with
      | (id, s) =>
        done (s.modCore target fun t => { t with
          deposits := t.deposits ++ [{ id := id, launch := c.p.launch, slot := slot, ctr := ctr, reg := reg, vals := vals,
                                       sender := (core, sessionKey c.w), arrived := false,
                                       heard := c.l.heardBy (vals.map fun e => c.thread e.1) }] })
  | .bind add base len g =>
    done (s.modLaunch c.p.launch fun l => { l with
      binds := if !add then l.binds.filter fun b => b != (base, len, g)
               else if l.binds.contains (base, len, g) then l.binds else l.binds ++ [(base, len, g)] })
  | .rel id scope va pa th m =>
    .done (s.setHeld c.w (.home id 24#5 m [.guard th va pa scope] :: rest))
  | .fence scope => done (if 3 ≤ scope then s.writeBackAll core else s)
  | .icinv scope base len =>
    if len = 0#64 then done s
    else if c.p.icinv.isSome then .wait
    else
      let rs := s.codeRanges c.l.tenant base.toNat len.toNat (len.toNat / 65536 + 2)
      let s := ((s.l1Sectors core).filter fun sec => rs.any fun r => r.1 < 32 * sec + 32 && 32 * sec < r.1 + r.2).foldl
        (fun s sec => s.writeBack core sec) s
      done (s.modWarp c.w fun p => { p with icinv := some (scope, base, len) })
  | .publish region =>
    match c.l.card.shadows[region]? with
    | none => done s
    | some x =>
      let rs := c.l.range core x.1 x.2 true
      if k.mustWait rs [] || k.engineWrites rs || k.boardFull then .wait else done (s.swapHalves c.p.launch core region)
  | .engine x =>
    if k.boardFull then .wait
    else if x.movesNothing then done (s.tellCommand c x [] []).2
    else match s.tellCommand c x (x.ranges k c.l core) (x.tiles c.l core) with
      | (heard, s) => match s.freshId core with
        | (id, s) => done ((s.modWarp c.w fun p => { p with merged := p.merged || p.ownMerge x }).modCore core fun k => { k with
          engine := k.engine ++ [{ id := id, launch := c.p.launch, warp := c.w, stamp := c.p.stamp, cmd := x,
                                   ranges := x.ranges k c.l core, tiles := x.tiles c.l core, started := false, flags := 0#5,
                                   poison := false, peer := false, age := 0, argk := k.argkOf c.p 64, heard := heard }] })
  | .ams target card depth payload =>
    if 64 ≤ (s.core target).messages.length then .wait
    else done (s.modCore target fun t => { t with
      messages := t.messages ++ [{ tenant := c.l.tenant, card := card, depth := depth, payload := payload,
                                       fault := none, held := none, heard := c.l.heardBy (c.threads c.k0) }] })
  | .barr id d m n =>
    match lowest m with
    | none => done s
    | some j =>
      let left := m &&& ~~~(laneBit j)
      HeldStep.ofDecided c.w (if left = 0#32 then rest else .barr id d left n :: rest)
        (s.arriveNamed c id n j (left == 0#32))
  | .dbar id d m n =>
    match lowest m with
    | none => done s
    | some j =>
      let left := m &&& ~~~(laneBit j)
      HeldStep.ofDecided c.w (if left = 0#32 then rest else .dbar id d left n :: rest)
        (s.arriveDevice c id n j (left == 0#32))
  | .lmark imm =>
    HeldStep.ofDecided c.w rest
      (s.decide c.p.launch (some c.w) 5 (BitVec.ofNat 64 imm) (recordThread (c.lowThread c.k0) 0))
  | .sfq op =>
    match s.freshId core with
    | (id, s) =>
      done (s.modWarp c.w fun p => { p with
        sfq := p.sfq ++ [op]
        marks := p.marks ++ [{ reg := op.reg, owner := .token op.token, id := id, lanes := op.lanes, vals := [],
                               known := false, poison := false }] })
  | .swsub place u => done (s.enterSub c.l core place (c.threads c.k0) u)
  | .swleave hdl =>
    match k.sub? c.p.launch hdl with
    | some _ => done (s.leaveSub core (bitsOf hdl 7 0))
    | none => done s
  | .swgo sid dh base page joined =>
    match s.nextJoin c.l sid (c.threads c.k0) joined with
    | some x =>
      HeldStep.ofDecided c.w (.swgo sid dh base page (joined ++ [x]) :: rest) (s.decideJoin c.p.launch (some c.w) sid x)
    | none => done (s.startSweep c.w c.l sid (c.threads c.k0) dh base page)

end Sys2Proof.Machine
end

