-- ==== Sys2Proof/Machine/Waiting.lean ====
section
/-!
DEFINITION. What a warp waits for, and the warps that take BARMIS where a barrier loses its binding (R22, R31, R32, R39, R70,
R326).
-/

namespace Sys2Proof.Machine

/-! ### What a warp waits for -/

/-- Whether an outcome is a stall. -/
def stalls (o : Host.Outcome State Fault Refusal) : Bool :=
  match o with
  | .next t => t.stall
  | _ => false

/-- The state in which a warp is to issue the slot at which it stands (R45). -/
def State.asStanding (s : State) (w : WarpRef) : State :=
  { s.modWarp w fun p => { p with run := p.standing } with focus := some w, stall := false }

/-- Whether an instruction that waits inside its run (R32) stalls there now. -/
def State.waitsInside (s : State) (w : WarpRef) (i : Instr) : Bool :=
  let f := s.asStanding w
  match i with
  | .claim n => stalls (execClaim n f)
  | .bwt a n => stalls (execBwt a n f)
  | .dwt a n => stalls (execDwt a n f)
  | .swwait a => stalls (execSwwait a f)
  | _ => false

/-- Whether the instruction of a run at which a warp stands waits for a grant, its operands at hand (R243, R292). -/
def State.waitsForGrant (s : State) (w : WarpRef) (r : Run) : Bool :=
  let f := s.asStanding w
  let free (uses : List (BitVec 5)) : Bool := match f.ctx? w with | some c => !c.busy uses | none => false
  match r.commit, r.current with
  | none, some (.cpy k d a b t dir) => free [d, a, b, b + 1#5] && stalls (execCpy k d a b t dir f)
  | none, some (.cpym k d a b t pm) => free [d, a, b, b + 1#5] && stalls (execCpym k d a b t pm f)
  | none, some (.swsub k d a) => free [d, a, a + 1#5, a + 2#5, a + 3#5] && stalls (execSwsub k d a f)
  | _, _ => false

/-- Whether an instruction is one of the waits that R70 lists. -/
def isPoolWait (i : Instr) : Bool :=
  match i with
  | .claim _ => true
  | .bwt _ _ => true
  | .dwt _ _ => true
  | .awt _ _ _ _ _ _ => true
  | .swwait _ => true
  | _ => false

/-- The instruction of R70's list at which a warp waits, at its header or inside its run. -/
def State.waitsAt (s : State) (w : WarpRef) (p : Warp) : Option Instr :=
  if p.wait != .none || p.due.isSome then none
  else match p.standing with
    | some r =>
      if r.commit.isSome then none
      else match r.current with
        | some i => if isPoolWait i && s.waitsInside w i then some i else none
        | none => none
    | none =>
      match p.fetched, s.warp? (ownerRef w), s.launch? p.launch with
      | some f, some o, some l =>
        let tagged := p.marks.any fun m => match m.owner with
          | .tag q => (hdrAwait f.hdr).getLsbD q
          | .untagged => true
          | .token _ => false
        match f.first with
        | some i => if isPoolWait i && runOk f && !tagged && s.firstWait w p o l f.hdr i == .wait then some i else none
        | none => none
      | _, _, _ => none

/-- The run position of a wait (R364): that at which a run in progress stands, else 1. -/
def Warp.waitPos (p : Warp) : Nat := match p.standing with | some r => r.pos | none => 1

/-- The warps of a core: those of its slots, then those of its handler contexts. -/
def State.residents (s : State) (c : Nat) : List (WarpRef × Warp) :=
  ((s.core c).warps.map fun e => (({ core := c, slot := e.1, hnd := false } : WarpRef), e.2))
    ++ (s.core c).hnds.map fun e => (({ core := c, slot := e.1, hnd := true } : WarpRef), e.2)

/-! ### Barriers that lose their binding (R22, R39, R326) -/

/-- The trap position of a wait: 0 at the header, else that of the run. -/
def Warp.waitTrapPos (p : Warp) : Nat := match p.standing with | some r => r.pos | none => 0

/-- Whether a run that has not begun its effects holds an arrival at one of some barriers. -/
def Run.arrivesAt (r : Run) (ns : List Nat) : Bool :=
  (match r.commit with | some (_, _, n) => n == 0 | none => true)
    && r.held.any fun h => match h with | .barr _ _ _ n => ns.contains n | _ => false

/-- The barriers of a core whose binding has gone between two states. -/
def State.unbound (s t : State) (c : Nat) : List Nat :=
  (List.range 48).filter fun n =>
    let was := (s.core c).barriers[n]?.bind (·.gid)
    was.isSome && (t.core c).barriers[n]?.bind (·.gid) != was

/-- The operand of the wait at which a warp stands: from its window, or at the header from its main registers (R328). -/
def State.waitOperand (s : State) (w : WarpRef) (p : Warp) (a : BitVec 5) : Word :=
  match p.standing with
  | some _ => match (s.asStanding w).ctx? w with
    | some c => c.low c.k0 a 0#5
    | none => 0#64
  | none => match p.fetched, s.warp? (ownerRef w) with
    | some f, some o => hdrOperand w p o f.hdr a 0#5
    | _, _ => 0#64

/-- The named barrier at whose `bwt` a warp waits, and the phase for which it waits (R22, R328). -/
def State.waitsOn (s : State) (w : WarpRef) (p : Warp) : Option (Nat × Word) :=
  match s.waitsAt w p with
  | some (.bwt a n) => some (n.toNat, s.waitOperand w p a)
  | _ => none

/-- Whether a warp stands at a `bwt` of one of some barriers that still waits: one that has stopped there waits no longer once the
phase has completed (R328, R360). -/
def State.waitsAmong (s : State) (w : WarpRef) (p : Warp) (ns : List Nat) : Bool :=
  match p.stoppedAt with
  | some (n, a) =>
    ns.contains n && (match (s.core w.core).barriers[n]? with | some b => phaseWaits b.ph a | none => false)
  | none => match s.waitsOn w p with
    | some (n, _) => ns.contains n
    | none => false

/-- BARMIS taken by a warp at its wait; one that has stopped there takes it after its resumption (R22, R360). -/
def State.takeBarmis (s : State) (w : WarpRef) (p : Warp) : State :=
  let t : Trap := { code := .barmis, pos := p.waitTrapPos, info := 0, lanes := none, kind := 0 }
  if p.stop then s.modWarp w fun p => { p with later := some t, stoppedAt := none } else s.takeTrap w t

/-- A warp that has stopped at a `bwt` of one of some barriers, which have lost their binding, waits there no longer. -/
def Warp.forgetWait (ns : List Nat) (p : Warp) : Warp :=
  { p with stoppedAt := match p.stoppedAt with | some (n, a) => if ns.contains n then none else some (n, a) | none => none }

/-- The state `t` after `s` with BARMIS taken by each warp of a core that, in `s`, waits at a barrier that has lost its
binding, or has stopped at such a wait, and by each whose run, not yet committed, holds an arrival at it (R22, R39; log 28). `w` is
the warp whose commit took the binding away. -/
def State.barmis (s t : State) (w : WarpRef) : State :=
  match s.unbound t w.core with
  | [] => t
  | ns =>
    let t := ((s.residents w.core).filter fun e => e.1 != w && (s.waitsAmong e.1 e.2 ns
        || (match e.2.run with | some r => r.arrivesAt ns | none => false))).foldl (fun t e => t.takeBarmis e.1 e.2) t
    t.modCore w.core fun k => { k with
      warps := k.warps.map fun e => (e.1, e.2.forgetWait ns), hnds := k.hnds.map fun e => (e.1, e.2.forgetWait ns) }

end Sys2Proof.Machine
end

