-- ==== Sys2Proof/Machine/Commit.lean ====
section
/-!
DEFINITION. `trail` and the commit of a run (R57–R63, R65, R81, R104, R141, R213–R230, R333, R340, R352, R353, R357).
-/

namespace Sys2Proof.Machine

/-- `trail` (R57): every instruction has issued, and the commit begins. -/
def execTrail (te : BitVec 1) (tag : BitVec 3) (wb : BitVec 16) (s : State) : Host.Outcome State Fault Refusal :=
  s.issue (.trail te tag wb) fun s c =>
    .go s { c.r with commit := some (wb, if te = 1#1 then some tag.toNat else none, 0) }

/-! ### The checks (R58, R59, R63–R65, R190, R361) -/

/-- The slots that a write-back mask names, ascending. -/
def wbSlots (wb : BitVec 16) : List Nat := (List.range 16).filter fun i => wb.getLsbD i

/-- Whether the commit must wait for a value of a read of the run: one for a set register, or without a result tag one
that the write-back names (R59, R224). -/
def Run.awaitsRead (r : Run) (wb : BitVec 16) (tag : Option Nat) : Bool :=
  r.pend.any fun q => !q.arrived && match q.dest with
    | .set _ => true
    | .win _ _ => tag.isNone && (wbSlots wb).any q.covers

/-- The run with every arrived value delivered: what is left of a lookahead count lapses (R64). -/
def Run.lapse (r : Run) : Run :=
  { (r.pend.filter fun q => q.arrived).foldl Run.deliver r with pend := r.pend.filter fun q => !q.arrived }

/-- The groups that the run's claim adds. -/
def Run.claimed (r : Run) : Nat := r.res.claim.getD 0

/-- The check of a commit that fails, if any: all are made before step 1. The groups that a claim of the run adds count as
allocated (DESIGN CHOICE, log 55). -/
def Ctx.commitFault (c : Ctx) (wb : BitVec 16) : Option Code :=
  let regs := (wbSlots wb).map c.r.regOf
  if regs.any fun x => 8 * (c.own.g + c.r.claimed) ≤ x then some .regbnd
  else if regs.any (c.p.hazard c.own) then some .runhaz
  else if regs.any fun x => c.own.poisoned.contains x then some .poison
  else none

/-- A trap that a check at commit raises (R349). -/
def commitTrap (code : Code) : Trap := { code := code, pos := 25, info := 0, lanes := none, kind := 0 }

/-- Whether the commit waits before its first step for a sweep that runs (R293). -/
def State.waitsForSweep (s : State) (c : Ctx) : Bool :=
  c.r.held.any fun h => match h with | .swgo sid _ _ _ _ => s.sweepRuns c.p.launch sid | _ => false

/-! ### Steps 1 and 2: claim and write-back -/

/-- A value that a write-back leaves pending: its identifier, lanes, values, and whether they are known and poisoned. -/
structure Late where
  id     : Nat
  lanes  : Mask
  vals   : Tab Word
  known  : Bool
  poison : Bool
  deriving DecidableEq, Repr

/-- The values awaited for a slot, program order; those of held effects come after those of reads (R141, R323). -/
def Run.lateFor (r : Run) (i : Nat) : List Late :=
  let reads := (r.pend.filter fun q => !q.arrived && q.covers i).map fun q =>
    let base := match q.dest with | .win d _ => d.toNat | .set _ => 0
    let mine := q.vals.filter fun e => e.1 / 32 == i - base
    { id := q.id, lanes := mine.foldl (fun m e => m ||| laneBit (e.1 % 32)) 0#32,
      vals := mine.foldl (fun t e => Tab.set 0#64 t (e.1 % 32) e.2) [], known := true, poison := q.poison : Late }
  let effect (id : Nat) (d : BitVec 5) (m : Mask) : List Late :=
    if d.toNat = i then [{ id := id, lanes := m, vals := [], known := false, poison := false }] else []
  reads ++ r.held.flatMap fun h => match h with
    | .home id d m _ => effect id d m
    | .barr id d m _ => effect id d m
    | .dbar id d m _ => effect id d m
    | _ => []

/-- Late values with no lane in two of them: one issued later takes its lanes from those before it (the spec does not say
which of two results for one destination stands; DESIGN CHOICE, log 77). -/
def settleLate (live : Mask) (ls : List Late) : List Late :=
  (ls.foldl (fun out l => (out.map fun x => { x with lanes := x.lanes &&& ~~~l.lanes }) ++ [l]) []).map
      (fun l => { l with lanes := l.lanes &&& live }) |>.filter fun l => l.lanes != 0#32

/-- The lanes of late values. -/
def lateLanes (ls : List Late) : Mask := ls.foldl (fun m l => m ||| l.lanes) 0#32

/-- The main registers after the write-back (R58 step 2). -/
def Ctx.writeBack (c : Ctx) (wb : BitVec 16) : Tab Word :=
  (wbSlots wb).foldl (fun t i =>
    let m := c.p.live &&& ~~~(lateLanes (settleLate c.p.live (c.r.lateFor i)))
    m.toList.foldl (fun t j => Tab.set 0#64 t (32 * c.r.regOf i + j) (Tab.get 0#64 c.r.win (32 * i + j))) t) c.own.regs

/-- The marks that the write-back leaves (R59, R62). Of two slots that map one register, the higher stands. -/
def Ctx.newMarks (c : Ctx) (wb : BitVec 16) (tag : Option Nat) : List Mark :=
  (wbSlots wb).foldl (fun ms i =>
    ms.filter (fun m => m.reg != c.r.regOf i) ++ (settleLate c.p.live (c.r.lateFor i)).map fun l =>
      { reg := c.r.regOf i, owner := match tag with | some q => .tag q | none => .untagged, id := l.id, lanes := l.lanes,
        vals := l.vals, known := l.known, poison := l.poison }) []

/-! ### Step 3: staged changes -/

/-- A write of a system register (R38, R103, R306, R332, R349, R351). One of DETMODE or WDOGLIM takes effect in the next
cycle (R38, R332). -/
def State.writeSys (s : State) (c : Ctx) (num : Nat) (v : Word) : State :=
  match num with
  | 1 => s.modWarp c.w fun p => { p with trap := p.trap.map fun t => (t.1, trapAddr v) }
  | 5 => s.modWarp c.w fun p => { p with fpflags := v.setWidth 5 }
  | 6 => s.modLaunch c.p.launch fun l => l.modPlace c.w.core fun p => { p with drops := v.setWidth 32 }
  | 7 => s.modLaunch c.p.launch fun l => { l with detNext := some v }
  | 11 => s.modLaunch c.p.launch fun l => l.modPlace c.w.core fun p => { p with wdogNext := some (v &&& 0x1FFFFFFFF#64) }
  | _ => s

/-- A counter of a warp after `awt` (R146). -/
def countDown (x : BitVec 16 × Bool) (sub : BitVec 16) (clr : Bool) : BitVec 16 × Bool :=
  (x.1 - sub, if clr then false else x.2)

/-- A staged change made (R58 step 3). The region changes of `idb` and `ide` take their entry after step 6. -/
def State.commitEff (s : State) (c : Ctx) (e : SetEff) : State :=
  let core := c.w.core
  let k := s.core core
  match e with
  | .fill n bits =>
    s.modCore core fun k => { k with store := listChange k.store n fun x => { x with holder := some c.p.launch, bits := bits } }
  | .spill j obj ms =>
    match s.freshId core with
    | (id, s) =>
      (s.modLaunch c.p.launch fun l => l.modPlace core fun p => { p with chunks := p.chunks ++ [j] }).modRun c.w fun r =>
        { r with held := .home id 24#5 0#32 [.chunk (c.lowThread c.k0) obj ms] :: r.held }
  | .freeEntry n gen =>
    match k.store[n]? with
    | some x =>
      if x.gen == gen && x.holder == some c.p.launch && x.group.isNone then s.modCore core fun k => k.freeStore n else s
    | none => s
  | .freeChunk j => s.modLaunch c.p.launch fun l => l.modPlace core fun p => { p with chunks := p.chunks.filter fun x => x != j }
  | .group n m =>
    let name := (c.own.logical, ((s.warp? c.w).map fun (p : Warp) => p.gmakes).getD 0)
    (s.modCore core fun k =>
      ({ k with store := listChange k.store n fun x =>
          { x with holder := some c.p.launch, bits := 0#2048, group := some name } }).joinGroup core n c.w.slot m).modWarp c.w
      fun p => { p with gmakes := p.gmakes + 1 }
  | .join gid m =>
    match k.group? core c.p.launch gid with
    | some n => s.modCore core fun k => k.joinGroup core n c.w.slot m
    | none => s
  | .leave gid m =>
    match k.group? core c.p.launch gid with
    | some n => s.modCore core fun k => k.leaveGroup core n c.w.slot m
    | none => s
  | .dissolve gid =>
    match k.group? core c.p.launch gid with
    | some n => s.modCore core fun k => k.dissolve core n
    | none => s
  | .bbind n gid =>
    match k.group? core c.p.launch gid, k.barriers[n]? with
    | some _, some b =>
      if b.gid.isSome then s
      else (s.modCore core fun k => { k with
        barriers := listChange k.barriers n fun _ => { gid := some gid, ph := 0#32, arr := [] } }).modLaunch c.p.launch fun x =>
          x.forgetBarrier core n
    | _, _ => s
  | .bunb n =>
    match k.barriers[n]? with
    | some b =>
      if (b.gid.bind (k.group? core c.p.launch)).isSome then
        s.modCore core fun k => { k with barriers := listChange k.barriers n fun b => { b with gid := none, arr := [] } }
      else s
    | none => s
  | .syswr num v => s.writeSys c num v
  | .counter n sub clr => s.modWarp c.w fun p => { p with ctr := listChange p.ctr n fun x => countDown x sub clr }
  | .tile t on =>
    s.modWarp c.w fun p => { p with
      tiles := if on then p.tiles ||| BitVec.ofNat 16 (2 ^ t) else p.tiles &&& ~~~(BitVec.ofNat 16 (2 ^ t)) }
  | .idb _ _ => s
  | .ide => s

/-- The last eight of a list. -/
def lastEight (l : List Bool) : List Bool := l.drop (l.length - 8)

/-- Steps 1 to 3 of a commit whose checks have passed. -/
def State.commitState (s : State) (c : Ctx) (wb : BitVec 16) (tag : Option Nat) : State :=
  let owner := ownerRef c.w
  let s := s.modWarp owner fun o => { o with g := o.g + c.r.claimed, regs := c.writeBack wb }
  let s := s.modWarp c.w fun p => { p with
    claim := none
    marks := p.marks ++ c.newMarks wb tag
    run := some { c.r with commit := some (wb, tag, 1), pend := [] } }
  let s := if c.l.isDet then
      let x := detHeld c.p.launch c.l.ords c.r.held
      (s.modLaunch c.p.launch fun l => { l with ords := x.2 }).setHeld c.w x.1
    else s
  let s := c.r.sets.foldl (fun s e =>
    if e.1 = 0 then s.modWarp c.w fun p => { p with k := Tab.set 0#64 p.k 0 e.2 }
    else s.modWarp owner fun o => { o with k := Tab.set 0#64 o.k e.1 e.2 }) s
  let s := s.barmis (c.r.setEff.foldl (fun s e => s.commitEff c e) s) c.w
  let s := s.modWarp owner fun o => { o with
    srn := c.r.srs.foldl (fun t e => Tab.set 0#64 t e.1 (Tab.get 0#64 t e.1 + BitVec.ofNat 64 e.2)) o.srn }
  s.modWarp c.w fun p => { p with fpflags := p.fpflags ||| c.r.flags, history := lastEight (p.history ++ [c.r.mem]) }

/-! ### Steps 5 to 7 -/

/-- Groups given back (R58 step 5, R69): the registers above are gone. -/
def Warp.give (o : Warp) (n : Nat) : Warp :=
  let g := o.g - n
  { o with g := g, regs := o.regs.filter fun e => e.1 < 256 * g, poisoned := o.poisoned.filter fun x => x < 8 * g }

/-- The marks and operations of a warp on registers of groups that are gone: what arrives for them is discarded, even where
a claim has added the group again (R69, R186). -/
def Warp.forgetAbove (p : Warp) (g : Nat) : Warp :=
  { p with
    marks := p.marks.map fun m => if 8 * g ≤ m.reg then { m with lanes := 0#32 } else m
    sfq := p.sfq.map fun q => if 8 * g ≤ q.reg then { q with lanes := 0#32 } else q }

/-- Commit step 5: the groups go back to the pool, from which they are free in the next cycle (R69). A warp and its handler
share them. -/
def State.giveGroups (s : State) (c : Ctx) (n : Nat) : State :=
  let owner := ownerRef c.w
  ((((s.modWarp owner fun o => o.give n).modWarp owner fun o => o.forgetAbove (c.own.g - n)).modWarp
    { owner with hnd := true } fun h => h.forgetAbove (c.own.g - n))).modCore c.w.core fun k =>
      { k with returned := k.returned + n * liveSlices c.own.live }

/-- Whether a warp's own tags, tokens and engine commands are all done (R25, R240, R352). -/
def State.quiet (s : State) (w : WarpRef) (p : Warp) : Bool :=
  p.marks == [] && p.sfq == [] && !((s.core w.core).engine.any fun e => e.warp == w && e.stamp == p.stamp)

/-- `tret` at commit step 6 (R352, R365). -/
def State.commitTret (s : State) (c : Ctx) (e : Bool) : Applied :=
  let owner := ownerRef c.w
  if !s.quiet c.w c.p then .wait
  else match c.p.trap with
    | none => .done s
    | some (t, at_) =>
      let s := s.modCore c.w.core fun k => { k with hnds := Tab.drop k.hnds c.w.slot }
      if e then .done (s.endLaunch c.p.launch c.w.core { code := t.code, detail := c.own.logical })
      else if t.code = .logfull then
        .done (s.modWarp owner fun p => { p with wdog := 0, due := none })
      else .done (s.returnFrom owner t at_ (at_ != trapAddr c.own.pc) c.r.yield (c.p.sched == .active))

/-- The control transfer (R58 step 6). A branch to the run's own header keeps its packets (R81). The threads' later sync events,
in other warps too, come after the deposits that the warp has sent (R199). -/
def State.transfer (s : State) (c : Ctx) : Applied :=
  let move (pc : Word) : State := s.modWarp c.w fun p => { p with pc := pc, fetched := none }
  match c.r.xfer with
  | .fall => .done (move c.r.fall)
  | .goto a => .done (s.modWarp c.w fun p => { p with pc := a, fetched := if a = c.r.hdr then some c.r.src else none })
  | .exit m => .done ((move c.r.fall).exitLanes c.w m)
  | .apply v repack b0 b1 block cont ms =>
    if s.depositOut c.w then .wait else s.commitApply c.w v repack b0 b1 block cont ms
  | .enda => if s.depositOut c.w then .wait else match s.commitEnda c.w with | some s => .done s | none => .wait
  | .tret e => s.commitTret c e

/-- The end of a coroutine's turn (R333): the warp was the running coroutine of its launch. -/
def State.passTurn (s : State) (w : WarpRef) (p : Warp) : State :=
  match s.launch? p.launch with
  | none => s
  | some l =>
    if l.isDet && Dict.find (s.core w.core).turn p.launch == some (2 * p.logical) then
      s.modCore w.core fun k => { k with turn := Dict.put k.turn p.launch (2 * p.logical + 1) }
    else s

/-- `trap` or `brk` after step 7 (R353): a `brk` without a handler entry has no effect, and neither has any effect where no lane
is live. A PEERFLT of a near store (R363) and the BARMIS of an arrival at a barrier that has lost its binding (R39) come here
too, and are taken also where the run's own exit has left no live lane; such a BARMIS meets its default fate, for a handler with
no live lane could issue nothing (DEDUCED, log 28). -/
def State.softTrap (s : State) (w : WarpRef) (p : Warp) (x : Code × Nat × Nat) : State :=
  let none_ := x.1 == .brk && (match s.launch? p.launch with
    | none => true
    | some l => match s.vector l .brk with | .ok none => true | _ => false)
  let t : Trap := { code := x.1, pos := x.2.1, info := x.2.2, lanes := none, kind := 0 }
  if x.1 == .peerflt then s.takeTrap w t
  else if x.1 == .barmis && p.live = 0#32 then s.defaultFate w p t
  else if p.live = 0#32 || none_ then s
  else match p.wait with
    | .session _ => s.modWarp w fun p => { p with later := some t }
    | _ => s.takeTrap w t

/-- `trap` or `brk` of a handler warp that its `tret` has ended: it ends the launch (R348, R353). -/
def State.softInHandler (s : State) (c : Ctx) (x : Code × Nat × Nat) : State :=
  let none_ := x.1 == .brk && (match s.launch? c.p.launch with
    | none => true
    | some l => match s.vector l .brk with | .ok none => true | _ => false)
  if c.p.live = 0#32 || none_ then s else s.endLaunch c.p.launch c.w.core { code := x.1, detail := c.p.logical }

/-- The end of a commit: step 7, the watchdog (R36), the preemption point (R356), the region (R357), then what `trap` and
`brk` raise. The entry of a region is the header at which the warp now stands; where the run ends in an apply session, that at
which the session lets it go on. A run that holds `yield` leaves the active set also where it leaves an untagged pending
write-back, for which R59 would keep the warp there: it is not ready until the value is written (DEDUCED, log 80). -/
def State.endCommit (s : State) (c : Ctx) : State :=
  match s.warp? c.w with
  | none =>
    match c.w.hnd, c.r.soft with
    | true, some x => s.softInHandler c x
    | _, _ => s
  | some p =>
    if p.stamp != c.p.stamp then s
    else
      let waits := match p.wait with | .session _ => true | _ => false
      let s := s.modWarp c.w fun p =>
        { p with
          run := none
          wdog := 0
          ppoint := c.r.ppoint
          region := if p.live = 0#32 then none else c.r.setEff.foldl (fun x e => match e with
            | .idb b n => some (if waits then none else some p.pc, b, n)
            | .ide => none
            | _ => x) p.region
          sched := if c.r.yield && p.sched == .active then .pending else p.sched
          readyAt := if c.r.yield && p.sched == .active then some (s.core c.w.core).cyc.toNat else p.readyAt }
      let s := if c.r.yield || waits then s.passTurn c.w p else s
      match c.r.soft with
      | some x => s.softTrap c.w p x
      | none => s

/-! ### The course of a commit -/

/-- What one stage of a commit comes to. -/
inductive CommitStep where
  | go (s : State)
  /-- The commit ends, or goes on in a later step. -/
  | stop (s : State)
  | wait
  | trap (s : State) (t : Trap)

/-- One stage of a commit: the checks and steps 1 to 3; then one held effect at a time; then step 5; then the rest. -/
def State.commitStep (s : State) (c : Ctx) (wb : BitVec 16) (tag : Option Nat) (stage : Nat) : CommitStep :=
  match stage with
  | 0 =>
    match c.commitFault wb with
    | some code => .trap s (commitTrap code)
    | none =>
      if c.r.awaitsRead wb tag || s.waitsForSweep c then .wait
      else .go (s.commitState { c with r := c.r.lapse } wb tag)
  | 1 =>
    match c.r.held with
    | h :: rest =>
      match s.heldStep c h rest with
      | .done s => .go s
      | .sent s => .stop s
      | .wait => .wait
    | [] =>
      let s := match c.r.give with | some n => s.giveGroups c n | none => s
      .go (s.modRun c.w fun r => { r with commit := some (wb, tag, 2) })
  | _ =>
    match s.transfer c with
    | .done t => .stop ((s.barmis t c.w).endCommit c)
    | .wait => .wait
    | .raised s => .stop s

/-- The stages of a commit in order, until one must wait. `moved` tells whether something has been done; `n` bounds the
stages of one step. -/
def State.commitFrom (s : State) (w : WarpRef) (moved : Bool) : Nat → State
  | 0 => s
  | n + 1 =>
    match s.ctx? w with
    | none => { s with stall := !moved }
    | some c =>
      match c.r.commit with
      | none => { s with stall := !moved }
      | some (wb, tag, stage) =>
        if c.r.waitId.isSome then { s with stall := !moved }
        else match s.commitStep c wb tag stage with
          | .go s => s.commitFrom w true n
          | .stop s => s
          | .wait => { s with stall := !moved }
          | .trap s t => s.takeTrap w t

/-- Event RUN_COMMIT (R58): the commit of a run whose `trail` has issued goes on as far as it can. -/
def execRunCommit (w : WarpRef) (s : State) : Host.Outcome State Fault Refusal :=
  match s.ctx? w with
  | none => .next { s with stall := true }
  | some c => .next (s.commitFrom w false (40 * c.r.held.length + 60))

end Sys2Proof.Machine
end

