-- ==== Sys2Proof/Machine/Sched.lean ====
section
/-!
DEFINITION. The scheduler of a core: readiness, the active set, the watchdog, the pool's claims, coroutine turns, and
what one cycle does (R29–R38, R68–R70, R320, R333, R339, R358, R364, R367, R386).
-/

namespace Sys2Proof.Machine

/-- Whether a warp at a boundary stands at a fetched header that cannot pass now (R31). -/
def State.headerBlocked (s : State) (w : WarpRef) (p : Warp) : Bool :=
  match p.fetched, s.warp? (ownerRef w), s.launch? p.launch with
  | some f, some o, some l => match s.header w p o l f with | .stall => true | _ => false
  | _, _, _ => false

/-- Whether nothing has ended the launch of a warp. -/
def State.goesOn (s : State) (p : Warp) : Bool :=
  match s.launch? p.launch with
  | some l => l.cause.isNone
  | none => false

/-- Whether a pending warp is ready (R29, R33). -/
def State.pendingReady (s : State) (w : WarpRef) (p : Warp) : Bool :=
  p.sched == .pending && p.wait == .none && p.due.isNone && p.icinv.isNone && p.live != 0#32 && !p.stop && s.goesOn p
    && (match p.run with
      | some r => match r.current with | some i => !s.waitsInside w i | none => true
      | none => !s.headerBlocked w p)

/-- The warps of a core that hold a place of the active set. -/
def State.activeSet (s : State) (c : Nat) : List (WarpRef × Warp) := (s.residents c).filter fun e => e.2.sched == .active

/-! ### Deterministic turns (R333) -/

/-- Whether a warp runs as a coroutine. -/
def State.coroutine (s : State) (p : Warp) : Bool :=
  p.kind == .ordinary && (match s.launch? p.launch with | some l => l.isDet | none => false)

/-- Whether a warp is the running coroutine of its launch on its core. -/
def State.holdsTurn (s : State) (w : WarpRef) (p : Warp) : Bool :=
  s.coroutine p && Dict.find (s.core w.core).turn p.launch == some (2 * p.logical)

/-- The ready warp to which a turn goes: the next in cyclic order after a logical index; the lowest where no turn has been
(R333). -/
def State.nextHolder (s : State) (c l : Nat) (after : Option Nat) : Option Nat :=
  let ready := ((s.residents c).filter fun e => e.2.launch == l && s.coroutine e.2 && s.pendingReady e.1 e.2).map
    fun e => e.2.logical
  match after with
  | none => least ready
  | some n => (least (ready.filter fun j => n < j)) <|> least ready

/-- The turns of a core given out where none is held. -/
def State.giveTurns (s : State) (c : Nat) : State :=
  s.launches.foldl (fun s e =>
    if !e.2.isDet || (e.2.place? c).isNone then s
    else
      let now := Dict.find (s.core c).turn e.1
      match now with
      | some t =>
        if t % 2 = 0 then s
        else match s.nextHolder c e.1 (some (t / 2)) with
          | some j => s.modCore c fun k => { k with turn := Dict.put k.turn e.1 (2 * j) }
          | none => s
      | none =>
        match s.nextHolder c e.1 none with
        | some j => s.modCore c fun k => { k with turn := Dict.put k.turn e.1 (2 * j) }
        | none => s) s

/-- The running coroutine that waits at a `bwt` or `dwt` ends its turn, and leaves the active set with its run kept. -/
def State.turnWaits (s : State) (w : WarpRef) (p : Warp) : State :=
  if !s.holdsTurn w p then s
  else match s.waitsAt w p with
    | some (.bwt _ _) => (s.passTurn w p).modWarp w fun p => { p with sched := if p.sched == .active then .pending else p.sched, readyAt := none }
    | some (.dwt _ _) => (s.passTurn w p).modWarp w fun p => { p with sched := if p.sched == .active then .pending else p.sched, readyAt := none }
    | _ => s

/-! ### One cycle of a core -/

/-- Whether a launch has a warp suspended on another, fenced core, among those that `at_` selects (R386). -/
def State.heldByDrain (s : State) (c l : Nat) (at_ : Nat → Bool) : Bool :=
  s.dev.saved.any fun x => x.launch == l && x.core != c && x.warps != [] && (s.core x.core).fenced && at_ x.core

/-- Whether an `awt` at a counter would read a deposit of a suspended warp (R386): only one of the same cluster can send one, and
only to the counters of the slot's own warp (R144, R347). Whether it is that one for which the warp waits is open (DESIGN
CHOICE, log 40). -/
def State.awaitsSuspended (s : State) (w : WarpRef) (p : Warp) (ctr : Nat) : Bool :=
  !w.hnd && s.heldByDrain w.core p.launch (fun c => clusterOf c == clusterOf w.core)
    && Config.awaitsSuspended p.stamp ctr p.lastIssue

/-- Whether a warp's watchdog counts this cycle (R36, R341, R346, R386): not while the warp is suspended or has stopped to be
(R355), waits in a session, has a live handler, waits for a record of its launch's log, or waits as R386 says. -/
def State.wdogCounts (s : State) (w : WarpRef) (p : Warp) : Bool :=
  p.sched != .suspended && !p.stop
    && (match p.wait with | .session _ => false | _ => true)
    && (match s.launch? p.launch with
      | some l => !(l.isDet && !s.holdsTurn w p) && !(l.logQueue.any fun e => e.1 == some w)
      | none => true)
    && (w.hnd || ((s.core w.core).warp? w.slot true).isNone)
    && !(match s.waitsAt w p with
      | some (.dwt _ _) => s.heldByDrain w.core p.launch fun _ => true
      | some (.swwait _) => s.heldByDrain w.core p.launch fun _ => true
      | some (.awt _ _ _ ctr _ _) => s.awaitsSuspended w p ctr.toNat
      | _ => false)

/-- A boundary-blocked warp leaves the active set at the end of the cycle (R31); one that has no live lane left and waits to
retire keeps its place (R32, R59). -/
def State.leaveActive (s : State) (w : WarpRef) (p : Warp) : State :=
  if p.sched == .active && p.run.isNone && p.live != 0#32 && s.headerBlocked w p
      && !(p.marks.any fun m => m.owner == .untagged) then
    s.modWarp w fun p => { p with sched := .pending, readyAt := none }
  else s

/-- What a cycle does to a warp. A wait for a grant began in the cycle that ends, unless the warp issued something in it and comes
to the instruction in the next (R243). -/
def State.tickWarp (s : State) (w : WarpRef) (p : Warp) : State :=
  let now := (s.core w.core).cyc.toNat
  let s := (s.leaveActive w p).turnWaits w p
  match s.warp? w with
  | none => s
  | some p =>
    let ready := s.pendingReady w p
    let counts := s.wdogCounts w p
    let since : Option (Nat × Nat) := match p.standing with
      | some r =>
        let old := p.waitsSince.bind fun x => if p.stands.isNone || x.2 == r.pos then some x else none
        if s.waitsForGrant w r then old <|> some (if p.issued then now else now - 1, r.pos) else old
      | none => none
    let claim := match p.claim, s.waitsAt w p with
      | none, some (.claim n) => some { n := n.toNat, since := now, granted := false }
      | x, _ => x
    s.modWarp w fun p => { p with
      issued := false
      readyAt := if ready then (match p.readyAt with | some n => some n | none => some (now - 1)) else none
      since := since
      queued := s.queuedRead w p
      wdog := if counts then p.wdog + 1 else p.wdog
      claim := claim }

/-- Whether a core meets every condition of claim deadlock but the last (R70). The waits are those of the warps that are not
suspended; a tag or an operation of any warp counts as pending, of one that has stopped and is not yet drained too. -/
def State.poolStuck (s : State) (c : Nat) : Bool :=
  let k := s.core c
  let rs := (s.residents c).filter fun e => e.2.sched != .suspended
  let at_ (e : WarpRef × Warp) : Bool := match e.2.wait with
    | .session _ => true
    | _ => (s.waitsAt e.1 e.2).isSome
  let claims (e : WarpRef × Warp) : Bool := match s.waitsAt e.1 e.2 with | some (.claim _) => true | _ => false
  rs.any claims && rs.all at_ && (s.residents c).all (fun e => e.2.marks == [] && e.2.sfq == []) && k.reqs == []
    && k.engine == []

/-- One more cycle of waiting for another node, for a request entry and for an engine command (R378). -/
def ReqEntry.aged (q : ReqEntry) : ReqEntry := if q.remote then { q with age := q.age + 1 } else q

def State.agedCmd (s : State) (e : EngRec) : EngRec :=
  match e.cmd with
  | .copy c => if e.started && c.pages.any (fun p => s.remotePa p.pa) then { e with age := e.age + 1 } else e
  | _ => e

/-- One cycle of a core that has started (R31, R36, R70, R333, R339, R355). -/
def State.tickCore (s : State) (c : Nat) : State :=
  if !(s.core c).started then s
  else
    let s := s.modCore c fun k => { k with cyc := k.cyc + 1 }
    let s := (s.residents c).foldl (fun s e => s.tickWarp e.1 e.2) s
    let s := s.giveTurns c
    let stuck := s.poolStuck c
    s.modCore c fun k => { k with
      ports := 0, created := false, granted := false, placed := false
      entered := 8 ≤ (s.activeSet c).length
      returned := 0, acted := none, seen := none
      deadlock := if stuck && k.poolFree ≤ k.poolWas then k.deadlock + 1 else 0
      poolWas := k.poolFree
      reads := (k.reads.map fun x => { x with age := x.age + 1 }).filter fun x => x.age < 64
      reqs := k.reqs.map ReqEntry.aged, engine := k.engine.map s.agedCmd
      preempts := k.preempts.map fun x => { x with age := x.age + 1 } }

/-- Writes of DETMODE and WDOGLIM of the cycle that ends take effect (R38, R332). -/
def State.lateWrites (s : State) : State :=
  let s := s.launches.foldl (fun s e => match e.2.detNext with | some v => s.writeDetmode e.1 v | none => s) s
  { s with launches := s.launches.map fun e => (e.1, { e.2 with places := e.2.places.map fun p =>
      match p.wdogNext with | some v => { p with wdoglim := v, wdogNext := none } | none => p }) }

/-- One arithmetic-clock cycle of the device; a halted device makes none (R385). -/
def State.tick (s : State) : State :=
  if s.dev.halted then s
  else ((List.range 144).foldl State.tickCore s.lateWrites).modDev fun d =>
    { d with anyPlaced := false, homeQ := d.homeQ.map fun q => { q with age := q.age + 1 } }

/-! ### The active set (R33, R320) -/

/-- Whether a warp is memory-bound (R320). -/
def Warp.memoryBound (p : Warp) : Bool := 4 ≤ (p.history.filter fun b => b).length

/-- The priority level of a warp's launch. -/
def State.level (s : State) (p : Warp) : Nat := match s.launch? p.launch with | some l => l.card.pri | none => 0

/-- Whether one ready pending warp goes before another of its level (R33). -/
def earlier (now : Nat) (a b : WarpRef × Warp) : Bool :=
  let at_ (p : Warp) : Nat := p.readyAt.getD now
  keyBefore [at_ a.2, a.1.slot, if a.1.hnd then 1 else 0] [at_ b.2, b.1.slot, if b.1.hnd then 1 else 0]

/-- The pending warps of a core that may enter the active set: those ready since a cycle before this one (R33); in
deterministic mode only the running coroutine (R333). -/
def State.candidates (s : State) (c : Nat) : List (WarpRef × Warp) :=
  (s.residents c).filter fun e => s.pendingReady e.1 e.2 && (!s.coroutine e.2 || s.holdsTurn e.1 e.2)
    && (match e.2.readyAt with | some n => n != (s.core c).cyc.toNat | none => false)

/-- The warp that enters the active set, with `limit` memory-bound warps at most in it (R33, R320). -/
def State.entrant (s : State) (c : Nat) (limit : Option Nat) : Option WarpRef :=
  let cs := s.candidates c
  let top := cs.foldl (fun n e => max n (s.level e.2)) 0
  let bound := ((s.activeSet c).filter fun e => e.2.memoryBound).length
  let may (e : WarpRef × Warp) : Bool := match limit with
    | none => true
    | some n => (cs.length ≤ 1 && !(s.core c).readyActive) || !e.2.memoryBound || bound < n
  let now := (s.core c).cyc.toNat
  ((cs.filter fun e => s.level e.2 == top && may e).foldl (fun b e => match b with
    | none => some e
    | some x => if earlier now e x then some e else some x) none).map fun e => e.1

/-- The limit of the congestion throttle that firmware sets now (R320). -/
def State.throttle (s : State) : Option Nat := (Config.congestion s.oracle).map fun n => if n % 2 = 0 then 4 else 2

/-- Whether a core owes a warp its entry into the active set: at the start of a cycle, where the set has a free place
(R33). -/
def State.owesEntry (s : State) (c : Nat) : Bool :=
  (s.core c).started && !(s.core c).entered && (s.activeSet c).length < 8 && (s.entrant c s.throttle).isSome

/-- Event ACTIVE_SET_ENTRY (R33): a ready pending warp enters the active set where it has a free place. -/
def execActiveSetEntry (core : Nat) (s : State) : Host.Outcome State Fault Refusal :=
  let k := s.core core
  if !k.started || k.entered || 8 ≤ (s.activeSet core).length then .next s
  else
    let t : State := { s with oracle := s.oracle + 1 }
    match s.entrant core s.throttle with
    | none => .next t
    | some w =>
      .next ((t.modWarp w fun p => { p with sched := .active, lastIssue := k.cyc.toNat, readyAt := none }).modCore core
        fun k => { k with entered := true })

/-! ### Watchdog, claims and deadlock -/

/-- The interval after which a warp's watchdog raises WDOG; none while it only counts (R38). -/
def State.wdogLimit (s : State) (w : WarpRef) (p : Warp) : Option Nat :=
  match (s.launch? p.launch).bind fun l => l.place? w.core with
  | none => none
  | some x => if x.wdoglim.getLsbD 32 then some (1024 * max 1 (bitsOf x.wdoglim 31 0)) else none

/-- The LIMIT of a warp's WDOGLIM. -/
def State.wdogField (s : State) (w : WarpRef) (p : Warp) : Nat :=
  match (s.launch? p.launch).bind fun l => l.place? w.core with
  | none => 0
  | some x => bitsOf x.wdoglim 31 0

/-- Whether a warp raises WDOG now (R36): its count has reached the limit, and nothing of R36, R346 and R386 keeps it from
counting, so that a warp whose trap waits for its tags, before its handler is live, raises it too. A warp with no live lane that
has not yet retired raises none (R36 exempts it nowhere and R37 names live lanes alone; DESIGN CHOICE, log 74). -/
def State.wdogDue (s : State) (w : WarpRef) (p : Warp) : Bool :=
  p.live != 0#32 && !p.committing && s.goesOn p
    && (match s.wdogLimit w p with | some n => n ≤ p.wdog | none => false) && s.wdogCounts w p

/-- Event WATCHDOG_EXPIRY (R36, R37): WDOG at the current run boundary. -/
def execWatchdogExpiry (w : WarpRef) (s : State) : Host.Outcome State Fault Refusal :=
  match s.warp? w with
  | none => .next s
  | some p =>
    if !s.wdogDue w p then .next s
    else .next (s.takeTrap w { code := .wdog, pos := 27, info := s.wdogField w p, lanes := none, kind := 0 })

/-- The claims of a core that wait, with the keys of the order of their grants (R68). -/
def Core.claimQueue (k : Core) : List (Nat × Nat × Bool × Warp × ClaimWait) :=
  let of (h : Bool) (e : Nat × Warp) : List (Nat × Nat × Bool × Warp × ClaimWait) := match e.2.claim with
    | some x => if x.granted then [] else [(x.since, e.1, h, e.2, x)]
    | none => []
  k.warps.flatMap (of false) ++ k.hnds.flatMap (of true)

/-- The claim at the head of a core's order (R68). -/
def Core.firstClaim (k : Core) : Option (Nat × Nat × Bool × Warp × ClaimWait) :=
  k.claimQueue.foldl (fun b e => match b with
    | none => some e
    | some x => if keyBefore [e.1, e.2.1] [x.1, x.2.1] then some e else some x) none

/-- Event CLAIM_GRANT (R68, R399): the claim at the head of the order is granted where the pool holds it. -/
def execClaimGrant (core : Nat) (s : State) : Host.Outcome State Fault Refusal :=
  let k := s.core core
  match k.firstClaim with
  | none => .next s
  | some (_, slot, h, p, x) =>
    if k.granted || k.poolFree < x.n * liveSlices p.live then .next s
    else .next ((s.modWarp { core := core, slot := slot, hnd := h } fun p =>
      { p with claim := some { x with granted := true } }).modCore core fun k => { k with granted := true })

/-- Event CLAIM_DEADLOCK (R70, R364, R367): each warp that waits at a `claim` raises CLAIMDL, unless it is to raise WDOG
(R344). -/
def execClaimDeadlock (core : Nat) (s : State) : Host.Outcome State Fault Refusal :=
  if (s.core core).deadlock < 4096 then .next s
  else
    let s := s.modCore core fun k => { k with deadlock := 0 }
    .next ((((s.residents core).filter fun e => !s.wdogDue e.1 e.2).filterMap fun e => match s.waitsAt e.1 e.2 with
      | some (.claim n) => some (e.1, { code := .claimdl, pos := e.2.waitPos, info := n.toNat, lanes := none, kind := 0 : Trap })
      | _ => none).foldl (fun s x => s.takeTrap x.1 x.2) s)

end Sys2Proof.Machine
end

