-- ==== Sys2Proof/Machine/Arrivals.lean ====
section
/-!
DEFINITION. What returns to a core: awaited values, acknowledgements, deposits, completed invalidations, evictions, and
the errors that poison what is on its way (R59, R62, R64, R67, R69, R77, R115, R117, R144, R145, R224, R361, R378).
-/

namespace Sys2Proof.Machine

/-! ### Requests -/

/-- The request entries of an identifier freed (R117). -/
def Core.freeReqs (k : Core) (id : Nat) : Core := { k with reqs := k.reqs.filter fun q => q.id != id }

/-- Whether a held effect carries an identifier. -/
def Held.hasId (id : Nat) : Held → Bool
  | .home i _ _ _ => i == id
  | .flushed i _ => i == id
  | _ => false

/-- Whether a warp still needs what an identifier names. -/
def Warp.needs (p : Warp) (id : Nat) : Bool :=
  p.marks.any (fun m => m.id == id)
    || (match p.run with
      | some r => r.pend.any (fun q => q.id == id) || r.held.any (Held.hasId id) || r.waitId == some id
      | none => false)

/-- Whether a core's identifier is still needed by one of its warps or by an access at a home. -/
def State.needed (s : State) (core id : Nat) : Bool :=
  (s.residents core).any (fun e => e.2.needs id) || s.dev.homeQ.any fun q => q.core == core && q.id == id

/-- Event ACKNOWLEDGEMENT_RETURN (R117): the entries of an access whose value nothing awaits are free. -/
def execAcknowledgementReturn (core id : Nat) (s : State) : Host.Outcome State Fault Refusal :=
  if s.needed core id then .next s else .next (s.modCore core fun k => k.freeReqs id)

/-! ### Awaited values -/

/-- A value that a run awaits arrives (R64, R224, R361). -/
def State.arriveInRun (s : State) (core : Nat) (w : WarpRef) (p : Warp) (q : Pend) : State :=
  let s := s.modCore core fun k => k.freeReqs q.id
  let at_ (code : Code) : Trap := { code := code, pos := q.pos, info := 0, lanes := none, kind := 0 }
  let v := (q.vals.head?.map (·.2)).getD 0#64
  let badSet := match q.dest with
    | .set _ => !(s.core core).kmakeOk core p.launch v
    | .win _ _ => false
  if q.poison then s.takeTrap w (at_ .poison)
  else if badSet then s.takeTrap w (at_ .setkind)
  else s.modRun w fun r =>
    Run.settle { r with pend := r.pend.map fun x => if x.id == q.id then { x with arrived := true } else x }

/-- A known value written into the register it marked (R62, R69, R361): lanes that are no longer live, and a register
that is gone, or that has gone and come again, discard it. -/
def Warp.receive (o : Warp) (live : Mask) (m : Mark) : Warp :=
  if 8 * o.g ≤ m.reg || m.lanes == 0#32 then o
  else if m.poison then { o with poisoned := o.poisoned ++ [m.reg] }
  else { o with
    regs := (m.lanes &&& live).toList.foldl (fun t j => Tab.set 0#64 t (32 * m.reg + j) (Tab.get 0#64 m.vals j)) o.regs }

/-- The known values of an identifier reach the registers of a warp, and their marks are removed (R62). -/
def State.arriveMarks (s : State) (core : Nat) (w : WarpRef) (p : Warp) (id : Nat) : State :=
  let mine := p.marks.filter fun m => m.id == id && m.known
  let s := mine.foldl (fun s m => s.modWarp (ownerRef w) fun o => o.receive p.live m) s
  (s.modWarp w fun p => { p with marks := p.marks.filter fun m => !(m.id == id && m.known) }).modCore core
    fun k => k.freeReqs id

/-- Event PENDING_VALUE_ARRIVAL (R62): a value arrives at a core, for a run in progress or for the registers that a
commit marked. -/
def execPendingValueArrival (core id : Nat) (s : State) : Host.Outcome State Fault Refusal :=
  let inRun (e : WarpRef × Warp) : Option (WarpRef × Warp × Pend) :=
    match e.2.run with
    | some r => (r.pend.find? fun q => q.id == id && !q.arrived).map fun q => (e.1, e.2, q)
    | none => none
  match (s.residents core).findSome? inRun with
  | some (w, p, q) => .next (s.arriveInRun core w p q)
  | none =>
    match (s.residents core).find? fun e => e.2.marks.any fun m => m.id == id && m.known with
    | some (w, p) => .next (s.arriveMarks core w p id)
    | none => .next s

/-! ### Deposits (R144, R145) -/

/-- Whether an earlier deposit of the same sender for the same target has not reached the core (R145). -/
def Core.depositBehind (k : Core) (d : Deposit) : Bool :=
  (k.deposits.takeWhile fun x => x.id != d.id).any fun x =>
    !x.arrived && x.sender == d.sender && x.slot == d.slot && x.launch == d.launch

/-- A deposit reaches its core: behind those that reached it before (R145). -/
def Core.depositArrives (k : Core) (d : Deposit) : Core :=
  { k with deposits := k.deposits.filter (fun x => x.id != d.id) ++ [{ d with arrived := true }] }

/-- A deposit's effect on its target (R144). -/
def Warp.takeDeposit (p : Warp) (d : Deposit) : Warp :=
  { p with
    regs := if d.reg < 8 * p.g then
        (d.vals.filter fun e => p.live.getLsbD e.1).foldl (fun t e => Tab.set 0#64 t (32 * d.reg + e.1) e.2) p.regs
      else p.regs
    ctr := listChange p.ctr d.ctr fun x => if x.1 == 0xFFFF#16 then (x.1, true) else (x.1 + 1, x.2) }

/-- Whether a warp marks a register. -/
def Warp.marks? (p : Warp) (reg : Nat) : Bool := p.marks.any fun m => m.reg == reg

/-- Whether a deposit's target can take it now: it stands at a run boundary, is not stopped for a preemption, and the
register carries no mark of it or of its handler `h`, which shares its registers (R67, R144, R186, R347). -/
def Warp.takesDeposit (p : Warp) (h : Option Warp) (d : Deposit) : Bool :=
  p.run.isNone && !p.stop && p.sched != .suspended && !p.marks? d.reg
    && !(match h with | some h => h.marks? d.reg | none => false)

/-- The deposit that reached a core first of those for a slot of a launch. -/
def Core.firstArrived (k : Core) (l slot : Nat) : Option Deposit :=
  k.deposits.find? fun d => d.arrived && d.slot == slot && d.launch == l

/-- Whether a deposit is to be made on the warp of a slot before it or its handler does anything more: it stands at a boundary
(R144). -/
def State.depositDue (s : State) (core slot : Nat) : Bool :=
  match s.warp? { core := core, slot := slot, hnd := false } with
  | none => false
  | some p =>
    match (s.core core).firstArrived p.launch slot with
    | some d => p.takesDeposit (Dict.find (s.core core).hnds slot) d
    | none => false

/-- Event DEPOSIT (R144): a remote register write reaches its core; there it takes effect on its target at once, or, in the
order of arrival, once the target can take it; or it is discarded. -/
def execDeposit (core id : Nat) (s : State) : Host.Outcome State Fault Refusal :=
  let k := s.core core
  match k.deposits.find? fun d => d.id == id with
  | none => .next s
  | some d =>
    if !d.arrived && k.depositBehind d then .next s
    else
      let s := if d.arrived then s else s.modCore core fun k => k.depositArrives d
      let gone (s : State) : State := s.modCore core fun k => { k with deposits := k.deposits.filter fun x => x.id != id }
      if s.suspended d.launch core then .next s
      else match Dict.find k.warps d.slot with
        | none => .next (gone s)
        | some p =>
          if p.launch != d.launch then .next (gone s)
          else if ((s.core core).firstArrived d.launch d.slot).map (·.id) != some id
              || !p.takesDeposit (Dict.find k.hnds d.slot) d then .next s
          else .next (gone ((s.modWarp { core := core, slot := d.slot, hnd := false } fun p => p.takeDeposit d).tellDeposit p d))

/-! ### Caches -/

/-- Event ICINV_COMPLETION (R77): the lines are invalid on every core in scope, and the warp may fetch again. -/
def execIcinvCompletion (w : WarpRef) (s : State) : Host.Outcome State Fault Refusal :=
  match s.warp? w, s.launchOf w with
  | some p, some l =>
    match p.icinv with
    | none => .next s
    | some (scope, base, len) =>
      let rs := s.codeRanges l.tenant base.toNat len.toNat (len.toNat / 65536 + 2)
      let hit (line : Nat) : Bool := rs.any fun r => r.1 < 16 * line + 16 && 16 * line < r.1 + r.2
      let s := (coresWithin w.core scope).foldl (fun s c =>
        s.modCore c fun k => { k with icache := k.icache.filter fun e => !hit e.1 }) s
      .next (s.modWarp w fun p => { p with icinv := none })
  | _, _ => .next s

/-- Event L1_EVICTION (R115): a sector's dirty bytes are written back and the sector is gone. -/
def execL1Eviction (core sector : Nat) (s : State) : Host.Outcome State Fault Refusal :=
  match Dict.find (s.core core).l1 sector with
  | none => .next s
  | some _ => .next (s.flushSector core sector)

/-! ### Errors (R361, R378) -/

/-- A warp's awaited values of an identifier poisoned. -/
def Warp.poison (p : Warp) (id : Nat) : Warp :=
  { p with
    marks := p.marks.map fun m => if m.id == id then { m with poison := true } else m
    run := p.run.map fun r => { r with pend := r.pend.map fun q => if q.id == id then { q with poison := true } else q } }

/-- What an identifier of a core names is poisoned: awaited values, and an engine command's data. -/
def State.poison (s : State) (core id : Nat) : State :=
  s.modCore core fun k => { k with
    warps := k.warps.map fun e => (e.1, e.2.poison id)
    hnds := k.hnds.map fun e => (e.1, e.2.poison id)
    engine := k.engine.map fun e => if e.id == id then { e with poison := true } else e }

/-- Event UNCORRECTABLE_DATA_ERROR (R361). -/
def execUncorrectableDataError (core id : Nat) (s : State) : Host.Outcome State Fault Refusal :=
  .next (s.poison core id)

/-- Whether the response of another node to a read has not come within 2,100,000 cycles (R378, R398). -/
def ReqEntry.late (q : ReqEntry) : Bool := q.remote && 2100000 ≤ q.age

/-- Whether an engine command has waited so long for another node. -/
def EngRec.late (e : EngRec) : Bool := !e.poison && 2100000 ≤ e.age

/-- Whether some value of a core is awaited under an identifier. -/
def Core.awaits (k : Core) (id : Nat) : Bool := (k.warps ++ k.hnds).any fun e => e.2.marks.any fun m => m.id == id && !m.known

/-- Whether an access to another node, queued at its home, has waited so long. One that returns nothing has no reader, and is
waited for until it is performed. -/
def State.lateRequest (s : State) (q : HomeReq) : Bool :=
  2100000 ≤ q.age && q.core < 144 && s.remotePa (32 * q.sector) && (s.core q.core).awaits q.id

/-- Whether a response of another node is overdue at a core. -/
def Core.lateResponse (k : Core) : Bool := k.reqs.any ReqEntry.late || k.engine.any EngRec.late

/-- A late read given up: its entry waits no longer for another node. -/
def Core.giveUp (k : Core) (id : Nat) : Core :=
  { k with reqs := k.reqs.map fun q => if q.id == id then { q with remote := false } else q }

/-- Event FABRIC_RESPONSE_TIMEOUT (R378): the reader of an access of another node gets poison, 2,100,000 cycles after it was
sent. An access still queued there goes on, and returns nothing. -/
def execFabricResponseTimeout (core id : Nat) (s : State) : Host.Outcome State Fault Refusal :=
  match s.dev.homeQ.find? fun q => q.core == core && q.id == id with
  | none =>
    let k := s.core core
    if (k.reqs.any fun q => q.id == id && q.late) || (k.engine.any fun e => e.id == id && e.late) then
      .next ((s.poison core id).modCore core fun k => k.giveUp id)
    else .next s
  | some q =>
    if !s.lateRequest q then .next s
    else match s.freshId core with
      | (new, s) =>
        let lost (x : HomeReq) : HomeReq := if x.core == core && x.id == id then { x with id := new, age := 0 } else x
        .next (((s.modDev fun d => { d with homeQ := d.homeQ.map lost }).notePerformed q 0#64 0#5).poison core id)

end Sys2Proof.Machine
end

