-- ==== Sys2Proof/Machine/Warps.lean ====
section
/-!
DEFINITION. The life of warps: creation, trap-handler warps, retirement (R10, R17, R18, R24, R25, R28, R213, R270, R302,
R313, R325, R333, R346, R347, R399).
-/

namespace Sys2Proof.Machine

/-! ### Launch warps -/

/-- The next launch warp of a core (R17, R399): its unit's stamp, its launch and its logical index. A launch that is being
ended, preempted or suspended creates none. -/
def State.nextUnit (s : State) (core : Nat) : Option (Nat × Launch × Nat) :=
  s.launches.foldl (fun b e =>
    match e.2.place? core with
    | none => b
    | some x =>
      match x.todo with
      | [] => b
      | (stamp, j, _) :: _ =>
        if e.2.cause.isSome || (s.core core).preempting e.1 || s.suspended e.1 core then b
        else match b with
          | none => some (stamp, e.2, j)
          | some y => if stamp < y.1 then some (stamp, e.2, j) else some y) none

/-- The number of lanes of a logical warp that hold a thread (R10). -/
def threadsOf (n j : Nat) : Nat := min 32 (n - 32 * j)

/-- A list of logical warps still to create, without the first. -/
def dropFirst (todo : List (Nat × Nat × Nat)) : List (Nat × Nat × Nat) :=
  match todo with
  | [] => []
  | (stamp, j, n) :: r => if j + 1 < n then (stamp, j + 1, n) :: r else r

/-- A launch's hold of the automaton array begins with its first warp on a core (R270). -/
def State.holdArray (s : State) (core : Nat) (l : Launch) : State :=
  if l.card.lause && (s.core core).auto.holder.isNone then
    s.modCore core fun k => { k with auto := Automaton.start (some l.id) }
  else s

/-- A warp of a launch as created (R18, R313, R325). -/
def Launch.newWarp (l : Launch) (stamp slot j : Nat) (payload : List Word) : Warp :=
  let n := threadsOf l.card.nthr j
  let p := Warp.fresh stamp l.id .ordinary j slot l.card.rg (lowLanes n)
    ((List.range n).map fun i => BitVec.ofNat 64 (32 * j + i)) l.card.entry
  let vals := if l.ams then payload else [l.card.arg]
  { p with regs := (vals.zipIdx).foldl (fun t e =>
      (List.range n).foldl (fun t i => Tab.set 0#64 t (32 * e.2 + i) e.1) t) [] }

/-- The group of an `ams` launch made in an entry (R325): its lanes join it, and k1 names it. The entry is taken in the order of
the cycle's reservations, by warp slot (R213). -/
def State.amsGroup (s : State) (core slot l e : Nat) : State :=
  let gen := match (s.core core).store[e]? with | some x => x.gen | none => 0#8
  let k := s.core core
  let k : Core := { k.keepSeen with acted := some (2 * slot), store := listChange k.store e fun x =>
    { x with holder := some l, bits := 0#2048, group := some (0, 0) } }
  let live := k.liveIn l slot
  let w : WarpRef := { core := core, slot := slot, hnd := false }
  (s.modCore core fun _ => k.joinGroup core e slot live).modWarp w fun p =>
    { p with k := Tab.set 0#64 p.k 1 (groupValue (groupId core e gen)), gmakes := 1 }

/-- Event WARP_CREATION (R17, R18, R313, R325, R399). -/
def execWarpCreation (core : Nat) (s : State) : Host.Outcome State Fault Refusal :=
  let k := s.core core
  match s.nextUnit core, s.pick (k.freeSlots 0 60) with
  | some (_, l, j), some q =>
    if !k.started || k.heldBack || (s.nextJob core).isSome || k.created
        || k.poolFree < l.card.rg * liveSlices (lowLanes (threadsOf l.card.nthr j)) || (l.ams && k.freeEntry.isNone)
        || (l.card.lause && k.auto.holder.isSome && k.auto.holder != some l.id) then
      .next s
    else
      let payload := ((k.amsJobs.find? fun x => x.1 == l.id).map (·.2)).getD []
      let s := (s.drawn.holdArray core l).addWarp core q (l.newWarp s.dev.nextStamp q j payload)
      let s := s.modLaunch l.id fun x => x.modPlace core fun p => { p with todo := dropFirst p.todo }
      let s := s.modCore core fun k => { k with amsJobs := k.amsJobs.filter fun x => x.1 != l.id }
      .next (match l.ams, k.freeEntry with
        | true, some e => s.amsGroup core q l.id e
        | _, _ => s)
  | _, _ => .next s

/-! ### Trap-handler warps (R346, R347) -/

/-- Event HANDLER_WARP_CREATION: the handler of the trap that the warp of a slot waits for. TRAPPC holds bits 56:4 of the
header's address (R349). A handler of LOGFULL has the lanes that were live as it was raised (DESIGN CHOICE,
log 74). -/
def execHandlerWarpCreation (core slot : Nat) (s : State) : Host.Outcome State Fault Refusal :=
  let k := s.core core
  match Dict.find k.warps slot with
  | none => .next s
  | some p =>
    match p.handlerDue with
    | some (t, e) =>
      let waits := t.code != .logfull && (p.marks != [] || p.sfq != [])
      if waits || k.created || p.stop || p.sched == .suspended || !s.goesOn p || (Dict.find k.hnds slot).isSome then .next s
      else
        let live := if t.code == .logfull then t.lanes.getD p.live else p.live
        let h := Warp.fresh s.dev.nextStamp p.launch .handler p.logical slot p.g live p.tids e
        let h : Warp :=
          { h with trap := some (t, trapAddr (if t.code == .logfull then t.addr else p.pc)), readyAt := some k.cyc.toNat }
        .next ((s.modCore core fun k => { k with hnds := Dict.put k.hnds slot h, created := true }).modDev fun d =>
          { d with nextStamp := d.nextStamp + 1 })
    | none => .next s

/-! ### Retirement (R24, R25) -/

/-- Whether a warp whose lanes have all exited can retire (R25). -/
def State.retires (s : State) (w : WarpRef) (p : Warp) : Bool :=
  !w.hnd && p.live == 0#32 && p.run.isNone && p.wait == .none && p.due.isNone && p.icinv.isNone && s.quiet w p

/-- The open applies of ARGK launches that a warp leaves by retiring: it is no member any more (R314). -/
def State.dropMembers (s : State) (w : WarpRef) (as : List OpenApply) : State :=
  as.foldl (fun s a => match a.argk with
    | some l => s.modLaunch l fun x =>
        { x with argkLeft := x.argkLeft.filter fun m => !(m.1 == w.core && m.2.1 == w.slot) }
    | none => s) s

/-- Event WARP_RETIREMENT (R24, R25, R213, R302, R333). -/
def execWarpRetirement (w : WarpRef) (s : State) : Host.Outcome State Fault Refusal :=
  match s.warp? w with
  | none => .next s
  | some p =>
    if !s.retires w p then .next s
    else
      let s := s.modCore w.core Core.keepSeen
      match p.kind with
      | .apply _ _ => .next (s.barmis (s.retireApply w) w)
      | .sweep hdl n slot sweep =>
        let s := s.retireHandler w.core p.launch p.merged hdl n slot sweep p.names
        .next (((s.dropTurns w.core p.applies).dropMembers w p.applies).modCore w.core fun k => k.freeSlotOf w.slot)
      | _ =>
        let s := ((s.passTurn w p).dropTurns w.core p.applies).dropMembers w p.applies
        .next (s.modCore w.core fun k => k.freeSlotOf w.slot)

end Sys2Proof.Machine
end

