-- ==== Sys2Proof/Machine/Cards.lean ====
section
/-!
DEFINITION. Job cards: their read and checks, the begin of a launch, the end actions of a card (R9, R253, R311, R312, R314–
R316, R324, R335, R371, R372, R374).
-/

namespace Sys2Proof.Machine

/-! ### The fields of a card and of a code header -/

/-- A field of the words of a card or a header. -/
def fieldOf (w : List Word) (i hi lo : Nat) : Nat := bitsOf (w.getD i 0#64) hi lo

/-- Whether a card breaks a condition of R312: a must-be-zero bit, a range, an alignment, or what ARGK forbids. -/
def cardBad (w : List Word) : Bool :=
  let f := fieldOf w
  f 0 63 57 != 0 || f 0 3 0 != 0 || f 1 63 57 != 0 || f 1 4 0 != 0
    || f 3 63 33 != 0 || 2 ^ 32 < f 3 32 0
    || f 4 63 40 != 0 || f 4 4 0 != 0 || f 4 39 21 % 32 != 0 || 393216 < f 4 39 21 || 60 < f 4 20 15 || 16 < f 4 14 10
    || 16 < f 4 9 5
    || f 6 63 57 != 0 || f 6 4 0 != 0 || f 7 7 0 != 0
    || f 8 47 32 != 0 || f 8 3 0 != 0 || 11 < f 8 15 12 || 8 < f 8 11 8 || f 8 5 4 == 3
    || f 9 6 0 != 0 || f 10 63 32 != 0 || f 10 22 17 != 0
    || f 11 63 57 != 0 || f 11 3 0 != 0 || f 12 63 57 != 0 || f 12 7 0 != 0
    || f 13 63 7 != 0 || 64 < f 13 6 0
    || (f 8 7 7 == 1 && (f 3 32 0 != 0 || f 8 63 48 != 0 || f 8 6 6 == 1))

/-- The shadow regions of a code header: offset and length (R372). -/
def headerShadows (h : List Word) : List (Nat × Nat) :=
  (List.range (fieldOf h 2 7 4)).map fun i => (fieldOf h (3 + i) 31 0, fieldOf h (3 + i) 63 32)

/-- Whether shadow regions break R253 for a near byte count. -/
def shadowsBad (near : Nat) (rs : List (Nat × Nat)) : Bool :=
  rs.any (fun r => r.1 % 32 != 0 || r.2 % 32 != 0 || r.2 < 32 || near < r.1 + r.2)
    || (rs.zipIdx).any fun a => (rs.zipIdx).any fun b => a.2 < b.2 && a.1.1 < b.1.1 + b.1.2 && b.1.1 < a.1.1 + a.1.2

/-- Whether a code header fails its card with PERM (R253, R312, R372). -/
def headerBad (near : Nat) (h : List Word) : Bool :=
  fieldOf h 2 63 8 != 0 || fieldOf h 2 3 2 != 0 || 8 < fieldOf h 2 7 4 || shadowsBad near (headerShadows h)

/-- Whether a card and its code header need a feature (R312, R372). -/
def needsFeature (w h : List Word) (i : Nat) : Bool :=
  (h.getD (i / 64) 0#64).getLsbD (i % 64) || (i == 9 && fieldOf h 2 1 1 == 1) || (i == 4 && fieldOf h 2 0 0 == 1)
    || (i == 6 && fieldOf w 8 6 6 == 1) || (i == 7 && fieldOf w 8 5 4 != 0)

/-- Whether DEVCAP holds a feature (R371). -/
def Device.hasFeature (d : Device) (i : Nat) : Bool :=
  if i < 64 then d.devcap0.getLsbD i else d.devcap1.getLsbD (i - 64)

/-- The lowest feature that a card needs and DEVCAP does not hold. -/
def State.missing (s : State) (w h : List Word) : Option Nat :=
  (List.range 128).find? fun i => needsFeature w h i && !s.dev.hasFeature i

/-- The held fields of a card (R311, R372). -/
def cardOf (addr : Nat) (w h : List Word) : Card :=
  let f := fieldOf w
  { addr := addr
    entry := w.getD 0 0#64
    hdr := w.getD 1 0#64
    arg := w.getD 2 0#64
    nthr := f 3 32 0
    near := f 4 39 21
    wpc := if f 4 20 15 = 0 then 60 else f 4 20 15
    tc := f 4 14 10
    rg := if f 4 9 5 = 0 then 8 else f 4 9 5
    seed := w.getD 5 0#64
    spbase := w.getD 6 0#64
    tvt := w.getD 7 0#64 &&& 0x01FFFFFFFFFFFFFF#64
    dbm := (w.getD 8 0#64).extractLsb' 48 16
    spn := f 8 31 16
    pri := f 8 15 12
    depth := f 8 11 8
    argk := f 8 7 7 == 1
    det := f 8 6 6 == 1
    mode := f 8 5 4
    succ := w.getD 9 0#64
    own := w.getD 11 0#64
    ownn := f 13 6 0
    seg := w.getD 12 0#64
    slog := f 12 11 8
    shadows := headerShadows h
    laswap := fieldOf h 2 1 1 == 1
    lause := fieldOf h 2 0 0 == 1 }

/-! ### The read (R312) -/

/-- Words of global memory as the device reads them at home. -/
def State.homeWords (s : State) (t : Nat) (va : Word) (n : Nat) : Except (Code × Word) (List Word) :=
  match s.homePages t va (8 * n) .read 2 with
  | .error e => .error e
  | .ok ps =>
    let bs := s.spanBytes ps
    .ok ((List.range n).map fun i => BitVec.ofNat 64 (bytesToNat ((bs.drop (8 * i)).take 8)))

/-- What the read of a card comes to: it waits for a walk; it fails with a cause, a detail and the successor that was
read; or the card is held. -/
inductive CardRead where
  | walk (a : Word)
  | fails (code : Code) (detail : Nat) (succ : Word)
  | held (x : Card)

/-- A card of a tenant read together with its code header (R312). -/
def State.readCard (s : State) (t addr : Nat) : CardRead :=
  match s.homeWords t (BitVec.ofNat 64 addr) 14 with
  | .error (.xlate, a) => .walk a
  | .error _ => .fails .perm 0 0#64
  | .ok w =>
    let succ := w.getD 9 0#64
    if cardBad w then .fails .perm 0 succ
    else match s.homeWords t (w.getD 1 0#64) 12 with
      | .error (.xlate, a) => .walk a
      | .error _ => .fails .perm 0 succ
      | .ok h =>
        if headerBad (fieldOf w 4 39 21) h then .fails .perm 0 succ
        else match s.missing w h with
          | some n => .fails .featmis n succ
          | none => .held (cardOf addr w h)

/-! ### End actions (R315, R316) -/

/-- A write of the device to bytes 0x40 to 0x7F of a card; one whose translation fails is skipped, with a fault record. -/
def State.cardWrite (s : State) (t : Nat) (card : Word) (f : State → Nat → State) : State :=
  match s.translateHome t (card + 0x40#64) .modify with
  | .error e => s.faultRecord t card 255 e 1 card.toNat
  | .ok pa => f s (pa - 0x40)

/-- The value of a card's STATUS (R315). -/
def statusWord (cause : Option Cause) : Word :=
  match cause with
  | none => 0#64
  | some c => BitVec.ofNat 64 (c.detail % 2 ^ 32 * 2 ^ 32 + c.code.num)

/-- REG cleared, then STATUS filled. -/
def State.endCard (s : State) (t : Nat) (card : Word) (cause : Option Cause) : State :=
  let s := s.cardWrite t card fun s pa => s.writeWord (pa + 0x50) (setBits (s.readWord (pa + 0x50)) 16 16 0)
  s.cardWrite t card fun s pa => (s.writeWord (pa + 0x70) (statusWord cause)).writeWord (pa + 0x78) 1#64

/-- What becomes of a card whose scheduling state is in error (R362): REG cleared, STATUS filled with POISON, a fault record
that names the card, vector 1 where the host posted it (R374). Its SUCC is not decremented. -/
def State.cardError (s : State) (t card kind : Nat) (host : Bool) : State :=
  let s := s.endCard t (BitVec.ofNat 64 card) (some { code := .poison, detail := 0 })
  let s := if host then s.modDev fun d => { d with vectors := d.vectors ++ [(t + 1, 1)] } else s
  s.faultRecord t (BitVec.ofNat 64 card) 255 .poison kind card

/-- The dependence count of a successor goes down (R316); an error in its DEP word is met here (R362). -/
def State.decrement (s : State) (t : Nat) (succ : Word) : State :=
  s.cardWrite t succ fun s pa =>
    let w50 := s.readWord (pa + 0x50)
    let dep := bitsOf w50 15 0
    if s.dev.depErrors.contains (t, succ.toNat) then
      (s.modDev fun d => { d with depErrors := d.depErrors.filter fun x => x != (t, succ.toNat) }).cardError t succ.toNat 1
        (s.hostPosted t succ.toNat)
    else if dep = 0 then s
    else
      let u := s.writeWord (pa + 0x50) (setBits w50 15 0 (dep - 1))
      let s := u.keepMarks (pa + 0x50) (s.readBytes (pa + 0x50) 8) (u.readBytes (pa + 0x50) 8)
      if dep = 1 && w50.getLsbD 16 then
        s.enqueueCard t succ.toNat (s.readWord (pa + 0x40)) (if w50.getLsbD 23 then none else some (bitsOf w50 31 24))
          (s.hostPosted t succ.toNat)
      else s

/-- The end actions of a card (R315); a card that the host posted sends vector 1 (R374). -/
def State.endActions (s : State) (t : Nat) (card : Nat) (cause : Option Cause) (succ : Word) (host : Bool) : State :=
  let s := s.endCard t (BitVec.ofNat 64 card) cause
  let s := if succ = 0#64 then s else s.decrement t succ
  if host then s.modDev fun d => { d with vectors := d.vectors ++ [(t + 1, 1)] } else s

/-- The successor named by a card that was taken and never read (R324). -/
def State.takenSucc (s : State) (t card : Nat) : Word :=
  match s.homeWords t (BitVec.ofNat 64 (card + 0x48)) 1 with
  | .ok w => w.getD 0 0#64
  | .error _ => 0#64

/-! ### The begin of a launch (R9, R317, R332, R335) -/

/-- The ranges of a launch's ownership table (R335): entries that cannot be read give none. -/
def State.readOwns (s : State) (t : Nat) (x : Card) : List (Nat × Nat) :=
  match s.homeWords t x.own (2 * x.ownn) with
  | .error _ => []
  | .ok w => (List.range x.ownn).map fun i => ((w.getD (2 * i) 0#64).toNat, (w.getD (2 * i + 1) 0#64).toNat)

/-- DETMODE at the begin of a launch (R332). -/
def detmodeOf (x : Card) : Word :=
  BitVec.ofNat 64 (bitsOf x.seg 56 12 * 4096 + x.slog * 256 + x.mode * 2 + (if x.det then 1 else 0))

/-- A launch as it begins. -/
def newLaunch (id tenant : Nat) (x : Card) (owns : List (Nat × Nat)) (depth : Nat) (ams host : Bool)
    (poster : Option Nat) (members : List (Nat × Nat × Mask)) : Launch where
  id := id
  tenant := tenant
  card := x
  depth := depth
  ams := ams
  host := host
  units := 0
  exited := 0
  places := []
  binds := []
  det := detmodeOf x
  detNext := none
  logPos := 0
  logBase := 0
  logWait := false
  logQueue := []
  carry := []
  owns := owns
  taken := []
  cause := none
  poster := poster
  argkLeft := members
  argkCores := dedup (members.map (·.1))
  ords := []
  records := []
  consumed := []
  base := []
  heard := []
  told := []
  ranged := []

/-- The device barriers of a launch given to it: PH := 0, no arrivals (R329). -/
def State.takeBarriers (s : State) (id : Nat) (dbm : BitVec 16) : State :=
  let give (b : DevBarrier × Nat) : DevBarrier :=
    if dbm.getLsbD b.2 then { launch := some id, ph := 0#32, arr := [] } else b.1
  s.modDev fun d => { d with dbars := (d.dbars.zipIdx).map give }

/-- A launch begins: its number, and the state with it. Before its events comes the post of its card (R201). -/
def State.beginLaunch (s : State) (tenant : Nat) (x : Card) (depth : Nat) (ams host : Bool) (poster : Option Nat)
    (members : List (Nat × Nat × Mask)) : Nat × State :=
  let id := s.dev.nextLaunch
  let l : Launch := { newLaunch id tenant x (if x.det then s.readOwns tenant x else []) depth ams host poster members with
    base := if ams then [] else s.postedIds tenant x.addr }
  (id, (({ s with launches := Dict.put s.launches id l }).modDev fun d => { d with nextLaunch := id + 1 }).takeBarriers id x.dbm)

end Sys2Proof.Machine
end

