-- ==== Sys2Proof/Machine/Ending.lean ====
section
/-!
DEFINITION. The end of a launch, and device barriers (R26–R28, R213, R214, R271, R305, R314, R315, R324, R330, R333, R336).
-/

namespace Sys2Proof.Machine

/-! ### Device flushes (R333) -/

/-- A held atomic and its core put in place in a list sorted by the keys of R333. -/
def insertHeldAt (a : Nat × HeldAtom) : List (Nat × HeldAtom) → List (Nat × HeldAtom)
  | [] => [a]
  | b :: r => if keyBefore a.2.key b.2.key then a :: b :: r else b :: insertHeldAt a r

/-- The held atomics of a launch on every core, in one sorted sequence. -/
def State.allHeld (s : State) (l : Nat) : List (Nat × HeldAtom) :=
  ((s.cores.zipIdx).flatMap fun c => (c.1.held.filter fun a => a.launch == l).map fun a => (c.2, a)).foldr insertHeldAt []

/-- The warp whose instruction issued a held atomic, where it is still resident (R337). -/
def State.issuerOf (s : State) (core : Nat) (a : HeldAtom) : Option WarpRef :=
  ((s.residents core).find? fun e => !e.1.hnd && e.2.launch == a.launch && e.2.logical == a.warp % 2 ^ 27).map (·.1)

/-- A held atomic of a core as the home access of its thread. -/
def State.heldEvent (s : State) (c l : Nat) (a : HeldAtom) : HomeReq :=
  let w := (s.issuerOf c a).getD { core := c, slot := 0, hnd := false }
  { id := 0, core := c, warp := w, stamp := match s.warp? w with | some p => p.stamp | none => 0, launch := l, sector := a.acc.pa / 32,
    round := 0, packet := none, tenant := 0, age := 0, ths := [32 * a.warp + a.lane], acc := .atom (32 * a.warp + a.lane) a.acc }

/-- Held atomics performed in order: whether all of them were, and the state after those that were. -/
def State.flushHeld (s : State) (l : Nat) : List (Nat × HeldAtom) → Bool × State
  | [] => (true, s)
  | (c, a) :: r =>
    match s.perform c l (s.issuerOf c a) (.atom (32 * a.warp + a.lane) a.acc) with
    | .done _ _ t =>
      ((s.tell (s.heldEvent c l a) t).modCore c fun k => { k with held := k.held.erase a }).flushHeld l r
    | .raised s => (false, s)
    | .wait => (false, s)

/-- Whether the device flush of a launch waits: a deposit that its threads have sent comes before their held atomics (R199). -/
def State.flushWaits (s : State) (l : Launch) : Bool :=
  l.isDet && (List.range 144).any fun c => s.launchDepositOut c l.id

/-- The device flush of a launch in deterministic mode. -/
def State.deviceFlush (s : State) (l : Launch) : Bool × State :=
  if s.flushWaits l then (false, s)
  else if l.isDet then s.flushHeld l.id (s.allHeld l.id) else (true, s)

/-- Event DEVICE_BARRIER_PHASE (R329, R330, R333): the open phase of a device barrier completes once every live thread of
its launch has arrived and the flush of deterministic mode is done. -/
def execDeviceBarrierPhase (j : Nat) (s : State) : Host.Outcome State Fault Refusal :=
  match s.dev.dbars[j]? with
  | none => .next s
  | some b =>
    match b.launch.bind s.launch? with
    | none => .next s
    | some l =>
      let live := l.card.nthr - l.exited
      if live = 0 || (b.arr.filter fun a => a.1 == b.ph).length < live || l.cause.isSome then .next s
      else match s.deviceFlush l with
        | (false, s) => .next s
        | (true, s) => .next (s.modDev fun d => { d with
            dbars := listChange d.dbars j fun b => { b with ph := b.ph + 1, arr := b.arr.filter fun a => a.1 != b.ph } })

/-! ### The steps of R26 -/

/-- Step 2: the cores where the launch ran write back what they hold; an ARGK launch runs on its members' cores (R314). -/
def State.writeBackLaunch (s : State) (l : Launch) : State :=
  (l.places.map (·.core) ++ l.argkCores).foldl State.writeBackAll s

/-- Step 3: every guard of the binding table is released once, as by `rel.dev`; one whose translation fails is left. -/
def State.releaseGuards (s : State) (l : Launch) : State :=
  (l.binds.map fun b => b.2.2).eraseDups.foldl (fun s g =>
    match s.translateHome l.tenant g .modify with
    | .error _ => s
    | .ok pa =>
      let s := l.places.foldl (fun s p => s.flushSector p.core (pa / 32)) s
      let t := s.writeWord pa (s.readWord pa + 1#64)
      t.syncTell l.id (.home pa) .device .rmw (s.readBytes pa 8) (t.readBytes pa 8)
        (dedup (l.base ++ l.heard.flatMap (·.2) ++ s.syncGets l.id (.home pa) .device (s.readBytes pa 8)))) s

/-- A core's set-store entries of a launch freed, groups dissolved with their barriers (R213, R22). -/
def Core.freeLaunch (k : Core) (c l : Nat) : Core :=
  (List.range 256).foldl (fun k e =>
    match k.store[e]? with
    | some x => if x.holder == some l then (if x.group.isSome then k.dissolve c e else k.freeStore e) else k
    | none => k) k

/-- What a core keeps for a launch gone (R26 step 4). -/
def Core.dropLaunch (k : Core) (c l : Nat) : Core :=
  let k := (k.warps.filter fun e => e.2.launch == l).foldl (fun k e => k.freeSlotOf e.1) k
  let k := k.freeLaunch c l
  { k with
    hnds := k.hnds.filter fun e => e.2.launch != l
    jobs := k.jobs.filter fun j => j.launch != l
    amsJobs := k.amsJobs.filter fun j => j.1 != l
    sessions := k.sessions.filter fun x => x.launch != l
    held := k.held.filter fun a => a.launch != l
    turn := Tab.drop k.turn l
    preempts := k.preempts.filter fun x => x.launch != l
    auto := if k.auto.holder == some l then { k.auto with holder := none } else k.auto }

/-- A core's part of step 4: subscriptions left as by `swleave`, then the rest. -/
def State.dropLaunchAt (s : State) (l c : Nat) : State :=
  let s := (List.range 128).foldl (fun s i => match s.subAt c i with
    | some u => if u.launch == l then s.leaveSub c i else s
    | none => s) s
  s.modCore c fun k => k.dropLaunch c l

/-- The launches and cores that PREEMPT writes named and that are still to be saved, without some; vector 2 for each write
whose last is gone (R376). -/
def State.preemptDone (s : State) (t : Nat) (gone : Nat × Nat → Bool) : State :=
  let left := (s.tenant t).preempting.map fun x => x.filter fun y => !gone y
  let s := s.modTenant t fun r => { r with preempting := left.filter fun x => x != [] }
  s.modDev fun d => { d with vectors := d.vectors ++ (left.filter fun x => x == []).map fun _ => (t + 1, 2) }

/-- Step 4 of R26: the launch's resources are released, all at once. -/
def State.releaseAll (s : State) (l : Launch) : State :=
  let s := (List.range 144).foldl (fun s c => s.dropLaunchAt l.id c) s
  let free (b : DevBarrier) : DevBarrier := if b.launch == some l.id then { b with launch := none, arr := [] } else b
  let s := s.modDev fun d => { d with
    dbars := d.dbars.map free
    saved := d.saved.filter fun x => x.launch != l.id
    homeQ := d.homeQ.filter fun q => !(q.core < 144 && q.launch == l.id)
    queue := d.queue.filter fun q => q.launch != some l.id }
  ({ s with launches := Tab.drop s.launches l.id }).preemptDone l.tenant fun x => x.1 == l.id

/-- Step 5: the end actions of the launch's card, then those of the cards it took (R315, R324). An `ams` launch performs
none of its own (R325). -/
def State.report (s : State) (l : Launch) (cause : Option Cause) : State :=
  let s := if l.ams then s else s.endActions l.tenant l.card.addr cause l.card.succ l.host
  l.taken.foldl (fun s x => s.endActions l.tenant x.1 cause (s.takenSucc l.tenant x.1) x.2) s

/-! ### The events -/

/-- Whether a launch has unfinished engine commands (R26 step 1), those of an ARGK launch's block among them (R314). -/
def State.enginesOf (s : State) (l : Nat) : Bool :=
  s.cores.any fun k => k.engine.any fun e => e.launch == l || e.argk == some l

/-- Whether a member of an ARGK launch has still to commit its `enda` (R314): one whose lanes are still live threads of the
posting launch, or that runs the block. -/
def State.memberLeft (s : State) (l : Launch) (m : Nat × Nat × Mask) : Bool :=
  let left (p : Warp) : Bool :=
    some p.launch == l.poster && (p.live &&& m.2.2 != 0#32 || p.applies.any fun a => a.argk == some l.id)
  ((Dict.find (s.core m.1).warps m.2.1).toList.any left)
    || s.dev.saved.any fun x => x.core == m.1 && (Dict.find x.warps m.2.1).toList.any left

/-- Whether a launch has nothing left to run but engine commands (R24, R28, R314). -/
def State.runsOut (s : State) (l : Launch) : Bool :=
  l.cause.isNone && !s.hasWarp l.id && l.places.all (fun p => p.todo == [])
    && !(s.dev.queue.any fun q => q.launch == some l.id)
    && !(s.dev.saved.any fun x => x.launch == l.id && (x.warps != [] || x.hnds != []))
    && !(l.argkLeft.any (s.memberLeft l))

/-- Whether a launch has nothing left at all (R26 step 1). -/
def State.endsNow (s : State) (l : Launch) : Bool := s.runsOut l && !s.enginesOf l.id

/-- Steps 2 to 5 of R26, once the end is recorded (R336, kind 15). -/
def State.finish (s : State) (l : Launch) : State :=
  (((s.writeBackLaunch l).releaseGuards l).releaseAll l).report l none

/-- The end of a launch that has nothing left to run. -/
def State.tryEnd (s : State) (l : Launch) : State :=
  match s.deviceFlush l with
  | (false, s) => s
  | (true, s) =>
    match s.decide l.id none 15 0#64 0#64 with
    | .wait => s
    | .raised s => s
    | .made s => s.finish l

/-- Event LAUNCH_END (R26, R333): the device flush comes before step 1, which waits for the engine commands. -/
def execLaunchEnd (l : Nat) (s : State) : Host.Outcome State Fault Refusal :=
  match s.launch? l with
  | none => .next s
  | some x =>
    if s.endsNow x then .next (s.tryEnd x) else if s.runsOut x then .next (s.deviceFlush x).2 else .next s

/-- Whether an access still queued for a launch can be performed now. -/
def State.canStillPerform (s : State) (l : Nat) : Bool :=
  s.dev.homeQ.any fun q => q.core < 144 && q.launch == l
    && (match s.perform q.core l (some q.warp) q.acc with | .done _ _ _ => true | _ => false)

/-- Whether a commit that has begun its effects can go on (R27: only runs that have not committed are discarded). -/
def State.canStillCommit (s : State) (l : Nat) : Bool :=
  (List.range 144).any fun c => (s.residents c).any fun e =>
    e.2.launch == l && e.2.committing && !stalls (execRunCommit e.1 { s with focus := some e.1, stall := false })

/-- Event LAUNCH_ABORT (R27, R333): the flush before step 1, then steps 1, 2, 4 and 5 of R26 for a launch that a fault or a
timeout ends. Its warps and their runs are gone. -/
def execLaunchAbort (l : Nat) (s : State) : Host.Outcome State Fault Refusal :=
  match s.launch? l with
  | none => .next s
  | some x =>
    match x.cause with
    | none => .next s
    | some c =>
      if s.canStillPerform l || s.canStillCommit l || s.flushWaits x then .next s
      else if s.enginesOf l then .next (s.deviceFlush x).2
      else .next ((((s.deviceFlush x).2.writeBackLaunch x).releaseAll x).report x (some c))

end Sys2Proof.Machine
end

