-- ==== Sys2Proof/Machine/Place.lean ====
section
/-!
DEFINITION. Queued cards read, units placed, ARGK members started, active messages started, and errors in scheduling state
(R312, R314, R317–R319, R325, R336, R360, R362).
-/

namespace Sys2Proof.Machine

/-! ### What fits a core (R317) -/

/-- The near bytes a launch takes on a core (R253). -/
def Card.nearLen (x : Card) : Nat := x.near + shadowSum x.shadows x.shadows.length

/-- The launches that hold a region and tiles on a core, with their places. -/
def State.placesOn (s : State) (c : Nat) : List (Launch × Place) :=
  s.launches.filterMap fun e => match e.2.place? c with
    | some p => if p.away then none else some (e.2, p)
    | none => none

/-- The lowest base, a multiple of 1,536, at which a core's slice has some free bytes (R125). -/
def State.freeBase (s : State) (c n : Nat) : Option Nat :=
  let taken := (s.placesOn c).map fun e => (e.2.base, e.1.card.nearLen)
  ((List.range 257).map (1536 * ·)).find? fun b =>
    b + n ≤ 393216 && taken.all fun t => n = 0 || t.2 = 0 || b + n ≤ t.1 || t.1 + t.2 ≤ b

/-- The tiles of a core that no launch holds (R254). -/
def State.freeTiles (s : State) (c : Nat) : List Nat :=
  (List.range 16).filter fun t => !((s.placesOn c).any fun e => e.2.tiles.contains t)

/-- Whether the array of a core is free for a launch, as yet to begin or begun (R270, R271). -/
def State.arrayFree (s : State) (c : Nat) (x : Card) (l : Option Nat) : Bool :=
  !x.lause || (((s.core c).auto.holder.isNone || (s.core c).auto.holder == l)
    && !(s.launches.any fun e => e.2.card.lause && some e.1 != l && (match e.2.place? c with
      | some p => !p.away || !e.2.card.laswap
      | none => false)))

/-- Whether the device barriers of a card are free or its launch's (R317). -/
def State.barriersFree (s : State) (x : Card) (l : Option Nat) : Bool :=
  (s.dev.dbars.zipIdx).all fun b => !x.dbm.getLsbD b.2 || b.1.launch.isNone || b.1.launch == l

/-- Whether a launch suspended on a core must be resumed before a unit of a level is placed there (R360). -/
def State.resumesFirst (s : State) (c level : Nat) : Bool :=
  s.dev.saved.any fun x => x.core == c && (match s.launch? x.launch with | some l => level ≤ l.card.pri | none => false)

/-- Whether a core can take units at all: it has started, is neither fenced nor drained, and ENABLE is set (R371, R383,
R386). -/
def State.takesUnits (s : State) (c : Nat) : Bool :=
  s.dev.enable && (s.core c).started && !(s.core c).fenced && !(s.core c).draining

/-- Whether the next unit of a card fits a core (R317, R355, R360). -/
def State.fits (s : State) (c : Nat) (x : Card) (l : Option Launch) : Bool :=
  let id := l.map fun l => l.id
  s.takesUnits c && (s.core c).freeSlots 0 60 != [] && 4 * x.rg ≤ (s.core c).poolFree
    && (match l.bind fun l => l.place? c with
      | some _ => !(match id with | some i => (s.core c).preempting i | none => false)
      | none => (s.freeBase c x.nearLen).isSome && x.tc ≤ (s.freeTiles c).length)
    && s.arrayFree c x id && s.barriersFree x id && !s.resumesFirst c x.pri

/-! ### Putting a unit on a core -/

/-- A launch's hold of a core as it begins there (R38, R254, R306). -/
def newPlace (c base : Nat) (x : Card) (tiles : List Nat) : Place where
  core := c
  base := base
  halves := List.replicate x.shadows.length false
  tiles := tiles
  wdoglim := 0x100200000#64
  wdogNext := none
  drops := 0#32
  chunks := []
  frozen := false
  away := false
  todo := []

/-- The launch's region and tiles on a core, taken where it holds none there; the tiles read +0 (R254), and every line tag of
the region is raw (R252). -/
def State.takePlace (s : State) (c id : Nat) (x : Card) : State :=
  match s.launch? id with
  | none => s
  | some l =>
    if (l.place? c).isSome then s
    else
      let ts := (s.freeTiles c).take x.tc
      let p := newPlace c ((s.freeBase c x.nearLen).getD 0) x ts
      (s.modLaunch id fun l => { l with places := l.places ++ [p] }).modCore c fun k =>
        { k.dropReads p.base x.nearLen with
          tiles := k.tiles.filter fun e => !ts.contains (e.1 / 4096)
          lineFmt := k.lineFmt.filter fun e => 32 * e.1 + 32 ≤ p.base || p.base + x.nearLen ≤ 32 * e.1 }

/-- The number of logical warps of a card, and of its units (R10, R317). -/
def Card.warps (x : Card) : Nat := (x.nthr + 31) / 32

def Card.units (x : Card) : Nat := (x.warps + x.wpc - 1) / x.wpc

/-- Unit `j` of a launch on a core: its warps are to be created (R17, R317). -/
def State.putUnit (s : State) (c id j : Nat) (x : Card) : State :=
  ((s.takePlace c id x).modLaunch id fun l =>
    { (l.modPlace c fun p => { p with todo := p.todo ++ [(s.dev.nextStamp, j * x.wpc, min ((j + 1) * x.wpc) x.warps)] }) with
      units := j + 1 }).modDev fun d => { d with nextStamp := d.nextStamp + 1 }

/-- A unit of a queued card placed on a core (R317, R336): the launch begins with the first, the card leaves its queue with
the last. -/
def State.placeUnit (s : State) (c : Nat) (q : QItem) (x : Card) : Decided :=
  let (id, s) : Nat × State := match q.launch with
    | some l => (l, s)
    | none =>
      let r := s.beginLaunch q.tenant x x.depth false q.host none []
      (r.1, r.2.modDev fun d => { d with
        queue := d.queue.map fun y => if y.id == q.id then { y with launch := some r.1 } else y })
  let j := match s.launch? id with | some l => l.units | none => 0
  match s.decide id none 3 (BitVec.ofNat 64 q.addr) (BitVec.ofNat 64 (c + 256 * j)) with
  | .wait => .wait
  | .raised s => .raised s
  | .made s =>
    let s := s.putUnit c id j x
    .made (if x.units ≤ j + 1 then s.modDev fun d => { d with queue := d.queue.filter fun y => y.id != q.id } else s)

/-! ### The queues (R318, R319) -/

/-- The head card of a queue (R317). -/
def State.headOf (s : State) (core : Option Nat) (tenant level : Nat) : Option QItem :=
  s.dev.queue.find? fun q => q.core == core && q.tenant == tenant && q.level == level

/-- Whether the next unit of a queued card fits a core; an ARGK card has none (R314). -/
def State.fitsItem (s : State) (c : Nat) (q : QItem) : Bool :=
  match q.card.filter fun x => !x.argk with
  | none => false
  | some x =>
    match q.launch with
    | none => s.fits c x none
    | some l => match s.launch? l with
      | some y => y.cause.isNone && s.fits c x (some y)
      | none => false

/-- The candidates of an any-queue unit: the first four cores from P that it fits (R319). -/
def State.placer (s : State) (q : QItem) : List Nat :=
  (((List.range 144).map fun i => (s.dev.placeP + i) % 144).filter fun c => s.fitsItem c q).take 4

/-- The card that a core serves of a tenant at a level (R318). -/
def State.servesOf (s : State) (c level tenant : Nat) : Option QItem :=
  let own := (s.headOf (some c) tenant level).filter fun q => s.fitsItem c q
  let any_ := (s.headOf none tenant level).filter fun q => (s.placer q).contains c
  if Tab.get 0 (s.core c).rrAny (16 * level + tenant) = 1 then any_ <|> own else own <|> any_

/-- The card that a core serves at its next decision (R318). -/
def State.serves (s : State) (c : Nat) : Option QItem :=
  (List.range 12).reverse.findSome? fun level =>
    ((List.range 16).map fun i => (Tab.get 0 (s.core c).rrTenant level + i) % 16).findSome? (s.servesOf c level)

/-- The round robins of a core after it took a unit (R318). -/
def State.tookUnit (s : State) (c : Nat) (q : QItem) : State :=
  s.modCore c fun k => { k with
    placed := true
    rrTenant := Tab.set 0 k.rrTenant q.level ((q.tenant + 1) % 16)
    rrAny := Tab.set 0 k.rrAny (16 * q.level + q.tenant) (if q.core.isSome then 1 else 0) }

/-- Event UNIT_PLACEMENT (R318): a core places a unit of one of its core queues. -/
def execUnitPlacement (core : Nat) (s : State) : Host.Outcome State Fault Refusal :=
  match s.serves core with
  | none => .next s
  | some q =>
    match q.card with
    | none => .next s
    | some x =>
      if (s.core core).placed || q.core != some core then .next s
      else match s.placeUnit core q x with
        | .wait => .next s
        | .raised s => .next s
        | .made s => .next (s.tookUnit core q)

/-- The core that the placer chooses (R319): the first candidate in deterministic mode; else the first whose pass count is
4; else one that the policy names. -/
def State.chosen (s : State) (x : Card) (cs : List Nat) : Option Nat :=
  if x.det then cs.head?
  else match cs.find? fun c => 4 ≤ (s.core c).passes with
    | some c => some c
    | none => if cs = [] then none else cs[s.drawNat cs.length |>.1]?

/-- The pass counts after a choice (R319). -/
def State.countPasses (s : State) (cs : List Nat) (c : Nat) : State :=
  cs.foldl (fun s o => s.modCore o fun k => { k with passes := if o = c then 0 else k.passes + 1 }) s

/-- Event ANY_QUEUE_PLACEMENT (R318, R319): the placer places a unit of the any-queue card at an index of the queue. -/
def execAnyQueuePlacement (pick : Nat) (s : State) : Host.Outcome State Fault Refusal :=
  match s.dev.queue[pick]? with
  | none => .next s
  | some q =>
    match q.card with
    | none => .next s
    | some x =>
      let cs := s.placer q
      let t : State := { s with oracle := s.oracle + 1 }
      match s.chosen x cs with
      | none => .next t
      | some c =>
        if q.core.isSome || s.dev.anyPlaced || (s.core c).placed || (s.serves c).map (·.id) != some q.id then .next t
        else match t.placeUnit c q x with
          | .wait => .next t
          | .raised s => .next s
          | .made s => .next (((s.tookUnit c q).countPasses cs c).modDev fun d =>
              { d with anyPlaced := true, placeP := (c + 1) % 144 })

/-! ### The read of a head card (R312, R314) -/

/-- Whether a queued card is the head of its queue. -/
def State.isHead (s : State) (q : QItem) : Bool := (s.headOf q.core q.tenant q.level).map (·.id) == some q.id

/-- A queued card changed, or gone. -/
def State.modItem (s : State) (id : Nat) (f : QItem → QItem) : State :=
  s.modDev fun d => { d with queue := d.queue.map fun y => if y.id == id then f y else y }

def State.dropItem (s : State) (id : Nat) : State :=
  s.modDev fun d => { d with queue := d.queue.filter fun y => y.id != id }

/-- A record for a walk that a card's read met; the card waits (R312). `core` is the core that reads it, for an active message
(R325), else 255 (R375). -/
def State.cardWalk (s : State) (core t card : Nat) (a : Word) : State := s.xlateRecord t a core 0 card

/-- Whether a fault that a read waits for is still unresolved. -/
def State.stillFaults (s : State) (t : Nat) (fault : Option Nat) : Bool :=
  match fault with
  | some p => (s.tenant t).unresolved.any fun u => u.2.1 == p && u.2.2 == 0
  | none => false

/-- The live lanes of a launch's warp of a slot, resident or saved (R314, R359). -/
def State.liveThreads (s : State) (l core slot : Nat) : Mask :=
  (s.dev.saved.filter fun x => x.core == core && x.launch == l).foldl (fun m x => match Dict.find x.warps slot with
    | some p => m ||| p.live
    | none => m) ((s.core core).liveIn l slot)

/-- The members of an ARGK card (R314): those of its memory value that are live threads of the posting launch. -/
def State.argkMembers (s : State) (t : Nat) (x : Card) (poster : Option Nat) : Except (Code × Word) Members :=
  if !setWellFormed x.arg || setKind x.arg != 3 then .error (.setkind, 0#64)
  else
    let a := x.arg &&& 0x01FFFFFFFFFFFFE0#64
    match s.homePages t a 32 .read 2 with
    | .error e => .error e
    | .ok h =>
      match s.homePages t a (32 + 8 * setCap (s.objWord (h.map (·.1)) 8)) .read 6 with
      | .error e => .error e
      | .ok ps =>
        .ok (((s.objMembers (ps.map (·.1))).map fun e =>
          (e.1, e.2.1, e.2.2 &&& (match poster with | some l => s.liveThreads l e.1 e.2.1 | none => 0#32))).filter
            fun e => e.2.2 != 0#32)

/-- The subscriptions that happen before the read of an ARGK card's set object, which comes before its launch (R194, R201). -/
def State.argkReads (s : State) (t : Nat) (x : Card) (l : Nat) : List Nat :=
  match s.translateHome t (x.arg &&& 0x01FFFFFFFFFFFFE0#64) .read with
  | .ok pa => s.syncGets l (.home pa) .device (s.readBytes pa 32)
  | .error _ => []

/-- The launch that posted a card. -/
def State.posterOf (s : State) (t card : Nat) : Option Nat :=
  match Dict.find s.dev.posters (2 ^ 57 * t + card) with
  | some (n + 1) => some n
  | _ => none

/-- A queued card that fails: its end actions are performed with the cause (R312). -/
def State.failItem (s : State) (q : QItem) (code : Code) (detail : Nat) (succ : Word) : State :=
  (s.dropItem q.id).endActions q.tenant q.addr (some { code := code, detail := detail }) succ q.host

/-- A head card that holds: it begins and ends, it starts its members, or it waits for the placement of its units. An ARGK card
whose memory value meets a walk waits with its fields held, and takes no second read. -/
def State.heldItem (s : State) (q : QItem) (x : Card) : State :=
  if x.argk then
    let poster := s.posterOf q.tenant q.addr
    match s.argkMembers q.tenant x poster with
    | .error (.xlate, a) =>
      (s.cardWalk 255 q.tenant q.addr a).modItem q.id fun y => { y with card := some x, fault := some (a.toNat / 65536) }
    | .error (e, _) => s.failItem q e 0 x.succ
    | .ok ms =>
      let r := (s.dropItem q.id).beginLaunch q.tenant x x.depth false q.host poster ms
      let got := s.argkReads q.tenant x r.1
      if got = [] then r.2 else r.2.modLaunch r.1 fun y => { y with base := dedup (y.base ++ got) }
  else if x.nthr = 0 then
    let r := (s.dropItem q.id).beginLaunch q.tenant { x with dbm := 0#16 } x.depth false q.host none []
    match r.2.launch? r.1 with
    | some l => r.2.tryEnd l
    | none => r.2
  else s.modItem q.id fun y => { y with card := some x, fault := none }

/-- Event CARD_READ (R312): the head card at an index of the queue is read; or the memory value of an ARGK card that was read,
where a walk of it met V = 0. -/
def execCardRead (idx : Nat) (s : State) : Host.Outcome State Fault Refusal :=
  match s.dev.queue[idx]? with
  | none => .next s
  | some q =>
    if !s.isHead q || s.stillFaults q.tenant q.fault then .next s
    else match q.card with
      | some x => .next (if x.argk then s.heldItem q x else s)
      | none =>
        match s.readCard q.tenant q.addr with
        | .walk a =>
          .next ((s.cardWalk 255 q.tenant q.addr a).modItem q.id fun y => { y with fault := some (a.toNat / 65536) })
        | .fails code n succ => .next (s.failItem q code n succ)
        | .held x => .next (s.heldItem q x)

/-- The members of an ARGK launch that a warp has still to take, which it does at a run boundary (R314). -/
def Launch.takenBy (x : Launch) (w : WarpRef) (p : Warp) : Option (Nat × Nat × Mask) :=
  if w.hnd || some p.launch != x.poster || p.applies.any (fun a => a.argk == some x.id) then none
  else if p.run.isSome || p.wait != .none || p.due.isSome || p.stop || p.sched == .suspended then none
  else x.argkLeft.find? fun m => m.1 == w.core && m.2.1 == w.slot

/-- Whether a warp is to take an ARGK launch before it does anything more (R314). -/
def State.argkDue (s : State) (w : WarpRef) (p : Warp) : Bool := s.launches.any fun e => (e.2.takenBy w p).isSome

/-- Event ARGK_MEMBER_START (R233, R314): a member warp at a run boundary takes the launch. Members that have exited since
are dropped. -/
def execArgkMemberStart (l : Nat) (w : WarpRef) (s : State) : Host.Outcome State Fault Refusal :=
  match s.launch? l, s.warp? w with
  | some x, some p =>
    match x.takenBy w p with
    | none => .next s
    | some m =>
      if m.2.2 &&& p.live = 0#32 then
        .next (s.modLaunch l fun x => { x with argkLeft := x.argkLeft.filter fun y => y != m })
      else
        let s := (s.enterBlock w x.card.entry p.pc m.2.2 none (some l)).modWarp w fun p => { p with claim := none }
        .next (if x.base = [] then s
          else (s.hears p.launch ((m.2.2 &&& p.live).toList.map fun j => p.names.getD j 0) x.base).2)
  | _, _ => .next s

/-! ### Active messages (R325) -/

/-- An active message starts its launch: one warp on the core, to be created. -/
def State.startMessage (s : State) (core : Nat) (m : Message) (x : Card) : State :=
  let r := s.beginLaunch m.tenant x m.depth true false none []
  ((r.2.modLaunch r.1 fun y => { y with base := m.heard }).putUnit core r.1 0 x).modCore core fun k =>
    { k with messages := k.messages.drop 1, amsJobs := k.amsJobs ++ [(r.1, m.payload)] }

/-- A message of a core discarded, with a fault record (R325; its fields: log 18). -/
def State.discardMessage (s : State) (core i : Nat) (m : Message) (code : Code) : State :=
  (s.modCore core fun k => { k with messages := k.messages.eraseIdx i }).faultRecord m.tenant (BitVec.ofNat 64 m.card) core code 0
    m.card

/-- The read of the card of the `i`-th message of a core at its arrival (R312, R325): its fields are held, a walk is waited for,
or the message is discarded; so is one whose card fails R312 in another way (DEDUCED, log 73). -/
def State.readMessage (s : State) (core i : Nat) (m : Message) : State :=
  match s.readCard m.tenant m.card with
  | .walk a =>
    (s.cardWalk core m.tenant m.card a).modCore core fun k =>
      { k with messages := k.messages.set i { m with fault := some (a.toNat / 65536) } }
  | .fails code _ _ => s.discardMessage core i m code
  | .held x =>
    if x.nthr = 0 || 32 < x.nthr || x.argk then s.discardMessage core i m .perm
    else s.modCore core fun k => { k with messages := k.messages.set i { m with fault := none, held := some x } }

/-- The first message of a core whose card is still to be read and waits for no walk, with its place in the queue. -/
def State.unreadMessage (s : State) (core : Nat) : Option (Message × Nat) :=
  (s.core core).messages.zipIdx.find? fun e => e.1.held.isNone && !s.stillFaults e.1.tenant e.1.fault

/-- Event AMS_ARRIVAL (R312, R325): the card of a message that has arrived at a core is read; where none is left to read, the
oldest message starts, once its unit fits. -/
def execAmsArrival (core : Nat) (s : State) : Host.Outcome State Fault Refusal :=
  match s.unreadMessage core with
  | some (m, i) => .next (s.readMessage core i m)
  | none =>
    match (s.core core).messages with
    | [] => .next s
    | m :: _ =>
      match m.held with
      | some x => .next (if s.fits core x none then s.startMessage core m x else s)
      | none => .next s

/-! ### Errors in scheduling state (R362) -/

/-- Event SCHEDULING_STATE_ERROR (R362): an error in a queue entry; or one in the DEP word of a card that is in no queue, which
its next decrement meets (R316). -/
def execSchedulingStateError (tenant card : Nat) (s : State) : Host.Outcome State Fault Refusal :=
  let cause : Cause := { code := .poison, detail := 0 }
  match s.dev.queue.find? fun q => q.tenant == tenant && q.addr == card with
  | some q =>
    let s := s.dropItem q.id
    match q.launch with
    | none => .next (s.cardError tenant card 0 q.host)
    | some l =>
      .next (((s.endLaunch l 144 cause).modLaunch l fun x => { x with card := { x.card with succ := 0#64 } }).faultRecord tenant
        (BitVec.ofNat 64 card) 255 .poison 0 card)
  | none => .next (s.modDev fun d => { d with depErrors := d.depErrors ++ [(tenant, card)] })

end Sys2Proof.Machine
end

