-- ==== Sys2Proof/Machine/Preempt.lean ====
section
/-!
DEFINITION. Preemption, context save and resumption (R253, R271, R355–R360, R373, R376, R383, R384, R386).
-/

namespace Sys2Proof.Machine

/-! ### Requests (R355) -/

/-- A preemption of a launch on a core, unless one is under way. -/
def State.preempt (s : State) (core l : Nat) : State :=
  s.modCore core fun k => if k.preempting l then k else { k with preempts := k.preempts ++ [{ launch := l, age := 0 }] }

/-- The state as it would be with a launch's warps, region and tiles on a core free. -/
def State.without (s : State) (core l : Nat) : State :=
  (s.modCore core fun k => { k with warps := k.warps.filter fun e => e.2.launch != l }).modLaunch l fun x =>
    { x with places := x.places.filter fun p => p.core != core }

/-- Whether a core would get the next unit of a queued card as things stand: it fits, and one of an any queue counts only for its
candidates (R317–R319). -/
def State.wouldGet (s : State) (core : Nat) (q : QItem) : Bool :=
  match q.core with
  | some c => c == core && s.fitsItem core q
  | none => (s.placer q).contains core

/-- Whether a head card of a higher level could be placed on a core only if a launch were gone from it, and no launch of a
lower level runs there (R318, R355). -/
def State.mustYield (s : State) (core : Nat) (l : Launch) : Bool :=
  !((s.placesOn core).any fun e => e.1.card.pri < l.card.pri)
    && s.dev.queue.any fun q => s.isHead q && l.card.pri < q.level
      && !s.fitsItem core q && (s.without core l.id).wouldGet core q

/-- Whether a launch runs on a core and may be preempted there. -/
def Launch.preemptible (l : Launch) (core : Nat) : Bool :=
  l.cause.isNone && (match l.place? core with | some p => !p.away | none => false)

/-- Event PREEMPTION_REQUEST (R355): a core preempts a launch for a head card of a higher level. -/
def execPreemptionRequest (core l : Nat) (s : State) : Host.Outcome State Fault Refusal :=
  match s.launch? l with
  | none => .next s
  | some x =>
    if x.preemptible core && !(s.core core).preempting l && s.mustYield core x then .next (s.preempt core l)
    else .next s

/-- Launches of a tenant preempted on some cores by the host (R355, R373, R376). A write that names no launch is done at
once, and sends vector 2. -/
def State.preemptTenant (s : State) (t : Nat) (cores : List Nat) : State :=
  let named := s.launches.flatMap fun e =>
    if e.2.tenant == t then (cores.filter fun c => e.2.preemptible c).map fun c => (e.1, c) else []
  let s := named.foldl (fun s x => s.preempt x.2 x.1) s
  if named == [] then s.modDev fun d => { d with vectors := d.vectors ++ [(t + 1, 2)] }
  else s.modTenant t fun r => { r with preempting := r.preempting ++ [named] }

/-! ### Stopping (R356) -/

/-- Whether a warp stands at an eligible point (R356). -/
def Warp.eligible (p : Warp) : Bool :=
  match p.region, p.run, p.wait with
  | some _, some r, _ => r.commit.isNone
  | some _, none, _ => true
  | none, none, .session _ => true
  | none, none, _ => p.tiles == 0#16 || p.ppoint.isSome
  | none, some _, _ => false

/-- A warp stopped (R355–R357): inside an idempotent region it will restart at the region's entry, and what it waits for
there is gone, but for its trap handler and a trap held over (R346, R353, R360). One that still waits at the session at which its
region began stands at the entry. -/
def Warp.halt (p : Warp) : Warp :=
  let p := match p.region with
    | some (some entry, _, _) =>
      { p.discard with pc := entry, later := p.later, wait := match p.wait with
          | .handler t e => .handler t e
          | _ => .none }
    | _ => p
  { p with
    sched := .suspended, stop := true, claim := none, readyAt := none, fetched := none
    ppoint := if p.tiles = 0#16 then none else p.ppoint }

/-- The handler of a stopped warp: where the trap stood at the warp's header, it will return to the header at which the warp
restarts (log 63). -/
def Warp.returnsTo (h : Warp) (old new : Word) : Warp :=
  { h with trap := h.trap.map fun t => (t.1, if t.2 = old then new else t.2) }

/-- A warp that restarts at its region's entry has left the session of applies at which it waited: it arrives there again, and
has no turn to come (DESIGN CHOICE, log 76). -/
def State.leaveSession (s : State) (w : WarpRef) (p : Warp) : State :=
  match p.region, p.wait with
  | some (some _, _, _), .session i => s.modSession w.core i fun x =>
      { x with arrived := x.arrived.filter fun e => e.1 != sessionKey w, turns := x.turns.filter fun q => q != sessionKey w }
  | _, _ => s

/-- A warp stopped, with its decisions that waited for a record, and its handler. One that waits at a `bwt` stays known there
until it is resumed (R22). -/
def State.haltWarp (s : State) (w : WarpRef) (p : Warp) : State :=
  let at_ := if p.region.isSome then none else s.waitsOn w p
  let s := ((s.leaveSession w p).modWarp w fun p => { p.halt with stoppedAt := at_ }).modLaunch p.launch fun x => x.forget w
  if w.hnd then s else s.modWarp { w with hnd := true } fun h => h.returnsTo p.pc p.halt.pc

/-- Event WARP_STOP (R355, R356, R358): a warp of a preempted launch stops at an eligible point, within 2,097,152 cycles. -/
def execWarpStop (w : WarpRef) (s : State) : Host.Outcome State Fault Refusal :=
  match s.warp? w with
  | none => .next s
  | some p =>
    if p.stop || !p.eligible || !((s.core w.core).preempts.any fun x => x.launch == p.launch && x.age < 2097152) then .next s
    else .next (s.haltWarp w p)

/-- Whether every warp of a launch on a core has stopped. -/
def State.allStopped (s : State) (core l : Nat) : Bool := (s.residents core).all fun e => e.2.launch != l || e.2.stop

/-- A preemption of a core given up. -/
def Core.dropPreempt (k : Core) (l : Nat) : Core := { k with preempts := k.preempts.filter fun x => x.launch != l }

/-- The end of a launch by PTIME, with the record that names its card and the core (R358, R376). -/
def State.endByTime (s : State) (core : Nat) (l : Launch) : State :=
  ((s.endLaunch l.id 144 { code := .ptime, detail := core }).modCore core fun k => k.dropPreempt l.id).faultRecord l.tenant
    (BitVec.ofNat 64 l.card.addr) core .ptime 0 l.card.addr

/-- Event PTIME_EXPIRY (R358): some warp has not stopped within 2,097,152 cycles of the request. -/
def execPtimeExpiry (core l : Nat) (s : State) : Host.Outcome State Fault Refusal :=
  match s.launch? l, (s.core core).preempts.find? fun x => x.launch == l with
  | some x, some e => if e.age < 2097152 || s.allStopped core l then .next s else .next (s.endByTime core x)
  | _, _ => .next s

/-! ### Saving (R359) -/

/-- Whether a launch's work on a core is drained: no tag, token or engine command of it there, no deposit of its warps on its way, and no command of another
core that reaches its region there. -/
def State.drained (s : State) (core l : Nat) : Bool :=
  (s.residents core).all (fun e => e.2.launch != l || (e.2.marks == [] && e.2.sfq == []))
    && !(s.cores.any fun k => k.deposits.any fun d => !d.arrived && d.launch == l && d.sender.1 == core)
    && !((s.cores.zipIdx).any fun k => k.1.engine.any fun e =>
      e.launch == l && (k.2 == core || e.ranges.any fun r => r.core == core))

/-- The union of the MASKs recorded for the warps that stopped with live tiles. -/
def tileUnion (ps : List Warp) : BitVec 16 := ps.foldl (fun m p => if p.tiles = 0#16 then m else m ||| p.ppoint.getD 0#16) 0#16

/-- A warp as it is saved. -/
def Warp.saved (u : BitVec 16) (p : Warp) : Warp := { p with tiles := p.tiles &&& u, ppoint := none }

/-- The bytes of the idempotent ranges of stopped warps cleared, with a raw tag. -/
def State.clearRegions (s : State) (core : Nat) (l : Launch) (ps : List Warp) : State :=
  (ps.filterMap fun p => p.region).foldl (fun s r =>
    (s.nearWrites l core r.2.1 false (List.replicate r.2.2 0#8)).setTags l core r.2.1 r.2.2 false 0) s

/-- The set-store entries of a launch on a core, by number. -/
def Core.entriesOf (k : Core) (l : Nat) : List (Nat × SetEntry) :=
  (k.store.zipIdx).filterMap fun e => if e.1.holder == some l then some (e.2, e.1) else none

/-- The named barriers bound to groups of a launch on a core, by number. -/
def Core.barriersOf (k : Core) (c l : Nat) : List (Nat × Barrier) :=
  (k.barriers.zipIdx).filterMap fun b => if (k.boundTo c l b.2).isSome then some (b.2, b.1) else none

/-- A launch on a core as saved, and the core without it (R271, R359). The entries it holds in the set store stay its own, with
their generations, and the barriers bound to its groups stay bound: a save frees none of them (R213, R326). -/
def State.saveLaunch (s : State) (core : Nat) (l : Launch) (p : Place) (size : Nat) : State :=
  let k := s.core core
  let mine (e : Nat × Warp) : Bool := e.2.launch == l.id
  let u := tileUnion (((k.warps ++ k.hnds).filter mine).map (·.2))
  let s := s.clearRegions core l (((k.warps ++ k.hnds).filter mine).map (·.2))
  let k := s.core core
  let len := l.card.nearLen
  let tiles := (p.tiles.zipIdx).flatMap fun t =>
    if u.getLsbD t.2 then (k.tiles.filter fun e => e.1 / 4096 == t.1).map fun e => (4096 * t.2 + e.1 % 4096, e.2) else []
  let own := l.card.laswap && k.auto.holder == some l.id
  let x : SavedLaunch :=
    { core := core, launch := l.id
      warps := (k.warps.filter mine).map fun e => (e.1, e.2.saved u)
      hnds := (k.hnds.filter mine).map fun e => (e.1, e.2.saved u)
      near := (k.near.filter fun e => p.base ≤ e.1 && e.1 < p.base + len).map fun e => (e.1 - p.base, e.2)
      lineFmt := (k.lineFmt.filter fun e => p.base / 32 ≤ e.1 && e.1 < (p.base + len) / 32).map fun e => (e.1 - p.base / 32, e.2)
      tiles := Tab.setAll 0#32 [] tiles
      sessions := k.sessions.filter fun y => y.launch == l.id
      auto := if own then some k.auto else none
      store := k.entriesOf l.id
      barriers := k.barriersOf core l.id
      size := size }
  let s := s.modCore core fun k => { (k.dropPreempt l.id) with
    warps := k.warps.filter fun e => !mine e
    hnds := k.hnds.filter fun e => !mine e
    sessions := k.sessions.filter fun y => y.launch != l.id
    store := k.store.map fun e =>
      if e.holder == some l.id then { e with bits := 0#2048 } else e
    auto := if own then { k.auto with holder := none } else k.auto }
  let s := s.modLaunch l.id fun y => y.modPlace core fun p => { p with away := true }
  (s.modDev fun d => { d with saved := d.saved ++ [x] }).preemptDone l.tenant fun y => y == (l.id, core)

/-- The bytes that the saved launches of a tenant take (R376). -/
def State.savedBytes (s : State) (t : Nat) : Nat :=
  s.dev.saved.foldl (fun n x => match s.launch? x.launch with | some l => if l.tenant == t then n + x.size else n | none => n) 0

/-- What a save stores in the context save area of its tenant (R359, R376): free bytes at free places of the area. -/
def State.writeSaveArea (s : State) (t : Nat) : State :=
  let r := s.tenant t
  ((Config.saveImage s.oracle).filter fun e => e.1 < r.ctxsize.toNat).foldl
    (fun s e => s.writeByte (r.ctxbase.toNat + e.1) e.2) { s with oracle := s.oracle + 1 }

/-- Event CONTEXT_SAVE (R359, R376): a launch whose warps have stopped, and whose work is drained, is saved; a save that
does not fit ends it. -/
def execContextSave (core l : Nat) (s : State) : Host.Outcome State Fault Refusal :=
  match s.launch? l with
  | none => .next s
  | some x =>
    match x.place? core with
    | none => .next s
    | some p =>
      if !(s.core core).preempting l || p.away || x.cause.isSome || !s.allStopped core l || !s.drained core l then .next s
      else
        let size := Config.freeNat s.oracle + 1
        let s : State := { s with oracle := s.oracle + 1 }
        if (s.tenant x.tenant).ctxsize.toNat < s.savedBytes x.tenant + size then .next (s.endByTime core x)
        else .next (((s.flushAll core).saveLaunch core x p size).writeSaveArea x.tenant)

/-! ### Resumption (R360) -/

/-- A warp as it is resumed at a cycle. -/
def Warp.resumed (now : Nat) (p : Warp) : Warp :=
  { p with sched := .pending, stop := false, stoppedAt := none, wdog := 0, readyAt := none, issued := false, lastIssue := now }

/-- The slice-groups that saved warps take (R66). -/
def SavedLaunch.need (x : SavedLaunch) : Nat := x.warps.foldl (fun n e => n + e.2.g * liveSlices e.2.live) 0

/-- Whether a saved launch can be resumed: its core serves, its slots, slice-groups, region, tiles and array fit again, and no
head card of a higher level waits for them. -/
def State.resumable (s : State) (x : SavedLaunch) (l : Launch) : Bool :=
  let k := s.core x.core
  k.started && !k.fenced && !k.draining && l.cause.isNone
    && x.warps.all (fun e => (Dict.find k.warps e.1).isNone) && x.need ≤ k.poolFree
    && (s.freeBase x.core l.card.nearLen).isSome && l.card.tc ≤ (s.freeTiles x.core).length
    && s.arrayFree x.core l.card (some l.id)
    && !(s.dev.queue.any fun q => s.isHead q && l.card.pri < q.level && s.wouldGet x.core q)

/-- A saved launch restored on its core. -/
def State.restore (s : State) (x : SavedLaunch) (l : Launch) : State :=
  let base := (s.freeBase x.core l.card.nearLen).getD 0
  let len := l.card.nearLen
  let ts := (s.freeTiles x.core).take l.card.tc
  let now := (s.core x.core).cyc.toNat
  let s := s.modLaunch l.id fun y => y.modPlace x.core fun p => { p with base := base, tiles := ts, away := false }
  let s := s.modCore x.core fun k => { k.dropReads base len with
    warps := x.warps.foldl (fun t e => Dict.put t e.1 (e.2.resumed now)) k.warps
    hnds := x.hnds.foldl (fun t e => Dict.put t e.1 (e.2.resumed now)) k.hnds
    near := Tab.setAll Memory.unlisted (k.near.filter fun e => e.1 < base || base + len ≤ e.1)
      (x.near.map fun e => (base + e.1, e.2))
    lineFmt := Tab.setAll 0 (k.lineFmt.filter fun e => e.1 < base / 32 || (base + len) / 32 ≤ e.1)
      (x.lineFmt.map fun e => (base / 32 + e.1, e.2))
    tiles := Tab.setAll 0#32 (k.tiles.filter fun e => !ts.contains (e.1 / 4096))
      (x.tiles.map fun e => (4096 * ts.getD (e.1 / 4096) 0 + e.1 % 4096, e.2))
    sessions := k.sessions ++ x.sessions
    store := x.store.foldl (fun t e => listChange t e.1 fun y => { y with bits := e.2.bits }) k.store
    barriers := x.barriers.foldl (fun t b => listChange t b.1 fun _ => b.2) k.barriers
    auto := match x.auto with | some a => a | none => k.auto }
  let s := s.modDev fun d => { d with saved := d.saved.filter fun y => !(y.launch == x.launch && y.core == x.core) }
  let ranges (c : Nat) (k : Core) (e : EngRec) : EngRec :=
    match s.launch? l.id with
    | some y => if e.launch == l.id then { e with ranges := e.cmd.ranges k y c } else e
    | none => e
  let reached (k : Core × Nat) : Core := { k.1 with engine := k.1.engine.map (ranges k.2 k.1) }
  ({ s with cores := (s.cores.zipIdx).map reached }).flushAll x.core

/-- Event CONTEXT_RESUME (R360). -/
def execContextResume (core l : Nat) (s : State) : Host.Outcome State Fault Refusal :=
  match s.launch? l, s.dev.saved.find? fun x => x.core == core && x.launch == l with
  | some y, some x => if s.resumable x y then .next (s.restore x y) else .next s
  | _, _ => .next s

/-! ### Requests of the host (R373, R376) -/

/-- Whether a caravan core runs its image, so that more than configuration space and the PF page answers (R380). -/
def Device.booted (d : Device) : Bool := d.caravan.any fun b => b == .running

/-- Event PREEMPT_CORE (R373): a write of PREEMPT that names a core. -/
def execPreemptCore (tenant core : Nat) (s : State) : Host.Outcome State Fault Refusal :=
  if s.dev.booted && tenant < 16 then .next (s.preemptTenant tenant [core]) else .next s

/-- Event PREEMPT_ALL (R373): a write of PREEMPT that names all cores. -/
def execPreemptAll (tenant : Nat) (s : State) : Host.Outcome State Fault Refusal :=
  if s.dev.booted && tenant < 16 then .next (s.preemptTenant tenant (List.range 144)) else .next s

end Sys2Proof.Machine
end

