-- ==== Sys2Proof/Machine/Sha.lean ====
section
/-!
DEFINITION. SHA-384, the hash of the measurements (R3, R380). PRESUMED (log 81): the spec names the hash and not its
definition, which is that of FIPS 180-4.
-/

namespace Sys2Proof.Machine

/-- The round constants of rounds 0 to 39. -/
def shaKLow : List (BitVec 64) :=
  [0x428a2f98d728ae22#64, 0x7137449123ef65cd#64, 0xb5c0fbcfec4d3b2f#64, 0xe9b5dba58189dbbc#64,
  0x3956c25bf348b538#64, 0x59f111f1b605d019#64, 0x923f82a4af194f9b#64, 0xab1c5ed5da6d8118#64,
  0xd807aa98a3030242#64, 0x12835b0145706fbe#64, 0x243185be4ee4b28c#64, 0x550c7dc3d5ffb4e2#64,
  0x72be5d74f27b896f#64, 0x80deb1fe3b1696b1#64, 0x9bdc06a725c71235#64, 0xc19bf174cf692694#64,
  0xe49b69c19ef14ad2#64, 0xefbe4786384f25e3#64, 0x0fc19dc68b8cd5b5#64, 0x240ca1cc77ac9c65#64,
  0x2de92c6f592b0275#64, 0x4a7484aa6ea6e483#64, 0x5cb0a9dcbd41fbd4#64, 0x76f988da831153b5#64,
  0x983e5152ee66dfab#64, 0xa831c66d2db43210#64, 0xb00327c898fb213f#64, 0xbf597fc7beef0ee4#64,
  0xc6e00bf33da88fc2#64, 0xd5a79147930aa725#64, 0x06ca6351e003826f#64, 0x142929670a0e6e70#64,
  0x27b70a8546d22ffc#64, 0x2e1b21385c26c926#64, 0x4d2c6dfc5ac42aed#64, 0x53380d139d95b3df#64,
  0x650a73548baf63de#64, 0x766a0abb3c77b2a8#64, 0x81c2c92e47edaee6#64, 0x92722c851482353b#64]

/-- The round constants of rounds 40 to 79. -/
def shaKHigh : List (BitVec 64) :=
  [0xa2bfe8a14cf10364#64, 0xa81a664bbc423001#64, 0xc24b8b70d0f89791#64, 0xc76c51a30654be30#64,
  0xd192e819d6ef5218#64, 0xd69906245565a910#64, 0xf40e35855771202a#64, 0x106aa07032bbd1b8#64,
  0x19a4c116b8d2d0c8#64, 0x1e376c085141ab53#64, 0x2748774cdf8eeb99#64, 0x34b0bcb5e19b48a8#64,
  0x391c0cb3c5c95a63#64, 0x4ed8aa4ae3418acb#64, 0x5b9cca4f7763e373#64, 0x682e6ff3d6b2b8a3#64,
  0x748f82ee5defb2fc#64, 0x78a5636f43172f60#64, 0x84c87814a1f0ab72#64, 0x8cc702081a6439ec#64,
  0x90befffa23631e28#64, 0xa4506cebde82bde9#64, 0xbef9a3f7b2c67915#64, 0xc67178f2e372532b#64,
  0xca273eceea26619c#64, 0xd186b8c721c0c207#64, 0xeada7dd6cde0eb1e#64, 0xf57d4f7fee6ed178#64,
  0x06f067aa72176fba#64, 0x0a637dc5a2c898a6#64, 0x113f9804bef90dae#64, 0x1b710b35131c471b#64,
  0x28db77f523047d84#64, 0x32caab7b40c72493#64, 0x3c9ebe0a15c9bebc#64, 0x431d67c49c100d4c#64,
  0x4cc5d4becb3e42b6#64, 0x597f299cfc657e2a#64, 0x5fcb6fab3ad6faec#64, 0x6c44198c4a475817#64]

/-- The eight words of a hash in progress. -/
structure ShaState where
  a : BitVec 64
  b : BitVec 64
  c : BitVec 64
  d : BitVec 64
  e : BitVec 64
  f : BitVec 64
  g : BitVec 64
  h : BitVec 64
  deriving DecidableEq, Repr

/-- The eight words before the first block. -/
def ShaState.first : ShaState :=
  { a := 0xcbbb9d5dc1059ed8#64, b := 0x629a292a367cd507#64
    c := 0x9159015a3070dd17#64, d := 0x152fecd8f70e5939#64
    e := 0x67332667ffc00b31#64, f := 0x8eb44a8768581511#64
    g := 0xdb0c2e0d64f98fa7#64, h := 0x47b5481dbefa4fa4#64 }

/-- The word-by-word sum of two of them. -/
def ShaState.add (x y : ShaState) : ShaState :=
  { a := x.a + y.a, b := x.b + y.b, c := x.c + y.c, d := x.d + y.d
    e := x.e + y.e, f := x.f + y.f, g := x.g + y.g, h := x.h + y.h }

/-- One round, with its constant and its word of the message. -/
def ShaState.round (x : ShaState) (k w : BitVec 64) : ShaState :=
  let t1 := x.h + (x.e.rotateRight 14 ^^^ x.e.rotateRight 18 ^^^ x.e.rotateRight 41) +
    ((x.e &&& x.f) ^^^ (~~~x.e &&& x.g)) + k + w
  let t2 := (x.a.rotateRight 28 ^^^ x.a.rotateRight 34 ^^^ x.a.rotateRight 39) +
    ((x.a &&& x.b) ^^^ (x.a &&& x.c) ^^^ (x.b &&& x.c))
  { a := t1 + t2, b := x.a, c := x.b, d := x.c, e := x.d + t1, f := x.e, g := x.f, h := x.g }

/-- The message word that follows the last sixteen, oldest first. -/
def shaNext (w : List (BitVec 64)) : BitVec 64 :=
  let p := w.getD 1 0#64
  let q := w.getD 14 0#64
  w.getD 0 0#64 + (p.rotateRight 1 ^^^ p.rotateRight 8 ^^^ p >>> 7) + w.getD 9 0#64 +
    (q.rotateRight 19 ^^^ q.rotateRight 61 ^^^ q >>> 6)

/-- The rounds of the constants, from the sixteen message words that come next. -/
def ShaState.rounds (x : ShaState) (w : List (BitVec 64)) : List (BitVec 64) → ShaState
  | [] => x
  | k :: ks => (x.round k (w.headD 0#64)).rounds (w.tail ++ [shaNext w]) ks

/-- The big-endian words of eight bytes each in a list of bytes, at most `n` of them. -/
def shaWords (bs : List Byte) : Nat → List (BitVec 64)
  | 0 => []
  | n + 1 =>
    BitVec.ofNat 64 ((bs.take 8).foldl (fun a b => 256 * a + b.toNat) 0) :: shaWords (bs.drop 8) n

/-- The hash of `n` blocks of 128 bytes, from the words before them. -/
def ShaState.blocks (x : ShaState) (bs : List Byte) : Nat → ShaState
  | 0 => x
  | n + 1 => (x.add (x.rounds (shaWords bs 16) (shaKLow ++ shaKHigh))).blocks (bs.drop 128) n

/-- A message with its padding: a one bit, zeros, and the length in bits as a 128-bit big-endian number. -/
def shaPad (bs : List Byte) : List Byte :=
  let n := bs.length
  bs ++ 128#8 :: List.replicate ((239 - n % 128) % 128) 0#8 ++
    (List.range 16).map (fun i => BitVec.ofNat 8 (8 * n / 256 ^ (15 - i)))

/-- The SHA-384 hash of a list of bytes (R3). -/
def sha384 (bs : List Byte) : BitVec 384 :=
  let m := shaPad bs
  let x := ShaState.first.blocks m (m.length / 128)
  x.a ++ x.b ++ x.c ++ x.d ++ x.e ++ x.f

end Sys2Proof.Machine
end

