-- ==== Sys2Proof/Machine/Service.lean ====
section
/-!
DEFINITION. The host interface: bring-up, service commands, tenant registers, invalidations, posts, power (R110, R122, R123,
R155, R339, R368–R376, R380–R386).
-/

namespace Sys2Proof.Machine

/-! ### Bring-up (R339, R380–R382) -/

/-- Whether a caravan core fetches an image (R380, R381). A core that rejected one fetches again. -/
def Boot.fetches (b : Boot) : Bool := b == .fetching || b == .rejected

/-- Whether some caravan core fetches an image. -/
def Device.fetching (d : Device) : Bool := d.caravan.any Boot.fetches

/-- Event POWER_UP (R380): the package is as after reset and its caravan cores fetch; memory of the host and of other nodes
is not the package's. -/
def execPowerUp (s : State) : Host.Outcome State Fault Refusal :=
  .next { State.reset with
    mem := s.mem.filter fun e => (2 ^ 44 ≤ e.1 && e.1 < 2 ^ 60) || 2 ^ 62 ≤ e.1
    dev := { State.reset.dev with caravan := List.replicate 4 Boot.fetching }
    agenda := s.agenda
    oracle := s.oracle }

/-- The running firmware brings the device up (R382): NODEID as the fabric manager answers, DEVCAP the offered set, and
cores fenced that fail their test. -/
def State.firmwareInit (s : State) : State :=
  let node := BitVec.ofNat 8 (Config.freeNat s.oracle % 255)
  let o := s.oracle + 1
  let s := s.modDev fun d => { d with
    nodeid := node
    devcap0 := if node == 0#8 then 0x6FF#64 else 0x7FF#64
    devcap1 := 0#64 }
  let tested (k : Core × Nat) : Core := { k.1 with fenced := Config.freeBit (o + k.2) }
  { s with cores := (s.cores.zipIdx).map tested, oracle := o + 144 }

/-- An image accepted (R380, R383). -/
def State.acceptImage (s : State) (hash : BitVec 384) : State :=
  match s.dev.reload with
  | some c => s.modDev fun d => { d with
      measure := some hash, image := none, reload := none, caravan := listChange d.caravan c fun _ => .running }
  | none => (s.modDev fun d => { d with
      measure := some hash, image := none, caravan := d.caravan.map fun _ => .running }).firmwareInit

/-- An image rejected (R380, R384): a reload leaves the core's former image running, a boot fetches again. -/
def State.rejectImage (s : State) : State :=
  match s.dev.reload with
  | some c => s.modDev fun d => { d with
      rejects := d.rejects + 1, image := none, reload := none, caravan := listChange d.caravan c fun _ => .running }
  | none => s.modDev fun d => { d with
      rejects := d.rejects + 1, image := none, caravan := d.caravan.map fun _ => .rejected }

/-- The verification of an image ends (R380): the time it takes is left open, and the cycle in which it ends is a free
choice. -/
def State.verify (s : State) : State :=
  match s.dev.image with
  | none => s
  | some x =>
    if Config.freeBit s.oracle then (if x.valid then s.drawn.acceptImage x.hash else s.drawn.rejectImage) else s.drawn

/-- The key at which memory holds a byte of the host at a 64-bit bus address: below 2^44 in the host's part of the physical addresses (R369),
and above that, where no physical address reaches it, in a part of its own from 2^62 on (DESIGN CHOICE of form, log 79). -/
def busByte (a : Nat) : Nat := if a < 2 ^ 44 then 0xFF * 2 ^ 44 + a else 2 ^ 62 + a

/-- The image that the mailbox offers: MBXLEN bytes of host memory from the bus address MBXADDR, as the fetching core reads them
(R369, R381). -/
def State.mailboxImage (s : State) : List Byte :=
  (List.range (bitsOf s.dev.mbxlen 31 0)).map fun i => Memory.read s.mem (busByte ((s.dev.mbxaddr.toNat + i) % 2 ^ 64))

/-- The image that has arrived and what its verification will find (R380, R381): the mailbox's bytes; or what the management
Ethernet has delivered, with the verdicts and the hash that the event carries. -/
def State.imageOf (s : State) (mbx ed ml : Bool) (hash : BitVec 384) : ImageCheck :=
  if mbx then
    let bs := s.mailboxImage
    { valid := (Config.imageSigned bs).1 && (Config.imageSigned bs).2, hash := sha384 bs }
  else { valid := ed && ml, hash := hash }

/-- Event IMAGE_ARRIVAL (R380, R381): an image has arrived, from the mailbox or by the management Ethernet; GO is cleared,
and the image goes to verification. -/
def execImageArrival (mbx ed ml : Bool) (hash : BitVec 384) (s : State) : Host.Outcome State Fault Refusal :=
  if !s.dev.fetching || (mbx && !s.dev.mbxgo) then .next s
  else .next (s.modDev fun d => { d with
    mbxgo := false, image := some (s.imageOf mbx ed ml hash)
    caravan := d.caravan.map fun b => if b.fetches then .verifying else b })

/-- The STATE of BOOTST (R380): 0 ROM, 1 fetching, 2 verifying, 3 running, 4 rejected. DEDUCED (log 66): under RELOAD the
image of one core shows 2 while it is verified (R381), and else 3, since the others serve. -/
def Device.bootState (d : Device) : Nat :=
  if d.caravan.any (· == .verifying) then 2
  else if d.booted then 3
  else if d.caravan.any (· == .fetching) then 1
  else if d.caravan.any (· == .rejected) then 4
  else 0

/-- BOOTST: STATE and the count of rejected images, which keeps its low eight bits (R380). -/
def Device.bootst (d : Device) : Word := BitVec.ofNat 64 (d.bootState + 256 * (d.rejects % 256))

/-- Event MAILBOX_GO (R381): a write of MBXCTL offers the image. -/
def execMailboxGo (v : Word) (s : State) : Host.Outcome State Fault Refusal :=
  if !v.getLsbD 0 || !s.dev.fetching || s.dev.mbxgo then .next s
  else
    let n := bitsOf s.dev.mbxlen 31 0
    if s.dev.mbxaddr.toNat % 4096 != 0 || n = 0 || 2 ^ 26 < n then .next (s.modDev fun d => { d with rejects := d.rejects + 1 })
    else .next (s.modDev fun d => { d with mbxgo := true })

/-- Event CORE_START (R339, R382): firmware releases a core from reset. -/
def execCoreStart (core : Nat) (s : State) : Host.Outcome State Fault Refusal :=
  if !s.dev.booted || (s.core core).started then .next s
  else .next (s.modCore core fun k => { k with started := true, cyc := 0#64 })

/-- Event SPDM_REQUEST (R380): measurement 0 is reported to an attester. -/
def execSpdmRequest (s : State) : Host.Outcome State Fault Refusal :=
  if s.dev.measure.isSome then .next (s.modDev fun d => { d with spdm := d.spdm + 1 }) else .next s

/-- The rates of the host link in hundreds of MT/s, and its widths in lanes, that PCIe 7.0 allows (R368). PRESUMED (log 64):
the spec names the highest of each alone. -/
def linkRates : List Nat := [25, 50, 80, 160, 320, 640, 1280]
def linkWidths : List Nat := [1, 2, 4, 8, 16]

/-- Event HOST_LINK_TRAINING (R368): the link trains at 128 GT/s or a lower rate, at 16 lanes or fewer. -/
def execHostLinkTraining (rate width : Nat) (s : State) : Host.Outcome State Fault Refusal :=
  if !linkRates.contains rate || !linkWidths.contains width || s.dev.halted then .next s
  else .next (s.modDev fun d => { d with linkUp := true, linkRate := rate, linkWidth := width })

/-- Event ENABLE (R371, R380): the first write of 1 freezes DRVCAP and sets DEVCAP. -/
def execEnable (v : Word) (s : State) : Host.Outcome State Fault Refusal :=
  if !v.getLsbD 0 || s.dev.enable || !s.dev.booted then .next s
  else .next (s.modDev fun d => { d with
    enable := true, devcap0 := d.devcap0 &&& d.drvcap0, devcap1 := d.devcap1 &&& d.drvcap1 })

/-! ### Service commands (R383, R384, R386) -/

/-- A service command accepted; one with an operand that names nothing, or that fails at once, comes with its code. -/
def State.acceptService (s : State) (cmd arg : Nat) (fail : BitVec 8) : State :=
  s.modDev fun d => { d with svc := some { cmd := cmd, arg := arg, done := fail != 0#8, fail := fail } }

/-- The code of a command whose operand names nothing; the spec gives none. -/
def State.badOperand (s : State) : BitVec 8 := Config.serviceCode s.oracle

/-- Event DRAIN (R383): no unit is placed on the core, and every launch there is preempted. -/
def execDrain (core : Nat) (s : State) : Host.Outcome State Fault Refusal :=
  if s.dev.svc.isSome then .next s
  else if 144 ≤ core then .next ({ s with oracle := s.oracle + 1 }.acceptService 1 core s.badOperand)
  else
    let s := (s.acceptService 1 core 0#8).modCore core fun k => { k with draining := true }
    .next ((s.placesOn core).foldl (fun s e => if e.1.cause.isNone then s.preempt core e.1.id else s) s)

/-- Event UNFENCE (R383): the core takes units again. -/
def execUnfence (core : Nat) (s : State) : Host.Outcome State Fault Refusal :=
  if s.dev.svc.isSome then .next s
  else if 144 ≤ core then .next ({ s with oracle := s.oracle + 1 }.acceptService 2 core s.badOperand)
  else .next ((s.acceptService 2 core 0#8).modCore core fun k => { k with fenced := false, draining := false })

/-- The 4 KiB block of local HBM that an address names; none for another node's or the host's memory. -/
def State.localBlock (s : State) (pa : Nat) : Option Nat :=
  let p := s.localPa pa
  if p < 768 * 2 ^ 30 then some (p / 4096) else none

/-- A block moved to the next spare of its stack (R114, R384). -/
def State.moveBlock (s : State) (b : Nat) : State :=
  let used := Tab.get 0 s.dev.spareUsed (b % 12)
  let data := s.readBytes (4096 * b) 4096
  let s := s.modDev fun d => { d with
    spares := (d.spares.filter fun e => e.1 != b) ++ [(b, b % 12 + 12 * used)]
    spareUsed := Tab.set 0 d.spareUsed (b % 12) (used + 1) }
  s.writeBytes (4096 * b) data

/-- Event RETIRE (R383, R384): the block of an address is to be moved; a stack without a spare fails with code 3. -/
def execRetire (pa : Nat) (s : State) : Host.Outcome State Fault Refusal :=
  if s.dev.svc.isSome then .next s
  else match s.localBlock pa with
    | none => .next ({ s with oracle := s.oracle + 1 }.acceptService 3 pa s.badOperand)
    | some b =>
      if Config.spareBlocks (b % 12) ≤ Tab.get 0 s.dev.spareUsed (b % 12) then .next (s.acceptService 3 pa 3#8)
      else .next (s.acceptService 3 pa 0#8)

/-- Event RECAL (R383): a port leaves service. -/
def execRecal (port : Nat) (s : State) : Host.Outcome State Fault Refusal :=
  if s.dev.svc.isSome then .next s
  else if 72 ≤ port then .next ({ s with oracle := s.oracle + 1 }.acceptService 4 port s.badOperand)
  else .next ((s.acceptService 4 port 0#8).modDev fun d => { d with
    ports := listChange d.ports port fun p => { p with inService := false } })

/-- Event RELOAD (R383, R384): a caravan core fetches a new image; code 5 while another reloads. Before the first image runs
every core fetches as it is (log 66). -/
def execReload (cc : Nat) (s : State) : Host.Outcome State Fault Refusal :=
  if s.dev.svc.isSome then .next s
  else if 4 ≤ cc then .next ({ s with oracle := s.oracle + 1 }.acceptService 5 cc s.badOperand)
  else if s.dev.reload.isSome then .next (s.acceptService 5 cc 5#8)
  else if !s.dev.booted then .next (s.acceptService 5 cc 0#8)
  else .next ((s.acceptService 5 cc 0#8).modDev fun d => { d with
    reload := some cc, caravan := listChange d.caravan cc fun _ => .fetching })

/-- Whether every launch on a core has been saved or ended (R386). -/
def State.emptied (s : State) (core : Nat) : Bool := (s.placesOn core).isEmpty && (s.residents core).isEmpty

/-- The effect with which a service command ends (R383, R384). -/
def State.endService (s : State) (v : Service) : State :=
  if v.done then s
  else match v.cmd with
    | 1 => s.modCore v.arg fun k => { k with fenced := true, draining := false }
    | 3 => match s.localBlock v.arg with
      | some b => s.moveBlock b
      | none => s
    | 4 => (s.modDev fun d => { d with ports := listChange d.ports v.arg fun p => { p with inService := true } }).pump
        s.dev.unsent.length
    | _ => s

/-- Event SERVICE_COMMAND_DONE (R371, R384, R386): the running command ends; BUSY is 0 and the code is kept. -/
def execServiceCommandDone (s : State) : Host.Outcome State Fault Refusal :=
  match s.dev.svc with
  | none => .next s
  | some v =>
    if !v.done && v.cmd = 1 && !s.emptied v.arg then .next s
    else .next ((s.endService v).modDev fun d => { d with svc := none, svcFail := v.fail })

/-! ### Tenant registers (R122, R123, R373–R376) -/

/-- A trap whose record is one of a page and kind that is resolved. -/
def Trap.resolve (page kind : Nat) (t : Trap) : Trap :=
  if t.code = .xlate && t.info / 2048 == page && t.kind == kind then { t with resolved := true } else t

/-- A warp whose fault of a page and kind is resolved goes on (R122); one whose handler is due or live will (R352). -/
def Warp.resolve (page kind : Nat) (p : Warp) : Warp :=
  { p with
    trap := p.trap.map fun x => (x.1.resolve page kind, x.2)
    wait := match p.wait with
      | .fault g k => if g = page ∧ k = kind then .none else .fault g k
      | .handler t e => .handler (t.resolve page kind) e
      | x => x }

/-- Event FRESOLVE (R122, R155): the records of a page and kind are resolved. -/
def execFresolve (tenant : Nat) (v : Word) (s : State) : Host.Outcome State Fault Refusal :=
  if !s.dev.booted || 16 ≤ tenant then .next s
  else
    let page := bitsOf v 56 16
    let kind := bitsOf v 1 0
    let mine (l : Nat) : Bool := match s.launch? l with | some x => x.tenant == tenant | none => false
    let fix (e : Nat × Warp) : Nat × Warp := (e.1, if mine e.2.launch then e.2.resolve page kind else e.2)
    let core (k : Core) : Core := { k with
      warps := k.warps.map fix, hnds := k.hnds.map fix
      messages := k.messages.map fun m =>
        if m.tenant == tenant && kind == 0 && m.fault == some page then { m with fault := none } else m }
    let saved (x : SavedLaunch) : SavedLaunch := { x with warps := x.warps.map fix, hnds := x.hnds.map fix }
    let item (q : QItem) : QItem :=
      if q.tenant == tenant && kind == 0 && q.fault == some page then { q with fault := none } else q
    let s := { s with cores := s.cores.map core }
    let s := s.modDev fun d => { d with saved := d.saved.map saved, queue := d.queue.map item }
    .next (s.modTenant tenant fun r => { r with
      unresolved := r.unresolved.filter fun u => !(u.2.1 == page && u.2.2 == kind) })

/-- Whether an invalidation covers a translation: all, or a page that holds a 64 KiB page (R374). -/
def covers (inv : Option Nat) (p : Page) : Bool :=
  match inv with
  | none => true
  | some n => p.va ≤ 65536 * n && 65536 * n < p.va + p.size

/-- An invalidation begins (R374): ignored while one is under way, or where bit 0 is 0. -/
def State.invalidate (s : State) (tenant : Nat) (v : Word) (inv : Option Nat) : State :=
  if !s.dev.booted || 16 ≤ tenant || !v.getLsbD 0 || (s.tenant tenant).tlbBusy.isSome then s
  else s.modTenant tenant fun r => { r with tlbBusy := some inv }

/-- Event TLBINV_PAGE (R374): a write of TLBINV with ALL = 0. -/
def execTlbinvPage (tenant : Nat) (v : Word) (s : State) : Host.Outcome State Fault Refusal :=
  .next (if v.getLsbD 1 then s else s.invalidate tenant v (some (bitsOf v 56 16)))

/-- Event TLBINV_ALL (R374): a write of TLBINV with ALL = 1. -/
def execTlbinvAll (tenant : Nat) (v : Word) (s : State) : Host.Outcome State Fault Refusal :=
  .next (if v.getLsbD 1 then s.invalidate tenant v none else s)

/-- Whether a run has staged an access to memory with its translation (R123): a held effect, or a spill chunk. -/
def Run.staged (r : Run) : Bool :=
  r.held != [] || r.setEff.any fun e => match e with | .spill _ _ _ => true | _ => false

/-- Whether a tenant has an access that used a translation and has not been performed: staged effects of a run, held
atomics, copies, accesses on their way (R123). -/
def State.usesOld (s : State) (tenant : Nat) : Bool :=
  let mine (l : Nat) : Bool := match s.launch? l with | some x => x.tenant == tenant | none => false
  s.cores.any (fun k =>
    (k.warps ++ k.hnds).any (fun e => mine e.2.launch && (match e.2.run with | some r => r.staged | none => false))
      || k.held.any (fun a => mine a.launch)
      || k.engine.any fun e => mine e.launch && (match e.cmd with | .copy _ => true | _ => false))
    || s.dev.homeQ.any fun q => q.tenant == tenant

/-- Event TLB_INVALIDATION_DONE (R123, R374): no TLB holds what it covers, and BUSY is 0. -/
def execTlbInvalidationDone (tenant : Nat) (s : State) : Host.Outcome State Fault Refusal :=
  match (s.tenant tenant).tlbBusy with
  | none => .next s
  | some inv =>
    if s.usesOld tenant then .next s
    else
      let keep (e : Nat × Page) : Bool := !(e.1 == tenant && covers inv e.2)
      let s : State := { s with
        cores := s.cores.map fun k => { k with tlb := k.tlb.filter keep }
        dies := s.dies.map fun d => { d with tlb := d.tlb.filter keep } }
      .next (s.modTenant tenant fun r => { r with tlbBusy := none })

/-- Event HOST_POST (R323, R374): a card posted to the any queue; a card that fails the checks is recorded and ret is 0. -/
def execHostPost (tenant : Nat) (card : Word) (s : State) : Host.Outcome State Fault Refusal :=
  if !s.dev.booted || 16 ≤ tenant || (s.tenant tenant).posting then .next s
  else
    let bad (code : Code) : State :=
      (s.faultRecord tenant card 255 code 1 card.toNat).modTenant tenant fun r => { r with postst := false }
    if card.toNat % 128 != 0 then .next (bad .align)
    else if bitsOf card 63 57 != 0 then .next (bad .perm)
    else match s.translateHome tenant (card + 0x40#64) .modify with
      | .error e => .next (bad e)
      | .ok pa =>
        let h : HomeAcc := .hostPost card.toNat pa tenant
        .next (((s.sendHome { id := s.dev.nextStamp, core := 145, warp := { core := 145, slot := 0, hnd := false }, stamp := 0,
                              launch := 0, sector := h.sector, round := Tab.get 0 s.dev.rounds h.sector, packet := none, tenant := tenant,
                              age := 0, ths := [], acc := h }).modDev fun d => { d with nextStamp := d.nextStamp + 1 }).modTenant tenant
          fun r => { r with posting := true })

/-- Event FQCTL_WRITE (R373, R375): LOG and EN are written, OVF is cleared by writing 1. -/
def execFqctlWrite (tenant : Nat) (v : Word) (s : State) : Host.Outcome State Fault Refusal :=
  if !s.dev.booted || 16 ≤ tenant then .next s
  else .next (s.modTenant tenant fun r => { r with
    fqctl := (v &&& 0x100F#64) ||| (r.fqctl &&& 0x100#64 &&& ~~~v) })

/-- A write of a register of a tenant's page (R373). -/
def Tenant.writeReg (r : Tenant) (offset : Nat) (v : Word) : Tenant :=
  match offset with
  | 0x000 => { r with troot := v &&& 0x000FFFFFFFFF0001#64 }
  | 0x008 => { r with fmtab := v &&& 0x000FFFFFFFFFFF80#64 }
  | 0x010 => { r with fqbase := v &&& 0x000FFFFFFFFFFFE0#64 }
  | 0x020 => { r with fqhead := v &&& 0xFFFFFFFF#64 }
  | 0x060 => { r with ctxbase := v &&& 0x000FFFFFFFFFF000#64 }
  | 0x068 => { r with ctxsize := v &&& 0xFFFFFFFFFFFFF000#64 }
  | n =>
    if n % 16 = 0 && 0x80 ≤ n && n < 0x180 then
      { r with winbase := listChange r.winbase ((n - 0x80) / 16) fun _ => v &&& 0x000FFFFFFFE00000#64 }
    else if n % 16 = 8 && 0x80 ≤ n && n < 0x180 then
      { r with winlim := listChange r.winlim ((n - 0x88) / 16) fun _ => v &&& 0x000FFFFFFFE00000#64 }
    else r

/-- A write of a register of the PF page (R371, R381). -/
def Device.writeReg (d : Device) (offset : Nat) (v : Word) : Device :=
  match offset with
  | 0x010 => if d.enable then d else { d with drvcap0 := v }
  | 0x018 => if d.enable then d else { d with drvcap1 := v }
  | 0x048 => { d with pwrlim := max 500 (min 2500 (bitsOf v 11 0)) }
  | 0x050 => if d.fetching then { d with mbxaddr := v } else d
  | 0x058 => if d.fetching then { d with mbxlen := v &&& 0xFFFFFFFF#64 } else d
  | _ => d

/-- A write of FQHEAD that makes FQTAIL different from it sends vector 0, while the queue is enabled (R375). -/
def State.noteHead (s : State) (t : Nat) (was : Tenant) : State :=
  let r := s.tenant t
  if was.fqtail == was.fqhead && r.fqtail != r.fqhead && r.fqctl.getLsbD 12 then
    s.modDev fun d => { d with vectors := d.vectors ++ [(t + 1, 0)] }
  else s

/-- Event REGISTER_WRITE (R371, R373): a register of a function that has no event of its own; read-only ones keep their
values. -/
def execRegisterWrite (fn offset : Nat) (v : Word) (s : State) : Host.Outcome State Fault Refusal :=
  match fn with
  | 0 => .next (s.modDev fun d => d.writeReg offset v)
  | t + 1 => if s.dev.booted then .next ((s.modTenant t fun r => r.writeReg offset v).noteHead t (s.tenant t)) else .next s

/-- Event BAR2_WRITE (R368, R370): a plain write of the host, performed at home. -/
def execBar2Write (pa : Nat) (bytes : List Byte) (s : State) : Host.Outcome State Fault Refusal :=
  if !s.dev.booted || 768 * 2 ^ 30 < pa + bytes.length then .next s else .next (s.writeBytes pa bytes)

/-! ### Power and cooling (R385) -/

/-- Event POWER_OVER_LIMIT (R385): the arithmetic clock is lowered for power. -/
def execPowerOverLimit (s : State) : Host.Outcome State Fault Refusal := .next (s.modDev fun d => { d with clkPower := true })

/-- Event THERMAL_THROTTLE (R385): the arithmetic clock is lowered for heat. -/
def execThermalThrottle (s : State) : Host.Outcome State Fault Refusal := .next (s.modDev fun d => { d with clkHeat := true })

/-- Event THERMAL_HALT (R385): the device halts, no end action is performed, and the host link goes down. -/
def execThermalHalt (s : State) : Host.Outcome State Fault Refusal :=
  .next (s.modDev fun d => { d with halted := true, linkUp := false })

end Sys2Proof.Machine
end

