-- ==== Sys2Proof/Machine/Fabric.lean ====
section
/-!
DEFINITION. The fabric: link flits, resends and the sync accesses of other nodes (R377–R379).
-/

namespace Sys2Proof.Machine

/-- A flit received by a port: one in sequence is taken, and the link's next number goes on; a CRC error or a gap makes the
port ask for a replay from the first flit it lacks. -/
def Port.take (p : Port) (seq : BitVec 12) (good : Bool) : Port :=
  if good && seq == p.next then { p with next := p.next + 1, asked := none } else { p with asked := some p.next }

/-- The oldest flits of the window leave it, acknowledged. -/
def Port.acked (p : Port) (n : Nat) : Port := { p with window := p.window.drop n }

/-- Go-back replay from the first flit that the other end lacks, which is the oldest it has not acknowledged: the window is
put on the link again, each flit with whether its retained copy is correct; one that is not is marked, so that the receiver
discards its packet (R378). -/
def Port.replay (p : Port) (ok : Nat → Bool) : Port :=
  { p with line := p.line ++ (p.window.zipIdx).map fun f => (f.1.1, f.1.2, ok f.2) }

/-- What the other end of a link answers: how many flits it acknowledges, and whether it asks for a replay. The spec does not
say how a link carries either, and both come as a free choice (log 65). -/
def State.linkAnswer (s : State) (p : Port) : Port × State :=
  match s.drawNat (p.window.length + 1) with
  | (n, s) =>
    match s.drawBit with
    | (true, s) => ((p.acked n).replay fun i => Config.freeBit (s.oracle + i), { s with oracle := s.oracle + 512 })
    | (false, s) => (p.acked n, s)

/-- The oldest packet that the device keeps, a reply among them, may have been acknowledged by its destination: whether it has been
is a free choice (R378; log 75). -/
def State.ackOldest (s : State) : State :=
  match s.dev.e2eSent.head? with
  | none => s
  | some x => match s.drawBit with
    | (true, s) => s.modDev fun d => { d with e2eSent := d.e2eSent.filter fun y => y != x }
    | (false, s) => s

/-- Event LINK_FLIT_RECEIVE (R377, R378): what the other end acknowledges and asks for, then the flit. A flit whose retained
copy is uncorrectable is taken from the link and its packet discarded; the packet format is not given, and what a good flit
carries reaches the device as the other events of this file. -/
def execLinkFlitReceive (port : Nat) (seq : BitVec 12) (_payload : BitVec 256) (crc bad : Bool) (s : State) :
    Host.Outcome State Fault Refusal :=
  match s.dev.ports[port]? with
  | none => .next s
  | some p =>
    if !p.inService then .next s
    else match s.linkAnswer p with
      | (p, s) =>
        let s := (s.modDev fun d => { d with
          ports := listChange d.ports port fun _ => p.take seq (crc || bad) }).pump s.dev.unsent.length
        .next (if crc && !bad && seq == p.next then s.ackOldest else s)

/-- Event END_TO_END_RESEND (R378): the source sends a packet that it keeps once more, with its number. The home performs
it at most once. -/
def execEndToEndResend (dst num : Nat) (s : State) : Host.Outcome State Fault Refusal :=
  if s.dev.e2eSent.contains (dst, num) then .next s.transmit else .next s

/-- Event REMOTE_SYNC_ARRIVAL (R378, R379): a packet of another node, a plain access or a reply among them. A number already taken
is dropped; one that comes early, finds an earlier packet of its pair not yet performed, or finds no room at its unit, is held
back. -/
def execRemoteSyncArrival (src num : Nat) (acc : RemoteSync) (s : State) : Host.Outcome State Fault Refusal :=
  if num < Tab.get 0 s.dev.e2eSeen src || s.dev.e2eHeld.any (fun x => x.1 == src && x.2.1 == num) then .next s
  else
    let s := s.modDev fun d => { d with e2eHeld := d.e2eHeld ++ [(src, num, acc)] }
    .next (s.drainRemote s.dev.e2eHeld.length)

end Sys2Proof.Machine
end

