-- ==== Sys2Proof/Machine/Dispatch.lean ====
section
/-!
DEFINITION. The dispatcher: one arm per constructor, each a direct call of the meaning of the instruction or
event.
-/

namespace Sys2Proof.Machine

/-- What the instruction or event does to the state. -/
def exec (i : Instr) (s : State) : Host.Outcome State Fault Refusal :=
  match i with
  | .nop => Sys2Proof.Machine.execNop s
  | .trail te tag wb => Sys2Proof.Machine.execTrail te tag wb s
  | .bra off => Sys2Proof.Machine.execBra off s
  | .bre k off => Sys2Proof.Machine.execBre k off s
  | .brn k off => Sys2Proof.Machine.execBrn k off s
  | .brx k a x => Sys2Proof.Machine.execBrx k a x s
  | .call k off => Sys2Proof.Machine.execCall k off s
  | .ret k a x => Sys2Proof.Machine.execRet k a x s
  | .loop k d off => Sys2Proof.Machine.execLoop k d off s
  | .exit k => Sys2Proof.Machine.execExit k s
  | .yield => Sys2Proof.Machine.execYield s
  | .icinv a b x scope => Sys2Proof.Machine.execIcinv a b x scope s
  | .claim n => Sys2Proof.Machine.execClaim n s
  | .give n => Sys2Proof.Machine.execGive n s
  | .ktestInt k d a b ity cc all kf => Sys2Proof.Machine.execKtestInt k d a b ity cc all kf s
  | .ktestFloat k d a b ty fc ftz all kf => Sys2Proof.Machine.execKtestFloat k d a b ty fc ftz all kf s
  | .kand d a b => Sys2Proof.Machine.execKand d a b s
  | .kor d a b => Sys2Proof.Machine.execKor d a b s
  | .kdiff d a b => Sys2Proof.Machine.execKdiff d a b s
  | .kcount k d a => Sys2Proof.Machine.execKcount k d a s
  | .kfirst k d a b x => Sys2Proof.Machine.execKfirst k d a b x s
  | .kmakeV d a => Sys2Proof.Machine.execKmakeV d a s
  | .kmakeM d a => Sys2Proof.Machine.execKmakeM d a s
  | .kself d => Sys2Proof.Machine.execKself d s
  | .kld d a b x => Sys2Proof.Machine.execKld d a b x s
  | .kst d a b x => Sys2Proof.Machine.execKst d a b x s
  | .kmerge d a => Sys2Proof.Machine.execKmerge d a s
  | .kfree d => Sys2Proof.Machine.execKfree d s
  | .kqpush d a b => Sys2Proof.Machine.execKqpush d a b s
  | .kqpop d a => Sys2Proof.Machine.execKqpop d a s
  | .applyS k off => Sys2Proof.Machine.execApplyS k off s
  | .applyR k off b0 b1 => Sys2Proof.Machine.execApplyR k off b0 b1 s
  | .enda => Sys2Proof.Machine.execEnda s
  | .gmake k d => Sys2Proof.Machine.execGmake k d s
  | .join k a => Sys2Proof.Machine.execJoin k a s
  | .leave k a => Sys2Proof.Machine.execLeave k a s
  | .gdis a => Sys2Proof.Machine.execGdis a s
  | .add o ity sat => Sys2Proof.Machine.execAdd o ity sat s
  | .sub o ity sat => Sys2Proof.Machine.execSub o ity sat s
  | .min o ity => Sys2Proof.Machine.execMin o ity s
  | .max o ity => Sys2Proof.Machine.execMax o ity s
  | .mul o ity sat => Sys2Proof.Machine.execMul o ity sat s
  | .mulhi o ity => Sys2Proof.Machine.execMulhi o ity s
  | .mad o ity sat => Sys2Proof.Machine.execMad o ity sat s
  | .and o => Sys2Proof.Machine.execAnd o s
  | .or o => Sys2Proof.Machine.execOr o s
  | .xor o => Sys2Proof.Machine.execXor o s
  | .andn o => Sys2Proof.Machine.execAndn o s
  | .shl o ity => Sys2Proof.Machine.execShl o ity s
  | .shr o ity => Sys2Proof.Machine.execShr o ity s
  | .sar o ity => Sys2Proof.Machine.execSar o ity s
  | .rot o ity => Sys2Proof.Machine.execRot o ity s
  | .clz k d a ity => Sys2Proof.Machine.execClz k d a ity s
  | .ctz k d a ity => Sys2Proof.Machine.execCtz k d a ity s
  | .popc k d a ity => Sys2Proof.Machine.execPopc k d a ity s
  | .brev k d a ity => Sys2Proof.Machine.execBrev k d a ity s
  | .cmp o ity cc => Sys2Proof.Machine.execCmp o ity cc s
  | .sel o => Sys2Proof.Machine.execSel o s
  | .abs k d a ity sat => Sys2Proof.Machine.execAbs k d a ity sat s
  | .neg k d a ity sat => Sys2Proof.Machine.execNeg k d a ity sat s
  | .ext k d a sx lenm p => Sys2Proof.Machine.execExt k d a sx lenm p s
  | .ins k d a lenm p => Sys2Proof.Machine.execIns k d a lenm p s
  | .movi k d imm => Sys2Proof.Machine.execMovi k d imm s
  | .movh k d a imm => Sys2Proof.Machine.execMovh k d a imm s
  | .addi k d a imm => Sys2Proof.Machine.execAddi k d a imm s
  | .lea o sh => Sys2Proof.Machine.execLea o sh s
  | .icvt k d a dst src sat part => Sys2Proof.Machine.execIcvt k d a dst src sat part s
  | .fadd o ty rm ftz => Sys2Proof.Machine.execFadd o ty rm ftz s
  | .fsub o ty rm ftz => Sys2Proof.Machine.execFsub o ty rm ftz s
  | .fmul o ty rm ftz => Sys2Proof.Machine.execFmul o ty rm ftz s
  | .fma o ty rm ftz => Sys2Proof.Machine.execFma o ty rm ftz s
  | .fnma o ty rm ftz => Sys2Proof.Machine.execFnma o ty rm ftz s
  | .fmin o ty ftz => Sys2Proof.Machine.execFmin o ty ftz s
  | .fmax o ty ftz => Sys2Proof.Machine.execFmax o ty ftz s
  | .fdot2 o ty rm ftz => Sys2Proof.Machine.execFdot2 o ty rm ftz s
  | .fsgn o efmt opc => Sys2Proof.Machine.execFsgn o efmt opc s
  | .frnd k d a ty rm ftz => Sys2Proof.Machine.execFrnd k d a ty rm ftz s
  | .fscl o ty rm ftz => Sys2Proof.Machine.execFscl o ty rm ftz s
  | .fcvt k d a dst src rm ftz part => Sys2Proof.Machine.execFcvt k d a dst src rm ftz part s
  | .xperm o wd la => Sys2Proof.Machine.execXperm o wd la s
  | .xshf o wd mode la => Sys2Proof.Machine.execXshf o wd mode la s
  | .xbc o wd la => Sys2Proof.Machine.execXbc o wd la s
  | .xbal k d a wd la => Sys2Proof.Machine.execXbal k d a wd la s
  | .xred k d a rty rop rm ftz la => Sys2Proof.Machine.execXred k d a rty rop rm ftz la s
  | .xscan k d a rty rop rm ftz exc la => Sys2Proof.Machine.execXscan k d a rty rop rm ftz exc la s
  | .xtopk k d a b rty sel km1 la => Sys2Proof.Machine.execXtopk k d a b rty sel km1 la s
  | .sfq k d a b ty fn ftz => Sys2Proof.Machine.execSfq k d a b ty fn ftz s
  | .sfw mask => Sys2Proof.Machine.execSfw mask s
  | .sfp k d => Sys2Proof.Machine.execSfp k d s
  | .ld o sz cp la => Sys2Proof.Machine.execLd o sz cp la s
  | .st o sz cp => Sys2Proof.Machine.execSt o sz cp s
  | .ldn o sz la => Sys2Proof.Machine.execLdn o sz la s
  | .stn o sz => Sys2Proof.Machine.execStn o sz s
  | .ldt o dt rm ftz chk la => Sys2Proof.Machine.execLdt o dt rm ftz chk la s
  | .stt o dt rm ftz chk => Sys2Proof.Machine.execStt o dt rm ftz chk s
  | .pref k a b x lv => Sys2Proof.Machine.execPref k a b x lv s
  | .atomAdd o scope w => Sys2Proof.Machine.execAtomAdd o scope w s
  | .atomFadd o scope w => Sys2Proof.Machine.execAtomFadd o scope w s
  | .atomBinc o scope w => Sys2Proof.Machine.execAtomBinc o scope w s
  | .atomXchg o scope w => Sys2Proof.Machine.execAtomXchg o scope w s
  | .atomMinS o scope w => Sys2Proof.Machine.execAtomMinS o scope w s
  | .atomMaxS o scope w => Sys2Proof.Machine.execAtomMaxS o scope w s
  | .atomMinU o scope w => Sys2Proof.Machine.execAtomMinU o scope w s
  | .atomMaxU o scope w => Sys2Proof.Machine.execAtomMaxU o scope w s
  | .atomAnd o scope w => Sys2Proof.Machine.execAtomAnd o scope w s
  | .atomOr o scope w => Sys2Proof.Machine.execAtomOr o scope w s
  | .atomXor o scope w => Sys2Proof.Machine.execAtomXor o scope w s
  | .atomCas o scope w => Sys2Proof.Machine.execAtomCas o scope w s
  | .rwr k a b x => Sys2Proof.Machine.execRwr k a b x s
  | .awt d b x ctr sub clr => Sys2Proof.Machine.execAwt d b x ctr sub clr s
  | .bind a b cc => Sys2Proof.Machine.execBind a b cc s
  | .unbind a b cc => Sys2Proof.Machine.execUnbind a b cc s
  | .acq k d a scope la => Sys2Proof.Machine.execAcq k d a scope la s
  | .rel k a scope => Sys2Proof.Machine.execRel k a scope s
  | .fence scope => Sys2Proof.Machine.execFence scope s
  | .publish a => Sys2Proof.Machine.execPublish a s
  | .fread k d a scope la => Sys2Proof.Machine.execFread k d a scope la s
  | .ffill k a b x scope => Sys2Proof.Machine.execFfill k a b x scope s
  | .fclr k a x scope => Sys2Proof.Machine.execFclr k a x scope s
  | .cpy k d a b t dir => Sys2Proof.Machine.execCpy k d a b t dir s
  | .cpym k d a b t pmask => Sys2Proof.Machine.execCpym k d a b t pmask s
  | .tall g mask => Sys2Proof.Machine.execTall g mask s
  | .tany g mask => Sys2Proof.Machine.execTany g mask s
  | .tffr k d a => Sys2Proof.Machine.execTffr k d a s
  | .mloop k d t zs ftz mx fmt => Sys2Proof.Machine.execMloop k d t zs ftz mx fmt s
  | .mzero k t => Sys2Proof.Machine.execMzero k t s
  | .mrdN k d t bf e => Sys2Proof.Machine.execMrdN k d t bf e s
  | .mrdW k d a t e la => Sys2Proof.Machine.execMrdW k d a t e la s
  | .mwrN k d t => Sys2Proof.Machine.execMwrN k d t s
  | .mwrW k d a t => Sys2Proof.Machine.execMwrW k d a t s
  | .lacfg k a => Sys2Proof.Machine.execLacfg k a s
  | .laseed k a b => Sys2Proof.Machine.execLaseed k a b s
  | .lainfN k d a b after => Sys2Proof.Machine.execLainfN k d a b after s
  | .lainfW k d a after la => Sys2Proof.Machine.execLainfW k d a after la s
  | .lafb k a b p => Sys2Proof.Machine.execLafb k a b p s
  | .lardN k d a b inc after => Sys2Proof.Machine.execLardN k d a b inc after s
  | .lardW k d a after la => Sys2Proof.Machine.execLardW k d a after la s
  | .lawrN k d a b => Sys2Proof.Machine.execLawrN k d a b s
  | .lawrW k d a => Sys2Proof.Machine.execLawrW k d a s
  | .swsub k d a => Sys2Proof.Machine.execSwsub k d a s
  | .swleave k a => Sys2Proof.Machine.execSwleave k a s
  | .swgo k a sid dh => Sys2Proof.Machine.execSwgo k a sid dh s
  | .swrd k d a mm => Sys2Proof.Machine.execSwrd k d a mm s
  | .swmerge k d a b => Sys2Proof.Machine.execSwmerge k d a b s
  | .swwait a => Sys2Proof.Machine.execSwwait a s
  | .post d a q dir => Sys2Proof.Machine.execPost d a q dir s
  | .spawn d a q dir => Sys2Proof.Machine.execSpawn d a q dir s
  | .qtake d a q => Sys2Proof.Machine.execQtake d a q s
  | .ams d a b => Sys2Proof.Machine.execAms d a b s
  | .bbind a n => Sys2Proof.Machine.execBbind a n s
  | .bunb n => Sys2Proof.Machine.execBunb n s
  | .barr k d n => Sys2Proof.Machine.execBarr k d n s
  | .bwt a n => Sys2Proof.Machine.execBwt a n s
  | .dbar k d n => Sys2Proof.Machine.execDbar k d n s
  | .dwt a n => Sys2Proof.Machine.execDwt a n s
  | .trap imm => Sys2Proof.Machine.execTrap imm s
  | .tret e => Sys2Proof.Machine.execTret e s
  | .sysrd k d num => Sys2Proof.Machine.execSysrd k d num s
  | .syswr a num => Sys2Proof.Machine.execSyswr a num s
  | .brk imm => Sys2Proof.Machine.execBrk imm s
  | .lmark imm => Sys2Proof.Machine.execLmark imm s
  | .ppoint mask => Sys2Proof.Machine.execPpoint mask s
  | .idb a b => Sys2Proof.Machine.execIdb a b s
  | .ide => Sys2Proof.Machine.execIde s
  | .instructionFetch w => Sys2Proof.Machine.execInstructionFetch w s
  | .runHeader w => Sys2Proof.Machine.execRunHeader w s
  | .runCommit w => Sys2Proof.Machine.execRunCommit w s
  | .pendingValueArrival core id => Sys2Proof.Machine.execPendingValueArrival core id s
  | .sfqCompletion w token => Sys2Proof.Machine.execSfqCompletion w token s
  | .deposit core id => Sys2Proof.Machine.execDeposit core id s
  | .warpCreation core => Sys2Proof.Machine.execWarpCreation core s
  | .claimGrant core => Sys2Proof.Machine.execClaimGrant core s
  | .activeSetEntry core => Sys2Proof.Machine.execActiveSetEntry core s
  | .warpRetirement w => Sys2Proof.Machine.execWarpRetirement w s
  | .launchEnd l => Sys2Proof.Machine.execLaunchEnd l s
  | .launchAbort l => Sys2Proof.Machine.execLaunchAbort l s
  | .deviceBarrierPhase j => Sys2Proof.Machine.execDeviceBarrierPhase j s
  | .applyWarpCreation core => Sys2Proof.Machine.execApplyWarpCreation core s
  | .watchdogExpiry w => Sys2Proof.Machine.execWatchdogExpiry w s
  | .claimDeadlock core => Sys2Proof.Machine.execClaimDeadlock core s
  | .handlerWarpCreation core slot => Sys2Proof.Machine.execHandlerWarpCreation core slot s
  | .l1Eviction core sector => Sys2Proof.Machine.execL1Eviction core sector s
  | .homeAccessPerform sector => Sys2Proof.Machine.execHomeAccessPerform sector s
  | .engineCommandStart core id => Sys2Proof.Machine.execEngineCommandStart core id s
  | .engineCommandCompletion core id => Sys2Proof.Machine.execEngineCommandCompletion core id s
  | .sweepPageFetch die idx => Sys2Proof.Machine.execSweepPageFetch die idx s
  | .pageDelivery die idx => Sys2Proof.Machine.execPageDelivery die idx s
  | .sweepHandlerCreation core => Sys2Proof.Machine.execSweepHandlerCreation core s
  | .cardRead idx => Sys2Proof.Machine.execCardRead idx s
  | .unitPlacement core => Sys2Proof.Machine.execUnitPlacement core s
  | .anyQueuePlacement pick => Sys2Proof.Machine.execAnyQueuePlacement pick s
  | .argkMemberStart l w => Sys2Proof.Machine.execArgkMemberStart l w s
  | .amsArrival core => Sys2Proof.Machine.execAmsArrival core s
  | .preemptionRequest core l => Sys2Proof.Machine.execPreemptionRequest core l s
  | .warpStop w => Sys2Proof.Machine.execWarpStop w s
  | .ptimeExpiry core l => Sys2Proof.Machine.execPtimeExpiry core l s
  | .contextSave core l => Sys2Proof.Machine.execContextSave core l s
  | .contextResume core l => Sys2Proof.Machine.execContextResume core l s
  | .uncorrectableDataError core id => Sys2Proof.Machine.execUncorrectableDataError core id s
  | .schedulingStateError tenant card => Sys2Proof.Machine.execSchedulingStateError tenant card s
  | .enable v => Sys2Proof.Machine.execEnable v s
  | .drain core => Sys2Proof.Machine.execDrain core s
  | .unfence core => Sys2Proof.Machine.execUnfence core s
  | .retire pa => Sys2Proof.Machine.execRetire pa s
  | .recal port => Sys2Proof.Machine.execRecal port s
  | .reload cc => Sys2Proof.Machine.execReload cc s
  | .serviceCommandDone => Sys2Proof.Machine.execServiceCommandDone s
  | .mailboxGo v => Sys2Proof.Machine.execMailboxGo v s
  | .powerUp => Sys2Proof.Machine.execPowerUp s
  | .imageArrival mbx ed ml hash => Sys2Proof.Machine.execImageArrival mbx ed ml hash s
  | .coreStart core => Sys2Proof.Machine.execCoreStart core s
  | .fresolve tenant v => Sys2Proof.Machine.execFresolve tenant v s
  | .tlbinvPage tenant v => Sys2Proof.Machine.execTlbinvPage tenant v s
  | .tlbinvAll tenant v => Sys2Proof.Machine.execTlbinvAll tenant v s
  | .tlbInvalidationDone tenant => Sys2Proof.Machine.execTlbInvalidationDone tenant s
  | .hostPost tenant card => Sys2Proof.Machine.execHostPost tenant card s
  | .preemptCore tenant core => Sys2Proof.Machine.execPreemptCore tenant core s
  | .preemptAll tenant => Sys2Proof.Machine.execPreemptAll tenant s
  | .fqctlWrite tenant v => Sys2Proof.Machine.execFqctlWrite tenant v s
  | .registerWrite fn offset v => Sys2Proof.Machine.execRegisterWrite fn offset v s
  | .bar2Write pa bytes => Sys2Proof.Machine.execBar2Write pa bytes s
  | .linkFlitReceive port seq payload crc bad => Sys2Proof.Machine.execLinkFlitReceive port seq payload crc bad s
  | .endToEndResend dst num => Sys2Proof.Machine.execEndToEndResend dst num s
  | .remoteSyncArrival src num acc => Sys2Proof.Machine.execRemoteSyncArrival src num acc s
  | .fabricResponseTimeout core id => Sys2Proof.Machine.execFabricResponseTimeout core id s
  | .powerOverLimit => Sys2Proof.Machine.execPowerOverLimit s
  | .thermalThrottle => Sys2Proof.Machine.execThermalThrottle s
  | .thermalHalt => Sys2Proof.Machine.execThermalHalt s
  | .icinvCompletion w => Sys2Proof.Machine.execIcinvCompletion w s
  | .acknowledgementReturn core id => Sys2Proof.Machine.execAcknowledgementReturn core id s
  | .spdmRequest => Sys2Proof.Machine.execSpdmRequest s
  | .hostLinkTraining rate width => Sys2Proof.Machine.execHostLinkTraining rate width s

end Sys2Proof.Machine
end

