-- ==== Sys2Proof/Machine/Ready.lean ====
section
/-!
DEFINITION. What a warp does next, which warps may issue in a cycle, what a cycle owes before it ends, and the placing of an instruction where the next step
runs it (R27, R29–R32, R44, R45, R341, R346).
-/

namespace Sys2Proof.Machine

/-! ### The next act of a warp -/

/-- What a warp does next: the rest of its commit, the slot at its position, or the step to its next run. A slot that
is no instruction is an error. -/
def State.nextOf (s : State) (w : WarpRef) : Option (Except DecodeErr Instr) :=
  match s.warp? w with
  | none => none
  | some p =>
    match p.run with
    | none => some (.ok (if p.fetched.isSome then .runHeader w else .instructionFetch w))
    | some r =>
      if r.commit.isSome then some (.ok (.runCommit w))
      else match r.slots[r.pos - 1]? with
        | none => none
        | some x => some ((decodeSlot x.1 x.2.1).map (·.instr))

/-- A warp takes its next act: an instruction or event runs with the warp in focus; a slot that is no
instruction is ILLOP (R80). -/
def State.act (s : State) (w : WarpRef) : Host.Outcome State Fault Refusal :=
  let s := { s with focus := some w, stall := false }
  match s.nextOf w with
  | none => .next s
  | some (.ok i) => exec i s
  | some (.error _) =>
    match s.ctx? w with
    | some c => .next (s.takeTrap w (c.trap .illop))
    | none => .next s

/-- Whether a warp's next act can proceed (R29): tried on the state, it does not stall. -/
def State.ready (s : State) (w : WarpRef) : Bool :=
  match s.act w with
  | .next t => !t.stall
  | _ => false

/-! ### The issue ports (R30, R45) -/

/-- What an act asks: nothing of the ports; the cycle of its warp; a port; the cycle's turn of commits. -/
inductive Asks where
  | free
  | cycle
  | port
  | commit
  deriving DecidableEq, Repr

/-- Whether the slot before the position of a run is chained to it (R44). -/
def Run.chained (r : Run) : Bool :=
  match r.slots[r.pos - 2]? with
  | some x => (Fields.ofSlot x.1 x.2.1).c == 1#1 && (r.pos - 1) % 3 != 0
  | none => false

/-- Whether an act of a warp has issued a slot that is chained to the next, so that the chain group goes on (R44, R45). -/
def State.chainsOn (s t : State) (w : WarpRef) : Bool :=
  match s.warp? w, t.warp? w with
  | some p, some q => p.stamp == q.stamp && (match p.run, q.run with
    | some r, some x => x.pos == r.pos + 1 && x.commit.isNone && x.chained
    | _, _ => false)
  | _, _ => false

/-- Whether the chain group at the position of a warp can issue whole (R45): its slots proceed one after another. A packet
has three. R45 has all words of a group issue in one cycle, and R64 has a word wait for a long-latency value that an earlier one
loads with L = 0: a group that holds both never issues, and its warp waits until WDOG (DESIGN CHOICE, log 77). -/
def State.groupReady (s : State) (w : WarpRef) : Nat → Bool
  | 0 => true
  | n + 1 =>
    match s.act w with
    | .next t => !t.stall && (!s.chainsOn t w || t.groupReady w n)
    | _ => false

/-- The run of a warp at the slot of its chain group that cannot issue now, with the slots before it issued; none where the
whole group can. -/
def State.groupStop (s : State) (w : WarpRef) : Nat → Option Run
  | 0 => none
  | n + 1 =>
    match s.act w with
    | .next t =>
      if t.stall then (s.warp? w).bind (·.run)
      else if s.chainsOn t w then t.groupStop w n
      else none
    | _ => none

/-- Whether an act of a warp that led to a state has raised a trap (R344): its run, or its fetch, does not go on. -/
def State.raisedTrap (s t : State) (w : WarpRef) : Bool :=
  match s.warp? w, t.warp? w with
  | some p, some q => (match p.run, p.fetched with
    | none, none => q.fetched.isNone
    | _, _ => q.run.isNone)
  | some _, none => true
  | none, _ => false

/-- Whether a slot of the chain group at the position of a warp raises a trap in the group's cycle (R344). -/
def State.groupFaults (s : State) (w : WarpRef) : Nat → Bool
  | 0 => false
  | n + 1 =>
    match s.act w with
    | .next t => !t.stall && (s.raisedTrap t w || (s.chainsOn t w && t.groupFaults w n))
    | _ => false

/-- Whether a warp's next act, with the rest of its chain group, raises a trap. -/
def State.faultsNow (s : State) (w : WarpRef) : Bool := s.groupReady w 3 && s.groupFaults w 3

/-- Whether a warp may act at all: it holds a place of the active set, nothing has stopped it or is to stop it where it
stands, it has live lanes or a commit to finish, and its launch goes on or its commit has begun its effects (R27, R29, R355).
A run in progress has its launch, and the warp that owns its registers. A warp that is to raise WDOG makes only an act that
traps before it (R36, R344). A deposit that is due, and an ARGK launch that the warp is to take, come first (R144, R314). -/
def State.mayAct (s : State) (w : WarpRef) (p : Warp) : Bool :=
  !s.dev.halted && (s.core w.core).started && p.sched == .active && !p.stop && (s.goesOn p || p.committing)
    && (p.live != 0#32 || p.inCommit) && p.wait == .none && (p.due.isNone || p.inCommit) && (p.run.isNone || (s.ctx? w).isSome)
    && !((s.core w.core).preempting p.launch && p.eligible) && !s.depositDue w.core w.slot && !s.argkDue w p
    && (!s.wdogDue w p || (!p.inCommit && s.faultsNow w))

/-- The warp whose chain group is being issued, while the group can go on (R45). -/
def State.inChain (s : State) : Option WarpRef :=
  match s.chain with
  | none => none
  | some w =>
    match s.warp? w with
    | some p => if s.mayAct w p && (match p.run with | some r => r.chained | none => false) && s.ready w then some w else none
    | none => none

/-- What a warp's next act asks: a header or the first slot of a packet a port, a later chain group of a packet its warp's
cycle, a slot chained to the one just issued and a fetch nothing (R30, R45). -/
def State.asks (s : State) (w : WarpRef) (p : Warp) : Asks :=
  match p.run with
  | none => if p.fetched.isSome then .port else .free
  | some r =>
    if r.commit.isSome then .commit
    else if s.chain = some w then .free
    else if (r.pos - 1) % 3 = 0 then .port
    else .cycle

/-- The order of warps in one cycle (R213, R230, R264): by slot. -/
def slotKey (w : WarpRef) : Nat := 2 * w.slot + (if w.hnd then 1 else 0)

/-- Whether one warp has issued less recently than another (R30). -/
def issuedBefore (a b : WarpRef × Warp) : Bool :=
  keyBefore [a.2.lastIssue, a.1.slot, if a.1.hnd then 1 else 0] [b.2.lastIssue, b.1.slot, if b.1.hnd then 1 else 0]

/-- Whether a warp may still issue in this cycle: no warp of a higher slot, nor it, has acted (R213, R264). -/
def State.inOrder (s : State) (w : WarpRef) : Bool :=
  match (s.core w.core).acted with
  | some n => n < slotKey w
  | none => true

/-- Whether a warp can issue a packet or a chain group in this cycle as far as it goes itself. -/
def State.couldIssue (s : State) (w : WarpRef) (p : Warp) : Bool :=
  s.inOrder w && !p.issued && s.mayAct w p && s.groupReady w 3

/-- Whether a warp could take a port in this cycle. -/
def State.wantsPort (s : State) (w : WarpRef) (p : Warp) : Bool := s.asks w p == .port && s.couldIssue w p

/-- Whether a port is left for a warp: the ports choose the two warps that issued least recently (R30). -/
def State.chooses (s : State) (w : WarpRef) (p : Warp) : Bool :=
  (s.core w.core).ports
    + ((s.activeSet w.core).filter fun e => issuedBefore e (w, p) && s.wantsPort e.1 e.2).length < 2

/-- Whether a warp issues a packet or a chain group in this cycle, with the active set as it is (R30, R45). -/
def State.issuesNow (s : State) (w : WarpRef) (p : Warp) : Bool :=
  s.couldIssue w p && (match s.asks w p with
    | .cycle => true
    | .port => s.chooses w p
    | _ => false)

/-- Whether a warp issues in this cycle: after the entry into the active set (R33). -/
def State.canIssue (s : State) (w : WarpRef) (p : Warp) : Bool := !s.owesEntry w.core && s.issuesNow w p

/-- Whether a core still owes an issue in this cycle to a warp that `first` selects. -/
def State.owesIssue (s : State) (c : Nat) (first : WarpRef → Bool) : Bool :=
  (s.activeSet c).any fun e => first e.1 && s.canIssue e.1 e.2

/-- Whether a warp's next act may be made now. The issues and commits of a cycle are made in ascending slot order, a chain group
whole (R45, R213, R230, R264): a warp of a lower slot that can issue goes first, and one that becomes able to after a higher slot
has acted waits for the next cycle. -/
def State.admits (s : State) (w : WarpRef) (p : Warp) : Bool :=
  match s.inChain with
  | some v => v == w
  | none =>
    match s.asks w p with
    | .free => s.mayAct w p
    | .commit =>
      s.mayAct w p && !s.owesEntry w.core && !s.owesIssue w.core (fun v => slotKey v < slotKey w)
        && (match (s.core w.core).acted with | some n => n ≤ slotKey w | none => true)
    | _ => s.canIssue w p && !s.owesIssue w.core fun v => slotKey v < slotKey w

/-- What an act that proceeded has used of its cycle; `old` is the core before it. -/
def State.charge (s : State) (w : WarpRef) (a : Asks) (stamp : Nat) (old : Core) : State :=
  let now := (s.core w.core).cyc.toNat
  match a with
  | .free => s
  | .cycle =>
    (s.modWarp w fun p => if p.stamp == stamp then { p with issued := true } else p).modCore w.core fun k =>
      { k with acted := some (slotKey w) }
  | .port =>
    (s.modWarp w fun p => if p.stamp == stamp then { p with issued := true, lastIssue := now } else p).modCore w.core
      fun k => { k with ports := k.ports + 1, acted := some (slotKey w) }
  | .commit => s.modCore w.core fun k => { k with acted := some (slotKey w), seen := old.seen <|> some old.store }

/-- The phase of a barrier for which a wait waits: its operand, kept at the header where it stands first (R65). -/
def Ctx.waitPhase (c : Ctx) (a : BitVec 5) : Nat :=
  ((if c.r.pos = 1 then c.r.ops.1 else c.low c.k0 a 0#5).setWidth 32).toNat

/-- The sync reads, and the reads of copy tags, that an instruction makes as it issues (R194, R201). -/
def State.syncReads (s : State) (c : Ctx) (i : Instr) : List SyncRead :=
  let all := c.event 5 (c.threads c.k0)
  let tags (ts : List Nat) : List SyncRead := ts.map fun t => (.tag c.w.core t, [], all)
  let onSets (ks : List Nat) : List SyncRead := ks.flatMap fun k => s.readsObject c.tenant all (c.kval k)
  let lanes (k : BitVec 3) : Mask := (c.mask k).getD 0#32
  match i with
  | .acq k _ a scope _ => s.readsHome c.tenant (c.event scope.toNat (c.threads (lanes k))) (c.low (lanes k) a 0#5) 8
  | .fread k _ a scope _ => (lanes k).toList.flatMap fun j => s.readsHome c.tenant (c.event scope.toNat [c.thread j]) (c.src a 0#5 j) 16
  | .awt _ _ _ ctr _ _ => [(.counter c.p.stamp ctr.toNat, [], c.event 3 (c.threads c.p.live))]
  | .bwt a n => [(.named c.w.core n.toNat (c.waitPhase a), [], all)]
  | .dwt a n => [(.device n.toNat (c.waitPhase a), [], all)]
  | .tall g mask => tags (((List.range 16).filter fun t => mask.getLsbD t).map fun t => 16 * g.toNat + t)
  | .tany g mask =>
    tags ((((List.range 16).filter fun t => mask.getLsbD t).map fun t => 16 * g.toNat + t).filter fun t =>
      !(s.core c.w.core).tagBusy c.p.launch t)
  | .tffr k _ a =>
    let named := c.low (lanes k) a 0#5
    (((List.range 64).find? fun t => named.getLsbD t && !(s.core c.w.core).tagBusy c.p.launch t).toList).map fun t =>
      (.tag c.w.core t, [], c.event 5 (c.threads (lanes k)))
  | .cpy _ _ _ _ t _ => tags [t.toNat]
  | .cpym _ _ _ _ t _ => tags [t.toNat]
  | .kand _ a b => onSets [a.toNat, b.toNat]
  | .kor _ a b => onSets [a.toNat, b.toNat]
  | .kdiff _ a b => onSets [a.toNat, b.toNat]
  | .kmerge d _ => onSets [d.toNat]
  | .kcount _ _ a => onSets [a.toNat]
  | .kfirst _ _ a _ _ => onSets [a.toNat]
  | .applyS k _ => onSets [k.toNat]
  | .applyR k _ _ _ => onSets [k.toNat]
  | _ => []

/-- The near ranges and tiles of an access that a core's scoreboard receives at issue, and the lanes that make it (R264). -/
def Ctx.receivedAtIssue (c : Ctx) (i : Instr) : List NearRange × List (Nat × Bool) × Mask :=
  match i with
  | .ldn o sz _ =>
    let m := (c.mask o.k).getD 0#32
    (c.nearRanges (szBytes sz) false (c.addresses m o.a o.b o.x (szBytes sz)), [], m)
  | .mrdW _ _ _ t _ _ => ([], [(c.l.tile c.w.core t.toNat, false)], c.k0)
  | .lainfW _ _ a _ _ => (c.l.range c.w.core (nearOff (c.slot a)) 64 false, [], c.k0)
  | _ => ([], [], 0#32)

/-- Whether an instruction at position 1 waits at the header, and makes its reads there (R31, R65, R195, R267). -/
def readsAtHeader : Instr → Bool
  | .tall _ _ | .tany _ _ | .swwait _ | .bwt _ _ | .dwt _ _ | .awt _ _ _ _ _ _ => true
  | _ => false

/-- The subscriptions that happen before the merges of a subscription that a `swwait` finds done (R308). -/
def State.swwaitGets (s : State) (c : Ctx) : Instr → List Nat
  | .swwait a => match (s.core c.w.core).sub? c.p.launch (if c.r.pos = 1 then c.r.ops.1 else c.slot a) with
    | some u => u.mergeIds
    | none => []
  | _ => []

/-- The instruction whose reads an act of a warp that led from `s` to `t` makes, and the run as it made them: that which issued,
or, at its header, the first of a run that waited there. -/
def State.heardAt (s t : State) (w : WarpRef) : Option (Ctx × Instr) :=
  match s.nextOf w, s.ctx? w, t.ctx? w with
  | some (.ok _), none, some d =>
    d.r.src.first.bind fun i => if d.r.pos == 1 && readsAtHeader i then some (d, i) else none
  | some (.ok i), some c, some d =>
    if d.p.stamp == c.p.stamp && d.r.pos == c.r.pos + 1 && !(c.r.pos == 1 && readsAtHeader i) then some (c, i) else none
  | _, _, _ => none

/-- Whether no event of a launch's threads can have a subscription before it. -/
def State.silent (s : State) (l : Launch) : Bool := l.base = [] && l.heard = [] && s.marks = []

/-- The state `t` to which an act of a warp led from `s`, its threads having heard what the sync reads of an instruction, and the
accesses that it overlaps in the scoreboard, tell them (R200–R202, R267, R296, R308; log 34). -/
def State.overhear (s t : State) (w : WarpRef) : State :=
  match s.heardAt t w with
  | none => t
  | some (c, i) =>
    if t.silent c.l then t
    else
      let r := c.receivedAtIssue i
      let got := t.swwaitGets c i
      let u := t.syncAll c.p.launch (t.syncReads c i)
      let u := if got = [] then u else (u.hears c.p.launch (c.threads c.k0) got).2
      if r.2.2 = 0#32 then u else u.modLaunch c.p.launch fun l => l.touch c.w.core r.1 r.2.1 (c.threads r.2.2)

/-- An act of a warp in its cycle: where it is not admitted, or stalls, nothing changes. -/
def State.issueAct (s : State) (w : WarpRef) : Host.Outcome State Fault Refusal :=
  match s.warp? w with
  | none => .next s
  | some p =>
    if !s.admits w p then .next s
    else match s.act w with
      | .next t =>
        if t.stall then .next s
        else .next { (s.overhear t w).charge w (s.asks w p) p.stamp (s.core w.core) with chain := if s.chainsOn t w then some w else none }
      | .fault f => .fault f
      | .refused r => .refused r

/-! ### What a cycle owes -/

/-- Whether a preemption is still owed an act: a warp at an eligible point stops, or the launch ends by time (R355, R358). -/
def State.owesPreemption (s : State) (c : Nat) (x : Preempt) : Bool :=
  if x.age < 2097152 then (s.residents c).any fun e => e.2.launch == x.launch && !e.2.stop && e.2.eligible
  else (s.launch? x.launch).isSome && !s.allStopped c x.launch

/-- Whether a core owes an act before its cycle ends. -/
def State.owes (s : State) (c : Nat) : Bool :=
  (s.core c).started && (s.owesEntry c || s.owesIssue c (fun _ => true)
    || (s.residents c).any (fun e => s.wdogDue e.1 e.2 || s.depositDue c e.1.slot || s.argkDue e.1 e.2 || s.retires e.1 e.2)
    || 4096 ≤ (s.core c).deadlock
    || (s.core c).preempts.any (s.owesPreemption c))

/-- The slots at which the chain groups of a core's warps stand, noted for the cycle that ends (R45). -/
def State.noteStands (s : State) (c : Nat) (k : Core) : Core :=
  let note (h : Bool) (e : Nat × Warp) : Nat × Warp :=
    (e.1, { e.2 with stands := match e.2.run with
      | some r =>
        if r.commit.isSome then none
        else (s.groupStop { core := c, slot := e.1, hnd := h } 3).map fun x => (r.pos, x)
      | none => none })
  { k with warps := k.warps.map (note false), hnds := k.hnds.map (note true) }

/-- One cycle, once everything that the cycle owes has been done: the entry into the active set, the issues of its ports, the
retirements (R24), what is taken at a run boundary (R144, R314), and the expiry of the bounds that R36, R70, R358 and R378 count
(log 62); a halted device makes none (R385). It notes where chain groups stand (R45) and which cores have a ready active warp
(R320). -/
def State.cycle (s : State) : State :=
  if s.dev.halted || s.inChain.isSome || (List.range 144).any s.owes || s.dev.homeQ.any s.lateRequest
      || s.cores.any Core.lateResponse then s
  else
    let n : State := { s with cores := (s.cores.zipIdx).map fun k => if k.1.started then s.noteStands k.2 k.1 else k.1 }
    let t := n.tick.verify
    { t with chain := none, cores := (t.cores.zipIdx).map fun k =>
        if k.1.started then
          { k.1 with readyActive := (t.activeSet k.2).any fun e => t.asks e.1 e.2 != .free && t.mayAct e.1 e.2 && t.ready e.1 }
        else k.1 }

/-! ### Events of the agenda -/

/-- The warp whose act an event names; none for an event of the device. -/
def actOf (i : Instr) : Option WarpRef :=
  match i with
  | .instructionFetch w => some w
  | .runHeader w => some w
  | .runCommit w => some w
  | _ => none

/-- Whether an instruction is an encoded one, which only a run issues. -/
def isEncoded (i : Instr) : Bool :=
  match encode i with
  | some _ => true
  | none => false

/-- Whether the act of a warp in this cycle raises a trap (R344). -/
def State.trapsNow (s : State) (w : WarpRef) (p : Warp) : Bool :=
  s.faultsNow w && (match s.asks w p with
    | .free => s.mayAct w p
    | .commit => false
    | _ => s.issuesNow w p)

/-- Whether a core's next warp is one of an `ams` launch that must wait for warps of lower slots to reserve, or for the next cycle
(R213). -/
def State.amsWaits (s : State) (core : Nat) : Bool :=
  match s.nextUnit core, s.pick ((s.core core).freeSlots 0 60) with
  | some (_, l, _), some q =>
    l.ams && (s.owesIssue core (fun v => slotKey v < 2 * q)
      || (match (s.core core).acted with | some n => 2 * q < n | none => false))
  | _, _ => false

/-- Whether the entry into the active set that a core owes in this cycle is a warp's, and its act in the cycle then raises a trap
(R33, R344). -/
def State.trapsOnEntry (s : State) (w : WarpRef) : Bool :=
  s.owesEntry w.core && s.entrant w.core s.throttle == some w
    && (match execActiveSetEntry w.core s with
      | .next t => (match t.warp? w with | some p => t.trapsNow w p | none => false)
      | _ => false)

/-- Whether an event gives way: to a chain group that is being issued; WDOG to a trap of the warp in its cycle (R344); the warp of
an `ams` launch to the reservations of lower slots (R213). -/
def State.givesWay (s : State) (i : Instr) : Bool :=
  s.inChain.isSome || (match i with
    | .watchdogExpiry w => (match s.warp? w with | some p => s.trapsNow w p || s.trapsOnEntry w | none => false)
    | .warpCreation c => s.amsWaits c
    | _ => false)

/-- An event of the agenda: an act of a warp is made under the rules of issue, an encoded instruction is none, and a halted
device makes only a power-up (R385). -/
def State.eventAct (s : State) (i : Instr) : Host.Outcome State Fault Refusal :=
  match actOf i with
  | some w => s.issueAct w
  | none =>
    if isEncoded i || (s.dev.halted && i != .powerUp) || s.givesWay i then .next s else exec i s

/-! ### The placing of an instruction -/

/-- A run that holds one slot and then a `trail`, as placed for the fetch of an instruction. -/
def Run.single (w : BitVec 32) : Run where
  hdr := 0#64
  src := { addr := 0#64, hdr := 0#128, packs := [] }
  b0 := 0
  b1 := 1
  slots := [(w, 0#10, 16#64), (0x01000000#32, 0#10, 16#64)]
  fall := 32#64
  pos := 1
  ops := (0#64, 0#64)
  win := []
  sets := []
  setEff := []
  pend := []
  held := []
  res := { claim := none, entries := [], chunks := [], tags := [], tokens := [], places := [], merges := 0 }
  give := none
  xfer := .fall
  flags := 0#5
  srs := []
  yield := false
  ppoint := none
  soft := none
  mem := false
  sfq := []
  commit := none
  waitId := none

/-- The card of the launch that runs a placed instruction: one warp of 32 threads, the default footprint. -/
def placedCard : Card where
  addr := 0
  entry := 0#64
  hdr := 0#64
  arg := 0#64
  nthr := 32
  near := 0
  wpc := 60
  tc := 0
  rg := 8
  seed := 0#64
  spbase := 0#64
  tvt := 0#64
  dbm := 0#16
  spn := 0
  pri := 0
  depth := 0
  argk := false
  det := false
  mode := 0
  succ := 0#64
  own := 0#64
  ownn := 0
  seg := 0#64
  slog := 0
  shadows := []
  laswap := false
  lause := false

/-- The state with a launch of one warp, in slot 0 of core 0 and in the active set, that stands at position 1 of a run of the
slot word; the next step issues it. -/
def State.placeSlot (s : State) (word : BitVec 32) : State :=
  let id := s.dev.nextLaunch
  let l : Launch := { newLaunch id 0 placedCard [] 0 true false none [] with
    units := 1, places := [newPlace 0 0 placedCard []] }
  let p : Warp := { placed id s.dev.nextStamp with run := some (Run.single word), sched := .active }
  { s with
    launches := Dict.put s.launches id l
    cores := listChange s.cores 0 fun k =>
      { k with started := true, fenced := false, draining := false, ports := 0, acted := none, seen := none, preempts := []
               warps := Dict.put [] 0 p, hnds := [] }
    dev := { s.dev with nextLaunch := id + 1, nextStamp := s.dev.nextStamp + 1, halted := false }
    chain := none
    agenda := .issue { core := 0, slot := 0, hnd := false } :: s.agenda }
where
  placed (id stamp : Nat) : Warp :=
    Warp.fresh stamp id .ordinary 0 0 8 0xFFFFFFFF#32 ((List.range 32).map fun i => BitVec.ofNat 64 i) 0#64

end Sys2Proof.Machine
end

