-- ==== Sys2Proof/Machine/Step.lean ====
section
/-!
DEFINITION. One step of the device, and the placing of an instruction where the next step runs it. A step makes the first
act of the agenda; where the agenda is empty it takes the act that comes next from the free choice of log 2.
-/

namespace Sys2Proof.Machine

/-- One step. -/
def step (s : State) : Host.Outcome State Fault Refusal :=
  match s.agenda with
  | [] => .next { s with agenda := [Config.freeAct s.oracle], oracle := s.oracle + 1 }
  | .issue w :: r => { s with agenda := r }.issueAct w
  | .tick :: r => .next { s with agenda := r }.cycle
  | .event i :: r => { s with agenda := r }.eventAct i

/-- The state with an instruction placed where the next step runs it: the slot whose word is `w`, of `nbits` bits, with a
zero extension. -/
def State.withFetchWord (s : State) (nbits w : Nat) : State := s.placeSlot (BitVec.ofNat 32 (w % 2 ^ nbits))

end Sys2Proof.Machine
end

