-- ==== Sys2Proof/Safety.lean ====
section
/-!
DEFINITION. What a safe run of the device is, and the words the statements use: what the meaning of an instruction sees,
the state after it issues, and the shape of a result made element by element.
-/

namespace Sys2Proof.Machine

/-- A step that goes on: neither a fault nor a refusal. -/
def Proceeds (s : State) : Prop := ∃ t, step s = .next t

/-- Every list of addressed bytes of the state is in its canonical form: HBM and host memory, and each core's near slice. -/
def State.memoriesWf (s : State) : Bool := s.mem.wf && s.cores.all fun c => Memory.wf c.near

/-- What the meaning of an instruction sees where the warp in focus has a run and the instruction's entry accepts its
fields; none otherwise. -/
def State.sees (s : State) (i : Instr) : Option Ctx := if i.legal then s.focus.bind s.ctx? else none

/-- The state after an instruction of a context's run issues and leaves run `r`: the run goes on behind it (R64). -/
def State.issued (s : State) (c : Ctx) (r : Run) : State := s.modWarp c.w fun p => { p with run := some r.advance }

/-- The state in which the instruction that issues has taken a trap (R343). -/
def State.trapped (s : State) (c : Ctx) (code : Code) (info : Nat := 0) : State := s.takeTrap c.w (c.trap code info)

/-- Whether an instruction need not wait for its set operand or for one of some operand codes (R64, R224). -/
def Ctx.ready (c : Ctx) (k : BitVec 3) (codes : List (BitVec 5)) : Prop :=
  c.busyK k.toNat = false ∧ c.busy codes = false

/-- Element `e` of what a run holds in a window slot or temporary, in lane `j` (R51, R84). -/
def Run.element (r : Run) (f : EFmt) (d : BitVec 5) (j e : Nat) : Nat :=
  subOf f (Tab.get 0#64 r.win (32 * d.toNat + j)) e

/-- An instruction completes and writes its destination element by element (R157): each element of each lane of the mask
is as `g` says, flags `fl` arise, and nothing else of the run changes. A destination `z` takes nothing. -/
def ElementWise (s : State) (c : Ctx) (m : Mask) (i : Instr) (d : BitVec 5) (f : EFmt) (g : Nat → Nat → Nat)
    (fl : BitVec 5) : Prop :=
  ∃ r, exec i s = .next (s.issued c r) ∧
    r = { c.r with win := r.win, flags := c.r.flags ||| fl } ∧
    (d.toNat < 24 → ∀ j e, m.getLsbD j = true → e < f.count → r.element f d j e = g j e) ∧
    ∀ key, (d.toNat < 24 → ∀ j, m.getLsbD j = true → key ≠ 32 * d.toNat + j) →
      Tab.get 0#64 r.win key = Tab.get 0#64 c.r.win key

/-- The same for a result of whole 64-bit registers: lane `j` takes `g j`, and no flag arises. -/
def LaneWise (s : State) (c : Ctx) (m : Mask) (i : Instr) (d : BitVec 5) (g : Nat → Word) : Prop :=
  ∃ r, exec i s = .next (s.issued c r) ∧
    r = { c.r with win := r.win } ∧
    (d.toNat < 24 → ∀ j, m.getLsbD j = true → Tab.get 0#64 r.win (32 * d.toNat + j) = g j) ∧
    ∀ key, (d.toNat < 24 → ∀ j, m.getLsbD j = true → key ≠ 32 * d.toNat + j) →
      Tab.get 0#64 r.win key = Tab.get 0#64 c.r.win key

/-- The set operand, the destination, the other operand codes and whether the result is awaited (R64), of the instructions
that act on the lanes of a set operand and write one destination alone. -/
def laneForm : Instr → Option (BitVec 3 × BitVec 5 × List (BitVec 5) × Bool)
  | .add o _ _ | .sub o _ _ | .mul o _ _ | .min o _ | .max o _ | .mulhi o _ | .and o | .or o | .xor o | .andn o
  | .shl o _ | .shr o _ | .sar o _ | .rot o _ | .cmp o _ _ | .lea o _ | .fmin o _ _ | .fmax o _ _ =>
    some (o.k, o.d, [o.a, o.b], false)
  | .fadd o _ _ _ | .fsub o _ _ _ | .fmul o _ _ _ | .fscl o _ _ _ => some (o.k, o.d, [o.a, o.b], false)
  | .mad o _ _ | .sel o | .fdot2 o _ _ _ | .fma o _ _ _ | .fnma o _ _ _ => some (o.k, o.d, [o.a, o.b, o.x], false)
  | .fsgn o _ opc => some (o.k, o.d, if opc.toNat = 2 then [o.a, o.b] else [o.a], false)
  | .clz k d a _ | .ctz k d a _ | .popc k d a _ | .brev k d a _ => some (k, d, [a], false)
  | .abs k d a _ _ | .neg k d a _ _ => some (k, d, [a], false)
  | .ext k d a _ _ _ => some (k, d, [a], false)
  | .ins k d a _ _ => some (k, d, [a], false)
  | .movi k d _ => some (k, d, [], false)
  | .movh k d a _ | .addi k d a _ => some (k, d, [a], false)
  | .icvt k d a _ _ _ _ => some (k, d, [a], false)
  | .frnd k d a _ _ _ => some (k, d, [a], false)
  | .fcvt k d a _ _ _ _ _ => some (k, d, [a], false)
  | .sfp k d => some (k, d, [], false)
  | .xperm o _ _ | .xbc o _ _ => some (o.k, o.d, [o.a, o.b], true)
  | .xshf o _ _ _ => some (o.k, o.d, [o.a, o.b], true)
  | .xbal k d a _ _ => some (k, d, [a], true)
  | .xred k d a _ _ _ _ _ => some (k, d, [a], true)
  | .xscan k d a _ _ _ _ _ _ => some (k, d, [a], true)
  | .xtopk k d a b _ _ _ _ => some (k, d, [a, b], true)
  | _ => none

/-- The set operand and the operand codes of the memory instructions that act on the lanes of a set operand. -/
def memoryForm : Instr → Option (BitVec 3 × List (BitVec 5))
  | .ld o sz _ _ | .st o sz _ => some (o.k, szCodes o.d sz ++ [o.a, o.b])
  | .ldn o sz _ => some (o.k, szCodes o.d sz ++ [o.a, o.b])
  | .stn o sz => some (o.k, szCodes o.d sz ++ [o.a, o.b])
  | .ldt o _ _ _ _ _ => some (o.k, [o.d, o.a, o.b])
  | .stt o _ _ _ _ => some (o.k, [o.d, o.a, o.b])
  | .pref k a b _ _ | .rwr k a b _ => some (k, [a, b])
  | .atomAdd o _ _ | .atomFadd o _ _ | .atomBinc o _ _ | .atomXchg o _ _ | .atomMinS o _ _ | .atomMaxS o _ _
  | .atomMinU o _ _ | .atomMaxU o _ _ | .atomAnd o _ _ | .atomOr o _ _ | .atomXor o _ _ => some (o.k, [o.d, o.a, o.b])
  | .atomCas o _ _ => some (o.k, [o.d, o.a, o.b, o.x])
  | .acq k d a _ _ | .fread k d a _ _ => some (k, [d, a])
  | .rel k a _ => some (k, [a])
  | .ffill k a b _ _ => some (k, [a, b])
  | .fclr k a _ _ => some (k, [a])
  | _ => none

/-- The k field of the engine commands (R239). -/
def engineSet : Instr → Option (BitVec 3)
  | .cpy k _ _ _ _ _ | .cpym k _ _ _ _ _ => some k
  | .mloop k _ _ _ _ _ _ => some k
  | .mzero k _ => some k
  | .mrdN k _ _ _ _ => some k
  | .mwrN k _ _ => some k
  | .mrdW k _ _ _ _ _ => some k
  | .mwrW k _ _ _ => some k
  | .lacfg k _ => some k
  | .laseed k _ _ | .swsub k _ _ | .lawrW k _ _ => some k
  | .lafb k _ _ _ | .lawrN k _ _ _ | .swmerge k _ _ _ => some k
  | .lainfN k _ _ _ _ => some k
  | .lardN k _ _ _ _ _ => some k
  | .lainfW k _ _ _ _ | .lardW k _ _ _ _ => some k
  | .swleave k _ => some k
  | .swgo k _ _ _ => some k
  | .swrd k _ _ _ => some k
  | _ => none

/-- An instruction completes, awaiting values of one register of the lanes of the mask: the run waits for them under the
core's next identifier, flags `fl` arise, and nothing else of the run changes (R64). With no lane it does nothing. -/
def Awaits (s : State) (c : Ctx) (m : Mask) (i : Instr) (d : BitVec 5) (la : BitVec 4) (vals : List (Nat × Word))
    (fl : BitVec 5) : Prop :=
  if m = 0#32 then exec i s = .next (s.issued c c.r)
  else exec i s = .next ((s.freshId c.w.core).2.issued c
    ((c.r.await (s.freshId c.w.core).1 (.win d 1) vals la).flag fl))

end Sys2Proof.Machine
end

