-- ==== Sys2Proof/Certificates/Slice0/Obligations.lean ====
section
/-!
DEFINITION. The statements for the provers. Each docstring names the rules of the spec it rests on.
-/

section

open Sys2Proof Sys2Proof.Machine

/-! ### Integer and address instructions -/

/-- R160: the elements of the forms of 0x20 and 0x21, wrapped, or clamped under `.sat` with the SAT flag. -/
def Obligations.IntegerArithmeticElements : Prop :=
  ∀ (s : State) (c : Ctx) (m : Mask) (o : Opnds) (ity : BitVec 3) (sat : BitVec 1),
    c.mask o.k = some m →
    let f := ityFmt ity
    let a (j e : Nat) : Int := intOf f (subOf f (c.src o.a o.x j) e)
    let b (j e : Nat) : Int := intOf f (c.subB f o j e)
    let wrapped (i : Instr) (r : Nat → Nat → Int) : Prop :=
      s.sees i = some c → ElementWise s c m i o.d f (fun j e => wrapInt f (r j e)) 0#5
    let arithmetic (i : Instr) (r : Nat → Nat → Int) : Prop :=
      s.sees i = some c →
        ElementWise s c m i o.d f
          (fun j e => wrapInt f (if sat = 1#1 then max (intBounds f).1 (min (intBounds f).2 (r j e)) else r j e))
          (flagIf (sat == 1#1 && m.toList.any fun j => (List.range f.count).any fun e =>
            decide (r j e < (intBounds f).1 ∨ (intBounds f).2 < r j e)) fSAT)
    (c.ready o.k [o.d, o.a, o.b] →
      arithmetic (.add o ity sat) (fun j e => a j e + b j e) ∧
      arithmetic (.sub o ity sat) (fun j e => a j e - b j e) ∧
      arithmetic (.mul o ity sat) (fun j e => a j e * b j e) ∧
      wrapped (.min o ity) (fun j e => min (a j e) (b j e)) ∧
      wrapped (.max o ity) (fun j e => max (a j e) (b j e)) ∧
      wrapped (.mulhi o ity) (fun j e => a j e * b j e / (2 ^ f.width : Nat))) ∧
    (c.ready o.k [o.d, o.a, o.b, o.x] →
      arithmetic (.mad o ity sat) (fun j e =>
        a j e * intOf f (subOf f (c.src o.b o.x j) e) + intOf f (subOf f (c.src o.x o.x j) e)))

/-- R162: shifts, their counts taken modulo the width, and the bit counts and the bit reversal, bit by bit. -/
def Obligations.ShiftAndBitCountElements : Prop :=
  ∀ (s : State) (c : Ctx) (m : Mask) (ity : BitVec 3),
    let f := ityFmt ity
    (∀ o : Opnds, c.mask o.k = some m → c.ready o.k [o.d, o.a, o.b] →
      let a (j e : Nat) : Nat := subOf f (c.src o.a o.x j) e
      let n (j e : Nat) : Nat := c.subB f o j e % f.width
      let gives (i : Instr) (g : Nat → Nat → Nat) : Prop := s.sees i = some c → ElementWise s c m i o.d f g 0#5
      gives (.shl o ity) (fun j e => a j e * 2 ^ n j e % 2 ^ f.width) ∧
      gives (.shr o ity) (fun j e => a j e / 2 ^ n j e) ∧
      gives (.sar o ity) (fun j e => wrapInt f (signedOf f.width (a j e) / (2 ^ n j e : Nat))) ∧
      gives (.rot o ity) (fun j e => (a j e * 2 ^ n j e % 2 ^ f.width) ||| (a j e / 2 ^ (f.width - n j e)))) ∧
    ∀ (k : BitVec 3) (d a : BitVec 5), c.mask k = some m → c.ready k [d, a] →
      let x (j e : Nat) : Nat := subOf f (c.src a 0#5 j) e
      let ElementIs (i : Instr) (p : Nat → Nat → Prop) : Prop :=
        s.sees i = some c → ∃ g, ElementWise s c m i d f g 0#5 ∧
          ∀ j e, m.getLsbD j = true → e < f.count → p (x j e) (g j e)
      ElementIs (.clz k d a ity)
        (fun v r => r ≤ f.width ∧ v < 2 ^ (f.width - r) ∧ (r < f.width → 2 ^ (f.width - r - 1) ≤ v)) ∧
      ElementIs (.ctz k d a ity) (fun v r => r ≤ f.width ∧ v % 2 ^ r = 0 ∧ (r < f.width → v.testBit r = true)) ∧
      ElementIs (.popc k d a ity) (fun v r => r = ((List.range f.width).filter fun b => v.testBit b).length) ∧
      ElementIs (.brev k d a ity)
        (fun v r => r < 2 ^ f.width ∧ ∀ b, b < f.width → r.testBit b = v.testBit (f.width - 1 - b))

/-- R163 and R164: comparisons give all ones or zero; magnitudes and negations wrap, or are clamped under `.sat`. -/
def Obligations.CompareAndSignElements : Prop :=
  ∀ (s : State) (c : Ctx) (m : Mask) (ity : BitVec 3),
    let f := ityFmt ity
    (∀ (o : Opnds) (cc : BitVec 3), c.mask o.k = some m → c.ready o.k [o.d, o.a, o.b] →
      s.sees (.cmp o ity cc) = some c →
      ElementWise s c m (.cmp o ity cc) o.d f
        (fun j e =>
          let a := intOf f (subOf f (c.src o.a o.x j) e)
          let b := intOf f (c.subB f o j e)
          if (match cc.toNat with
              | 0 => decide (a = b) | 1 => decide (a ≠ b) | 2 => decide (a < b)
              | 3 => decide (a ≤ b) | 4 => decide (b < a) | _ => decide (b ≤ a)) = true
          then 2 ^ f.width - 1 else 0) 0#5) ∧
    ∀ (k : BitVec 3) (d a : BitVec 5) (sat : BitVec 1), c.mask k = some m → c.ready k [d, a] →
      let x (j e : Nat) : Int := intOf f (subOf f (c.src a 0#5 j) e)
      let gives (i : Instr) (r : Nat → Nat → Int) : Prop :=
        s.sees i = some c →
          ElementWise s c m i d f
            (fun j e => wrapInt f (if sat = 1#1 then max (intBounds f).1 (min (intBounds f).2 (r j e)) else r j e))
            (flagIf (sat == 1#1 && m.toList.any fun j => (List.range f.count).any fun e =>
              decide (r j e < (intBounds f).1 ∨ (intBounds f).2 < r j e)) fSAT)
      gives (.abs k d a ity sat) (fun j e => |x j e|) ∧ gives (.neg k d a ity sat) (fun j e => -x j e)

/-- R161, R165 and R166: the bitwise forms, bit fields, constants and address sums. -/
def Obligations.BitwiseAndFieldResults : Prop :=
  ∀ (s : State) (c : Ctx) (m : Mask),
    let gives (k : BitVec 3) (codes : List (BitVec 5)) (i : Instr) (d : BitVec 5) (g : Nat → Word) : Prop :=
      c.mask k = some m → c.ready k (d :: codes) → s.sees i = some c → LaneWise s c m i d g
    (∀ (k : BitVec 3) (d a : BitVec 5) (lenm p : BitVec 6),
      gives k [a] (.ext k d a 0#1 lenm p) d (fun j =>
        (c.src a 0#5 j >>> p.toNat) &&& BitVec.ofNat 64 (2 ^ (lenm.toNat + 1) - 1)) ∧
      gives k [a] (.ext k d a 1#1 lenm p) d (fun j =>
        (c.src a 0#5 j <<< (63 - lenm.toNat - p.toNat)).sshiftRight (63 - lenm.toNat)) ∧
      gives k [a] (.ins k d a lenm p) d (fun j =>
        let field : Word := BitVec.ofNat 64 (2 ^ (lenm.toNat + 1) - 1) <<< p.toNat
        (c.src d 0#5 j &&& ~~~field) ||| ((c.src a 0#5 j <<< p.toNat) &&& field))) ∧
    (∀ (k : BitVec 3) (d a : BitVec 5) (imm : BitVec 16),
      gives k [] (.movi k d imm) d (fun _ => imm.signExtend 64) ∧
      gives k [a] (.movh k d a imm) d (fun j => (c.src a 0#5 j <<< 16) ||| imm.setWidth 64) ∧
      gives k [a] (.addi k d a imm) d (fun j => c.src a 0#5 j + imm.signExtend 64)) ∧
    ∀ (o : Opnds) (sh : BitVec 3),
      let a (j : Nat) : Word := c.src o.a o.x j
      let b (j : Nat) : Word := c.src o.b o.x j
      gives o.k [o.a, o.b] (.and o) o.d (fun j => a j &&& b j) ∧
      gives o.k [o.a, o.b] (.or o) o.d (fun j => a j ||| b j) ∧
      gives o.k [o.a, o.b] (.xor o) o.d (fun j => a j ^^^ b j) ∧
      gives o.k [o.a, o.b] (.andn o) o.d (fun j => a j &&& ~~~b j) ∧
      gives o.k [o.a, o.b, o.x] (.sel o) o.d (fun j => (a j &&& c.src o.x o.x j) ||| (b j &&& ~~~c.src o.x o.x j)) ∧
      gives o.k [o.a, o.b] (.lea o sh) o.d (fun j => c.src o.a o.x j + (c.src o.b o.x j <<< sh.toNat))

/-- R167 and R168: an integer conversion, part by part: a narrower or equal destination takes the part's elements, a wider
one fills its own part and keeps the others. -/
def Obligations.IntegerConversionElements : Prop :=
  ∀ (s : State) (c : Ctx) (m : Mask) (k : BitVec 3) (d a : BitVec 5) (dst src : BitVec 3) (sat : BitVec 1) (part : BitVec 3),
    c.mask k = some m → c.ready k [d, a] → s.sees (.icvt k d a dst src sat part) = some c →
    let f := ityFmt dst
    let g := ityFmt src
    let p := part.toNat
    let source (e : Nat) : Option Nat :=
      if f.count ≤ g.count then (if p * f.count + e < g.count then some (p * f.count + e) else none)
      else if p * g.count ≤ e ∧ e < (p + 1) * g.count then some (e - p * g.count) else none
    let value (j n : Nat) : Int := intOf g (subOf g (c.src a 0#5 j) n)
    let outside (v : Int) : Bool := decide (v < (intBounds f).1 ∨ (intBounds f).2 < v)
    ElementWise s c m (.icvt k d a dst src sat part) d f
      (fun j e =>
        match source e with
        | some n =>
          wrapInt f (if sat = 1#1 then max (intBounds f).1 (min (intBounds f).2 (value j n)) else value j n)
        | none => if f.count ≤ g.count then 0 else subOf f (c.src d 0#5 j) e)
      (flagIf (sat == 1#1 && m.toList.any fun j => (List.range f.count).any fun e =>
        match source e with
        | some n => outside (value j n)
        | none => false) fSAT)

/-! ### What every instruction on lanes has in common -/

/-- R32, R64, R216: where its set operand, its destination or a source is awaited, an instruction on lanes stalls; else, where
its set operand names no lanes of the issuing warp, it raises SETKIND. -/
def Obligations.LaneInstructionsStallOrTrap : Prop :=
  ∀ (s : State) (c : Ctx) (i : Instr) (k : BitVec 3) (d : BitVec 5) (uses : List (BitVec 5)) (late : Bool),
    laneForm i = some (k, d, uses, late) → s.sees i = some c →
    (¬ c.ready k (d :: uses) → exec i s = .next { s with stall := true }) ∧
    (c.ready k (d :: uses) → c.mask k = none → exec i s = .next (s.trapped c .setkind))

/-- R52, R157, R11: the frame of the instructions on lanes. They complete; what they change of the state is the run of the
warp that issues (and, where the result is awaited, the core's next identifier), and of the run the destination, the
flags, the counts of stochastic roundings and the awaited values. Main registers, set registers, staged effects, memory
and every other warp stand. -/
def Obligations.LaneInstructionFrame : Prop :=
  ∀ (s : State) (c : Ctx) (m : Mask) (i : Instr) (k : BitVec 3) (d : BitVec 5) (uses : List (BitVec 5)) (late : Bool),
    laneForm i = some (k, d, uses, late) → s.sees i = some c → c.ready k (d :: uses) → c.mask k = some m →
    ∃ r n, exec i s = .next ((s.modCore c.w.core fun q => { q with nextId := q.nextId + n }).issued c r) ∧
      n ≤ (if late then 1 else 0) ∧
      r = { c.r with win := r.win, flags := r.flags, srs := r.srs, pend := r.pend } ∧
      (if late then r.win = c.r.win ∧ (m = 0#32 → r = c.r) else r.pend = c.r.pend) ∧
      ∀ key, (d.toNat < 24 → ∀ j, m.getLsbD j = true → key ≠ 32 * d.toNat + j) →
        Tab.get 0#64 r.win key = Tab.get 0#64 c.r.win key

/-- R80, R239, R344: an instruction one of whose fields its entry refuses raises ILLOP, whatever else is wrong with it; an
engine command that passes and whose k field is not 0b000 raises ENGSET. -/
def Obligations.RefusedFieldsTrap : Prop :=
  ∀ (s : State) (c : Ctx) (i : Instr),
    (∀ w : WarpRef, isEncoded i = true → s.focus = some w → s.ctx? w = some c → i.legal = false →
      exec i s = .next (s.trapped c .illop)) ∧
    (∀ k : BitVec 3, engineSet i = some k → s.sees i = some c → k ≠ 0#3 → exec i s = .next (s.trapped c .engset))

/-! ### Float instructions -/

/-- R171, R98, R99: sums, products and fused forms are the exact result rounded once under the mode of the instruction, with
the flags of the operation and of the rounding; a stochastic rounding counts once in each lane. -/
def Obligations.FloatArithmeticResults : Prop :=
  ∀ (s : State) (c : Ctx) (m : Mask) (o : Opnds) (ty : BitVec 2) (rm : BitVec 3) (ftz : BitVec 1),
    c.mask o.k = some m →
    let f := tyFmt ty
    let read (v : Nat) : Val := decodeFtz f (ftz == 1#1) v
    let a (j e : Nat) : Val := read (subOf f (c.src o.a o.x j) e)
    let b (j e : Nat) : Val := read (c.subB f o j e)
    let b' (j e : Nat) : Val := read (subOf f (c.src o.b o.x j) e)
    let x (j e : Nat) : Val := read (subOf f (c.src o.x o.x j) e)
    let gives (i : Instr) (g : Nat → Nat → Val × BitVec 5) : Prop :=
      s.sees i = some c →
        let res (j e : Nat) : Nat × BitVec 5 := floatResult f rm ftz (c.random j e) (g j e)
        exec i s = .next (s.issued c (Run.rounded
          ((c.r.write o.d m fun j => packSubs f ((List.range f.count).map fun e => (res j e).1)).flag
            (m.toList.foldl (fun x j => x ||| (List.range f.count).foldl (fun y e => y ||| (res j e).2) 0#5) 0#5)) rm m))
    (c.ready o.k [o.d, o.a, o.b] →
      gives (.fadd o ty rm ftz) (fun j e => (a j e).add rm (b j e)) ∧
      gives (.fsub o ty rm ftz) (fun j e => (a j e).add rm (b j e).flip) ∧
      gives (.fmul o ty rm ftz) (fun j e => (a j e).mul (b j e)) ∧
      gives (.fscl o ty rm ftz) (fun j e =>
        ((a j e).scale (if o.b.toNat = 29 then o.x.toInt else scaleOf f (subOf f (c.src o.b o.x j) e)), 0#5))) ∧
    (c.ready o.k [o.d, o.a, o.b, o.x] →
      gives (.fma o ty rm ftz) (fun j e =>
        let p := (a j e).mul (b' j e)
        ((p.1.add rm (x j e)).1, p.2 ||| (p.1.add rm (x j e)).2)) ∧
      gives (.fnma o ty rm ftz) (fun j e =>
        let p := (a j e).mul (b' j e)
        ((p.1.flip.add rm (x j e)).1, p.2 ||| (p.1.flip.add rm (x j e)).2)))

/-- R171 to R176: minimum and maximum, the tree product sum, the sign operations, rounding to an integral value and
conversion. -/
def Obligations.FloatSelectionAndConversionResults : Prop :=
  ∀ (s : State) (c : Ctx) (m : Mask),
    let gives (k : BitVec 3) (codes : List (BitVec 5)) (i : Instr) (d : BitVec 5) (rm : BitVec 3)
        (g : Nat → Word × BitVec 5) : Prop :=
      c.mask k = some m → c.ready k (d :: codes) → s.sees i = some c →
      exec i s = .next (s.issued c (Run.rounded
        ((c.r.write d m fun j => (g j).1).flag (m.toList.foldl (fun x j => x ||| (g j).2) 0#5)) rm m))
    (∀ (o : Opnds) (ty : BitVec 2) (ftz : BitVec 1),
      let f := tyFmt ty
      let minOrMax (big : Bool) (j : Nat) : Word × BitVec 5 := mapSubs f fun e =>
        minMax f (ftz == 1#1) big (subOf f (c.src o.a o.x j) e) (c.subB f o j e)
      gives o.k [o.a, o.b] (.fmin o ty ftz) o.d 0#3 (minOrMax false) ∧
      gives o.k [o.a, o.b] (.fmax o ty ftz) o.d 0#3 (minOrMax true)) ∧
    (∀ (o : Opnds) (ty : BitVec 2) (rm : BitVec 3) (ftz : BitVec 1),
      gives o.k [o.a, o.b, o.x] (.fdot2 o ty rm ftz) o.d 0#3 (fun j =>
        dot2 (tyFmt ty) rm ftz (c.src o.a o.x j) (c.src o.b o.x j) (c.src o.x o.x j))) ∧
    (∀ (o : Opnds) (e : BitVec 4) (opc : BitVec 2),
      let f := EFmt.ofCode e
      gives o.k (if opc.toNat = 2 then [o.a, o.b] else [o.a]) (.fsgn o e opc) o.d 0#3 (fun j => mapSubs f fun n =>
        (signOp f (subOf f (c.src o.a o.x j) n) fun sign =>
          match opc.toNat with
          | 0 => !sign
          | 1 => false
          | _ => (c.subB f o j n).testBit (f.width - 1), 0#5))) ∧
    ∀ (k : BitVec 3) (d a : BitVec 5) (rm : BitVec 3) (ftz : BitVec 1),
      (∀ ty : BitVec 2,
        gives k [a] (.frnd k d a ty rm ftz) d rm (fun j => mapSubs (tyFmt ty) fun e =>
          integral (tyFmt ty) rm ftz (c.random j e) (subOf (tyFmt ty) (c.src a 0#5 j) e))) ∧
      ∀ dst src part : BitVec 4,
        gives k [a] (.fcvt k d a dst src rm ftz part) d rm (fun j =>
          convertParts (EFmt.ofCode src) (EFmt.ofCode dst) part.toNat (c.src a 0#5 j) (c.src d 0#5 j) fun e v =>
            encodeVal (EFmt.ofCode dst) rm (ftz == 1#1) (c.random j e) (decodeFtz (EFmt.ofCode src) (ftz == 1#1) v))

/-! ### Cross-lane instructions and the special-function queue -/

/-- R178, R179: the moves read elements of the whole warp as they stand at issue, an absent lane as zero, and the results
are awaited. -/
def Obligations.CrossLaneMoveResults : Prop :=
  ∀ (s : State) (c : Ctx) (m : Mask) (o : Opnds) (wd : BitVec 3) (la : BitVec 4),
    c.mask o.k = some m →
    let f := wdFmt wd
    let total := 32 * f.count
    let source (e : Nat) : Nat :=
      if c.p.live.getLsbD (e / f.count) then subOf f (c.src o.a o.x (e / f.count)) (e % f.count) else 0
    let n : Nat := (c.low m o.b o.x).toNat
    let moved (g : Nat → Nat → Nat) : List (Nat × Word) :=
      m.toList.map fun j => (j, packSubs f ((List.range f.count).map (g j)))
    (c.ready o.k [o.d, o.a, o.b] →
      (s.sees (.xperm o wd la) = some c →
        Awaits s c m (.xperm o wd la) o.d la
          (moved fun j e =>
            source ((if o.b.toNat = 29 then wrapInt f o.x.toInt else subOf f (c.src o.b o.x j) e) % total)) 0#5) ∧
      (s.sees (.xbc o wd la) = some c →
        Awaits s c m (.xbc o wd la) o.d la (moved fun _ _ => source (n % total)) 0#5) ∧
      ∀ mode : BitVec 2, s.sees (.xshf o wd mode la) = some c →
        Awaits s c m (.xshf o wd mode la) o.d la
          (moved fun j i =>
            let e := f.count * j + i
            match mode.toNat with
            | 0 => if e < n then 0 else source (e - n)
            | 1 => if total ≤ e + n then 0 else source (e + n)
            | 2 => source ((e + n) % total)
            | _ => if total ≤ e ^^^ (n % total) then 0 else source (e ^^^ (n % total))) 0#5) ∧
    (c.ready o.k [o.d, o.a] → s.sees (.xbal o.k o.d o.a wd la) = some c →
      ∃ v : Word, Awaits s c m (.xbal o.k o.d o.a wd la) o.d la (m.toList.map fun j => (j, v)) 0#5 ∧
        ∀ e, e < 64 → v.getLsbD e =
          (m.getLsbD (e / f.count) && c.p.live.getLsbD (e / f.count) &&
            decide (subOf f (c.src o.a 0#5 (e / f.count)) (e % f.count) ≠ 0)))

/-- R180 to R182: reductions, prefix results and ranked selections of the elements of the lanes named, in lane order. That the flags
of `xscan` are those of its prefixes alone, so that the last element of `.exc` raises none, is the model's choice (log 83). -/
def Obligations.CrossLaneReductionResults : Prop :=
  ∀ (s : State) (c : Ctx) (m : Mask) (k : BitVec 3) (d a b : BitVec 5) (rty : BitVec 4) (la : BitVec 4),
    c.mask k = some m →
    let f := rtyFmt rty
    let codes : List Nat := m.toList.flatMap fun j => (List.range f.count).map fun e => subOf f (c.src a 0#5 j) e
    (∀ (rop : BitVec 2) (rm : BitVec 3) (ftz exc : BitVec 1), c.ready k [d, a] →
      (s.sees (.xred k d a rty rop rm ftz la) = some c →
        Awaits s c m (.xred k d a rty rop rm ftz la) d la
          (m.toList.map fun j =>
            (j, packSubs f ((List.range f.count).map fun _ => (reduce f rop rm ftz codes).1)))
          (reduce f rop rm ftz codes).2) ∧
      (s.sees (.xscan k d a rty rop rm ftz exc la) = some c →
        let pre (n : Nat) : Nat × BitVec 5 := reduce f rop rm ftz (codes.take (if exc = 1#1 then n else n + 1))
        Awaits s c m (.xscan k d a rty rop rm ftz exc la) d la
          (m.toList.zipIdx.map fun e =>
            (e.1, packSubs f ((List.range f.count).map fun i => (pre (e.2 * f.count + i)).1)))
          ((List.range codes.length).foldl (fun x n => x ||| (pre n).2) 0#5))) ∧
    ∀ (sel : BitVec 1) (km1 : BitVec 5), c.ready k [d, a, b] → s.sees (.xtopk k d a b rty sel km1 la) = some c →
      let keys : List (Nat × Word) := m.toList.flatMap fun j =>
        (List.range f.count).map fun e => (subOf f (c.src a 0#5 j) e, c.src b 0#5 j + BitVec.ofNat 64 e)
      Awaits s c m (.xtopk k d a b rty sel km1 la) d la
        (m.toList.map fun j =>
          (j, match (if j ≤ km1.toNat then (rankKeys f keys)[j]? else none) with
              | some x => if sel = 0#1 then BitVec.ofNat 64 x.1 else x.2
              | none => BitVec.allOnes 64)) 0#5

/-- R185, R186, R189, R191: the special-function queue. An operation takes the lowest free token, which every live lane named
reads, and is staged for the commit; `sfw` goes on once no token it names is busy; `sfp` reads the free tokens. The model's choice,
log 61 (DEDUCED): where a and b name one slot, the operand staged is a as it stood before the token is written to b, though R186's
pseudocode writes b first. -/
def Obligations.SpecialFunctionQueueResults : Prop :=
  ∀ (s : State) (c : Ctx),
    (∀ (m : Mask) (k : BitVec 3) (d a b : BitVec 5) (ty : BitVec 2) (fn : BitVec 4) (ftz : BitVec 1) (t : Nat),
      s.sees (.sfq k d a b ty fn ftz) = some c → c.mask k = some m → c.ready k [a, b] →
      c.r.regOf d.toNat < 8 * c.own.g →
      (c.p.marks.any fun x => x.reg == c.r.regOf d.toNat) = false →
      (c.r.sfq.any fun e => c.r.regOf e.1.toNat == c.r.regOf d.toNat) = false →
      c.freeToken = some t →
      let vals := m.toList.map fun j => (j, c.src a 0#5 j)
      let op : SfqOp :=
        { token := t, reg := c.r.regOf d.toNat, lanes := m, vals := vals, fn := fn.toNat, ty := ty, ftz := ftz == 1#1 }
      let r := (c.r.write b m fun _ => BitVec.ofNat 64 t).hold (.sfq op)
      exec (.sfq k d a b ty fn ftz) s = .next (s.issued c
        { r with sfq := r.sfq ++ [(d, t)], res := { r.res with tokens := r.res.tokens ++ [t] } })) ∧
    (∀ mask : BitVec 16, s.sees (.sfw mask) = some c → (∀ q ∈ c.p.sfq, mask.getLsbD q.token = false) →
      exec (.sfw mask) s = .next (s.issued c c.r)) ∧
    ∀ (m : Mask) (k : BitVec 3) (d : BitVec 5), s.sees (.sfp k d) = some c → c.mask k = some m → c.ready k [d] →
      LaneWise s c m (.sfp k d) d fun _ =>
        BitVec.ofNat 64 (((List.range 16).filter fun t => !c.p.tokenBusy t).foldl (fun x t => x + 2 ^ t) 0)

/-! ### Control, run and pool instructions -/

/-- R72 to R75: branches, calls and exits stage their transfer at issue; where lanes are asked for and none is live, `brx`
and `ret` make no transfer and `loop` falls through. -/
def Obligations.ControlInstructionsStageTransfers : Prop :=
  ∀ (s : State) (c : Ctx) (m : Mask) (k : BitVec 3) (d a x : BitVec 5) (off : BitVec 26) (off16 : BitVec 16),
    let goes (i : Instr) (r : Run) (t : Xfer) : Prop := exec i s = .next (s.issued c { r with xfer := t })
    let there : Word := c.r.packet + (off.signExtend 64 <<< 4)
    (s.sees (.bra off) = some c → goes (.bra off) c.r (.goto there)) ∧
    (c.mask k = some m → c.busyK k.toNat = false →
      (s.sees (.bre k off) = some c → goes (.bre k off) c.r (if m = 0#32 then .goto there else .fall)) ∧
      (s.sees (.brn k off) = some c → goes (.brn k off) c.r (if m = 0#32 then .fall else .goto there)) ∧
      (s.sees (.exit k) = some c → c.w.hnd = false → goes (.exit k) c.r (.exit m)) ∧
      (c.busy [a] = false → (m = 0#32 ∨ (c.low m a x).extractLsb' 0 4 = 0#4) →
        let t : Xfer := if m = 0#32 then .fall else .goto (c.low m a x)
        (s.sees (.brx k a x) = some c → goes (.brx k a x) c.r t) ∧
        (s.sees (.ret k a x) = some c → goes (.ret k a x) c.r t)) ∧
      (c.busy [15#5] = false → s.sees (.call k off) = some c →
        goes (.call k off) (c.r.write 15#5 m fun _ => c.r.fall) (.goto there)) ∧
      (c.busy [d] = false → s.sees (.loop k d off16) = some c →
        goes (.loop k d off16) (c.r.write d m fun j => c.src d 0#5 j - 1)
          (match lowest m with
           | some j => if c.src d 0#5 j = 1#64 then .fall else .goto (c.r.packet + (off16.signExtend 64 <<< 4))
           | none => .fall)))

/-- R71, R76 to R78: what the run and pool instructions do at issue: nothing; a yield at the commit; a range to invalidate,
from the lowest live lane of k0; a granted claim reserved; groups to give. -/
def Obligations.RunAndPoolInstructionsComplete : Prop :=
  ∀ (s : State) (c : Ctx),
    (s.sees .nop = some c → exec .nop s = .next (s.issued c c.r)) ∧
    (s.sees .yield = some c → exec .yield s = .next (s.issued c { c.r with yield := true })) ∧
    (∀ (a b x : BitVec 5) (scope : BitVec 2), s.sees (.icinv a b x scope) = some c → c.busy [a, b] = false →
      exec (.icinv a b x scope) s = .next (s.issued c
        (c.r.hold (.icinv (scope.toNat + 2) (c.low c.k0 a x) (c.low c.k0 b x))))) ∧
    (∀ (n : BitVec 16) (q : ClaimWait), s.sees (.claim n) = some c → c.own.g + n.toNat ≤ 16 →
      c.p.claim = some q → q.granted = true →
      exec (.claim n) s = .next (s.issued c { c.r with res := { c.r.res with claim := some n.toNat } })) ∧
    (∀ n : BitVec 16, s.sees (.give n) = some c → n.toNat < c.own.g →
      exec (.give n) s = .next (s.issued c { c.r with give := some n.toNat }))

/-- R68, R73, R78: a branch to an address off a packet boundary raises ALIGN with the address; a claim past 16 register
groups and a `give` of all groups raise REGBND; a claim not granted stalls. -/
def Obligations.BranchAndPoolTraps : Prop :=
  ∀ (s : State) (c : Ctx) (m : Mask) (k : BitVec 3) (a x : BitVec 5) (n : BitVec 16),
    (c.mask k = some m → c.busyK k.toNat = false → c.busy [a] = false → m ≠ 0#32 →
      (c.low m a x).extractLsb' 0 4 ≠ 0#4 →
      (s.sees (.brx k a x) = some c → exec (.brx k a x) s = .next (s.trapped c .align (infoOf (c.low m a x)))) ∧
      (s.sees (.ret k a x) = some c → exec (.ret k a x) s = .next (s.trapped c .align (infoOf (c.low m a x))))) ∧
    (s.sees (.claim n) = some c → 16 < c.own.g + n.toNat → exec (.claim n) s = .next (s.trapped c .regbnd)) ∧
    (s.sees (.give n) = some c → c.own.g ≤ n.toNat → exec (.give n) s = .next (s.trapped c .regbnd)) ∧
    (s.sees (.claim n) = some c → c.own.g + n.toNat ≤ 16 → (∀ q, c.p.claim = some q → q.granted = false) →
      exec (.claim n) s = .next { s with stall := true })

/-! ### Sets -/

/-- R218, R219, R220: a test splits the lanes of its set operand: kT takes those that hit, kF the rest. An integer test raises no
flag. Where no lane is live a test does nothing. -/
def Obligations.TestsSplitTheirLanes : Prop :=
  ∀ (s : State) (c : Ctx) (m : Mask) (k : BitVec 3) (d a b : BitVec 5) (all : BitVec 1) (kf : BitVec 3),
    c.mask k = some m → c.ready k [a, b] → c.busyK d.toNat = false → c.busyK kf.toNat = false →
    let splits (i : Instr) (hit : Nat → Prop) (fl : BitVec 5) : Prop :=
      s.sees i = some c → ∃ t : Mask, (∀ j, t.getLsbD j = true ↔ m.getLsbD j = true ∧ hit j) ∧
        exec i s = .next (s.issued c (if m = 0#32 then c.r else
          ((c.r.setK d.toNat (localValue c.w.slot t)).setK kf.toNat (localValue c.w.slot (m &&& ~~~t))).flag fl))
    let agree (n : Nat) (p : Nat → Prop) : Prop := if all = 1#1 then ∀ e, e < n → p e else ∃ e, e < n ∧ p e
    (∀ ity cc : BitVec 3,
      let f := ityFmt ity
      splits (.ktestInt k d a b ity cc all kf)
        (fun j => agree f.count fun e =>
          ccHolds cc (intOf f (subOf f (c.src a 0#5 j) e)) (intOf f (subOf f (c.src b 0#5 j) e)) = true) 0#5) ∧
    (∀ (ty : BitVec 2) (fc : BitVec 3) (ftz : BitVec 1),
      let f := tyFmt ty
      let test (j e : Nat) : Bool × BitVec 5 :=
        fcHolds fc (decodeFtz f (ftz == 1#1) (subOf f (c.src a 0#5 j) e))
          (decodeFtz f (ftz == 1#1) (subOf f (c.src b 0#5 j) e))
      splits (.ktestFloat k d a b ty fc ftz all kf) (fun j => agree f.count fun e => (test j e).1 = true)
        (m.toList.foldl (fun x j => x ||| (List.range f.count).foldl (fun y e => y ||| (test j e).2) 0#5) 0#5))

/-- R221, R212: intersection, union and difference of the members that the two operands name on the core, lane by lane; the
result is staged in its canonical form, with the set-store entry or the spill chunk it takes. On local values of the issuing
warp it is that of the masks of live lanes, and takes nothing from the set store. -/
def Obligations.SetAlgebraCompletes : Prop :=
  ∀ (s s1 s2 sd : State) (c : Ctx) (d a b : BitVec 5) (x y : Mask) (ma mb : Members),
    c.busyK d.toNat = false → c.busyK a.toNat = false → c.busyK b.toNat = false →
   (c.readSet s (c.kval a.toNat) .onCore = (.members ma, s1) →
    c.readSet s1 (c.kval b.toNat) .onCore = (.members mb, s2) →
    s2.decideAll c.p.launch c.w (c.setDecisions [c.kval a.toNat, c.kval b.toNat]) = .made sd →
    let completes (i : Instr) (f : Mask → Mask → Mask) : Prop :=
      s.sees i = some c →
        let ms := membersOf c.w.core fun q => f (ma.lanesIn c.w.core q) (mb.lanesIn c.w.core q)
        ∃ ops : List Word, (∀ v ∈ ops, v = c.kval a.toNat ∧ ma = ms ∨ v = c.kval b.toNat ∧ mb = ms) ∧
          match sd.canonical c.w.core c.l ms ops with
          | (.value v, s3) => exec i s = .next (s3.issued c (c.r.setK d.toNat v))
          | (.entry v e, s3) =>
            let r := (c.r.setK d.toNat v).stage (.fill e ms.bitmap)
            exec i s = .next (s3.issued c { r with res := { r.res with entries := r.res.entries ++ [e] } })
          | (.chunk v j obj, s3) =>
            let r := (c.r.setK d.toNat v).stage (.spill j obj ms)
            exec i s = .next (s3.issued c { r with res := { r.res with chunks := r.res.chunks ++ [j] } })
          | (.bad e x, s3) => exec i s = .next (s3.takeTrap c.w (c.trapAt (e, x) .modify))
    completes (.kand d a b) (fun x y => x &&& y) ∧ completes (.kor d a b) (fun x y => x ||| y) ∧
    completes (.kdiff d a b) (fun x y => x &&& ~~~y)) ∧
  (c.w.slot < 64 → c.kval a.toNat = localValue c.w.slot x → c.kval b.toNat = localValue c.w.slot y →
    let live := (s.core c.w.core).liveIn c.p.launch c.w.slot
    let gives (i : Instr) (m : Mask) : Prop :=
      s.sees i = some c → exec i s = .next (s.issued c (c.r.setK d.toNat (localValue c.w.slot m)))
    gives (.kand d a b) (x &&& y &&& live) ∧ gives (.kor d a b) ((x ||| y) &&& live) ∧
    gives (.kdiff d a b) (x &&& ~~~y &&& live))

/-- R222, R223: the count of a set's members and the descriptor of the member at a rank, awaited for a set in memory; making
set values: a checked value, a mask of lanes less those not live, all live lanes. -/
def Obligations.SetCountsAndMakingComplete : Prop :=
  ∀ (s s1 : State) (c : Ctx) (m : Mask) (k : BitVec 3) (d a b x : BitVec 5) (ms : Members),
    (c.mask k = some m → c.busyK a.toNat = false →
      let gives (i : Instr) (codes : List (BitVec 5)) (g : Nat → Word) : Prop :=
        c.ready k (d :: codes) → s.sees i = some c →
          (m = 0#32 → exec i s = .next (s.issued c c.r)) ∧
          (m ≠ 0#32 → c.resolve s (c.kval a.toNat) .stored = (.members ms, s1) →
            if setKind (c.kval a.toNat) = 3 then
              exec i s = .next ((s1.freshId c.w.core).2.issued c
                (c.r.await (s1.freshId c.w.core).1 (.win d 1) (m.toList.map fun j => (j, g j)) 0#4))
            else exec i s = .next (s1.issued c (c.r.write d m g)))
      let members := ms.flatMap fun e => e.2.2.toList.map fun j => (e.1, e.2.1, j)
      gives (.kcount k d a) [] (fun _ => BitVec.ofNat 64 members.length) ∧
      gives (.kfirst k d a b x) [b] (fun j =>
        match members[(c.src b x j).toNat]? with
        | some (core, slot, lane) => BitVec.ofNat 64 (core * 2 ^ 16 + slot * 2 ^ 8 + lane)
        | none => BitVec.allOnes 64)) ∧
    (c.busyK d.toNat = false →
      let v := c.low c.k0 a 0#5
      (c.busy [a] = false → s.sees (.kmakeV d a) = some c →
        exec (.kmakeV d a) s =
          if ((s.core c.w.core).seenFor c.r.res.entries v).kmakeOk c.w.core c.p.launch v then .next (s.issued c (c.r.setK d.toNat v))
          else .next (s.trapped c .setkind)) ∧
      (c.busy [a] = false → s.sees (.kmakeM d a) = some c →
        exec (.kmakeM d a) s = .next (s.issued c (c.r.setK d.toNat (localValue c.w.slot (v.setWidth 32 &&& c.p.live))))) ∧
      (s.sees (.kself d) = some c →
        exec (.kself d) s = .next (s.issued c (c.r.setK d.toNat (localValue c.w.slot c.p.live)))))

/-- R224 to R228: `kld` reads a set value at issue and awaits it; `kst` stages a plain write of one, held until the commit;
each takes its address from the lowest live lane of k0. What sets in memory and set queues stage for the home atomic units,
and what `kfree` frees at the commit. The extent of an object or a queue is checked as the core's own read at issue of its CAP or
LOG gives it: that is the model's choice (log 68), for R215, R227 and R228 do not say whose read sizes it. -/
def Obligations.SetMemoryInstructionsComplete : Prop :=
  (∀ (s s1 s2 : State) (c : Ctx) (d a b x : BitVec 5) (p : Page),
      c.busyK d.toNat = false → c.busy [a, b] = false →
      let va := c.low c.k0 a x + (match lowest c.k0 with | some j => c.offset b x 8 j | none => 0#64)
      (s.sees (.kld d a b x) = some c → s.locate c va 8 .read = (.ok p, s1) →
        (s1.freshId c.w.core).2.takeReqs c.w.core (s1.freshId c.w.core).1 [p.phys va.toNat / 32] = some s2 →
        let read := s2.plainRead c.w.core (p.phys va.toNat) 8 false
        exec (.kld d a b x) s = .next (read.2.issued c
          (c.r.await (s1.freshId c.w.core).1 (.set d.toNat) [(0, BitVec.ofNat 64 (bytesToNat read.1))] 0#4))) ∧
      (∀ hs : List Held, s.sees (.kst d a b x) = some c → s.locate c va 8 .write = (.ok p, s1) →
        (s1.freshId c.w.core).2.plainWrite c.w.core c.tenant (s1.freshId c.w.core).1 false p va.toNat
          (wordBytes (c.kval d.toNat)) [] = (.ok hs, s2) →
        c.l.ownBad va.toNat 8 = false →
        exec (.kst d a b x) s = .next (s2.issued c { c.r with held := c.r.held ++ hs }))) ∧
    ∀ (s s1 s2 : State) (c : Ctx) (d a b : BitVec 5) (obj : List Span) (need : Nat),
      let va := c.low c.k0 a 0#5
      let id := (s2.freshId c.w.core).1
      let held (i : Instr) (x : BitVec 5) (m : Mask) (h : HomeAcc) : Prop :=
        exec i s = .next ((s2.freshId c.w.core).2.issued c (c.r.hold (.home id x m [h])))
      (bitsOf va 63 57 = 0 → va.toNat % 32 = 0 →
        (∀ ms : Members, c.busyK d.toNat = false → c.busy [a] = false → s.sees (.kmerge d a) = some c →
          s.objSpans c.w.core c.tenant va .modify 8 (fun w => 8 * setCap w) setMost = (.ok (obj, need), s1) →
          c.resolve s1 (c.kval d.toNat) .liveHere = (.members ms, s2) →
          if ms = [] then exec (.kmerge d a) s = .next (s2.issued c c.r)
          else c.l.ownBad va.toNat need = false → held (.kmerge d a) 24#5 0#32 (.kmerge (c.lowThread c.k0) obj ms)) ∧
        (s.objSpans c.w.core c.tenant va .modify 16 (fun w => 8 * queueCap w) queueMost = (.ok (obj, need), s2) →
          c.busy [a, d] = false → c.l.ownBad va.toNat need = false →
          (c.busyK b.toNat = false → s.sees (.kqpush d a b) = some c →
            held (.kqpush d a b) d c.k0 (.kqpush (c.lowThread c.k0) obj (c.kval b.toNat))) ∧
          (s.sees (.kqpop d a) = some c → held (.kqpop d a) d c.k0 (.kqpop (c.lowThread c.k0) obj)))) ∧
      (c.busyK d.toNat = false → s.sees (.kfree d) = some c →
        let v := c.kval d.toNat
        let core := (s.core c.w.core).seenFor c.r.res.entries v
        ((v = 0#64 ∨ (setKind v = 1 ∧ setWellFormed v = true)) → exec (.kfree d) s = .next (s.issued c c.r)) ∧
        (setKind v = 2 → setWellFormed v = true → core.coreValueOk c.w.core c.p.launch v = true →
          (core.store[bitsOf v 7 0]?.bind (·.group)) = none →
          exec (.kfree d) s = .next (s.issued c (c.r.stage (.freeEntry (bitsOf v 7 0) (v.extractLsb' 16 8))))) ∧
        (∀ j : Nat, setKind v = 3 → setWellFormed v = true →
          ((s.usedChunks c.w.core c.l).find? fun j =>
            (chunkAddr c.l c.w.core j &&& 0x01FFFFFFFFFFFFE0#64) == (v &&& 0x01FFFFFFFFFFFFE0#64)) = some j →
          exec (.kfree d) s = .next (s.issued c (c.r.stage (.freeChunk j)))) ∧
        (setKind v = 4 → exec (.kfree d) s = .next (s.trapped c .setkind)))

/-! ### Groups and applies -/

/-- R229: `gmake` reserves the lowest free set-store entry and names the group it will hold; with no lane it makes the empty
value; `join`, `leave` and `gdis` stage their change of a live group for the commit, and `join` and `leave` with no lane do
nothing (R218). -/
def Obligations.GroupInstructionsComplete : Prop :=
  ∀ (s : State) (c : Ctx) (m : Mask) (k : BitVec 3) (d a : BitVec 5) (g : BitVec 24),
    (c.mask k = some m → c.busyK k.toNat = false → c.busyK d.toNat = false → s.sees (.gmake k d) = some c →
      (m = 0#32 → exec (.gmake k d) s = .next (s.issued c (c.r.setK d.toNat 0#64))) ∧
      (m ≠ 0#32 → ∀ e x, (s.core c.w.core).freeEntry = some e → (s.core c.w.core).store[e]? = some x →
        let r := (c.r.setK d.toNat (groupValue (groupId c.w.core e x.gen))).stage (.group e m)
        exec (.gmake k d) s = .next (s.issued c { r with res := { r.res with entries := r.res.entries ++ [e] } }))) ∧
    (c.mask k = some m → c.busyK k.toNat = false → c.busyK a.toNat = false →
      let changes (i : Instr) (e : SetEff) : Prop := s.sees i = some c →
        (m = 0#32 → exec i s = .next (s.issued c c.r)) ∧
        (m ≠ 0#32 → c.groupOf s a = some g → exec i s = .next (s.issued c (c.r.stage e)))
      changes (.join k a) (.join g m) ∧ changes (.leave k a) (.leave g m)) ∧
    (c.busyK a.toNat = false → c.groupOf s a = some g → s.sees (.gdis a) = some c →
      exec (.gdis a) s = .next (s.issued c (c.r.stage (.dissolve g))))

/-- R231, R232, R237: an apply with members of this warp stages its block; one with no live member on the core only moves to
its continuation; a fifth open apply is SETOVF; `enda` closes the block, and is ILLOP outside one. -/
def Obligations.AppliesComplete : Prop :=
  ∀ (s s1 : State) (c : Ctx) (k : BitVec 3) (off : BitVec 18) (b0 b1 : BitVec 4) (ms : Members),
    let cont := c.r.packet + (off.signExtend 64 <<< 4)
    let v := c.kval k.toNat
    let inApply := match c.own.kind with | .apply _ _ => true | _ => false
    let applies (i : Instr) (repack : Bool) (g0 g1 : Nat) : Prop :=
      c.busyK k.toNat = false → (repack && inApply) = false → s.sees i = some c → c.resolve s v .onCore = (.members ms, s1) →
        let here := ms.here (s1.core c.w.core) c.w.core c.p.launch
        (here = [] → exec i s = .next (s1.issued c { c.r with xfer := .goto cont })) ∧
        (here ≠ [] → here.lanesIn c.w.core c.w.slot ≠ 0#32 → (setKind v = 1 → bitsOf v 37 32 = c.w.slot) →
          (s1.core c.w.core).sessionClash c.p.launch v repack g0 g1 c.r.fall = false →
          exec i s = .next (if c.p.applies.length < 4
            then s1.issued c { c.r with xfer := .apply v repack g0 g1 c.r.fall cont here }
            else s1.trapped c .setovf))
    applies (.applyS k off) false 0 0 ∧ applies (.applyR k off b0 b1) true b0.toNat b1.toNat ∧
    (s.sees .enda = some c →
      ((c.p.applies ≠ [] ∨ ∃ n src, c.p.kind = .apply n src) →
        exec .enda s = .next (s.issued c { c.r with xfer := .enda })) ∧
      (c.p.applies = [] → (∀ n src, c.p.kind ≠ .apply n src) → exec .enda s = .next (s.trapped c .illop)))

/-! ### Memory instructions -/

/-- R64, R130, R216: a memory instruction on lanes stalls where an operand is awaited, raises SETKIND where its set operand
names no lanes of the warp, and does nothing where none of its lanes is live. R113, R120, R132: of a load or store, the first
lane, ascending, after lanes that pass, whose address is beyond 57 bits, misaligned or does not translate raises PERM, ALIGN,
XLATE or PERM with that address, and nothing of the access remains but the translations made. R125, R132: of a near load or
store, the first such lane whose address is not of near space that it may use, or is misaligned, raises PERM or ALIGN. R363: a
near load from a frozen slice raises PEERFLT. -/
def Obligations.MemoryInstructionsStallTrapOrSkip : Prop :=
  (∀ (s : State) (c : Ctx) (i : Instr) (k : BitVec 3) (codes : List (BitVec 5)),
    memoryForm i = some (k, codes) → s.sees i = some c →
    (¬ c.ready k codes → exec i s = .next { s with stall := true }) ∧
    (c.ready k codes → c.mask k = none → exec i s = .next (s.trapped c .setkind)) ∧
    (c.ready k codes → c.mask k = some 0#32 → exec i s = .next (s.issued c c.r))) ∧
  ∀ (s s1 : State) (c : Ctx) (m : Mask) (o : Opnds) (sz : BitVec 3) (cp : BitVec 2) (la : BitVec 4) (e : Code × Word),
    c.mask o.k = some m → m ≠ 0#32 → c.ready o.k (szCodes o.d sz ++ [o.a, o.b]) →
    let n := szBytes sz
    let ea : List (Nat × Word) := m.toList.map fun j => (j, c.src o.a o.x j + c.offset o.b o.x n j)
    (s.sees (.ld o sz cp la) = some c → s.locateAll c n .read ea = (.error e, s1) →
      exec (.ld o sz cp la) s = .next (s1.takeTrap c.w (c.trapAt e .read))) ∧
    (s.sees (.st o sz cp) = some c →
      (s.freshId c.w.core).2.storeLanes c (s.freshId c.w.core).1 o sz (cp == 1#2) ea [] = (.error e, s1) →
      exec (.st o sz cp) s = .next (s1.takeTrap c.w (c.trapAt e .write))) ∧
    (∀ (pre rest : List (Nat × Word)) (j : Nat) (a : Word), ea = pre ++ (j, a) :: rest →
      let traps (i : Instr) (u : State) (acc : Access) : Prop :=
        let at_ (v : State) (code : Code) : Prop := exec i s = .next (v.takeTrap c.w (c.trapAt (code, a) acc))
        (bitsOf a 63 57 ≠ 0 → at_ u .perm) ∧
        (bitsOf a 63 57 = 0 → a.toNat % n ≠ 0 → at_ u .align) ∧
        (bitsOf a 63 57 = 0 → a.toNat % n = 0 → ∀ (code : Code) (v : State),
          u.translate c.w.core c.tenant a acc = (.error code, v) → at_ v code)
      (∀ ls, s.sees (.ld o sz cp la) = some c → s.locateAll c n .read pre = (.ok ls, s1) →
        traps (.ld o sz cp la) s1 .read) ∧
      (∀ hs, s.sees (.st o sz cp) = some c →
        (s.freshId c.w.core).2.storeLanes c (s.freshId c.w.core).1 o sz (cp == 1#2) pre [] = (.ok hs, s1) →
        traps (.st o sz cp) s1 .write) ∧
      ((∀ x ∈ pre, c.l.nearOk c.w.core x.2 n = true ∧ nearOff x.2 % n = 0) →
        let near (i : Instr) (acc : Access) : Prop :=
          let at_ (code : Code) : Prop := exec i s = .next (s.takeTrap c.w (c.trapAt (code, a) acc))
          (c.l.nearOk c.w.core a n = false → at_ .perm) ∧
          (c.l.nearOk c.w.core a n = true → nearOff a % n ≠ 0 → at_ .align)
        (s.sees (.ldn o sz la) = some c → near (.ldn o sz la) .read) ∧
        (s.sees (.stn o sz) = some c → near (.stn o sz) .write))) ∧
    (s.sees (.ldn o sz la) = some c → (∀ x ∈ ea, c.l.nearOk c.w.core x.2 n = true ∧ nearOff x.2 % n = 0) →
      (s.core c.w.core).mustWait (c.nearRanges n false ea) [] = false → (s.core c.w.core).boardFull = false →
      c.l.awayFor (c.nearRanges n false ea) = false → (∃ x ∈ ea, c.l.frozenFor (nearCore c.w.core x.2) c.w.core = true) →
      exec (.ldn o sz la) s = .next (s.trapped c .peerflt))

/-- R132, R64: loads read their lanes at issue, ascending, through the core's L1 (`ld`) or from near space (`ldn`), and the
registers are awaited. -/
def Obligations.LoadsComplete : Prop :=
  ∀ (s s1 s2 : State) (c : Ctx) (m : Mask) (o : Opnds) (sz : BitVec 3) (cp : BitVec 2) (la : BitVec 4)
    (ls : List (Nat × Word × Page)),
    c.mask o.k = some m → m ≠ 0#32 → c.ready o.k (szCodes o.d sz ++ [o.a, o.b]) →
    let n := szBytes sz
    let regs := if sz.toNat = 7 then 4 else 1
    let ea : List (Nat × Word) := m.toList.map fun j => (j, c.src o.a o.x j + c.offset o.b o.x n j)
    (s.sees (.ld o sz cp la) = some c → s.locateAll c n .read ea = (.ok ls, s1) →
      (s1.freshId c.w.core).2.takeReqs c.w.core (s1.freshId c.w.core).1 (laneSectors n ls) = some s2 →
      let read := s2.loadLanes c.w.core sz (cp == 1#2) ls
      exec (.ld o sz cp la) s = .next (read.2.issued c
        { c.r.await (s1.freshId c.w.core).1 (.win o.d regs) read.1 la with mem := true })) ∧
    (s.sees (.ldn o sz la) = some c →
      (∀ x ∈ ea, c.l.nearOk c.w.core x.2 n = true ∧ nearOff x.2 % n = 0 ∧
        c.l.frozenFor (nearCore c.w.core x.2) c.w.core = false) →
      (s.core c.w.core).mustWait (c.nearRanges n false ea) [] = false → (s.core c.w.core).boardFull = false →
      c.l.awayFor (c.nearRanges n false ea) = false →
      exec (.ldn o sz la) s = .next ((s.freshId c.w.core).2.issued c
        (c.r.await (s.freshId c.w.core).1 (.win o.d regs)
          (ea.flatMap fun x =>
            ((loadValues sz (s.nearBytes c.l (nearCore c.w.core x.2) (nearOff x.2) false n)).zipIdx).map
              fun e => (32 * e.2 + x.1, e.1)) la)))

/-- R132: a store holds its data for the commit. Of lanes on plain pages what it holds is, lane by lane, each byte at the
address the lane computes; a near store holds each byte at its core and offset. No byte of memory changes before the commit. -/
def Obligations.StoresComplete : Prop :=
  ∀ (s s1 : State) (c : Ctx) (m : Mask) (o : Opnds) (sz : BitVec 3) (cp : BitVec 2) (ls : List (Nat × Word × Page)),
    c.mask o.k = some m → m ≠ 0#32 → c.ready o.k (szCodes o.d sz ++ [o.a, o.b]) →
    let n := szBytes sz
    let ea : List (Nat × Word) := m.toList.map fun j => (j, c.src o.a o.x j + c.offset o.b o.x n j)
    (s.sees (.st o sz cp) = some c → (∀ x ∈ ea, c.l.ownBad x.2.toNat n = false) →
      (∀ hs : List Held,
        (s.freshId c.w.core).2.storeLanes c (s.freshId c.w.core).1 o sz (cp == 1#2) ea [] = (.ok hs, s1) →
        let t := s1.issued c { c.r with held := c.r.held ++ hs }
        exec (.st o sz cp) s = .next t ∧ t.mem = s.mem) ∧
      ((s.freshId c.w.core).2.locateAll c n .write ea = (.ok ls, s1) →
        (∀ x ∈ ls, fmtBad x.2.2.fmt = false ∧ (fmtOf x.2.2.fmt).mx = false) →
        let t := s1.issued c (c.r.hold (.bytes (cp == 1#2)
          (ls.flatMap fun x => (c.storeData o.d o.x sz x.1).zipIdx.map fun e =>
            { pa := x.2.2.phys x.2.1.toNat + e.2, mask := 0xFF#8, val := e.1 })))
        exec (.st o sz cp) s = .next t ∧ t.mem = s.mem)) ∧
    (s.sees (.stn o sz) = some c →
      (∀ x ∈ ea, c.l.nearOk c.w.core x.2 n = true ∧ nearOff x.2 % n = 0) →
      let t := s.issued c (c.r.hold (.near m (ea.flatMap fun x =>
        (c.storeData o.d o.x sz x.1).zipIdx.map fun e => (nearCore c.w.core x.2, nearOff x.2 + e.2, e.1))))
      exec (.stn o sz) s = .next t ∧ t.mem = s.mem ∧ ∀ core, (t.core core).near = (s.core core).near)

/-- R134 to R138: formatted accesses. A load reads and converts its lanes' elements and awaits them. A store holds one
effect for its plain elements, each encoded in its page's format, and one for its blocks. -/
def Obligations.FormattedAccessesComplete : Prop :=
  ∀ (s s1 s2 s3 : State) (c : Ctx) (m : Mask) (o : Opnds) (dt : BitVec 1) (rm : BitVec 3) (ftz chk : BitVec 1)
    (la : BitVec 4) (vs : List (Nat × Word)) (fl : BitVec 5) (secs : List Nat) (es : List EltWrite),
    c.mask o.k = some m → m ≠ 0#32 → c.ready o.k [o.d, o.a, o.b] →
    (s.sees (.ldt o dt rm ftz chk la) = some c →
      s.loadFormatted c o dt rm ftz chk m.toList = (.ok (vs, fl, secs), s1) →
      (s1.freshId c.w.core).2.takeReqs c.w.core (s1.freshId c.w.core).1 (dedup secs) = some s2 →
      exec (.ldt o dt rm ftz chk la) s = .next (s2.issued c
        { ((c.r.await (s1.freshId c.w.core).1 (.win o.d 1) vs la).flag fl).rounded rm m with mem := true })) ∧
    (s.sees (.stt o dt rm ftz chk) = some c →
      s.storeElements c o dt rm chk m.toList = (.ok es, s1) →
      (∀ e ∈ es, (fmtOf e.page.fmt).mx = false ∧
        (let w := (fmtOf e.page.fmt).efmt.width
         c.l.ownBad (e.page.va + w * e.num / 8) ((w * e.num + w - 1) / 8 - w * e.num / 8 + 1) = false)) →
      let code (e : EltWrite) : Nat × BitVec 5 :=
        encodeVal (fmtOf e.page.fmt).efmt rm (ftz == 1#1) e.rnd (decodeFtz (dtFmt dt) (ftz == 1#1) e.code)
      let ws := es.flatMap fun e =>
        bitWrites e.page.pa ((fmtOf e.page.fmt).efmt.width * e.num) (fmtOf e.page.fmt).efmt.width (code e).1
      exec (.stt o dt rm ftz chk) s = .next ((s1.freshId c.w.core).2.issued c
        (((if ws = [] then c.r else c.r.hold (.bytes false ws)).flag
          (es.foldl (fun x e => x ||| (code e).2) 0#5)).rounded rm m))) ∧
    (∀ hs : List HomeAcc, s.sees (.stt o dt rm ftz chk) = some c →
      s.storeElements c o dt rm chk m.toList = (.ok es, s1) →
      (∀ e ∈ es, (fmtOf e.page.fmt).mx = true) → hs ≠ [] →
      c.l.scaleBad es = false → (∀ e ∈ es, let w := (fmtOf e.page.fmt).efmt.width
        c.l.ownBad (e.page.va + w * e.num / 8) ((w * e.num + w - 1) / 8 - w * e.num / 8 + 1) = false) →
      s1.blockWrites c.w.core c.tenant (dtFmt dt) rm (ftz == 1#1) es (blockOrder es) = (.ok hs, s3) →
      exec (.stt o dt rm ftz chk) s = .next ((s3.freshId c.w.core).2.issued c
        (((c.r.hold (.home (s3.freshId c.w.core).1 24#5 0#32 hs)).flag
          (hs.foldl (fun x h => x ||| h.issueFlags) 0#5)).rounded rm m)))

/-- R140, R141: an atomic holds one access a lane for the home atomic units, ascending, with the operands as they stand at
issue. -/
def Obligations.AtomicsComplete : Prop :=
  ∀ (s s1 : State) (c : Ctx) (m : Mask) (o : Opnds) (scope : BitVec 3) (w : BitVec 1) (hs : List HomeAcc),
    c.mask o.k = some m → m ≠ 0#32 →
    (∀ j, m.getLsbD j = true → c.l.ownBad (c.src o.a o.x j).toNat (if w = 1#1 then 8 else 4) = false) →
    let holds (i : Instr) (op : AtomOp) : Prop :=
      s.sees i = some c → c.ready o.k ([o.d, o.a, o.b] ++ (if op = .cas then [o.x] else [])) →
      s.atomLanes c op (w == 1#1) scope.toNat o.b o.x (m.toList.map fun j => (j, c.src o.a o.x j)) = (.ok hs, s1) →
      exec i s = .next ((s1.freshId c.w.core).2.issued c
        { c.r.hold (.home (s1.freshId c.w.core).1 o.d m hs) with mem := true })
    holds (.atomAdd o scope w) .add ∧ holds (.atomFadd o scope w) .fadd ∧ holds (.atomBinc o scope w) .binc ∧
    holds (.atomXchg o scope w) .xchg ∧ holds (.atomMinS o scope w) .minS ∧ holds (.atomMaxS o scope w) .maxS ∧
    holds (.atomMinU o scope w) .minU ∧ holds (.atomMaxU o scope w) .maxU ∧ holds (.atomAnd o scope w) .and ∧
    holds (.atomOr o scope w) .or ∧ holds (.atomXor o scope w) .xor ∧ holds (.atomCas o scope w) .cas

/-- R139, R144, R146: a prefetch only brings sectors nearer: while the L1 has room for them, it changes no byte of memory, nor
one that the core would read; a
remote register write is held for the commit; `awt`, whose wait the header has made, reads its counter into the live lanes
and stages the counter's change. -/
def Obligations.PrefetchAndRemoteRegisterInstructionsComplete : Prop :=
  ∀ (s : State) (c : Ctx) (m : Mask) (k : BitVec 3) (d a b x : BitVec 5) (ctr : BitVec 2) (sub clr : BitVec 1),
    (∀ lv : BitVec 1, c.mask k = some m → c.ready k [a, b] → s.sees (.pref k a b x lv) = some c →
      ∃ t : State, exec (.pref k a b x lv) s = .next (t.issued c c.r) ∧
        ((s.core c.w.core).l1.length + 32 ≤ 8192 →
          t.mem = s.mem ∧ ∀ pa, t.coreByte c.w.core pa = s.coreByte c.w.core pa)) ∧
    (let t := c.low m a x
     c.mask k = some m → m ≠ 0#32 → c.ready k [a, b] → s.sees (.rwr k a b x) = some c → bitsOf t 63 17 = 0 →
      exec (.rwr k a b x) s = .next (s.issued c (c.r.hold
        (.rwr (coreAt c.w.core (bitsOf t 1 0)) (bitsOf t 7 2) (bitsOf t 16 15) (bitsOf t 14 8)
          (m.toList.map fun j => (j, c.src b x j)))))) ∧
    (c.busy [d] = false → s.sees (.awt d b x ctr sub clr) = some c →
      let n := min c.r.ops.1.toNat 65535
      let v := c.p.ctr.getD ctr.toNat (0#16, false)
      exec (.awt d b x ctr sub clr) s = .next (s.issued c
        ((c.r.write d c.p.live fun _ => BitVec.ofNat 64 (v.1.toNat + (if v.2 then 65536 else 0))).stage
          (.counter ctr.toNat (if sub = 1#1 then BitVec.ofNat 16 n else 0#16) (clr == 1#1)))))

/-- R147 to R151: bindings, releases, fences and publications are held for the commit; a fence and an acquire of cluster
scope or wider also write back and drop L1 sectors at issue; an acquire awaits the guard word read at its home. -/
def Obligations.SynchronisationInstructionsComplete : Prop :=
  ∀ (s s1 s2 s3 : State) (c : Ctx) (m : Mask) (k : BitVec 3) (d a b cc : BitVec 5) (scope : BitVec 3) (la : BitVec 4)
    (p : Page),
    (c.busy [a, b, cc] = false →
      let base := c.low c.k0 a 0#5
      let len := c.low c.k0 b 0#5
      let g := c.low c.k0 cc 0#5
      base.toNat % 32 = 0 → len.toNat % 32 = 0 → g.toNat % 8 = 0 →
      (s.sees (.unbind a b cc) = some c → exec (.unbind a b cc) s =
        .next (s.issued c (if len = 0#64 then c.r else c.r.hold (.bind false base len g)))) ∧
      (s.sees (.bind a b cc) = some c →
        c.l.binds.length + (c.r.held.filter fun h => match h with | .bind true _ _ _ => true | _ => false).length < 512 →
        exec (.bind a b cc) s = .next (s.issued c (if len = 0#64 then c.r else c.r.hold (.bind true base len g))))) ∧
    (s.sees (.fence scope) = some c → s.depositOut c.w = false → exec (.fence scope) s = .next
      ((if 3 ≤ scope.toNat then s.flushAll c.w.core else s).issued c (c.r.hold (.fence scope.toNat)))) ∧
    (∀ (n : Nat) (sh : Nat × Nat), c.busy [a] = false → s.sees (.publish a) = some c →
      let v := c.low c.k0 a 0#5
      ((c.l.card.shadows.zipIdx).find? fun e => e.1.1 == nearOff v) = some (sh, n) →
      bitsOf v 63 32 = 0 → bitsOf v 23 19 = 0 → nearCore c.w.core v = c.w.core → (c.l.place? c.w.core).isSome →
      exec (.publish a) s = .next (s.issued c (c.r.hold (.publish n)))) ∧
    (c.mask k = some m → m ≠ 0#32 →
      let g := c.low m a 0#5
      (c.ready k [a] → s.sees (.rel k a scope) = some c → s.locate c g 8 .modify = (.ok p, s1) → fmtBad p.fmt = false →
        c.l.ownBad g.toNat 8 = false →
        exec (.rel k a scope) s = .next ((s1.freshId c.w.core).2.issued c (c.r.hold
          (.rel (s1.freshId c.w.core).1 scope.toNat g.toNat (p.phys g.toNat) (c.lowThread m) m)))) ∧
      (c.ready k [d, a] → s.sees (.acq k d a scope la) = some c → s.locate c g 8 .read = (.ok p, s1) →
        s1.depositOut c.w = false → s1.homeBefore c.w c.p.queued [p.phys g.toNat / 32] = false →
        s1.decideSync c.p.launch (some c.w) (c.lowThread m) g.toNat = .made s2 →
        (s2.freshId c.w.core).2.takeReqs c.w.core (s2.freshId c.w.core).1 [p.phys g.toNat / 32] = some s3 →
        let home := s3.readAtHome c.w [p.phys g.toNat / 32]
        let t := if 3 ≤ scope.toNat then
            (home.boundSectors c.w.core c.l g).foldl (fun s sec => s.flushSector c.w.core sec) home else home
        exec (.acq k d a scope la) s = .next (t.issued c (c.r.await (s2.freshId c.w.core).1 (.win d 1)
          (m.toList.map fun j => (j, home.readWord (p.phys g.toNat))) la))))

/-- R152, R153: `fread` awaits the values of its futures once all are full, and traps with FUTEMPTY, naming the lanes of the
empty ones, where one is not; `ffill` and `fclr` hold their accesses for the home atomic units. -/
def Obligations.FuturesComplete : Prop :=
  ∀ (s s1 s2 s3 : State) (c : Ctx) (m : Mask) (k : BitVec 3) (d a b x : BitVec 5) (scope : BitVec 3) (la : BitVec 4)
    (ls : List (Nat × Word × Page)),
    c.mask k = some m → m ≠ 0#32 →
    (c.ready k [d, a] → s.sees (.fread k d a scope la) = some c →
      s.locateAll c 16 .read (m.toList.map fun j => (j, c.src a 0#5 j)) = (.ok ls, s1) →
      s1.depositOut c.w = false → s1.homeBefore c.w c.p.queued (laneSectors 16 ls) = false →
      s1.decideAll c.p.launch c.w (ls.map fun x => (c.thread x.1, x.2.1.toNat)) = .made s2 →
      (s2.freshId c.w.core).2.takeReqs c.w.core (s2.freshId c.w.core).1 (laneSectors 16 ls) = some s3 →
      let t := s3.readAtHome c.w (laneSectors 16 ls)
      let full (x : Nat × Word × Page) : Bool := (t.readWord (x.2.2.phys x.2.1.toNat + 8)).getLsbD 0
      ((∀ x ∈ ls, full x = true) →
        exec (.fread k d a scope la) s = .next (t.issued c
          { c.r.await (s2.freshId c.w.core).1 (.win d 1)
              (ls.map fun x => (x.1, t.readWord (x.2.2.phys x.2.1.toNat))) la with mem := true })) ∧
      (∀ y rest, (ls.filter fun x => !full x) = y :: rest →
        exec (.fread k d a scope la) s = .next (t.takeTrap c.w
          { c.trap .futempty (infoOf y.2.1) with
            lanes := some ((y :: rest).foldl (fun m e => m ||| BitVec.ofNat 32 (2 ^ e.1)) 0#32) }))) ∧
    (s.locateWrites c 16 (m.toList.map fun j => (j, c.src a x j)) = (.ok ls, s1) →
      (∀ e ∈ ls, c.l.ownBad e.2.1.toNat 16 = false) →
      let holds (i : Instr) (val : Nat → Option Word) : Prop :=
        exec i s = .next ((s1.freshId c.w.core).2.issued c
          { c.r.hold (.home (s1.freshId c.w.core).1 24#5 m (ls.map fun e =>
              .future (c.thread e.1) e.2.1.toNat (e.2.2.phys e.2.1.toNat) scope.toNat (val e.1))) with mem := true })
      (c.ready k [a, b] → s.sees (.ffill k a b x scope) = some c →
        holds (.ffill k a b x scope) (fun j => some (c.src b x j))) ∧
      (c.ready k [a] → s.sees (.fclr k a x scope) = some c → holds (.fclr k a x scope) (fun _ => none)))

/-! ### Tasks and barriers -/

/-- R323 to R325: a post or a spawn holds the post of the card for its home; a spawn at depth 8 is SPAWNDEPTH; `qtake` holds
the taking of a level's head card; `ams` holds a message of eight words for its core. -/
def Obligations.TaskInstructionsComplete : Prop :=
  ∀ (s s1 : State) (c : Ctx) (d a b : BitVec 5) (q dir : BitVec 2) (p : Page),
    let card := c.low c.k0 a 0#5
    (c.busy [a, d] = false → card.toNat % 128 = 0 → bitsOf (card + 0x40#64) 63 57 = 0 →
      s.translate c.w.core c.tenant (card + 0x40#64) .modify = (.ok p, s1) →
      let core := if q = 1#2 then neighbour c.w.core dir else c.w.core
      let posts (i : Instr) (depth : Option Nat) : Prop :=
        exec i s = .next ((s1.freshId c.w.core).2.issued c (c.r.hold (.home (s1.freshId c.w.core).1 d c.k0
          [.post (c.lowThread c.k0) card.toNat (p.phys (card.toNat + 0x40)) depth (q == 2#2) core c.tenant])))
      (s.sees (.post d a q dir) = some c → posts (.post d a q dir) none) ∧
      (s.sees (.spawn d a q dir) = some c → c.l.depth ≠ 8 → posts (.spawn d a q dir) (some (c.l.depth + 1))) ∧
      (s.sees (.spawn d a q dir) = some c → c.l.depth = 8 →
        exec (.spawn d a q dir) s = .next (s1.trapped c .spawndepth))) ∧
    (c.busy [a, d] = false → s.sees (.qtake d a q) = some c → card.toNat ≤ 11 →
      exec (.qtake d a q) s = .next ((s.freshId c.w.core).2.issued c (c.r.hold
        (.home (s.freshId c.w.core).1 d c.k0
          [.qtake (if q = 2#2 then none else some c.w.core) c.tenant card.toNat])))) ∧
    (let t := (c.low c.k0 b 0#5).toNat
     c.busy ([a, b] ++ (List.range 8).map fun i => d + BitVec.ofNat 5 i) = false → s.sees (.ams d a b) = some c →
      card.toNat % 128 = 0 → s.locate c card 128 .read = (.ok p, s1) → (t < 144 ∨ t = 255) → c.l.depth ≠ 8 →
      exec (.ams d a b) s = .next (s1.issued c (c.r.hold
        (.ams (if t = 255 then c.w.core else t) card.toNat (c.l.depth + 1)
          ((List.range 8).map fun i => c.low c.k0 (d + BitVec.ofNat 5 i) 0#5)))))

/-- R326 to R330: binding a free named barrier to a live group and unbinding one are staged; an arrival of members is held;
a wait goes on once its phase is past; a wait at a device barrier that ends writes the core's L1 back and drops it. R22, R39, R329,
R347: an arrival, a wait or an unbinding at a barrier with no bound group of the launch, an arrival of a lane that is no member or
of a trap-handler warp, a binding of a bound barrier, a device barrier that the card does not allow and an arrival of a handler warp
at one raise BARMIS. That the lanes of an apply warp count by the bits of its own slot (log 54), and that an arrival that names no
live lane raises BARMIS at an unbound barrier too (log 28), are the model's choices. -/
def Obligations.BarrierInstructionsComplete : Prop :=
  ∀ (s : State) (c : Ctx) (m : Mask) (k : BitVec 3) (d a : BitVec 5) (n : BitVec 6) (j : BitVec 4),
    (∀ g, c.busyK a.toNat = false → s.sees (.bbind a n) = some c → c.groupOf s a = some g →
      ((s.core c.w.core).barriers[n.toNat]?.bind (·.gid)) = none →
      exec (.bbind a n) s = .next (s.issued c (c.r.stage (.bbind n.toNat g)))) ∧
    (∀ e, s.sees (.bunb n) = some c → c.boundEntry s n = some e →
      exec (.bunb n) s = .next (s.issued c (c.r.stage (.bunb n.toNat)))) ∧
    (∀ e x, c.ready k [d] → c.mask k = some m → s.sees (.barr k d n) = some c → c.boundEntry s n = some e →
      (s.core c.w.core).asSeen.store[e]? = some x → c.w.hnd = false → bitmapLanes x.bits c.w.slot &&& m = m →
      exec (.barr k d n) s = .next (if m = 0#32 then s.issued c c.r
        else (s.freshId c.w.core).2.issued c (c.r.hold (.barr (s.freshId c.w.core).1 d m n.toNat)))) ∧
    (s.sees (.bwt a n) = some c → c.r.pos = 1 → exec (.bwt a n) s = .next (s.issued c c.r)) ∧
    (∀ (b : Barrier) (e : Nat), s.sees (.bwt a n) = some c → c.busy [a] = false →
      (s.core c.w.core).asSeen.boundTo c.w.core c.p.launch n.toNat = some (b, e) → s.depositOut c.w = false →
      phaseWaits b.ph (c.low c.k0 a 0#5) = false →
      exec (.bwt a n) s = .next (s.issued c c.r)) ∧
    (c.ready k [d] → c.mask k = some m → s.sees (.dbar k d j) = some c → c.l.card.dbm.getLsbD j.toNat = true →
      c.p.kind.isHandler = false →
      exec (.dbar k d j) s = .next (if m = 0#32 then s.issued c c.r
        else (s.freshId c.w.core).2.issued c (c.r.hold (.dbar (s.freshId c.w.core).1 d m j.toNat)))) ∧
    (∀ b : DevBarrier, s.sees (.dwt a j) = some c → c.busy [a] = false → c.l.card.dbm.getLsbD j.toNat = true →
      s.dev.dbars[j.toNat]? = some b → s.depositOut c.w = false → phaseWaits b.ph (c.low c.k0 a 0#5) = false →
      exec (.dwt a j) s = .next ((s.flushAll c.w.core).issued c c.r)) ∧
    (let traps (i : Instr) : Prop := exec i s = .next (s.trapped c .barmis)
    (s.sees (.bunb n) = some c → c.boundEntry s n = none → traps (.bunb n)) ∧
    (c.ready k [d] → c.mask k = some m → s.sees (.barr k d n) = some c → c.boundEntry s n = none → traps (.barr k d n)) ∧
    (∀ e x, c.ready k [d] → c.mask k = some m → s.sees (.barr k d n) = some c → c.boundEntry s n = some e →
      (s.core c.w.core).asSeen.store[e]? = some x → bitmapLanes x.bits c.w.slot &&& m ≠ m → traps (.barr k d n)) ∧
    (∀ e, c.ready k [d] → c.mask k = some m → m ≠ 0#32 → s.sees (.barr k d n) = some c → c.boundEntry s n = some e →
      c.w.hnd = true → traps (.barr k d n)) ∧
    (∀ g h, c.busyK a.toNat = false → s.sees (.bbind a n) = some c → c.groupOf s a = some g →
      ((s.core c.w.core).barriers[n.toNat]?.bind (·.gid)) = some h → traps (.bbind a n)) ∧
    (c.ready k [d] → c.mask k = some m → s.sees (.dbar k d j) = some c → c.l.card.dbm.getLsbD j.toNat = false →
      traps (.dbar k d j)) ∧
    (c.ready k [d] → c.mask k = some m → s.sees (.dbar k d j) = some c → c.p.kind.isHandler = true →
      traps (.dbar k d j)) ∧
    (s.sees (.bwt a n) = some c → c.r.pos ≠ 1 → c.busy [a] = false →
      (s.core c.w.core).asSeen.boundTo c.w.core c.p.launch n.toNat = none → traps (.bwt a n)) ∧
    (s.sees (.dwt a j) = some c → c.l.card.dbm.getLsbD j.toNat = false → traps (.dwt a j)))

/-! ### Traps and system registers -/

/-- R351: `sysrd` writes the register's committed value in the lanes named. -/
def Obligations.SystemRegisterReads : Prop :=
  ∀ (s : State) (c : Ctx) (m : Mask) (k : BitVec 3) (d : BitVec 5) (num : BitVec 10),
    c.mask k = some m → c.ready k [d] → s.sees (.sysrd k d num) = some c →
    LaneWise s c m (.sysrd k d num) d fun _ =>
      let place := c.l.place? c.w.core
      match num.toNat with
      | 0 => match c.p.trap with
        | some t => BitVec.ofNat 64 (t.1.info * 2 ^ 12 + t.1.pos * 2 ^ 5 + t.1.code.num)
        | none => 0#64
      | 1 => match c.p.trap with | some t => BitVec.ofNat 64 (t.2.toNat % 2 ^ 57 / 16 * 16) | none => 0#64
      | 2 => match c.p.trap with | some t => localValue c.w.slot (t.1.lanes.getD c.own.live) | none => 0#64
      | 3 => BitVec.ofNat 64
          (((List.range 64).filter fun t => !(s.core c.w.core).tagBusy c.p.launch t).foldl (fun n t => n + 2 ^ t) 0)
      | 4 => (s.core c.w.core).cyc
      | 5 => c.p.fpflags.setWidth 64
      | 6 => match place with | some p => p.drops.setWidth 64 | none => 0#64
      | 7 => c.l.det
      | 8 => s.dev.devcap0
      | 9 => s.dev.devcap1
      | 10 => BitVec.ofNat 64 (clusterOf c.w.core * 256 + c.w.core)
      | _ => match place with | some p => p.wdoglim | none => 0#64

/-- R350 to R357: what the other system instructions stage: a register write, the event after the commit of the lowest `trap`
or `brk`, a return of a handler, a log mark, a preemption point, an idempotent region. R57: `trail` ends the issue of the run and begins
its commit, with its write-back mask and its result tag. -/
def Obligations.SystemInstructionsComplete : Prop :=
  ∀ (s : State) (c : Ctx) (a b : BitVec 5) (num imm : BitVec 10) (e : BitVec 1) (mask : BitVec 16),
    (c.busy [a] = false → s.sees (.syswr a num) = some c →
      exec (.syswr a num) s = .next (s.issued c (c.r.stage (.syswr num.toNat (c.low c.k0 a 0#5))))) ∧
    (s.sees (.trap imm) = some c → exec (.trap imm) s = .next (s.issued c
      { c.r with soft := c.r.soft <|> some (.user, c.r.pos, imm.toNat) })) ∧
    (s.sees (.brk imm) = some c → exec (.brk imm) s = .next (s.issued c
      { c.r with soft := c.r.soft <|> some (.brk, c.r.pos, imm.toNat) })) ∧
    (s.sees (.tret e) = some c → exec (.tret e) s = .next (if c.w.hnd
      then s.issued c { c.r with xfer := .tret (e == 1#1) } else s.trapped c .illop)) ∧
    (s.sees (.lmark imm) = some c → exec (.lmark imm) s = .next (s.issued c (c.r.hold (.lmark imm.toNat)))) ∧
    (s.sees (.ppoint mask) = some c → exec (.ppoint mask) s = .next (s.issued c { c.r with ppoint := some mask })) ∧
    (s.sees .ide = some c → exec .ide s = .next (s.issued c (c.r.stage .ide))) ∧
    (∀ (te : BitVec 1) (tag : BitVec 3) (wb : BitVec 16), s.sees (.trail te tag wb) = some c →
      exec (.trail te tag wb) s = .next (s.issued c
        { c.r with commit := some (wb, if te = 1#1 then some tag.toNat else none, 0) })) ∧
    (let n := c.low c.k0 a 0#5
     let len := c.low c.k0 b 0#5
     s.sees (.idb a b) = some c → c.p.region = none → c.busy [a, b] = false → c.l.nearOk c.w.core n len.toNat = true →
      nearCore c.w.core n = c.w.core → nearOff n % 32 = 0 → len.toNat % 32 = 0 →
      exec (.idb a b) s = .next (s.issued c (c.r.stage (.idb (nearOff n) len.toNat))))


/-! ### Engine commands -/

/-- R244, R245: a tag wait goes on at the first position, where the header has waited, and elsewhere once its tags are ready;
`tffr` finds the lowest named tag that is ready. -/
def Obligations.TagInstructionsComplete : Prop :=
  ∀ (s : State) (c : Ctx) (m : Mask) (k : BitVec 3) (d a : BitVec 5) (g : BitVec 2) (mask : BitVec 16),
    let busy (t : Nat) : Bool := (s.core c.w.core).tagBusy c.p.launch t
    (s.sees (.tall g mask) = some c →
      (c.r.pos = 1 ∨ (s.core c.w.core).tagWaits c.p.launch false g.toNat mask = false) →
      exec (.tall g mask) s = .next (s.issued c c.r)) ∧
    (s.sees (.tany g mask) = some c →
      (c.r.pos = 1 ∨ (s.core c.w.core).tagWaits c.p.launch true g.toNat mask = false) →
      exec (.tany g mask) s = .next (s.issued c c.r)) ∧
    (c.mask k = some m → c.ready k [d, a] → s.sees (.tffr k d a) = some c →
      let wanted (t : Nat) : Prop := t < 64 ∧ (c.low m a 0#5).getLsbD t = true ∧ busy t = false
      ∃ v, exec (.tffr k d a) s = .next (s.issued c (c.r.write d m fun _ => v)) ∧
        ((∃ t, wanted t ∧ (∀ u, u < t → ¬ wanted u) ∧ v = BitVec.ofNat 64 t) ∨
          ((∀ t, ¬ wanted t) ∧ v = BitVec.allOnes 64)))

/-- R243, R246 to R250: a copy that passes its checks, with a free tag that no warp has waited longer for, reserves the tag and holds its command; a copy of no
rows or no elements is held without the checks of its addresses. -/
def Obligations.CopiesComplete : Prop :=
  ∀ (s s1 : State) (c : Ctx) (k : BitVec 3) (d a b : BitVec 5) (t : BitVec 6) (cp' : Copy),
    let w0 := c.slot b
    let ne := bitsOf w0 43 40
    let ng := bitsOf w0 44 44
    let sent (i : Instr) (u : State) (x : Copy) : Prop :=
      (u.core c.w.core).tagBusy c.p.launch x.tag = false → (u.core c.w.core).tagReserved c.p.launch x.tag = false →
      (u.core c.w.core).grantedFirst c.w.slot c.w.hnd c.p = false →
      exec i s = .next (u.issued c
        { c.r.hold (.engine (.copy x)) with res := { c.r.res with tags := c.r.res.tags ++ [x.tag] } })
    let copies (i : Instr) (dir : Nat) (mcast : Option (List Nat)) : Prop :=
      let cp := c.copyOf d a b t dir mcast
      s.sees i = some c → k = 0#3 → c.busy [d, a, b, b + 1#5] = false → bitsOf w0 63 49 = 0 → rmOk cp.rm = true →
        ((cp.rows = 0 ∨ cp.cnt = 0) → sent i s { cp with rows := 0, cnt := 0 }) ∧
        (cp.rows ≠ 0 → cp.cnt ≠ 0 → (ng = 1 → 5 ≤ ne ∧ ne ≤ 8) →
          (dir = 2 → ne = 0 → ng = 0 → cp.rm = 0#3 → cp.ftz = false →
            c.checkMove { cp with near := [0] } = .ok cp' → sent i s cp') ∧
          (dir ≠ 2 → (dir = 1 → ne = 0 → ng = 0 → c.tagsUnreadable cp = false) →
            s.checkCopy c cp (s.nearFormat c cp ne ng) = (.ok cp', s1) → sent i s1 cp'))
    (∀ dir : BitVec 2, copies (.cpy k d a b t dir) dir.toNat none) ∧
    (∀ pmask : BitVec 4, copies (.cpym k d a b t pmask) 0
      (some (((List.range 4).filter fun i => pmask.getLsbD i).map (coreAt c.w.core))))

/-- R254 to R263: matrix and tile commands that pass their checks are held, with the change of the tile's live bit that the
commit makes; `mrd.w` reads its tile at issue and awaits the registers. That the near address of `mrd.n` or `mwr.n` may stand at any
byte is the model's choice (log 84). -/
def Obligations.MatrixCommandsComplete : Prop :=
  ∀ (s : State) (c : Ctx) (k : BitVec 3) (d a : BitVec 5) (t : BitVec 4),
    k = 0#3 → t.toNat < c.l.card.tc →
    let held (i : Instr) (x : Cmd) (live : Option Bool) : Prop :=
      exec i s = .next (s.issued c (match live with
        | some on => (c.r.hold (.engine x)).stage (.tile t.toNat on)
        | none => c.r.hold (.engine x)))
    let quad (d : BitVec 5) : List (BitVec 5) := [d, d + 1#5, d + 2#5, d + 3#5]
    let row := (c.slot a).toNat
    (∀ (zs ftz mx : BitVec 1) (fmt : BitVec 3),
      let m : Mloop :=
        { fmt := fmt.toNat, mx := mx == 1#1, zs := zs == 1#1, ftz := ftz == 1#1, t := t.toNat, d0 := c.slot d,
          d1 := c.slot (d + 1#5), d2 := c.slot (d + 2#5), d3 := c.slot (d + 3#5) }
      s.sees (.mloop k d t zs ftz mx fmt) = some c → c.busy (quad d) = false → m.bad c = none →
      held (.mloop k d t zs ftz mx fmt) (.mloop m) (some true)) ∧
    (s.sees (.mzero k t) = some c → held (.mzero k t) (.mzero t.toNat) (some true)) ∧
    (∀ bf e : BitVec 1, s.sees (.mrdN k d t bf e) = some c → c.busy [d] = false →
      c.l.nearOk c.w.core (c.slot d) (if bf = 1#1 then 8192 else 16384) = true →
      held (.mrdN k d t bf e) (.mrdN t.toNat (c.slot d).toNat (bf == 1#1)) (if e = 1#1 then some false else none)) ∧
    (s.sees (.mwrN k d t) = some c → c.busy [d] = false → c.l.nearOk c.w.core (c.slot d) 16384 = true →
      held (.mwrN k d t) (.mwrN t.toNat (c.slot d).toNat) (some true)) ∧
    (c.busy (a :: quad d) = false → row % 4 = 0 → row ≤ 60 →
      (s.sees (.mwrW k d a t) = some c →
        held (.mwrW k d a t)
          (.mwrW t.toNat row c.k0 (c.k0.toList.flatMap fun j =>
            (List.range 4).map fun q => (4 * j + q, c.src (d + BitVec.ofNat 5 q) 0#5 j))) (some true)) ∧
      (∀ (e : BitVec 1) (la : BitVec 4), s.sees (.mrdW k d a t e la) = some c →
        let tile := c.l.tile c.w.core t.toNat
        let el (j q x : Nat) : BitVec 32 :=
          Tab.get 0#32 (s.core c.w.core).tiles (4096 * tile + 64 * (row + j / 8) + (8 * (j % 8) + 2 * q + x))
        (s.core c.w.core).mustWait [] [(tile, false)] = false → (s.core c.w.core).boardFull = false →
        let r := c.r.await (s.freshId c.w.core).1 (.win d 4)
          (c.k0.toList.flatMap fun j => (List.range 4).map fun q => (32 * q + j, el j q 1 ++ el j q 0)) la
        exec (.mrdW k d a t e la) s = .next ((s.freshId c.w.core).2.issued c
          (if e = 1#1 then r.stage (.tile t.toNat false) else r))))

/-- R280 to R284: automaton commands of the launch that holds the array, whose near operands pass their checks, are held. The
window readers await what a version of the cells that R278 lets them see gives: the cells as they are, or, without
`.after`, as they stood before row writers not yet ordered before the read. -/
def Obligations.AutomatonCommandsComplete : Prop :=
  ∀ (s : State) (c : Ctx) (k : BitVec 3) (d a b : BitVec 5) (f : BitVec 1) (la : BitVec 4),
    let au := (s.core c.w.core).auto
    k = 0#3 → au.holder = some c.p.launch →
    let own (n : Word) (len align : Nat) : Prop :=
      c.l.nearOk c.w.core n len = true ∧ nearCore c.w.core n = c.w.core ∧ nearOff n % align = 0
    let held (i : Instr) (x : Cmd) : Prop :=
      s.sees i = some c → exec i s = .next (s.issued c (c.r.hold (.engine x)))
    let m := (c.slot b).toNat
    let row := (c.slot a).toNat
    let quad (d : BitVec 5) : List (BitVec 5) := [d, d + 1#5, d + 2#5, d + 3#5]
    let reads (i : Instr) (u : State) (vals : List (Nat × Word)) : Prop :=
      exec i s = .next (u.issued c (c.r.await (s.freshId c.w.core).1 (.win d 4) vals la)) ∧
        u = { (s.freshId c.w.core).2 with oracle := u.oracle }
    (c.busy [a] = false → own (c.slot a) 784 8 → held (.lacfg k a) (.lacfg row)) ∧
    (c.busy [a, b] = false → held (.laseed k a b) (.laseed (c.slot a) (c.slot b))) ∧
    (c.busy [a, b] = false → m ≤ 15 → own (c.slot a) 64 32 → held (.lafb k a b f) (.lafb row m (f == 1#1))) ∧
    (c.busy [d, a, b] = false →
      (m ≤ 65535 → own (c.slot a) (64 * m) 32 → own (c.slot d) (32 * m) 32 →
        held (.lainfN k d a b f) (.lainfN (c.slot d).toNat row m (f == 1#1))) ∧
      (row ≤ 255 → row + m ≤ 256 →
        (∀ inc : BitVec 1, own (c.slot d) (m * (if inc = 1#1 then 128 else 1024)) 32 →
          held (.lardN k d a b inc f) (.lardN (c.slot d).toNat row m (inc == 1#1) (f == 1#1))) ∧
        (own (c.slot d) (1024 * m) 32 → held (.lawrN k d a b) (.lawrN (c.slot d).toNat row m)))) ∧
    (c.busy (a :: quad d) = false →
      (row ≤ 255 → held (.lawrW k d a) (.lawrW row c.k0 (c.k0.toList.flatMap fun j =>
        (List.range 4).map fun q => (4 * j + q, c.src (d + BitVec.ofNat 5 q) 0#5 j)))) ∧
      (s.sees (.lardW k d a f la) = some c → row ≤ 255 → c.readerStalls s [] f = false →
        ∃ u, ∃ cells ∈ au.versions (s.freshId c.w.core).1 (f == 1#1),
          reads (.lardW k d a f la) u (c.k0.toList.flatMap fun j => (List.range 4).map fun q =>
            (32 * q + j, BitVec.ofNat 64 (bytesToNat ((List.range 8).map fun i =>
              Tab.get au.fill cells (1024 * row + 32 * j + 8 * q + i)))))) ∧
      (s.sees (.lainfW k d a f la) = some c → own (c.slot a) 64 32 →
        c.readerStalls s (c.l.range c.w.core (nearOff (c.slot a)) 64 false) f = false →
        ∃ u, ∃ cells : Nat → Tab Byte, (∀ r, cells r ∈ au.versions (s.freshId c.w.core).1 (f == 1#1)) ∧
          let votes := au.votes cells (s.nearNat c.l c.w.core (nearOff (c.slot a)) 64)
          let slot (q : Nat) : Word :=
            votes.getD (4 * q + 3) 0#16 ++ votes.getD (4 * q + 2) 0#16 ++ votes.getD (4 * q + 1) 0#16
              ++ votes.getD (4 * q) 0#16
          reads (.lainfW k d a f la) u (c.k0.toList.flatMap fun j =>
            (List.range 4).map fun q => (32 * q + j, slot q))))

/-- R292 to R305: sweep commands that pass their checks are held; a subscription reserves a free place (log 41: which one is free) and its merge
entries, and the live lanes read its handle; a wait goes on once its subscription is done or gone. A sweep that starts takes the subscriptions of its sweep id that do not
run; in deterministic mode, those of them whose commit is known to happen before it (R296; log 34: as far as the order is kept),
and a subscription that is committed happens before what its own threads do next. -/
def Obligations.SweepCommandsComplete : Prop :=
  ∀ (s s1 : State) (c : Ctx) (k : BitVec 3) (d a b : BitVec 5),
    k = 0#3 →
    let core := s.core c.w.core
    let held (i : Instr) (u : State) (h : Held) : Prop := exec i s = .next (u.issued c (c.r.hold h))
    let own (n : Word) (len : Nat) : Prop :=
      c.l.nearOk c.w.core n len = true ∧ nearCore c.w.core n = c.w.core ∧ nearOff n % 32 = 0
    (c.busy [a] = false → s.sees (.swleave k a) = some c → handleBad c.w.core (c.slot a) = false →
      held (.swleave k a) s (.swleave (c.slot a))) ∧
    (∀ (sid : BitVec 4) (dh : BitVec 1) (p : Page), c.busy [a] = false → s.sees (.swgo k a sid dh) = some c →
      bitsOf (c.slot a) 63 57 = 0 → (c.slot a).toNat % 256 = 0 →
      s.translate c.w.core c.tenant (c.slot a) .read = (.ok p, s1) → sweepFormat p.fmt = true →
      held (.swgo k a sid dh) s1 (.swgo sid.toNat (dh == 1#1) (c.slot a) p [])) ∧
    (∀ (l : Launch) (sid : Nat) (ths : List Nat) (x : Nat × Nat), x ∈ s.sweepTakes l sid ths ↔
      ∃ u, s.subAt x.1 x.2 = some u ∧ u.launch = l.id ∧ u.sid = sid ∧ u.state ≠ .run ∧
        (l.isDet = true → s.subName x.1 x.2 ∈ l.heardBy ths)) ∧
    (∀ (l : Launch) (ths : List Nat) (t n : Nat), t ∈ ths → n ∈ (l.subscribed ths n).heardBy [t]) ∧
    (∀ (mm : BitVec 2) (u : Sub), c.busy [d, a] = false → s.sees (.swrd k d a mm) = some c →
      handleBad c.w.core (c.slot a) = false → core.sub? c.p.launch (c.slot a) = some u →
      own (c.slot d) (u.q * u.outLen mm.toNat) →
      held (.swrd k d a mm) s (.engine (.swrd (c.slot d).toNat (c.slot a) mm.toNat))) ∧
    (let h := c.r.ops.1
     let n := c.r.ops.2
     c.busy [d] = false → s.sees (.swmerge k d a b) = some c → handleBad c.w.core h = false →
      own (c.slot d) (match core.sub? c.p.launch h with | some u => u.q * u.recordLen | none => 1) →
      held (.swmerge k d a b) s (.engine (.swmerge (c.slot d).toNat h n))) ∧
    (s.sees (.swwait a) = some c →
      (c.r.pos = 1 → handleBad c.w.core c.r.ops.1 = false →
        exec (.swwait a) s = .next (s.issued c c.r)) ∧
      (c.r.pos ≠ 1 → c.busy [a] = false → handleBad c.w.core (c.slot a) = false →
        (∀ u, core.sub? c.p.launch (c.slot a) = some u → u.state = .done) →
        exec (.swwait a) s = .next (s.issued c c.r))) ∧
    (∀ (i : Nat) (x : SubPlace) (p : Page),
      let w1 := c.slot (a + 1#5)
      let hent := c.slot (a + 2#5)
      let w3 := c.slot (a + 3#5)
      let u := c.subOf a
      let mine (n : Nat) : Prop :=
        c.l.nearOk c.w.core (BitVec.ofNat 64 n) 1 = true ∧ nearCore c.w.core (BitVec.ofNat 64 n) = c.w.core
      c.busy [d, a, a + 1#5, a + 2#5, a + 3#5] = false → s.sees (.swsub k d a) = some c →
      bitsOf hent 63 57 = 0 → bitsOf w3 63 24 = 0 → bitsOf w3 15 11 = 0 → bitsOf w3 7 6 = 0 →
      s.translate c.w.core c.tenant (c.slot a) .read = (.ok p, s1) →
      mine (bitsOf w1 63 32) → mine (bitsOf w1 31 0) →
      (∀ o ∈ u.landing, (c.l.regionAt o u.pageLen).isSome) →
      (∀ y ∈ core.subs, ∀ v, y.sub = some v → v.launch = u.launch → ∀ o ∈ v.landing, o ∉ u.landing) →
      (c.slot a).toNat % 8 = 0 → hent.toNat % 16 = 0 →
      s1.pick core.freePlaces = some i → core.subs[i]? = some x → u.q ≤ core.freeMerges →
      core.grantedFirst c.w.slot c.w.hnd c.p = false →
      let r := (c.r.write d c.k0 fun _ => handleOf c.w.core i x.gen).hold (.swsub i u)
      exec (.swsub k d a) s = .next (s1.drawn.issued c
        { r with res := { r.res with places := r.res.places ++ [i], merges := r.res.merges + u.q } }))

/-! ### Events of runs and of values -/

/-- R31, R51, R63, R81, R124: a warp at a boundary fetches its next run whole from its pc, every packet from one view of code, and
a packet that is no header raises ILLPKT. A header that no mark, no wait and no hazard holds back begins the run at position
1, its window loaded; a run that breaks a test of the header raises ILLPKT, and one that loads a marked register RUNHAZ. The model's
choices, log 82: ILLPKT comes before the AWAIT wait, and the wait of the run's first instruction before the hazard check. -/
def Obligations.FetchAndHeaderEventsComplete : Prop :=
  ∀ (s : State) (w : WarpRef) (p o : Warp) (l : Launch),
    s.warp? w = some p → s.warp? (ownerRef w) = some o → s.launch? p.launch = some l →
    p.run = none → p.wait = .none → p.live ≠ 0#32 → p.sched ≠ .suspended →
    (p.fetched = none → p.icinv = none → p.later = none →
      (∀ (h : BitVec 128) (ps : List (BitVec 128)) (s1 : State), s.fetchRun w.core l.tenant p.pc = some (.ok (h :: ps), s1) →
        exec (.instructionFetch w) s = .next (s1.modWarp w fun x =>
          { x with fetched := some { addr := x.pc, hdr := h, packs := ps } })) ∧
      (∀ (t : Trap) (s1 : State), s.fetchRun w.core l.tenant p.pc = some (.error t, s1) →
        exec (.instructionFetch w) s = .next (s1.takeTrap w t)) ∧
      (s.staleCode w.core = false →
        let view (n : Nat) : Option (BitVec 128) := some (s.packetAt n)
        ∀ (h : Nat × BitVec 128) (s1 : State), s.viewPackets w.core l.tenant p.pc view 1 = some (.ok [h], s1) →
          (h.2.extractLsb' 126 2 ≠ 1#2 → exec (.instructionFetch w) s = .next (s1.takeTrap w
            { code := .illpkt, pos := 26, info := 0, lanes := none, kind := 0 })) ∧
          (∀ (ps : List (Nat × BitVec 128)) (s2 : State), h.2.extractLsb' 126 2 = 1#2 →
            s1.viewPackets w.core l.tenant (p.pc + 16#64) view (hdrPackets h.2) = some (.ok ps, s2) →
            exec (.instructionFetch w) s = .next ((s2.fillCode w.core (h :: ps)).modWarp w fun x =>
              { x with fetched := some { addr := x.pc, hdr := h.2, packs := ps.map (·.2) } })))) ∧
    (∀ f : Fetched, p.fetched = some f → (∀ m ∈ p.marks, m.owner ≠ .untagged) →
      (runOk f = false → exec (.runHeader w) s = .next (s.takeTrap w (hdrTrap .illpkt))) ∧
      (runOk f = true → (∀ m ∈ p.marks, ∀ q, m.owner = .tag q → (hdrAwait f.hdr).getLsbD q = false) →
        (∀ i, f.first = some i → s.firstWait w p o l f.hdr i = .go) →
        ((∃ i, i < 16 ∧ (hdrLoad f.hdr).getLsbD i = true ∧ p.hazard o (hdrReg f.hdr i) = true) →
          exec (.runHeader w) s = .next (s.takeTrap w (hdrTrap .runhaz))) ∧
        ((∀ i, i < 16 → (hdrLoad f.hdr).getLsbD i = true →
          p.hazard o (hdrReg f.hdr i) = false ∧ (hdrReg f.hdr i ∈ o.poisoned → 8 * o.g ≤ hdrReg f.hdr i)) →
          exec (.runHeader w) s = .next (s.modWarp w fun x => { x with run := some (Run.start w p o f), ppoint := none }))))

/-- R58 to R60: the commit of a run that stages and awaits nothing writes its named window slots back in every live lane, the
higher of two slots of one register last, joins the flags, moves the pc on and ends the run. A register that is not named,
and all else of the state, stands.

What is staged is made at the stages of the commit, which `runCommit` takes in order. Stage 0 (steps 1 to 3): a claim adds its
groups; the set registers take their staged values; a register whose value is awaited is marked with the result tag, and
its awaited lanes keep what they held (R59, R62); a staged `syswr` writes its register (R351), DETMODE and WDOGLIM from the
next cycle (R38, R332); the other staged changes are made, in order. Stage 1 (step 4): the held effects, one at a time; then
step 5, which gives groups back, their registers gone (R69). Stage 2 (steps 6 and 7): the control transfer: a branch, the
exit of lanes (R24), the block of an `apply.s` and its end (R233), the return from a handler (R352).

The model's own choices: a commit sends its home accesses one at a time and waits for each by `waitId` (log 3, DEDUCED); every
deposit on its way takes one of the 64 entries of its target core, so that an `rwr` waits for one (log 60); what a deposit makes
heard at its target (log 34). -/
def Obligations.RunCommitWritesBack : Prop :=
  (∀ (s : State) (c : Ctx) (wb : BitVec 16) (tag : Option Nat),
    s.ctx? c.w = some c → c.w.hnd = false → c.l.isDet = false →
    c.r = { c.r with sets := [], setEff := [], pend := [], held := [], give := none, xfer := .fall, srs := [], yield := false,
                     soft := none, commit := some (wb, tag, 0), waitId := none } →
    c.r.res.claim = none → c.p.wait = .none → c.commitFault wb = none →
    ∃ regs : Tab Word,
      exec (.runCommit c.w) s = .next (s.modWarp c.w fun p => { p with
        regs := regs, run := none, fetched := none, claim := none, pc := c.r.fall, wdog := 0, ppoint := c.r.ppoint,
        region := if p.live = 0#32 then none else p.region,
        fpflags := p.fpflags ||| c.r.flags, history := lastEight (p.history ++ [c.r.mem]) }) ∧
      (∀ i j, i < 16 → wb.getLsbD i = true → c.p.live.getLsbD j = true →
        (∀ n, i < n → n < 16 → wb.getLsbD n = true → c.r.regOf n ≠ c.r.regOf i) →
        Tab.get 0#64 regs (32 * c.r.regOf i + j) = Tab.get 0#64 c.r.win (32 * i + j)) ∧
      (∀ key, (∀ i j, i < 16 → wb.getLsbD i = true → c.p.live.getLsbD j = true → key ≠ 32 * c.r.regOf i + j) →
        Tab.get 0#64 regs key = Tab.get 0#64 c.p.regs key)) ∧
  (∀ (s t : State) (c : Ctx) (wb : BitVec 16) (tag : Option Nat) (n : Nat) (e : Trap),
    s.ctx? c.w = some c → c.r.commit = some (wb, tag, n) → c.r.waitId = none →
    (s.commitStep c wb tag n = .go t →
      exec (.runCommit c.w) s = .next (t.commitFrom c.w true (40 * c.r.held.length + 59))) ∧
    (s.commitStep c wb tag n = .stop t → exec (.runCommit c.w) s = .next t) ∧
    (s.commitStep c wb tag n = .trap t e → exec (.runCommit c.w) s = .next (t.takeTrap c.w e)) ∧
    (s.commitStep c wb tag n = .wait → exec (.runCommit c.w) s = .next { s with stall := true })) ∧
  (∀ (s : State) (c : Ctx) (wb : BitVec 16) (tag : Option Nat),
    s.warp? c.w = some c.p → c.w.hnd = false → c.own = c.p → c.l.isDet = false → c.r.setEff = [] → c.r.srs = [] →
    c.commitFault wb = none → c.r.awaitsRead wb tag = false → s.waitsForSweep c = false →
    let r := c.r.lapse
    ∃ (regs k : Tab Word) (marks : List Mark),
      s.commitStep c wb tag 0 = .go (s.modWarp c.w fun p => { p with
        g := p.g + c.r.claimed, regs := regs, k := k, claim := none, marks := p.marks ++ marks,
        run := some { r with commit := some (wb, tag, 1), pend := [] },
        fpflags := p.fpflags ||| r.flags, history := lastEight (p.history ++ [r.mem]) }) ∧
      (∀ e ∈ r.sets, (∀ e' ∈ r.sets, e'.1 = e.1 → e' = e) → Tab.get 0#64 k e.1 = e.2) ∧
      (∀ n, (∀ e ∈ r.sets, e.1 ≠ n) → Tab.get 0#64 k n = Tab.get 0#64 c.p.k n) ∧
      (∀ m ∈ marks, (∃ i, i < 16 ∧ wb.getLsbD i = true ∧ m.reg = c.r.regOf i) ∧
        m.owner = (match tag with | some q => .tag q | none => .untagged)) ∧
      (∀ i j, i < 16 → wb.getLsbD i = true →
        (∀ n, n < 16 → n ≠ i → wb.getLsbD n = true → c.r.regOf n ≠ c.r.regOf i) →
        c.p.live.getLsbD j = true →
        ((∃ q ∈ settleLate c.p.live (r.lateFor i), q.lanes.getLsbD j = true) →
          (∃ m ∈ marks, m.reg = c.r.regOf i ∧ m.lanes.getLsbD j = true) ∧
            Tab.get 0#64 regs (32 * c.r.regOf i + j) = Tab.get 0#64 c.p.regs (32 * c.r.regOf i + j)) ∧
        ((∀ q ∈ settleLate c.p.live (r.lateFor i), q.lanes.getLsbD j = false) →
          Tab.get 0#64 regs (32 * c.r.regOf i + j) = Tab.get 0#64 r.win (32 * i + j)))) ∧
  (∀ (s : State) (c : Ctx) (v : Word) (n : Nat) (g : BitVec 24) (m : Mask) (bits : BitVec 2048),
    let core := c.w.core
    let store (f : SetEntry → SetEntry) : State := s.modCore core fun k => { k with store := listChange k.store n f }
    (s.commitEff c (.syswr 5 v) = s.modWarp c.w fun p => { p with fpflags := v.setWidth 5 }) ∧
    (s.commitEff c (.syswr 1 v) = s.modWarp c.w fun p =>
      { p with trap := p.trap.map fun t => (t.1, v &&& 0x01FFFFFFFFFFFFF0#64) }) ∧
    (s.commitEff c (.syswr 6 v) = s.modLaunch c.p.launch fun l => l.modPlace core fun p => { p with drops := v.setWidth 32 }) ∧
    (s.commitEff c (.syswr 7 v) = s.modLaunch c.p.launch fun l => { l with detNext := some v }) ∧
    (s.commitEff c (.syswr 11 v) = s.modLaunch c.p.launch fun l => l.modPlace core fun p =>
      { p with wdogNext := some (v &&& 0x1FFFFFFFF#64) }) ∧
    (s.commitEff c (.fill n bits) = store fun x => { x with holder := some c.p.launch, bits := bits }) ∧
    (∀ sub clr, s.commitEff c (.counter n sub clr) = s.modWarp c.w fun p => { p with
      ctr := listChange p.ctr n fun x => (x.1 - sub, if clr then false else x.2) }) ∧
    (∀ on, s.commitEff c (.tile n on) = s.modWarp c.w fun p => { p with
      tiles := if on then p.tiles ||| BitVec.ofNat 16 (2 ^ n) else p.tiles &&& ~~~(BitVec.ofNat 16 (2 ^ n)) }) ∧
    (∀ e, (s.core core).group? core c.p.launch g = some e →
      (s.commitEff c (.join g m) = s.modCore core fun k => k.joinGroup core e c.w.slot m) ∧
      (s.commitEff c (.leave g m) = s.modCore core fun k => k.leaveGroup core e c.w.slot m) ∧
      (s.commitEff c (.dissolve g) = s.modCore core fun k => k.dissolve core e)) ∧
    ((s.core core).group? core c.p.launch g = none →
      s.commitEff c (.join g m) = s ∧ s.commitEff c (.leave g m) = s ∧ s.commitEff c (.dissolve g) = s)) ∧
  (∀ (s : State) (c : Ctx) (wb : BitVec 16) (tag : Option Nat) (h : Held) (rest : List Held) (t : State),
    (c.r.held = h :: rest →
      (s.heldStep c h rest = .done t → s.commitStep c wb tag 1 = .go t) ∧
      (s.heldStep c h rest = .sent t → s.commitStep c wb tag 1 = .stop t) ∧
      (s.heldStep c h rest = .wait → s.commitStep c wb tag 1 = .wait)) ∧
    (s.depositOut c.w = false →
      (∀ id d m a hs, s.accessArrives a.sector = true → (s.core c.w.core).reqs.any (fun q => q.id == id) = true →
        s.heldStep c (.home id d m (a :: hs)) rest = .sent ((s.sendHome
          { id := id, core := c.w.core, warp := c.w, stamp := c.p.stamp, launch := c.p.launch, sector := a.sector,
            round := Tab.get 0 s.dev.rounds a.sector, packet := none, tenant := c.l.tenant, age := 0, ths := c.ownersOf m a,
            acc := a }).modRun c.w fun r =>
              { r with waitId := some id })) ∧
      (∀ scope, s.heldStep c (.fence scope) rest =
        .done ((if 3 ≤ scope then s.writeBackAll c.w.core else s).setHeld c.w rest)) ∧
      (∀ target slot ctr reg vals, (s.core target).deposits.length < 64 →
        s.heldStep c (.rwr target slot ctr reg vals) rest = .done (((s.freshId target).2.modCore target fun k => { k with
          deposits := k.deposits ++ [{ id := (s.freshId target).1, launch := c.p.launch, slot := slot, ctr := ctr, reg := reg,
                                       vals := vals, sender := (c.w.core, sessionKey c.w), arrived := false,
                                       heard := c.l.heardBy (vals.map fun e => c.thread e.1) }] }).setHeld
            c.w rest))) ∧
    (∀ add base len g, s.heldStep c (.bind add base len g) rest = .done ((s.modLaunch c.p.launch fun l => { l with
      binds := if add then (if (base, len, g) ∈ l.binds then l.binds else l.binds ++ [(base, len, g)])
        else l.binds.filter fun b => b ≠ (base, len, g) }).setHeld c.w rest))) ∧
  (∀ (s : State) (c : Ctx) (wb : BitVec 16) (tag : Option Nat) (n : Nat),
    c.r.held = [] → c.r.give = some n → c.w.hnd = false → Dict.find (s.core c.w.core).hnds c.w.slot = none →
    s.warp? c.w = some c.p → c.own = c.p →
    ∃ t, s.commitStep c wb tag 1 = .go t ∧ (t.core c.w.core).returned = (s.core c.w.core).returned + n * liveSlices c.p.live ∧
      ∃ q : Warp, t.warp? c.w = some q ∧ q.g = c.p.g - n ∧
        (∀ key, Tab.get 0#64 q.regs key = if key < 256 * (c.p.g - n) then Tab.get 0#64 c.p.regs key else 0#64)) ∧
  ∀ (s : State) (c : Ctx) (wb : BitVec 16) (tag : Option Nat),
    let ends (u : State) : Prop := s.commitStep c wb tag 2 = .stop ((s.barmis u c.w).endCommit c)
    let k0 (p : Warp) (m : Mask) : Tab Word := Tab.set 0#64 p.k 0 (localValue c.w.slot m)
    (c.r.xfer = .fall → ends (s.modWarp c.w fun p => { p with pc := c.r.fall, fetched := none })) ∧
    (∀ a, c.r.xfer = .goto a → ends (s.modWarp c.w fun p =>
      { p with pc := a, fetched := if a = c.r.hdr then some c.r.src else none })) ∧
    (∀ m, c.r.xfer = .exit m →
      let u := s.modWarp c.w fun p => { p with pc := c.r.fall, fetched := none }
      ends (u.exitLanes c.w m) ∧
      (∀ p, u.warp? c.w = some p →
        let left := (Tab.get 0#64 p.k 0).setWidth 32 &&& p.live &&& ~~~m
        ((∃ n src, p.kind = .apply n src) → u.exitLanes c.w m = u.modWarp c.w fun x =>
          { x with live := p.live &&& ~~~m, region := if p.live &&& ~~~m = 0#32 then none else p.region, k := k0 p left }) ∧
        (p.kind = .ordinary → c.w.hnd = false →
          (∃ q : Warp, (u.exitLanes c.w m).warp? c.w = some q ∧ q.live = p.live &&& ~~~m ∧ q.k = k0 p left ∧
            q.regs = p.regs ∧ q.pc = p.pc ∧ q.run = p.run) ∧
          ∀ l, u.launch? p.launch = some l → ∃ l', (u.exitLanes c.w m).launch? p.launch = some l' ∧
            l' = { l with exited := l.exited + countLanes (m &&& p.live) }))) ∧
    (∀ (v : Word) (b0 b1 : Nat) (block cont : Word) (ms : Members), c.r.xfer = .apply v false b0 b1 block cont ms → s.depositOut c.w = false →
      ms.slots.length = 1 → s.warp? c.w = some c.p →
      ends (s.modWarp c.w fun p => { p with
        applies := p.applies ++ [{ cont := cont, k0 := Tab.get 0#64 p.k 0, session := none, argk := none }],
        region := p.region.map fun r => (r.1 <|> some block, r.2),
        k := k0 p (ms.lanesIn c.w.core c.w.slot &&& p.live), pc := block, fetched := none, wait := .none,
        readyAt := if p.sched = .active then none else some (s.core c.w.core).cyc.toNat })) ∧
    (∀ a, c.r.xfer = .enda → s.depositOut c.w = false → s.warp? c.w = some c.p → c.p.applies.getLast? = some a →
      a.session = none → a.argk = none →
      ends (s.modWarp c.w fun p => { p with
        applies := p.applies.dropLast, region := p.region.map fun r => (r.1 <|> some a.cont, r.2), k := k0 p (a.k0.setWidth 32 &&& p.live), pc := a.cont, fetched := none, wait := .none,
        readyAt := if p.sched = .active then none else some (s.core c.w.core).cyc.toNat })) ∧
    (∀ e u, c.r.xfer = .tret e → s.commitTret c e = .done u → ends u) ∧
    (∀ (u : State) (p : Warp), u.warp? c.w = some p → p.stamp = c.p.stamp → c.r.soft = none → c.r.yield = false → c.r.setEff = [] →
      c.p.wait = .none → p.wait = .none →
      u.endCommit c = u.modWarp c.w fun x => { x with
        run := none, wdog := 0, ppoint := c.r.ppoint, region := if p.live = 0#32 then none else x.region })

/-- R62, R64, R69, R77, R115, R117, R144, R186: what reaches a core. Of the events `pendingValueArrival`, `sfqCompletion`,
`deposit`, `acknowledgementReturn`, `l1Eviction` and `icinvCompletion`, each completes in every state, and does as follows. A
value that a run awaits becomes readable there, unless it is poisoned (POISON) or no value for its set register (SETKIND); a
known value reaches the registers it marked; a special function's results reach their register in the lanes still live, where
they replace what a write-back still awaits, their flags FPFLAGS, and the token is free; a deposit writes its target at a boundary, the first to reach it first (what it tells of the order of events, log 34), and one
whose target is gone is discarded; entries that nothing awaits are free; a sector evicted is written back; an invalidation
that completes lets its warp fetch. -/
def Obligations.ValueEventsComplete : Prop :=
  (∀ (s : State) (core id : Nat) (w : WarpRef),
    (∃ t, exec (.pendingValueArrival core id) s = .next t) ∧ (∃ t, exec (.sfqCompletion w id) s = .next t) ∧
    (∃ t, exec (.deposit core id) s = .next t) ∧ (∃ t, exec (.acknowledgementReturn core id) s = .next t) ∧
    (∃ t, exec (.l1Eviction core id) s = .next t) ∧ (∃ t, exec (.icinvCompletion w) s = .next t)) ∧
  ∀ (s : State) (core id : Nat) (w : WarpRef) (p o : Warp),
    let awaited (e : WarpRef × Warp) (q : Pend) : Prop :=
      ∃ r, e.2.run = some r ∧ q ∈ r.pend ∧ q.id = id ∧ q.arrived = false
    let freed : State := s.modCore core fun k => k.freeReqs id
    let trapAt (code : Code) (n : Nat) : Trap := { code := code, pos := n, info := 0, lanes := none, kind := 0 }
    (∀ q : Pend, (w, p) ∈ s.residents core → awaited (w, p) q →
      (∀ e ∈ s.residents core, ∀ q', awaited e q' → e = (w, p) ∧ q' = q) →
      let good : Bool := match q.dest with
        | .set _ => (freed.core core).kmakeOk core p.launch ((q.vals.head?.map (·.2)).getD 0#64)
        | .win _ _ => true
      exec (.pendingValueArrival core id) s = .next (if q.poison then freed.takeTrap w (trapAt .poison q.pos)
        else if good then freed.modRun w fun r =>
          Run.settle { r with pend := r.pend.map fun x => if x.id = id then { x with arrived := true } else x }
        else freed.takeTrap w (trapAt .setkind q.pos))) ∧
    ((w, p) ∈ s.residents core → (∃ m ∈ p.marks, m.id = id ∧ m.known = true) → (∀ e ∈ s.residents core, ∀ q, ¬ awaited e q) →
      (∀ e ∈ s.residents core, ∀ m ∈ e.2.marks, m.id = id → m.known = true → e = (w, p)) →
      exec (.pendingValueArrival core id) s = .next (s.arriveMarks core w p id)) ∧
    (∀ q : SfqOp, s.warp? w = some p → s.warp? (ownerRef w) = some o → (p.sfq.find? fun x => x.token == id) = some q →
      (q.vals.map fun e => e.1).Nodup →
      ∃ (regs : Tab Word) (fl : BitVec 5) (got : Mask),
        exec (.sfqCompletion w id) s = .next ((s.modWarp (ownerRef w) fun x => { x with regs := regs }).modWarp w fun x =>
          { x with sfq := x.sfq.filter fun y => y.token != id, fpflags := p.fpflags ||| fl,
                   marks := (x.marks.filter fun y => y.owner != .token id).map fun y =>
                     if y.reg = q.reg then { y with lanes := y.lanes &&& ~~~got } else y }) ∧
        (∀ i, got.getLsbD i = true ↔ p.live.getLsbD i = true ∧ q.lanes.getLsbD i = true ∧ ∃ e ∈ q.vals, e.1 = i) ∧
        (∀ e ∈ q.vals, q.reg < 8 * o.g → p.live.getLsbD e.1 = true → q.lanes.getLsbD e.1 = true →
          Tab.get 0#64 regs (32 * q.reg + e.1) = (q.result e.2).1) ∧
        (∀ key, (∀ e ∈ q.vals, q.reg < 8 * o.g → p.live.getLsbD e.1 = true → q.lanes.getLsbD e.1 = true →
            key ≠ 32 * q.reg + e.1) →
          Tab.get 0#64 regs key = Tab.get 0#64 o.regs key)) ∧
    (∀ d : Deposit, ((s.core core).deposits.find? fun x => x.id == id) = some d →
      (d.arrived = true ∨ (s.core core).depositBehind d = false) → s.suspended d.launch core = false →
      let come : State := if d.arrived then s else s.modCore core fun k => k.depositArrives d
      let gone (t : State) : State := t.modCore core fun k => { k with deposits := k.deposits.filter fun x => x.id != id }
      ((∀ q, Dict.find (s.core core).warps d.slot = some q → q.launch ≠ d.launch) →
        exec (.deposit core id) s = .next (gone come)) ∧
      (Dict.find (s.core core).warps d.slot = some p → p.launch = d.launch →
        (s.core core).firstArrived d.launch d.slot = (if d.arrived then some d else none) →
        exec (.deposit core id) s = .next (if p.takesDeposit (Dict.find (s.core core).hnds d.slot) d
          then gone ((come.modWarp { core := core, slot := d.slot, hnd := false } fun x => x.takeDeposit d).tellDeposit p d)
          else come))) ∧
    (s.needed core id = false → exec (.acknowledgementReturn core id) s = .next freed) ∧
    (∀ x, Dict.find (s.core core).l1 id = some x →
      exec (.l1Eviction core id) s = .next (s.flushSector core id)) ∧
    (∀ l, s.warp? w = some p → s.launchOf w = some l → p.icinv.isSome → ∃ t : State,
      exec (.icinvCompletion w) s = .next (t.modWarp w fun x => { x with icinv := none }) ∧
        t = { s with cores := t.cores } ∧ ∀ c, t.core c = { s.core c with icache := (t.core c).icache })

/-! ### Events of warps -/

/-- R17, R18, R33, R36, R68, R70, R325, R399: what a core does with its warps. The next warp of its oldest unit is made in a free
slot of 0 to 59 (log 41: which one is free), with its threads and its argument, or with the message's words and its group; a
warp ready since a cycle before enters the active set, at most eight; the claim at the head is granted where the pool holds
it; a watchdog that is due raises WDOG; 4,096 cycles of deadlock raise CLAIMDL in the warps that wait at a claim. -/
def Obligations.WarpEventsComplete : Prop :=
  ∀ (s : State) (core : Nat) (w : WarpRef) (p : Warp),
    let k := s.core core
    (∀ (n q j : Nat) (l : Launch), s.nextUnit core = some (n, l, j) → s.pick (k.freeSlots 0 60) = some q → k.started = true →
      k.heldBack = false → s.nextJob core = none → k.created = false →
      (l.card.lause = true → k.auto.holder = none ∨ k.auto.holder = some l.id) →
      l.card.rg * liveSlices (lowLanes (threadsOf l.card.nthr j)) ≤ k.poolFree →
      let made (payload : List Word) : State :=
        (((s.drawn.holdArray core l).addWarp core q (l.newWarp s.dev.nextStamp q j payload)).modLaunch l.id fun x =>
          x.modPlace core fun y => { y with todo := dropFirst y.todo }).modCore core fun k =>
          { k with amsJobs := k.amsJobs.filter fun x => x.1 != l.id }
      (l.ams = false → (∀ x ∈ k.amsJobs, x.1 ≠ l.id) → exec (.warpCreation core) s = .next (made [])) ∧
      (∀ (e : Nat) (payload : List Word), l.ams = true → k.freeEntry = some e →
        (k.amsJobs.find? fun x => x.1 == l.id) = some (l.id, payload) →
        exec (.warpCreation core) s = .next ((made payload).amsGroup core q l.id e))) ∧
    (k.started = true → k.entered = false → (s.activeSet core).length < 8 → s.entrant core s.throttle = some w →
      exec (.activeSetEntry core) s = .next ((({ s with oracle := s.oracle + 1 } : State).modWarp w fun x =>
        { x with sched := .active, lastIssue := k.cyc.toNat, readyAt := none }).modCore core fun k => { k with entered := true })) ∧
    (∀ (n slot : Nat) (h : Bool) (x : ClaimWait), k.firstClaim = some (n, slot, h, p, x) → k.granted = false →
      x.n * liveSlices p.live ≤ k.poolFree →
      exec (.claimGrant core) s = .next ((s.modWarp { core := core, slot := slot, hnd := h } fun y =>
        { y with claim := some { x with granted := true } }).modCore core fun k => { k with granted := true })) ∧
    (s.warp? w = some p → s.wdogDue w p = true → exec (.watchdogExpiry w) s = .next (s.takeTrap w
      { code := .wdog, pos := 27, info := s.wdogField w p, lanes := none, kind := 0 })) ∧
    (∀ n : BitVec 16, 4096 ≤ k.deadlock → (w, p) ∈ s.residents core →
      let t := s.modCore core fun k => { k with deadlock := 0 }
      t.waitsAt w p = some (.claim n) → t.wdogDue w p = false →
      (∀ e ∈ t.residents core, ∀ m, t.waitsAt e.1 e.2 = some (.claim m) → e = (w, p)) → (t.residents core).Nodup →
      exec (.claimDeadlock core) s = .next (t.takeTrap w
        { code := .claimdl, pos := p.waitPos, info := n.toNat, lanes := none, kind := 0 }))

/-- R24, R25, R104, R234, R298, R302, R346, R347: of the events `applyWarpCreation`, `sweepHandlerCreation`,
`handlerWarpCreation` and `warpRetirement`, each completes in every state, and does as follows. Apply warps, sweep handlers
and trap handlers are made in the slots kept for them, their registers filled, when the pool holds them; a warp whose lanes
have exited and that is quiet gives its slot back: an apply warp's flags reach its sources (R104) and its session goes on, a
sweep handler that has not merged merges nothing (R302). What the delivery of a page comes after comes before its handler's events
(R308; log 34); that the jobs of a preempted launch are passed over is the model's choice (log 86). A handler of LOGFULL has the lanes that were live as the trap was raised
(the model's choice, log 74), and TRAPPC keeps bits 56:4 of the header's address (R349). -/
def Obligations.WarpKindEventsComplete : Prop :=
  (∀ (s : State) (core q : Nat) (w : WarpRef),
    (∃ t, exec (.applyWarpCreation core) s = .next t) ∧ (∃ t, exec (.sweepHandlerCreation core) s = .next t) ∧
    (∃ t, exec (.handlerWarpCreation core q) s = .next t) ∧ (∃ t, exec (.warpRetirement w) s = .next t)) ∧
  ∀ (s : State) (core q : Nat),
    let k := s.core core
    (∀ (x : Session) (i : Nat), k.nextApply = some (x, i) →
      s.pick (k.freeSlots 60 4) = some q → k.claimWaits = false → k.created = false →
      x.need i ≤ k.poolFree →
      ∃ p : Warp, exec (.applyWarpCreation core) s =
          .next ((s.drawn.addWarp core q p).modSession core x.id fun y => { y with next := i + 1 }) ∧
        p.kind = .apply x.id ((((x.members.drop (32 * i)).take 32).zipIdx).map fun e => (32 * i + e.2, e.1.1, e.1.2)) ∧
        p.live = lowLanes (min 32 (x.members.length - 32 * i)) ∧ p.pc = x.block ∧ p.g = max x.b0 x.b1 + 1) ∧
    (∀ j : SweepJob, s.nextJob core = some j → s.pick (k.freeSlots 0 60) = some q → k.heldBack = false → k.created = false →
      4 * j.hg ≤ k.poolFree →
      ∃ p : Warp,
        let t := (s.drawn.addWarp core q p).modCore core fun k => { k with jobs := k.jobs.erase j }
        exec (.sweepHandlerCreation core) s = .next (if j.heard = [] then t else (t.hears j.launch p.names j.heard).2) ∧
        p.kind = .sweep j.hdl j.seq j.slot j.sweep ∧ p.live = 0xFFFFFFFF#32 ∧ p.pc = j.hent ∧ p.g = j.hg ∧
        ∀ n v i, j.regs[n]? = some v → i < 32 → Tab.get 0#64 p.regs (32 * n + i) = v) ∧
    (∀ (p : Warp) (t : Trap) (e : Word), Dict.find k.warps q = some p → p.handlerDue = some (t, e) →
      (t.code = .logfull ∨ (p.marks = [] ∧ p.sfq = [])) →
      k.created = false → p.stop = false → p.sched ≠ .suspended → s.goesOn p = true → Dict.find k.hnds q = none →
      ∃ h : Warp, exec (.handlerWarpCreation core q) s = .next
          ((s.modCore core fun k => { k with hnds := Dict.put k.hnds q h, created := true }).modDev fun d =>
            { d with nextStamp := d.nextStamp + 1 }) ∧
        h.kind = .handler ∧ h.pc = e ∧ h.tids = p.tids ∧
        h.trap = some (t, (if t.code = .logfull then t.addr else p.pc) &&& 0x01FFFFFFFFFFFFF0#64) ∧
        h.live = if t.code = .logfull then t.lanes.getD p.live else p.live) ∧
    (∀ p : Warp, let w : WarpRef := { core := core, slot := q, hnd := false }
      s.warp? w = some p → s.retires w p = true →
      let s := s.modCore core Core.keepSeen
      let freed (t : State) : State := t.modCore core fun k => k.freeSlotOf q
      (p.kind = .ordinary → exec (.warpRetirement w) s =
        .next (freed (((s.passTurn w p).dropTurns core p.applies).dropMembers w p.applies))) ∧
      (∀ n src, p.kind = .apply n src → exec (.warpRetirement w) s = .next (s.barmis (s.retireApply w) w)) ∧
      (∀ hdl seq slot sweep, p.kind = .sweep hdl seq slot sweep → exec (.warpRetirement w) s = .next
        (freed (((s.retireHandler core p.launch p.merged hdl seq slot sweep p.names).dropTurns core p.applies).dropMembers w
          p.applies))))

/-! ### Events of launches, of homes and of engines -/

/-- R26 to R28, R314, R329, R330: a launch of which nothing is left to run ends: its core write-backs, its guards, its
resources, its report; one that a cause ended does so once its engines and its begun commits are done, its guards left as
they are; an open phase of a device barrier that every live thread has reached is completed; an ARGK member at a boundary
enters the block, and its threads' events there come after the post of the launch (R201; log 34). That the held atomics of a deterministic launch that a cause ended are flushed before step 1 is the
model's choice (log 17). -/
def Obligations.LaunchEventsComplete : Prop :=
  ∀ (s : State) (n : Nat) (l : Launch),
    (s.launch? n = some l → l.id = n → l.isDet = false → l.mode = 0 → s.endsNow l = true →
      exec (.launchEnd n) s = .next ((((s.writeBackLaunch l).releaseGuards l).releaseAll l).report l none)) ∧
    (∀ cause : Cause, s.launch? n = some l → l.cause = some cause → s.enginesOf n = false → s.canStillPerform n = false →
      s.canStillCommit n = false → s.flushWaits l = false →
      exec (.launchAbort n) s = .next
        ((((s.deviceFlush l).2.writeBackLaunch l).releaseAll l).report l (some cause))) ∧
    (∀ (j : Nat) (b : DevBarrier), s.dev.dbars[j]? = some b → b.launch = some n → s.launch? n = some l →
      l.exited < l.card.nthr → l.card.nthr - l.exited ≤ (b.arr.filter fun a => a.1 == b.ph).length → l.cause = none →
      l.isDet = false →
      exec (.deviceBarrierPhase j) s = .next (s.modDev fun d => { d with
        dbars := listChange d.dbars j fun x => { x with ph := b.ph + 1, arr := b.arr.filter fun a => a.1 != b.ph } })) ∧
    (∀ (w : WarpRef) (p : Warp) (m : Nat × Nat × Mask), s.launch? n = some l → l.id = n → s.warp? w = some p → w.hnd = false →
      (l.argkLeft.find? fun x => x.1 == w.core && x.2.1 == w.slot) = some m → l.poster = some p.launch →
      (∀ a ∈ p.applies, a.argk ≠ some n) → p.run = none → p.wait = .none → p.due = none → p.stop = false → p.sched ≠ .suspended →
      exec (.argkMemberStart n w) s = .next (if m.2.2 &&& p.live = 0#32
        then s.modLaunch n fun x => { x with argkLeft := x.argkLeft.filter fun y => y != m }
        else
          let t := (s.enterBlock w l.card.entry p.pc m.2.2 none (some n)).modWarp w fun x => { x with claim := none }
          if l.base = [] then t
          else (t.hears p.launch ((m.2.2 &&& p.live).toList.map fun j => p.names.getD j 0) l.base).2))

/-- R312, R317 to R319, R325: cards read and units placed. A head card that holds waits for its units; one that fails
performs its end actions with the cause; a core places a unit of the card it serves, the placer one of an any-queue card
on the core it chooses. The card of an active message is read once, and the message starts its launch by the held fields; where
the card's thread count or kind forbids that, it is discarded with a fault record. The model's own choice, log 18 with log 73: that
record gives the core, CAUSE PERM, KIND read and the card, which R325 and R375 do not state. -/
def Obligations.CardEventsComplete : Prop :=
  ∀ (s t : State) (core n : Nat) (q : QItem) (x : Card),
    (s.dev.queue[n]? = some q → q.card = none → s.isHead q = true → s.stillFaults q.tenant q.fault = false →
      (s.readCard q.tenant q.addr = .held x → x.argk = false → x.nthr ≠ 0 →
        exec (.cardRead n) s = .next (s.modDev fun d => { d with
          queue := d.queue.map fun y => if y.id = q.id then { y with card := some x, fault := none } else y })) ∧
      (∀ (code : Code) (detail : Nat) (succ : Word), s.readCard q.tenant q.addr = .fails code detail succ →
        exec (.cardRead n) s = .next ((s.dropItem q.id).endActions q.tenant q.addr
          (some { code := code, detail := detail }) succ q.host))) ∧
    (s.serves core = some q → q.card = some x → q.core = some core → (s.core core).placed = false →
      s.placeUnit core q x = .made t → exec (.unitPlacement core) s = .next (t.tookUnit core q)) ∧
    (s.dev.queue[n]? = some q → q.card = some x → q.core = none → s.dev.anyPlaced = false →
      s.chosen x (s.placer q) = some core → (s.core core).placed = false → s.serves core = some q →
      ({ s with oracle := s.oracle + 1 } : State).placeUnit core q x = .made t →
      exec (.anyQueuePlacement n) s = .next (((t.tookUnit core q).countPasses (s.placer q) core).modDev fun d =>
        { d with anyPlaced := true, placeP := (core + 1) % 144 })) ∧
    (∀ (m : Message) (rest : List Message), (s.core core).messages = m :: rest →
      (m.held = none → s.stillFaults m.tenant m.fault = false → s.readCard m.tenant m.card = .held x →
        (x.nthr ≠ 0 → x.nthr ≤ 32 → x.argk = false →
          exec (.amsArrival core) s = .next (s.modCore core fun k =>
            { k with messages := { m with fault := none, held := some x } :: rest })) ∧
        ((x.nthr = 0 ∨ 32 < x.nthr ∨ x.argk = true) →
          exec (.amsArrival core) s = .next ((s.modCore core fun k => { k with messages := rest }).faultRecord m.tenant
            (BitVec.ofNat 64 m.card) core .perm 0 m.card))) ∧
      ((∀ y ∈ m :: rest, y.held ≠ none) → m.held = some x → s.fits core x none = true →
        exec (.amsArrival core) s = .next (s.startMessage core m x)))

/-- R355 to R360, R373, R376: preemption. A core preempts a launch for a head card of a higher level, or for the host; a warp
at an eligible point stops, within 2,097,152 cycles of the request, and its decisions that wait for a record are given up; a
launch whose warps have stopped and whose work is drained is saved, or ended where it does
not fit; one that does not stop in 2,097,152 cycles is ended; a saved launch that fits again is restored. The model's own choices: a
warp that restarts at the entry of its region leaves the session of applies at which it waits (log 76), and the size and the bytes of
a save, and where in the save area they stand, are free (log 10). -/
def Obligations.PreemptionEventsComplete : Prop :=
  ∀ (s : State) (core n : Nat) (l : Launch),
    (s.launch? n = some l → l.id = n → l.preemptible core = true → (s.core core).preempting n = false →
      s.mustYield core l = true →
      exec (.preemptionRequest core n) s = .next (s.modCore core fun k =>
        { k with preempts := k.preempts ++ [{ launch := n, age := 0 }] })) ∧
    (∀ (w : WarpRef) (p : Warp), s.warp? w = some p → p.stop = false →
      (∃ x ∈ (s.core w.core).preempts, x.launch = p.launch ∧ x.age < 2097152) → p.eligible = true →
      let at_ := if p.region.isSome then none else s.waitsOn w p
      ∃ t : State, exec (.warpStop w) s = .next t ∧
        (w.hnd = true → t = ((s.leaveSession w p).modWarp w fun x => { x.halt with stoppedAt := at_ }).modLaunch p.launch
          fun x => x.forget w) ∧
        (w.core < s.cores.length → t.warp? w = some { p.halt with stoppedAt := at_ }) ∧
        p.halt.stop = true ∧ p.halt.sched = .suspended ∧
        (∀ e off n, p.region = some (some e, off, n) → p.halt.pc = e ∧ p.halt.run = none) ∧
        ((p.region = none ∨ ∃ off n, p.region = some (none, off, n)) → p.halt.pc = p.pc ∧ p.halt.run = p.run ∧ p.halt.wait = p.wait) ∧ p.halt.regs = p.regs) ∧
    (∀ e : Machine.Preempt, s.launch? n = some l → ((s.core core).preempts.find? fun x => x.launch == n) = some e →
      2097152 ≤ e.age → s.allStopped core n = false →
      exec (.ptimeExpiry core n) s = .next (s.endByTime core l)) ∧
    (∀ p : Place, s.launch? n = some l → l.place? core = some p → (s.core core).preempting n = true → p.away = false →
      l.cause = none → s.allStopped core n = true → s.drained core n = true →
      ∃ size, ∃ image : List (Nat × Byte), 0 < size ∧
        let u : State := { s with oracle := s.oracle + 1 }
        let v : State := (u.flushAll core).saveLaunch core l p size
        let r := v.tenant l.tenant
        (∀ e ∈ image, e.1 < r.ctxsize.toNat) ∧
        exec (.contextSave core n) s = .next (if (s.tenant l.tenant).ctxsize.toNat < s.savedBytes l.tenant + size
          then u.endByTime core l
          else image.foldl (fun x e => x.writeByte (r.ctxbase.toNat + e.1) e.2) { v with oracle := v.oracle + 1 })) ∧
    (∀ x : SavedLaunch, s.launch? n = some l → (s.dev.saved.find? fun y => y.core == core && y.launch == n) = some x →
      s.resumable x l = true → exec (.contextResume core n) s = .next (s.restore x l)) ∧
    (∀ t, s.dev.booted = true → t < 16 →
      exec (.preemptCore t core) s = .next (s.preemptTenant t [core]) ∧
      exec (.preemptAll t) s = .next (s.preemptTenant t (List.range 144)))

/-- R116, R140, R141, R143, R149, R153, R209, R240, R249, R264, R294, R297, R361: the unit of a sector performs its oldest
access and its round ends; what a gateway may combine with it goes with it or not, as a free choice has it (log 69). An
access is performed after its core's dirty bytes in its sectors are home; an atomic leaves the value of R140 and returns
the old one; a guard counts; a future is filled or cleared. An engine command that nothing keeps back is performed, its
flags noted, and at its completion they join its warp's and it leaves the scoreboard. A copy that changes no format leaves
in each byte of its destination the byte of its source. A Barchan serves the first sweep in turn that is not paused; a
staged page reaches its subscription. A copy or loop that a frozen slice poisons is not performed (log 67 says when PEERFLT comes);
what an access tells the sync reads after it is noted (R200; log 34). The guard access of a `rel` makes its push (R203). The model's own
choices: the act that starts a command performs it whole, and its flags join the warp's only at its completion (log 15); an access
of another node sends its packets as it is performed (log 75); a page is delivered before its handler exists (log 90). -/
def Obligations.HomeAndEngineEventsComplete : Prop :=
  ∀ (s t : State) (core id : Nat),
    (∀ q : HomeReq, s.nextAccess id = some q →
      (∀ (v : Word) (fl : BitVec 5), ¬ (q.core < 144 ∧ q.acc.combines q.acc = true) →
        s.perform q.core q.launch (if q.core < 144 then some q.warp else none) q.acc = .done v fl t →
        let u : State := t.modDev fun d => { d with homeQ := d.homeQ.filter fun x => !(x.id == q.id && x.core == q.core) }
        exec (.homeAccessPerform id) s = .next
          (((match q.acc with | .remote src _ _ => u.sendPacket src | h => u.packets h.sectors).notePerformed q v fl
            |> s.tell q).endRound id)) ∧
      (¬ (q.core < 144 ∧ q.acc.combines q.acc = true) →
        s.perform q.core q.launch (if q.core < 144 then some q.warp else none) q.acc = .raised t →
        exec (.homeAccessPerform id) s = .next t) ∧
      (q.core < 144 → q.acc.combines q.acc = true →
        let u : State := { s with oracle := s.oracle + 1 }
        exec (.homeAccessPerform id) s = .next (if Config.freeBit s.oracle = true
          then (u.serveGroup (u.combined q)).endRound id
          else match u.serve q with | .made v => v.endRound id | .raised v => v | .wait => u))) ∧
    (∀ (h : HomeAcc) (l : Nat) (w : Option WarpRef), core < 144 → s.canPerform h = true →
      (∀ th va, h.unit = some (th, va) → s.decideSync l w th va = .made s) →
      let flush (v : State) (secs : List Nat) : State := secs.foldl (fun v sec => v.flushSector core sec) v
      let p := s.push core l h
      let u := flush (flush p h.sectors) ((flush p h.sectors).reach h)
      s.perform core l w h = .done (u.performAcc l h).1 (u.performAcc l h).2.1 (u.performAcc l h).2.2) ∧
    (∀ (x : Launch) (l th va pa scope : Nat), s.launch? l = some x → core < 144 → s.push core l (.guard th va pa scope) =
      if 3 ≤ scope then (s.boundSectors core x (BitVec.ofNat 64 va)).foldl (fun v sec => v.writeBack core sec) s else s) ∧
    (∀ (l th va pa scope : Nat) (v : Word) (a : AtomAcc),
      (let n := a.width / 8
       let old : BitVec a.width := BitVec.ofNat a.width (bytesToNat (s.readBytes a.pa n))
       s.performAcc l (.atom th a) =
         (a.returned old.toNat, 0#5, s.writeBytes a.pa (natToBytes (a.result old.toNat) n))) ∧
      (∀ x : BitVec a.width,
        let b := a.b.setWidth a.width
        BitVec.ofNat a.width (a.result x.toNat) = (match a.op with
          | .add => x + b
          | .fadd =>
            let f : EFmt := if a.wide = true then .f64 else .f32
            BitVec.ofNat a.width (floatResult f 0#3 0#1 0 ((decodeVal f x.toNat).add 0#3 (decodeVal f b.toNat))).1
          | .binc => if x < b then x + 1 else x
          | .xchg => b
          | .minS => if x.sle b = true then x else b
          | .maxS => if x.sle b = true then b else x
          | .minU => if x ≤ b then x else b
          | .maxU => if x ≤ b then b else x
          | .and => x &&& b
          | .or => x ||| b
          | .xor => x ^^^ b
          | .cas => if x = a.c.setWidth a.width then b else x) ∧
        a.returned x.toNat = (match a.op with
          | .minS => x.signExtend 64
          | .maxS => x.signExtend 64
          | _ => x.setWidth 64)) ∧
      s.performAcc l (.guard th va pa scope) = (0#64, 0#5, s.writeWord pa (s.readWord pa + 1#64)) ∧
      s.performAcc l (.future th va pa scope (some v)) = (0#64, 0#5, (s.writeWord pa v).writeWord (pa + 8) 1#64) ∧
      s.performAcc l (.future th va pa scope none) = (0#64, 0#5, s.writeWord (pa + 8) 0#64)) ∧
    (∀ (e : EngRec) (l : Launch), ((s.core core).engine.find? fun x => x.id == id) = some e →
      s.launch? e.launch = some l →
      (e.started = false → (s.core core).mayStart e = true → l.awayFor e.ranges = false →
        (∀ fl : BitVec 5, e.poisoned s l core = false → s.performCmd l core id e.cmd = (fl, t) →
          exec (.engineCommandStart core id) s = .next
            (((t.noteFetch l core id e.cmd).noteWrites (some (core, id)) e.ranges).modCmd core id fun x =>
              { x with started := true, flags := fl })) ∧
        (e.poisoned s l core = true →
          exec (.engineCommandStart core id) s = .next
            ((s.noteFetch l core id e.cmd).modCmd core id fun x =>
              { x with started := true, poison := true, peer := !x.poison }))) ∧
      (e.started = true → e.poison = false → e.peer = false → e.cmd.automaton = false → (∀ c, e.cmd ≠ .copy c) →
        exec (.engineCommandCompletion core id) s = .next
          ((s.modCore core fun k => { k with engine := k.engine.filter fun x => x.id != id }).modWarp e.warp fun p =>
            if p.stamp = e.stamp then { p with fpflags := p.fpflags ||| e.flags } else p))) ∧
    (∀ (c : Copy) (l : Launch) (p : Place) (fl : BitVec 5), c.mcast = none → c.rows ≠ 0 → c.cnt ≠ 0 →
      s.performCmd l core id (.copy c) = (fl, t) →
      let f := entryTag c.fmt
      let n := if c.dir = 2 then c.cnt else rowBytes f c.cnt
      let src (r : Nat) := (rowOff (nearOff (nearLow c.src)) c.sstr r).toNat
      let dst (r : Nat) := (rowOff (nearOff (nearLow c.dst)) c.dstr r).toNat
      let cells (g : Nat → Nat → Nat) := (List.range c.rows).flatMap fun r => (List.range n).map (g r)
      let target := nearCore core (nearLow c.dst)
      (c.dir = 2 → c.selfOverlap l core = false → l.place? target = some p → target < s.cores.length →
        (cells fun r i => l.sliceOff p (dst r + i) true).Nodup →
        fl = 0#5 ∧ ∀ r < c.rows, ∀ i < n, t.nearByte l target (dst r + i) true =
          s.nearByte l (nearCore core (nearLow c.src)) (src r + i) false) ∧
      (c.dir ≠ 2 → tagMx f = false → c.cnt * (tagFmt f).width % 8 = 0 → c.rowsOverlap = false →
        (∀ r < c.rows, c.tagOf r = f) →
        (c.dir = 0 → l.place? target = some p → target < s.cores.length →
          (cells fun r i => l.sliceOff p (dst r + i) true).Nodup →
          let u := c.sectors.foldl (fun v sec => v.writeBack core sec) s
          fl = 0#5 ∧ ∀ r < c.rows, ∀ i < n, t.nearByte l target (dst r + i) true =
            u.readByte (c.phys (c.src + BitVec.ofInt 64 (c.sstr * (r : Int)) + BitVec.ofNat 64 i))) ∧
        (c.dir = 1 →
          (cells fun r i => s.cell (c.phys (c.dst + BitVec.ofInt 64 (c.dstr * (r : Int)) + BitVec.ofNat 64 i))).Nodup →
          fl = 0#5 ∧ ∀ r < c.rows, ∀ i < n,
            t.readByte (c.phys (c.dst + BitVec.ofInt 64 (c.dstr * (r : Int)) + BitVec.ofNat 64 i)) =
              s.nearByte l (nearCore core (nearLow c.src)) (src r + i) false))) ∧
    ((∀ i, i < id → s.sweepStep core i = none) → s.sweepStep core id = some t →
      exec (.sweepPageFetch core id) s = .next t) ∧
    (∀ (g : Staged) (x : Nat × Nat × Nat),
      ((s.die core).staged.flatMap fun g => g.todo.map fun t => (g, t))[id]? = some (g, x) → s.deliver g x = some t →
      exec (.pageDelivery core id) s = .next ((t.modDie core fun d => { d with
        staged := (d.staged.map fun y => if y.sweep == g.sweep && y.page == g.page
          then { y with todo := y.todo.filter fun z => z != x } else y).filter fun y => y.todo != [] }).settleSweeps))

/-! ### Events of errors, of firmware and of the host -/

/-- R361, R362, R377 to R379: an uncorrectable error and a response that does not come within 2,100,000 cycles poison what they
reach, and one in time does nothing; a queue entry in error leaves its queue with POISON in its card, and an error in the DEP
word of a card in no queue is met by its next decrement; a port takes the flit that comes in sequence, and else asks for a
replay; a resend sends a kept packet again and changes nothing else; a packet of another node that comes in sequence is
queued at its home, or, where it is no sync access, performed at once (log 75). What the other end of a link acknowledges and asks for is free (log 65). -/
def Obligations.ErrorAndFabricEventsComplete : Prop :=
  ∀ (s : State) (core id : Nat),
    (exec (.uncorrectableDataError core id) s = .next (s.poison core id)) ∧
    (∀ q : QItem, (s.dev.queue.find? fun x => x.tenant == core && x.addr == id) = some q → q.launch = none →
      let t := (s.dropItem q.id).endCard core (BitVec.ofNat 64 id) (some { code := .poison, detail := 0 })
      exec (.schedulingStateError core id) s = .next
        ((if q.host = true then t.modDev fun d => { d with vectors := d.vectors ++ [(core + 1, 1)] } else t).faultRecord core
          (BitVec.ofNat 64 id) 255 .poison 0 id)) ∧
    ((∀ q ∈ s.dev.queue, ¬ (q.tenant = core ∧ q.addr = id)) →
      exec (.schedulingStateError core id) s = .next (s.modDev fun d => { d with depErrors := d.depErrors ++ [(core, id)] })) ∧
    (∀ pa : Nat, id < 2 ^ 64 → (core, id) ∈ s.dev.depErrors →
      s.translateHome core (BitVec.ofNat 64 id + 0x40#64) .modify = .ok pa →
      s.decrement core (BitVec.ofNat 64 id) =
        (s.modDev fun d => { d with depErrors := d.depErrors.filter fun x => x != (core, id) }).cardError core id 1
          (s.hostPosted core id)) ∧
    ((∀ q ∈ s.dev.homeQ, ¬ (q.core = core ∧ q.id = id)) →
      let late := (∃ q ∈ (s.core core).reqs, q.id = id ∧ q.remote = true ∧ 2100000 ≤ q.age) ∨
        ∃ e ∈ (s.core core).engine, e.id = id ∧ e.poison = false ∧ 2100000 ≤ e.age
      (late → exec (.fabricResponseTimeout core id) s = .next ((s.poison core id).modCore core fun k => { k with
        reqs := k.reqs.map fun q => if q.id = id then { q with remote := false } else q })) ∧
      (¬ late → exec (.fabricResponseTimeout core id) s = .next s)) ∧
    (∀ q : HomeReq, (s.dev.homeQ.find? fun x => x.core == core && x.id == id) = some q → q.age < 2100000 →
      exec (.fabricResponseTimeout core id) s = .next s) ∧
    (∀ (p : Port) (seq : BitVec 12) (payload : BitVec 256) (crc bad : Bool), s.dev.ports[core]? = some p →
      p.inService = true → ∃ (t : State) (p' : Port), exec (.linkFlitReceive core seq payload crc bad) s = .next t ∧
        t.dev.ports[core]? = some p' ∧ t.mem = s.mem ∧ t.cores = s.cores ∧ t.launches = s.launches ∧
        (if (crc = true ∨ bad = true) ∧ seq = p.next then p'.next = p.next + 1 ∧ p'.asked = none
         else p'.next = p.next ∧ p'.asked = some p.next)) ∧
    (∀ dst : Nat, ∃ t : State, exec (.endToEndResend dst id) s = .next t ∧ t.mem = s.mem ∧ t.cores = s.cores ∧
      t.dev.homeQ = s.dev.homeQ ∧ t.dev.e2eSent = s.dev.e2eSent ∧ ((dst, id) ∉ s.dev.e2eSent → t = s)) ∧
    (∀ acc : RemoteSync, id = Tab.get 0 s.dev.e2eSeen core → s.dev.e2eHeld = [] →
      (∀ q ∈ s.dev.homeQ, q.core ≠ 256 + core) → (isSyncOp acc.op = true → s.accessArrives (acc.pa / 32) = true) →
      let t := s.modDev fun d => { d with e2eHeld := [(core, id, acc)] }
      exec (.remoteSyncArrival core id acc) s =
        .next (if isSyncOp acc.op = true then t.queueRemote core id acc else t.takePlain core id acc))

/-- R368, R371, R380 to R386: bring-up, service commands, power and cooling. An image that has arrived goes to verification; the
mailbox's is read from the memory that MBXADDR and MBXLEN name, and BOOTST shows 2 while it is verified. One accepted runs
with its hash measured, one rejected is counted; under RELOAD that concerns the named core alone (the cycle in which a
verification ends, and what BOOTST shows under RELOAD, are the model's choice, log 66; so are what a power-up keeps, and that
a rejected image leaves the caravan cores rejected until the next one arrives, log 24, and where the bytes of bus addresses from
2^44 on are kept, log 79; the rates and widths of the host link, log 64, and the definition of SHA-384, log 81, are presumed). -/
def Obligations.FirmwareEventsComplete : Prop :=
  ∀ (s : State) (n : Nat) (v : Word),
    (s.dev.booted = true →
      (v.getLsbD 0 = true → s.dev.enable = false → exec (.enable v) s = .next (s.modDev fun d => { d with
        enable := true, devcap0 := d.devcap0 &&& d.drvcap0, devcap1 := d.devcap1 &&& d.drvcap1 })) ∧
      ((s.core n).started = false →
        exec (.coreStart n) s = .next (s.modCore n fun k => { k with started := true, cyc := 0#64 }))) ∧
    (s.dev.svc = none →
      let runs (cmd : Nat) (t : State) : State :=
        t.modDev fun d => { d with svc := some { cmd := cmd, arg := n, done := false, fail := 0#8 } }
      (n < 144 → s.placesOn n = [] →
        exec (.drain n) s = .next ((runs 1 s).modCore n fun k => { k with draining := true })) ∧
      (n < 144 → exec (.unfence n) s = .next ((runs 2 s).modCore n fun k => { k with fenced := false, draining := false })) ∧
      (∀ b, s.localBlock n = some b → exec (.retire n) s = .next
        (if Tab.get 0 s.dev.spareUsed (b % 12) < Config.spareBlocks (b % 12) then runs 3 s
         else s.modDev fun d => { d with svc := some { cmd := 3, arg := n, done := true, fail := 3#8 } })) ∧
      (n < 72 → exec (.recal n) s = .next ((runs 4 s).modDev fun d => { d with
        ports := listChange d.ports n fun p => { p with inService := false } })) ∧
      (n < 4 → s.dev.booted = true → s.dev.reload = none → exec (.reload n) s = .next ((runs 5 s).modDev fun d => { d with
        reload := some n, caravan := listChange d.caravan n fun _ => .fetching })) ∧
      (∀ c, n < 4 → s.dev.reload = some c → exec (.reload n) s = .next (s.modDev fun d =>
        { d with svc := some { cmd := 5, arg := n, done := true, fail := 5#8 } }))) ∧
    (∀ x : Service, s.dev.svc = some x → (x.done = true ∨ x.cmd ≠ 1 ∨ s.emptied x.arg = true) →
      exec .serviceCommandDone s = .next ((s.endService x).modDev fun d => { d with svc := none, svcFail := x.fail })) ∧
    (s.dev.fetching = true →
      (v.getLsbD 0 = true → s.dev.mbxgo = false → exec (.mailboxGo v) s = .next (s.modDev fun d =>
        if d.mbxaddr.toNat % 4096 = 0 ∧ 1 ≤ bitsOf d.mbxlen 31 0 ∧ bitsOf d.mbxlen 31 0 ≤ 2 ^ 26
        then { d with mbxgo := true } else { d with rejects := d.rejects + 1 })) ∧
      (∀ (mbx ed ml : Bool) (hash : BitVec 384), (mbx = true → s.dev.mbxgo = true) →
        ∃ x : ImageCheck,
          exec (.imageArrival mbx ed ml hash) s = .next (s.modDev fun d => { d with
            mbxgo := false, image := some x
            caravan := d.caravan.map fun b => if b = .fetching ∨ b = .rejected then .verifying else b }) ∧
          (mbx = false → x = { valid := ed && ml, hash := hash }) ∧
          (mbx = true →
            let bs := (List.range (bitsOf s.dev.mbxlen 31 0)).map fun i =>
              let a := (s.dev.mbxaddr.toNat + i) % 2 ^ 64
              Memory.read s.mem (if a < 2 ^ 44 then 0xFF * 2 ^ 44 + a else 2 ^ 62 + a)
            x = { valid := (Config.imageSigned bs).1 && (Config.imageSigned bs).2, hash := sha384 bs }) ∧
          ∀ t, exec (.imageArrival mbx ed ml hash) s = .next t → t.dev.bootst.toNat % 256 = 2)) ∧
    (∀ x : ImageCheck, s.dev.image = some x → Config.freeBit s.oracle = true →
      ∃ t : State, s.verify = t ∧ t.dev.image = none ∧ t.dev.reload = none ∧
        (x.valid = true → t.dev.measure = some x.hash ∧
          (s.dev.reload = none → t.dev.caravan = s.dev.caravan.map fun _ => .running) ∧
          (∀ c, s.dev.reload = some c → t.dev.caravan = listChange s.dev.caravan c fun _ => .running)) ∧
        (x.valid = false → t.dev.rejects = s.dev.rejects + 1 ∧ t.dev.measure = s.dev.measure ∧
          (s.dev.reload = none → t.dev.caravan = s.dev.caravan.map fun _ => .rejected) ∧
          (∀ c, s.dev.reload = some c → t.dev.caravan = listChange s.dev.caravan c fun _ => .running))) ∧
    (exec .powerUp s = .next { State.reset with
      mem := s.mem.filter fun e => decide ((2 ^ 44 ≤ e.1 ∧ e.1 < 2 ^ 60) ∨ 2 ^ 62 ≤ e.1)
      dev := { State.reset.dev with caravan := List.replicate 4 Boot.fetching }
      agenda := s.agenda
      oracle := s.oracle }) ∧
    (exec .powerOverLimit s = .next (s.modDev fun d => { d with clkPower := true })) ∧
    (exec .thermalThrottle s = .next (s.modDev fun d => { d with clkHeat := true })) ∧
    (exec .thermalHalt s = .next (s.modDev fun d => { d with halted := true, linkUp := false })) ∧
    (s.dev.measure.isSome → exec .spdmRequest s = .next (s.modDev fun d => { d with spdm := d.spdm + 1 })) ∧
    (∀ rate width, rate ∈ [25, 50, 80, 160, 320, 640, 1280] → width ∈ [1, 2, 4, 8, 16] → s.dev.halted = false →
      exec (.hostLinkTraining rate width) s = .next (s.modDev fun d =>
        { d with linkUp := true, linkRate := rate, linkWidth := width }))

/-- R122, R123, R368 to R375: what the host writes, once a caravan core runs its image. A fault resolved lets its warps go on,
those whose handler is due or live once it has returned;
an invalidation begins, and ends when no access uses a translation it covers; a post that passes its checks goes to the
card's home; FQCTL keeps LOG and EN and its OVF is cleared by writing 1; a register takes its writable bits, and an FQHEAD that
FQTAIL then differs from sends vector 0; bytes written
through BAR2 are at their home. -/
def Obligations.HostEventsComplete : Prop :=
  ∀ (s : State) (t : Nat) (v : Word), s.dev.booted = true → t < 16 →
    (∃ u : State, exec (.fresolve t v) s = .next u ∧ u.mem = s.mem ∧ u.launches = s.launches ∧
      (s.tenants.length = 16 → (u.tenant t).unresolved =
        (s.tenant t).unresolved.filter fun x => !(x.2.1 == bitsOf v 56 16 && x.2.2 == bitsOf v 1 0)) ∧
      ∀ w p l, s.warp? w = some p → s.launch? p.launch = some l → l.tenant = t →
        ∃ q, u.warp? w = some q ∧ q = { p with wait := q.wait, trap := q.trap } ∧
          (p.wait = .fault (bitsOf v 56 16) (bitsOf v 1 0) → q.wait = .none) ∧
          (∀ (x : Trap) (a : Word), p.wait = .handler x a ∨ p.trap = some (x, a) →
            x.code = .xlate → x.info / 2048 = bitsOf v 56 16 → x.kind = bitsOf v 1 0 →
            (p.wait = .handler x a → q.wait = .handler { x with resolved := true } a) ∧
            (p.trap = some (x, a) → q.trap = some ({ x with resolved := true }, a))) ∧
          (p.trap = none → q.trap = none) ∧
          (p.wait ≠ .fault (bitsOf v 56 16) (bitsOf v 1 0) → (∀ x a, p.wait ≠ .handler x a) → q.wait = p.wait)) ∧
    (v.getLsbD 0 = true → (s.tenant t).tlbBusy = none →
      (v.getLsbD 1 = false →
        exec (.tlbinvPage t v) s = .next (s.modTenant t fun r => { r with tlbBusy := some (some (bitsOf v 56 16)) })) ∧
      (v.getLsbD 1 = true → exec (.tlbinvAll t v) s = .next (s.modTenant t fun r => { r with tlbBusy := some none }))) ∧
    (∀ inv, (s.tenant t).tlbBusy = some inv → s.usesOld t = false →
      ∃ u : State, exec (.tlbInvalidationDone t) s = .next (u.modTenant t fun r => { r with tlbBusy := none }) ∧
        u = { s with cores := u.cores, dies := u.dies } ∧
        (∀ c, u.core c = { s.core c with tlb := (u.core c).tlb } ∧ ∀ e ∈ (u.core c).tlb,
          e ∈ (s.core c).tlb ∧ ¬ (e.1 = t ∧ covers inv e.2 = true)) ∧
        (∀ d, ∀ e ∈ (u.die d).tlb, ¬ (e.1 = t ∧ covers inv e.2 = true))) ∧
    (∀ pa, (s.tenant t).posting = false → v.toNat % 128 = 0 → bitsOf v 63 57 = 0 →
      s.translateHome t (v + 0x40#64) .modify = .ok pa →
      ∃ q : HomeReq, q.acc = .hostPost v.toNat pa t ∧ q.tenant = t ∧ q.sector = (HomeAcc.hostPost v.toNat pa t).sector ∧
        exec (.hostPost t v) s = .next (((s.sendHome q).modDev fun d => { d with nextStamp := d.nextStamp + 1 }).modTenant t
          fun r => { r with posting := true })) ∧
    (exec (.fqctlWrite t v) s = .next (s.modTenant t fun r =>
      { r with fqctl := (v &&& 0x100F#64) ||| (r.fqctl &&& 0x100#64 &&& ~~~v) })) ∧
    (∀ offset, let u := s.modTenant t fun r => r.writeReg offset v
      exec (.registerWrite (t + 1) offset v) s = .next
        (if (s.tenant t).fqtail = (s.tenant t).fqhead ∧ (u.tenant t).fqtail ≠ (u.tenant t).fqhead ∧
            (u.tenant t).fqctl.getLsbD 12 = true
         then u.modDev fun d => { d with vectors := d.vectors ++ [(t + 1, 0)] } else u)) ∧
    (∀ (pa : Nat) (bytes : List Byte), pa + bytes.length ≤ 768 * 2 ^ 30 →
      exec (.bar2Write pa bytes) s = .next (s.writeBytes pa bytes))

/-! ### Stores, traps and the machine as a whole -/

/-- R115, R117, R132, R138, R198: a plain store performed at its commit. Each byte stored reads back, its bits outside the mask
kept; every other byte reads as before. Without `.na` no home byte changes. With it the bytes stored are at their homes, after
the core's dirty bytes of the same sectors, so that an earlier store is not split; every other byte of these sectors is at
its home what the core held of it where it was dirty, and no byte outside them changes there. The L1 has room for the sectors;
one that is full evicts a sector, whose dirty bytes go home (R3, R115; which one is free, log 35). -/
def Obligations.StoresTouchOnlyTheirBytes : Prop :=
  ∀ (s t : State) (c : Ctx) (na : Bool) (ws : List ByteWrite) (rest : List Held),
    c.w.core < s.cores.length → (ws.map fun w => s.cell w.pa).Nodup → (s.core c.w.core).l1.length + ws.length ≤ 8192 →
    (na = true → ∀ w ∈ ws, ∀ x ∈ ws, s.cell (32 * (w.pa / 32)) = s.cell (32 * (x.pa / 32)) → w.pa / 32 = x.pa / 32) →
    s.heldStep c (.bytes na ws) rest = .done t →
    let core := c.w.core
    let stored (w : ByteWrite) : Byte := (w.val &&& w.mask) ||| (s.coreByte core w.pa &&& ~~~w.mask)
    let apart (pa : Nat) : Prop := ∀ w ∈ ws, s.cell w.pa ≠ s.cell pa
    let inside (pa : Nat) : Prop := ∃ w ∈ ws, w.pa / 32 = pa / 32
    let outside (pa : Nat) : Prop := ∀ w ∈ ws, s.cell (32 * (w.pa / 32)) ≠ s.cell (32 * (pa / 32))
    (∀ w ∈ ws, t.coreByte core w.pa = stored w) ∧
    (∀ pa, apart pa → (na = false ∨ inside pa ∨ outside pa) → t.coreByte core pa = s.coreByte core pa) ∧
    (na = false → t.mem = s.mem) ∧
    (na = true → (∀ w ∈ ws, t.readByte w.pa = stored w) ∧
      (∀ pa, inside pa → apart pa → t.readByte pa = s.flushedByte core pa) ∧
      (∀ pa, outside pa → t.readByte pa = s.readByte pa))

/-- R337, R341 to R343, R346, R348, R352: taking a trap other than LOGFULL discards the run and leaves the pc at its header. With
a handler the warp is pending until the handler is done; without one, XLATE waits for its page, FUTEMPTY makes the warp ready
again, and a code that ends the launch does so; a trap in a handler warp ends it, but for XLATE. LOGFULL discards nothing: the
warp keeps its run, its held commit and its place, and its handler is due; with no handler the launch waits for its log. A
return restarts the warp at TRAPPC, one from LOGFULL leaves it where it is; after an XLATE whose address software has left and
whose record has not been resolved it waits for that; one that has stopped for a preemption stays stopped (R355). A discarded run keeps its packets and restarts from them (R60; log 6). -/
def Obligations.TrapsAreTaken : Prop :=
  ∀ (s : State) (w : WarpRef) (p : Warp) (l : Launch) (t : Trap),
    s.warp? w = some p → s.launch? p.launch = some l →
    let d := (s.modWarp w Warp.discard).modLaunch p.launch fun x => x.forget w
    let ends : Prop := s.takeTrap w t = d.endLaunch p.launch w.core { code := t.code, detail := p.logical }
    (t.code ≠ .logfull → ∀ q, d.warp? w = some q → w.core < s.cores.length → q.run = none ∧ q.pc = p.pc ∧ q.regs = p.regs ∧ q.marks = p.marks ∧
      q.fetched = match p.run with | some r => some r.src | none => p.fetched) ∧
    (w.hnd = false → t.code.never = false → t.code ≠ .xlate → t.code ≠ .logfull →
      (∀ e, s.vector l t.code = .ok (some e) → s.takeTrap w t = d.modWarp w fun x => { x with
        sched := .pending, readyAt := none, wait := .handler t e }) ∧
      (s.vector l t.code = .ok none →
        (t.code = .futempty → s.takeTrap w t = d.modWarp w fun x => { x with
          sched := .pending, readyAt := some (d.core w.core).cyc.toNat, wdog := 0 }) ∧
        (t.code ≠ .futempty → t.code ≠ .brk → ends)) ∧
      (s.vector l t.code = .error () → ends)) ∧
    (w.hnd = true → t.code ≠ .xlate → t.code ≠ .logfull → ends) ∧
    (l.logWait = false → p.handlerDue = none →
      let u := s.modLaunch p.launch fun x => { x with logWait := true }
      (w.hnd = false → ∀ e, s.vector l .logfull = .ok (some e) →
        s.logFull p.launch (some w) = u.modWarp w fun x => { x with due := some ({
          code := .logfull, pos := 25, info := 0, lanes := some x.live, kind := 0, addr := x.pc }, e) }) ∧
      (w.hnd = false → s.vector l .logfull = .ok none → s.logFull p.launch (some w) = u) ∧
      (w.hnd = true ∨ s.vector l .logfull = .error () →
        s.logFull p.launch (some w) = u.endLaunch p.launch w.core { code := .logfull, detail := p.logical })) ∧
    (l.logWait = true → s.logFull p.launch (some w) = s) ∧
    (∀ (c : Ctx) (x : Trap) (at_ : Word), w = ownerRef c.w → s.quiet c.w c.p = true → c.p.trap = some (x, at_) →
      x.code = .logfull → s.commitTret c false =
        .done ((s.modCore c.w.core fun k => { k with hnds := Tab.drop k.hnds c.w.slot }).modWarp w fun y =>
          { y with wdog := 0, due := none })) ∧
    (w.hnd = false → t.code.never = true → ends) ∧
    (t.code = .xlate → (w.hnd = true ∨ l.card.tvt = 0#64) →
      s.takeTrap w t = (d.xlateRecord l.tenant t.addr w.core t.kind l.card.addr).modWarp w fun x =>
        { x with wait := .fault (t.info / 2048) t.kind, sched := .pending, readyAt := none }) ∧
    (∀ (c : Ctx) (at_ : Word), w = ownerRef c.w → s.quiet c.w c.p = true → c.p.trap = some (t, at_) →
      t.code ≠ .logfull → c.r.yield = false →
      let blocks := t.code = .xlate ∧ at_ = trapAddr c.own.pc ∧ t.resolved = false
      let u := s.modCore c.w.core fun k => { k with hnds := Tab.drop k.hnds c.w.slot }
      s.commitTret c false = .done (u.modWarp w fun x =>
        { x with pc := at_, wdog := 0, fetched := if at_ = x.pc ∧ x.stop = false then x.fetched else none,
                 wait := if blocks then .fault (t.info / 2048) t.kind else .none,
                 sched := if x.stop = true then x.sched else if c.p.sched = .active ∧ ¬ blocks then .active else .pending,
                 readyAt := none,
                 lastIssue := (u.core c.w.core).cyc.toNat }))

/-- R29, R40 to R46: where the warp that the agenda names may issue, one step runs the instruction that the decoder reads from
the slot at the position of its run; an instruction that stalls leaves the state, and one that goes on is charged to the
ports, its threads have heard what its sync reads tell (R200; log 34), and it goes on with the chain group of its slot (R45). Around it the step takes the act off the agenda and puts the warp
in focus. An event of the device that the agenda names, and to which nothing makes it give way, is run in the same way. -/
def Obligations.StepRunsTheDecodedInstruction : Prop :=
  (∀ (s : State) (i : Instr) (rest : List Act), s.agenda = .event i :: rest → actOf i = none → isEncoded i = false →
    s.dev.halted = false → ({ s with agenda := rest } : State).givesWay i = false → step s = exec i { s with agenda := rest }) ∧
  ∀ (s u : State) (w : WarpRef) (rest : List Act) (p : Warp) (r : Run) (x : BitVec 32 × BitVec 10 × Word) (sl : Slot),
    s.agenda = .issue w :: rest → u = { s with agenda := rest } →
    u.warp? w = some p → u.admits w p = true → p.run = some r → r.commit = none →
    r.slots[r.pos - 1]? = some x → decodeSlot x.1 x.2.1 = .ok sl →
    step s = match exec sl.instr { u with focus := some w, stall := false } with
      | .next t => .next (if t.stall then u else
          { (u.overhear t w).charge w (u.asks w p) p.stamp (u.core w.core) with chain := if u.chainsOn t w then some w else none })
      | .fault f => .fault f
      | .refused y => .refused y

/-- R42 to R47: every slot of the spec's encoding decodes to itself: a well-formed instruction with its chain bit, which
`trail` has not. -/
def Obligations.DecodeOfEncode : Prop :=
  ∀ (sl : Slot) (word : BitVec 32) (ext : BitVec 10), sl.instr.WellFormed = true →
    (∀ te tag wb, sl.instr = .trail te tag wb → sl.chain = false) →
    encodeSlot sl = some (word, ext) → decodeSlot word ext = .ok sl

/-- R46, R71, R129, R158, R169, R177, R183, R218, R241, R279, R291, R322, R350: words written out from the spec's encoding
tables, of every family, and what they decode to. -/
def Obligations.DecodeOfSpecWords : Prop :=
  let reads (word : BitVec 32) (ext : BitVec 10) (i : Instr) : Prop :=
    decodeSlot word ext = .ok { chain := false, instr := i }
  reads 0x09000000#32 0#10 (.exit 0#3) ∧
  reads 0x01000001#32 0#10 (.trail 0#1 0#3 1#16) ∧
  reads 0x22100F40#32 0x020#10 (.and { k := 0#3, d := 16#5, a := 1#5, b := 29#5, x := 1#5 }) ∧
  reads 0x38031090#32 0#10 (.fadd { k := 0#3, d := 3#5, a := 2#5, b := 2#5, x := 0#5 } 1#2 0#3 0#1) ∧
  reads 0x4C062804#32 0x004#10 (.xred 0#3 6#5 5#5 1#4 0#2 0#3 0#1 2#4) ∧
  reads 0x50020C10#32 0#10 (.sfq 0#3 2#5 1#5 16#5 1#2 0#4 0#1) ∧
  reads 0x51000001#32 0#10 (.sfw 1#16) ∧
  reads 0x1A000000#32 0#10 .enda ∧
  reads 0x54031618#32 0#10 (.ld { k := 0#3, d := 3#5, a := 2#5, b := 24#5, x := 0#5 } 3#3 0#2 0#4) ∧
  reads 0x68000880#32 0#10 (.cpy 0#3 0#5 1#5 2#5 0#6 0#2) ∧
  reads 0x6C080000#32 0x080#10 (.mloop 0#3 8#5 0#4 0#1 0#1 0#1 4#3) ∧
  reads 0x70000800#32 0#10 (.lacfg 0#3 1#5) ∧
  reads 0x77004000#32 0#10 (.swwait 8#5) ∧
  reads 0x79080880#32 0#10 (.ams 8#5 1#5 2#5) ∧
  reads 0x7E000801#32 0#10 (.tret 1#1) ∧
  reads 0x7E000008#32 0#10 .ide ∧
  decodeSlot 0x0E000000#32 0#10 = .error .reservedOp ∧
  decodeSlot 0x00000001#32 0#10 = .error .mustBeZero

/-- The device after reset: the values that R371, R373 and R377 give, no core started, nothing resident or queued; memory in
its canonical form, listing nothing (log 1 is the model's choice of what an unlisted byte reads as). -/
def Obligations.ResetState : Prop :=
  let s := State.reset
  s.mem = [] ∧ s.memoriesWf = true ∧ s.launches = [] ∧ s.dev.queue = [] ∧ s.cores.length = 144 ∧ s.dies.length = 4 ∧
  s.tenants.length = 16 ∧ s.dev.ports.length = 72 ∧
  (∀ k ∈ s.cores, k.started = false ∧ k.warps = [] ∧ k.hnds = [] ∧ k.engine = [] ∧ k.cyc = 0#64) ∧
  s.dev.drvcap0 = 0#64 ∧ s.dev.drvcap1 = 0#64 ∧ s.dev.enable = false ∧ s.dev.nodeid = 0#8 ∧ s.dev.pwrlim = 2500 ∧
  s.dev.mbxaddr = 0#64 ∧ s.dev.mbxlen = 0#64 ∧ s.dev.mbxgo = false ∧ s.dev.svc = none ∧ s.dev.svcFail = 0#8 ∧
  s.dev.devcap1 = 0#64 ∧ (∀ i, s.dev.devcap0.getLsbD i = (decide (i ≤ 10) && i != 8)) ∧
  ∀ r ∈ s.tenants, r.troot = 0#64 ∧ r.fmtab = 0#64 ∧ r.fqbase = 0#64 ∧ r.fqctl = 0#64 ∧ r.fqhead = 0#64 ∧ r.fqtail = 0#64 ∧
    r.ctxbase = 0#64 ∧ r.ctxsize = 0#64 ∧ r.tlbBusy = none ∧ (∀ x ∈ r.winbase, x = 0#64) ∧ (∀ x ∈ r.winlim, x = 0#64)

/-- Every step goes on: whatever the state, and whatever the agenda names, the machine neither faults nor refuses. -/
def Obligations.EveryStepProceeds : Prop := ∀ s : State, Proceeds s

/-- Every step keeps the memories canonical: HBM and host memory, and each core's near slice. -/
def Obligations.StepsKeepMemoriesCanonical : Prop :=
  ∀ s t : State, s.memoriesWf = true → step s = .next t → t.memoriesWf = true

/-- R385: a device that has halted stays as it is. No step but a power-up changes anything of it beyond the agenda and the
count of free choices. -/
def Obligations.HaltedDeviceStands : Prop :=
  ∀ s t : State, s.dev.halted = true → step s = .next t → (∀ rest, s.agenda ≠ .event .powerUp :: rest) →
    t = { s with agenda := t.agenda, oracle := t.oracle }

end
end

