-- ==== Sys2Proof/Laws/State.lean ====
section
/-!
SUPPORT. What each update of a part of the state leaves and what it changes: one lemma for each field.
-/

namespace Sys2Proof.Machine

variable (s : State)

/-! ### `State.modCore` changes `cores` alone -/

@[simp] theorem State.modCore_mem (c : Nat) (f : Core → Core) : (s.modCore c f).mem = s.mem := rfl
theorem State.modCore_cores (c : Nat) (f : Core → Core) : (s.modCore c f).cores = listChange s.cores c f := rfl
@[simp] theorem State.modCore_dies (c : Nat) (f : Core → Core) : (s.modCore c f).dies = s.dies := rfl
@[simp] theorem State.modCore_tenants (c : Nat) (f : Core → Core) : (s.modCore c f).tenants = s.tenants := rfl
@[simp] theorem State.modCore_launches (c : Nat) (f : Core → Core) : (s.modCore c f).launches = s.launches := rfl
@[simp] theorem State.modCore_dev (c : Nat) (f : Core → Core) : (s.modCore c f).dev = s.dev := rfl
@[simp] theorem State.modCore_agenda (c : Nat) (f : Core → Core) : (s.modCore c f).agenda = s.agenda := rfl
@[simp] theorem State.modCore_oracle (c : Nat) (f : Core → Core) : (s.modCore c f).oracle = s.oracle := rfl
@[simp] theorem State.modCore_focus (c : Nat) (f : Core → Core) : (s.modCore c f).focus = s.focus := rfl
@[simp] theorem State.modCore_stall (c : Nat) (f : Core → Core) : (s.modCore c f).stall = s.stall := rfl
@[simp] theorem State.modCore_chain (c : Nat) (f : Core → Core) : (s.modCore c f).chain = s.chain := rfl
@[simp] theorem State.modCore_marks (c : Nat) (f : Core → Core) : (s.modCore c f).marks = s.marks := rfl
@[simp] theorem State.modCore_posted (c : Nat) (f : Core → Core) : (s.modCore c f).posted = s.posted := rfl

/-! ### `State.modTenant` changes `tenants` alone -/

@[simp] theorem State.modTenant_mem (t : Nat) (f : Tenant → Tenant) : (s.modTenant t f).mem = s.mem := rfl
@[simp] theorem State.modTenant_cores (t : Nat) (f : Tenant → Tenant) : (s.modTenant t f).cores = s.cores := rfl
@[simp] theorem State.modTenant_dies (t : Nat) (f : Tenant → Tenant) : (s.modTenant t f).dies = s.dies := rfl
theorem State.modTenant_tenants (t : Nat) (f : Tenant → Tenant) : (s.modTenant t f).tenants = listChange s.tenants t f := rfl
@[simp] theorem State.modTenant_launches (t : Nat) (f : Tenant → Tenant) : (s.modTenant t f).launches = s.launches := rfl
@[simp] theorem State.modTenant_dev (t : Nat) (f : Tenant → Tenant) : (s.modTenant t f).dev = s.dev := rfl
@[simp] theorem State.modTenant_agenda (t : Nat) (f : Tenant → Tenant) : (s.modTenant t f).agenda = s.agenda := rfl
@[simp] theorem State.modTenant_oracle (t : Nat) (f : Tenant → Tenant) : (s.modTenant t f).oracle = s.oracle := rfl
@[simp] theorem State.modTenant_focus (t : Nat) (f : Tenant → Tenant) : (s.modTenant t f).focus = s.focus := rfl
@[simp] theorem State.modTenant_stall (t : Nat) (f : Tenant → Tenant) : (s.modTenant t f).stall = s.stall := rfl
@[simp] theorem State.modTenant_chain (t : Nat) (f : Tenant → Tenant) : (s.modTenant t f).chain = s.chain := rfl
@[simp] theorem State.modTenant_marks (t : Nat) (f : Tenant → Tenant) : (s.modTenant t f).marks = s.marks := rfl
@[simp] theorem State.modTenant_posted (t : Nat) (f : Tenant → Tenant) : (s.modTenant t f).posted = s.posted := rfl

/-! ### `State.modDie` changes `dies` alone -/

@[simp] theorem State.modDie_mem (d : Nat) (f : Die → Die) : (s.modDie d f).mem = s.mem := rfl
@[simp] theorem State.modDie_cores (d : Nat) (f : Die → Die) : (s.modDie d f).cores = s.cores := rfl
theorem State.modDie_dies (d : Nat) (f : Die → Die) : (s.modDie d f).dies = listChange s.dies d f := rfl
@[simp] theorem State.modDie_tenants (d : Nat) (f : Die → Die) : (s.modDie d f).tenants = s.tenants := rfl
@[simp] theorem State.modDie_launches (d : Nat) (f : Die → Die) : (s.modDie d f).launches = s.launches := rfl
@[simp] theorem State.modDie_dev (d : Nat) (f : Die → Die) : (s.modDie d f).dev = s.dev := rfl
@[simp] theorem State.modDie_agenda (d : Nat) (f : Die → Die) : (s.modDie d f).agenda = s.agenda := rfl
@[simp] theorem State.modDie_oracle (d : Nat) (f : Die → Die) : (s.modDie d f).oracle = s.oracle := rfl
@[simp] theorem State.modDie_focus (d : Nat) (f : Die → Die) : (s.modDie d f).focus = s.focus := rfl
@[simp] theorem State.modDie_stall (d : Nat) (f : Die → Die) : (s.modDie d f).stall = s.stall := rfl
@[simp] theorem State.modDie_chain (d : Nat) (f : Die → Die) : (s.modDie d f).chain = s.chain := rfl
@[simp] theorem State.modDie_marks (d : Nat) (f : Die → Die) : (s.modDie d f).marks = s.marks := rfl
@[simp] theorem State.modDie_posted (d : Nat) (f : Die → Die) : (s.modDie d f).posted = s.posted := rfl

/-! ### `State.modDev` changes `dev` alone -/

@[simp] theorem State.modDev_mem (f : Device → Device) : (s.modDev f).mem = s.mem := rfl
@[simp] theorem State.modDev_cores (f : Device → Device) : (s.modDev f).cores = s.cores := rfl
@[simp] theorem State.modDev_dies (f : Device → Device) : (s.modDev f).dies = s.dies := rfl
@[simp] theorem State.modDev_tenants (f : Device → Device) : (s.modDev f).tenants = s.tenants := rfl
@[simp] theorem State.modDev_launches (f : Device → Device) : (s.modDev f).launches = s.launches := rfl
theorem State.modDev_dev (f : Device → Device) : (s.modDev f).dev = f s.dev := rfl
@[simp] theorem State.modDev_agenda (f : Device → Device) : (s.modDev f).agenda = s.agenda := rfl
@[simp] theorem State.modDev_oracle (f : Device → Device) : (s.modDev f).oracle = s.oracle := rfl
@[simp] theorem State.modDev_focus (f : Device → Device) : (s.modDev f).focus = s.focus := rfl
@[simp] theorem State.modDev_stall (f : Device → Device) : (s.modDev f).stall = s.stall := rfl
@[simp] theorem State.modDev_chain (f : Device → Device) : (s.modDev f).chain = s.chain := rfl
@[simp] theorem State.modDev_marks (f : Device → Device) : (s.modDev f).marks = s.marks := rfl
@[simp] theorem State.modDev_posted (f : Device → Device) : (s.modDev f).posted = s.posted := rfl

/-! ### `State.modLaunch` changes `launches` alone -/

@[simp] theorem State.modLaunch_mem (l : Nat) (f : Launch → Launch) : (s.modLaunch l f).mem = s.mem := rfl
@[simp] theorem State.modLaunch_cores (l : Nat) (f : Launch → Launch) : (s.modLaunch l f).cores = s.cores := rfl
@[simp] theorem State.modLaunch_dies (l : Nat) (f : Launch → Launch) : (s.modLaunch l f).dies = s.dies := rfl
@[simp] theorem State.modLaunch_tenants (l : Nat) (f : Launch → Launch) : (s.modLaunch l f).tenants = s.tenants := rfl
theorem State.modLaunch_launches (l : Nat) (f : Launch → Launch) : (s.modLaunch l f).launches = Dict.change s.launches l f := rfl
@[simp] theorem State.modLaunch_dev (l : Nat) (f : Launch → Launch) : (s.modLaunch l f).dev = s.dev := rfl
@[simp] theorem State.modLaunch_agenda (l : Nat) (f : Launch → Launch) : (s.modLaunch l f).agenda = s.agenda := rfl
@[simp] theorem State.modLaunch_oracle (l : Nat) (f : Launch → Launch) : (s.modLaunch l f).oracle = s.oracle := rfl
@[simp] theorem State.modLaunch_focus (l : Nat) (f : Launch → Launch) : (s.modLaunch l f).focus = s.focus := rfl
@[simp] theorem State.modLaunch_stall (l : Nat) (f : Launch → Launch) : (s.modLaunch l f).stall = s.stall := rfl
@[simp] theorem State.modLaunch_chain (l : Nat) (f : Launch → Launch) : (s.modLaunch l f).chain = s.chain := rfl
@[simp] theorem State.modLaunch_marks (l : Nat) (f : Launch → Launch) : (s.modLaunch l f).marks = s.marks := rfl
@[simp] theorem State.modLaunch_posted (l : Nat) (f : Launch → Launch) : (s.modLaunch l f).posted = s.posted := rfl

/-! ### `State.modWarp` changes `cores` alone -/

@[simp] theorem State.modWarp_mem (w : WarpRef) (f : Warp → Warp) : (s.modWarp w f).mem = s.mem := rfl
theorem State.modWarp_cores (w : WarpRef) (f : Warp → Warp) : (s.modWarp w f).cores = listChange s.cores w.core fun k => k.modWarp w.slot w.hnd f := rfl
@[simp] theorem State.modWarp_dies (w : WarpRef) (f : Warp → Warp) : (s.modWarp w f).dies = s.dies := rfl
@[simp] theorem State.modWarp_tenants (w : WarpRef) (f : Warp → Warp) : (s.modWarp w f).tenants = s.tenants := rfl
@[simp] theorem State.modWarp_launches (w : WarpRef) (f : Warp → Warp) : (s.modWarp w f).launches = s.launches := rfl
@[simp] theorem State.modWarp_dev (w : WarpRef) (f : Warp → Warp) : (s.modWarp w f).dev = s.dev := rfl
@[simp] theorem State.modWarp_agenda (w : WarpRef) (f : Warp → Warp) : (s.modWarp w f).agenda = s.agenda := rfl
@[simp] theorem State.modWarp_oracle (w : WarpRef) (f : Warp → Warp) : (s.modWarp w f).oracle = s.oracle := rfl
@[simp] theorem State.modWarp_focus (w : WarpRef) (f : Warp → Warp) : (s.modWarp w f).focus = s.focus := rfl
@[simp] theorem State.modWarp_stall (w : WarpRef) (f : Warp → Warp) : (s.modWarp w f).stall = s.stall := rfl
@[simp] theorem State.modWarp_chain (w : WarpRef) (f : Warp → Warp) : (s.modWarp w f).chain = s.chain := rfl
@[simp] theorem State.modWarp_marks (w : WarpRef) (f : Warp → Warp) : (s.modWarp w f).marks = s.marks := rfl
@[simp] theorem State.modWarp_posted (w : WarpRef) (f : Warp → Warp) : (s.modWarp w f).posted = s.posted := rfl

/-! ### `State.modRun` changes `cores` alone -/

@[simp] theorem State.modRun_mem (w : WarpRef) (f : Run → Run) : (s.modRun w f).mem = s.mem := rfl
theorem State.modRun_cores (w : WarpRef) (f : Run → Run) : (s.modRun w f).cores = listChange s.cores w.core fun k => k.modWarp w.slot w.hnd fun p => { p with run := p.run.map f } := rfl
@[simp] theorem State.modRun_dies (w : WarpRef) (f : Run → Run) : (s.modRun w f).dies = s.dies := rfl
@[simp] theorem State.modRun_tenants (w : WarpRef) (f : Run → Run) : (s.modRun w f).tenants = s.tenants := rfl
@[simp] theorem State.modRun_launches (w : WarpRef) (f : Run → Run) : (s.modRun w f).launches = s.launches := rfl
@[simp] theorem State.modRun_dev (w : WarpRef) (f : Run → Run) : (s.modRun w f).dev = s.dev := rfl
@[simp] theorem State.modRun_agenda (w : WarpRef) (f : Run → Run) : (s.modRun w f).agenda = s.agenda := rfl
@[simp] theorem State.modRun_oracle (w : WarpRef) (f : Run → Run) : (s.modRun w f).oracle = s.oracle := rfl
@[simp] theorem State.modRun_focus (w : WarpRef) (f : Run → Run) : (s.modRun w f).focus = s.focus := rfl
@[simp] theorem State.modRun_stall (w : WarpRef) (f : Run → Run) : (s.modRun w f).stall = s.stall := rfl
@[simp] theorem State.modRun_chain (w : WarpRef) (f : Run → Run) : (s.modRun w f).chain = s.chain := rfl
@[simp] theorem State.modRun_marks (w : WarpRef) (f : Run → Run) : (s.modRun w f).marks = s.marks := rfl
@[simp] theorem State.modRun_posted (w : WarpRef) (f : Run → Run) : (s.modRun w f).posted = s.posted := rfl

/-! ### Choices -/

@[simp] theorem State.drawBit_mem : (s.drawBit ).2.mem = s.mem := rfl
@[simp] theorem State.drawNat_mem (n : Nat) : (s.drawNat n).2.mem = s.mem := rfl
@[simp] theorem State.drawWord_mem : (s.drawWord ).2.mem = s.mem := rfl
@[simp] theorem State.freshId_mem (c : Nat) : (s.freshId c).2.mem = s.mem := rfl
@[simp] theorem State.drawBit_cores : (s.drawBit ).2.cores = s.cores := rfl
@[simp] theorem State.drawNat_cores (n : Nat) : (s.drawNat n).2.cores = s.cores := rfl
@[simp] theorem State.drawWord_cores : (s.drawWord ).2.cores = s.cores := rfl
@[simp] theorem State.drawBit_dies : (s.drawBit ).2.dies = s.dies := rfl
@[simp] theorem State.drawNat_dies (n : Nat) : (s.drawNat n).2.dies = s.dies := rfl
@[simp] theorem State.drawWord_dies : (s.drawWord ).2.dies = s.dies := rfl
@[simp] theorem State.freshId_dies (c : Nat) : (s.freshId c).2.dies = s.dies := rfl
@[simp] theorem State.drawBit_tenants : (s.drawBit ).2.tenants = s.tenants := rfl
@[simp] theorem State.drawNat_tenants (n : Nat) : (s.drawNat n).2.tenants = s.tenants := rfl
@[simp] theorem State.drawWord_tenants : (s.drawWord ).2.tenants = s.tenants := rfl
@[simp] theorem State.freshId_tenants (c : Nat) : (s.freshId c).2.tenants = s.tenants := rfl
@[simp] theorem State.drawBit_launches : (s.drawBit ).2.launches = s.launches := rfl
@[simp] theorem State.drawNat_launches (n : Nat) : (s.drawNat n).2.launches = s.launches := rfl
@[simp] theorem State.drawWord_launches : (s.drawWord ).2.launches = s.launches := rfl
@[simp] theorem State.freshId_launches (c : Nat) : (s.freshId c).2.launches = s.launches := rfl
@[simp] theorem State.drawBit_dev : (s.drawBit ).2.dev = s.dev := rfl
@[simp] theorem State.drawNat_dev (n : Nat) : (s.drawNat n).2.dev = s.dev := rfl
@[simp] theorem State.drawWord_dev : (s.drawWord ).2.dev = s.dev := rfl
@[simp] theorem State.freshId_dev (c : Nat) : (s.freshId c).2.dev = s.dev := rfl
@[simp] theorem State.drawBit_agenda : (s.drawBit ).2.agenda = s.agenda := rfl
@[simp] theorem State.drawNat_agenda (n : Nat) : (s.drawNat n).2.agenda = s.agenda := rfl
@[simp] theorem State.drawWord_agenda : (s.drawWord ).2.agenda = s.agenda := rfl
@[simp] theorem State.freshId_agenda (c : Nat) : (s.freshId c).2.agenda = s.agenda := rfl
@[simp] theorem State.freshId_oracle (c : Nat) : (s.freshId c).2.oracle = s.oracle := rfl
@[simp] theorem State.drawBit_focus : (s.drawBit ).2.focus = s.focus := rfl
@[simp] theorem State.drawNat_focus (n : Nat) : (s.drawNat n).2.focus = s.focus := rfl
@[simp] theorem State.drawWord_focus : (s.drawWord ).2.focus = s.focus := rfl
@[simp] theorem State.freshId_focus (c : Nat) : (s.freshId c).2.focus = s.focus := rfl
@[simp] theorem State.drawBit_stall : (s.drawBit ).2.stall = s.stall := rfl
@[simp] theorem State.drawBit_chain : (s.drawBit ).2.chain = s.chain := rfl
@[simp] theorem State.drawBit_marks : (s.drawBit ).2.marks = s.marks := rfl
@[simp] theorem State.drawBit_posted : (s.drawBit ).2.posted = s.posted := rfl
@[simp] theorem State.drawNat_stall (n : Nat) : (s.drawNat n).2.stall = s.stall := rfl
@[simp] theorem State.drawNat_chain (n : Nat) : (s.drawNat n).2.chain = s.chain := rfl
@[simp] theorem State.drawNat_marks (n : Nat) : (s.drawNat n).2.marks = s.marks := rfl
@[simp] theorem State.drawNat_posted (n : Nat) : (s.drawNat n).2.posted = s.posted := rfl
@[simp] theorem State.drawWord_stall : (s.drawWord ).2.stall = s.stall := rfl
@[simp] theorem State.drawWord_chain : (s.drawWord ).2.chain = s.chain := rfl
@[simp] theorem State.drawWord_marks : (s.drawWord ).2.marks = s.marks := rfl
@[simp] theorem State.drawWord_posted : (s.drawWord ).2.posted = s.posted := rfl
@[simp] theorem State.freshId_stall (c : Nat) : (s.freshId c).2.stall = s.stall := rfl
@[simp] theorem State.freshId_chain (c : Nat) : (s.freshId c).2.chain = s.chain := rfl
@[simp] theorem State.freshId_marks (c : Nat) : (s.freshId c).2.marks = s.marks := rfl
@[simp] theorem State.freshId_posted (c : Nat) : (s.freshId c).2.posted = s.posted := rfl
@[simp] theorem State.drawBit_oracle : (s.drawBit ).2.oracle = s.oracle + 1 := rfl
@[simp] theorem State.drawNat_oracle (n : Nat) : (s.drawNat n).2.oracle = s.oracle + 1 := rfl
@[simp] theorem State.drawWord_oracle : (s.drawWord ).2.oracle = s.oracle + 1 := rfl

/-! ### Lists and dictionaries -/

/-- A changed list keeps its length. -/
@[simp] theorem listChange_length {α : Type} (l : List α) (n : Nat) (f : α → α) :
    (listChange l n f).length = l.length := by
  induction l generalizing n with
  | nil => rfl
  | cons x r ih => cases n with
    | zero => rfl
    | succ n => simp [listChange, ih]

/-- An element of a changed list. -/
theorem listChange_getD {α : Type} (l : List α) (n m : Nat) (f : α → α) (d : α) :
    (listChange l n f).getD m d = if m = n ∧ m < l.length then f (l.getD m d) else l.getD m d := by
  induction l generalizing n m with
  | nil => simp [listChange]
  | cons x r ih =>
    cases n with
    | zero => cases m <;> simp [listChange]
    | succ n =>
      cases m with
      | zero => simp [listChange]
      | succ m => simpa [listChange] using ih n m

/-- A core after a core is changed. -/
theorem State.core_modCore (c k : Nat) (f : Core → Core) :
    (s.modCore c f).core k = if k = c ∧ k < s.cores.length then f (s.core k) else s.core k := by
  simp only [State.core, State.modCore]
  exact listChange_getD s.cores c k f Core.reset

/-- Another core than the changed one. -/
@[simp] theorem State.core_modCore_ne {c k : Nat} (h : k ≠ c) (f : Core → Core) :
    (s.modCore c f).core k = s.core k := by
  simp [State.core_modCore, h]

/-- A tenant's registers after a tenant's are changed. -/
theorem State.tenant_modTenant (t k : Nat) (f : Tenant → Tenant) :
    (s.modTenant t f).tenant k = if k = t ∧ k < s.tenants.length then f (s.tenant k) else s.tenant k := by
  simp only [State.tenant, State.modTenant]
  exact listChange_getD s.tenants t k f Tenant.reset

/-- The thing at a key of a changed dictionary. -/
theorem Dict.find_change {α : Type} (t : Dict α) (k j : Nat) (f : α → α) :
    Dict.find (Dict.change t k f) j = if j = k then (Dict.find t j).map f else Dict.find t j := by
  induction t with
  | nil => simp [Dict.change, Dict.find]
  | cons e r ih =>
    by_cases h : e.1 = k
    · subst h
      by_cases hj : j = e.1
      · subst hj; simp [Dict.change, Dict.find]
      · have hj' : ¬ e.1 = j := fun x => hj x.symm
        simp [Dict.change, Dict.find, hj, hj']
    · by_cases hj : e.1 = j
      · subst hj; simp [Dict.change, Dict.find, h]
      · simp [Dict.change, Dict.find, h, hj, ih]

/-- A launch after a launch is changed. -/
theorem State.launch?_modLaunch (l k : Nat) (f : Launch → Launch) :
    (s.modLaunch l f).launch? k = if k = l then (s.launch? k).map f else s.launch? k :=
  Dict.find_change s.launches l k f

/-- The launches are those of before where the cores alone change. -/
@[simp] theorem State.launch?_modCore (c l : Nat) (f : Core → Core) : (s.modCore c f).launch? l = s.launch? l := rfl
@[simp] theorem State.launch?_modWarp (w : WarpRef) (l : Nat) (f : Warp → Warp) :
    (s.modWarp w f).launch? l = s.launch? l := rfl
@[simp] theorem State.core_modLaunch (l k : Nat) (f : Launch → Launch) : (s.modLaunch l f).core k = s.core k := rfl
@[simp] theorem State.core_modDev (k : Nat) (f : Device → Device) : (s.modDev f).core k = s.core k := rfl
@[simp] theorem State.core_modTenant (t k : Nat) (f : Tenant → Tenant) : (s.modTenant t f).core k = s.core k := rfl

/-- A warp of a core after one of its warps is changed. -/
theorem Core.warp?_modWarp (k : Core) (a b : Nat) (x y : Bool) (f : Warp → Warp) :
    (k.modWarp a x f).warp? b y = if b = a ∧ y = x then (k.warp? b y).map f else k.warp? b y := by
  cases x <;> cases y <;> simp [Core.modWarp, Core.warp?, Dict.find_change]

/-- A changed warp of a core that the device has. -/
theorem State.warp?_modWarp (w v : WarpRef) (f : Warp → Warp) (h : w.core < s.cores.length) :
    (s.modWarp w f).warp? v = if v = w then (s.warp? v).map f else s.warp? v := by
  unfold State.warp? State.modWarp
  rw [State.core_modCore]
  by_cases hc : v.core = w.core
  · rw [if_pos ⟨hc, hc ▸ h⟩, Core.warp?_modWarp]
    have : (v.slot = w.slot ∧ v.hnd = w.hnd) ↔ v = w := by
      constructor
      · rintro ⟨a, b⟩
        cases v; cases w; simp_all
      · rintro rfl; exact ⟨rfl, rfl⟩
    simp [this]
  · rw [if_neg (fun x => hc x.1), if_neg (fun x => hc (by rw [x]))]

/-! ### One part changed twice -/

/-- One element of a list changed twice. -/
theorem listChange_listChange {α : Type} (l : List α) (n : Nat) (f g : α → α) :
    listChange (listChange l n f) n g = listChange l n fun x => g (f x) := by
  induction l generalizing n with
  | nil => rfl
  | cons x r ih => cases n <;> simp [listChange, ih]

/-- One key's value changed twice. -/
theorem Dict.change_change {α : Type} (d : Dict α) (n : Nat) (f g : α → α) :
    Dict.change (Dict.change d n f) n g = Dict.change d n fun x => g (f x) := by
  induction d with
  | nil => rfl
  | cons x r ih =>
    simp only [Dict.change]
    split <;> simp_all [Dict.change]

/-- One warp of a core changed twice. -/
theorem Core.modWarp_modWarp (k : Core) (n : Nat) (h : Bool) (f g : Warp → Warp) :
    (k.modWarp n h f).modWarp n h g = k.modWarp n h fun x => g (f x) := by
  cases h <;> simp [Core.modWarp, Dict.change_change]

/-- One core changed twice. -/
theorem State.modCore_modCore (c : Nat) (f g : Core → Core) :
    (s.modCore c f).modCore c g = s.modCore c fun x => g (f x) := by
  simp [State.modCore, listChange_listChange]

/-- One warp changed twice. -/
theorem State.modWarp_modWarp (w : WarpRef) (f g : Warp → Warp) :
    (s.modWarp w f).modWarp w g = s.modWarp w fun x => g (f x) := by
  simp [State.modWarp, State.modCore_modCore, Core.modWarp_modWarp]

/-- One launch changed twice. -/
theorem State.modLaunch_modLaunch (l : Nat) (f g : Launch → Launch) :
    (s.modLaunch l f).modLaunch l g = s.modLaunch l fun x => g (f x) := by
  simp [State.modLaunch, Dict.change_change]

/-- One tenant changed twice. -/
theorem State.modTenant_modTenant (t : Nat) (f g : Tenant → Tenant) :
    (s.modTenant t f).modTenant t g = s.modTenant t fun x => g (f x) := by
  simp [State.modTenant, listChange_listChange]

/-- The device's registers changed twice. -/
theorem State.modDev_modDev (f g : Device → Device) : (s.modDev f).modDev g = s.modDev fun x => g (f x) := rfl

/-- Where there is something to choose from, the free choice is one of them. -/
theorem State.pick_mem (xs : List Nat) (h : xs ≠ []) : ∃ q ∈ xs, s.pick xs = some q := by
  have hl : Config.freeNat s.oracle % xs.length < xs.length := Nat.mod_lt _ (List.length_pos_of_ne_nil h)
  exact ⟨xs[Config.freeNat s.oracle % xs.length], List.getElem_mem hl, List.getElem?_eq_getElem hl⟩

@[simp] theorem State.drawn_mem : s.drawn.mem = s.mem := rfl
@[simp] theorem State.drawn_cores : s.drawn.cores = s.cores := rfl
@[simp] theorem State.drawn_core (c : Nat) : s.drawn.core c = s.core c := rfl
@[simp] theorem State.drawn_dies : s.drawn.dies = s.dies := rfl
@[simp] theorem State.drawn_tenants : s.drawn.tenants = s.tenants := rfl
@[simp] theorem State.drawn_launches : s.drawn.launches = s.launches := rfl
@[simp] theorem State.drawn_dev : s.drawn.dev = s.dev := rfl
@[simp] theorem State.drawn_warp? (w : WarpRef) : s.drawn.warp? w = s.warp? w := rfl

end Sys2Proof.Machine
end

