-- ==== Sys2Proof/Laws/Tab.lean ====
section
/-!
SUPPORT. The laws of sparse tables and byte memories: a read after a write, and the canonical form kept.
-/

namespace Sys2Proof.Machine

variable {α : Type}

/-- Dropping a key leaves what the other keys hold. -/
theorem Tab.get_drop (d : α) (t : Tab α) (k j : Nat) :
    Tab.get d (Tab.drop t k) j = if j = k then d else Tab.get d t j := by
  induction t with
  | nil => simp [Tab.drop, Tab.get]
  | cons e r ih =>
    by_cases h : e.1 = k
    · subst h
      by_cases hj : j = e.1
      · subst hj; simpa [Tab.drop] using ih
      · have hj' : ¬ e.1 = j := fun x => hj x.symm
        simp [Tab.drop, Tab.get, ih, hj, hj']
    · by_cases hj : e.1 = j
      · subst hj; simp [Tab.drop, Tab.get, h]
      · simp [Tab.drop, Tab.get, h, hj, ih]

/-- Placing an entry at another key leaves what a key holds. -/
theorem Tab.get_place_ne (d : α) (t : Tab α) (k j : Nat) (v : α) (h : j ≠ k) :
    Tab.get d (Tab.place t k v) j = Tab.get d t j := by
  have hk : ¬ k = j := fun x => h x.symm
  induction t with
  | nil => simp [Tab.place, Tab.get, hk]
  | cons e r ih =>
    by_cases hl : k < e.1
    · simp [Tab.place, Tab.get, hl, hk]
    · by_cases hj : e.1 = j
      · subst hj; simp [Tab.place, Tab.get, hl]
      · simp [Tab.place, Tab.get, hl, hj, ih]

/-- A placed entry is what its key holds, where the key stands nowhere else. -/
theorem Tab.get_place_self (d : α) (t : Tab α) (k : Nat) (v : α) (h : ∀ e ∈ t, e.1 ≠ k) :
    Tab.get d (Tab.place t k v) k = v := by
  induction t with
  | nil => simp [Tab.place, Tab.get]
  | cons e r ih =>
    by_cases hl : k < e.1
    · simp [Tab.place, Tab.get, hl]
    · have he := h e (by simp)
      simp [Tab.place, Tab.get, hl, he, ih fun x hx => h x (List.mem_cons_of_mem _ hx)]

/-- A dropped key stands nowhere. -/
theorem Tab.mem_drop (t : Tab α) (k : Nat) {e : Nat × α} (h : e ∈ Tab.drop t k) : e ∈ t ∧ e.1 ≠ k := by
  induction t with
  | nil => simp [Tab.drop] at h
  | cons x r ih =>
    by_cases hx : x.1 = k
    · simp only [Tab.drop, hx, if_true] at h
      exact ⟨List.mem_cons_of_mem _ (ih h).1, (ih h).2⟩
    · simp only [Tab.drop, hx, if_false, List.mem_cons] at h
      rcases h with rfl | h
      · exact ⟨by simp, hx⟩
      · exact ⟨List.mem_cons_of_mem _ (ih h).1, (ih h).2⟩

/-- A read after a write of the same key gives the value written. -/
theorem Tab.get_set_self [DecidableEq α] (d : α) (t : Tab α) (k : Nat) (v : α) :
    Tab.get d (Tab.set d t k v) k = v := by
  unfold Tab.set
  split
  · rename_i h; rw [Tab.get_drop]; simp [h]
  · exact Tab.get_place_self d _ k v fun e he => (Tab.mem_drop t k he).2

/-- A write of one key leaves every other alone. -/
theorem Tab.get_set_ne [DecidableEq α] (d : α) (t : Tab α) (k j : Nat) (v : α) (h : j ≠ k) :
    Tab.get d (Tab.set d t k v) j = Tab.get d t j := by
  unfold Tab.set
  split
  · rw [Tab.get_drop, if_neg h]
  · rw [Tab.get_place_ne _ _ _ _ _ h, Tab.get_drop, if_neg h]

/-- A read after a write. -/
theorem Tab.get_set [DecidableEq α] (d : α) (t : Tab α) (k j : Nat) (v : α) :
    Tab.get d (Tab.set d t k v) j = if j = k then v else Tab.get d t j := by
  by_cases h : j = k
  · subst h; simp [Tab.get_set_self]
  · simp [Tab.get_set_ne, h]

/-- Every key of a canonical table exceeds its bound. -/
theorem Tab.wfFrom_mem [DecidableEq α] (d : α) (t : Tab α) (l : Nat) (h : Tab.wfFrom d (some l) t = true)
    {e : Nat × α} (he : e ∈ t) : l < e.1 := by
  induction t generalizing l with
  | nil => simp at he
  | cons x r ih =>
    simp only [Tab.wfFrom, Bool.and_eq_true, decide_eq_true_eq] at h
    rcases List.mem_cons.mp he with rfl | he
    · exact h.1.1
    · exact lt_trans h.1.1 (ih x.1 h.2 he)

/-- The canonical form from a lower bound. -/
theorem Tab.wfFrom_weaken [DecidableEq α] (d : α) (t : Tab α) (l : Nat) (o : Option Nat)
    (ho : ∀ m, o = some m → m ≤ l) (h : Tab.wfFrom d (some l) t = true) : Tab.wfFrom d o t = true := by
  cases t with
  | nil => rfl
  | cons e r =>
    simp only [Tab.wfFrom, Bool.and_eq_true, decide_eq_true_eq] at h ⊢
    refine ⟨⟨?_, h.1.2⟩, h.2⟩
    cases o with
    | none => rfl
    | some m => simpa using lt_of_le_of_lt (ho m rfl) h.1.1

/-- Dropping a key keeps the canonical form. -/
theorem Tab.wfFrom_drop [DecidableEq α] (d : α) (t : Tab α) (k : Nat) (o : Option Nat)
    (h : Tab.wfFrom d o t = true) : Tab.wfFrom d o (Tab.drop t k) = true := by
  induction t generalizing o with
  | nil => rfl
  | cons e r ih =>
    simp only [Tab.wfFrom, Bool.and_eq_true, decide_eq_true_eq] at h
    by_cases hk : e.1 = k
    · simp only [Tab.drop, hk, if_true]
      refine ih o (Tab.wfFrom_weaken d r e.1 o ?_ h.2)
      intro m hm; subst hm; simpa using Nat.le_of_lt (of_decide_eq_true h.1.1)
    · simp only [Tab.drop, hk, if_false, Tab.wfFrom, Bool.and_eq_true, decide_eq_true_eq]
      exact ⟨h.1, ih _ h.2⟩

/-- Placing an entry of a new key keeps the canonical form. -/
theorem Tab.wfFrom_place [DecidableEq α] (d : α) (t : Tab α) (k : Nat) (v : α) (o : Option Nat) (hv : v ≠ d)
    (ho : ∀ m, o = some m → m < k) (hk : ∀ e ∈ t, e.1 ≠ k) (h : Tab.wfFrom d o t = true) :
    Tab.wfFrom d o (Tab.place t k v) = true := by
  induction t generalizing o with
  | nil =>
    cases o with
    | none => simp [Tab.place, Tab.wfFrom, hv]
    | some m => simp [Tab.place, Tab.wfFrom, hv, ho m rfl]
  | cons e r ih =>
    simp only [Tab.wfFrom, Bool.and_eq_true] at h
    by_cases hl : k < e.1
    · cases o with
      | none => simp [Tab.place, Tab.wfFrom, hl, hv, h.2, of_decide_eq_true h.1.2]
      | some m => simp [Tab.place, Tab.wfFrom, hl, hv, h.2, of_decide_eq_true h.1.2, ho m rfl]
    · have hlt : e.1 < k := lt_of_le_of_ne (Nat.le_of_not_lt hl) (hk e (by simp))
      have := ih (some e.1) (by intro m hm; cases hm; exact hlt)
        (fun x hx => hk x (List.mem_cons_of_mem _ hx)) h.2
      simp only [Tab.place, hl, if_false, Tab.wfFrom, Bool.and_eq_true]
      exact ⟨h.1, this⟩

/-- A write keeps the canonical form. -/
theorem Tab.wf_set [DecidableEq α] (d : α) (t : Tab α) (k : Nat) (v : α) (h : Tab.wf d t = true) :
    Tab.wf d (Tab.set d t k v) = true := by
  unfold Tab.set
  split
  · exact Tab.wfFrom_drop d t k none h
  · rename_i hv
    exact Tab.wfFrom_place d _ k v none hv (by simp) (fun e he => (Tab.mem_drop t k he).2)
      (Tab.wfFrom_drop d t k none h)

/-! ### Memories -/

/-- A byte read after a byte written. -/
theorem Memory.read_write (m : Memory) (a b : Nat) (v : Byte) :
    Memory.read (Memory.write m a v) b = if b = a then v else Memory.read m b :=
  Tab.get_set Memory.unlisted m a b v

/-- A byte written keeps the canonical form. -/
theorem Memory.wf_write (m : Memory) (a : Nat) (v : Byte) (h : Memory.wf m = true) :
    Memory.wf (Memory.write m a v) = true := Tab.wf_set _ m a v h

/-- Bytes written keep the canonical form. -/
theorem Memory.wf_writeBytes (m : Memory) (a : Nat) (bs : List Byte) (h : Memory.wf m = true) :
    Memory.wf (Memory.writeBytes m a bs) = true := by
  induction bs generalizing m a with
  | nil => exact h
  | cons b r ih => exact ih _ _ (Memory.wf_write m a b h)

/-- A word written keeps the canonical form. -/
theorem Memory.wf_writeWord (m : Memory) (a : Nat) (v : Word) (h : Memory.wf m = true) :
    Memory.wf (Memory.writeWord m a v) = true := Memory.wf_writeBytes m a _ h

/-- Bytes written below or above an address leave its byte alone. -/
theorem Memory.read_writeBytes_other (m : Memory) (a b : Nat) (bs : List Byte) (h : b < a ∨ a + bs.length ≤ b) :
    Memory.read (Memory.writeBytes m a bs) b = Memory.read m b := by
  induction bs generalizing m a with
  | nil => rfl
  | cons x r ih =>
    simp only [Memory.writeBytes, List.length_cons] at h ⊢
    rw [ih _ _ (by omega), Memory.read_write, if_neg (by omega)]

/-- A byte read after bytes written over it. -/
theorem Memory.read_writeBytes (m : Memory) (a i : Nat) (bs : List Byte) (h : i < bs.length) :
    Memory.read (Memory.writeBytes m a bs) (a + i) = bs.getD i 0#8 := by
  induction bs generalizing m a i with
  | nil => simp at h
  | cons x r ih =>
    simp only [Memory.writeBytes]
    cases i with
    | zero =>
      rw [Memory.read_writeBytes_other _ _ _ _ (by omega), Memory.read_write]
      simp
    | succ i =>
      have e : a + (i + 1) = a + 1 + i := by omega
      rw [e, ih _ _ _ (by simpa using h)]
      simp

/-- What an absent list of bytes reads as. -/
@[simp] theorem Memory.read_nil (a : Nat) : Memory.read [] a = Memory.unlisted := rfl

/-- What is found after a put. -/
theorem Dict.find_put {α : Type} (t : Dict α) (k j : Nat) (v : α) :
    Dict.find (Dict.put t k v) j = if j = k then some v else Dict.find t j := by
  have drop (t : Dict α) : Dict.find (Tab.drop t k) j = if j = k then none else Dict.find t j := by
    induction t with
    | nil => simp [Tab.drop, Dict.find]
    | cons e r ih =>
      unfold Tab.drop
      by_cases h : e.1 = k
      · simp only [h, if_true, ih, Dict.find]; split <;> simp_all [eq_comm]
      · simp only [h, if_false, Dict.find, ih]; split <;> simp_all
  have place (t : Dict α) (h : Dict.find t k = none) :
      Dict.find (Tab.place t k v) j = if j = k then some v else Dict.find t j := by
    induction t with
    | nil => simp [Tab.place, Dict.find, eq_comm]
    | cons e r ih =>
      unfold Dict.find at h
      split at h
      · simp at h
      · unfold Tab.place
        split
        · simp only [Dict.find, eq_comm]
        · simp only [Dict.find, ih h]; split <;> simp_all
  have gone : Dict.find (Tab.drop t k) k = none := by
    induction t with
    | nil => rfl
    | cons e r ih => unfold Tab.drop; split <;> simp_all [Dict.find]
  rw [Dict.put, place _ gone, drop]
  split <;> simp_all

end Sys2Proof.Machine
end

