-- ==== Sys2Proof/Laws/Issue.lean ====
section
/-!
SUPPORT. What issuing an instruction can do, said once: the outcome of `State.issue` by what its meaning answers, and of
the shared forms of meanings (`Ctx.vec`, `Ctx.pure`, `Ctx.onLanes`, `Ctx.engine`) by what they wait for and check.
-/

namespace Sys2Proof.Machine

/-! ### Issue -/

/-- What a context's meaning answers becomes the outcome of the instruction, where the context is what it sees. -/
theorem State.issue_of_sees {s : State} {i : Instr} {c : Ctx} (h : s.sees i = some c) (f : State → Ctx → Issue) :
    s.issue i f = match f s c with
      | .go s r => .next (s.issued c r)
      | .trap s t => .next (s.takeTrap c.w t)
      | .stall => .next { s with stall := true }
      | .raised s => .next s := by
  unfold State.sees at h
  split at h
  · rename_i hl
    unfold State.issue State.issued
    cases hf : s.focus with
    | none => simp [hf] at h
    | some w =>
      simp only [hf, Option.bind_some] at h
      have hw : c.w = w := by
        unfold State.ctx? at h
        split at h
        · cases h
        · split at h
          · cases h; rfl
          · cases h
      subst hw
      simp only [h, hl, if_true] <;> cases f s c <;> rfl
  · cases h

/-- Where a warp with a run is in focus, an instruction goes on to a next state: nothing that issues faults or refuses. -/
theorem State.issue_next {s : State} {w : WarpRef} {c : Ctx} (hf : s.focus = some w) (hc : s.ctx? w = some c) (i : Instr)
    (f : State → Ctx → Issue) : ∃ t : State, s.issue i f = .next t := by
  unfold State.issue
  simp only [hf, hc]
  split
  · split <;> exact ⟨_, rfl⟩
  · exact ⟨_, rfl⟩

/-- A meaning that acts on lanes goes on, with its result in the lanes of its set operand and its flags. -/
theorem Ctx.vec_of_ready {c : Ctx} {k : BitVec 3} {d : BitVec 5} {uses : List (BitVec 5)} {m : Mask}
    (hr : c.ready k (d :: uses)) (hm : c.mask k = some m) (s : State) (f : Nat → Word × BitVec 5) :
    c.vec s k d uses f =
      .go s ((c.r.write d m fun j => (f j).1).flag (m.toList.foldl (fun x j => x ||| (f j).2) 0#5)) := by
  unfold Ctx.vec; simp [hr.1, hr.2, hm]

/-- The same for a meaning without flags. -/
theorem Ctx.pure_of_ready {c : Ctx} {k : BitVec 3} {d : BitVec 5} {uses : List (BitVec 5)} {m : Mask}
    (hr : c.ready k (d :: uses)) (hm : c.mask k = some m) (s : State) (f : Nat → Word) :
    c.pure s k d uses f = .go s (c.r.write d m f) := by
  unfold Ctx.pure; simp [hr.1, hr.2, hm]

/-- A memory instruction with live lanes that waits for nothing does what it does on them. -/
theorem Ctx.onLanes_of_ready {c : Ctx} {k : BitVec 3} {uses : List (BitVec 5)} {m : Mask} (hr : c.ready k uses)
    (hm : c.mask k = some m) (h0 : m ≠ 0#32) (s : State) (f : Mask → Issue) : c.onLanes s k uses f = f m := by
  unfold Ctx.onLanes; simp [hr.1, hr.2, hm, h0]

/-- An engine command whose set operand is k0 and that waits for nothing does what it does. -/
theorem Ctx.engine_of_ready {c : Ctx} {uses : List (BitVec 5)} (hb : c.busy uses = false) (s : State) (f : Issue) :
    c.engine s 0#3 uses f = f := by
  unfold Ctx.engine; simp [hb]

/-! ### Lanes -/

/-- A lane is in a mask's list where its bit is set. -/
theorem Mask.mem_toList (m : Mask) (j : Nat) : j ∈ Mask.toList m ↔ m.getLsbD j = true := by
  unfold Mask.toList lanes
  simp only [List.mem_filter, List.mem_range]
  refine ⟨fun h => h.2, fun h => ⟨?_, h⟩⟩
  by_contra hc
  simp [BitVec.getLsbD_of_ge m j (by omega)] at h

/-- Lanes written into a slot leave every other key. -/
theorem Tab.get_lanes_other (l : List Nat) (t : Tab Word) (d key : Nat) (g : Nat → Word)
    (h : ∀ j ∈ l, key ≠ 32 * d + j) :
    Tab.get 0#64 (l.foldl (fun t j => Tab.set 0#64 t (32 * d + j) (g j)) t) key = Tab.get 0#64 t key := by
  induction l generalizing t with
  | nil => rfl
  | cons x r ih =>
    simp only [List.foldl_cons]
    rw [ih _ fun j hj => h j (List.mem_cons_of_mem _ hj), Tab.get_set_ne _ _ _ _ _ (h x (by simp))]

/-- A lane written into a slot reads as what was written. -/
theorem Tab.get_lanes (l : List Nat) (t : Tab Word) (d j : Nat) (g : Nat → Word) (h : j ∈ l) :
    Tab.get 0#64 (l.foldl (fun t j => Tab.set 0#64 t (32 * d + j) (g j)) t) (32 * d + j) = g j := by
  induction l generalizing t with
  | nil => simp at h
  | cons x r ih =>
    simp only [List.foldl_cons]
    by_cases hj : j ∈ r
    · exact ih _ hj
    · rcases List.mem_cons.mp h with rfl | h
      · have hne : ∀ y ∈ r, 32 * d + j ≠ 32 * d + y := fun y hy e => hj ((show y = j by omega) ▸ hy)
        rw [Tab.get_lanes_other _ _ _ _ _ hne, Tab.get_set_self]
      · exact absurd h hj

/-- What writing a destination does: the lanes of the mask take their values, unless it is `z`; nothing else changes. -/
theorem Run.write_spec (r : Run) (d : BitVec 5) (m : Mask) (g : Nat → Word) :
    (d.toNat < 24 → ∀ j, m.getLsbD j = true → Tab.get 0#64 (r.write d m g).win (32 * d.toNat + j) = g j) ∧
    (∀ key, (d.toNat < 24 → ∀ j, m.getLsbD j = true → key ≠ 32 * d.toNat + j) →
      Tab.get 0#64 (r.write d m g).win key = Tab.get 0#64 r.win key) ∧
    r.write d m g = { r with win := (r.write d m g).win } := by
  unfold Run.write
  split
  · rename_i hd
    exact ⟨fun _ j hj => Tab.get_lanes _ _ _ _ _ ((Mask.mem_toList m j).2 hj),
      fun key h => Tab.get_lanes_other _ _ _ _ _ fun j hj => h hd j ((Mask.mem_toList m j).1 hj), rfl⟩
  · rename_i hd
    exact ⟨fun h => absurd h hd, fun _ _ => rfl, rfl⟩

/-- An instruction whose meaning is `Ctx.pure` completes lane by lane. -/
theorem laneWise_of_pure {s : State} {c : Ctx} {m : Mask} {i : Instr} {k : BitVec 3} {d : BitVec 5}
    {uses : List (BitVec 5)} {f : Ctx → Nat → Word} (h : exec i s = s.issue i fun s c => c.pure s k d uses (f c))
    (hs : s.sees i = some c) (hr : c.ready k (d :: uses)) (hm : c.mask k = some m) : LaneWise s c m i d (f c) := by
  have hw := Run.write_spec c.r d m (f c)
  exact ⟨c.r.write d m (f c), by rw [h, State.issue_of_sees hs, Ctx.pure_of_ready hr hm], hw.2.2, hw.1, hw.2.1⟩

/-! ### Elements -/

/-- The elements of a format fit a register. -/
theorem EFmt.width_mul_count (f : EFmt) : f.width * f.count ≤ 64 := by cases f <;> decide

/-- An element is below its width's bound. -/
theorem subOf_lt (f : EFmt) (v : Word) (e : Nat) : subOf f v e < 2 ^ f.width := Nat.mod_lt _ (Nat.two_pow_pos _)

/-- A wrapped number is below its width's bound. -/
theorem wrapInt_lt (f : EFmt) (v : Int) : wrapInt f v < 2 ^ f.width := by
  unfold wrapInt
  have h : (0 : Int) < (2 ^ f.width : Nat) := by exact_mod_cast Nat.two_pow_pos _
  have := Int.emod_lt_of_pos v h
  have := Int.emod_nonneg v (ne_of_gt h)
  omega

/-- An element of packed codes is its code, cut to the width. -/
theorem subOf_packSubs (f : EFmt) (cs : List Nat) (h : f.width * cs.length ≤ 64) (e : Nat) (he : e < cs.length) :
    subOf f (packSubs f cs) e = cs[e] % 2 ^ f.width := by
  have key : ∀ cs : List Nat, cs.foldr (fun c a => c % 2 ^ f.width + 2 ^ f.width * a) 0 < 2 ^ (f.width * cs.length) ∧
      ∀ e (he : e < cs.length), cs.foldr (fun c a => c % 2 ^ f.width + 2 ^ f.width * a) 0 / 2 ^ (f.width * e) % 2 ^ f.width
        = cs[e] % 2 ^ f.width := by
    intro cs
    induction cs with
    | nil => simp
    | cons x r ih =>
      obtain ⟨h1, h2⟩ := ih
      have hp : 0 < 2 ^ f.width := Nat.two_pow_pos _
      simp only [List.foldr_cons]
      refine ⟨?_, ?_⟩
      · have : x % 2 ^ f.width < 2 ^ f.width := Nat.mod_lt _ hp
        rw [List.length_cons, Nat.mul_add, Nat.pow_add, Nat.mul_one, Nat.mul_comm (2 ^ (f.width * r.length))]
        have := Nat.mul_le_mul_left (2 ^ f.width) (Nat.succ_le_of_lt h1)
        rw [Nat.mul_succ] at this; omega
      · intro e he
        cases e with
        | zero => simp [Nat.add_mul_mod_self_left]
        | succ e =>
          rw [Nat.mul_succ, Nat.add_comm (f.width * e), Nat.pow_add, ← Nat.div_div_eq_div_mul]
          rw [Nat.add_mul_div_left _ _ hp, Nat.div_eq_of_lt (Nat.mod_lt _ hp), Nat.zero_add]
          simpa using h2 e (by simpa using he)
  unfold subOf packSubs
  have hlt := lt_of_lt_of_le (key cs).1 (Nat.pow_le_pow_right (by omega : 2 > 0) h)
  rw [BitVec.toNat_ofNat, Nat.mod_eq_of_lt hlt]
  exact (key cs).2 e he

/-- An element of a register made element by element. -/
theorem subOf_mapSubs (f : EFmt) (g : Nat → Nat × BitVec 5) (e : Nat) (he : e < f.count) :
    subOf f (mapSubs f g).1 e = (g e).1 % 2 ^ f.width := by
  unfold mapSubs
  simp only
  rw [subOf_packSubs _ _ (by simpa using EFmt.width_mul_count f) e (by simpa using he)]
  simp

/-- The flags of a register made element by element. -/
theorem mapSubs_flags (f : EFmt) (g : Nat → Nat × BitVec 5) :
    (mapSubs f g).2 = (List.range f.count).foldl (fun a e => a ||| (g e).2) 0#5 := by
  unfold mapSubs; simp [List.foldl_map]

/-- An instruction whose meaning is `Ctx.vec` over elements completes element by element. -/
theorem elementWise_of_vec {s : State} {c : Ctx} {m : Mask} {i : Instr} {k : BitVec 3} {d : BitVec 5}
    {uses : List (BitVec 5)} {f : EFmt} {g : Ctx → Nat → Nat → Nat × BitVec 5} {g' : Nat → Nat → Nat} {fl : BitVec 5}
    (h : exec i s = s.issue i fun s c => c.vec s k d uses fun j => mapSubs f (g c j)) (hs : s.sees i = some c)
    (hr : c.ready k (d :: uses)) (hm : c.mask k = some m)
    (hg : ∀ j e, m.getLsbD j = true → e < f.count → (g c j e).1 % 2 ^ f.width = g' j e)
    (hfl : m.toList.foldl (fun x j => x ||| (mapSubs f (g c j)).2) 0#5 = fl) : ElementWise s c m i d f g' fl := by
  have hw := Run.write_spec c.r d m fun j => (mapSubs f (g c j)).1
  refine ⟨(c.r.write d m fun j => (mapSubs f (g c j)).1).flag fl, ?_, ?_, ?_, hw.2.1⟩
  · rw [h, State.issue_of_sees hs, Ctx.vec_of_ready hr hm, hfl]
  · unfold Run.flag; rw [hw.2.2]
  · intro hd j e hj he
    show subOf f (Tab.get 0#64 (c.r.write d m _).win _) e = _
    rw [hw.1 hd j hj, subOf_mapSubs _ _ _ he, hg j e hj he]

/-! ### Flags -/

/-- Flags joined over a list start from what they join. -/
theorem foldl_or_init {α : Type} (l : List α) (g : α → BitVec 5) (a : BitVec 5) :
    l.foldl (fun x j => x ||| g j) a = a ||| l.foldl (fun x j => x ||| g j) 0#5 := by
  induction l generalizing a with
  | nil => simp
  | cons x r ih => simp only [List.foldl_cons]; rw [ih, ih (0#5 ||| g x)]; simp [BitVec.or_assoc]

/-- No flag arises where none does of an element. -/
theorem foldl_or_zero {α : Type} (l : List α) (g : α → BitVec 5) (h : ∀ x ∈ l, g x = 0#5) :
    l.foldl (fun x j => x ||| g j) 0#5 = 0#5 := by
  induction l with
  | nil => rfl
  | cons x r ih =>
    simp only [List.foldl_cons]; rw [h x (by simp)]
    simpa using ih fun y hy => h y (List.mem_cons_of_mem _ hy)

/-- One flag joined over a list arises where it does of some element. -/
theorem foldl_or_flagIf {α : Type} (l : List α) (g : α → Bool) (fl : BitVec 5) :
    l.foldl (fun x j => x ||| flagIf (g j) fl) 0#5 = flagIf (l.any g) fl := by
  induction l with
  | nil => rfl
  | cons x r ih =>
    simp only [List.foldl_cons, List.any_cons]
    rw [foldl_or_init, ih]; unfold flagIf; cases g x <;> cases r.any g <;> simp

end Sys2Proof.Machine
end

