-- ==== Sys2Proof/Laws/Packets.lean ====
section
/-!
SUPPORT. What sending packets to other nodes can change: the links, the numbers and the kept packets of the device, and the free
choices drawn.
-/

namespace Sys2Proof.Machine

variable (s : State)

/-- Flits put on links change the waiting flits, the ports and the count of free choices alone. -/
theorem State.pump_eq (n : Nat) : ∃ o u p,
    s.pump n = { s with oracle := o, dev := { s.dev with unsent := u, ports := p } } := by
  induction n generalizing s with
  | zero => exact ⟨_, _, _, rfl⟩
  | succ n ih =>
    unfold State.pump
    split
    · obtain ⟨o, u, p, h⟩ := ih _
      exact ⟨o, u, p, h⟩
    · exact ⟨_, _, _, rfl⟩

/-- A packet sent changes the links, the next number of its pair, the kept packets and the count of free choices alone. -/
theorem State.sendPacket_eq (node : Nat) : ∃ o u p,
    s.sendPacket node = { s with oracle := o, dev := { s.dev with
      unsent := u, ports := p
      e2eNext := Tab.set 0 s.dev.e2eNext node (Tab.get 0 s.dev.e2eNext node + 1)
      e2eSent := s.dev.e2eSent ++ [(node, Tab.get 0 s.dev.e2eNext node)] } } := by
  unfold State.sendPacket State.transmit
  obtain ⟨o, u, p, h⟩ := State.pump_eq _ _
  exact ⟨o, u, p, h⟩

/-- The packets of an access sent change the links, the numbers, the kept packets and the count of free choices alone. -/
theorem State.packets_eq (secs : List Nat) : ∃ o u p x y,
    s.packets secs = { s with oracle := o, dev := { s.dev with unsent := u, ports := p, e2eNext := x, e2eSent := y } } := by
  unfold State.packets
  generalize secs.filter _ = l
  induction l generalizing s with
  | nil => exact ⟨_, _, _, _, _, rfl⟩
  | cons a r ih =>
    obtain ⟨o, u, p, h⟩ := State.sendPacket_eq s (nodeOf (32 * a))
    obtain ⟨o', u', p', x, y, h'⟩ := ih (s.sendPacket (nodeOf (32 * a)))
    refine ⟨o', u', p', x, y, ?_⟩
    rw [List.foldl_cons, h', h]

/-- An access of no other node's memory sends no packet. -/
theorem State.packets_local (secs : List Nat) (h : ∀ x ∈ secs, s.remotePa (32 * x) = false) : s.packets secs = s := by
  unfold State.packets
  rw [List.filter_eq_nil_iff.mpr fun x hx => by simp [h x hx]]
  rfl

@[simp] theorem State.packets_nil : s.packets [] = s := rfl

@[simp] theorem State.packets_mem (secs : List Nat) : (s.packets secs).mem = s.mem := by
  obtain ⟨_, _, _, _, _, h⟩ := State.packets_eq s secs; rw [h]

@[simp] theorem State.packets_cores (secs : List Nat) : (s.packets secs).cores = s.cores := by
  obtain ⟨_, _, _, _, _, h⟩ := State.packets_eq s secs; rw [h]

@[simp] theorem State.packets_dies (secs : List Nat) : (s.packets secs).dies = s.dies := by
  obtain ⟨_, _, _, _, _, h⟩ := State.packets_eq s secs; rw [h]

@[simp] theorem State.packets_tenants (secs : List Nat) : (s.packets secs).tenants = s.tenants := by
  obtain ⟨_, _, _, _, _, h⟩ := State.packets_eq s secs; rw [h]

@[simp] theorem State.packets_launches (secs : List Nat) : (s.packets secs).launches = s.launches := by
  obtain ⟨_, _, _, _, _, h⟩ := State.packets_eq s secs; rw [h]

@[simp] theorem State.packets_core (secs : List Nat) (c : Nat) : (s.packets secs).core c = s.core c := by
  obtain ⟨_, _, _, _, _, h⟩ := State.packets_eq s secs; rw [h]; rfl

@[simp] theorem State.packets_warp? (secs : List Nat) (w : WarpRef) : (s.packets secs).warp? w = s.warp? w := by
  obtain ⟨_, _, _, _, _, h⟩ := State.packets_eq s secs; rw [h]; rfl

@[simp] theorem State.packets_launch? (secs : List Nat) (l : Nat) : (s.packets secs).launch? l = s.launch? l := by
  obtain ⟨_, _, _, _, _, h⟩ := State.packets_eq s secs; rw [h]; rfl

@[simp] theorem State.packets_cell (secs : List Nat) (pa : Nat) : (s.packets secs).cell pa = s.cell pa := by
  obtain ⟨_, _, _, _, _, h⟩ := State.packets_eq s secs; rw [h]; rfl

@[simp] theorem State.packets_readByte (secs : List Nat) (pa : Nat) : (s.packets secs).readByte pa = s.readByte pa := by
  obtain ⟨_, _, _, _, _, h⟩ := State.packets_eq s secs; rw [h]; rfl

@[simp] theorem State.packets_homeQ (secs : List Nat) : (s.packets secs).dev.homeQ = s.dev.homeQ := by
  obtain ⟨_, _, _, _, _, h⟩ := State.packets_eq s secs; rw [h]

end Sys2Proof.Machine
end

