-- ==== Sys2Proof/Laws/Memory.lean ====
section
/-!
SUPPORT. The named operations over memory keep every memory of the state in its canonical form, and what a byte reads as
after a byte is written.
-/

namespace Sys2Proof.Machine

/-- The memories after reset are canonical. -/
theorem State.memoriesWf_reset : State.reset.memoriesWf = true := by decide +kernel

/-- The memories are canonical where HBM and every near slice are. -/
theorem State.memoriesWf_iff (s : State) :
    s.memoriesWf = true ↔ s.mem.wf = true ∧ ∀ c ∈ s.cores, Memory.wf c.near = true := by
  unfold State.memoriesWf; simp [List.all_eq_true]

/-- What does not touch a memory keeps them canonical. -/
theorem State.memoriesWf_congr {s t : State} (hm : t.mem = s.mem) (hc : t.cores = s.cores) :
    t.memoriesWf = s.memoriesWf := by
  unfold State.memoriesWf; rw [hm, hc]

/-- Elements of a list with one changed hold what the old ones did, where the change keeps it. -/
theorem mem_listChange {α : Type} {p : α → Prop} (l : List α) (i : Nat) (f : α → α) (h : ∀ x ∈ l, p x)
    (hf : ∀ x, p x → p (f x)) : ∀ x ∈ listChange l i f, p x := by
  induction l generalizing i with
  | nil => intro x hx; simp [listChange] at hx
  | cons a r ih =>
    cases i with
    | zero =>
      intro x hx
      rcases List.mem_cons.mp hx with rfl | hx
      · exact hf _ (h _ (by simp))
      · exact h _ (List.mem_cons_of_mem _ hx)
    | succ i =>
      intro x hx
      rcases List.mem_cons.mp hx with rfl | hx
      · exact h _ (by simp)
      · exact ih i (fun y hy => h _ (List.mem_cons_of_mem _ hy)) x hx

/-- A core changed keeps the memories canonical where the change keeps its slice canonical. -/
theorem State.memoriesWf_modCore {s : State} (h : s.memoriesWf = true) (c : Nat) (f : Core → Core)
    (hf : ∀ k : Core, Memory.wf k.near = true → Memory.wf (f k).near = true) : (s.modCore c f).memoriesWf = true := by
  rw [State.memoriesWf_iff] at h ⊢
  exact ⟨h.1, mem_listChange s.cores c f h.2 hf⟩

/-- A warp changed keeps the memories canonical. -/
theorem State.memoriesWf_modWarp {s : State} (h : s.memoriesWf = true) (w : WarpRef) (f : Warp → Warp) :
    (s.modWarp w f).memoriesWf = true :=
  State.memoriesWf_modCore h w.core _ fun k hk => by unfold Core.modWarp; split <;> exact hk

/-- A byte written at its home keeps the memories canonical. -/
theorem State.memoriesWf_writeByte {s : State} (h : s.memoriesWf = true) (pa : Nat) (v : Byte) :
    (s.writeByte pa v).memoriesWf = true := by
  rw [State.memoriesWf_iff] at h ⊢
  exact ⟨Memory.wf_write _ _ _ h.1, h.2⟩

/-- Bytes written at their homes keep the memories canonical. -/
theorem State.memoriesWf_writeBytes {s : State} (h : s.memoriesWf = true) (pa : Nat) (bs : List Byte) :
    (s.writeBytes pa bs).memoriesWf = true := by
  induction bs generalizing s pa with
  | nil => exact h
  | cons b r ih => exact ih (State.memoriesWf_writeByte h pa b) _

/-- A word written at its home keeps the memories canonical. -/
theorem State.memoriesWf_writeWord {s : State} (h : s.memoriesWf = true) (pa : Nat) (v : Word) :
    (s.writeWord pa v).memoriesWf = true := State.memoriesWf_writeBytes h pa _

/-- A fold of steps that keep the memories canonical keeps them. -/
theorem State.memoriesWf_foldl {α : Type} {s : State} (h : s.memoriesWf = true) (l : List α) (f : State → α → State)
    (hf : ∀ s : State, s.memoriesWf = true → ∀ x ∈ l, (f s x).memoriesWf = true) : (l.foldl f s).memoriesWf = true := by
  induction l generalizing s with
  | nil => exact h
  | cons x r ih => exact ih (hf s h x (by simp)) fun t ht y hy => hf t ht y (List.mem_cons_of_mem _ hy)

/-- A free choice drawn keeps the memories canonical. -/
theorem State.memoriesWf_drawn {s : State} (h : s.memoriesWf = true) : s.drawn.memoriesWf = true := h

/-- Packets sent keep the memories canonical. -/
theorem State.memoriesWf_packets {s : State} (h : s.memoriesWf = true) (secs : List Nat) :
    (s.packets secs).memoriesWf = true := by
  rw [State.memoriesWf_congr (State.packets_mem s secs) (State.packets_cores s secs)]; exact h

/-- A sector put in its place keeps the memories canonical. -/
theorem State.memoriesWf_setSector {s : State} (h : s.memoriesWf = true) (c sec : Nat) (x : Sector) :
    (s.setSector c sec x).memoriesWf = true := State.memoriesWf_modCore h c _ fun _ hk => hk

/-- A sector dropped keeps the memories canonical. -/
theorem State.memoriesWf_dropSector {s : State} (h : s.memoriesWf = true) (c sec : Nat) :
    (s.dropSector c sec).memoriesWf = true := State.memoriesWf_modCore h c _ fun _ hk => hk

/-- A sector written back keeps the memories canonical. -/
theorem State.memoriesWf_writeBack {s : State} (h : s.memoriesWf = true) (c sec : Nat) :
    (s.writeBack c sec).memoriesWf = true := by
  unfold State.writeBack
  split
  · dsimp only
    refine State.memoriesWf_setSector (State.memoriesWf_foldl ?_ _ _ fun t ht i _ => ?_) _ _ _
    · split
      · exact h
      · exact State.memoriesWf_packets h _
    split
    · exact State.memoriesWf_writeByte ht _ _
    · exact ht
  · exact h

/-- A sector written back and dropped keeps the memories canonical. -/
theorem State.memoriesWf_flushSector {s : State} (h : s.memoriesWf = true) (c sec : Nat) :
    (s.flushSector c sec).memoriesWf = true :=
  State.memoriesWf_dropSector (State.memoriesWf_writeBack h c sec) c sec

/-- Room made in an L1 keeps the memories canonical. -/
theorem State.memoriesWf_roomInL1 {s : State} (h : s.memoriesWf = true) (c : Nat) :
    (s.roomInL1 c).memoriesWf = true := by
  unfold State.roomInL1
  split
  · exact h
  · split
    · exact State.memoriesWf_drawn (State.memoriesWf_flushSector h c _)
    · exact h

/-- A sector put into an L1 keeps the memories canonical. -/
theorem State.memoriesWf_putSector {s : State} (h : s.memoriesWf = true) (c sec : Nat) (x : Sector) :
    (s.putSector c sec x).memoriesWf = true := by
  unfold State.putSector
  split
  · exact State.memoriesWf_setSector h c sec x
  · exact State.memoriesWf_setSector (State.memoriesWf_roomInL1 h c) c sec x

/-- An L1 written back whole keeps the memories canonical. -/
theorem State.memoriesWf_writeBackAll {s : State} (h : s.memoriesWf = true) (c : Nat) :
    (s.writeBackAll c).memoriesWf = true :=
  State.memoriesWf_foldl h _ _ fun _ ht k _ => State.memoriesWf_writeBack ht c k

/-- An L1 written back and dropped whole keeps the memories canonical. -/
theorem State.memoriesWf_flushAll {s : State} (h : s.memoriesWf = true) (c : Nat) : (s.flushAll c).memoriesWf = true :=
  State.memoriesWf_foldl h _ _ fun _ ht k _ => State.memoriesWf_flushSector ht c k

/-- A load's fill keeps the memories canonical. -/
theorem State.memoriesWf_loadFill {s : State} (h : s.memoriesWf = true) (c pa n : Nat) (na : Bool) :
    (s.loadFill c pa n na).memoriesWf = true := by
  unfold State.loadFill
  refine State.memoriesWf_foldl h _ _ fun t ht sec _ => ?_
  have hu : (if t.mustFill c pa n false sec then t.packets [sec] else t).memoriesWf = true := by
    split
    · exact State.memoriesWf_packets ht _
    · exact ht
  generalize (if t.mustFill c pa n false sec then t.packets [sec] else t) = u at hu ⊢
  dsimp only
  split
  · exact State.memoriesWf_putSector hu _ _ _
  · exact hu

/-- A stored byte keeps the memories canonical. -/
theorem State.memoriesWf_storeByte {s : State} (h : s.memoriesWf = true) (c : Nat) (na : Bool) (w : ByteWrite) :
    (s.storeByte c na w).memoriesWf = true := by
  have hu : (if na = true then s.writeBack c (w.pa / 32) else s).memoriesWf = true := by
    split
    · exact State.memoriesWf_writeBack h _ _
    · exact h
  unfold State.storeByte
  generalize (if na = true then s.writeBack c (w.pa / 32) else s) = u at hu ⊢
  dsimp only
  split
  · split
    · exact State.memoriesWf_writeByte (State.memoriesWf_putSector hu _ _ _) _ _
    · exact State.memoriesWf_putSector hu _ _ _
  · split
    · exact State.memoriesWf_writeByte hu _ _
    · exact State.memoriesWf_putSector hu _ _ _

/-- Stored bytes keep the memories canonical. -/
theorem State.memoriesWf_storeBytes {s : State} (h : s.memoriesWf = true) (c : Nat) (na : Bool) (ws : List ByteWrite) :
    (s.storeBytes c na ws).memoriesWf = true := by
  unfold State.storeBytes
  refine State.memoriesWf_foldl ?_ _ _ fun _ ht w _ => State.memoriesWf_storeByte ht c na w
  split
  · exact State.memoriesWf_packets h _
  · exact h

/-- A byte written to a near slice keeps the memories canonical. -/
theorem State.memoriesWf_nearWrite {s : State} (h : s.memoriesWf = true) (l : Launch) (c off : Nat) (hidden : Bool)
    (v : Byte) : (s.nearWrite l c off hidden v).memoriesWf = true := by
  unfold State.nearWrite
  split
  · exact h
  · exact State.memoriesWf_modCore h c _ fun k hk => Memory.wf_write _ _ _ hk

/-- A byte read at its home after a byte is written: two addresses of one cell are one byte. -/
theorem State.readByte_writeByte (s : State) (pa a : Nat) (v : Byte) :
    (s.writeByte pa v).readByte a = if s.cell a = s.cell pa then v else s.readByte a := by
  have hc : (s.writeByte pa v).cell a = s.cell a := rfl
  unfold State.readByte
  rw [hc]
  exact Memory.read_write _ _ _ _

end Sys2Proof.Machine
end

