-- ==== Sys2Proof/Laws/Order.lean ====
section
/-!
SUPPORT. What the record of the order of events changes: of a state its launches, its marks and its posts.
-/

namespace Sys2Proof.Machine

/-- The elements of a list put without repeats after some others. -/
theorem mem_dedupFrom (l a : List Nat) (n : Nat) :
    n ∈ l.foldl (fun a x => if a.contains x then a else a ++ [x]) a ↔ n ∈ a ∨ n ∈ l := by
  induction l generalizing a with
  | nil => simp
  | cons x r ih =>
    rw [List.foldl_cons, ih]
    split
    · rename_i h
      have : x ∈ a := by simpa using h
      constructor
      · rintro (h1 | h1) <;> simp_all
      · rintro (h1 | h1)
        · exact .inl h1
        · rcases List.mem_cons.1 h1 with rfl | h2
          · exact .inl this
          · exact .inr h2
    · simp [or_assoc, or_comm, or_left_comm]

/-- The elements of a list without repeats. -/
theorem mem_dedup (l : List Nat) (n : Nat) : n ∈ dedup l ↔ n ∈ l := by
  rw [dedup, mem_dedupFrom]; simp

/-- What a thread has heard, after some have heard of subscriptions. -/
theorem Launch.hear_find (x : Launch) (ths ids : List Nat) (t : Nat) :
    Dict.find (x.hear ths ids).heard t = if t ∈ ths then some ids else Dict.find x.heard t := by
  have fold (d : Dict (List Nat)) : Dict.find (ths.foldl (fun d t => Dict.put d t ids) d) t =
      if t ∈ ths then some ids else Dict.find d t := by
    induction ths generalizing d with
    | nil => simp
    | cons a r ih => rw [List.foldl_cons, ih, Dict.find_put]; by_cases h : t = a <;> simp [h]
  exact fold _

/-- A state that differs from another in what is known of the order of events alone: its launches, its marks, its posts. -/
def State.Ordered (s t : State) : Prop := ∃ ls ms ps, t = { s with launches := ls, marks := ms, posted := ps }

theorem State.Ordered.refl (s : State) : s.Ordered s := ⟨_, _, _, rfl⟩

theorem State.Ordered.trans {s t u : State} (h : s.Ordered t) (k : t.Ordered u) : s.Ordered u := by
  obtain ⟨_, _, _, rfl⟩ := h
  obtain ⟨_, _, _, rfl⟩ := k
  exact ⟨_, _, _, rfl⟩

theorem State.Ordered.ite {p : Prop} [Decidable p] {s t u : State} (h : s.Ordered t) (k : s.Ordered u) :
    s.Ordered (if p then t else u) := by split <;> assumption

/-- A change of a launch is one of the order of events alone. -/
theorem State.modLaunch_ordered (s : State) (l : Nat) (f : Launch → Launch) : s.Ordered (s.modLaunch l f) := ⟨_, _, _, rfl⟩

/-- What threads hear changes the order of events alone. -/
theorem State.hears_ordered (s : State) (l : Nat) (ths got : List Nat) : s.Ordered (s.hears l ths got).2 := by
  unfold State.hears
  split
  · exact .refl s
  · exact .ite (.refl s) (s.modLaunch_ordered _ _)

/-- What an event tells changes the order of events alone. -/
theorem State.syncTell_ordered (s : State) (l : Nat) (loc : SyncLoc) (who : SyncBy) (how : Touch) (pre post : List Byte)
    (ids : List Nat) : s.Ordered (s.syncTell l loc who how pre post ids) := by
  have set (ms : List SyncMark) : s.Ordered (s.setMarks l loc ms) := by
    unfold State.setMarks
    split
    · exact ⟨_, _, _, rfl⟩
    · exact s.modLaunch_ordered _ _
  unfold State.syncTell
  cases how <;> first | exact .refl s | exact set _

/-- A sync event changes the order of events alone. -/
theorem State.sync_ordered (s : State) (l : Nat) (loc : SyncLoc) (who : SyncBy) (how : Touch) (pre post : List Byte) :
    s.Ordered (s.sync l loc who how pre post) :=
  (s.hears_ordered l who.threads _).trans (State.syncTell_ordered _ _ _ _ _ _ _ _)

/-- Sync reads change the order of events alone. -/
theorem State.syncAll_ordered (s : State) (l : Nat) (es : List SyncRead) : s.Ordered (s.syncAll l es) := by
  unfold State.syncAll
  induction es generalizing s with
  | nil => exact .refl s
  | cons e r ih => exact (s.sync_ordered _ _ _ _ _ _).trans (ih _)

/-- What an access tells changes the order of events alone. -/
theorem State.tell_ordered (s t : State) (q : HomeReq) : t.Ordered (s.tell q t) := by
  have event : t.Ordered (s.tellEvent q t) := by
    unfold State.tellEvent
    split
    · exact t.sync_ordered _ _ _ _ _ _
    · exact ⟨_, _, _, rfl⟩
    · exact .refl t
  unfold State.tell
  split
  · exact .ite event (event.trans ⟨_, _, _, rfl⟩)
  · exact event

/-- What a deposit tells changes the order of events alone. -/
theorem State.tellDeposit_ordered (s : State) (p : Warp) (d : Deposit) : s.Ordered (s.tellDeposit p d) :=
  .ite (.refl s) (s.syncTell_ordered _ _ _ _ _ _ _)

/-- What an act hears changes the order of events alone. -/
theorem State.overhear_ordered (s t : State) (w : WarpRef) : t.Ordered (s.overhear t w) := by
  unfold State.overhear
  split
  · exact .refl t
  · refine .ite (.refl t) ?_
    have h := fun c : Ctx => t.syncAll_ordered c.p.launch
    exact .ite (.ite (h _ _) ((h _ _).trans (State.hears_ordered _ _ _ _)))
      (.trans (.ite (h _ _) ((h _ _).trans (State.hears_ordered _ _ _ _))) (State.modLaunch_ordered _ _ _))

@[simp] theorem State.overhear_mem (s t : State) (w : WarpRef) : (s.overhear t w).mem = t.mem := by
  obtain ⟨_, _, _, h⟩ := s.overhear_ordered t w; rw [h]

@[simp] theorem State.overhear_cores (s t : State) (w : WarpRef) : (s.overhear t w).cores = t.cores := by
  obtain ⟨_, _, _, h⟩ := s.overhear_ordered t w; rw [h]

@[simp] theorem State.overhear_dev (s t : State) (w : WarpRef) : (s.overhear t w).dev = t.dev := by
  obtain ⟨_, _, _, h⟩ := s.overhear_ordered t w; rw [h]

@[simp] theorem State.tell_mem (s t : State) (q : HomeReq) : (s.tell q t).mem = t.mem := by
  obtain ⟨_, _, _, h⟩ := s.tell_ordered t q; rw [h]

@[simp] theorem State.tell_cores (s t : State) (q : HomeReq) : (s.tell q t).cores = t.cores := by
  obtain ⟨_, _, _, h⟩ := s.tell_ordered t q; rw [h]

@[simp] theorem State.tell_dev (s t : State) (q : HomeReq) : (s.tell q t).dev = t.dev := by
  obtain ⟨_, _, _, h⟩ := s.tell_ordered t q; rw [h]

end Sys2Proof.Machine
end

