-- ==== Sys2Proof/Laws/PerInstr.lean ====
section
/-!
SUPPORT. What holds of every instruction as syntax, constructor by constructor: the encoder leaves the chain bit
and the must-be-zero bit of a slot clear, so that a slot may set its own chain bit (R42, R44).
-/

namespace Sys2Proof.Laws.Coding

/-- The chain bit and bit 0 of the extension are clear in what the encoder writes. -/
def Statement (i : Instr) : Prop := ∀ f, encodeFields i = some f → f.c = 0#1 ∧ f.z = 0#1

end Sys2Proof.Laws.Coding

theorem Sys2Proof.Laws.Coding.nop : Sys2Proof.Laws.Coding.Statement .nop := by
  intro f h; cases h; exact ⟨rfl, rfl⟩
theorem Sys2Proof.Laws.Coding.trail (te : BitVec 1) (tag : BitVec 3) (wb : BitVec 16) : Sys2Proof.Laws.Coding.Statement (.trail te tag wb) := by
  intro f h; cases h; exact ⟨rfl, rfl⟩
theorem Sys2Proof.Laws.Coding.bra (off : BitVec 26) : Sys2Proof.Laws.Coding.Statement (.bra off) := by
  intro f h; cases h; exact ⟨rfl, rfl⟩
theorem Sys2Proof.Laws.Coding.bre (k : BitVec 3) (off : BitVec 26) : Sys2Proof.Laws.Coding.Statement (.bre k off) := by
  intro f h; cases h; exact ⟨rfl, rfl⟩
theorem Sys2Proof.Laws.Coding.brn (k : BitVec 3) (off : BitVec 26) : Sys2Proof.Laws.Coding.Statement (.brn k off) := by
  intro f h; cases h; exact ⟨rfl, rfl⟩
theorem Sys2Proof.Laws.Coding.brx (k : BitVec 3) (a : BitVec 5) (x : BitVec 5) : Sys2Proof.Laws.Coding.Statement (.brx k a x) := by
  intro f h; cases h; exact ⟨rfl, rfl⟩
theorem Sys2Proof.Laws.Coding.call (k : BitVec 3) (off : BitVec 26) : Sys2Proof.Laws.Coding.Statement (.call k off) := by
  intro f h; cases h; exact ⟨rfl, rfl⟩
theorem Sys2Proof.Laws.Coding.ret (k : BitVec 3) (a : BitVec 5) (x : BitVec 5) : Sys2Proof.Laws.Coding.Statement (.ret k a x) := by
  intro f h; cases h; exact ⟨rfl, rfl⟩
theorem Sys2Proof.Laws.Coding.loop (k : BitVec 3) (d : BitVec 5) (off : BitVec 16) : Sys2Proof.Laws.Coding.Statement (.loop k d off) := by
  intro f h; cases h; exact ⟨rfl, rfl⟩
theorem Sys2Proof.Laws.Coding.exit (k : BitVec 3) : Sys2Proof.Laws.Coding.Statement (.exit k) := by
  intro f h; cases h; exact ⟨rfl, rfl⟩
theorem Sys2Proof.Laws.Coding.yield : Sys2Proof.Laws.Coding.Statement .yield := by
  intro f h; cases h; exact ⟨rfl, rfl⟩
theorem Sys2Proof.Laws.Coding.icinv (a : BitVec 5) (b : BitVec 5) (x : BitVec 5) (scope : BitVec 2) : Sys2Proof.Laws.Coding.Statement (.icinv a b x scope) := by
  intro f h; cases h; exact ⟨rfl, rfl⟩
theorem Sys2Proof.Laws.Coding.claim (n : BitVec 16) : Sys2Proof.Laws.Coding.Statement (.claim n) := by
  intro f h; cases h; exact ⟨rfl, rfl⟩
theorem Sys2Proof.Laws.Coding.give (n : BitVec 16) : Sys2Proof.Laws.Coding.Statement (.give n) := by
  intro f h; cases h; exact ⟨rfl, rfl⟩
theorem Sys2Proof.Laws.Coding.ktestInt (k : BitVec 3) (d : BitVec 5) (a : BitVec 5) (b : BitVec 5) (ity : BitVec 3) (cc : BitVec 3) (all : BitVec 1) (kf : BitVec 3) : Sys2Proof.Laws.Coding.Statement (.ktestInt k d a b ity cc all kf) := by
  intro f h; cases h; exact ⟨rfl, rfl⟩
theorem Sys2Proof.Laws.Coding.ktestFloat (k : BitVec 3) (d : BitVec 5) (a : BitVec 5) (b : BitVec 5) (ty : BitVec 2) (fc : BitVec 3) (ftz : BitVec 1) (all : BitVec 1) (kf : BitVec 3) : Sys2Proof.Laws.Coding.Statement (.ktestFloat k d a b ty fc ftz all kf) := by
  intro f h; cases h; exact ⟨rfl, rfl⟩
theorem Sys2Proof.Laws.Coding.kand (d : BitVec 5) (a : BitVec 5) (b : BitVec 5) : Sys2Proof.Laws.Coding.Statement (.kand d a b) := by
  intro f h; cases h; exact ⟨rfl, rfl⟩
theorem Sys2Proof.Laws.Coding.kor (d : BitVec 5) (a : BitVec 5) (b : BitVec 5) : Sys2Proof.Laws.Coding.Statement (.kor d a b) := by
  intro f h; cases h; exact ⟨rfl, rfl⟩
theorem Sys2Proof.Laws.Coding.kdiff (d : BitVec 5) (a : BitVec 5) (b : BitVec 5) : Sys2Proof.Laws.Coding.Statement (.kdiff d a b) := by
  intro f h; cases h; exact ⟨rfl, rfl⟩
theorem Sys2Proof.Laws.Coding.kcount (k : BitVec 3) (d : BitVec 5) (a : BitVec 5) : Sys2Proof.Laws.Coding.Statement (.kcount k d a) := by
  intro f h; cases h; exact ⟨rfl, rfl⟩
theorem Sys2Proof.Laws.Coding.kfirst (k : BitVec 3) (d : BitVec 5) (a : BitVec 5) (b : BitVec 5) (x : BitVec 5) : Sys2Proof.Laws.Coding.Statement (.kfirst k d a b x) := by
  intro f h; cases h; exact ⟨rfl, rfl⟩
theorem Sys2Proof.Laws.Coding.kmakeV (d : BitVec 5) (a : BitVec 5) : Sys2Proof.Laws.Coding.Statement (.kmakeV d a) := by
  intro f h; cases h; exact ⟨rfl, rfl⟩
theorem Sys2Proof.Laws.Coding.kmakeM (d : BitVec 5) (a : BitVec 5) : Sys2Proof.Laws.Coding.Statement (.kmakeM d a) := by
  intro f h; cases h; exact ⟨rfl, rfl⟩
theorem Sys2Proof.Laws.Coding.kself (d : BitVec 5) : Sys2Proof.Laws.Coding.Statement (.kself d) := by
  intro f h; cases h; exact ⟨rfl, rfl⟩
theorem Sys2Proof.Laws.Coding.kld (d : BitVec 5) (a : BitVec 5) (b : BitVec 5) (x : BitVec 5) : Sys2Proof.Laws.Coding.Statement (.kld d a b x) := by
  intro f h; cases h; exact ⟨rfl, rfl⟩
theorem Sys2Proof.Laws.Coding.kst (d : BitVec 5) (a : BitVec 5) (b : BitVec 5) (x : BitVec 5) : Sys2Proof.Laws.Coding.Statement (.kst d a b x) := by
  intro f h; cases h; exact ⟨rfl, rfl⟩
theorem Sys2Proof.Laws.Coding.kmerge (d : BitVec 5) (a : BitVec 5) : Sys2Proof.Laws.Coding.Statement (.kmerge d a) := by
  intro f h; cases h; exact ⟨rfl, rfl⟩
theorem Sys2Proof.Laws.Coding.kfree (d : BitVec 5) : Sys2Proof.Laws.Coding.Statement (.kfree d) := by
  intro f h; cases h; exact ⟨rfl, rfl⟩
theorem Sys2Proof.Laws.Coding.kqpush (d : BitVec 5) (a : BitVec 5) (b : BitVec 5) : Sys2Proof.Laws.Coding.Statement (.kqpush d a b) := by
  intro f h; cases h; exact ⟨rfl, rfl⟩
theorem Sys2Proof.Laws.Coding.kqpop (d : BitVec 5) (a : BitVec 5) : Sys2Proof.Laws.Coding.Statement (.kqpop d a) := by
  intro f h; cases h; exact ⟨rfl, rfl⟩
theorem Sys2Proof.Laws.Coding.applyS (k : BitVec 3) (off : BitVec 18) : Sys2Proof.Laws.Coding.Statement (.applyS k off) := by
  intro f h; cases h; exact ⟨rfl, rfl⟩
theorem Sys2Proof.Laws.Coding.applyR (k : BitVec 3) (off : BitVec 18) (b0 : BitVec 4) (b1 : BitVec 4) : Sys2Proof.Laws.Coding.Statement (.applyR k off b0 b1) := by
  intro f h; cases h; exact ⟨rfl, rfl⟩
theorem Sys2Proof.Laws.Coding.enda : Sys2Proof.Laws.Coding.Statement .enda := by
  intro f h; cases h; exact ⟨rfl, rfl⟩
theorem Sys2Proof.Laws.Coding.gmake (k : BitVec 3) (d : BitVec 5) : Sys2Proof.Laws.Coding.Statement (.gmake k d) := by
  intro f h; cases h; exact ⟨rfl, rfl⟩
theorem Sys2Proof.Laws.Coding.join (k : BitVec 3) (a : BitVec 5) : Sys2Proof.Laws.Coding.Statement (.join k a) := by
  intro f h; cases h; exact ⟨rfl, rfl⟩
theorem Sys2Proof.Laws.Coding.leave (k : BitVec 3) (a : BitVec 5) : Sys2Proof.Laws.Coding.Statement (.leave k a) := by
  intro f h; cases h; exact ⟨rfl, rfl⟩
theorem Sys2Proof.Laws.Coding.gdis (a : BitVec 5) : Sys2Proof.Laws.Coding.Statement (.gdis a) := by
  intro f h; cases h; exact ⟨rfl, rfl⟩
theorem Sys2Proof.Laws.Coding.add (o : Opnds) (ity : BitVec 3) (sat : BitVec 1) : Sys2Proof.Laws.Coding.Statement (.add o ity sat) := by
  intro f h; cases h; exact ⟨rfl, rfl⟩
theorem Sys2Proof.Laws.Coding.sub (o : Opnds) (ity : BitVec 3) (sat : BitVec 1) : Sys2Proof.Laws.Coding.Statement (.sub o ity sat) := by
  intro f h; cases h; exact ⟨rfl, rfl⟩
theorem Sys2Proof.Laws.Coding.min (o : Opnds) (ity : BitVec 3) : Sys2Proof.Laws.Coding.Statement (.min o ity) := by
  intro f h; cases h; exact ⟨rfl, rfl⟩
theorem Sys2Proof.Laws.Coding.max (o : Opnds) (ity : BitVec 3) : Sys2Proof.Laws.Coding.Statement (.max o ity) := by
  intro f h; cases h; exact ⟨rfl, rfl⟩
theorem Sys2Proof.Laws.Coding.mul (o : Opnds) (ity : BitVec 3) (sat : BitVec 1) : Sys2Proof.Laws.Coding.Statement (.mul o ity sat) := by
  intro f h; cases h; exact ⟨rfl, rfl⟩
theorem Sys2Proof.Laws.Coding.mulhi (o : Opnds) (ity : BitVec 3) : Sys2Proof.Laws.Coding.Statement (.mulhi o ity) := by
  intro f h; cases h; exact ⟨rfl, rfl⟩
theorem Sys2Proof.Laws.Coding.mad (o : Opnds) (ity : BitVec 3) (sat : BitVec 1) : Sys2Proof.Laws.Coding.Statement (.mad o ity sat) := by
  intro f h; cases h; exact ⟨rfl, rfl⟩
theorem Sys2Proof.Laws.Coding.and (o : Opnds) : Sys2Proof.Laws.Coding.Statement (.and o) := by
  intro f h; cases h; exact ⟨rfl, rfl⟩
theorem Sys2Proof.Laws.Coding.or (o : Opnds) : Sys2Proof.Laws.Coding.Statement (.or o) := by
  intro f h; cases h; exact ⟨rfl, rfl⟩
theorem Sys2Proof.Laws.Coding.xor (o : Opnds) : Sys2Proof.Laws.Coding.Statement (.xor o) := by
  intro f h; cases h; exact ⟨rfl, rfl⟩
theorem Sys2Proof.Laws.Coding.andn (o : Opnds) : Sys2Proof.Laws.Coding.Statement (.andn o) := by
  intro f h; cases h; exact ⟨rfl, rfl⟩
theorem Sys2Proof.Laws.Coding.shl (o : Opnds) (ity : BitVec 3) : Sys2Proof.Laws.Coding.Statement (.shl o ity) := by
  intro f h; cases h; exact ⟨rfl, rfl⟩
theorem Sys2Proof.Laws.Coding.shr (o : Opnds) (ity : BitVec 3) : Sys2Proof.Laws.Coding.Statement (.shr o ity) := by
  intro f h; cases h; exact ⟨rfl, rfl⟩
theorem Sys2Proof.Laws.Coding.sar (o : Opnds) (ity : BitVec 3) : Sys2Proof.Laws.Coding.Statement (.sar o ity) := by
  intro f h; cases h; exact ⟨rfl, rfl⟩
theorem Sys2Proof.Laws.Coding.rot (o : Opnds) (ity : BitVec 3) : Sys2Proof.Laws.Coding.Statement (.rot o ity) := by
  intro f h; cases h; exact ⟨rfl, rfl⟩
theorem Sys2Proof.Laws.Coding.clz (k : BitVec 3) (d : BitVec 5) (a : BitVec 5) (ity : BitVec 3) : Sys2Proof.Laws.Coding.Statement (.clz k d a ity) := by
  intro f h; cases h; exact ⟨rfl, rfl⟩
theorem Sys2Proof.Laws.Coding.ctz (k : BitVec 3) (d : BitVec 5) (a : BitVec 5) (ity : BitVec 3) : Sys2Proof.Laws.Coding.Statement (.ctz k d a ity) := by
  intro f h; cases h; exact ⟨rfl, rfl⟩
theorem Sys2Proof.Laws.Coding.popc (k : BitVec 3) (d : BitVec 5) (a : BitVec 5) (ity : BitVec 3) : Sys2Proof.Laws.Coding.Statement (.popc k d a ity) := by
  intro f h; cases h; exact ⟨rfl, rfl⟩
theorem Sys2Proof.Laws.Coding.brev (k : BitVec 3) (d : BitVec 5) (a : BitVec 5) (ity : BitVec 3) : Sys2Proof.Laws.Coding.Statement (.brev k d a ity) := by
  intro f h; cases h; exact ⟨rfl, rfl⟩
theorem Sys2Proof.Laws.Coding.cmp (o : Opnds) (ity : BitVec 3) (cc : BitVec 3) : Sys2Proof.Laws.Coding.Statement (.cmp o ity cc) := by
  intro f h; cases h; exact ⟨rfl, rfl⟩
theorem Sys2Proof.Laws.Coding.sel (o : Opnds) : Sys2Proof.Laws.Coding.Statement (.sel o) := by
  intro f h; cases h; exact ⟨rfl, rfl⟩
theorem Sys2Proof.Laws.Coding.abs (k : BitVec 3) (d : BitVec 5) (a : BitVec 5) (ity : BitVec 3) (sat : BitVec 1) : Sys2Proof.Laws.Coding.Statement (.abs k d a ity sat) := by
  intro f h; cases h; exact ⟨rfl, rfl⟩
theorem Sys2Proof.Laws.Coding.neg (k : BitVec 3) (d : BitVec 5) (a : BitVec 5) (ity : BitVec 3) (sat : BitVec 1) : Sys2Proof.Laws.Coding.Statement (.neg k d a ity sat) := by
  intro f h; cases h; exact ⟨rfl, rfl⟩
theorem Sys2Proof.Laws.Coding.ext (k : BitVec 3) (d : BitVec 5) (a : BitVec 5) (sx : BitVec 1) (lenm : BitVec 6) (p : BitVec 6) : Sys2Proof.Laws.Coding.Statement (.ext k d a sx lenm p) := by
  intro f h; cases h; exact ⟨rfl, rfl⟩
theorem Sys2Proof.Laws.Coding.ins (k : BitVec 3) (d : BitVec 5) (a : BitVec 5) (lenm : BitVec 6) (p : BitVec 6) : Sys2Proof.Laws.Coding.Statement (.ins k d a lenm p) := by
  intro f h; cases h; exact ⟨rfl, rfl⟩
theorem Sys2Proof.Laws.Coding.movi (k : BitVec 3) (d : BitVec 5) (imm : BitVec 16) : Sys2Proof.Laws.Coding.Statement (.movi k d imm) := by
  intro f h; cases h; exact ⟨rfl, rfl⟩
theorem Sys2Proof.Laws.Coding.movh (k : BitVec 3) (d : BitVec 5) (a : BitVec 5) (imm : BitVec 16) : Sys2Proof.Laws.Coding.Statement (.movh k d a imm) := by
  intro f h; cases h; exact ⟨rfl, rfl⟩
theorem Sys2Proof.Laws.Coding.addi (k : BitVec 3) (d : BitVec 5) (a : BitVec 5) (imm : BitVec 16) : Sys2Proof.Laws.Coding.Statement (.addi k d a imm) := by
  intro f h; cases h; exact ⟨rfl, rfl⟩
theorem Sys2Proof.Laws.Coding.lea (o : Opnds) (sh : BitVec 3) : Sys2Proof.Laws.Coding.Statement (.lea o sh) := by
  intro f h; cases h; exact ⟨rfl, rfl⟩
theorem Sys2Proof.Laws.Coding.icvt (k : BitVec 3) (d : BitVec 5) (a : BitVec 5) (dst : BitVec 3) (src : BitVec 3) (sat : BitVec 1) (part : BitVec 3) : Sys2Proof.Laws.Coding.Statement (.icvt k d a dst src sat part) := by
  intro f h; cases h; exact ⟨rfl, rfl⟩
theorem Sys2Proof.Laws.Coding.fadd (o : Opnds) (ty : BitVec 2) (rm : BitVec 3) (ftz : BitVec 1) : Sys2Proof.Laws.Coding.Statement (.fadd o ty rm ftz) := by
  intro f h; cases h; exact ⟨rfl, rfl⟩
theorem Sys2Proof.Laws.Coding.fsub (o : Opnds) (ty : BitVec 2) (rm : BitVec 3) (ftz : BitVec 1) : Sys2Proof.Laws.Coding.Statement (.fsub o ty rm ftz) := by
  intro f h; cases h; exact ⟨rfl, rfl⟩
theorem Sys2Proof.Laws.Coding.fmul (o : Opnds) (ty : BitVec 2) (rm : BitVec 3) (ftz : BitVec 1) : Sys2Proof.Laws.Coding.Statement (.fmul o ty rm ftz) := by
  intro f h; cases h; exact ⟨rfl, rfl⟩
theorem Sys2Proof.Laws.Coding.fma (o : Opnds) (ty : BitVec 2) (rm : BitVec 3) (ftz : BitVec 1) : Sys2Proof.Laws.Coding.Statement (.fma o ty rm ftz) := by
  intro f h; cases h; exact ⟨rfl, rfl⟩
theorem Sys2Proof.Laws.Coding.fnma (o : Opnds) (ty : BitVec 2) (rm : BitVec 3) (ftz : BitVec 1) : Sys2Proof.Laws.Coding.Statement (.fnma o ty rm ftz) := by
  intro f h; cases h; exact ⟨rfl, rfl⟩
theorem Sys2Proof.Laws.Coding.fmin (o : Opnds) (ty : BitVec 2) (ftz : BitVec 1) : Sys2Proof.Laws.Coding.Statement (.fmin o ty ftz) := by
  intro f h; cases h; exact ⟨rfl, rfl⟩
theorem Sys2Proof.Laws.Coding.fmax (o : Opnds) (ty : BitVec 2) (ftz : BitVec 1) : Sys2Proof.Laws.Coding.Statement (.fmax o ty ftz) := by
  intro f h; cases h; exact ⟨rfl, rfl⟩
theorem Sys2Proof.Laws.Coding.fdot2 (o : Opnds) (ty : BitVec 2) (rm : BitVec 3) (ftz : BitVec 1) : Sys2Proof.Laws.Coding.Statement (.fdot2 o ty rm ftz) := by
  intro f h; cases h; exact ⟨rfl, rfl⟩
theorem Sys2Proof.Laws.Coding.fsgn (o : Opnds) (efmt : BitVec 4) (opc : BitVec 2) : Sys2Proof.Laws.Coding.Statement (.fsgn o efmt opc) := by
  intro f h; cases h; exact ⟨rfl, rfl⟩
theorem Sys2Proof.Laws.Coding.frnd (k : BitVec 3) (d : BitVec 5) (a : BitVec 5) (ty : BitVec 2) (rm : BitVec 3) (ftz : BitVec 1) : Sys2Proof.Laws.Coding.Statement (.frnd k d a ty rm ftz) := by
  intro f h; cases h; exact ⟨rfl, rfl⟩
theorem Sys2Proof.Laws.Coding.fscl (o : Opnds) (ty : BitVec 2) (rm : BitVec 3) (ftz : BitVec 1) : Sys2Proof.Laws.Coding.Statement (.fscl o ty rm ftz) := by
  intro f h; cases h; exact ⟨rfl, rfl⟩
theorem Sys2Proof.Laws.Coding.fcvt (k : BitVec 3) (d : BitVec 5) (a : BitVec 5) (dst : BitVec 4) (src : BitVec 4) (rm : BitVec 3) (ftz : BitVec 1) (part : BitVec 4) : Sys2Proof.Laws.Coding.Statement (.fcvt k d a dst src rm ftz part) := by
  intro f h; cases h; exact ⟨rfl, rfl⟩
theorem Sys2Proof.Laws.Coding.xperm (o : Opnds) (wd : BitVec 3) (la : BitVec 4) : Sys2Proof.Laws.Coding.Statement (.xperm o wd la) := by
  intro f h; cases h; exact ⟨rfl, rfl⟩
theorem Sys2Proof.Laws.Coding.xshf (o : Opnds) (wd : BitVec 3) (mode : BitVec 2) (la : BitVec 4) : Sys2Proof.Laws.Coding.Statement (.xshf o wd mode la) := by
  intro f h; cases h; exact ⟨rfl, rfl⟩
theorem Sys2Proof.Laws.Coding.xbc (o : Opnds) (wd : BitVec 3) (la : BitVec 4) : Sys2Proof.Laws.Coding.Statement (.xbc o wd la) := by
  intro f h; cases h; exact ⟨rfl, rfl⟩
theorem Sys2Proof.Laws.Coding.xbal (k : BitVec 3) (d : BitVec 5) (a : BitVec 5) (wd : BitVec 3) (la : BitVec 4) : Sys2Proof.Laws.Coding.Statement (.xbal k d a wd la) := by
  intro f h; cases h; exact ⟨rfl, rfl⟩
theorem Sys2Proof.Laws.Coding.xred (k : BitVec 3) (d : BitVec 5) (a : BitVec 5) (rty : BitVec 4) (rop : BitVec 2) (rm : BitVec 3) (ftz : BitVec 1) (la : BitVec 4) : Sys2Proof.Laws.Coding.Statement (.xred k d a rty rop rm ftz la) := by
  intro f h; cases h; exact ⟨rfl, rfl⟩
theorem Sys2Proof.Laws.Coding.xscan (k : BitVec 3) (d : BitVec 5) (a : BitVec 5) (rty : BitVec 4) (rop : BitVec 2) (rm : BitVec 3) (ftz : BitVec 1) (exc : BitVec 1) (la : BitVec 4) : Sys2Proof.Laws.Coding.Statement (.xscan k d a rty rop rm ftz exc la) := by
  intro f h; cases h; exact ⟨rfl, rfl⟩
theorem Sys2Proof.Laws.Coding.xtopk (k : BitVec 3) (d : BitVec 5) (a : BitVec 5) (b : BitVec 5) (rty : BitVec 4) (sel : BitVec 1) (km1 : BitVec 5) (la : BitVec 4) : Sys2Proof.Laws.Coding.Statement (.xtopk k d a b rty sel km1 la) := by
  intro f h; cases h; exact ⟨rfl, rfl⟩
theorem Sys2Proof.Laws.Coding.sfq (k : BitVec 3) (d : BitVec 5) (a : BitVec 5) (b : BitVec 5) (ty : BitVec 2) (fn : BitVec 4) (ftz : BitVec 1) : Sys2Proof.Laws.Coding.Statement (.sfq k d a b ty fn ftz) := by
  intro f h; cases h; exact ⟨rfl, rfl⟩
theorem Sys2Proof.Laws.Coding.sfw (mask : BitVec 16) : Sys2Proof.Laws.Coding.Statement (.sfw mask) := by
  intro f h; cases h; exact ⟨rfl, rfl⟩
theorem Sys2Proof.Laws.Coding.sfp (k : BitVec 3) (d : BitVec 5) : Sys2Proof.Laws.Coding.Statement (.sfp k d) := by
  intro f h; cases h; exact ⟨rfl, rfl⟩
theorem Sys2Proof.Laws.Coding.ld (o : Opnds) (sz : BitVec 3) (cp : BitVec 2) (la : BitVec 4) : Sys2Proof.Laws.Coding.Statement (.ld o sz cp la) := by
  intro f h; cases h; exact ⟨rfl, rfl⟩
theorem Sys2Proof.Laws.Coding.st (o : Opnds) (sz : BitVec 3) (cp : BitVec 2) : Sys2Proof.Laws.Coding.Statement (.st o sz cp) := by
  intro f h; cases h; exact ⟨rfl, rfl⟩
theorem Sys2Proof.Laws.Coding.ldn (o : Opnds) (sz : BitVec 3) (la : BitVec 4) : Sys2Proof.Laws.Coding.Statement (.ldn o sz la) := by
  intro f h; cases h; exact ⟨rfl, rfl⟩
theorem Sys2Proof.Laws.Coding.stn (o : Opnds) (sz : BitVec 3) : Sys2Proof.Laws.Coding.Statement (.stn o sz) := by
  intro f h; cases h; exact ⟨rfl, rfl⟩
theorem Sys2Proof.Laws.Coding.ldt (o : Opnds) (dt : BitVec 1) (rm : BitVec 3) (ftz : BitVec 1) (chk : BitVec 1) (la : BitVec 4) : Sys2Proof.Laws.Coding.Statement (.ldt o dt rm ftz chk la) := by
  intro f h; cases h; exact ⟨rfl, rfl⟩
theorem Sys2Proof.Laws.Coding.stt (o : Opnds) (dt : BitVec 1) (rm : BitVec 3) (ftz : BitVec 1) (chk : BitVec 1) : Sys2Proof.Laws.Coding.Statement (.stt o dt rm ftz chk) := by
  intro f h; cases h; exact ⟨rfl, rfl⟩
theorem Sys2Proof.Laws.Coding.pref (k : BitVec 3) (a : BitVec 5) (b : BitVec 5) (x : BitVec 5) (lv : BitVec 1) : Sys2Proof.Laws.Coding.Statement (.pref k a b x lv) := by
  intro f h; cases h; exact ⟨rfl, rfl⟩
theorem Sys2Proof.Laws.Coding.atomAdd (o : Opnds) (scope : BitVec 3) (w : BitVec 1) : Sys2Proof.Laws.Coding.Statement (.atomAdd o scope w) := by
  intro f h; cases h; exact ⟨rfl, rfl⟩
theorem Sys2Proof.Laws.Coding.atomFadd (o : Opnds) (scope : BitVec 3) (w : BitVec 1) : Sys2Proof.Laws.Coding.Statement (.atomFadd o scope w) := by
  intro f h; cases h; exact ⟨rfl, rfl⟩
theorem Sys2Proof.Laws.Coding.atomBinc (o : Opnds) (scope : BitVec 3) (w : BitVec 1) : Sys2Proof.Laws.Coding.Statement (.atomBinc o scope w) := by
  intro f h; cases h; exact ⟨rfl, rfl⟩
theorem Sys2Proof.Laws.Coding.atomXchg (o : Opnds) (scope : BitVec 3) (w : BitVec 1) : Sys2Proof.Laws.Coding.Statement (.atomXchg o scope w) := by
  intro f h; cases h; exact ⟨rfl, rfl⟩
theorem Sys2Proof.Laws.Coding.atomMinS (o : Opnds) (scope : BitVec 3) (w : BitVec 1) : Sys2Proof.Laws.Coding.Statement (.atomMinS o scope w) := by
  intro f h; cases h; exact ⟨rfl, rfl⟩
theorem Sys2Proof.Laws.Coding.atomMaxS (o : Opnds) (scope : BitVec 3) (w : BitVec 1) : Sys2Proof.Laws.Coding.Statement (.atomMaxS o scope w) := by
  intro f h; cases h; exact ⟨rfl, rfl⟩
theorem Sys2Proof.Laws.Coding.atomMinU (o : Opnds) (scope : BitVec 3) (w : BitVec 1) : Sys2Proof.Laws.Coding.Statement (.atomMinU o scope w) := by
  intro f h; cases h; exact ⟨rfl, rfl⟩
theorem Sys2Proof.Laws.Coding.atomMaxU (o : Opnds) (scope : BitVec 3) (w : BitVec 1) : Sys2Proof.Laws.Coding.Statement (.atomMaxU o scope w) := by
  intro f h; cases h; exact ⟨rfl, rfl⟩
theorem Sys2Proof.Laws.Coding.atomAnd (o : Opnds) (scope : BitVec 3) (w : BitVec 1) : Sys2Proof.Laws.Coding.Statement (.atomAnd o scope w) := by
  intro f h; cases h; exact ⟨rfl, rfl⟩
theorem Sys2Proof.Laws.Coding.atomOr (o : Opnds) (scope : BitVec 3) (w : BitVec 1) : Sys2Proof.Laws.Coding.Statement (.atomOr o scope w) := by
  intro f h; cases h; exact ⟨rfl, rfl⟩
theorem Sys2Proof.Laws.Coding.atomXor (o : Opnds) (scope : BitVec 3) (w : BitVec 1) : Sys2Proof.Laws.Coding.Statement (.atomXor o scope w) := by
  intro f h; cases h; exact ⟨rfl, rfl⟩
theorem Sys2Proof.Laws.Coding.atomCas (o : Opnds) (scope : BitVec 3) (w : BitVec 1) : Sys2Proof.Laws.Coding.Statement (.atomCas o scope w) := by
  intro f h; cases h; exact ⟨rfl, rfl⟩
theorem Sys2Proof.Laws.Coding.rwr (k : BitVec 3) (a : BitVec 5) (b : BitVec 5) (x : BitVec 5) : Sys2Proof.Laws.Coding.Statement (.rwr k a b x) := by
  intro f h; cases h; exact ⟨rfl, rfl⟩
theorem Sys2Proof.Laws.Coding.awt (d : BitVec 5) (b : BitVec 5) (x : BitVec 5) (ctr : BitVec 2) (sub : BitVec 1) (clr : BitVec 1) : Sys2Proof.Laws.Coding.Statement (.awt d b x ctr sub clr) := by
  intro f h; cases h; exact ⟨rfl, rfl⟩
theorem Sys2Proof.Laws.Coding.bind (a : BitVec 5) (b : BitVec 5) (cc : BitVec 5) : Sys2Proof.Laws.Coding.Statement (.bind a b cc) := by
  intro f h; cases h; exact ⟨rfl, rfl⟩
theorem Sys2Proof.Laws.Coding.unbind (a : BitVec 5) (b : BitVec 5) (cc : BitVec 5) : Sys2Proof.Laws.Coding.Statement (.unbind a b cc) := by
  intro f h; cases h; exact ⟨rfl, rfl⟩
theorem Sys2Proof.Laws.Coding.acq (k : BitVec 3) (d : BitVec 5) (a : BitVec 5) (scope : BitVec 3) (la : BitVec 4) : Sys2Proof.Laws.Coding.Statement (.acq k d a scope la) := by
  intro f h; cases h; exact ⟨rfl, rfl⟩
theorem Sys2Proof.Laws.Coding.rel (k : BitVec 3) (a : BitVec 5) (scope : BitVec 3) : Sys2Proof.Laws.Coding.Statement (.rel k a scope) := by
  intro f h; cases h; exact ⟨rfl, rfl⟩
theorem Sys2Proof.Laws.Coding.fence (scope : BitVec 3) : Sys2Proof.Laws.Coding.Statement (.fence scope) := by
  intro f h; cases h; exact ⟨rfl, rfl⟩
theorem Sys2Proof.Laws.Coding.publish (a : BitVec 5) : Sys2Proof.Laws.Coding.Statement (.publish a) := by
  intro f h; cases h; exact ⟨rfl, rfl⟩
theorem Sys2Proof.Laws.Coding.fread (k : BitVec 3) (d : BitVec 5) (a : BitVec 5) (scope : BitVec 3) (la : BitVec 4) : Sys2Proof.Laws.Coding.Statement (.fread k d a scope la) := by
  intro f h; cases h; exact ⟨rfl, rfl⟩
theorem Sys2Proof.Laws.Coding.ffill (k : BitVec 3) (a : BitVec 5) (b : BitVec 5) (x : BitVec 5) (scope : BitVec 3) : Sys2Proof.Laws.Coding.Statement (.ffill k a b x scope) := by
  intro f h; cases h; exact ⟨rfl, rfl⟩
theorem Sys2Proof.Laws.Coding.fclr (k : BitVec 3) (a : BitVec 5) (x : BitVec 5) (scope : BitVec 3) : Sys2Proof.Laws.Coding.Statement (.fclr k a x scope) := by
  intro f h; cases h; exact ⟨rfl, rfl⟩
theorem Sys2Proof.Laws.Coding.cpy (k : BitVec 3) (d : BitVec 5) (a : BitVec 5) (b : BitVec 5) (t : BitVec 6) (dir : BitVec 2) : Sys2Proof.Laws.Coding.Statement (.cpy k d a b t dir) := by
  intro f h; cases h; exact ⟨rfl, rfl⟩
theorem Sys2Proof.Laws.Coding.cpym (k : BitVec 3) (d : BitVec 5) (a : BitVec 5) (b : BitVec 5) (t : BitVec 6) (pmask : BitVec 4) : Sys2Proof.Laws.Coding.Statement (.cpym k d a b t pmask) := by
  intro f h; cases h; exact ⟨rfl, rfl⟩
theorem Sys2Proof.Laws.Coding.tall (g : BitVec 2) (mask : BitVec 16) : Sys2Proof.Laws.Coding.Statement (.tall g mask) := by
  intro f h; cases h; exact ⟨rfl, rfl⟩
theorem Sys2Proof.Laws.Coding.tany (g : BitVec 2) (mask : BitVec 16) : Sys2Proof.Laws.Coding.Statement (.tany g mask) := by
  intro f h; cases h; exact ⟨rfl, rfl⟩
theorem Sys2Proof.Laws.Coding.tffr (k : BitVec 3) (d : BitVec 5) (a : BitVec 5) : Sys2Proof.Laws.Coding.Statement (.tffr k d a) := by
  intro f h; cases h; exact ⟨rfl, rfl⟩
theorem Sys2Proof.Laws.Coding.mloop (k : BitVec 3) (d : BitVec 5) (t : BitVec 4) (zs : BitVec 1) (ftz : BitVec 1) (mx : BitVec 1) (fmt : BitVec 3) : Sys2Proof.Laws.Coding.Statement (.mloop k d t zs ftz mx fmt) := by
  intro f h; cases h; exact ⟨rfl, rfl⟩
theorem Sys2Proof.Laws.Coding.mzero (k : BitVec 3) (t : BitVec 4) : Sys2Proof.Laws.Coding.Statement (.mzero k t) := by
  intro f h; cases h; exact ⟨rfl, rfl⟩
theorem Sys2Proof.Laws.Coding.mrdN (k : BitVec 3) (d : BitVec 5) (t : BitVec 4) (bf : BitVec 1) (e : BitVec 1) : Sys2Proof.Laws.Coding.Statement (.mrdN k d t bf e) := by
  intro f h; cases h; exact ⟨rfl, rfl⟩
theorem Sys2Proof.Laws.Coding.mrdW (k : BitVec 3) (d : BitVec 5) (a : BitVec 5) (t : BitVec 4) (e : BitVec 1) (la : BitVec 4) : Sys2Proof.Laws.Coding.Statement (.mrdW k d a t e la) := by
  intro f h; cases h; exact ⟨rfl, rfl⟩
theorem Sys2Proof.Laws.Coding.mwrN (k : BitVec 3) (d : BitVec 5) (t : BitVec 4) : Sys2Proof.Laws.Coding.Statement (.mwrN k d t) := by
  intro f h; cases h; exact ⟨rfl, rfl⟩
theorem Sys2Proof.Laws.Coding.mwrW (k : BitVec 3) (d : BitVec 5) (a : BitVec 5) (t : BitVec 4) : Sys2Proof.Laws.Coding.Statement (.mwrW k d a t) := by
  intro f h; cases h; exact ⟨rfl, rfl⟩
theorem Sys2Proof.Laws.Coding.lacfg (k : BitVec 3) (a : BitVec 5) : Sys2Proof.Laws.Coding.Statement (.lacfg k a) := by
  intro f h; cases h; exact ⟨rfl, rfl⟩
theorem Sys2Proof.Laws.Coding.laseed (k : BitVec 3) (a : BitVec 5) (b : BitVec 5) : Sys2Proof.Laws.Coding.Statement (.laseed k a b) := by
  intro f h; cases h; exact ⟨rfl, rfl⟩
theorem Sys2Proof.Laws.Coding.lainfN (k : BitVec 3) (d : BitVec 5) (a : BitVec 5) (b : BitVec 5) (after : BitVec 1) : Sys2Proof.Laws.Coding.Statement (.lainfN k d a b after) := by
  intro f h; cases h; exact ⟨rfl, rfl⟩
theorem Sys2Proof.Laws.Coding.lainfW (k : BitVec 3) (d : BitVec 5) (a : BitVec 5) (after : BitVec 1) (la : BitVec 4) : Sys2Proof.Laws.Coding.Statement (.lainfW k d a after la) := by
  intro f h; cases h; exact ⟨rfl, rfl⟩
theorem Sys2Proof.Laws.Coding.lafb (k : BitVec 3) (a : BitVec 5) (b : BitVec 5) (p : BitVec 1) : Sys2Proof.Laws.Coding.Statement (.lafb k a b p) := by
  intro f h; cases h; exact ⟨rfl, rfl⟩
theorem Sys2Proof.Laws.Coding.lardN (k : BitVec 3) (d : BitVec 5) (a : BitVec 5) (b : BitVec 5) (inc : BitVec 1) (after : BitVec 1) : Sys2Proof.Laws.Coding.Statement (.lardN k d a b inc after) := by
  intro f h; cases h; exact ⟨rfl, rfl⟩
theorem Sys2Proof.Laws.Coding.lardW (k : BitVec 3) (d : BitVec 5) (a : BitVec 5) (after : BitVec 1) (la : BitVec 4) : Sys2Proof.Laws.Coding.Statement (.lardW k d a after la) := by
  intro f h; cases h; exact ⟨rfl, rfl⟩
theorem Sys2Proof.Laws.Coding.lawrN (k : BitVec 3) (d : BitVec 5) (a : BitVec 5) (b : BitVec 5) : Sys2Proof.Laws.Coding.Statement (.lawrN k d a b) := by
  intro f h; cases h; exact ⟨rfl, rfl⟩
theorem Sys2Proof.Laws.Coding.lawrW (k : BitVec 3) (d : BitVec 5) (a : BitVec 5) : Sys2Proof.Laws.Coding.Statement (.lawrW k d a) := by
  intro f h; cases h; exact ⟨rfl, rfl⟩
theorem Sys2Proof.Laws.Coding.swsub (k : BitVec 3) (d : BitVec 5) (a : BitVec 5) : Sys2Proof.Laws.Coding.Statement (.swsub k d a) := by
  intro f h; cases h; exact ⟨rfl, rfl⟩
theorem Sys2Proof.Laws.Coding.swleave (k : BitVec 3) (a : BitVec 5) : Sys2Proof.Laws.Coding.Statement (.swleave k a) := by
  intro f h; cases h; exact ⟨rfl, rfl⟩
theorem Sys2Proof.Laws.Coding.swgo (k : BitVec 3) (a : BitVec 5) (sid : BitVec 4) (dh : BitVec 1) : Sys2Proof.Laws.Coding.Statement (.swgo k a sid dh) := by
  intro f h; cases h; exact ⟨rfl, rfl⟩
theorem Sys2Proof.Laws.Coding.swrd (k : BitVec 3) (d : BitVec 5) (a : BitVec 5) (mm : BitVec 2) : Sys2Proof.Laws.Coding.Statement (.swrd k d a mm) := by
  intro f h; cases h; exact ⟨rfl, rfl⟩
theorem Sys2Proof.Laws.Coding.swmerge (k : BitVec 3) (d : BitVec 5) (a : BitVec 5) (b : BitVec 5) : Sys2Proof.Laws.Coding.Statement (.swmerge k d a b) := by
  intro f h; cases h; exact ⟨rfl, rfl⟩
theorem Sys2Proof.Laws.Coding.swwait (a : BitVec 5) : Sys2Proof.Laws.Coding.Statement (.swwait a) := by
  intro f h; cases h; exact ⟨rfl, rfl⟩
theorem Sys2Proof.Laws.Coding.post (d : BitVec 5) (a : BitVec 5) (q : BitVec 2) (dir : BitVec 2) : Sys2Proof.Laws.Coding.Statement (.post d a q dir) := by
  intro f h; cases h; exact ⟨rfl, rfl⟩
theorem Sys2Proof.Laws.Coding.spawn (d : BitVec 5) (a : BitVec 5) (q : BitVec 2) (dir : BitVec 2) : Sys2Proof.Laws.Coding.Statement (.spawn d a q dir) := by
  intro f h; cases h; exact ⟨rfl, rfl⟩
theorem Sys2Proof.Laws.Coding.qtake (d : BitVec 5) (a : BitVec 5) (q : BitVec 2) : Sys2Proof.Laws.Coding.Statement (.qtake d a q) := by
  intro f h; cases h; exact ⟨rfl, rfl⟩
theorem Sys2Proof.Laws.Coding.ams (d : BitVec 5) (a : BitVec 5) (b : BitVec 5) : Sys2Proof.Laws.Coding.Statement (.ams d a b) := by
  intro f h; cases h; exact ⟨rfl, rfl⟩
theorem Sys2Proof.Laws.Coding.bbind (a : BitVec 5) (n : BitVec 6) : Sys2Proof.Laws.Coding.Statement (.bbind a n) := by
  intro f h; cases h; exact ⟨rfl, rfl⟩
theorem Sys2Proof.Laws.Coding.bunb (n : BitVec 6) : Sys2Proof.Laws.Coding.Statement (.bunb n) := by
  intro f h; cases h; exact ⟨rfl, rfl⟩
theorem Sys2Proof.Laws.Coding.barr (k : BitVec 3) (d : BitVec 5) (n : BitVec 6) : Sys2Proof.Laws.Coding.Statement (.barr k d n) := by
  intro f h; cases h; exact ⟨rfl, rfl⟩
theorem Sys2Proof.Laws.Coding.bwt (a : BitVec 5) (n : BitVec 6) : Sys2Proof.Laws.Coding.Statement (.bwt a n) := by
  intro f h; cases h; exact ⟨rfl, rfl⟩
theorem Sys2Proof.Laws.Coding.dbar (k : BitVec 3) (d : BitVec 5) (n : BitVec 4) : Sys2Proof.Laws.Coding.Statement (.dbar k d n) := by
  intro f h; cases h; exact ⟨rfl, rfl⟩
theorem Sys2Proof.Laws.Coding.dwt (a : BitVec 5) (n : BitVec 4) : Sys2Proof.Laws.Coding.Statement (.dwt a n) := by
  intro f h; cases h; exact ⟨rfl, rfl⟩
theorem Sys2Proof.Laws.Coding.trap (imm : BitVec 10) : Sys2Proof.Laws.Coding.Statement (.trap imm) := by
  intro f h; cases h; exact ⟨rfl, rfl⟩
theorem Sys2Proof.Laws.Coding.tret (e : BitVec 1) : Sys2Proof.Laws.Coding.Statement (.tret e) := by
  intro f h; cases h; exact ⟨rfl, rfl⟩
theorem Sys2Proof.Laws.Coding.sysrd (k : BitVec 3) (d : BitVec 5) (num : BitVec 10) : Sys2Proof.Laws.Coding.Statement (.sysrd k d num) := by
  intro f h; cases h; exact ⟨rfl, rfl⟩
theorem Sys2Proof.Laws.Coding.syswr (a : BitVec 5) (num : BitVec 10) : Sys2Proof.Laws.Coding.Statement (.syswr a num) := by
  intro f h; cases h; exact ⟨rfl, rfl⟩
theorem Sys2Proof.Laws.Coding.brk (imm : BitVec 10) : Sys2Proof.Laws.Coding.Statement (.brk imm) := by
  intro f h; cases h; exact ⟨rfl, rfl⟩
theorem Sys2Proof.Laws.Coding.lmark (imm : BitVec 10) : Sys2Proof.Laws.Coding.Statement (.lmark imm) := by
  intro f h; cases h; exact ⟨rfl, rfl⟩
theorem Sys2Proof.Laws.Coding.ppoint (mask : BitVec 16) : Sys2Proof.Laws.Coding.Statement (.ppoint mask) := by
  intro f h; cases h; exact ⟨rfl, rfl⟩
theorem Sys2Proof.Laws.Coding.idb (a : BitVec 5) (b : BitVec 5) : Sys2Proof.Laws.Coding.Statement (.idb a b) := by
  intro f h; cases h; exact ⟨rfl, rfl⟩
theorem Sys2Proof.Laws.Coding.ide : Sys2Proof.Laws.Coding.Statement .ide := by
  intro f h; cases h; exact ⟨rfl, rfl⟩
theorem Sys2Proof.Laws.Coding.instructionFetch (w : WarpRef) : Sys2Proof.Laws.Coding.Statement (.instructionFetch w) := by
  intro f h; cases h
theorem Sys2Proof.Laws.Coding.runHeader (w : WarpRef) : Sys2Proof.Laws.Coding.Statement (.runHeader w) := by
  intro f h; cases h
theorem Sys2Proof.Laws.Coding.runCommit (w : WarpRef) : Sys2Proof.Laws.Coding.Statement (.runCommit w) := by
  intro f h; cases h
theorem Sys2Proof.Laws.Coding.pendingValueArrival (core : Nat) (id : Nat) : Sys2Proof.Laws.Coding.Statement (.pendingValueArrival core id) := by
  intro f h; cases h
theorem Sys2Proof.Laws.Coding.sfqCompletion (w : WarpRef) (token : Nat) : Sys2Proof.Laws.Coding.Statement (.sfqCompletion w token) := by
  intro f h; cases h
theorem Sys2Proof.Laws.Coding.deposit (core : Nat) (id : Nat) : Sys2Proof.Laws.Coding.Statement (.deposit core id) := by
  intro f h; cases h
theorem Sys2Proof.Laws.Coding.warpCreation (core : Nat) : Sys2Proof.Laws.Coding.Statement (.warpCreation core) := by
  intro f h; cases h
theorem Sys2Proof.Laws.Coding.claimGrant (core : Nat) : Sys2Proof.Laws.Coding.Statement (.claimGrant core) := by
  intro f h; cases h
theorem Sys2Proof.Laws.Coding.activeSetEntry (core : Nat) : Sys2Proof.Laws.Coding.Statement (.activeSetEntry core) := by
  intro f h; cases h
theorem Sys2Proof.Laws.Coding.warpRetirement (w : WarpRef) : Sys2Proof.Laws.Coding.Statement (.warpRetirement w) := by
  intro f h; cases h
theorem Sys2Proof.Laws.Coding.launchEnd (l : Nat) : Sys2Proof.Laws.Coding.Statement (.launchEnd l) := by
  intro f h; cases h
theorem Sys2Proof.Laws.Coding.launchAbort (l : Nat) : Sys2Proof.Laws.Coding.Statement (.launchAbort l) := by
  intro f h; cases h
theorem Sys2Proof.Laws.Coding.deviceBarrierPhase (j : Nat) : Sys2Proof.Laws.Coding.Statement (.deviceBarrierPhase j) := by
  intro f h; cases h
theorem Sys2Proof.Laws.Coding.applyWarpCreation (core : Nat) : Sys2Proof.Laws.Coding.Statement (.applyWarpCreation core) := by
  intro f h; cases h
theorem Sys2Proof.Laws.Coding.watchdogExpiry (w : WarpRef) : Sys2Proof.Laws.Coding.Statement (.watchdogExpiry w) := by
  intro f h; cases h
theorem Sys2Proof.Laws.Coding.claimDeadlock (core : Nat) : Sys2Proof.Laws.Coding.Statement (.claimDeadlock core) := by
  intro f h; cases h
theorem Sys2Proof.Laws.Coding.handlerWarpCreation (core : Nat) (slot : Nat) : Sys2Proof.Laws.Coding.Statement (.handlerWarpCreation core slot) := by
  intro f h; cases h
theorem Sys2Proof.Laws.Coding.l1Eviction (core : Nat) (sector : Nat) : Sys2Proof.Laws.Coding.Statement (.l1Eviction core sector) := by
  intro f h; cases h
theorem Sys2Proof.Laws.Coding.homeAccessPerform (sector : Nat) : Sys2Proof.Laws.Coding.Statement (.homeAccessPerform sector) := by
  intro f h; cases h
theorem Sys2Proof.Laws.Coding.engineCommandStart (core : Nat) (id : Nat) : Sys2Proof.Laws.Coding.Statement (.engineCommandStart core id) := by
  intro f h; cases h
theorem Sys2Proof.Laws.Coding.engineCommandCompletion (core : Nat) (id : Nat) : Sys2Proof.Laws.Coding.Statement (.engineCommandCompletion core id) := by
  intro f h; cases h
theorem Sys2Proof.Laws.Coding.sweepPageFetch (die : Nat) (idx : Nat) : Sys2Proof.Laws.Coding.Statement (.sweepPageFetch die idx) := by
  intro f h; cases h
theorem Sys2Proof.Laws.Coding.pageDelivery (die : Nat) (idx : Nat) : Sys2Proof.Laws.Coding.Statement (.pageDelivery die idx) := by
  intro f h; cases h
theorem Sys2Proof.Laws.Coding.sweepHandlerCreation (core : Nat) : Sys2Proof.Laws.Coding.Statement (.sweepHandlerCreation core) := by
  intro f h; cases h
theorem Sys2Proof.Laws.Coding.cardRead (idx : Nat) : Sys2Proof.Laws.Coding.Statement (.cardRead idx) := by
  intro f h; cases h
theorem Sys2Proof.Laws.Coding.unitPlacement (core : Nat) : Sys2Proof.Laws.Coding.Statement (.unitPlacement core) := by
  intro f h; cases h
theorem Sys2Proof.Laws.Coding.anyQueuePlacement (pick : Nat) : Sys2Proof.Laws.Coding.Statement (.anyQueuePlacement pick) := by
  intro f h; cases h
theorem Sys2Proof.Laws.Coding.argkMemberStart (l : Nat) (w : WarpRef) : Sys2Proof.Laws.Coding.Statement (.argkMemberStart l w) := by
  intro f h; cases h
theorem Sys2Proof.Laws.Coding.amsArrival (core : Nat) : Sys2Proof.Laws.Coding.Statement (.amsArrival core) := by
  intro f h; cases h
theorem Sys2Proof.Laws.Coding.preemptionRequest (core : Nat) (l : Nat) : Sys2Proof.Laws.Coding.Statement (.preemptionRequest core l) := by
  intro f h; cases h
theorem Sys2Proof.Laws.Coding.warpStop (w : WarpRef) : Sys2Proof.Laws.Coding.Statement (.warpStop w) := by
  intro f h; cases h
theorem Sys2Proof.Laws.Coding.ptimeExpiry (core : Nat) (l : Nat) : Sys2Proof.Laws.Coding.Statement (.ptimeExpiry core l) := by
  intro f h; cases h
theorem Sys2Proof.Laws.Coding.contextSave (core : Nat) (l : Nat) : Sys2Proof.Laws.Coding.Statement (.contextSave core l) := by
  intro f h; cases h
theorem Sys2Proof.Laws.Coding.contextResume (core : Nat) (l : Nat) : Sys2Proof.Laws.Coding.Statement (.contextResume core l) := by
  intro f h; cases h
theorem Sys2Proof.Laws.Coding.uncorrectableDataError (core : Nat) (id : Nat) : Sys2Proof.Laws.Coding.Statement (.uncorrectableDataError core id) := by
  intro f h; cases h
theorem Sys2Proof.Laws.Coding.schedulingStateError (tenant : Nat) (card : Nat) : Sys2Proof.Laws.Coding.Statement (.schedulingStateError tenant card) := by
  intro f h; cases h
theorem Sys2Proof.Laws.Coding.enable (v : Word) : Sys2Proof.Laws.Coding.Statement (.enable v) := by
  intro f h; cases h
theorem Sys2Proof.Laws.Coding.drain (core : Nat) : Sys2Proof.Laws.Coding.Statement (.drain core) := by
  intro f h; cases h
theorem Sys2Proof.Laws.Coding.unfence (core : Nat) : Sys2Proof.Laws.Coding.Statement (.unfence core) := by
  intro f h; cases h
theorem Sys2Proof.Laws.Coding.retire (pa : Nat) : Sys2Proof.Laws.Coding.Statement (.retire pa) := by
  intro f h; cases h
theorem Sys2Proof.Laws.Coding.recal (port : Nat) : Sys2Proof.Laws.Coding.Statement (.recal port) := by
  intro f h; cases h
theorem Sys2Proof.Laws.Coding.reload (cc : Nat) : Sys2Proof.Laws.Coding.Statement (.reload cc) := by
  intro f h; cases h
theorem Sys2Proof.Laws.Coding.serviceCommandDone : Sys2Proof.Laws.Coding.Statement .serviceCommandDone := by
  intro f h; cases h
theorem Sys2Proof.Laws.Coding.mailboxGo (v : Word) : Sys2Proof.Laws.Coding.Statement (.mailboxGo v) := by
  intro f h; cases h
theorem Sys2Proof.Laws.Coding.powerUp : Sys2Proof.Laws.Coding.Statement .powerUp := by
  intro f h; cases h
theorem Sys2Proof.Laws.Coding.imageArrival (mbx : Bool) (ed : Bool) (ml : Bool) (hash : (BitVec 384)) : Sys2Proof.Laws.Coding.Statement (.imageArrival mbx ed ml hash) := by
  intro f h; cases h
theorem Sys2Proof.Laws.Coding.coreStart (core : Nat) : Sys2Proof.Laws.Coding.Statement (.coreStart core) := by
  intro f h; cases h
theorem Sys2Proof.Laws.Coding.fresolve (tenant : Nat) (v : Word) : Sys2Proof.Laws.Coding.Statement (.fresolve tenant v) := by
  intro f h; cases h
theorem Sys2Proof.Laws.Coding.tlbinvPage (tenant : Nat) (v : Word) : Sys2Proof.Laws.Coding.Statement (.tlbinvPage tenant v) := by
  intro f h; cases h
theorem Sys2Proof.Laws.Coding.tlbinvAll (tenant : Nat) (v : Word) : Sys2Proof.Laws.Coding.Statement (.tlbinvAll tenant v) := by
  intro f h; cases h
theorem Sys2Proof.Laws.Coding.tlbInvalidationDone (tenant : Nat) : Sys2Proof.Laws.Coding.Statement (.tlbInvalidationDone tenant) := by
  intro f h; cases h
theorem Sys2Proof.Laws.Coding.hostPost (tenant : Nat) (card : Word) : Sys2Proof.Laws.Coding.Statement (.hostPost tenant card) := by
  intro f h; cases h
theorem Sys2Proof.Laws.Coding.preemptCore (tenant : Nat) (core : Nat) : Sys2Proof.Laws.Coding.Statement (.preemptCore tenant core) := by
  intro f h; cases h
theorem Sys2Proof.Laws.Coding.preemptAll (tenant : Nat) : Sys2Proof.Laws.Coding.Statement (.preemptAll tenant) := by
  intro f h; cases h
theorem Sys2Proof.Laws.Coding.fqctlWrite (tenant : Nat) (v : Word) : Sys2Proof.Laws.Coding.Statement (.fqctlWrite tenant v) := by
  intro f h; cases h
theorem Sys2Proof.Laws.Coding.registerWrite (fn : Nat) (offset : Nat) (v : Word) : Sys2Proof.Laws.Coding.Statement (.registerWrite fn offset v) := by
  intro f h; cases h
theorem Sys2Proof.Laws.Coding.bar2Write (pa : Nat) (bytes : (List Byte)) : Sys2Proof.Laws.Coding.Statement (.bar2Write pa bytes) := by
  intro f h; cases h
theorem Sys2Proof.Laws.Coding.linkFlitReceive (port : Nat) (seq : (BitVec 12)) (payload : (BitVec 256)) (crc : Bool) (bad : Bool) : Sys2Proof.Laws.Coding.Statement (.linkFlitReceive port seq payload crc bad) := by
  intro f h; cases h
theorem Sys2Proof.Laws.Coding.endToEndResend (dst : Nat) (num : Nat) : Sys2Proof.Laws.Coding.Statement (.endToEndResend dst num) := by
  intro f h; cases h
theorem Sys2Proof.Laws.Coding.remoteSyncArrival (src : Nat) (num : Nat) (acc : RemoteSync) : Sys2Proof.Laws.Coding.Statement (.remoteSyncArrival src num acc) := by
  intro f h; cases h
theorem Sys2Proof.Laws.Coding.fabricResponseTimeout (core : Nat) (id : Nat) : Sys2Proof.Laws.Coding.Statement (.fabricResponseTimeout core id) := by
  intro f h; cases h
theorem Sys2Proof.Laws.Coding.powerOverLimit : Sys2Proof.Laws.Coding.Statement .powerOverLimit := by
  intro f h; cases h
theorem Sys2Proof.Laws.Coding.thermalThrottle : Sys2Proof.Laws.Coding.Statement .thermalThrottle := by
  intro f h; cases h
theorem Sys2Proof.Laws.Coding.thermalHalt : Sys2Proof.Laws.Coding.Statement .thermalHalt := by
  intro f h; cases h
theorem Sys2Proof.Laws.Coding.icinvCompletion (w : WarpRef) : Sys2Proof.Laws.Coding.Statement (.icinvCompletion w) := by
  intro f h; cases h
theorem Sys2Proof.Laws.Coding.acknowledgementReturn (core : Nat) (id : Nat) : Sys2Proof.Laws.Coding.Statement (.acknowledgementReturn core id) := by
  intro f h; cases h
theorem Sys2Proof.Laws.Coding.spdmRequest : Sys2Proof.Laws.Coding.Statement .spdmRequest := by
  intro f h; cases h
theorem Sys2Proof.Laws.Coding.hostLinkTraining (rate : Nat) (width : Nat) : Sys2Proof.Laws.Coding.Statement (.hostLinkTraining rate width) := by
  intro f h; cases h
end

