-- ==== Sys2Proof/Tests/Slice0.lean ====
section
/-!
SUPPORT. The model's own tests: ill-formed terms that WellFormed refuses, words written out from the spec's encodings,
small single steps whose results are computed by hand from the spec's rules, and a witness of the hypotheses of each
statement of Certificates/Slice0.
-/

-- One test after another: the tests together would else hold more threads than the check allows.
set_option Elab.async false

namespace Sys2Proof.Tests

open Sys2Proof Sys2Proof.Machine

/-! ### Ill-formed terms -/

/-- Every check of WellFormed refuses a term: fields of encoded instructions, and what events name. -/
theorem test_ill_formed_events : ([
    .trail 0#1 1#3 0#16, .instructionFetch { core := 144, slot := 0, hnd := false },
    .runHeader { core := 0, slot := 64, hnd := false }, .runCommit { core := 200, slot := 0, hnd := false },
    .warpRetirement { core := 144, slot := 0, hnd := false }, .watchdogExpiry { core := 144, slot := 0, hnd := true },
    .warpStop { core := 0, slot := 64, hnd := false }, .icinvCompletion { core := 144, slot := 1, hnd := false },
    .sfqCompletion { core := 0, slot := 0, hnd := false } 16, .argkMemberStart 0 { core := 144, slot := 0, hnd := false },
    .pendingValueArrival 144 0, .deposit 144 0, .warpCreation 144, .claimGrant 144, .activeSetEntry 144,
    .applyWarpCreation 144, .claimDeadlock 144, .l1Eviction 144 0, .engineCommandStart 144 0,
    .engineCommandCompletion 144 0, .sweepHandlerCreation 144, .unitPlacement 144, .amsArrival 144,
    .preemptionRequest 144 0, .ptimeExpiry 144 0, .contextSave 144 0, .contextResume 144 0,
    .uncorrectableDataError 144 0, .drain 144, .unfence 144, .coreStart 144, .fabricResponseTimeout 144 0,
    .acknowledgementReturn 144 0, .handlerWarpCreation 0 64, .deviceBarrierPhase 16, .sweepPageFetch 4 0,
    .pageDelivery 4 0, .schedulingStateError 16 0, .fresolve 16 0#64, .tlbinvPage 16 0#64, .tlbinvAll 16 0#64,
    .tlbInvalidationDone 16, .hostPost 16 0#64, .preemptAll 16, .fqctlWrite 16 0#64, .preemptCore 0 144,
    .registerWrite 17 0 0#64, .registerWrite 0 4 0#64, .registerWrite 0 65536 0#64, .reload 4, .recal 72,
    .linkFlitReceive 72 0#12 0#256 true false] : List Instr).all (fun i => !i.WellFormed) = true := by decide +kernel

/-- Three operands of an instruction on lanes. -/
def ops (d a b x : BitVec 5) : Opnds := { k := 0#3, d := d, a := a, b := b, x := x }

/-- Fields that an entry refuses (R80): reserved codes, reserved registers, ranges. -/
theorem test_ill_formed_instructions : ([
    .cmp (ops 16#5 1#5 2#5 0#5) 0#3 6#3, .brx 0#3 30#5 0#5, .ret 0#3 31#5 0#5, .loop 0#3 16#5 0#16,
    .icinv 30#5 0#5 0#5 0#2, .claim 0#16, .claim 16#16, .give 0#16, .ktestInt 0#3 0#5 0#5 0#5 0#3 0#3 0#1 1#3,
    .ktestInt 0#3 2#5 0#5 0#5 0#3 0#3 0#1 2#3, .ktestInt 0#3 2#5 0#5 0#5 0#3 6#3 0#1 1#3,
    .ktestFloat 0#3 2#5 0#5 0#5 0#2 7#3 0#1 0#1 1#3, .kand 0#5 1#5 1#5, .kand 1#5 8#5 1#5, .kcount 0#3 30#5 1#5,
    .kfirst 0#3 1#5 8#5 0#5 0#5, .kmakeV 0#5 0#5, .kmakeM 8#5 0#5, .kself 0#5, .kld 0#5 0#5 0#5 0#5, .kst 8#5 0#5 0#5 0#5,
    .kmerge 8#5 0#5, .kfree 8#5, .kqpush 30#5 0#5 1#5, .kqpop 30#5 0#5, .gmake 0#3 0#5, .join 0#3 8#5, .leave 0#3 8#5,
    .gdis 8#5, .add (ops 30#5 1#5 2#5 0#5) 4#3 0#1, .sel (ops 16#5 30#5 2#5 0#5), .clz 0#3 30#5 1#5 0#3,
    .abs 0#3 16#5 1#5 3#3 0#1, .ext 0#3 16#5 1#5 0#1 63#6 1#6, .ins 0#3 16#5 1#5 32#6 32#6, .movi 0#3 31#5 0#16,
    .movh 0#3 16#5 29#5 0#16, .icvt 0#3 16#5 1#5 0#3 0#3 0#1 1#3,
    .fadd (ops 16#5 1#5 2#5 0#5) 0#2 7#3 0#1, .fma (ops 16#5 30#5 2#5 3#5) 0#2 0#3 0#1, .fdot2 (ops 16#5 1#5 2#5 3#5) 0#2 0#3 0#1,
    .fsgn (ops 16#5 1#5 2#5 0#5) 8#4 0#2, .fsgn (ops 16#5 1#5 2#5 0#5) 2#4 3#2, .frnd 0#3 16#5 1#5 0#2 7#3 0#1,
    .fcvt 0#3 16#5 1#5 8#4 9#4 0#3 0#1 0#4, .fcvt 0#3 16#5 1#5 0#4 2#4 0#3 0#1 0#4, .xperm (ops 16#5 1#5 2#5 0#5) 4#3 0#4,
    .xshf (ops 16#5 1#5 2#5 0#5) 6#3 0#2 0#4, .xbc (ops 16#5 1#5 2#5 0#5) 7#3 0#4, .xbal 0#3 16#5 1#5 2#3 0#4,
    .xtopk 0#3 16#5 1#5 2#5 7#4 0#1 0#5 0#4, .sfq 0#3 16#5 1#5 2#5 1#2 0#4 0#1, .sfq 0#3 1#5 1#5 2#5 1#2 12#4 0#1,
    .sfp 0#3 30#5] : List Instr).all (fun i => !i.WellFormed) = true := by decide +kernel

/-- The same of memory, engine, task and system instructions. -/
theorem test_ill_formed_units : ([
    .ld (ops 16#5 1#5 2#5 0#5) 0#3 2#2 0#4, .ld (ops 30#5 1#5 2#5 0#5) 0#3 0#2 0#4,
    .st (ops 1#5 1#5 2#5 0#5) 4#3 0#2, .ldn (ops 30#5 1#5 2#5 0#5) 0#3 0#4, .stn (ops 1#5 1#5 2#5 0#5) 4#3,
    .ldt (ops 30#5 1#5 2#5 0#5) 0#1 0#3 0#1 0#1 0#4, .stt (ops 1#5 1#5 2#5 0#5) 0#1 7#3 0#1 0#1, .pref 0#3 30#5 1#5 0#5 0#1,
    .atomAdd (ops 16#5 1#5 2#5 0#5) 1#3 0#1, .atomCas (ops 16#5 1#5 2#5 3#5) 7#3 0#1, .rwr 0#3 30#5 1#5 0#5,
    .awt 30#5 1#5 0#5 0#2 0#1 0#1, .bind 29#5 1#5 2#5, .unbind 1#5 29#5 2#5, .acq 0#3 16#5 1#5 7#3 0#4, .rel 0#3 1#5 7#3,
    .fence 7#3, .publish 30#5, .fread 0#3 16#5 1#5 1#3 0#4, .ffill 0#3 1#5 2#5 0#5 7#3, .fclr 0#3 1#5 0#5 1#3,
    .cpy 0#3 0#5 1#5 3#5 0#6 0#2, .cpy 0#3 0#5 1#5 2#5 0#6 3#2, .cpym 0#3 0#5 1#5 2#5 0#6 0#4, .tffr 0#3 30#5 1#5,
    .mloop 0#3 1#5 0#4 0#1 0#1 0#1 0#3, .mloop 0#3 4#5 0#4 0#1 0#1 0#1 7#3, .mloop 0#3 4#5 0#4 0#1 0#1 1#1 4#3,
    .mrdN 0#3 16#5 0#4 0#1 0#1, .mwrN 0#3 16#5 0#4, .mrdW 0#3 3#5 1#5 0#4 0#1 0#4, .mwrW 0#3 4#5 16#5 0#4, .lacfg 0#3 16#5,
    .laseed 0#3 16#5 1#5, .lafb 0#3 1#5 16#5 0#1, .lainfN 0#3 16#5 1#5 2#5 0#1, .lardN 0#3 1#5 16#5 2#5 0#1 0#1,
    .lawrN 0#3 1#5 2#5 16#5, .lainfW 0#3 2#5 1#5 0#1 0#4, .lardW 0#3 4#5 16#5 0#1 0#4, .lawrW 0#3 1#5 1#5, .swsub 0#3 1#5 1#5,
    .swleave 0#3 16#5, .swgo 0#3 16#5 0#4 0#1, .swrd 0#3 1#5 2#5 3#2, .swmerge 0#3 1#5 2#5 16#5, .swwait 16#5,
    .post 16#5 1#5 3#2 0#2, .post 16#5 1#5 0#2 1#2, .spawn 30#5 1#5 0#2 0#2, .qtake 16#5 1#5 1#2, .ams 4#5 1#5 2#5,
    .bbind 8#5 0#6, .bbind 1#5 48#6, .bunb 48#6, .barr 0#3 16#5 48#6, .bwt 1#5 48#6, .bwt 29#5 0#6, .dbar 0#3 30#5 0#4, .dwt 29#5 0#4,
    .sysrd 0#3 16#5 12#10, .syswr 1#5 12#10, .syswr 29#5 0#10, .idb 30#5 1#5] : List Instr).all (fun i => !i.WellFormed)
      = true := by decide +kernel

/-! ### Words written out from the spec's encoding tables -/

/-- Whether a word and its extension decode to an instruction, without the chain bit. -/
def reads (e : Nat × Nat × Instr) : Bool :=
  decodeSlot (BitVec.ofNat 32 e.1) (BitVec.ofNat 10 e.2.1) == .ok { chain := false, instr := e.2.2 }

/-- Run, control and pool instructions (R71): OP 31:24, k 23:21, d 20:16, a 15:11, the offset's low bits in 10:0 and its high
bits in the extension. -/
theorem test_decode_control : ([
    (0x080007FF, 0x3E0, .loop 0#3 0#5 0xFFFF#16), (0x09000000, 0, .exit 0#3), (0x01000001, 0, .trail 0#1 0#3 1#16),
    (0x0C000007, 0, .claim 7#16), (0x0D000007, 0, .give 7#16)] : List (Nat × Nat × Instr)).all reads = true := by decide +kernel

/-- Sets, groups and applies (R218). -/
theorem test_decode_sets : ([
    (0x10028619, 0x060, .ktestInt 0#3 2#5 16#5 24#5 3#3 1#3 0#1 3#3), (0x18400400, 0, .applyS 2#3 4#18),
    (0x1A000000, 0, .enda)] : List (Nat × Nat × Instr)).all reads = true := by decide +kernel

/-- Integer instructions (R158): `and t0,w1,#1`, `mul.i32 w2,w1,#3`, `shr.n64 t1,t0,tid`. -/
theorem test_decode_integer : ([
    (0x22100F40, 0x020, .and (ops 16#5 1#5 29#5 1#5)), (0x21020F70, 0x060, .mul (ops 2#5 1#5 29#5 3#5) 6#3 0#1),
    (0x23118699, 0, .shr (ops 17#5 16#5 26#5 0#5) 3#3)] : List (Nat × Nat × Instr)).all reads = true := by decide +kernel

/-- Float instructions and the special-function queue (R158, R183). -/
theorem test_decode_float : ([
    (0x38031090, 0, .fadd (ops 3#5 2#5 2#5 0#5) 1#2 0#3 0#1), (0x50020C10, 0, .sfq 0#3 2#5 1#5 16#5 1#2 0#4 0#1),
    (0x51000001, 0, .sfw 1#16)] : List (Nat × Nat × Instr)).all reads = true := by decide +kernel

/-- Memory instructions (R129). -/
theorem test_decode_memory : ([
    (0x54031618, 0, .ld (ops 3#5 2#5 24#5 0#5) 3#3 0#2 0#4), (0x55042E18, 0, .st (ops 4#5 5#5 24#5 0#5) 3#3 0#2),
    (0x5B058F6A, 0x040, .atomBinc (ops 5#5 17#5 29#5 2#5) 5#3 0#1),
    (0x5D9804AD, 0, .atomOr { k := 4#3, d := 24#5, a := 0#5, b := 18#5, x := 0#5 } 5#3 1#1),
    (0x5E0008C0, 0, .rwr 0#3 1#5 3#5 0#5), (0x5F180740, 0x020, .awt 24#5 29#5 1#5 0#2 0#1 0#1),
    (0x5F0200CC, 0, .awt 2#5 3#5 0#5 0#2 1#1 1#1)] : List (Nat × Nat × Instr)).all reads = true := by decide +kernel

/-- Copy and matrix commands (R241). -/
theorem test_decode_engine : ([
    (0x68000880, 0, .cpy 0#3 0#5 1#5 2#5 0#6 0#2), (0x6C080000, 0x080, .mloop 0#3 8#5 0#4 0#1 0#1 0#1 4#3),
    (0x6D000000, 0, .mzero 0#3 0#4), (0x6E0C0000, 0, .mrdN 0#3 12#5 0#4 0#1 0#1)] : List (Nat × Nat × Instr)).all reads
      = true := by decide +kernel

/-- Automaton commands (R279). -/
theorem test_decode_automaton : ([
    (0x70000800, 0, .lacfg 0#3 1#5), (0x70002981, 0, .laseed 0#3 5#5 6#5), (0x720010C1, 0, .lafb 0#3 2#5 3#5 1#1),
    (0x71041001, 0, .lainfW 0#3 4#5 2#5 0#1 0#4), (0x710D3B82, 0, .lainfN 0#3 13#5 7#5 14#5 1#1),
    (0x73084A8C, 0, .lardN 0#3 8#5 9#5 10#5 1#1 1#1)] : List (Nat × Nat × Instr)).all reads = true := by decide +kernel

/-- Sweep commands (R291). -/
theorem test_decode_sweep : ([
    (0x74080000, 0, .swsub 0#3 8#5 0#5), (0x74004001, 0, .swleave 0#3 8#5), (0x7500500E, 0, .swgo 0#3 10#5 3#4 1#1),
    (0x750C4001, 0, .swrd 0#3 12#5 8#5 0#2), (0x76030040, 0, .swmerge 0#3 3#5 0#5 1#5), (0x77004000, 0, .swwait 8#5)]
      : List (Nat × Nat × Instr)).all reads = true := by decide +kernel

/-- Tasks and barriers (R322). -/
theorem test_decode_tasks : ([
    (0x78020820, 0, .post 2#5 1#5 2#2 0#2), (0x78020819, 0, .spawn 2#5 1#5 1#2 2#2), (0x78032002, 0, .qtake 3#5 4#5 0#2),
    (0x79080880, 0, .ams 8#5 1#5 2#5), (0x7A000807, 0, .bbind 1#5 7#6), (0x7B430007, 0, .barr 2#3 3#5 7#6),
    (0x7B001807, 0x200, .bwt 3#5 7#6), (0x7C030002, 0, .dbar 0#3 3#5 2#4), (0x7C001802, 0x200, .dwt 3#5 2#4)]
      : List (Nat × Nat × Instr)).all reads = true := by decide +kernel

/-- Traps and system registers (R350). -/
theorem test_decode_system : ([
    (0x7E000140, 0, .trap 5#10), (0x7E000801, 0, .tret 1#1), (0x7E030002, 0x020, .sysrd 0#3 3#5 1#10),
    (0x7E002003, 0x160, .syswr 4#5 11#10), (0x7E000044, 0, .brk 1#10), (0x7E000085, 0, .lmark 2#10),
    (0x7E000046, 0x020, .ppoint 3#16), (0x7E000887, 0, .idb 1#5 2#5), (0x7E000008, 0, .ide)]
      : List (Nat × Nat × Instr)).all reads = true := by decide +kernel

/-- Reserved operation codes and bits that must be zero are refused by name (R46, R80). -/
theorem test_decode_refuses : decodeSlot 0x0E000000#32 0#10 = .error .reservedOp ∧
    decodeSlot 0x00000001#32 0#10 = .error .mustBeZero := by decide +kernel

/-- The words of the table's numbering: the first byte of a slot is its lowest (R41). -/
theorem test_decode_table_word : decodeTableWord 32 0x09000000 = some (.exit 0#3) ∧
    decodeTableWord 32 0x1A000000 = some .enda ∧ decodeTableWord 32 0x0E000000 = none := by decide +kernel

/-! ### Small states -/

/-- The warp that the tests put in focus: slot 0 of core 0. -/
def w0 : WarpRef := { core := 0, slot := 0, hnd := false }

/-- A device with one warp of 32 threads at position 1 of a run, in focus. -/
def posed : State := { State.reset.placeSlot 0#32 with focus := some w0 }

def onWarp (f : Warp → Warp) (s : State) : State := s.modWarp w0 f
def onRun (f : Run → Run) (s : State) : State := s.modRun w0 f
def onCore (f : Core → Core) (s : State) : State := s.modCore 0 f
def onDev (f : Device → Device) (s : State) : State := s.modDev f
def onLaunch (f : Launch → Launch) (s : State) : State :=
  { s with launches := s.launches.map fun e => (e.1, f e.2) }

/-- A value in lane 0 of a window slot or temporary. -/
def lane0 (d : Nat) (v : Word) : State → State := onRun fun r => { r with win := Tab.set 0#64 r.win (32 * d) v }

/-- A set register of the warp. -/
def kreg (k : Nat) (v : Word) : State → State := onWarp fun p => { p with k := Tab.set 0#64 p.k k v }

/-- The same device with lane 0 alone in k0. -/
def solo : State := kreg 0 (localValue 0 1#32) posed

/-- A value of a read on its way to a destination. -/
def comes (dest : Dest) (count : Nat) (arrived : Bool) : Pend :=
  { id := 7, dest := dest, vals := [(0, 5#64)], count := count, arrived := arrived, poison := false, pos := 1 }

/-- The same with `t0` awaited. -/
def waiting : State := onRun (fun r => { r with pend := [comes (.win 16#5 1) 0 false] }) posed

/-- A tenant whose first GiB is mapped to itself, readable, writable and executable, as raw bytes. -/
def mapped (s : State) : State :=
  ((s.writeWord 0x10000 0x20001#64).writeWord 0x20000 0x3D#64).modTenant 0 fun t => { t with
    troot := 0x10001#64, winlim := List.replicate 4 0x000FFFFFFFE00000#64 }

/-- Whether an instruction sees a context of which something holds. -/
def seen (s : State) (i : Instr) (q : Ctx → Bool) : Bool :=
  match s.sees i with
  | some c => q c
  | none => false

/-- `Ctx.ready` as a Bool. -/
def rdy (c : Ctx) (k : BitVec 3) (codes : List (BitVec 5)) : Bool := !c.busyK k.toNat && !c.busy codes

/-- Whether an instruction on lanes sees live lanes and waits for nothing. -/
def goesOnLanes (s : State) (i : Instr) : Bool :=
  match laneForm i with
  | some (k, d, uses, _) => seen s i fun c => c.mask k == some 0xFFFFFFFF#32 && rdy c k (d :: uses)
  | none => false

/-! ### Witnesses: instructions on lanes -/

theorem test_witness_IntegerArithmeticElements : ([
    .add (ops 16#5 1#5 2#5 3#5) 7#3 1#1, .sub (ops 16#5 1#5 2#5 3#5) 0#3 0#1, .mul (ops 16#5 1#5 2#5 3#5) 7#3 1#1,
    .min (ops 24#5 1#5 2#5 3#5) 0#3, .max (ops 16#5 1#5 29#5 31#5) 7#3, .mulhi (ops 16#5 1#5 2#5 3#5) 3#3,
    .mad (ops 16#5 1#5 2#5 3#5) 7#3 1#1] : List Instr).all (goesOnLanes posed) = true := by decide +kernel

theorem test_witness_ShiftAndBitCountElements : ([
    .shl (ops 16#5 1#5 2#5 0#5) 0#3, .shr (ops 16#5 1#5 2#5 0#5) 7#3, .sar (ops 16#5 1#5 2#5 0#5) 7#3,
    .rot (ops 24#5 1#5 2#5 0#5) 3#3, .clz 0#3 16#5 1#5 0#3, .ctz 0#3 16#5 1#5 7#3, .popc 0#3 24#5 1#5 3#3,
    .brev 0#3 16#5 1#5 0#3] : List Instr).all (goesOnLanes posed) = true := by decide +kernel

theorem test_witness_CompareAndSignElements : ([
    .cmp (ops 16#5 1#5 2#5 0#5) 0#3 0#3, .cmp (ops 24#5 1#5 29#5 16#5) 7#3 5#3, .abs 0#3 16#5 1#5 4#3 1#1,
    .neg 0#3 16#5 1#5 0#3 0#1] : List Instr).all (goesOnLanes posed) = true := by decide +kernel

theorem test_witness_BitwiseAndFieldResults : ([
    .ext 0#3 16#5 1#5 0#1 63#6 0#6, .ext 0#3 16#5 1#5 1#1 0#6 63#6, .ins 0#3 16#5 1#5 31#6 32#6, .movi 0#3 24#5 0x8000#16,
    .movh 0#3 16#5 1#5 0xFFFF#16, .addi 0#3 16#5 1#5 0xFFFF#16, .and (ops 16#5 1#5 2#5 0#5), .or (ops 16#5 1#5 2#5 0#5),
    .xor (ops 16#5 1#5 2#5 0#5), .andn (ops 16#5 1#5 2#5 0#5), .sel (ops 16#5 1#5 2#5 3#5), .lea (ops 16#5 1#5 2#5 0#5) 7#3]
      : List Instr).all (goesOnLanes posed) = true := by decide +kernel

theorem test_witness_IntegerConversionElements : ([
    .icvt 0#3 16#5 1#5 0#3 7#3 1#1 0#3, .icvt 0#3 16#5 1#5 7#3 0#3 0#1 7#3, .icvt 0#3 16#5 1#5 3#3 7#3 1#1 0#3]
      : List Instr).all (goesOnLanes posed) = true := by decide +kernel

theorem test_witness_LaneInstructionsStallOrTrap :
    seen waiting (.add (ops 16#5 1#5 2#5 3#5) 0#3 0#1) (fun c => !rdy c 0#3 [16#5, 1#5, 2#5]) = true ∧
    seen (kreg 1 (localValue 1 1#32) posed) (.clz 1#3 16#5 1#5 0#3) (fun c => rdy c 1#3 [16#5, 1#5] && c.mask 1#3 == none)
      = true := by decide +kernel

theorem test_witness_LaneInstructionFrame :
    goesOnLanes posed (.add (ops 16#5 1#5 2#5 3#5) 0#3 0#1) = true ∧ goesOnLanes posed (.xbal 0#3 16#5 1#5 0#3 0#4) = true ∧
    seen posed (.add { k := 1#3, d := 16#5, a := 1#5, b := 2#5, x := 0#5 } 0#3 0#1) (fun c => c.mask 1#3 == some 0#32)
      = true := by decide +kernel

theorem test_witness_RefusedFieldsTrap :
    (isEncoded (.claim 0#16) && (posed.ctx? w0).isSome && !(Instr.legal (.claim 0#16))) = true ∧
    engineSet (.mzero 1#3 0#4) = some 1#3 ∧ seen posed (.mzero 1#3 0#4) (fun _ => true) = true := by decide +kernel

theorem test_witness_FloatArithmeticResults : ([
    .fadd (ops 16#5 1#5 2#5 3#5) 0#2 0#3 0#1, .fsub (ops 16#5 1#5 2#5 3#5) 3#2 4#3 1#1, .fmul (ops 16#5 1#5 29#5 3#5) 1#2 3#3 0#1,
    .fscl (ops 16#5 1#5 29#5 16#5) 1#2 0#3 0#1, .fma (ops 16#5 1#5 2#5 3#5) 0#2 4#3 1#1, .fnma (ops 24#5 1#5 2#5 3#5) 3#2 0#3 0#1]
      : List Instr).all (goesOnLanes posed) = true := by decide +kernel

theorem test_witness_FloatSelectionAndConversionResults : ([
    .fmin (ops 16#5 1#5 2#5 3#5) 0#2 0#1, .fmax (ops 16#5 1#5 2#5 3#5) 3#2 1#1, .fdot2 (ops 16#5 1#5 2#5 3#5) 2#2 0#3 0#1,
    .fsgn (ops 16#5 1#5 2#5 0#5) 7#4 2#2, .fsgn (ops 16#5 1#5 0#5 0#5) 1#4 0#2, .frnd 0#3 16#5 1#5 0#2 4#3 0#1,
    .fcvt 0#3 16#5 1#5 2#4 7#4 0#3 0#1 0#4, .fcvt 0#3 16#5 1#5 1#4 5#4 4#3 1#1 7#4] : List Instr).all (goesOnLanes posed)
      = true := by decide +kernel

theorem test_witness_CrossLaneMoveResults : ([
    .xperm (ops 16#5 1#5 2#5 3#5) 0#3 0#4, .xbc (ops 16#5 1#5 2#5 3#5) 5#3 15#4, .xshf (ops 16#5 1#5 2#5 3#5) 0#3 3#2 0#4,
    .xbal 0#3 16#5 1#5 1#3 15#4] : List Instr).all (goesOnLanes posed) = true := by decide +kernel

theorem test_witness_CrossLaneReductionResults : ([
    .xred 0#3 16#5 1#5 0#4 0#2 0#3 0#1 0#4, .xscan 0#3 16#5 1#5 0#4 0#2 0#3 0#1 1#1 15#4,
    .xtopk 0#3 16#5 1#5 2#5 0#4 1#1 31#5 0#4, .xtopk 0#3 16#5 1#5 2#5 0#4 0#1 0#5 0#4] : List Instr).all (goesOnLanes posed)
      = true := by decide +kernel

theorem test_witness_SpecialFunctionQueueResults :
    seen posed (.sfq 0#3 1#5 2#5 16#5 1#2 0#4 0#1) (fun c => (c.mask 0#3).isSome && rdy c 0#3 [2#5, 16#5]
      && c.r.regOf 1 < 8 * c.own.g && c.freeToken == some 0 && c.r.sfq == [] && c.p.marks == []) = true ∧
    seen posed (.sfw 0xFFFF#16) (fun c => c.p.sfq == []) = true ∧ goesOnLanes posed (.sfp 0#3 16#5) = true := by decide +kernel

/-! ### Witnesses: control, sets and groups -/

/-- The number of the launch that the tests place. -/
def l0 : Nat := State.reset.dev.nextLaunch

/-- Entry 0 of the set store holds a group of lanes 0 and 1 of the warp, k1 its value, and named barrier 47 is bound to it. -/
def grouped (s : State) : State := kreg 1 (groupValue (groupId 0 0 0#8)) (onCore (fun k => { k with
  store := listChange k.store 0 fun x => { x with holder := some l0, bits := 3#2048, group := some (0, 0) }
  barriers := listChange k.barriers 47 fun b => { b with gid := some (groupId 0 0 0#8) } }) s)

theorem test_witness_ControlInstructionsStageTransfers :
    ([.bra 0x2000000#26, .bre 0#3 1#26, .brn 0#3 0x1FFFFFF#26, .exit 0#3, .brx 0#3 0#5 0#5, .ret 0#3 24#5 0#5, .call 0#3 1#26,
      .loop 0#3 0#5 0x8000#16] : List Instr).all (fun i => seen posed i fun c =>
        c.mask 0#3 == some 0xFFFFFFFF#32 && rdy c 0#3 [0#5, 15#5, 24#5] && !c.w.hnd
          && bitsOf (c.low 0xFFFFFFFF#32 0#5 0#5) 3 0 == 0) = true ∧
    seen posed (.brx 1#3 0#5 0#5) (fun c => c.mask 1#3 == some 0#32 && rdy c 1#3 [0#5]) = true := by decide +kernel

theorem test_witness_RunAndPoolInstructionsComplete :
    ([.nop, .yield, .icinv 0#5 1#5 0#5 3#2, .give 7#16] : List Instr).all (fun i => seen posed i fun c =>
      rdy c 0#3 [0#5, 1#5] && decide (7 < c.own.g)) = true ∧
    seen (onWarp (fun p => { p with claim := some { n := 8, since := 0, granted := true } }) posed) (.claim 8#16) (fun c =>
      decide (c.own.g + 8 ≤ 16) && c.p.claim == some { n := 8, since := 0, granted := true }) = true := by decide +kernel

theorem test_witness_BranchAndPoolTraps :
    ([.brx 0#3 0#5 0#5, .ret 0#3 0#5 0#5] : List Instr).all (fun i => seen (lane0 0 8#64 posed) i fun c =>
      c.mask 0#3 == some 0xFFFFFFFF#32 && rdy c 0#3 [0#5] && bitsOf (c.low 0xFFFFFFFF#32 0#5 0#5) 3 0 == 8) = true ∧
    seen posed (.claim 9#16) (fun c => decide (16 < c.own.g + 9)) = true ∧
    seen posed (.give 8#16) (fun c => decide (c.own.g ≤ 8)) = true ∧
    seen posed (.claim 8#16) (fun c => decide (c.own.g + 8 ≤ 16) && c.p.claim == none) = true := by decide +kernel

theorem test_witness_TestsSplitTheirLanes : ([
    .ktestInt 0#3 1#5 0#5 1#5 0#3 0#3 0#1 2#3, .ktestInt 0#3 7#5 0#5 1#5 7#3 5#3 1#1 2#3,
    .ktestFloat 0#3 1#5 0#5 1#5 0#2 0#3 0#1 1#1 7#3, .ktestFloat 0#3 1#5 0#5 1#5 3#2 6#3 1#1 0#1 7#3] : List Instr).all
      (fun i => seen posed i fun c => (c.mask 0#3).isSome && rdy c 0#3 [0#5, 1#5] && c.r.pend == []) = true := by decide +kernel

/-- Whether a set value resolves to members. -/
def resolves (s : State) (v : Word) (view : MemView) : Ctx → Bool := fun c =>
  match c.resolve s v view with
  | (.members _, _) => true
  | _ => false

theorem test_witness_SetAlgebraCompletes : ([.kand 1#5 2#5 3#5, .kor 1#5 2#5 3#5, .kdiff 7#5 2#5 2#5] : List Instr).all (fun i =>
      seen (kreg 2 (localValue 0 5#32) posed) i fun c => c.r.pend == [] && resolves posed (localValue 0 5#32) .onCore c
        && resolves posed 0#64 .onCore c && c.kval 2 == localValue 0 5#32 && c.kval 3 == localValue 0 0#32
        && decide (c.w.slot < 64)) = true := by decide +kernel

theorem test_witness_SetCountsAndMakingComplete :
    ([.kcount 0#3 16#5 1#5, .kfirst 0#3 16#5 1#5 0#5 0#5] : List Instr).all (fun i => seen (grouped posed) i fun c =>
      c.mask 0#3 == some 0xFFFFFFFF#32 && rdy c 0#3 [16#5, 0#5] && resolves (grouped posed) (c.kval 1) .stored c) = true ∧
    ([.kcount 2#3 16#5 1#5] : List Instr).all (fun i => seen (grouped posed) i fun c => c.mask 2#3 == some 0#32) = true ∧
    ([.kmakeV 1#5 0#5, .kmakeM 1#5 0#5, .kself 7#5] : List Instr).all (fun i => seen posed i fun c => c.r.pend == [] &&
      (posed.core 0).kmakeOk 0 c.p.launch (c.low c.k0 0#5 0#5)) = true ∧
    seen (lane0 0 0x4000000000000000#64 posed) (.kmakeV 1#5 0#5) (fun c =>
      !(posed.core 0).kmakeOk 0 c.p.launch (c.low c.k0 0#5 0#5)) = true := by decide +kernel

/-- Whether an address translates for an access of the warp. -/
def located (s : State) (va : Word) (size : Nat) (acc : Access) (c : Ctx) : Bool :=
  match s.locate c va size acc with
  | (.ok _, _) => true
  | _ => false

/-- Whether the spans of an object are found. -/
def spanned (r : Except (Code × Word) (List Span × Nat) × State) : Bool :=
  match r with
  | (.ok _, _) => true
  | _ => false

theorem test_witness_SetMemoryInstructionsComplete :
    (let s := lane0 0 0x1000#64 (mapped solo)
     seen s (.kld 1#5 0#5 24#5 0#5) (fun c => c.r.pend == [] && located s 0x1000#64 8 .read c &&
       (s.takeReqs 0 0 [128]).isSome && c.low c.k0 0#5 0#5 == 0x1000#64) = true ∧
     seen s (.kst 1#5 0#5 24#5 0#5) (fun c => c.r.pend == [] && !c.l.ownBad 0x1000 8 && match s.locate c 0x1000#64 8 .write with
       | (.ok p, t) => (match t.plainWrite 0 0 9 false p 0x1000 (wordBytes (c.kval 1)) [] with | (.ok _, _) => true | _ => false)
       | _ => false) = true ∧
     ([.kmerge 1#5 0#5, .kqpush 16#5 0#5 1#5, .kqpop 16#5 0#5] : List Instr).all (fun i => seen s i fun c => c.r.pend == []
       && bitsOf (c.low c.k0 0#5 0#5) 63 57 == 0 && (c.low c.k0 0#5 0#5).toNat % 32 == 0 && resolves s (c.kval 1) .liveHere c
       && resolves s (localValue 0 1#32) .liveHere c && !c.l.ownBad 0x1000 16
       && spanned (s.objSpans 0 0 0x1000#64 .modify 8 (fun w => 8 * setCap w) setMost)
       && spanned (s.objSpans 0 0 0x1000#64 .modify 16 (fun w => 8 * queueCap w) queueMost)) = true) ∧
    seen posed (.kfree 1#5) (fun c => c.kval 1 == 0#64) = true ∧
    (let v : Word := 0x2000000000000000#64
     let s := kreg 1 v (onCore (fun k => { k with store := listChange k.store 0 fun x => { x with holder := some l0 } }) posed)
     seen s (.kfree 1#5) (fun c => setKind v == 2 && setWellFormed v && (s.core 0).coreValueOk 0 c.p.launch v) = true) ∧
    (let v : Word := 0x3000000000000000#64
     let s := kreg 1 v (onLaunch (fun l => { l with places := l.places.map fun p => { p with chunks := [0] } }) posed)
     seen s (.kfree 1#5) (fun c => setKind v == 3 && setWellFormed v && (s.usedChunks 0 c.l) == [0]
       && (chunkAddr c.l 0 0 &&& 0x01FFFFFFFFFFFFE0#64) == (v &&& 0x01FFFFFFFFFFFFE0#64)) = true) ∧
    seen (grouped posed) (.kfree 1#5) (fun c => setKind (c.kval 1) == 4) = true := by decide +kernel

theorem test_witness_GroupInstructionsComplete :
    seen posed (.gmake 0#3 1#5) (fun c => c.mask 0#3 == some 0xFFFFFFFF#32 && c.r.pend == []
      && (posed.core 0).freeEntry == some 0) = true ∧
    seen posed (.gmake 1#3 1#5) (fun c => c.mask 1#3 == some 0#32) = true ∧
    ([.join 0#3 1#5, .leave 0#3 1#5, .gdis 1#5] : List Instr).all (fun i => seen (grouped posed) i fun c =>
      c.r.pend == [] && c.mask 0#3 == some 0xFFFFFFFF#32 && c.groupOf (grouped posed) 1#5 == some 0#24) = true ∧
    ([.join 1#3 1#5, .leave 1#3 1#5] : List Instr).all (fun i => seen posed i fun c => c.mask 1#3 == some 0#32) = true := by
  decide +kernel

theorem test_witness_AppliesComplete :
    (let s := kreg 1 (localValue 0 1#32) posed
     ([.applyS 1#3 4#18, .applyR 1#3 0x3FFFF#18 0#4 15#4] : List Instr).all (fun i => seen s i fun c => c.r.pend == []
       && resolves s (c.kval 1) .onCore c && c.p.applies == [] && !(s.core 0).sessionClash c.p.launch (c.kval 1) false 0 0 c.r.fall
       && c.own.kind == .ordinary) = true) ∧
    seen posed (.applyS 1#3 4#18) (fun c => c.kval 1 == 0#64 && resolves posed 0#64 .onCore c) = true ∧
    seen posed .enda (fun c => c.p.applies == [] && c.p.kind == .ordinary) = true ∧
    seen (onWarp (fun p => { p with applies := [{ cont := 0#64, k0 := 0#64, session := none, argk := none }] }) posed) .enda
      (fun c => c.p.applies != []) = true ∧
    seen (onWarp (fun p => { p with applies := List.replicate 4 { cont := 0#64, k0 := 0#64, session := none, argk := none } })
      (kreg 1 (localValue 0 1#32) posed)) (.applyS 1#3 4#18) (fun c => !decide (c.p.applies.length < 4)) = true := by decide +kernel

/-! ### Witnesses: memory, synchronisation, tasks and barriers -/

/-- Whether lanes all translate. -/
def locatedAll (s : State) (c : Ctx) (size : Nat) (acc : Access) (ea : List (Nat × Word)) : Bool :=
  match s.locateAll c size acc ea with
  | (.ok _, _) => true
  | _ => false

/-- Lane 0's address 0x1000 in w0, every page mapped. -/
def atPage : State := lane0 0 0x1000#64 (mapped solo)

/-- The same with near space of 4,096 bytes. -/
def atNear : State := onLaunch (fun l => { l with card := { l.card with near := 4096 } })
  (lane0 0 0xFF000FF8#64 (mapped solo))

theorem test_witness_MemoryInstructionsStallTrapOrSkip :
    ([.ld (ops 16#5 0#5 24#5 0#5) 3#3 0#2 0#4, .st (ops 16#5 0#5 24#5 0#5) 3#3 1#2] : List Instr).all (fun i =>
      match memoryForm i with
      | some (k, codes) => seen waiting i (fun c => !rdy c k codes) && seen posed i fun c => rdy c k codes &&
          c.mask k == some 0xFFFFFFFF#32
      | none => false) = true ∧
    seen posed (.fclr 1#3 0#5 0#5 2#3) (fun c => rdy c 1#3 [0#5] && c.mask 1#3 == some 0#32) = true ∧
    seen (kreg 1 (localValue 1 1#32) posed) (.fclr 1#3 0#5 0#5 2#3) (fun c => rdy c 1#3 [0#5] && c.mask 1#3 == none) = true ∧
    seen (lane0 0 0x1001#64 (mapped solo)) (.ld (ops 16#5 0#5 24#5 0#5) 3#3 0#2 0#4) (fun c =>
      !locatedAll (mapped solo) c 8 .read [(0, 0x1001#64)] && bitsOf (c.src 0#5 0#5 0) 63 57 == 0) = true ∧
    seen (lane0 0 (BitVec.ofNat 64 (2 ^ 57)) (mapped solo)) (.st (ops 16#5 0#5 24#5 0#5) 0#3 0#2) (fun c =>
      bitsOf (c.src 0#5 0#5 0) 63 57 == 1 && match (mapped solo).storeLanes c 0 (ops 16#5 0#5 24#5 0#5) 0#3 false
        [(0, c.src 0#5 0#5 0)] [] with | (.error _, _) => true | _ => false) = true ∧
    (0x1001#64 : Word).toNat % 8 ≠ 0 ∧ bitsOf 0x1001#64 63 57 = 0 := by decide +kernel

/-- Lanes 0 and 1 in k0, their addresses in w0. -/
def twoLanes (a b : Word) (s : State) : State :=
  onRun (fun r => { r with win := Tab.set 0#64 (Tab.set 0#64 r.win 0 a) 1 b }) (kreg 0 (localValue 0 3#32) s)

/-- A lane that traps after one that passes, and a near load from a frozen slice of core 1. -/
theorem test_witness_MemoryInstructionsStallTrapOrSkip_later :
    (let s := twoLanes 0x1000#64 0x1001#64 (mapped posed)
     seen s (.ld (ops 16#5 0#5 24#5 0#5) 3#3 0#2 0#4) (fun c => c.mask 0#3 == some 3#32 && c.r.pend == []
       && locatedAll s c 8 .read [(0, 0x1000#64)]) = true ∧
     seen s (.st (ops 16#5 0#5 24#5 0#5) 3#3 0#2) (fun c => match s.storeLanes c 0 (ops 16#5 0#5 24#5 0#5) 3#3 false
       [(0, 0x1000#64)] [] with | (.ok _, _) => true | _ => false) = true) ∧
    (let near (s : State) : State := onLaunch (fun l => { l with card := { l.card with near := 4096 } }) s
     let s := near (twoLanes 0xFF000FF8#64 0xFF000FFC#64 posed)
     ([.ldn (ops 16#5 0#5 24#5 0#5) 3#3 0#4, .stn (ops 16#5 0#5 24#5 0#5) 3#3] : List Instr).all (fun i => seen s i fun c =>
       c.l.nearOk 0 0xFF000FF8#64 8 && nearOff 0xFF000FF8#64 % 8 == 0
         && (!c.l.nearOk 0 0xFF000FFC#64 8 || nearOff 0xFF000FFC#64 % 8 != 0)) = true) ∧
    (let s := onLaunch (fun l => { l with card := { l.card with near := 4096 }, places := l.places.flatMap fun p =>
        [p, { p with core := 1, frozen := true }] }) (lane0 0 0x01000FF8#64 solo)
     seen s (.ldn (ops 16#5 0#5 24#5 0#5) 3#3 0#4) (fun c => c.mask 0#3 == some 1#32 && c.r.pend == []
       && c.l.nearOk 0 0x01000FF8#64 8 && nearOff 0x01000FF8#64 % 8 == 0 && c.l.frozenFor (nearCore 0 0x01000FF8#64) 0
       && !(s.core 0).mustWait (c.nearRanges 8 false [(0, 0x01000FF8#64)]) [] && !(s.core 0).boardFull
       && !c.l.awayFor (c.nearRanges 8 false [(0, 0x01000FF8#64)])) = true) := by decide +kernel

theorem test_witness_LoadsComplete :
    ([(.ld (ops 1#5 0#5 24#5 0#5) 3#3 0#2 15#4, 8), (.ld (ops 4#5 0#5 29#5 31#5) 7#3 1#2 0#4, 32)] : List (Instr × Nat)).all (fun i =>
      seen atPage i.1 fun c => c.mask 0#3 == some 1#32 && c.r.pend == []
        && locatedAll atPage c i.2 .read [(0, c.src 0#5 0#5 0 + c.offset 24#5 0#5 i.2 0)] && (match atPage.locateAll c i.2 .read [(0, c.src 0#5 0#5 0 + c.offset 24#5 0#5 i.2 0)] with
          | (.ok ls, _) => (atPage.takeReqs 0 0 (laneSectors i.2 ls)).isSome
          | _ => false)) = true ∧
    seen atNear (.ldn (ops 1#5 0#5 24#5 0#5) 3#3 0#4) (fun c => c.mask 0#3 == some 1#32 && c.r.pend == []
      && c.l.nearOk 0 0xFF000FF8#64 8 && nearOff 0xFF000FF8#64 % 8 == 0 && !c.l.frozenFor 0 0
      && !(atNear.core 0).mustWait (c.nearRanges 8 false [(0, 0xFF000FF8#64)]) [] && !(atNear.core 0).boardFull
      && !c.l.awayFor (c.nearRanges 8 false [(0, 0xFF000FF8#64)])) = true := by decide +kernel

theorem test_witness_StoresComplete :
    ([(.st (ops 1#5 0#5 24#5 0#5) 3#3 0#2, 8), (.st (ops 4#5 0#5 24#5 0#5) 7#3 1#2, 32)] : List (Instr × Nat)).all (fun i =>
      seen atPage i.1 fun c => c.mask 0#3 == some 1#32 && c.r.pend == [] && !c.l.ownBad 0x1000 i.2 &&
        (match atPage.locateAll c i.2 .write [(0, 0x1000#64)] with
         | (.ok ls, _) => ls.all fun x => !fmtBad x.2.2.fmt && !(fmtOf x.2.2.fmt).mx
         | _ => false) && (match atPage.storeLanes c 0 (ops 1#5 0#5 24#5 0#5) 3#3 false [(0, 0x1000#64)] [] with
         | (.ok _, _) => true
         | _ => false)) = true ∧
    seen atNear (.stn (ops 1#5 0#5 24#5 0#5) 3#3) (fun c => c.mask 0#3 == some 1#32 && c.r.pend == []
      && c.l.nearOk 0 0xFF000FF8#64 8 && nearOff 0xFF000FF8#64 % 8 == 0) = true := by decide +kernel

/-- The pages carry a format entry. -/
def formatted (e : Word) : State := atPage.writeWord 0 e

theorem test_witness_FormattedAccessesComplete :
    seen (formatted 2#64) (.ldt (ops 1#5 0#5 24#5 0#5) 0#1 0#3 0#1 0#1 0#4) (fun c => c.mask 0#3 == some 1#32 && c.r.pend == []
      && (match (formatted 2#64).loadFormatted c (ops 1#5 0#5 24#5 0#5) 0#1 0#3 0#1 0#1 [0] with | (.ok _, _) => true | _ => false)) = true ∧
    seen (formatted 2#64) (.stt (ops 1#5 0#5 24#5 0#5) 0#1 0#3 0#1 0#1) (fun c =>
      match (formatted 2#64).storeElements c (ops 1#5 0#5 24#5 0#5) 0#1 0#3 0#1 [0] with
      | (.ok es, _) => !es.isEmpty && es.all fun e => !(fmtOf e.page.fmt).mx && !c.l.ownBad (e.page.va + 4 * e.num) 4
      | _ => false) = true ∧
    seen (formatted 0x45#64) (.stt (ops 1#5 0#5 24#5 0#5) 0#1 0#3 0#1 0#1) (fun c =>
      match (formatted 0x45#64).storeElements c (ops 1#5 0#5 24#5 0#5) 0#1 0#3 0#1 [0] with
      | (.ok es, t) => !es.isEmpty && es.all (fun e => (fmtOf e.page.fmt).mx) && !c.l.scaleBad es &&
        (match t.blockWrites 0 0 (dtFmt 0#1) 0#3 false es (blockOrder es) with | (.ok hs, _) => !hs.isEmpty | _ => false)
      | _ => false) = true := by decide +kernel

theorem test_witness_AtomicsComplete : ([
    (.atomAdd (ops 16#5 0#5 1#5 0#5) 2#3 1#1, .add), (.atomFadd (ops 16#5 0#5 1#5 0#5) 6#3 0#1, .fadd),
    (.atomBinc (ops 16#5 0#5 1#5 0#5) 2#3 1#1, .binc), (.atomXchg (ops 24#5 0#5 1#5 0#5) 2#3 1#1, .xchg),
    (.atomMinS (ops 16#5 0#5 1#5 0#5) 2#3 1#1, .minS), (.atomMaxS (ops 16#5 0#5 1#5 0#5) 2#3 1#1, .maxS),
    (.atomMinU (ops 16#5 0#5 1#5 0#5) 2#3 1#1, .minU), (.atomMaxU (ops 16#5 0#5 1#5 0#5) 2#3 1#1, .maxU),
    (.atomAnd (ops 16#5 0#5 1#5 0#5) 2#3 1#1, .and), (.atomOr (ops 16#5 0#5 1#5 0#5) 2#3 1#1, .or),
    (.atomXor (ops 16#5 0#5 1#5 0#5) 2#3 1#1, .xor), (.atomCas (ops 16#5 0#5 1#5 2#5) 2#3 1#1, .cas)] : List (Instr × AtomOp)).all
      (fun i => seen atPage i.1 fun c => c.mask 0#3 == some 1#32 && c.r.pend == [] && !c.l.ownBad 0x1000 8 &&
        (match atPage.atomLanes c i.2 true 5 1#5 0#5 [(0, 0x1000#64)] with | (.ok _, _) => true | _ => false)) = true := by
  decide +kernel

theorem test_witness_PrefetchAndRemoteRegisterInstructionsComplete :
    seen atPage (.pref 0#3 0#5 24#5 0#5 1#1) (fun c => c.mask 0#3 == some 1#32 && c.r.pend == []) = true ∧
    seen (lane0 0 0x1FFFF#64 solo) (.rwr 0#3 0#5 1#5 0#5) (fun c => c.mask 0#3 == some 1#32 && c.r.pend == []
      && bitsOf (c.low 1#32 0#5 0#5) 63 17 == 0) = true ∧
    seen posed (.awt 16#5 29#5 15#5 3#2 1#1 1#1) (fun c => c.r.pend == []) = true := by decide +kernel

theorem test_witness_SynchronisationInstructionsComplete :
    ([.unbind 0#5 1#5 2#5, .bind 0#5 1#5 2#5] : List Instr).all (fun i => seen (lane0 1 32#64 atPage) i fun c => c.r.pend == []
      && (c.low c.k0 0#5 0#5).toNat % 32 == 0 && (c.low c.k0 1#5 0#5).toNat == 32 && (c.low c.k0 2#5 0#5).toNat % 8 == 0
      && c.l.binds.length < 512 && c.r.held == []) = true ∧
    ([.fence 0#3, .fence 6#3] : List Instr).all (fun i => seen posed i fun c => !posed.depositOut c.w) = true ∧
    (let s := onLaunch (fun l => { l with card := { l.card with shadows := [(0, 64)] } }) (lane0 0 0xFF000000#64 solo)
     seen s (.publish 0#5) (fun c => c.r.pend == [] && ((c.l.card.shadows.zipIdx).find? fun e => e.1.1 == nearOff 0xFF000000#64)
       == some ((0, 64), 0) && nearCore 0 0xFF000000#64 == 0 && (c.l.place? 0).isSome)) = true ∧
    seen atPage (.rel 0#3 0#5 6#3) (fun c => c.mask 0#3 == some 1#32 && c.r.pend == [] && located atPage 0x1000#64 8 .modify c
      && !fmtBad 0#64 && !c.l.ownBad 0x1000 8) = true ∧
    ([.acq 0#3 16#5 0#5 2#3 0#4, .acq 0#3 16#5 0#5 3#3 15#4] : List Instr).all (fun i => seen atPage i fun c =>
      c.mask 0#3 == some 1#32 && c.r.pend == [] && located atPage 0x1000#64 8 .read c && !atPage.depositOut c.w
      && !atPage.homeBefore c.w c.p.queued [0x1000 / 32]
      && (match atPage.decideSync c.p.launch (some c.w) 0 0x1000 with | .made _ => true | _ => false)
      && (atPage.takeReqs 0 0 [0x1000 / 32]).isSome) = true := by decide +kernel

theorem test_witness_FuturesComplete :
    ([(.fread 0#3 16#5 0#5 2#3 0#4, Access.read), (.ffill 0#3 0#5 1#5 0#5 6#3, .write), (.fclr 0#3 0#5 0#5 2#3, .write)]
      : List (Instr × Access)).all (fun i => seen atPage i.1 fun c => c.mask 0#3 == some 1#32 && c.r.pend == []
        && locatedAll atPage c 16 i.2 [(0, 0x1000#64)] && !atPage.depositOut c.w && !atPage.homeBefore c.w c.p.queued [0x1000 / 32]
        && !c.l.ownBad 0x1000 16 && (match atPage.locateWrites c 16 [(0, 0x1000#64)] with | (.ok _, _) => true | _ => false)
        && (match atPage.decideAll c.p.launch c.w [(0, 0x1000)] with | .made _ => true | _ => false)
        && (atPage.takeReqs 0 0 [0x1000 / 32]).isSome) = true ∧
    (atPage.readWord 0x1008).getLsbD 0 = false ∧ ((atPage.writeWord 0x1008 1#64).readWord 0x1008).getLsbD 0 = true := by
  decide +kernel

theorem test_witness_TaskInstructionsComplete :
    ([.post 16#5 0#5 0#2 0#2, .post 16#5 0#5 2#2 0#2, .spawn 16#5 0#5 1#2 3#2] : List Instr).all (fun i => seen atPage i fun c =>
      c.r.pend == [] && (c.low c.k0 0#5 0#5).toNat % 128 == 0 && c.l.depth != 8
      && (match atPage.translate 0 0 0x1040#64 .modify with | (.ok _, _) => true | _ => false)) = true ∧
    seen (onLaunch (fun l => { l with depth := 8 }) atPage) (.spawn 16#5 0#5 0#2 0#2) (fun c => c.l.depth == 8) = true ∧
    ([.qtake 16#5 0#5 0#2, .qtake 16#5 0#5 2#2] : List Instr).all (fun i => seen (lane0 0 11#64 posed) i fun c => c.r.pend == []
      && (c.low c.k0 0#5 0#5).toNat == 11) = true ∧
    seen (lane0 1 143#64 atPage) (.ams 8#5 0#5 1#5) (fun c => c.r.pend == [] && (c.low c.k0 0#5 0#5).toNat % 128 == 0
      && (c.low c.k0 1#5 0#5).toNat == 143 && located atPage 0x1000#64 128 .read c && c.l.depth != 8) = true ∧
    seen (lane0 1 255#64 atPage) (.ams 0#5 0#5 1#5) (fun c => (c.low c.k0 1#5 0#5).toNat == 255) = true := by decide +kernel

theorem test_witness_BarrierInstructionsComplete :
    (let s := grouped posed
     let few := kreg 0 (localValue 0 3#32) s
     seen s (.bbind 1#5 0#6) (fun c => c.r.pend == [] && c.groupOf s 1#5 == some 0#24) = true ∧
     seen s (.bbind 1#5 47#6) (fun _ => ((s.core 0).barriers[47]?.bind (·.gid)).isSome) = true ∧
     seen s (.bunb 47#6) (fun c => c.boundEntry s 47#6 == some 0) = true ∧
     seen s (.bunb 0#6) (fun c => c.boundEntry s 0#6 == none) = true ∧
     seen few (.barr 0#3 16#5 47#6) (fun c => c.mask 0#3 == some 3#32 && c.r.pend == [] && c.boundEntry s 47#6 == some 0
       && bitmapLanes 3#2048 0 &&& 3#32 == 3#32) = true ∧
     seen s (.barr 0#3 16#5 47#6) (fun c => c.mask 0#3 == some 0xFFFFFFFF#32
       && bitmapLanes 3#2048 0 &&& 0xFFFFFFFF#32 != 0xFFFFFFFF#32) = true ∧
     seen s (.barr 0#3 16#5 0#6) (fun c => c.boundEntry s 0#6 == none) = true ∧
     seen s (.bwt 16#5 47#6) (fun c => c.r.pos == 1 && c.r.pend == [] && !phaseWaits 0#32 0xFFFFFFFF#64) = true ∧
     seen (lane0 16 0xFFFFFFFF#64 s) (.bwt 16#5 47#6) (fun c => !s.depositOut c.w
       && !phaseWaits 0#32 (c.low c.k0 16#5 0#5) && ((s.core 0).boundTo 0 c.p.launch 47).any fun x => x.2 == 0) = true ∧
     seen (onRun (fun r => { r with pos := 2 }) s) (.bwt 16#5 0#6) (fun c => c.r.pos == 2 && c.busy [16#5] == false
       && ((s.core 0).boundTo 0 c.p.launch 0).isNone) = true) ∧
    (let s := onLaunch (fun l => { l with card := { l.card with dbm := 0x8000#16 } }) posed
     seen s (.dbar 0#3 16#5 15#4) (fun c => c.l.card.dbm.getLsbD 15 && !c.p.kind.isHandler && c.r.pend == []) = true ∧
     seen (lane0 16 0xFFFFFFFF#64 s) (.dwt 16#5 15#4) (fun c => c.l.card.dbm.getLsbD 15 && c.r.pend == [] && !s.depositOut c.w
       && !phaseWaits 0#32 (c.low c.k0 16#5 0#5) && (s.dev.dbars[15]?).any fun b => b.ph == 0#32) = true ∧
     ([.dbar 0#3 16#5 0#4, .dwt 16#5 0#4] : List Instr).all (fun i => seen s i fun c => !c.l.card.dbm.getLsbD 0) = true) := by
  decide +kernel

/-- A handler warp's arrivals. -/
theorem test_witness_BarrierInstructionsComplete_handler :
    (let s := onCore (fun k => { k with hnds := k.warps.map fun e => (e.1, { e.2 with kind := .handler }) }) (grouped posed)
     let s := { onLaunch (fun l => { l with card := { l.card with dbm := 0x8000#16 } }) s with focus := some { w0 with hnd := true } }
     seen s (.barr 0#3 16#5 47#6) (fun c => c.mask 0#3 == some 0xFFFFFFFF#32 && c.r.pend == [] && c.boundEntry s 47#6 == some 0
       && c.w.hnd) = true ∧
     seen s (.dbar 0#3 16#5 15#4) (fun c => c.mask 0#3 == some 0xFFFFFFFF#32 && c.r.pend == [] && c.p.kind.isHandler) = true) := by
  decide +kernel

theorem test_witness_SystemRegisterReads : ((List.range 12).all fun n => seen posed (.sysrd 0#3 16#5 (BitVec.ofNat 10 n)) fun c =>
    (c.mask 0#3).isSome && rdy c 0#3 [16#5]) = true := by decide +kernel

theorem test_witness_SystemInstructionsComplete : ([
    .syswr 0#5 11#10, .trap 1023#10, .brk 0#10, .tret 0#1, .tret 1#1, .lmark 1023#10, .ppoint 0xFFFF#16, .ide,
    .trail 0#1 0#3 0#16, .trail 1#1 7#3 0xFFFF#16] : List Instr).all (fun i => seen posed i fun c => c.r.pend == []) = true ∧
    (let s := lane0 0 0xFF000FE0#64 (lane0 1 32#64 atNear)
     seen s (.idb 0#5 1#5) (fun c => c.p.region == none && c.r.pend == [] && c.l.nearOk 0 0xFF000FE0#64 32
       && nearOff 0xFF000FE0#64 % 32 == 0) = true) := by decide +kernel

/-! ### Witnesses: engine commands -/

/-- Near space of 65,536 bytes with a landing slot, one tile, the automaton array held; pages of f32. -/
def equipped : State := onCore (fun k => { k with auto := { k.auto with holder := some l0 } })
  (onLaunch (fun l => { l with card := { l.card with near := 65536, tc := 1, lause := true, shadows := [(4096, 4096)] }, places := l.places.map fun p => { p with tiles := [0], halves := [false] } }) (formatted 2#64))

/-- Values in lane 0 of window slots 0, 1, …. -/
def slots (vs : List Word) (s : State) : State := vs.zipIdx.foldl (fun s e => lane0 e.2 e.1 s) s

theorem test_witness_TagInstructionsComplete :
    ([.tall 3#2 0xFFFF#16, .tany 0#2 1#16] : List Instr).all (fun i => seen posed i fun c => c.r.pos == 1) = true ∧
    ([.tall 0#2 1#16, .tany 3#2 0x8000#16] : List Instr).all (fun i => seen (onRun (fun r => { r with pos := 2 }) posed) i fun c =>
      c.r.pos == 2 && !(posed.core 0).tagWaits c.p.launch false 0 1#16 && !(posed.core 0).tagWaits c.p.launch true 3 0x8000#16)
      = true ∧
    seen (lane0 0 0xFFFFFFFFFFFFFFFF#64 posed) (.tffr 0#3 16#5 0#5) (fun c => (c.mask 0#3).isSome && c.r.pend == []) = true := by
  decide +kernel

/-- Whether a copy of a direction passes its checks in a state. -/
def copyPasses (s : State) (dir : Nat) (c : Ctx) : Bool :=
  let cp := c.copyOf 0#5 1#5 2#5 0#6 dir none
  c.busy [0#5, 1#5, 2#5, 3#5] == false && bitsOf (c.slot 2#5) 63 49 == 0 && rmOk cp.rm && cp.rows != 0 && cp.cnt != 0
    && !(s.core 0).tagBusy c.p.launch 0 && !(s.core 0).tagReserved c.p.launch 0 && !(s.core 0).grantedFirst 0 false c.p
    && (if dir = 2 then (match c.checkMove { cp with near := [0] } with | .ok _ => true | _ => false)
        else match s.checkCopy c cp (s.nearFormat c cp (bitsOf (c.slot 2#5) 43 40) (bitsOf (c.slot 2#5) 44 44)) with
          | (.ok _, _) => true
          | _ => false)

theorem test_witness_CopiesComplete :
    (let w0 : Word := BitVec.ofNat 64 (2 ^ 24 + 8)
     let toNear := slots [0xFF000000#64, 0x1000#64, w0, 0#64] equipped
     let toHome := slots [0x1000#64, 0xFF000000#64, BitVec.ofNat 64 (2 ^ 41 + 2 ^ 24 + 8), 0#64] equipped
     let move := slots [0xFF000020#64, 0xFF000000#64, w0, 0#64] equipped
     seen toNear (.cpy 0#3 0#5 1#5 2#5 0#6 0#2) (copyPasses toNear 0) = true ∧
     seen toHome (.cpy 0#3 0#5 1#5 2#5 63#6 1#2) (copyPasses toHome 1) = true ∧
     seen move (.cpy 0#3 0#5 1#5 2#5 0#6 2#2) (copyPasses move 2) = true ∧
     seen toNear (.cpym 0#3 0#5 1#5 2#5 0#6 1#4) (fun c => match toNear.checkCopy c (c.copyOf 0#5 1#5 2#5 0#6 0 (some [0]))
       (toNear.nearFormat c (c.copyOf 0#5 1#5 2#5 0#6 0 (some [0])) 0 0) with | (.ok _, _) => true | _ => false) = true ∧
     seen equipped (.cpy 0#3 0#5 1#5 2#5 0#6 0#2) (fun c => (c.copyOf 0#5 1#5 2#5 0#6 0 none).rows == 0) = true) := by
  decide +kernel

/-- The loop of f32 operands that a command's four slots describe. -/
def mloopOf (c : Ctx) : Mloop where
  fmt := 4
  mx := false
  zs := false
  ftz := true
  t := 0
  d0 := c.slot 0#5
  d1 := c.slot 1#5
  d2 := c.slot 2#5
  d3 := c.slot 3#5

theorem test_witness_MatrixCommandsComplete :
    (let s := slots [0xFF000000#64, 0#64] equipped
     ([.mzero 0#3 0#4, .mrdN 0#3 0#5 0#4 0#1 1#1, .mrdN 0#3 0#5 0#4 1#1 0#1, .mwrN 0#3 0#5 0#4] : List Instr).all (fun i => seen s i fun c =>
       decide (0 < c.l.card.tc) && c.r.pend == [] && c.l.nearOk 0 (c.slot 0#5) 16384) = true ∧
     ([.mwrW 0#3 4#5 1#5 0#4, .mrdW 0#3 4#5 1#5 0#4 1#1 15#4] : List Instr).all (fun i => seen s i fun c => c.r.pend == []
       && (c.slot 1#5).toNat % 4 == 0 && decide ((c.slot 1#5).toNat ≤ 60) && !(s.core 0).mustWait [] [(c.l.tile 0 0, false)]
       && !(s.core 0).boardFull) = true) ∧
    (let s := slots [0xFF000000FF000000#64, 0#64, 0#64, 0#64] equipped
     seen s (.mloop 0#3 0#5 0#4 0#1 1#1 0#1 4#3) (fun c => c.r.pend == [] && (mloopOf c).bad c == none) = true) ∧
    seen (lane0 1 60#64 equipped) (.mwrW 0#3 4#5 1#5 0#4) (fun c => (c.slot 1#5).toNat == 60) = true := by decide +kernel

theorem test_witness_AutomatonCommandsComplete :
    (let s := slots [0xFF000000#64, 0xFF000000#64, 15#64, 255#64, 1#64] equipped
     let own (c : Ctx) (n : Nat) : Bool := c.l.nearOk 0 0xFF000000#64 n && nearCore 0 0xFF000000#64 == 0
     ([.lacfg 0#3 0#5, .laseed 0#3 0#5 1#5, .lafb 0#3 0#5 2#5 1#1, .lainfN 0#3 0#5 1#5 2#5 1#1, .lardN 0#3 0#5 3#5 4#5 0#1 0#1,
       .lardN 0#3 0#5 3#5 4#5 1#1 1#1, .lawrN 0#3 0#5 3#5 4#5, .lawrW 0#3 4#5 3#5] : List Instr).all (fun i => seen s i fun c =>
         (s.core 0).auto.holder == some c.p.launch && c.r.pend == [] && own c 1024 && (c.slot 2#5).toNat == 15
         && (c.slot 3#5).toNat == 255 && (c.slot 3#5).toNat + (c.slot 4#5).toNat == 256) = true ∧
     seen s (.lardW 0#3 4#5 3#5 0#1 0#4) (fun c => !c.readerStalls s [] 0#1) = true ∧
     seen s (.lainfW 0#3 4#5 0#5 1#1 15#4) (fun c => own c 64 &&
       !c.readerStalls s (c.l.range 0 0 64 false) 1#1) = true) := by decide +kernel

/-- A subscription of one page with one quota. -/
def oneSub (st : SubState) : Sub where
  launch := l0
  logical := 0
  sid := 0
  list := 0#64
  qb := 0
  lb := 0x1000
  hent := 0#64
  hg := 1
  nlb := 1
  et := false
  dh := false
  q := 1
  state := st
  sweep := none
  e := 0
  hold := []
  given := 0
  merges := [Merge.empty]
  busy := []
  late := []
  name := 9
  heard := []
  partials := []
  merged := []

/-- The same subscription in place 0. -/
def subscribed (st : SubState) : State :=
  onCore (fun k => { k with subs := listChange k.subs 0 fun p => { p with sub := some (oneSub st) } })
    (slots [0#64, 0xFF000000#64] equipped)

theorem test_witness_SweepCommandsComplete :
    (let s := subscribed .done
     seen s (.swleave 0#3 0#5) (fun c => c.r.pend == [] && !handleBad 0 (c.slot 0#5)) = true ∧
     ([.swrd 0#3 1#5 0#5 0#2, .swrd 0#3 1#5 0#5 2#2] : List Instr).all (fun i => seen s i fun c => c.r.pend == []
       && !handleBad 0 (c.slot 0#5) && ((s.core 0).sub? c.p.launch (c.slot 0#5)).isSome && c.l.nearOk 0 (c.slot 1#5) 4096) = true ∧
     seen s (.swmerge 0#3 1#5 0#5 2#5) (fun c => c.r.pend == [] && !handleBad 0 c.r.ops.1
       && c.l.nearOk 0 (c.slot 1#5) 4096) = true ∧
     seen s (.swwait 0#5) (fun c => c.r.pos == 1 && !handleBad 0 c.r.ops.1) = true ∧
     seen (onRun (fun r => { r with pos := 2 }) s) (.swwait 0#5) (fun c => c.r.pos == 2 && !handleBad 0 (c.slot 0#5)
       && ((s.core 0).sub? c.p.launch (c.slot 0#5)).map (·.state) == some .done) = true) ∧
    (let s := lane0 0 0x1000#64 (equipped.writeWord 0 5#64)
     seen s (.swgo 0#3 0#5 15#4 1#1) (fun c => c.r.pend == [] && (match s.translate 0 0 0x1000#64 .read with
       | (.ok p, _) => sweepFormat p.fmt
       | _ => false)) = true) ∧
    (let s := slots [0x1000#64, 0xFF000000FF001000#64, 0#64, 0#64] equipped
     seen s (.swsub 0#3 8#5 0#5) (fun c => c.r.pend == [] && (c.subOf 0#5).q == 1 && (c.subOf 0#5).nlb == 1
       && (c.subOf 0#5).landing.all (fun o => (c.l.regionAt o (c.subOf 0#5).pageLen).isSome)
       && c.l.nearOk 0 (BitVec.ofNat 64 (c.subOf 0#5).qb) 1 && c.l.nearOk 0 (BitVec.ofNat 64 (c.subOf 0#5).lb) 1
       && (match s.translate 0 0 0x1000#64 .read with | (.ok _, _) => true | _ => false)
       && !(s.core 0).grantedFirst 0 false c.p && (s.core 0).freePlaces.length == 128 && decide (1 ≤ (s.core 0).freeMerges)) = true) := by decide +kernel

/-! ### Witnesses: events of runs, values and warps -/

/-- The warp at a boundary, its pc at 0x1000. -/
def between (s : State) : State := onWarp (fun p => { p with run := none, pc := 0x1000#64 }) s

/-- A fetched run of one slot, that loads window slot 0 and awaits tag 7: `i`, then `trail`. -/
def fetchedOf (word : BitVec 32) : Fetched where
  addr := 0x1000#64
  hdr := BitVec.ofNat 128 (2 ^ 126 + 2 ^ 63 + 2 ^ 28 * 1 + 2 ^ 8 + 8 * 2)
  packs := [BitVec.ofNat 128 (word.toNat + 2 ^ 32 * 0x01000000)]

/-- Whether a header may begin a fetched run, with nothing that it waits for. -/
def passes (s : State) (f : Fetched) : Bool :=
  match s.warp? w0, s.launch? l0 with
  | some p, some l => runOk f && p.marks == [] && p.fetched == some f && p.run == none
      && (match f.first with | some i => s.firstWait w0 p p l f.hdr i == .go | none => true)
  | _, _ => false

/-- Whether a fetch brings a run of some packets after its header; none where it traps. -/
def brought (s : State) : Option Nat :=
  match s.fetchRun 0 0 0x1000#64 with
  | some (.ok (_ :: ps), _) => some ps.length
  | _ => none

/-- Whether the fetch of a run traps. -/
def fetchTraps (s : State) : Bool :=
  match s.fetchRun 0 0 0x1000#64 with
  | some (.error _, _) => true
  | _ => false

/-- The header and the number of packets that the one view of uncached code gives. -/
def viewed (s : State) : Option (Bool × Nat) :=
  match s.viewPackets 0 0 0x1000#64 (fun n => some (s.packetAt n)) 1 with
  | some (.ok [h], u) =>
    if h.2.extractLsb' 126 2 != 1#2 then some (false, 0)
    else match u.viewPackets 0 0 0x1010#64 (fun n => some (s.packetAt n)) (hdrPackets h.2) with
      | some (.ok ps, _) => some (true, ps.length)
      | _ => none
  | _ => none

theorem test_witness_FetchAndHeaderEventsComplete :
    (let s := between (mapped posed)
     (match s.warp? w0 with
      | some p => p.run == none && p.wait == .none && p.live != 0#32 && p.sched != .suspended && p.fetched == none
          && p.icinv == none && p.later == none
      | none => false) = true ∧ fetchTraps s = true ∧ s.staleCode 0 = false ∧ viewed s = some (false, 0)) ∧
    (let f := fetchedOf 0x00000000#32
     let s := ((between (mapped posed)).writeWord 0x1000 (f.hdr.setWidth 64)).writeWord 0x1008 (f.hdr.extractLsb' 64 64)
     brought s = some 1 ∧ s.staleCode 0 = false ∧ viewed s = some (true, 1)) ∧
    (let on (f : Fetched) (p : Warp) : Warp := { p with fetched := some f }
     let f := fetchedOf 0x00000000#32
     passes (onWarp (on f) (between posed)) f = true ∧
     runOk { f with packs := [0#128] } = false ∧
     (let s := onWarp (fun p => { on f p with marks := [{ reg := 8, owner := .tag 1, id := 7, lanes := 1#32, vals := [], known := false, poison := false }] })
        (between posed)
      (s.warp? w0).any (fun p => (s.launch? l0).any fun l => runOk f && !(hdrAwait f.hdr).getLsbD 1
        && (f.first.any fun i => s.firstWait w0 p p l f.hdr i == .go) && (hdrLoad f.hdr).getLsbD 0
        && p.hazard p (hdrReg f.hdr 0)) = true)) := by decide +kernel

/-- The run at its end, the commit begun: its write-back mask, its tag and its stage. -/
def ending (wb : BitVec 16) (tag : Option Nat) (stage : Nat) (f : Run → Run) : State :=
  onRun (fun r => { f r with commit := some (wb, tag, stage), pos := 3 }) posed

/-- How a stage of a commit comes out: it goes on (0), ends or pauses (1), waits (2), traps (3). -/
def outcome (s : State) (wb : BitVec 16) (tag : Option Nat) (stage : Nat) : Option Nat :=
  (s.ctx? w0).map fun c => match s.commitStep c wb tag stage with
    | .go _ => 0
    | .stop _ => 1
    | .wait => 2
    | .trap _ _ => 3

/-- The same of a held effect: performed (0), sent (1), waits (2). -/
def performs (s : State) (h : Held) : Option Nat :=
  let s := onRun (fun r => { r with held := [h] }) s
  (s.ctx? w0).map fun c => match s.heldStep c h [] with
    | .done _ => 0
    | .sent _ => 1
    | .wait => 2

theorem test_witness_RunCommitWritesBack :
    (let s := ending 0x8001#16 none 0 id
     match s.ctx? w0 with
     | some c => c.r == { c.r with sets := [], setEff := [], pend := [], held := [], give := none, xfer := .fall, srs := [], yield := false, soft := none, commit := some (0x8001#16, none, 0), waitId := none }
        && c.r.res.claim == none && c.p.wait == .none && (c.commitFault 0x8001#16).isNone && !c.l.isDet && !c.w.hnd
     | none => false) = true := by decide +kernel

/-- The stages of a commit, each way that one comes out. -/
theorem test_witness_RunCommitWritesBack_stages :
    outcome (ending 0#16 none 0 id) 0#16 none 0 = some 0 ∧ outcome (ending 0#16 none 2 id) 0#16 none 2 = some 1 ∧
    outcome (ending 1#16 none 0 fun r => { r with pend := [comes (.win 0#5 1) 0 false] }) 1#16 none 0 = some 2 ∧
    outcome (ending 1#16 none 0 fun r => { r with b0 := 15 }) 1#16 none 0 = some 3 := by decide +kernel

/-- A commit under tag 5 with a claim of three groups, a staged set value and a value still on its way to slot 9. -/
theorem test_witness_RunCommitWritesBack_staged :
    (let s := ending 0x0201#16 (some 5) 0 fun r => { r with
       sets := [(1, 5#64)], pend := [comes (.win 9#5 1) 2 false], res := { r.res with claim := some 3 } }
     (s.ctx? w0).any fun c => !c.w.hnd && c.own == c.p && !c.l.isDet && c.r.setEff == [] && c.r.srs == []
       && c.commitFault 0x0201#16 == none && !c.r.awaitsRead 0x0201#16 (some 5) && !s.waitsForSweep c
       && c.r.regOf 0 != c.r.regOf 9 && (settleLate c.p.live (c.r.lapse.lateFor 9)).any (fun q => q.lanes.getLsbD 0)
       && (settleLate c.p.live (c.r.lapse.lateFor 0)).all fun q => !q.lanes.getLsbD 0) = true ∧
    ((grouped posed).core 0).group? 0 l0 0#24 = some 0 ∧ (posed.core 0).group? 0 l0 0#24 = none := by decide +kernel

/-- Held effects: a fence, a remote register write, a counted guard whose entries are taken, one whose are not to be had. -/
theorem test_witness_RunCommitWritesBack_held :
    (let s := ending 0#16 none 1 id
     let guard : Held := .home 7 24#5 0#32 [.guard 0 0x1000 0x1000 5]
     let taken := onCore (fun k => { k with reqs := [{ id := 7, n := 1, remote := false, age := 0 }] }) s
     performs s (.fence 6) = some 0 ∧ performs s (.rwr 1 0 0 0 []) = some 0 ∧ performs taken guard = some 1 ∧
     performs (onCore (fun k => { k with reqs := [{ id := 8, n := 8192, remote := false, age := 0 }] }) s) guard = some 2 ∧
     s.depositOut w0 = false ∧ ((taken.core 0).reqs.any fun q => q.id == 7) = true ∧ (s.core 1).deposits.length < 64 ∧
     outcome (ending 0#16 none 1 fun r => { r with held := [.fence 6] }) 0#16 none 1 = some 0) ∧
    (let s := ending 0#16 none 1 fun r => { r with give := some 2 }
     (s.ctx? w0).any fun c => c.r.held == [] && c.r.give == some 2 && !c.w.hnd && (Dict.find (s.core 0).hnds 0).isNone
       && c.own == c.p) = true := by decide +kernel

/-- The transfers of a commit. -/
theorem test_witness_RunCommitWritesBack_transfers :
    ([.fall, .goto 0x2000#64, .exit 3#32, .apply (localValue 0 1#32) false 0 0 0x40#64 0x20#64 [(0, 0, 1#32)]] : List Xfer).all
      (fun x =>
        let s := ending 0#16 none 2 fun r => { r with xfer := x }
        (s.ctx? w0).any fun c => c.r.xfer == x && s.warp? w0 == some c.p && !s.depositOut w0 && c.p.kind == .ordinary
          && !c.w.hnd && (s.launch? c.p.launch).isSome && c.r.soft == none && !c.r.yield && c.r.setEff == []
          && c.p.wait == .none) = true ∧
    (let s := onWarp (fun p => { p with applies := [{ cont := 0x20#64, k0 := 1#64, session := none, argk := none }] })
       (ending 0#16 none 2 fun r => { r with xfer := .enda })
     (s.ctx? w0).any fun c => !s.depositOut w0 && c.p.applies.getLast? == some { cont := 0x20#64, k0 := 1#64, session := none, argk := none })
       = true ∧
    (let s := onWarp (fun p => { p with kind := .apply 3 [] }) (ending 0#16 none 2 fun r => { r with xfer := .exit 1#32 })
     (s.warp? w0).any fun p => p.kind == .apply 3 []) = true ∧
    (let s := onCore (fun k => { k with hnds := k.warps.map fun e => (e.1, { e.2 with
         kind := .handler, trap := some ({ code := .user, pos := 3, info := 5, lanes := none, kind := 0 }, 0x1000#64) }) })
       (ending 0#16 none 2 fun r => { r with xfer := .tret false })
     (s.ctx? { w0 with hnd := true }).any fun c => match s.commitTret c false with | .done _ => true | _ => false) = true := by
  decide +kernel

/-- A mark of register 3 that awaits a value. -/
def marking (known : Bool) : Mark :=
  { reg := 3, owner := .tag 1, id := 7, lanes := 1#32, vals := [(0, 5#64)], known := known, poison := false }

/-- A special function under way on token 2. -/
def computing : SfqOp := { token := 2, reg := 3, lanes := 3#32, vals := [(0, 0x3F800000#64), (1, 0#64)], fn := 0, ty := 0#2, ftz := true }

/-- A remote register write to slot 0. -/
def arriving : Deposit :=
  { id := 7, launch := l0, slot := 0, ctr := 15, reg := 63, vals := [(31, 9#64)], sender := (1, 2), arrived := false,
    heard := [] }

theorem test_witness_ValueEventsComplete :
    ((waiting.residents 0).length == 1 && (match waiting.warp? w0 with
      | some p => (match p.run with | some r => r.pend.length == 1 && r.pend.all (fun q => q.id == 7 && !q.arrived) | none => false)
      | none => false)) = true ∧
    (let s := onWarp (fun p => { p with marks := [marking true] }) posed
     (s.residents 0).all fun e => e.2.marks.all fun m => m.id == 7 && m.known) = true ∧
    (let s := onWarp (fun p => { p with sfq := [computing] }) posed
     match s.warp? w0 with
     | some p => (p.sfq.find? fun x => x.token == 2) == some computing && computing.reg < 8 * p.g
     | none => false) = true ∧
    (let s := onWarp (fun p => { p with sfq := [computing] }) posed
     (s.warp? w0).any fun p => (computing.vals.map fun e => e.1).Nodup && p.live.getLsbD 1 && computing.lanes.getLsbD 1) = true ∧
    ([arriving, { arriving with arrived := true }].all fun d =>
      let s := onCore (fun k => { k with deposits := [d] }) (between posed)
      ((s.core 0).deposits.find? fun x => x.id == 7) == some d && (d.arrived || !(s.core 0).depositBehind d)
        && !s.suspended l0 0 && (s.core 0).firstArrived l0 0 == (if d.arrived then some d else none)
        && (Dict.find (s.core 0).warps 0).any fun p => p.launch == l0 && p.takesDeposit (Dict.find (s.core 0).hnds 0) d) = true ∧
    (Dict.find (posed.core 0).warps 5).isNone = true ∧
    posed.needed 0 7 = false ∧ (Dict.find ((posed.plainRead 0 0x1000 8 false).2.core 0).l1 (0x1000 / 32)).isSome = true ∧
    (let s := onWarp (fun p => { p with icinv := some (0, 0#64, 32#64) }) posed
     (s.warp? w0).any fun p => p.icinv.isSome) = true := by decide +kernel

/-- The launch with its second logical warp still to create. -/
def growing : State :=
  onLaunch (fun l => { l with ams := false, card := { l.card with nthr := 33 }, places := l.places.map fun p => { p with todo := [(5, 1, 2)] } })
    posed

/-- A free slot, a free apply slot and a free place are chosen. -/
theorem test_witness_free_choices :
    (∃ q ∈ (growing.core 0).freeSlots 0 60, growing.pick ((growing.core 0).freeSlots 0 60) = some q) ∧
    (∃ q ∈ (posed.core 0).freeSlots 60 4, posed.pick ((posed.core 0).freeSlots 60 4) = some q) ∧
    (∃ q ∈ (posed.core 0).freePlaces, posed.pick (posed.core 0).freePlaces = some q) :=
  ⟨State.pick_mem _ _ (by decide +kernel), State.pick_mem _ _ (by decide +kernel), State.pick_mem _ _ (by decide +kernel)⟩

theorem throttle_cases (s : State) : s.throttle = none ∨ s.throttle = some 4 ∨ s.throttle = some 2 := by
  unfold State.throttle
  cases Config.congestion s.oracle with
  | none => simp
  | some n => simp only [Option.map_some]; split <;> simp

/-- A run whose first instruction is a claim of eight groups, not granted. -/
def claiming : State := onWarp (fun p => { p with sched := .pending }) (posed0 0x0C000008#32)
where
  posed0 (w : BitVec 32) : State := { State.reset.placeSlot w with focus := some w0 }

/-- The warp pending, ready since the cycle before this. -/
def readied : State := onCore (fun k => { k with cyc := 1#64 }) (onWarp (fun p => { p with sched := .pending, readyAt := some 0 }) (between posed))

theorem test_witness_WarpEventsComplete :
    (match growing.nextUnit 0 with
      | some (_, l, j) => j == 1 && !l.ams && l.card.rg * liveSlices (lowLanes (threadsOf l.card.nthr j)) == 8
      | none => false) = true ∧
    ((growing.core 0).freeSlots 0 60 == (List.range 60).drop 1 && (growing.core 0).started && !(growing.core 0).heldBack
      && (growing.nextJob 0).isNone && !(growing.core 0).created && (growing.core 0).amsJobs == []
      && decide (8 ≤ (growing.core 0).poolFree)) = true ∧
    ([none, some 4, some 2].all fun x => let s := readied
      s.entrant 0 x == some w0) = true ∧
    (let s := readied
     (s.core 0).started && !(s.core 0).entered && (s.activeSet 0).length == 0) = true ∧
    (let s := onWarp (fun p => { p with claim := some { n := 8, since := 0, granted := false } }) posed
     match (s.core 0).firstClaim with
     | some (_, q, h, p, x) => q == 0 && !h && x.n == 8 && decide (x.n * liveSlices p.live ≤ (s.core 0).poolFree) && !(s.core 0).granted
     | none => false) = true ∧
    (let s := onWarp (fun p => { p with wdog := 2147483648 }) posed
     (s.warp? w0).any fun p => s.wdogDue w0 p) = true ∧
    (let s := onCore (fun k => { k with deadlock := 0 }) claiming
     (s.residents 0).length == 1 && (s.warp? w0).any fun p => s.waitsAt w0 p == some (.claim 8#16) && !s.wdogDue w0 p) = true ∧
    (let s := onCore (fun k => { k with amsJobs := [(l0, [7#64])] }) (onLaunch (fun l => { l with ams := true }) growing)
     (s.nextUnit 0).isSome && (s.core 0).freeEntry.isSome && ((s.core 0).amsJobs.find? fun x => x.1 == l0) == some (l0, [7#64]))
      = true := by decide +kernel

theorem test_witness_ActiveSetEntry : readied.entrant 0 readied.throttle = some w0 := by
  rcases throttle_cases readied with h | h | h <;> rw [h] <;> decide +kernel

/-- A session of `apply.r` with one member, started. -/
def packing : Session where
  id := 3
  launch := l0
  value := localValue 0 1#32
  repack := true
  b0 := 0
  b1 := 1
  block := 0x2000#64
  arrived := [(0, 0#64)]
  started := true
  members := [(0, 0)]
  turns := []
  next := 0
  gone := []

/-- A sweep handler to be created. -/
def handling : SweepJob where
  launch := l0
  logical := 0
  hdl := 0#64
  seq := 0
  slot := 0
  sweep := 1
  hent := 0x2000#64
  hg := 1
  regs := [0#64, 1#64, 2#64, 3#64, 4#64, 5#64, 6#64]
  heard := []

/-- A trap of a warp. -/
def aTrap : Trap := { code := .user, pos := 3, info := 5, lanes := none, kind := 0 }

theorem test_witness_WarpKindEventsComplete :
    (let s := onCore (fun k => { k with sessions := [packing] }) posed
     (s.core 0).nextApply == some (packing, 0) && (s.core 0).freeSlots 60 4 == [60, 61, 62, 63]
       && !(s.core 0).claimWaits && !(s.core 0).created && decide (packing.need 0 ≤ (s.core 0).poolFree)) = true ∧
    (let s := onCore (fun k => { k with jobs := [handling] }) posed
     s.nextJob 0 == some handling && (s.core 0).freeSlots 0 60 != [] && !(s.core 0).heldBack && !(s.core 0).created
       && decide (4 ≤ (s.core 0).poolFree)) = true ∧
    (let s := onWarp (fun p => { p with wait := .handler aTrap 0x2000#64 }) (between posed)
     (Dict.find (s.core 0).warps 0).any fun p => p.wait == .handler aTrap 0x2000#64 && p.marks == [] && p.sfq == [] && !p.stop
       && p.sched != .suspended && s.goesOn p && !(s.core 0).created && (Dict.find (s.core 0).hnds 0).isNone) = true ∧
    (let t : Trap := { aTrap with code := .logfull, lanes := some 1#32, addr := 0x1000#64 }
     let s := onWarp (fun p => { p with due := some (t, 0x2000#64), marks := [marking true] }) posed
     (Dict.find (s.core 0).warps 0).any fun p => p.handlerDue == some (t, 0x2000#64) && p.marks != [] && !p.stop
       && p.sched != .suspended && s.goesOn p && !(s.core 0).created && (Dict.find (s.core 0).hnds 0).isNone) = true ∧
    (let s := onWarp (fun p => { p with live := 0#32 }) (between posed)
     (s.warp? w0).any fun p => p.kind == .ordinary && p.applies == [] && s.retires w0 p) = true ∧
    ([.apply 3 [], .sweep 0#64 1 0 1] : List WarpKind).all (fun x =>
      let s := onWarp (fun p => { p with live := 0#32, kind := x }) (between posed)
      (s.warp? w0).any fun p => p.kind == x && s.retires w0 p) = true := by decide +kernel

/-! ### Witnesses: events of launches, cards and preemption -/

/-- The launch with no warp left. -/
def emptied : State := onCore (fun k => { k with warps := [] }) posed

/-- A launch ended by a trap. -/
def failed : State := onLaunch (fun l => { l with cause := some { code := .user, detail := 0 } }) emptied

theorem test_witness_LaunchEventsComplete :
    ((emptied.launch? l0).any fun l => l.id == l0 && !l.isDet && l.mode == 0 && emptied.endsNow l) = true ∧
    ((failed.launch? l0).any fun l => l.cause == some { code := .user, detail := 0 } && !failed.enginesOf l0
      && !failed.canStillPerform l0 && !failed.canStillCommit l0 && !failed.flushWaits l) = true ∧
    (let s := onDev (fun d => { d with dbars := listChange d.dbars 0 fun _ =>
        { launch := some l0, ph := 0#32, arr := (List.range 32).map fun t => (0#32, t) } }) posed
     (s.dev.dbars[0]?).any fun b => (s.launch? l0).any fun l => b.launch == some l0 && decide (l.exited < l.card.nthr)
       && decide (l.card.nthr - l.exited ≤ (b.arr.filter fun a => a.1 == b.ph).length) && l.cause == none && !l.isDet) = true ∧
    (let s := between posed
     let t : State := { s with launches := Dict.put s.launches 1 (newLaunch 1 0 placedCard [] 0 true false (some l0) [(0, 0, 1#32)]) }
     ((t.launch? 1).any fun l => l.id == 1 && (t.warp? w0).any fun p => (l.argkLeft.find? fun x => x.1 == 0 && x.2.1 == 0) == some (0, 0, 1#32)
       && l.poster == some p.launch && p.applies == [] && p.run == none && p.wait == .none && p.due == none && !p.stop && p.sched != .suspended)) = true := by
  decide +kernel

/-- A queued card of tenant 0 at level 0. -/
def anItem (core : Option Nat) (card : Option Card) : QItem where
  id := 9
  tenant := 0
  level := 0
  core := core
  addr := 0x1000
  host := true
  card := card
  launch := none
  fault := none

/-- A card of one warp at 0x1000, its code header at 0x2000, queued for a core or any. -/
def queued (core : Option Nat) (card : Option Card) : State :=
  onCore (fun k => { k with passes := 4 }) (onDev (fun d => { d with queue := [anItem core card], enable := true, caravan := List.replicate 4 .running })
    ((((mapped emptied).writeWord 0x1000 0x3000#64).writeWord 0x1008 0x4000#64).writeWord 0x1018 32#64))

/-- What a queue's head is read as. -/
def headCard (s : State) : Option Card := match s.readCard 0 0x1000 with | .held x => some x | _ => none

theorem test_witness_CardEventsComplete :
    (let s := queued none none
     (s.dev.queue[0]?).any (fun q => s.isHead q && !s.stillFaults q.tenant q.fault && q.card == none)
       && (headCard s).any fun x => !x.argk && x.nthr != 0) = true ∧
    (match (((queued none none).writeWord 0x1000 1#64).readCard 0 0x1000) with
      | .fails _ _ _ => true
      | _ => false) = true ∧
    (let s := queued (some 0) (headCard (queued none none))
     (s.serves 0).any fun q => q.core == some 0 && !(s.core 0).placed && q.card.any fun x =>
       match s.placeUnit 0 q x with | .made _ => true | _ => false) = true ∧
    (let s := queued none (headCard (queued none none))
     (s.dev.queue[0]?).any fun q => q.core == none && !s.dev.anyPlaced && s.serves 0 == some q && !(s.core 0).placed && q.card.any fun x =>
       s.chosen x (s.placer q) == some 0 && match s.placeUnit 0 q x with | .made _ => true | _ => false) = true ∧
    (let s := onCore (fun k => { k with messages := [{ tenant := 0, card := 0x1000, depth := 1, payload := [7#64], fault := none, held := none, heard := [] }] })
       (queued none none)
     let t := onCore (fun k => { k with messages := k.messages.map fun m => { m with held := headCard s } }) s
     (s.core 0).messages.length == 1 && ((headCard s).any fun x => x.nthr != 0 && decide (x.nthr ≤ 32) && !x.argk && s.fits 0 x none)
       && (t.core 0).messages.all fun m => m.held.any fun x => t.fits 0 x none) = true ∧
    ((headCard ((queued none none).writeWord 0x1018 33#64)).any fun x => decide (32 < x.nthr)) = true := by decide +kernel

/-- Preemption of the launch on core 0 under way, its warp stopped or not. -/
def halting (age : Nat) (stop : Bool) : State :=
  onWarp (fun p => { p with stop := stop }) (onCore (fun k => { k with preempts := [{ launch := l0, age := age }] }) (between posed))

theorem test_witness_PreemptionEventsComplete :
    (let s := onDev (fun d => { d with queue := d.queue.map fun q => { q with level := 11, card := q.card.map fun x =>
        { x with pri := 11, rg := 16, tc := 16 } } }) { queued none (headCard (queued none none)) with cores := posed.cores }
     let s := onLaunch (fun l => { l with card := { l.card with tc := 1 }, places := l.places.map fun p => { p with tiles := [0] } }) s
     (s.launch? l0).any fun l => l.preemptible 0 && !(s.core 0).preempting l0 && s.mustYield 0 l) = true ∧
    (([(none, Wait.none), (some (some 0x1000#64, 64, 32), .none), (some (some 0x1000#64, 64, 32), .session 3),
         (some (none, 64, 32), .session 3)] : List (Option (Option Word × Nat × Nat) × Wait)).all fun g =>
       let s := onWarp (fun p => { p with region := g.1, wait := g.2 }) (halting 0 false)
       (s.warp? w0).any fun p => !p.stop && p.eligible && p.region == g.1
         && (s.core 0).preempts.any fun x => x.launch == p.launch && decide (x.age < 2097152)) = true ∧
    (let s := halting 2097152 false
     (s.launch? l0).isSome && ((s.core 0).preempts.find? fun x => x.launch == l0) == some { launch := l0, age := 2097152 }
       && !s.allStopped 0 l0) = true ∧
    (let s := halting 0 true
     (s.launch? l0).any fun l => (l.place? 0).any fun p => (s.core 0).preempting l0 && !p.away && l.cause == none
       && s.allStopped 0 l0 && s.drained 0 l0) = true ∧
    (let s := halting 0 true
     (s.launch? l0).any fun l => (l.place? 0).any fun p =>
       let t := s.saveLaunch 0 l p 1
       (t.dev.saved.find? fun y => y.core == 0 && y.launch == l0).any fun x => (t.launch? l0).any fun y => t.resumable x y) = true := by
  decide +kernel

/-! ### Witnesses: homes, engines, errors, firmware and the host -/

/-- A guard count at 0x1000 queued by core 0. -/
def counting : HomeReq where
  id := 7
  core := 0
  warp := w0
  stamp := 0
  launch := l0
  sector := 128
  round := 0
  packet := none
  tenant := 0
  age := 0
  ths := [0]
  acc := .guard 0 0x1000 0x1000 5

/-- A command on core 0's scoreboard that clears tile 0. -/
def clearing (started : Bool) : EngRec where
  id := 7
  launch := l0
  warp := w0
  stamp := 0
  cmd := .mzero 0
  ranges := []
  tiles := [(0, true)]
  started := started
  flags := 0#5
  poison := false
  peer := false
  age := 0
  argk := none
  heard := []

/-- A sweep of one page for the subscription in place 0, its list still to read. -/
def sweeping : Sweep where
  id := 1
  launch := l0
  core := 0
  sid := 0
  base := 0x1000#64
  dh := false
  et := false
  last := none
  tail := false
  subs := []
  toRead := [(0, 0, false)]
  fault := none
  heard := []

/-- The subscription of a sweep under way, one page staged for it. -/
def staging : State :=
  let s := subscribed .run
  let s := onCore (fun k => { k with subs := listChange k.subs 0 fun p => { p with sub := p.sub.map fun u =>
    { u with lb := 0xFF001000, sweep := some 1, list := 0x1000#64 } } }) s
  { s with
    launches := s.launches.map fun e => (e.1, { e.2 with card := { e.2.card with near := 131072, shadows := [(4096, 4096)] } })
    dies := listChange s.dies 0 fun d => { d with
      sweeps := [sweeping]
      staged := [{ sweep := 1, page := 0, bytes := [], todo := [(0, 0, 0)], heard := [] }] } }

theorem test_witness_HomeAndEngineEventsComplete :
    (let s := onDev (fun d => { d with homeQ := [counting] }) (mapped posed)
     s.nextAccess 128 == some counting && !counting.acc.combines counting.acc && s.canPerform counting.acc && (match s.perform 0 l0 (some w0) counting.acc with | .done _ _ _ => true | _ => false)) = true ∧
    (let s := onCore (fun k => { k with engine := [clearing false] }) equipped
     (s.launch? l0).any fun l => ((s.core 0).engine.find? fun x => x.id == 7) == some (clearing false)
       && (s.core 0).mayStart (clearing false) && !l.awayFor (clearing false).ranges && !(clearing false).poisoned s l 0) = true ∧
    (let s := onLaunch (fun l => { l with places := l.places.map fun p => { p with frozen := true } }) equipped
     (s.launch? l0).any fun l => ({ clearing false with poison := true } : EngRec).poisoned s l 0) = true ∧
    ((clearing true).started && !(clearing true).poison && !(clearing true).peer && !(clearing true).cmd.automaton) = true ∧
    ((staging.sweepStep 0 0).isSome && ((staging.die 0).staged.flatMap fun g => g.todo.map fun t => (g, t)).length == 1
      && (staging.die 0).staged.all fun g => (staging.deliver g (0, 0, 0)).isSome) = true := by decide +kernel

/-- An access whose record finds no room in the log. -/
theorem test_witness_HomeAndEngineEventsComplete_raised :
    (let s := onLaunch (fun l => { l with det := 3#64, logPos := 2 ^ 20 })
       (onDev (fun d => { d with homeQ := [counting] }) (mapped posed))
     s.nextAccess 128 == some counting && match s.perform 0 l0 (some w0) counting.acc with | .raised _ => true | _ => false) = true := by
  decide +kernel

/-- An atomic of device scope at 0x1000. -/
def adding : AtomAcc where
  op := .add
  wide := false
  lane := 0
  va := 0x1000
  pa := 0x1000
  b := 1#64
  c := 0#64
  block := none
  grp := none
  scope := 5

/-- An access that a gateway may combine, and an access whose place in the order nothing decides. -/
theorem test_witness_HomeAndEngineEventsComplete_combined :
    (let q : HomeReq := { counting with acc := .atom 0 adding }
     let s := onDev (fun d => { d with homeQ := [q] }) (mapped posed)
     s.nextAccess 128 == some q && decide (q.core < 144) && q.acc.combines q.acc) = true ∧
    (match (mapped posed).decideSync l0 (some w0) 0 0x1000 with | .made t => t == mapped posed | _ => false) = true := by decide +kernel

/-- A copy of two rows of eight elements without a change of format. -/
def copying (dir : Nat) (dst src : Word) : Copy where
  dir := dir
  mcast := none
  dst := dst
  src := src
  rows := 2
  cnt := 8
  dstr := 64
  sstr := 64
  near := [2, 2]
  rm := 0#3
  ftz := false
  tag := 0
  tid := 0#64
  seed := 0#64
  pages := [{ va := 0, size := 2 ^ 21, pa := 0, r := true, w := true, x := true, fmt := 0#64 }]
  fmt := 2#64

/-- The places of a copy's bytes. -/
def cellsOf (rows n : Nat) (g : Nat → Nat → Nat) : List Nat := (List.range rows).flatMap fun r => (List.range n).map (g r)

theorem test_witness_HomeAndEngineEventsComplete_copies :
    (equipped.launch? l0).any (fun l => (l.place? 0).any fun p =>
      let move := copying 2 0xFF000100#64 0xFF000000#64
      let load := copying 0 0xFF000100#64 0x3000#64
      let store := copying 1 0x3000#64 0xFF000100#64
      !move.selfOverlap l 0 && decide (cellsOf 2 8 fun r i => l.sliceOff p (256 + 64 * r + i) true).Nodup
        && ([load, store].all fun c => !tagMx (entryTag c.fmt) && c.cnt * (tagFmt (entryTag c.fmt)).width % 8 == 0
          && !c.rowsOverlap && (List.range c.rows).all fun r => c.tagOf r == entryTag c.fmt)
        && rowBytes (entryTag load.fmt) load.cnt == 32
        && decide (cellsOf 2 32 fun r i => l.sliceOff p (256 + 64 * r + i) true).Nodup
        && decide (cellsOf 2 32 fun r i => equipped.cell (store.phys (store.dst + BitVec.ofNat 64 (64 * r + i)))).Nodup) = true := by
  decide +kernel

theorem test_witness_ErrorAndFabricEventsComplete :
    (let s := onDev (fun d => { d with depErrors := [(0, 0x1000)] }) (mapped posed)
     s.dev.depErrors.contains (0, 0x1000) && match s.translateHome 0 (0x1000#64 + 0x40#64) .modify with | .ok _ => true | _ => false)
      = true ∧
    (let s := onCore (fun k => { k with reqs := [{ id := 7, n := 1, remote := true, age := 2100000 }] }) posed
     s.dev.homeQ == [] && (s.core 0).reqs.any fun q => q.id == 7 && q.remote && decide (2100000 ≤ q.age)) = true ∧
    (let s := onDev (fun d => { d with homeQ := [counting] }) posed
     (s.dev.homeQ.find? fun x => x.core == 0 && x.id == 7).any fun q => decide (q.age < 2100000)) = true ∧
    (let s := onDev (fun d => { d with queue := [{ anItem none none with host := false }] }) posed
     (s.dev.queue.find? fun x => x.tenant == 0 && x.addr == 0x1000).any fun q => q.launch == none && !q.host) = true ∧
    ((State.reset.dev.ports[71]?).any fun p => p.inService && p.next == 0#12) = true ∧
    (Tab.get 0 State.reset.dev.e2eSeen 3 == 0 && State.reset.dev.e2eHeld == [] && State.reset.accessArrives (0x1000 / 32)) = true := by decide +kernel

/-- A device whose firmware runs. -/
def running : State := onDev (fun d => { d with caravan := List.replicate 4 Boot.running }) posed

theorem test_witness_FirmwareEventsComplete :
    (running.dev.booted && !running.dev.enable && !(running.core 143).started && running.dev.svc == none
      && running.placesOn 143 == [] && running.localBlock 4096 == some 1 && running.dev.reload == none) = true ∧
    (let s := onDev (fun d => { d with svc := some { cmd := 1, arg := 143, done := false, fail := 0#8 } }) running
     s.emptied 143 && !s.emptied 0) = true ∧
    (let s := onDev (fun d => { d with caravan := List.replicate 4 Boot.fetching }) posed
     s.dev.fetching && !s.dev.mbxgo) = true ∧
    (let s := onDev (fun d => { d with caravan := List.replicate 4 Boot.fetching, mbxgo := true }) posed
     s.dev.fetching && s.dev.mbxgo) = true ∧
    ([true, false].all fun v =>
      let s := onDev (fun d => { d with image := some { valid := v, hash := 0#384 } }) posed
      s.dev.image == some { valid := v, hash := 0#384 }) = true ∧
    (let s := onDev (fun d => { d with reload := some 2 }) running
     s.dev.svc == none && s.dev.reload == some 2) = true ∧
    (25 ∈ [25, 50, 80, 160, 320, 640, 1280] ∧ 16 ∈ [1, 2, 4, 8, 16]) ∧
    (onDev (fun d => { d with measure := some 0#384 }) posed).dev.measure.isSome = true ∧ posed.dev.halted = false := by
  decide +kernel

theorem test_witness_HostEventsComplete :
    (running.dev.booted && decide (running.tenants.length = 16)) = true ∧
    (let s := onWarp (fun p => { p with wait := .fault 1 0 }) running
     (s.warp? w0).any fun p => p.wait == .fault 1 0 && (s.launch? l0).any fun l => l.tenant == 0) = true ∧
    (let x : Trap := { code := .xlate, pos := 26, info := 2048, lanes := none, kind := 0 }
     let s := onWarp (fun p => { p with wait := .handler x 0x2000#64, trap := some (x, 0x1000#64) }) running
     (s.warp? w0).any fun p => p.wait == .handler x 0x2000#64 && p.trap == some (x, 0x1000#64) && x.code == .xlate
       && x.info / 2048 == 1 && x.kind == 0) = true ∧
    ((running.tenant 0).tlbBusy == none && !(running.tenant 0).posting) = true ∧
    (let s := running.modTenant 0 fun r => { r with tlbBusy := some none }
     (s.tenant 0).tlbBusy == some none && !s.usesOld 0) = true ∧
    (match (mapped running).translateHome 0 (0x1000#64 + 0x40#64) .modify with | .ok _ => true | _ => false) = true := by
  decide +kernel

/-! ### Witnesses: stores, traps and the machine as a whole -/

/-- A store of one byte at 0x1000. -/
def oneByte : List ByteWrite := [{ pa := 0x1000, mask := 0xF0#8, val := 0xA5#8 }]

theorem test_witness_StoresTouchOnlyTheirBytes :
    seen posed .nop (fun c => decide (c.w.core < posed.cores.length) && decide ((oneByte.map fun w => posed.cell w.pa).Nodup) &&
      decide ((posed.core 0).l1.length + oneByte.length ≤ 8192) &&
      (oneByte.all fun w => oneByte.all fun x => posed.cell (32 * (w.pa / 32)) != posed.cell (32 * (x.pa / 32)) || w.pa / 32 == x.pa / 32) &&
      ([true, false].all fun na => match posed.heldStep c (.bytes na oneByte) [] with | .done _ => true | _ => false)) = true := by
  decide +kernel

/-- A store with `.na` beside a byte of its sector that the core holds dirty. -/
theorem test_witness_StoresTouchOnlyTheirBytes_na :
    (let s := posed.storeByte 0 false { pa := 0x1001, mask := 0xFF#8, val := 7#8 }
     let t := s.storeBytes 0 true oneByte
     s.readByte 0x1001 == 0#8 && s.flushedByte 0 0x1001 == 7#8 && t.readByte 0x1001 == 7#8 && t.readByte 0x1000 == 0xA0#8
       && t.coreByte 0 0x1000 == 0xA0#8) = true := by decide +kernel

/-- A launch with a trap vector table at 0x8000, whose USER entry is 0x2000. -/
def vectored (e : Word) : State :=
  onLaunch (fun l => { l with card := { l.card with tvt := 0x8000#64 } }) ((mapped posed).writeWord (0x8000 + 8 * Code.num .user) e)

/-- A handler warp of the warp, with its trap. -/
def handled : State := onCore (fun k => { k with hnds := k.warps.map fun e => (e.1, { e.2 with kind := .handler, trap := some (aTrap, 0x1000#64) }) })
  (onWarp (fun p => { p with wait := .handler aTrap 0x2000#64 }) posed)

theorem test_witness_TrapsAreTaken :
    ([vectored 0x2000#64].all fun s => (s.launch? l0).any fun l =>
      match s.vector l .user with | .ok (some e) => e == 0x2000#64 | _ => false) = true ∧
    ((vectored 0#64).launch? l0).any (fun l => match (vectored 0#64).vector l .user with | .ok none => true | _ => false) = true ∧
    ((vectored 1#64).launch? l0).any (fun l => match (vectored 1#64).vector l .user with | .error _ => true | _ => false) = true ∧
    (Code.user.never || aTrap.code == .xlate) = false ∧ (posed.launch? l0).any (fun l => l.card.tvt == 0#64) = true ∧
    (match handled.ctx? { w0 with hnd := true } with
      | some c => handled.quiet c.w c.p && c.p.trap == some (aTrap, 0x1000#64) && ownerRef c.w == w0 && !c.r.yield
      | none => false) = true ∧
    (handled.warp? { w0 with hnd := true }).isSome = true ∧ Code.never .rpldiv = true := by decide +kernel

/-- LOGFULL with a handler, with none, with a vector that cannot be read; and a handler of it at its return. -/
theorem test_witness_TrapsAreTaken_logfull :
    (let full (e : Word) : State :=
       onLaunch (fun l => { l with card := { l.card with tvt := 0x8000#64 } }) ((mapped posed).writeWord (0x8000 + 8 * Code.num .logfull) e)
     ([0x2000#64, 0#64, 1#64].all fun e => ((full e).launch? l0).any fun l => !l.logWait &&
       ((full e).warp? w0).any (fun p => p.handlerDue.isNone) && match (full e).vector l .logfull with
         | .ok (some x) => e == 0x2000#64 && x == e
         | .ok none => e == 0#64
         | .error _ => e == 1#64) = true) ∧
    (let t : Trap := { aTrap with code := .logfull }
     let s := onCore (fun k => { k with hnds := k.warps.map fun e => (e.1, { e.2 with kind := .handler, trap := some (t, 0x1000#64) }) }) posed
     (s.ctx? { w0 with hnd := true }).any fun c => s.quiet c.w c.p && c.p.trap == some (t, 0x1000#64) && ownerRef c.w == w0) = true := by
  decide +kernel

theorem test_witness_StepRunsTheDecodedInstruction :
    (let s := State.reset.placeSlot 0x09000000#32
     s.agenda == [.issue w0] && (s.warp? w0).any fun p => s.admits w0 p && p.run.any fun r => r.commit == none &&
       (r.slots[r.pos - 1]?).any fun x => match decodeSlot x.1 x.2.1 with | .ok sl => sl.instr == .exit 0#3 | _ => false) = true ∧
    (let s := running
     actOf (.enable 1#64) == none && !isEncoded (.enable 1#64) && !s.dev.halted && !s.givesWay (.enable 1#64)) = true := by
  decide +kernel

theorem test_witness_DecodeOfEncode :
    (let sl : Slot := { chain := true, instr := .xtopk 7#3 23#5 15#5 7#5 15#4 1#1 31#5 15#4 }
     sl.instr.WellFormed && match encodeSlot sl with | some x => (match decodeSlot x.1 x.2 with | .ok y => y == sl | _ => false) | none => false)
      = true := by decide +kernel

theorem test_witness_StepsKeepMemoriesCanonical :
    (let s := mapped posed
     let s : State := { s with agenda := [.tick] }
     s.memoriesWf && match step s with | .next _ => true | _ => false) = true := by decide +kernel

theorem test_witness_HaltedDeviceStands :
    (let s : State := { (onDev (fun d => { d with halted := true }) posed) with agenda := [.tick, .issue w0] }
     s.dev.halted && s.agenda.head? == some .tick && match step s with | .next t => t.agenda == [.issue w0] | _ => false) = true := by decide +kernel

/-! ### Single steps, with results worked out by hand from the rules -/

/-- What an instruction leaves of the run of the warp in focus. -/
def runAfter (s : State) (i : Instr) : Option Run :=
  match exec i s with
  | .next t => (t.warp? w0).bind fun p => p.run
  | _ => none

/-- What an instruction on values in slots 0 to 3 leaves in t0 of lane 0, and the run's flags. -/
def gives (vs : List Word) (i : Instr) : Option (Word × BitVec 5) :=
  (runAfter (slots vs solo) i).map fun r => (Tab.get 0#64 r.win (32 * 16), r.flags)

/-- What it is to bring into a lane of t0 at the end of its lookahead. -/
def brings (s : State) (i : Instr) (lane : Nat) : Option Word :=
  (runAfter s i).bind fun r => (r.pend.flatMap fun q => q.vals).findSome? fun e => if e.1 = lane then some e.2 else none

/-- R160, R82: one byte over the bound wraps, or saturates and sets SAT; the other bytes are sums of zeros. -/
theorem test_add : gives [0x7F#64, 1#64] (.add (ops 16#5 0#5 1#5 0#5) 4#3 0#1) = some (0x80#64, 0#5) ∧
    gives [0x7F#64, 1#64] (.add (ops 16#5 0#5 1#5 0#5) 4#3 1#1) = some (0x7F#64, 16#5) := by decide +kernel

/-- R160: no borrow crosses a byte; an unsigned difference below 0 saturates at 0. -/
theorem test_sub : gives [0x0100#64, 1#64] (.sub (ops 16#5 0#5 1#5 0#5) 0#3 0#1) = some (0x01FF#64, 0#5) ∧
    gives [0#64, 1#64] (.sub (ops 16#5 0#5 1#5 0#5) 3#3 1#1) = some (0#64, 16#5) := by decide +kernel

/-- R160: signed and unsigned order, the halves of a product, and a product with a sum. -/
theorem test_mul_min_max :
    gives [0x80#64, 1#64] (.min (ops 16#5 0#5 1#5 0#5) 4#3) = some (0x80#64, 0#5) ∧
    gives [0x80#64, 1#64] (.max (ops 16#5 0#5 1#5 0#5) 0#3) = some (0x80#64, 0#5) ∧
    gives [0xFFFFFFFF#64, 0xFFFFFFFF#64] (.mulhi (ops 16#5 0#5 1#5 0#5) 2#3) = some (0xFFFFFFFE#64, 0#5) ∧
    gives [0xFFFFFFFF#64, 0xFFFFFFFF#64] (.mulhi (ops 16#5 0#5 1#5 0#5) 6#3) = some (0#64, 0#5) ∧
    gives [0x0101#64, 0x0003#64] (.mul (ops 16#5 0#5 1#5 0#5) 1#3 0#1) = some (0x0303#64, 0#5) ∧
    gives [100#64, 3#64, 7#64] (.mad (ops 16#5 0#5 1#5 2#5) 0#3 1#1) = some (255#64, 16#5) := by decide +kernel

/-- R162: the count is taken modulo the width. -/
theorem test_shifts :
    gives [0x81#64, 9#64] (.shl (ops 16#5 0#5 1#5 0#5) 0#3) = some (0x02#64, 0#5) ∧
    gives [0x80#64, 1#64] (.shr (ops 16#5 0#5 1#5 0#5) 4#3) = some (0x40#64, 0#5) ∧
    gives [0x80#64, 1#64] (.sar (ops 16#5 0#5 1#5 0#5) 0#3) = some (0xC0#64, 0#5) ∧
    gives [0x81#64, 1#64] (.rot (ops 16#5 0#5 1#5 0#5) 0#3) = some (0x03#64, 0#5) := by decide +kernel

/-- R162: counts of each 16-bit element; a zero element gives 16. -/
theorem test_bit_counts :
    gives [1#64] (.clz 0#3 16#5 0#5 1#3) = some (0x001000100010000F#64, 0#5) ∧
    gives [8#64] (.ctz 0#3 16#5 0#5 1#3) = some (0x0010001000100003#64, 0#5) ∧
    gives [0xF000000000000001#64] (.popc 0#3 16#5 0#5 2#3) = some (0x0000000400000001#64, 0#5) ∧
    gives [1#64] (.brev 0#3 16#5 0#5 3#3) = some (0x8000000000000000#64, 0#5) := by decide +kernel

/-- R163, R164: −1 is below 0 where the type is signed; the lowest value has no magnitude in its type. -/
theorem test_compare_and_sign :
    gives [0xFF#64, 0#64] (.cmp (ops 16#5 0#5 1#5 0#5) 4#3 2#3) = some (0xFF#64, 0#5) ∧
    gives [0xFF#64, 0#64] (.cmp (ops 16#5 0#5 1#5 0#5) 3#3 4#3) = some (0xFFFFFFFFFFFFFFFF#64, 0#5) ∧
    gives [0x80#64] (.abs 0#3 16#5 0#5 4#3 0#1) = some (0x80#64, 0#5) ∧
    gives [0x80#64] (.abs 0#3 16#5 0#5 4#3 1#1) = some (0x7F#64, 16#5) ∧
    gives [1#64] (.neg 0#3 16#5 0#5 0#3 0#1) = some (0xFF#64, 0#5) ∧
    gives [1#64] (.neg 0#3 16#5 0#5 0#3 1#1) = some (0#64, 16#5) := by decide +kernel

/-- R161, R165, R166, with the spec's own constant 0x1234_5678_9ABC_DEF0 in its last `movh`. -/
theorem test_fields_and_constants :
    gives [0xFF00#64, 0xF0F0#64] (.andn (ops 16#5 0#5 1#5 0#5)) = some (0x0F00#64, 0#5) ∧
    gives [0xFF00#64, 0x00FF#64, 0x0FF0#64] (.sel (ops 16#5 0#5 1#5 2#5)) = some (0x0F0F#64, 0#5) ∧
    gives [0xF0#64] (.ext 0#3 16#5 0#5 1#1 3#6 4#6) = some (0xFFFFFFFFFFFFFFFF#64, 0#5) ∧
    gives [0xF0#64] (.ext 0#3 16#5 0#5 0#1 3#6 4#6) = some (0xF#64, 0#5) ∧
    gives [0xABC#64] (.ins 0#3 16#5 0#5 7#6 8#6) = some (0xBC00#64, 0#5) ∧
    gives [] (.movi 0#3 16#5 0x8000#16) = some (0xFFFFFFFFFFFF8000#64, 0#5) ∧
    gives [0x123456789ABC#64] (.movh 0#3 16#5 0#5 0xDEF0#16) = some (0x123456789ABCDEF0#64, 0#5) ∧
    gives [0#64] (.addi 0#3 16#5 0#5 0xFFFF#16) = some (0xFFFFFFFFFFFFFFFF#64, 0#5) ∧
    gives [5#64, 3#64] (.lea (ops 16#5 0#5 1#5 0#5) 7#3) = some (389#64, 0#5) := by decide +kernel

/-- R167, R168: part 3 of 8-bit elements gives elements 6 and 7, with their signs. -/
theorem test_icvt :
    gives [0x80FF000000000000#64] (.icvt 0#3 16#5 0#5 6#3 4#3 0#1 3#3) = some (0xFFFFFF80FFFFFFFF#64, 0#5) ∧
    gives [0x100#64] (.icvt 0#3 16#5 0#5 0#3 3#3 1#1 0#3) = some (0xFF#64, 16#5) := by decide +kernel

/-- R171, R96: (1 + 2⁻²³)² rounded to nearest and up; `fadd` of the spec's queue example; one rounding of `fma`. -/
theorem test_float_arithmetic :
    gives [0x3F800001#64, 0x3F800001#64] (.fmul (ops 16#5 0#5 1#5 0#5) 1#2 0#3 0#1) = some (0x3F800002#64, 8#5) ∧
    gives [0x3F800001#64, 0x3F800001#64] (.fmul (ops 16#5 0#5 1#5 0#5) 1#2 3#3 0#1) = some (0x3F800003#64, 8#5) ∧
    gives [0x3F00000041000000#64] (.fadd (ops 16#5 0#5 0#5 0#5) 1#2 0#3 0#1) = some (0x3F80000041800000#64, 0#5) ∧
    gives [0x3FF0000000000000#64, 0x3FF0000000000000#64] (.fsub (ops 16#5 0#5 1#5 0#5) 0#2 2#3 0#1) = some (0x8000000000000000#64, 0#5) ∧
    gives [0x40000000#64, 0x40400000#64, 0x3F800000#64] (.fma (ops 16#5 0#5 1#5 2#5) 1#2 0#3 0#1) = some (0x40E00000#64, 0#5) ∧
    gives [0x40000000#64, 0x40400000#64, 0x40E00000#64] (.fnma (ops 16#5 0#5 1#5 2#5) 1#2 0#3 0#1) = some (0x3F800000#64, 0#5) ∧
    gives [0x3C00#64, 3#64] (.fscl (ops 16#5 0#5 1#5 0#5) 2#2 0#3 0#1) = some (0x4800#64, 0#5) := by decide +kernel

/-- R172 to R176: −0 below +0; a signalling NaN; the sign of h4; halves to even; the range of h4; the sum of products. -/
theorem test_float_selection_and_conversion :
    gives [0#64, 0x8000000080000000#64] (.fmin (ops 16#5 0#5 1#5 0#5) 1#2 0#1) = some (0x8000000080000000#64, 0#5) ∧
    gives [0x7F800001#64, 0x3F800000#64] (.fmax (ops 16#5 0#5 1#5 0#5) 1#2 0#1) = some (0x3F800000#64, 1#5) ∧
    gives [0#64] (.fsgn (ops 16#5 0#5 0#5 0#5) 7#4 0#2) = some (0xFFFFFFFFFFFFFFFF#64, 0#5) ∧
    gives [0x40200000#64] (.frnd 0#3 16#5 0#5 1#2 0#3 0#1) = some (0x40000000#64, 8#5) ∧
    gives [0x42C80000#64] (.fcvt 0#3 16#5 0#5 7#4 2#4 0#3 0#1 0#4) = some (0x07#64, 24#5) ∧
    gives [0x3C003C003C003C00#64, 0x4000400040004000#64, 0x3F800000#64] (.fdot2 (ops 16#5 0#5 1#5 2#5) 2#2 0#3 0#1)
      = some (0x41100000#64, 0#5) := by decide +kernel

/-- R187, R188: the results of the spec's queue example, and three special operands. -/
theorem test_sfq_results :
    ({ computing with fn := 0, ty := 1#2 } : SfqOp).result 0xBF80000040400000#64 = (0x3F00000041000000#64, 0#5) ∧
    ({ computing with fn := 3, ty := 1#2 } : SfqOp).result 0x8000000040800000#64 = (0xFF8000003F000000#64, 0#5) ∧
    ({ computing with fn := 1, ty := 1#2 } : SfqOp).result 0x00000000BF800000#64 = (0xFF8000007FC00000#64, 1#5) := by decide +kernel

/-- R179 to R182 on the thread ids 0 to 31. -/
theorem test_cross_lane :
    brings posed (.xred 0#3 16#5 26#5 11#4 0#2 0#3 0#1 0#4) 5 = some 496#64 ∧
    brings posed (.xscan 0#3 16#5 26#5 11#4 0#2 0#3 0#1 1#1 0#4) 3 = some 3#64 ∧
    brings posed (.xscan 0#3 16#5 26#5 11#4 1#2 0#3 0#1 1#1 0#4) 0 = some 0xFFFFFFFFFFFFFFFF#64 ∧
    brings posed (.xshf (ops 16#5 26#5 29#5 1#5) 0#3 2#2 0#4) 31 = some 0#64 ∧
    brings posed (.xshf (ops 16#5 26#5 29#5 3#5) 0#3 3#2 0#4) 4 = some 7#64 ∧
    brings posed (.xbc (ops 16#5 26#5 29#5 9#5) 0#3 0#4) 0 = some 9#64 ∧
    brings posed (.xbal 0#3 16#5 26#5 0#3 0#4) 7 = some 0xFFFFFFFE#64 ∧
    brings posed (.xtopk 0#3 16#5 26#5 26#5 11#4 1#1 1#5 0#4) 1 = some 30#64 := by decide +kernel

/-- The set values that an instruction stages. -/
def stages (s : State) (i : Instr) (k : Nat) : Option Word := (runAfter s i).bind fun r => Dict.find r.sets k

/-- R220: the lanes whose thread id is 0, and the others. -/
theorem test_ktest :
    stages posed (.ktestInt 0#3 1#5 26#5 0#5 3#3 0#3 0#1 2#3) 1 = some (localValue 0 1#32) ∧
    stages posed (.ktestInt 0#3 1#5 26#5 0#5 3#3 0#3 0#1 2#3) 2 = some (localValue 0 0xFFFFFFFE#32) := by decide +kernel

/-- The tables of the spec's notes on number formats: t8 and t6 codes decoded (R85) and encoded (R86), ties of h4 (R88). EFMT: 2
f32, 5 t8, 6 t6, 7 h4. -/
theorem test_tapered_codes :
    gives [0x8B75#64] (.fcvt 0#3 16#5 0#5 2#4 5#4 0#3 0#1 0#4) = some (0xBA40000044C00000#64, 0#5) ∧
    gives [0x6D6#64] (.fcvt 0#3 16#5 0#5 2#4 6#4 0#3 0#1 0#4) = some (0x4140000040400000#64, 0#5) ∧
    gives [0x447A0000#64] (.fcvt 0#3 16#5 0#5 5#4 2#4 0#3 0#1 0#4) = some (0x74#64, 8#5) ∧
    gives [0x447A0000#64] (.fcvt 0#3 16#5 0#5 5#4 2#4 1#3 0#1 0#4) = some (0x73#64, 8#5) ∧
    gives [0xFF8000004B000000#64] (.fcvt 0#3 16#5 0#5 5#4 2#4 0#3 0#1 0#4) = some (0xFF7E#64, 24#5) ∧
    gives [0x40A00000#64] (.fcvt 0#3 16#5 0#5 6#4 2#4 0#3 0#1 0#4) = some (0x18#64, 8#5) ∧
    gives [0x400000003F800000#64] (.fcvt 0#3 16#5 0#5 7#4 2#4 0#3 0#1 0#4) = some (0x20#64, 8#5) ∧
    gives [0x41000000BF800000#64] (.fcvt 0#3 16#5 0#5 7#4 2#4 0#3 0#1 0#4) = some (0x7E#64, 24#5) := by decide +kernel

/-- The table of the spec's notes on `.ftz` (R100): a product that is subnormal, and a subnormal source. -/
theorem test_ftz :
    gives [0x20000000#64, 0x1F800000#64] (.fmul (ops 16#5 0#5 1#5 0#5) 1#2 0#3 0#1) = some (0x00400000#64, 0#5) ∧
    gives [0x20000000#64, 0x1F800000#64] (.fmul (ops 16#5 0#5 1#5 0#5) 1#2 0#3 1#1) = some (0#64, 12#5) ∧
    gives [0x00000001#64] (.fcvt 0#3 16#5 0#5 5#4 2#4 0#3 0#1 0#4) = some (0x01#64, 12#5) ∧
    gives [0x00000001#64] (.fcvt 0#3 16#5 0#5 5#4 2#4 0#3 1#1 0#4) = some (0#64, 0#5) := by decide +kernel

/-- Where a control instruction sends the run. -/
def sends (s : State) (i : Instr) : Option Xfer := (runAfter s i).map fun r => r.xfer

/-- R72 to R76: offsets count packets from the instruction's packet, here at 16; `loop` takes one off its counter and goes back while it is not 0. -/
theorem test_control :
    sends posed (.bra 3#26) = some (.goto 64#64) ∧ sends posed (.bra 0x3FFFFFF#26) = some (.goto 0#64) ∧
    sends solo (.bre 1#3 2#26) = some (.goto 48#64) ∧ sends solo (.bre 0#3 2#26) = some .fall ∧
    sends solo (.exit 0#3) = some (.exit 1#32) ∧
    sends (lane0 0 0x2000#64 solo) (.brx 0#3 0#5 0#5) = some (.goto 0x2000#64) ∧
    sends (lane0 15 2#64 solo) (.loop 0#3 15#5 0xFFFE#16) = some (.goto 0xFFFFFFFFFFFFFFF0#64) ∧
    (runAfter (lane0 15 2#64 solo) (.loop 0#3 15#5 0xFFFE#16)).map (fun r => Tab.get 0#64 r.win (32 * 15)) = some 1#64 ∧
    sends (lane0 15 1#64 solo) (.loop 0#3 15#5 0xFFFE#16) = some .fall := by decide +kernel

/-- R221, R222: intersection and difference of two local values, the members of a value counted and named. -/
theorem test_set_algebra :
    (let s := kreg 1 (localValue 0 6#32) (kreg 2 (localValue 0 5#32) posed)
     stages s (.kand 3#5 1#5 2#5) 3 = some (localValue 0 4#32) ∧ stages s (.kor 3#5 1#5 2#5) 3 = some (localValue 0 7#32) ∧
     stages s (.kdiff 3#5 1#5 2#5) 3 = some (localValue 0 2#32) ∧
     brings s (.kfirst 0#3 16#5 1#5 29#5 1#5) 0 = none ∧
     (runAfter s (.kcount 0#3 16#5 1#5)).map (fun r => Tab.get 0#64 r.win (32 * 16)) = some 2#64 ∧
     (runAfter s (.kfirst 0#3 16#5 1#5 29#5 1#5)).map (fun r => Tab.get 0#64 r.win (32 * 16)) = some 2#64) := by decide +kernel

/-- R115, R132: a load brings the bytes of its address, zero-extended or sign-extended (R130). -/
theorem test_load :
    (let s := atPage.writeWord 0x1008 0x00000000000000F0#64
     brings s (.ld (ops 16#5 0#5 29#5 1#5) 3#3 0#2 0#4) 0 = some 0xF0#64) := by decide +kernel

/-- R140, R143: what the unit of a home leaves in memory and answers: an add of 4 bytes, a bounded increment, a compare that
fails. -/
theorem test_atomic :
    (let a : AtomAcc := { op := .add, wide := false, lane := 0, va := 0x1000, pa := 0x1000, b := 1#64, c := 0#64, block := none, grp := none, scope := 6 }
     let s := atPage.writeWord 0x1000 0x00000005FFFFFFFF#64
     (s.performAcc l0 (.atom 0 a)).1 = 0xFFFFFFFF#64 ∧
     (s.performAcc l0 (.atom 0 a)).2.2.readWord 0x1000 = 0x0000000500000000#64 ∧
     (s.performAcc l0 (.atom 0 { a with op := .cas, b := 7#64, c := 9#64 })).2.2.readWord 0x1000 = 0x00000005FFFFFFFF#64) := by
  decide +kernel

/-- R139: atomics, stores and barriers are held until the run commits. -/
theorem test_held :
    (runAfter (lane0 1 0xAB#64 atPage) (.st (ops 1#5 0#5 24#5 0#5) 0#3 0#2)).map (fun r => r.held)
      = some [.bytes false [{ pa := 0x1000, mask := 0xFF#8, val := 0xAB#8 }]] ∧
    (runAfter posed (.lmark 5#10)).map (fun r => r.held) = some [.lmark 5] := by decide +kernel

/-- R351: FPFLAGS, the core and the slot as system registers read them. -/
theorem test_sysrd :
    (runAfter (onWarp (fun p => { p with fpflags := 17#5 }) solo) (.sysrd 0#3 16#5 5#10)).map (fun r => Tab.get 0#64 r.win (32 * 16))
      = some 17#64 := by decide +kernel

/-- The warp after an instruction. -/
def warpAfter (s : State) (i : Instr) : Option Warp :=
  match exec i s with
  | .next t => t.warp? w0
  | _ => none

/-- R342, R346, R348: a trap discards the run; with an entry in the table the warp waits for its handler at that entry, without
one the launch ends. -/
theorem test_trap :
    (warpAfter (onLaunch (fun l => { l with card := { l.card with tvt := 0x8000#64 } })
      ((mapped posed).writeWord (0x8000 + 8 * Code.num .illop) 0x2000#64)) (.claim 0#16)).map (fun p => (p.run, p.wait))
        = some (none, .handler { code := .illop, pos := 1, info := 0, lanes := none, kind := 0 } 0x2000#64) ∧
    (match exec (.give 8#16) posed with
      | .next t => (t.launch? l0).map fun l => l.cause
      | _ => none) = some (some { code := .regbnd, detail := 0 }) := by decide +kernel

/-- R58: a commit writes the named slot back at the register that it maps, moves the pc past the run and joins the flags. -/
theorem test_commit :
    (let s := lane0 9 7#64 (onRun (fun r => { r with commit := some (0x0200#16, none, 0), pos := 3, flags := 8#5 }) posed)
     (warpAfter s (.runCommit w0)).map fun p => (Tab.get 0#64 p.regs (32 * 9), p.pc, p.fpflags, p.run)) = some (7#64, 32#64, 8#5, none) := by
  decide +kernel

/-- R31, R49, R51: a header loads the named slots and begins at position 1. -/
theorem test_header :
    (let s := onWarp (fun p => { p with fetched := some (fetchedOf 0x00000000#32), regs := [(256, 5#64)] }) (between posed)
     (warpAfter s (.runHeader w0)).bind fun p => p.run.map fun r => (r.pos, r.b0, r.b1, Tab.get 0#64 r.win 0, r.slots.length))
      = some (1, 1, 0, 5#64, 2) := by decide +kernel

/-- R371: ENABLE leaves the features that the driver offers too. -/
theorem test_enable :
    (match exec (.enable 1#64) (onDev (fun d => { d with drvcap0 := 0xF0F#64 }) running) with
      | .next t => (t.dev.enable, t.dev.devcap0)
      | _ => (false, 0#64)) = (true, 0x60F#64) := by decide +kernel

/-- R122: the resolution of a fault's page and kind lets the warp go on; of another it does not. -/
theorem test_fresolve :
    (let s := onWarp (fun p => { p with wait := .fault 3 0 }) (between running)
     (warpAfter s (.fresolve 0 0x30000#64)).map (fun p => p.wait) = some .none ∧
     (warpAfter s (.fresolve 0 0x40000#64)).map (fun p => p.wait) = some (.fault 3 0)) := by decide +kernel

/-- R96: 127.25 lies outside i8 and −0.25 outside n8, whatever they round to; −0.25 lies inside i8. -/
theorem test_round_outside :
    gives [0xBE80000042FE8000#64] (.fcvt 0#3 16#5 0#5 8#4 2#4 0#3 0#1 0#4) = some (0x7F#64, 24#5) ∧
    gives [0xBE800000#64] (.fcvt 0#3 16#5 0#5 12#4 2#4 0#3 0#1 0#4) = some (0#64, 24#5) ∧
    gives [0xBE800000#64] (.fcvt 0#3 16#5 0#5 8#4 2#4 0#3 0#1 0#4) = some (0#64, 8#5) := by decide +kernel

/-- R115, R205: a store with `.na` leaves its byte of a hit sector clean, so that no later write-back undoes another core's. -/
theorem test_store_na :
    (let one : ByteWrite := { pa := 0x1000, mask := 0xFF#8, val := 0xA5#8 }
     let s := (posed.storeByte 0 false one).storeByte 0 true { one with val := 0x5A#8 }
     ((Dict.find (s.core 0).l1 128).map fun x => x.dirty) = some 0#32 ∧ s.readByte 0x1000 = 0x5A#8) := by decide +kernel

/-- R346, R355: a warp that is stopped while it waits for its handler still waits for it. -/
theorem test_halt :
    (let p := (onWarp (fun p => { p with region := some (some 0x40#64, 0, 32), wait := .handler aTrap 0x2000#64 }) posed).warp? w0
     p.map fun p => ((Warp.halt p).wait, (Warp.halt p).pc)) = some (.handler aTrap 0x2000#64, 0x40#64) := by decide +kernel

/-- R22, R326: unbinding a barrier gives BARMIS to a warp that waits at it. -/
theorem test_unbind :
    (let s := onWarp (fun p => { p with run := none, fetched := some { fetchedOf 0#32 with packs := [BitVec.ofNat 128 (0x7B001807 + 2 ^ 32 * 0x01000000 + 2 ^ 96 * 0x200)] } }) (onCore (fun k => { k with
        barriers := listChange k.barriers 7 fun b => { b with gid := some (groupId 0 0 0#8) } }) (grouped posed))
     let t := onCore (fun k => { k with barriers := listChange k.barriers 7 fun b => { b with gid := none } }) s
     (((s.barmis t { w0 with slot := 1 }).launch? l0).map fun l => l.cause) = some (some { code := .barmis, detail := 0 })) := by
  decide +kernel

/-- R296: in deterministic mode a subscription that its threads have not heard of joins no sweep; one that they have does; and
its own `swsub` tells them. -/
theorem test_sweep_joins :
    (let s := onLaunch (fun l => { l with det := 1#64 }) (subscribed .done)
     let takes (f : Launch → Launch) : Option (List (Nat × Nat)) := ((onLaunch f s).launch? l0).map fun l =>
       (onLaunch f s).sweepTakes l 0 [3]
     takes id = some [] ∧ takes (fun l => l.subscribed [4] (s.subName 0 0)) = some [] ∧
     takes (fun l => l.subscribed [3] (s.subName 0 0)) = some [(0, 0)] ∧
     (((subscribed .done).launch? l0).map fun l => (subscribed .done).sweepTakes l 0 [3]) = some [(0, 0)]) := by
  decide +kernel

/-- R196, R200: an `acq` that reads the count of a mutual `rel` has heard what the thread of that `rel` had; not where another
write has come between, and not where the `rel` does not cover it. -/
theorem test_sweep_hears :
    (let told (scope : Nat) (b : Byte) (s : State) : State :=
       (onLaunch (fun l => l.subscribed [40] 7) s).sync l0 (.home 0x1000) (eventOf l0 99 { w0 with slot := 1 } scope [40]) .rmw
         (List.replicate 8 0#8) (b :: List.replicate 7 0#8)
     let s (f : State → State) : State := f (onRun (fun r => { r with
       slots := ((encode (.acq 0#3 16#5 0#5 5#3 0#4)).map fun e => (e.1, e.2, 0#64)).toList, pos := 1 }) atPage)
     let heard (f : State → State) : Option (List Nat) := match (s f).act w0 with
       | .next t => (((s f).overhear t w0).launch? l0).map fun l => l.heardBy [0]
       | _ => none
     heard (told 5 0#8) = some [7] ∧ heard (told 5 1#8) = some [] ∧ heard (told 0 0#8) = some []) := by decide +kernel

/-- R267: a `tany` at position 1 hears, as its header is passed, of the copies whose tags it finds complete, and of none as it
issues. -/
theorem test_tany_hears :
    (let f := fetchedOf (((encode (.tany 0#2 1#16)).map (·.1)).getD 0#32)
     let told (s : State) : State := onLaunch (fun l => { l.subscribed [40] 7 with
       told := [{ loc := .tag 0 0, val := [], writes := [(eventOf l0 99 w0 5 [40], [7])] }] }) s
     let heard (s : State) : Option (List Nat) := match s.act w0 with
       | .next t => ((s.overhear t w0).launch? l0).map fun l => l.heardBy [0]
       | _ => none
     heard (told (onWarp (fun p => { p with run := none, fetched := some f }) posed)) = some [7] ∧
     heard (told (onRun (fun r => { r with
       slots := ((encode (.tany 0#2 1#16)).map fun e => (e.1, e.2, 0#64)).toList, pos := 1 }) posed)) = some []) := by decide +kernel

/-- R308: of the partials that a subscription holds, those merged come before a `swwait` that finds it done, and those of an
earlier sweep. -/
theorem test_merge_ids :
    (let u : Sub := { oneSub .done with e := 1, partials := [(0, [7]), (2, [8])], merged := [6] }
     (u.mergeIds, (u.begin 3).merged) = ([6, 7], [6, 7])) := by decide

/-- R201, R264: an access to near space comes after those that it overlaps and that the same core received before it. -/
theorem test_sweep_near :
    (let heard (core lo : Nat) : Option (List Nat) := (posed.launch? l0).map fun l =>
       (((l.subscribed [40] 7).touch 0 (l.range 0 8 8 true) [] [40]).touch core (l.range 0 lo 8 false) [] [3]).heardBy [3]
     heard 0 12 = some [7] ∧ heard 0 16 = some [] ∧ heard 1 12 = some []) := by decide +kernel

/-- R3: the SHA-384 hash of the three bytes `abc`, as FIPS 180-4 gives it. -/
theorem test_sha384_abc :
    (let x := ShaState.first.blocks (shaPad [0x61#8, 0x62#8, 0x63#8]) 1
     (x.a, x.b, x.c) = (0xcb00753f45a35e8b#64, 0xb5a03d699ac65007#64, 0x272c32ab0eded163#64) ∧
     (x.d, x.e, x.f) = (0x1a8b605a43ff5bed#64, 0x8086072ba1e7cc23#64, 0x58baeca134c825a7#64)) := by decide +kernel

end Sys2Proof.Tests
end

/-!
PROOFS. The execution model (O6, O40, O43, O44, O45, O54, O58): where instructions on lanes stall and trap; that every
instruction, event and step goes on; the fetch of a run and its header; the events of warps and of launches.
-/

namespace Sys2Proof.Machine

/-! ### Where instructions on lanes wait and what they check -/

/-- A meaning that stalls while its set operand or one of some operand codes is awaited, and takes SETKIND where its set
operand names no lanes of the warp (R32, R64, R216). -/
def Ctx.ChecksLanes (c : Ctx) (s : State) (k : BitVec 3) (codes : List (BitVec 5)) (x : Issue) : Prop :=
  (¬ c.ready k codes → x = .stall) ∧ (c.ready k codes → c.mask k = none → x = .trap s (c.trap .setkind))

/-- The shared head of the meanings on lanes: the wait, the check of the set operand, then what is done on the lanes. -/
theorem Ctx.checksLanes_head (c : Ctx) (s : State) (k : BitVec 3) (codes : List (BitVec 5)) (g : Mask → Issue) :
    c.ChecksLanes s k codes (if c.busyK k.toNat || c.busy codes then .stall
      else match c.mask k with
        | none => .trap s (c.trap .setkind)
        | some m => g m) := by
  constructor
  · intro hr
    have hb : (c.busyK k.toNat || c.busy codes) = true := by
      by_contra hn
      exact hr (by simpa [Ctx.ready] using hn)
    rw [if_pos hb]
  · rintro ⟨hk, hc⟩ hm
    simp [hk, hc, hm]

theorem Ctx.checksLanes_vec (c : Ctx) (s : State) (k : BitVec 3) (d : BitVec 5) (uses : List (BitVec 5))
    (f : Nat → Word × BitVec 5) : c.ChecksLanes s k (d :: uses) (c.vec s k d uses f) := c.checksLanes_head s k _ _

theorem Ctx.checksLanes_vecR (c : Ctx) (s : State) (k : BitVec 3) (d : BitVec 5) (uses : List (BitVec 5)) (rm : BitVec 3)
    (f : Nat → Word × BitVec 5) : c.ChecksLanes s k (d :: uses) (c.vecR s k d uses rm f) := by
  obtain ⟨hstall, htrap⟩ := c.checksLanes_vec s k d uses f
  unfold Ctx.vecR
  exact ⟨fun hr => by rw [hstall hr], fun hr hm => by rw [htrap hr hm]⟩

theorem Ctx.checksLanes_pure (c : Ctx) (s : State) (k : BitVec 3) (d : BitVec 5) (uses : List (BitVec 5)) (f : Nat → Word) :
    c.ChecksLanes s k (d :: uses) (c.pure s k d uses f) := c.checksLanes_head s k _ _

theorem Ctx.checksLanes_late (c : Ctx) (s : State) (k : BitVec 3) (d : BitVec 5) (uses : List (BitVec 5)) (la : BitVec 4)
    (f : Mask → List (Nat × Word) × BitVec 5) : c.ChecksLanes s k (d :: uses) (c.late s k d uses la f) :=
  c.checksLanes_head s k _ _

/-- The meaning of each instruction on lanes makes that wait and that check of the operands `laneForm` names. -/
theorem laneForm_checksLanes {i : Instr} {k : BitVec 3} {d : BitVec 5} {uses : List (BitVec 5)} {late : Bool}
    (h : laneForm i = some (k, d, uses, late)) :
    ∃ f, (∀ s, exec i s = s.issue i f) ∧ ∀ (s : State) (c : Ctx), c.ChecksLanes s k (d :: uses) (f s c) := by
  cases i
  case add | sub | mul | mulhi | mad | min | max | shl | shr | sar | rot | clz | ctz | popc | brev | cmp | abs | neg | icvt |
      fmin | fmax | fdot2 | fsgn =>
    cases h; exact ⟨_, fun _ => rfl, fun s c => Ctx.checksLanes_vec c s _ _ _ _⟩
  case fadd | fsub | fmul | fma | fnma | frnd | fscl | fcvt =>
    cases h; exact ⟨_, fun _ => rfl, fun s c => Ctx.checksLanes_vecR c s _ _ _ _ _⟩
  case and | or | xor | andn | sel | ext | ins | movi | movh | addi | lea | sfp =>
    cases h; exact ⟨_, fun _ => rfl, fun s c => Ctx.checksLanes_pure c s _ _ _ _⟩
  case xperm | xshf | xbc | xbal | xred | xscan | xtopk =>
    cases h; exact ⟨_, fun _ => rfl, fun s c => Ctx.checksLanes_late c s _ _ _ _ _⟩
  all_goals cases h

/-- Settles O6: the wait and the check stand at the head of every meaning on lanes, and `State.issue` answers for them. -/
theorem laneInstructionsStallOrTrap : Obligations.LaneInstructionsStallOrTrap := by
  intro s c i k d uses late hform hsees
  obtain ⟨f, hexec, hchecks⟩ := laneForm_checksLanes hform
  obtain ⟨hstall, htrap⟩ := hchecks s c
  have hissue := State.issue_of_sees hsees f
  constructor
  · intro hr
    rw [hexec, hissue, hstall hr]
  · intro hr hm
    rw [hexec, hissue, htrap hr hm]
    rfl

/-! ### Every instruction and event goes on -/

/-- An encoded instruction is issued in the warp in focus. -/
theorem exec_eq_issue {i : Instr} (h : isEncoded i = true) : ∃ f, ∀ s, exec i s = s.issue i f := by
  cases i
  case instructionFetch | runHeader | runCommit | pendingValueArrival | sfqCompletion | deposit | warpCreation |
      claimGrant | activeSetEntry | warpRetirement | launchEnd | launchAbort | deviceBarrierPhase |
      applyWarpCreation | watchdogExpiry | claimDeadlock | handlerWarpCreation | l1Eviction | homeAccessPerform |
      engineCommandStart | engineCommandCompletion | sweepPageFetch | pageDelivery | sweepHandlerCreation | cardRead |
      unitPlacement | anyQueuePlacement | argkMemberStart | amsArrival | preemptionRequest | warpStop |
      ptimeExpiry | contextSave | contextResume | uncorrectableDataError | schedulingStateError | enable | drain |
      unfence | retire | recal | reload | serviceCommandDone | mailboxGo | powerUp | imageArrival | coreStart |
      fresolve | tlbinvPage | tlbinvAll | tlbInvalidationDone | hostPost | preemptCore | preemptAll | fqctlWrite |
      registerWrite | bar2Write | linkFlitReceive | endToEndResend | remoteSyncArrival | fabricResponseTimeout |
      powerOverLimit | thermalThrottle | thermalHalt | icinvCompletion | acknowledgementReturn | spdmRequest |
      hostLinkTraining => cases h
  case nop | trail | bra | yield | trap | brk | lmark | ppoint | ide =>
    exact ⟨_, fun s => by
      dsimp only [exec, execNop, execTrail, execBra, execYield, execTrap, execBrk, execLmark, execPpoint, execIde]⟩
  all_goals exact ⟨_, fun _ => rfl⟩

/-- An event completes in every state: each branch of its body ends in a next state. -/
theorem exec_event_next {i : Instr} (h : isEncoded i = false) (s : State) : ∃ t, exec i s = .next t := by
  cases i
  case uncorrectableDataError | powerUp | tlbinvPage | tlbinvAll | powerOverLimit | thermalThrottle | thermalHalt =>
    exact ⟨_, rfl⟩
  case instructionFetch | runHeader | runCommit | pendingValueArrival | sfqCompletion | deposit | warpCreation |
      claimGrant | activeSetEntry | warpRetirement | launchEnd | launchAbort | deviceBarrierPhase |
      applyWarpCreation | watchdogExpiry | claimDeadlock | handlerWarpCreation | l1Eviction | homeAccessPerform |
      engineCommandStart | engineCommandCompletion | sweepPageFetch | pageDelivery | sweepHandlerCreation | cardRead |
      unitPlacement | anyQueuePlacement | argkMemberStart | amsArrival | preemptionRequest | warpStop |
      ptimeExpiry | contextSave | contextResume | schedulingStateError | enable | drain | unfence | retire | recal |
      reload | serviceCommandDone | mailboxGo | imageArrival | coreStart | fresolve | tlbInvalidationDone | hostPost |
      preemptCore | preemptAll | fqctlWrite | registerWrite | bar2Write | linkFlitReceive | endToEndResend |
      remoteSyncArrival | fabricResponseTimeout | icinvCompletion | acknowledgementReturn | spdmRequest |
      hostLinkTraining =>
    dsimp only [exec, execInstructionFetch, execRunHeader, execRunCommit, execPendingValueArrival, execSfqCompletion, execDeposit,
      execWarpCreation, execClaimGrant, execActiveSetEntry, execWarpRetirement, execLaunchEnd, execLaunchAbort,
      execDeviceBarrierPhase, execApplyWarpCreation, execWatchdogExpiry, execClaimDeadlock, execHandlerWarpCreation,
      execL1Eviction, execHomeAccessPerform, execEngineCommandStart, execEngineCommandCompletion,
      execSweepPageFetch, execPageDelivery, execSweepHandlerCreation, execCardRead, execUnitPlacement,
      execAnyQueuePlacement, execArgkMemberStart, execAmsArrival, execPreemptionRequest, execWarpStop,
      execPtimeExpiry, execContextSave, execContextResume, execSchedulingStateError, execEnable, execDrain,
      execUnfence, execRetire, execRecal, execReload, execServiceCommandDone, execMailboxGo, execImageArrival,
      execCoreStart, execFresolve, execTlbInvalidationDone, execHostPost, execPreemptCore, execPreemptAll,
      execFqctlWrite, execRegisterWrite, execBar2Write, execLinkFlitReceive, execEndToEndResend,
      execRemoteSyncArrival, execFabricResponseTimeout, execIcinvCompletion, execAcknowledgementReturn,
      execSpdmRequest, execHostLinkTraining]
    repeat' split
    all_goals exact ⟨_, rfl⟩
  all_goals cases h

/-- With a warp in focus that has a run, its launch and the owner of its registers, every instruction goes on to a next state. -/
theorem exec_next_of_ctx {s : State} {w : WarpRef} {c : Ctx} (hf : s.focus = some w) (hc : s.ctx? w = some c) (i : Instr) :
    ∃ t, exec i s = .next t := by
  cases hi : isEncoded i with
  | false => exact exec_event_next hi s
  | true =>
    obtain ⟨f, hexec⟩ := exec_eq_issue hi
    rw [hexec]
    exact State.issue_next hf hc i f

/-! ### The acts of a warp -/

/-- The warp whose chain group is being issued may act (R45). -/
theorem State.mayAct_of_inChain {s : State} {w : WarpRef} (h : s.inChain = some w) :
    ∃ p, s.warp? w = some p ∧ s.mayAct w p = true := by
  unfold State.inChain at h
  split at h
  · cases h
  · next v _ =>
    cases hp : s.warp? v with
    | none => simp [hp] at h
    | some p =>
      simp only [hp, Option.ite_none_right_eq_some, Bool.and_eq_true, Option.some.injEq] at h
      obtain ⟨⟨⟨hmay, -⟩, -⟩, rfl⟩ := h
      exact ⟨p, hp, hmay⟩

/-- A warp that issues in this cycle may act. -/
theorem State.mayAct_of_canIssue {s : State} {w : WarpRef} {p : Warp} (h : s.canIssue w p = true) :
    s.mayAct w p = true := by
  simp only [State.canIssue, State.issuesNow, State.couldIssue, Bool.and_eq_true] at h
  obtain ⟨-, ⟨⟨-, hmay⟩, -⟩, -⟩ := h
  exact hmay

/-- A warp whose act is admitted may act (R27, R29). -/
theorem State.mayAct_of_admits {s : State} {w : WarpRef} {p : Warp} (hp : s.warp? w = some p)
    (h : s.admits w p = true) : s.mayAct w p = true := by
  unfold State.admits at h
  split at h
  · next v hv =>
    obtain ⟨q, hq, hmay⟩ := State.mayAct_of_inChain hv
    obtain rfl : v = w := by simpa using h
    rw [hp] at hq
    cases hq
    exact hmay
  · split at h
    · exact h
    · simp only [Bool.and_eq_true] at h
      obtain ⟨⟨⟨hmay, -⟩, -⟩, -⟩ := h
      exact hmay
    · simp only [Bool.and_eq_true] at h
      exact State.mayAct_of_canIssue h.1

/-- A warp that may act and has a run has its context: its launch, and the warp that owns its registers. -/
theorem State.ctx?_of_mayAct {s : State} {w : WarpRef} {p : Warp} (h : s.mayAct w p = true) (hr : p.run.isSome = true) :
    ∃ c, s.ctx? w = some c := by
  simp only [State.mayAct, Bool.and_eq_true, Bool.or_eq_true] at h
  have hctx : p.run.isNone = true ∨ (s.ctx? w).isSome = true := by tauto
  rcases hctx with hn | hs
  · simp [Option.isNone_iff_eq_none.mp hn] at hr
  · exact Option.isSome_iff_exists.mp hs

/-- A warp without a run steps to its next one. -/
theorem State.nextOf_of_no_run {s : State} {w : WarpRef} {p : Warp} (hp : s.warp? w = some p) (hr : p.run = none) :
    s.nextOf w = some (.ok (if p.fetched.isSome then .runHeader w else .instructionFetch w)) := by
  unfold State.nextOf
  rw [hp]
  dsimp only
  rw [hr]

/-- A warp whose run is not in its commit takes the instruction that the decoder reads from the slot at its position. -/
theorem State.nextOf_of_slot {s : State} {w : WarpRef} {p : Warp} {r : Run} {x : BitVec 32 × BitVec 10 × Word} {sl : Slot}
    (hp : s.warp? w = some p) (hr : p.run = some r) (hcommit : r.commit = none) (hslot : r.slots[r.pos - 1]? = some x)
    (hdec : decodeSlot x.1 x.2.1 = .ok sl) : s.nextOf w = some (.ok sl.instr) := by
  unfold State.nextOf
  rw [hp]
  dsimp only
  rw [hr]
  dsimp only
  rw [hcommit, hslot]
  simp [hdec, Except.map]

/-- A warp's next instruction or event is run with the warp in focus. -/
theorem State.act_of_nextOf {s : State} {w : WarpRef} {i : Instr} (h : s.nextOf w = some (.ok i)) :
    s.act w = exec i { s with focus := some w, stall := false } := by
  have hn : ({ s with focus := some w, stall := false } : State).nextOf w = some (.ok i) := h
  unfold State.act
  dsimp only
  rw [hn]

/-- The act of a warp that may act goes on to a next state. -/
theorem State.act_next {s : State} {w : WarpRef} {p : Warp} (hp : s.warp? w = some p) (h : s.mayAct w p = true) :
    ∃ t, s.act w = .next t := by
  cases hr : p.run with
  | none =>
    rw [State.act_of_nextOf (State.nextOf_of_no_run hp hr)]
    refine exec_event_next ?_ _
    split <;> rfl
  | some r =>
    obtain ⟨c, hc⟩ := State.ctx?_of_mayAct h (by rw [hr]; rfl)
    have hc' : ({ s with focus := some w, stall := false } : State).ctx? w = some c := hc
    unfold State.act
    dsimp only
    split
    · exact ⟨_, rfl⟩
    · exact exec_next_of_ctx rfl hc' _
    · rw [hc']
      exact ⟨_, rfl⟩

/-- An admitted warp whose run is not in its commit issues the instruction that the decoder reads from the slot at its position. -/
theorem State.issueAct_of_slot {s : State} {w : WarpRef} {p : Warp} {r : Run} {x : BitVec 32 × BitVec 10 × Word} {sl : Slot}
    (hp : s.warp? w = some p) (hadm : s.admits w p = true) (hr : p.run = some r) (hcommit : r.commit = none)
    (hslot : r.slots[r.pos - 1]? = some x) (hdec : decodeSlot x.1 x.2.1 = .ok sl) :
    s.issueAct w = match exec sl.instr { s with focus := some w, stall := false } with
      | .next t => .next (if t.stall then s else
          { (s.overhear t w).charge w (s.asks w p) p.stamp (s.core w.core) with chain := if s.chainsOn t w then some w else none })
      | .fault f => .fault f
      | .refused y => .refused y := by
  unfold State.issueAct
  rw [hp]
  dsimp only
  rw [hadm, State.act_of_nextOf (State.nextOf_of_slot hp hr hcommit hslot hdec)]
  cases exec sl.instr _ with
  | next t => exact (apply_ite Host.Outcome.next _ _ _).symm
  | fault f => rfl
  | refused y => rfl

/-- The act of a warp in its cycle goes on to a next state. -/
theorem State.issueAct_next (s : State) (w : WarpRef) : ∃ t, s.issueAct w = .next t := by
  unfold State.issueAct
  split
  · exact ⟨_, rfl⟩
  · next p hp =>
    split
    · exact ⟨_, rfl⟩
    · next ha =>
      obtain ⟨t, ht⟩ := State.act_next hp (State.mayAct_of_admits hp (by simpa using ha))
      rw [ht]
      dsimp only
      split <;> exact ⟨_, rfl⟩

/-- An event of the agenda goes on to a next state. -/
theorem State.eventAct_next (s : State) (i : Instr) : ∃ t, s.eventAct i = .next t := by
  unfold State.eventAct
  split
  · exact s.issueAct_next _
  · split
    · exact ⟨_, rfl⟩
    · next hg =>
      simp only [Bool.or_eq_true, not_or, Bool.not_eq_true] at hg
      exact exec_event_next hg.1.1 s

/-- Settles O58, by the kind of act at the head of the agenda. -/
theorem everyStepProceeds : Obligations.EveryStepProceeds := by
  intro s
  unfold Proceeds step
  split
  · exact ⟨_, rfl⟩
  · exact State.issueAct_next _ _
  · exact ⟨_, rfl⟩
  · exact State.eventAct_next _ _

/-- Settles O54: the act of an admitted warp, and the act of an event that does not give way. -/
theorem stepRunsTheDecodedInstruction : Obligations.StepRunsTheDecodedInstruction := by
  constructor
  · intro s i rest hag hact henc hhalt hway
    unfold step
    rw [hag]
    dsimp only
    unfold State.eventAct
    rw [hact]
    dsimp only
    simp [henc, hhalt, hway]
  · rintro s u w rest p r x sl hag rfl hp hadm hrun hcommit hslot hdec
    unfold step
    rw [hag]
    exact State.issueAct_of_slot hp hadm hrun hcommit hslot hdec

/-! ### The fetch of a run -/

/-- A first packet of another kind than a header is no run (R80). -/
theorem State.viewRun_of_no_header {s t : State} {c n : Nat} {va : Word} {view : Nat → Option (BitVec 128)}
    {h : Nat × BitVec 128} (hh : s.viewPackets c n va view 1 = some (.ok [h], t)) (hk : h.2.extractLsb' 126 2 ≠ 1#2) :
    s.viewRun c n va view = some (.error { code := .illpkt, pos := 26, info := 0, lanes := none, kind := 0 }, t) := by
  unfold State.viewRun
  rw [hh]
  dsimp only
  rw [if_pos (by simpa using hk)]

/-- A header and the packets that its length counts are a run (R51, R124). -/
theorem State.viewRun_of_header {s t u : State} {c n : Nat} {va : Word} {view : Nat → Option (BitVec 128)}
    {h : Nat × BitVec 128} {ps : List (Nat × BitVec 128)} (hh : s.viewPackets c n va view 1 = some (.ok [h], t))
    (hk : h.2.extractLsb' 126 2 = 1#2) (hps : t.viewPackets c n (va + 16#64) view (hdrPackets h.2) = some (.ok ps, u)) :
    s.viewRun c n va view = some (.ok (h :: ps), u) := by
  unfold State.viewRun
  rw [hh]
  dsimp only
  rw [if_neg (by simp [hk]), hps]

/-- Where every cached line agrees with memory, a run is fetched from memory and its lines are cached (R77, R81). -/
theorem State.fetchRun_of_fresh_ok {s t : State} {c n : Nat} {va : Word} {ls : List (Nat × BitVec 128)}
    (hfresh : s.staleCode c = false) (hrun : (s.viewRun c n va fun line => some (s.packetAt line)) = some (.ok ls, t)) :
    s.fetchRun c n va = some (.ok (ls.map (·.2)), t.fillCode c ls) := by
  unfold State.fetchRun
  rw [hfresh]
  simp [hrun]

/-- A trap of that fetch is the trap of the run in memory. -/
theorem State.fetchRun_of_fresh_error {s t : State} {c n : Nat} {va : Word} {e : Trap}
    (hfresh : s.staleCode c = false) (hrun : (s.viewRun c n va fun line => some (s.packetAt line)) = some (.error e, t)) :
    s.fetchRun c n va = some (.error e, t) := by
  unfold State.fetchRun
  rw [hfresh]
  simp [hrun]

/-- A warp at a run boundary that nothing holds there (R31): no run, no wait, live lanes, not suspended. -/
structure Warp.AtBoundary (p : Warp) : Prop where
  run : p.run = none
  wait : p.wait = .none
  live : p.live ≠ 0#32
  sched : p.sched ≠ .suspended

/-- A warp at a boundary fetches the run at its pc, and a fetch that fails takes its trap (R31, R349). -/
theorem execInstructionFetch_of_boundary {s : State} {w : WarpRef} {p : Warp} {l : Launch} (hp : s.warp? w = some p)
    (hl : s.launch? p.launch = some l) (hb : p.AtBoundary) (hf : p.fetched = none) (hi : p.icinv = none)
    (hlater : p.later = none) :
    (∀ h ps t, s.fetchRun w.core l.tenant p.pc = some (.ok (h :: ps), t) → execInstructionFetch w s =
      .next (t.modWarp w fun x => { x with fetched := some { addr := x.pc, hdr := h, packs := ps } })) ∧
    (∀ e t, s.fetchRun w.core l.tenant p.pc = some (.error e, t) → execInstructionFetch w s = .next (t.takeTrap w e)) := by
  obtain ⟨hr, hw, hlive, hs⟩ := hb
  unfold execInstructionFetch
  rw [hp]
  dsimp only
  rw [hl]
  dsimp only
  rw [if_neg (by simp [hr, hw, hlive, hs, hf, hi]), hlater]
  exact ⟨fun h ps t hrun => by rw [hrun], fun e t hrun => by rw [hrun]⟩

/-! ### The header of a run -/

/-- An ill-formed run that no untagged value holds back is ILLPKT (R49, R80). -/
theorem State.header_of_ill_formed {s : State} {w : WarpRef} {p o : Warp} {l : Launch} {f : Fetched}
    (hmarks : ∀ m ∈ p.marks, m.owner ≠ .untagged) (hok : runOk f = false) :
    s.header w p o l f = .trap s (hdrTrap .illpkt) := by
  unfold State.header
  dsimp only
  rw [if_neg (by simpa using hmarks), hok]
  rfl

section HeaderPasses

variable {s : State} {w : WarpRef} {p o : Warp} {l : Launch} {f : Fetched} (hmarks : ∀ m ∈ p.marks, m.owner ≠ .untagged)
  (hok : runOk f = true) (htags : ∀ m ∈ p.marks, ∀ q, m.owner = .tag q → (hdrAwait f.hdr).getLsbD q = false)
  (hfirst : ∀ i, f.first = some i → s.firstWait w p o l f.hdr i = .go)

include hmarks hok htags hfirst

/-- A well-formed run that waits for nothing comes to its loads: a marked register is RUNHAZ, a poisoned one POISON (R51, R63). -/
theorem State.header_of_no_wait : s.header w p o l f =
    let loads := ((List.range 16).filter fun i => (hdrLoad f.hdr).getLsbD i).map (hdrReg f.hdr)
    if loads.any (p.hazard o) then .trap s (hdrTrap .runhaz)
    else if loads.any fun r => o.poisoned.contains r && r < 8 * o.g then .trap s (hdrTrap .poison)
    else .go s (Run.start w p o f) := by
  unfold State.header
  dsimp only
  rw [if_neg (by simpa using hmarks), hok, if_neg (by simp)]
  rw [if_neg]
  · cases hi : f.first with
    | none => rfl
    | some i =>
      dsimp only
      rw [hfirst i hi]
  · rw [List.any_eq_true]
    rintro ⟨m, hm, hwaits⟩
    split at hwaits
    · next q hq => simp [htags m hm q hq] at hwaits
    · cases hwaits

/-- A header that loads a marked register is RUNHAZ (R63). -/
theorem State.header_of_hazard (hhaz : ∃ i, i < 16 ∧ (hdrLoad f.hdr).getLsbD i = true ∧ p.hazard o (hdrReg f.hdr i) = true) :
    s.header w p o l f = .trap s (hdrTrap .runhaz) := by
  rw [State.header_of_no_wait hmarks hok htags hfirst]
  dsimp only
  rw [if_pos]
  simpa [and_assoc] using hhaz

/-- A header whose loads are neither marked nor poisoned begins its run (R51). -/
theorem State.header_of_clear (hclear : ∀ i, i < 16 → (hdrLoad f.hdr).getLsbD i = true →
      p.hazard o (hdrReg f.hdr i) = false ∧ (hdrReg f.hdr i ∈ o.poisoned → 8 * o.g ≤ hdrReg f.hdr i)) :
    s.header w p o l f = .go s (Run.start w p o f) := by
  rw [State.header_of_no_wait hmarks hok htags hfirst]
  dsimp only
  rw [if_neg, if_neg]
  · simpa using fun i hi hload => (hclear i hi hload).2
  · simpa using fun i hi hload => (hclear i hi hload).1

end HeaderPasses

/-- A warp at a boundary whose run is fetched does as the header answers: a trap is taken, a run begins (R31, R51). -/
theorem execRunHeader_of_boundary {s : State} {w : WarpRef} {p o : Warp} {l : Launch} {f : Fetched} (hp : s.warp? w = some p)
    (ho : s.warp? (ownerRef w) = some o) (hl : s.launch? p.launch = some l) (hb : p.AtBoundary) (hf : p.fetched = some f) :
    (∀ t e, s.header w p o l f = .trap t e → execRunHeader w s = .next (t.takeTrap w e)) ∧
    (∀ t r, s.header w p o l f = .go t r →
      execRunHeader w s = .next (t.modWarp w fun x => { x with run := some r, ppoint := none })) := by
  obtain ⟨hr, hw, hlive, hs⟩ := hb
  unfold execRunHeader
  rw [hp, ho]
  dsimp only
  rw [hl, hf]
  dsimp only
  rw [if_neg (by simp [hr, hw, hlive, hs])]
  exact ⟨fun t e h => by rw [h], fun t r h => by rw [h]⟩

/-- Settles O40: what the fetch and the header answer, taken by the events of a warp at its boundary. -/
theorem fetchAndHeaderEventsComplete : Obligations.FetchAndHeaderEventsComplete := by
  intro s w p o l hp ho hl hrun hwait hlive hsched
  have hb : p.AtBoundary := ⟨hrun, hwait, hlive, hsched⟩
  constructor
  · intro hf hi hlater
    obtain ⟨ok, error⟩ := execInstructionFetch_of_boundary hp hl hb hf hi hlater
    refine ⟨ok, error, fun hfresh h t hh => ⟨fun hk => ?_, fun ps u hk hps => ?_⟩⟩
    · exact error _ _ (State.fetchRun_of_fresh_error hfresh (State.viewRun_of_no_header hh hk))
    · exact ok _ _ _ (State.fetchRun_of_fresh_ok hfresh (State.viewRun_of_header hh hk hps))
  · intro f hf hmarks
    obtain ⟨trap, go⟩ := execRunHeader_of_boundary hp ho hl hb hf
    refine ⟨fun hok => trap _ _ (State.header_of_ill_formed hmarks hok), fun hok htags hfirst =>
      ⟨fun hhaz => trap _ _ (State.header_of_hazard hmarks hok htags hfirst hhaz), fun hclear =>
        go _ _ (State.header_of_clear hmarks hok htags hfirst hclear)⟩⟩

/-! ### What a core does with its warps -/

/-- Of a list without repeats in which one element alone passes, that one is left. -/
theorem filterMap_eq_singleton {α β : Type} {l : List α} {g : α → Option β} {a : α} {b : β} (hn : l.Nodup) (ha : a ∈ l)
    (hb : g a = some b) (h : ∀ x ∈ l, x ≠ a → g x = none) : l.filterMap g = [b] := by
  obtain ⟨l₁, l₂, rfl⟩ := List.append_of_mem ha
  obtain ⟨hl₁, hl₂⟩ : a ∉ l₁ ∧ a ∉ l₂ := by
    rw [List.nodup_middle, List.nodup_cons] at hn
    simpa using hn.1
  have none₁ : l₁.filterMap g = [] := List.filterMap_eq_nil_iff.mpr fun x hx => h x (by simp [hx]) fun e => hl₁ (e ▸ hx)
  have none₂ : l₂.filterMap g = [] := List.filterMap_eq_nil_iff.mpr fun x hx => h x (by simp [hx]) fun e => hl₂ (e ▸ hx)
  simp [none₁, none₂, hb]

/-- The residents are those of before where a change of a core keeps its warps and handlers. -/
theorem State.residents_modCore (s : State) (c : Nat) {f : Core → Core} (hw : ∀ k, (f k).warps = k.warps)
    (hh : ∀ k, (f k).hnds = k.hnds) : (s.modCore c f).residents c = s.residents c := by
  unfold State.residents
  rw [State.core_modCore]
  split
  · rw [hw, hh]
  · rfl

/-- The state with the next warp of a launch's unit on a core made in a slot, before an active message's group (R17, R18). -/
def State.withLaunchWarp (s : State) (core q j : Nat) (l : Launch) (payload : List Word) : State :=
  (((s.drawn.holdArray core l).addWarp core q (l.newWarp s.dev.nextStamp q j payload)).modLaunch l.id fun x =>
    x.modPlace core fun y => { y with todo := dropFirst y.todo }).modCore core fun k =>
    { k with amsJobs := k.amsJobs.filter fun x => x.1 != l.id }

section WarpCreation

variable {s : State} {core n q j : Nat} {l : Launch} (hunit : s.nextUnit core = some (n, l, j))
  (hslot : s.pick ((s.core core).freeSlots 0 60) = some q) (hstarted : (s.core core).started = true)
  (hheld : (s.core core).heldBack = false) (hjob : s.nextJob core = none) (hcreated : (s.core core).created = false)
  (harray : l.card.lause = true → (s.core core).auto.holder = none ∨ (s.core core).auto.holder = some l.id)
  (hpool : l.card.rg * liveSlices (lowLanes (threadsOf l.card.nthr j)) ≤ (s.core core).poolFree)

include hunit hslot hstarted hheld hjob hcreated harray hpool

/-- The warp is made, where an active message's finds an entry for its group (R325, R399). -/
theorem execWarpCreation_of_free (hentry : l.ams = true → (s.core core).freeEntry.isSome = true) {t : State}
    {payload : List Word} (hwords : (((s.core core).amsJobs.find? fun x => x.1 == l.id).map (·.2)).getD [] = payload)
    (hplain : l.ams = false → s.withLaunchWarp core q j l payload = t)
    (hmessage : ∀ e, l.ams = true → (s.core core).freeEntry = some e →
      (s.withLaunchWarp core q j l payload).amsGroup core q l.id e = t) :
    execWarpCreation core s = .next t := by
  have hgroup : (l.ams && (s.core core).freeEntry.isNone) = false := by
    cases hams : l.ams with
    | false => rfl
    | true => simpa using hentry hams
  have hholder : (l.card.lause && (s.core core).auto.holder.isSome && (s.core core).auto.holder != some l.id) = false := by
    cases hl : l.card.lause with
    | false => rfl
    | true => rcases harray hl with h | h <;> simp [h]
  subst hwords
  unfold execWarpCreation
  dsimp only
  rw [hunit, hslot]
  dsimp only
  rw [hgroup, hholder, if_neg (by simp [hstarted, hheld, hjob, hcreated, hpool])]
  refine congrArg Host.Outcome.next ?_
  split
  · next e hams he => exact hmessage e hams he
  · next hno =>
    refine hplain (Bool.eq_false_iff.mpr fun hams => ?_)
    obtain ⟨e, he⟩ := Option.isSome_iff_exists.mp (hentry hams)
    exact hno e hams he

/-- Another launch's warp than an active message's is made with its argument alone (R18, R313). -/
theorem execWarpCreation_of_unit (hams : l.ams = false) :
    execWarpCreation core s = .next (s.withLaunchWarp core q j l []) := by
  refine execWarpCreation_of_free hunit hslot hstarted hheld hjob hcreated harray hpool (by simp [hams]) rfl (fun _ => ?_)
    (by simp [hams])
  simp [State.withLaunchWarp, Launch.newWarp, hams]

/-- An active message's warp is made with the message's words and its group (R213, R325). -/
theorem execWarpCreation_of_message {e : Nat} {payload : List Word} (hams : l.ams = true)
    (hentry : (s.core core).freeEntry = some e)
    (hwords : ((s.core core).amsJobs.find? fun x => x.1 == l.id) = some (l.id, payload)) :
    execWarpCreation core s = .next ((s.withLaunchWarp core q j l payload).amsGroup core q l.id e) := by
  refine execWarpCreation_of_free hunit hslot hstarted hheld hjob hcreated harray hpool (by simp [hentry])
    (payload := payload) (by simp [hwords]) (by simp [hams]) fun x _ hx => ?_
  obtain rfl : e = x := by simpa [hentry] using hx
  rfl

end WarpCreation

/-- A warp that may enter the active set does (R33). -/
theorem execActiveSetEntry_of_entrant {s : State} {core : Nat} {w : WarpRef} (hstarted : (s.core core).started = true)
    (hentered : (s.core core).entered = false) (hroom : (s.activeSet core).length < 8)
    (hw : s.entrant core s.throttle = some w) :
    execActiveSetEntry core s = .next ((({ s with oracle := s.oracle + 1 } : State).modWarp w fun x =>
      { x with sched := .active, lastIssue := (s.core core).cyc.toNat, readyAt := none }).modCore core fun k =>
      { k with entered := true }) := by
  unfold execActiveSetEntry
  dsimp only
  rw [if_neg (by simp [hstarted, hentered, hroom]), hw]

/-- The claim at the head of a core's order is granted where the pool holds it (R68). -/
theorem execClaimGrant_of_room {s : State} {core n slot : Nat} {h : Bool} {p : Warp} {x : ClaimWait}
    (hfirst : (s.core core).firstClaim = some (n, slot, h, p, x)) (hgranted : (s.core core).granted = false)
    (hroom : x.n * liveSlices p.live ≤ (s.core core).poolFree) :
    execClaimGrant core s = .next ((s.modWarp { core := core, slot := slot, hnd := h } fun y =>
      { y with claim := some { x with granted := true } }).modCore core fun k => { k with granted := true }) := by
  unfold execClaimGrant
  dsimp only
  rw [hfirst]
  dsimp only
  rw [if_neg (by simp [hgranted, hroom])]

/-- A watchdog that is due raises WDOG (R36). -/
theorem execWatchdogExpiry_of_due {s : State} {w : WarpRef} {p : Warp} (hp : s.warp? w = some p)
    (hdue : s.wdogDue w p = true) :
    execWatchdogExpiry w s = .next (s.takeTrap w
      { code := .wdog, pos := 27, info := s.wdogField w p, lanes := none, kind := 0 }) := by
  unfold execWatchdogExpiry
  rw [hp]
  simp [hdue]

/-- A deadlock of 4,096 cycles in which one warp waits at a claim raises CLAIMDL in that warp (R70). -/
theorem execClaimDeadlock_of_one {s t : State} {core : Nat} {w : WarpRef} {p : Warp} {n : BitVec 16}
    (ht : t = s.modCore core fun k => { k with deadlock := 0 }) (hlong : 4096 ≤ (s.core core).deadlock)
    (hmem : (w, p) ∈ s.residents core) (hclaim : t.waitsAt w p = some (.claim n)) (hwdog : t.wdogDue w p = false)
    (hone : ∀ e ∈ t.residents core, ∀ m, t.waitsAt e.1 e.2 = some (.claim m) → e = (w, p))
    (hnodup : (t.residents core).Nodup) :
    execClaimDeadlock core s = .next (t.takeTrap w
      { code := .claimdl, pos := p.waitPos, info := n.toNat, lanes := none, kind := 0 }) := by
  have hres : t.residents core = s.residents core := by
    rw [ht]
    exact s.residents_modCore core (fun _ => rfl) fun _ => rfl
  unfold execClaimDeadlock
  rw [if_neg (Nat.not_lt.mpr hlong)]
  dsimp only
  rw [← ht, filterMap_eq_singleton (hnodup.filter _) (a := (w, p)) (List.mem_filter.mpr ⟨hres ▸ hmem, by simp [hwdog]⟩)
    (b := (w, { code := .claimdl, pos := p.waitPos, info := n.toNat, lanes := none, kind := 0 : Trap })) (by rw [hclaim])]
  · rfl
  · intro e he hne
    split
    · next m hm => exact absurd (hone e (List.mem_filter.mp he).1 m hm) hne
    · rfl

/-- Settles O43, event by event. -/
theorem warpEventsComplete : Obligations.WarpEventsComplete := by
  intro s core w p
  refine ⟨?_, execActiveSetEntry_of_entrant, fun n slot h x => execClaimGrant_of_room, execWatchdogExpiry_of_due,
    fun n hlong hmem => execClaimDeadlock_of_one rfl hlong hmem⟩
  intro n q j l hunit hslot hstarted hheld hjob hcreated harray hpool
  exact ⟨fun hams _ => execWarpCreation_of_unit hunit hslot hstarted hheld hjob hcreated harray hpool hams,
    fun e payload => execWarpCreation_of_message hunit hslot hstarted hheld hjob hcreated harray hpool⟩

/-! ### Apply warps, handlers and retirement -/

/-- The registers of a sweep handler as made: each word in every lane of its register (R298). -/
theorem get_spread_words (vs : List Word) (n i : Nat) (t : Tab Word) {v : Word} (hv : vs[n]? = some v) (hi : i < 32) :
    Tab.get 0#64 ((vs.zipIdx).foldl (fun t e => lanes.foldl (fun t i => Tab.set 0#64 t (32 * e.2 + i) e.1) t) t)
      (32 * n + i) = v := by
  have hlanes : ∀ j, j ∈ lanes ↔ j < 32 := fun j => by simp [lanes]
  induction vs using List.reverseRecOn with
  | nil => simp at hv
  | append_singleton xs x ih =>
    rw [List.zipIdx_append, List.foldl_append]
    simp only [List.zipIdx_cons, List.zipIdx_nil, List.foldl_cons, List.foldl_nil]
    rcases Nat.lt_or_ge n xs.length with h | h
    · rw [Tab.get_lanes_other lanes _ _ _ fun _ => x]
      · exact ih (by rwa [List.getElem?_append_left h] at hv)
      · intro j hj
        have := (hlanes j).mp hj
        omega
    · obtain ⟨rfl, rfl⟩ : n = xs.length ∧ x = v := by
        rw [List.getElem?_append_right h, List.getElem?_singleton] at hv
        split at hv
        · exact ⟨by omega, by simpa using hv⟩
        · cases hv
      simpa using Tab.get_lanes lanes _ xs.length i (fun _ => x) ((hlanes i).mpr hi)

/-- The next apply warp of a core is made in the slot chosen for it, where the pool holds it (R234, R235). -/
theorem execApplyWarpCreation_of_room {s : State} {core q : Nat} {x : Session} {i : Nat}
    (hx : (s.core core).nextApply = some (x, i)) (hq : s.pick ((s.core core).freeSlots 60 4) = some q)
    (hclaim : (s.core core).claimWaits = false) (hcreated : (s.core core).created = false)
    (hroom : x.need i ≤ (s.core core).poolFree) :
    ∃ p : Warp, execApplyWarpCreation core s =
        .next ((s.drawn.addWarp core q p).modSession core x.id fun y => { y with next := i + 1 }) ∧
      p.kind = .apply x.id ((((x.members.drop (32 * i)).take 32).zipIdx).map fun e => (32 * i + e.2, e.1.1, e.1.2)) ∧
      p.live = lowLanes (min 32 (x.members.length - 32 * i)) ∧ p.pc = x.block ∧ p.g = max x.b0 x.b1 + 1 := by
  unfold execApplyWarpCreation
  dsimp only
  rw [hx]
  dsimp only
  rw [hq]
  dsimp only
  rw [if_neg (by simp [hclaim, hcreated, hroom])]
  refine ⟨_, rfl, rfl, ?_, rfl, rfl⟩
  simp [Warp.fresh]

/-- The next sweep handler of a core is made in the slot chosen for it, where the pool holds it (R298, R308). -/
theorem execSweepHandlerCreation_of_room {s : State} {core q : Nat} {j : SweepJob} (hj : s.nextJob core = some j)
    (hq : s.pick ((s.core core).freeSlots 0 60) = some q) (hheld : (s.core core).heldBack = false)
    (hcreated : (s.core core).created = false) (hroom : 4 * j.hg ≤ (s.core core).poolFree) :
    ∃ p : Warp,
      let t := (s.drawn.addWarp core q p).modCore core fun k => { k with jobs := k.jobs.erase j }
      execSweepHandlerCreation core s = .next (if j.heard = [] then t else (t.hears j.launch p.names j.heard).2) ∧
      p.kind = .sweep j.hdl j.seq j.slot j.sweep ∧ p.live = 0xFFFFFFFF#32 ∧ p.pc = j.hent ∧ p.g = j.hg ∧
      ∀ n v i, j.regs[n]? = some v → i < 32 → Tab.get 0#64 p.regs (32 * n + i) = v := by
  unfold execSweepHandlerCreation
  dsimp only
  rw [hj, hq]
  dsimp only
  rw [if_neg (by simp [hheld, hcreated, hroom])]
  refine ⟨_, rfl, rfl, rfl, rfl, rfl, fun n v i hv hi => ?_⟩
  exact get_spread_words j.regs n i [] hv hi

/-- The handler that a warp's trap waits for is made in the slot's handler context (R346, R347, R349). -/
theorem execHandlerWarpCreation_of_due {s : State} {core q : Nat} {p : Warp} {t : Trap} {e : Word}
    (hp : Dict.find (s.core core).warps q = some p) (hdue : p.handlerDue = some (t, e))
    (hquiet : t.code = .logfull ∨ (p.marks = [] ∧ p.sfq = [])) (hcreated : (s.core core).created = false)
    (hstop : p.stop = false) (hsched : p.sched ≠ .suspended) (hon : s.goesOn p = true)
    (hfree : Dict.find (s.core core).hnds q = none) :
    ∃ h : Warp, execHandlerWarpCreation core q s = .next
        ((s.modCore core fun k => { k with hnds := Dict.put k.hnds q h, created := true }).modDev fun d =>
          { d with nextStamp := d.nextStamp + 1 }) ∧
      h.kind = .handler ∧ h.pc = e ∧ h.tids = p.tids ∧
      h.trap = some (t, (if t.code = .logfull then t.addr else p.pc) &&& 0x01FFFFFFFFFFFFF0#64) ∧
      h.live = if t.code = .logfull then t.lanes.getD p.live else p.live := by
  have hwaits : (t.code != .logfull && (p.marks != [] || p.sfq != [])) = false := by
    rcases hquiet with h | ⟨hm, hs⟩
    · simp [h]
    · simp [hm, hs]
  unfold execHandlerWarpCreation
  dsimp only
  rw [hp]
  dsimp only
  rw [hdue]
  dsimp only
  rw [hwaits, if_neg (by simp [hcreated, hstop, hsched, hon, hfree])]
  refine ⟨_, rfl, rfl, rfl, rfl, ?_, ?_⟩
  · simp [trapAddr]
  · simp [Warp.fresh]

/-- The set store of a cycle noted once is noted for the cycle (R213). -/
theorem Core.keepSeen_keepSeen (k : Core) : k.keepSeen.keepSeen = k.keepSeen := by
  unfold Core.keepSeen
  cases k.seen <;> rfl

theorem State.modCore_keepSeen_twice (s : State) (c : Nat) :
    (s.modCore c Core.keepSeen).modCore c Core.keepSeen = s.modCore c Core.keepSeen := by
  rw [State.modCore_modCore]
  exact congrArg (s.modCore c) (funext Core.keepSeen_keepSeen)

theorem State.warp?_keepSeen (s : State) (c : Nat) (w : WarpRef) : (s.modCore c Core.keepSeen).warp? w = s.warp? w := by
  unfold State.warp?
  rw [State.core_modCore]
  split <;> rfl

theorem State.retires_keepSeen (s : State) (c : Nat) (w : WarpRef) (p : Warp) :
    (s.modCore c Core.keepSeen).retires w p = s.retires w p := by
  unfold State.retires State.quiet
  rw [State.core_modCore]
  split <;> rfl

/-- A warp that can retire does as its kind says, in the state in which the cycle's set store is noted (R24, R25, R213). -/
theorem execWarpRetirement_of_retires {s t : State} {w : WarpRef} {p : Warp} (hp : s.warp? w = some p)
    (hr : s.retires w p = true) (ht : s.modCore w.core Core.keepSeen = t) :
    let freed (u : State) : State := u.modCore w.core fun k => k.freeSlotOf w.slot
    (p.kind = .ordinary → execWarpRetirement w s =
      .next (freed (((t.passTurn w p).dropTurns w.core p.applies).dropMembers w p.applies))) ∧
    (∀ n src, p.kind = .apply n src → execWarpRetirement w s = .next (t.barmis (t.retireApply w) w)) ∧
    (∀ hdl seq slot sweep, p.kind = .sweep hdl seq slot sweep → execWarpRetirement w s = .next
      (freed (((t.retireHandler w.core p.launch p.merged hdl seq slot sweep p.names).dropTurns w.core p.applies).dropMembers w
        p.applies))) := by
  unfold execWarpRetirement
  dsimp only
  rw [hp]
  dsimp only
  rw [if_neg (by simp [hr]), ht]
  refine ⟨fun hk => ?_, fun n src hk => ?_, fun hdl seq slot sweep hk => ?_⟩ <;> rw [hk]

/-- Settles O44: no event faults or refuses, and each kind of warp is made and retires as its event says. -/
theorem warpKindEventsComplete : Obligations.WarpKindEventsComplete := by
  refine ⟨fun s core q w => ⟨exec_event_next rfl s, exec_event_next rfl s, exec_event_next rfl s, exec_event_next rfl s⟩,
    fun s core q => ⟨fun x i => execApplyWarpCreation_of_room, fun j => execSweepHandlerCreation_of_room,
      fun p t e => execHandlerWarpCreation_of_due, fun p hp hr => execWarpRetirement_of_retires
        ((s.warp?_keepSeen core _).trans hp) ((s.retires_keepSeen core _ p).trans hr) (s.modCore_keepSeen_twice core)⟩⟩

/-! ### Launches: their end, device barriers, ARGK members -/

/-- A change of one element of a list is known by what it makes of that element. -/
theorem listChange_congr {α : Type} {l : List α} {n : Nat} {f g : α → α} (h : ∀ x, l[n]? = some x → f x = g x) :
    listChange l n f = listChange l n g := by
  induction l generalizing n with
  | nil => rfl
  | cons a r ih => cases n with
    | zero => simp [listChange, h a rfl]
    | succ n => simp [listChange, ih h]

/-- Outside deterministic mode a launch has nothing to flush. -/
theorem State.deviceFlush_of_not_det (s : State) {l : Launch} (h : l.isDet = false) : s.deviceFlush l = (true, s) := by
  simp [State.deviceFlush, State.flushWaits, h]

/-- Without record and replay every decision is made, and none is recorded (R336). -/
theorem State.decide_of_mode_zero {s : State} {n : Nat} {l : Launch} (hl : s.launch? n = some l) (hm : l.mode = 0)
    (w : Option WarpRef) (kind : Nat) (obj word1 : Word) : s.decide n w kind obj word1 = .made s := by
  unfold State.decide
  rw [hl]
  dsimp only
  rw [hm]
  rfl

/-- A launch that has nothing left at all ends, step by step (R26, R28). -/
theorem execLaunchEnd_of_endsNow {s : State} {n : Nat} {l : Launch} (hl : s.launch? n = some l) (hid : l.id = n)
    (hdet : l.isDet = false) (hm : l.mode = 0) (hends : s.endsNow l = true) :
    execLaunchEnd n s = .next ((((s.writeBackLaunch l).releaseGuards l).releaseAll l).report l none) := by
  subst hid
  unfold execLaunchEnd State.tryEnd
  rw [hl]
  dsimp only
  rw [if_pos hends, s.deviceFlush_of_not_det hdet]
  dsimp only
  rw [State.decide_of_mode_zero hl hm]
  rfl

/-- A launch that a cause ended goes, once nothing of it is under way, and its guards stand (R27). -/
theorem execLaunchAbort_of_idle {s : State} {n : Nat} {l : Launch} {cause : Cause} (hl : s.launch? n = some l)
    (hcause : l.cause = some cause) (hengines : s.enginesOf n = false) (hperform : s.canStillPerform n = false)
    (hcommit : s.canStillCommit n = false) (hflush : s.flushWaits l = false) :
    execLaunchAbort n s =
      .next ((((s.deviceFlush l).2.writeBackLaunch l).releaseAll l).report l (some cause)) := by
  unfold execLaunchAbort
  rw [hl]
  dsimp only
  rw [hcause]
  simp [hengines, hperform, hcommit, hflush]

/-- A phase that every live thread has reached completes (R329, R330). -/
theorem execDeviceBarrierPhase_of_full {s : State} {n j : Nat} {l : Launch} {b : DevBarrier} (hb : s.dev.dbars[j]? = some b)
    (hn : b.launch = some n) (hl : s.launch? n = some l) (hlive : l.exited < l.card.nthr)
    (hfull : l.card.nthr - l.exited ≤ (b.arr.filter fun a => a.1 == b.ph).length) (hcause : l.cause = none)
    (hdet : l.isDet = false) :
    execDeviceBarrierPhase j s = .next (s.modDev fun d => { d with
      dbars := listChange d.dbars j fun x => { x with ph := b.ph + 1, arr := b.arr.filter fun a => a.1 != b.ph } }) := by
  have hlive' : l.card.nthr - l.exited ≠ 0 := by omega
  have hchange : (listChange s.dev.dbars j fun x => { x with ph := x.ph + 1, arr := x.arr.filter fun a => a.1 != x.ph }) =
      listChange s.dev.dbars j fun x => { x with ph := b.ph + 1, arr := b.arr.filter fun a => a.1 != b.ph } :=
    listChange_congr fun x hx => by
      rw [hb] at hx
      cases hx
      rfl
  unfold execDeviceBarrierPhase
  rw [hb]
  dsimp only
  rw [hn, Option.bind_some, hl]
  dsimp only
  rw [hcause, s.deviceFlush_of_not_det hdet]
  rw [if_neg (by simp [hlive', hfull])]
  dsimp only [State.modDev]
  rw [hchange]

/-- A warp at a run boundary is to take the members of an ARGK launch that stand at its slot (R314). -/
theorem Launch.takenBy_of_boundary {l : Launch} {w : WarpRef} {p : Warp} (hw : w.hnd = false)
    (hposter : l.poster = some p.launch) (happlies : ∀ a ∈ p.applies, a.argk ≠ some l.id) (hrun : p.run = none)
    (hwait : p.wait = .none) (hdue : p.due = none) (hstop : p.stop = false) (hsched : p.sched ≠ .suspended) :
    l.takenBy w p = l.argkLeft.find? fun x => x.1 == w.core && x.2.1 == w.slot := by
  have hany : (p.applies.any fun a => a.argk == some l.id) = false := by simpa using happlies
  unfold Launch.takenBy
  simp [hw, hposter, hany, hrun, hwait, hdue, hstop, hsched]

/-- A warp at a run boundary takes an ARGK launch: its lanes enter the block after the post, or, all gone, are dropped from the
members (R201, R233, R314). -/
theorem execArgkMemberStart_of_taken {s : State} {n : Nat} {w : WarpRef} {l : Launch} {p : Warp} {m : Nat × Nat × Mask}
    (hl : s.launch? n = some l) (hp : s.warp? w = some p) (hm : l.takenBy w p = some m) :
    execArgkMemberStart n w s = .next (if m.2.2 &&& p.live = 0#32
      then s.modLaunch n fun x => { x with argkLeft := x.argkLeft.filter fun y => y != m }
      else
        let t := (s.enterBlock w l.card.entry p.pc m.2.2 none (some n)).modWarp w fun x => { x with claim := none }
        if l.base = [] then t
        else (t.hears p.launch ((m.2.2 &&& p.live).toList.map fun j => p.names.getD j 0) l.base).2) := by
  unfold execArgkMemberStart
  rw [hl, hp]
  dsimp only
  rw [hm]
  dsimp only
  split <;> rfl

/-- Settles O45, event by event. -/
theorem launchEventsComplete : Obligations.LaunchEventsComplete := by
  intro s n l
  refine ⟨execLaunchEnd_of_endsNow, fun _ => execLaunchAbort_of_idle, fun j b => execDeviceBarrierPhase_of_full, ?_⟩
  rintro w p m hl rfl hp hw hm hposter happlies hrun hwait hdue hstop hsched
  refine execArgkMemberStart_of_taken hl hp ?_
  rw [Launch.takenBy_of_boundary hw hposter happlies hrun hwait hdue hstop hsched]
  exact hm

end Sys2Proof.Machine

/-!
PROOFS. Packets, runs and registers (O7, O8, O14, O15, O16, O23, O41, O42, O53, O55, O56): the slots of the encoding; the
instructions on lanes, their frame and their traps; control transfers; the commit of a run; values that arrive; traps taken.
-/

namespace Sys2Proof

/-! ### The slots of the encoding (R42 to R47) -/

/-- A slot's fields are read back from its word and its extension (R42, R46). -/
theorem Fields.ofSlot_word_ext (f : Fields) : Fields.ofSlot f.word f.ext = f := by
  simp (disch := decide) only [Fields.ofSlot, Fields.word, Fields.ext, BitVec.extractLsb'_append_eq_of_add_le,
    BitVec.extractLsb'_append_eq_of_le, Nat.reduceSub, BitVec.extractLsb'_eq_self]

section Immediates

variable (f : Fields) (i : BitVec 16) (j : BitVec 26)

@[simp] theorem Fields.withImm16_op : (f.withImm16 i).op = f.op := rfl
@[simp] theorem Fields.withImm16_k : (f.withImm16 i).k = f.k := rfl
@[simp] theorem Fields.withImm16_d : (f.withImm16 i).d = f.d := rfl
@[simp] theorem Fields.withImm16_a : (f.withImm16 i).a = f.a := rfl
@[simp] theorem Fields.withImm16_la : (f.withImm16 i).la = f.la := rfl
@[simp] theorem Fields.withImm16_z : (f.withImm16 i).z = f.z := rfl
@[simp] theorem Fields.withImm26_op : (f.withImm26 j).op = f.op := rfl
@[simp] theorem Fields.withImm26_k : (f.withImm26 j).k = f.k := rfl
@[simp] theorem Fields.withImm26_la : (f.withImm26 j).la = f.la := rfl
@[simp] theorem Fields.withImm26_z : (f.withImm26 j).z = f.z := rfl

variable (c z : BitVec 1) (op : BitVec 7) (k : BitVec 3) (d a : BitVec 5) (la : BitVec 4)

/-- The immediate placed in format I is the one read (R46), whatever the other fields. -/
@[simp] theorem Fields.imm16_withImm16 :
    (Fields.mk c op k d a (f.withImm16 i).b (f.withImm16 i).fn (f.withImm16 i).x la z).imm16 = i := by
  simp only [Fields.imm16, Fields.withImm16]
  iterate 2 rw [BitVec.extractLsb'_append_extractLsb'_eq_extractLsb' (by omega)]
  exact BitVec.extractLsb'_eq_self

/-- The immediate placed in format J is the one read (R46), whatever the other fields. -/
@[simp] theorem Fields.imm26_withImm26 :
    (Fields.mk c op k (f.withImm26 j).d (f.withImm26 j).a (f.withImm26 j).b (f.withImm26 j).fn (f.withImm26 j).x la z).imm26
      = j := by
  simp only [Fields.imm26, Fields.withImm26]
  iterate 4 rw [BitVec.extractLsb'_append_extractLsb'_eq_extractLsb' (by omega)]
  exact BitVec.extractLsb'_eq_self

end Immediates

/-- The decoder reads the fields of a well-formed instruction as that instruction, family by family of the encoding tables,
whatever the chain bit, which `trail` has not (R44, R57). Widths stay sums (`-Nat.reduceAdd`): the lemmas on concatenations
match them so. -/
theorem decodeFields_encodeFields {i : Instr} {f : Fields} (h : encodeFields i = some f) (hi : i.WellFormed = true)
    (c : BitVec 1) (hc : ∀ te tag wb, i = .trail te tag wb → c = 0#1) : decodeFields { f with c := c } = .ok i := by
  cases i
  case trail te tag wb =>
    cases h
    have hwb : wb.extractLsb' 11 5 ++ wb.extractLsb' 6 5 ++ wb.extractLsb' 0 6 = wb := by
      iterate 2 rw [BitVec.extractLsb'_append_extractLsb'_eq_extractLsb' (by omega)]
      exact BitVec.extractLsb'_eq_self
    have htag : te = 1#1 ∨ tag = 0#3 := by simpa [Instr.WellFormed, ← BitVec.toNat_inj] using hi
    simp (disch := decide) [-Nat.reduceAdd, decodeFields, decodeControl, Fields.zero,
      BitVec.extractLsb'_append_eq_of_add_le, BitVec.extractLsb'_append_eq_of_le, hc te tag wb rfl, htag, hwb]
  case mad o ity sat =>
    cases h
    have hfn : (ity ++ sat ++ 2#2).extractLsb' 0 3 ≠ 1#3 := by
      intro hn
      simpa (disch := decide) [-Nat.reduceAdd, BitVec.extractLsb'_append_eq_of_add_le] using
        congrArg (BitVec.extractLsb' 0 2) hn
    simp (disch := decide) [-Nat.reduceAdd, decodeFields, decodeInteger, Fields.zero, Fields.opnds,
      BitVec.extractLsb'_append_eq_of_add_le, BitVec.extractLsb'_append_eq_of_le, hfn]
  case ppoint mask =>
    cases h
    have hmask : mask.extractLsb' 11 5 ++ mask.extractLsb' 6 5 ++ mask.extractLsb' 1 5 ++ mask.extractLsb' 0 1 = mask := by
      iterate 3 rw [BitVec.extractLsb'_append_extractLsb'_eq_extractLsb' (by omega)]
      exact BitVec.extractLsb'_eq_self
    simp (disch := decide) [-Nat.reduceAdd, decodeFields, decodeTask, Fields.zero, BitVec.extractLsb'_append_eq_of_add_le,
      BitVec.extractLsb'_append_eq_of_le, hmask]
  case nop | bra | bre | brn | brx | call | ret | loop | exit | yield | icinv | claim | give =>
    cases h
    simp (disch := decide) [-Nat.reduceAdd, decodeFields, decodeControl, Fields.zero,
      BitVec.extractLsb'_append_eq_of_add_le, BitVec.extractLsb'_append_eq_of_le]
  case ktestInt | ktestFloat | kand | kor | kdiff | kcount | kfirst | kmakeV | kmakeM | kself | kld | kst | kmerge | kfree
      | kqpush | kqpop | applyS | applyR | enda | gmake | join | leave | gdis =>
    cases h
    simp (disch := decide) [-Nat.reduceAdd, decodeFields, decodeSet, Fields.zero, BitVec.extractLsb'_append_eq_of_add_le,
      BitVec.extractLsb'_append_eq_of_le]
  case add | sub | min | max | mul | mulhi | and | or | xor | andn | shl | shr | sar | rot | clz | ctz | popc | brev | cmp
      | sel | abs | neg | ext | ins | movi | movh | addi | lea | icvt =>
    cases h
    simp (disch := decide) [-Nat.reduceAdd, decodeFields, decodeInteger, Fields.zero, Fields.opnds,
      BitVec.extractLsb'_append_eq_of_add_le, BitVec.extractLsb'_append_eq_of_le]
  case fadd | fsub | fmul | fma | fnma | fmin | fmax | fdot2 | fsgn | frnd | fscl | fcvt =>
    cases h
    simp (disch := decide) [-Nat.reduceAdd, decodeFields, decodeFloat, Fields.zero, Fields.opnds,
      BitVec.extractLsb'_append_eq_of_add_le, BitVec.extractLsb'_append_eq_of_le]
  case xperm | xshf | xbc | xbal | xred | xscan | xtopk | sfq | sfw | sfp =>
    cases h
    simp (disch := decide) [-Nat.reduceAdd, decodeFields, decodeCross, Fields.zero, Fields.opnds,
      BitVec.extractLsb'_append_eq_of_add_le, BitVec.extractLsb'_append_eq_of_le]
  case ld | st | ldn | stn | ldt | stt | pref | atomAdd | atomFadd | atomBinc | atomXchg | atomMinS | atomMaxS | atomMinU
      | atomMaxU | atomAnd | atomOr | atomXor | atomCas | rwr | awt | bind | unbind | acq | rel | fence | publish | fread
      | ffill | fclr =>
    cases h
    simp (disch := decide) [-Nat.reduceAdd, decodeFields, decodeMemory, Fields.zero, Fields.opnds,
      BitVec.extractLsb'_append_eq_of_add_le, BitVec.extractLsb'_append_eq_of_le]
  case cpy | cpym | tall | tany | tffr | mloop | mzero | mrdN | mrdW | mwrN | mwrW | lacfg | laseed | lainfN | lainfW |
      lafb | lardN | lardW | lawrN | lawrW | swsub | swleave | swgo | swrd | swmerge | swwait =>
    cases h
    simp (disch := decide) [-Nat.reduceAdd, decodeFields, decodeEngine, Fields.zero,
      BitVec.extractLsb'_append_eq_of_add_le, BitVec.extractLsb'_append_eq_of_le]
  case post | spawn | qtake | ams | bbind | bunb | barr | bwt | dbar | dwt | trap | tret | sysrd | syswr | brk | lmark |
      idb | ide =>
    cases h
    simp (disch := decide) [-Nat.reduceAdd, decodeFields, decodeTask, Fields.zero, BitVec.extractLsb'_append_eq_of_add_le,
      BitVec.extractLsb'_append_eq_of_le]
  all_goals cases h

/-- The chain bit of a slot is read back (R44). -/
theorem chainBit_eq_one (b : Bool) : ((if b then 1#1 else 0#1) == 1#1) = b := by cases b <;> rfl

/-- Settles O55: the slot's fields are read back, and the decoder reads them as the instruction. -/
theorem decodeOfEncode : Obligations.DecodeOfEncode := by
  intro sl word ext hwf htrail henc
  obtain ⟨f, hf, he⟩ := Option.map_eq_some_iff.mp henc
  cases he
  have hdec := decodeFields_encodeFields hf hwf (if sl.chain then 1#1 else 0#1) fun te tag wb hi => by
    simp [htrail te tag wb hi]
  have hread : Fields.ofSlot { f with c := if sl.chain then 1#1 else 0#1 }.word f.ext = _ :=
    Fields.ofSlot_word_ext { f with c := if sl.chain then 1#1 else 0#1 }
  unfold decodeSlot
  rw [hread, hdec]
  simp only [chainBit_eq_one]

/-- Settles O56: the decoder runs on each word. -/
theorem decodeOfSpecWords : Obligations.DecodeOfSpecWords :=
  ⟨rfl, rfl, rfl, rfl, rfl, rfl, rfl, rfl, rfl, rfl, rfl, rfl, rfl, rfl, rfl, rfl, rfl, rfl⟩

end Sys2Proof

namespace Sys2Proof.Machine

/-! ### The frame of the instructions on lanes -/

/-- Changing no core leaves the state. -/
theorem listChange_id {α : Type} (l : List α) (n : Nat) : listChange l n (fun x => x) = l := by
  induction l generalizing n with
  | nil => rfl
  | cons x r ih => cases n <;> simp [listChange, ih]

theorem State.modCore_id (s : State) (c : Nat) : s.modCore c (fun k => k) = s := by
  simp [State.modCore, listChange_id]

/-- A meaning that goes on and leaves of the state all but the next identifier of the warp's core, which it may take where the
result is awaited, and of the run all but the destination, the flags, the counts of stochastic roundings and the awaited
values (R52, R157). -/
def Ctx.FramesLanes (c : Ctx) (s : State) (m : Mask) (d : BitVec 5) (late : Bool) (x : Issue) : Prop :=
  ∃ r n, x = .go (s.modCore c.w.core fun q => { q with nextId := q.nextId + n }) r ∧ n ≤ (if late then 1 else 0) ∧
    r = { c.r with win := r.win, flags := r.flags, srs := r.srs, pend := r.pend } ∧
    (if late then r.win = c.r.win ∧ (m = 0#32 → r = c.r) else r.pend = c.r.pend) ∧
    ∀ key, (d.toNat < 24 → ∀ j, m.getLsbD j = true → key ≠ 32 * d.toNat + j) →
      Tab.get 0#64 r.win key = Tab.get 0#64 c.r.win key

section FramesLanes

variable {c : Ctx} {k : BitVec 3} {d : BitVec 5} {uses : List (BitVec 5)} {m : Mask}

/-- A destination written, whatever flags arise and roundings count, is such an answer. -/
theorem Ctx.framesLanes_write (s : State) (f : Nat → Word) (fl : BitVec 5) (n : Tab Nat) :
    c.FramesLanes s m d false (.go s { c.r with win := (c.r.write d m f).win, flags := fl, srs := n }) := by
  obtain ⟨-, hother, -⟩ := Run.write_spec c.r d m f
  exact ⟨_, 0, congrArg (Issue.go · _) (State.modCore_id s c.w.core).symm, le_rfl, rfl, rfl, hother⟩

variable (hr : c.ready k (d :: uses)) (hm : c.mask k = some m) (s : State)

include hr hm

theorem Ctx.framesLanes_vec (f : Nat → Word × BitVec 5) : c.FramesLanes s m d false (c.vec s k d uses f) := by
  rw [Ctx.vec_of_ready hr hm]
  unfold Run.flag
  rw [(Run.write_spec c.r d m fun j => (f j).1).2.2]
  exact Ctx.framesLanes_write s _ _ _

theorem Ctx.framesLanes_vecR (rm : BitVec 3) (f : Nat → Word × BitVec 5) :
    c.FramesLanes s m d false (c.vecR s k d uses rm f) := by
  unfold Ctx.vecR
  rw [Ctx.vec_of_ready hr hm]
  unfold Run.flag Run.rounded
  rw [(Run.write_spec c.r d m fun j => (f j).1).2.2]
  dsimp only
  split <;> exact Ctx.framesLanes_write s _ _ _

theorem Ctx.framesLanes_pure (f : Nat → Word) : c.FramesLanes s m d false (c.pure s k d uses f) := by
  rw [Ctx.pure_of_ready hr hm, (Run.write_spec c.r d m f).2.2]
  exact Ctx.framesLanes_write s f _ _

theorem Ctx.framesLanes_late (la : BitVec 4) (f : Mask → List (Nat × Word) × BitVec 5) :
    c.FramesLanes s m d true (c.late s k d uses la f) := by
  obtain ⟨hk, hd⟩ := hr
  unfold Ctx.late
  simp only [hk, hd, Bool.or_false, Bool.false_eq_true, if_false, hm]
  split
  · exact ⟨c.r, 0, congrArg (Issue.go · _) (State.modCore_id s c.w.core).symm, Nat.zero_le _, rfl, ⟨rfl, fun _ => rfl⟩,
      fun _ _ => rfl⟩
  · next h0 => exact ⟨_, 1, rfl, le_rfl, rfl, ⟨rfl, fun h => absurd h h0⟩, fun _ _ => rfl⟩

end FramesLanes

/-- The meaning of each instruction on lanes keeps that frame. -/
theorem laneForm_framesLanes {i : Instr} {k : BitVec 3} {d : BitVec 5} {uses : List (BitVec 5)} {late : Bool}
    (h : laneForm i = some (k, d, uses, late)) :
    ∃ f, (∀ s, exec i s = s.issue i f) ∧ ∀ (s : State) (c : Ctx) (m : Mask), c.ready k (d :: uses) → c.mask k = some m →
      c.FramesLanes s m d late (f s c) := by
  cases i
  case add | sub | mul | mulhi | mad | min | max | shl | shr | sar | rot | clz | ctz | popc | brev | cmp | abs | neg | icvt |
      fmin | fmax | fdot2 | fsgn =>
    cases h; exact ⟨_, fun _ => rfl, fun s c m hr hm => Ctx.framesLanes_vec hr hm s _⟩
  case fadd | fsub | fmul | fma | fnma | frnd | fscl | fcvt =>
    cases h; exact ⟨_, fun _ => rfl, fun s c m hr hm => Ctx.framesLanes_vecR hr hm s _ _⟩
  case and | or | xor | andn | sel | ext | ins | movi | movh | addi | lea | sfp =>
    cases h; exact ⟨_, fun _ => rfl, fun s c m hr hm => Ctx.framesLanes_pure hr hm s _⟩
  case xperm | xshf | xbc | xbal | xred | xscan | xtopk =>
    cases h; exact ⟨_, fun _ => rfl, fun s c m hr hm => Ctx.framesLanes_late hr hm s _ _⟩
  all_goals cases h

/-- Settles O7: every meaning on lanes keeps the frame, and `State.issue` puts the run back. -/
theorem laneInstructionFrame : Obligations.LaneInstructionFrame := by
  intro s c m i k d uses late hform hsees hr hm
  obtain ⟨f, hexec, hframe⟩ := laneForm_framesLanes hform
  obtain ⟨r, n, hgo, hn, hrun, hlate, hwin⟩ := hframe s c m hr hm
  refine ⟨r, n, ?_, hn, hrun, hlate, hwin⟩
  rw [hexec, State.issue_of_sees hsees f, hgo]

/-! ### Refused fields -/

/-- The context of a warp is one of that warp. -/
theorem State.w_of_ctx? {s : State} {w : WarpRef} {c : Ctx} (h : s.ctx? w = some c) : c.w = w := by
  unfold State.ctx? at h
  split at h
  · cases h
  · split at h
    · cases h; rfl
    · cases h

/-- An instruction one of whose fields its entry refuses takes ILLOP, whatever its meaning (R80, R344). -/
theorem State.issue_of_refused {s : State} {w : WarpRef} {c : Ctx} {i : Instr} (hf : s.focus = some w) (hc : s.ctx? w = some c)
    (hi : i.legal = false) (f : State → Ctx → Issue) : s.issue i f = .next (s.trapped c .illop) := by
  unfold State.issue State.trapped
  rw [State.w_of_ctx? hc]
  simp [hf, hc, hi]

/-- An engine command whose k field is not 0b000 takes ENGSET, before it waits for an operand (R239). -/
theorem Ctx.engine_of_set {c : Ctx} {k : BitVec 3} (hk : k ≠ 0#3) (s : State) (uses : List (BitVec 5)) (f : Issue) :
    c.engine s k uses f = .trap s (c.trap .engset) := by
  simp [Ctx.engine, hk]

/-- Every engine command tests its k field first. -/
theorem engineSet_engset {i : Instr} {k : BitVec 3} (h : engineSet i = some k) (hk : k ≠ 0#3) :
    ∃ f, (∀ s, exec i s = s.issue i f) ∧ ∀ s c, f s c = .trap s (c.trap .engset) := by
  cases i
  case cpy | cpym | mloop | mzero | mrdN | mrdW | mwrN | mwrW | lacfg | laseed | lainfN | lainfW | lafb | lardN | lardW |
      lawrN | lawrW | swsub | swleave | swgo | swrd | swmerge =>
    cases h; exact ⟨_, fun _ => rfl, fun s c => Ctx.engine_of_set hk s _ _⟩
  all_goals cases h

/-- Settles O8: `State.issue` tests the fields before any meaning, and an engine command its k field before all else. -/
theorem refusedFieldsTrap : Obligations.RefusedFieldsTrap := by
  intro s c i
  constructor
  · intro w henc hf hc hi
    obtain ⟨f, hexec⟩ := exec_eq_issue henc
    rw [hexec, State.issue_of_refused hf hc hi]
  · intro k hset hsees hk
    obtain ⟨f, hexec, htrap⟩ := engineSet_engset hset hk
    rw [hexec, State.issue_of_sees hsees, htrap]
    rfl

/-! ### Control, run and pool instructions -/

section Answers

variable {s t : State} {c : Ctx} {i : Instr} {f : State → Ctx → Issue} (hexec : ∀ s, exec i s = s.issue i f)
  (hsees : s.sees i = some c)

include hexec hsees

/-- An instruction whose meaning goes on is issued. -/
theorem exec_of_go {r : Run} (h : f s c = .go t r) : exec i s = .next (t.issued c r) := by
  rw [hexec, State.issue_of_sees hsees, h]

/-- An instruction whose meaning traps takes the trap. -/
theorem exec_of_trap {x : Trap} (h : f s c = .trap t x) : exec i s = .next (t.takeTrap c.w x) := by
  rw [hexec, State.issue_of_sees hsees, h]

/-- An instruction whose meaning stalls leaves the state as it was. -/
theorem exec_of_stall (h : f s c = .stall) : exec i s = .next { s with stall := true } := by
  rw [hexec, State.issue_of_sees hsees, h]

end Answers

section Transfers

variable {c : Ctx} {m : Mask} {k : BitVec 3} (hk : c.busyK k.toNat = false) (hm : c.mask k = some m) (s : State)

include hk hm

/-- A conditional branch is taken where the lanes it asks for are none, or some, as its form says (R72). -/
theorem Ctx.branch_of_ready (off : BitVec 26) (onEmpty : Bool) : c.branch s k off onEmpty =
    .go s { c.r with xfer := if (m == 0#32) = onEmpty then .goto (target c.r (off.signExtend 64)) else .fall } := by
  unfold Ctx.branch
  simp only [hk, Bool.false_eq_true, if_false, hm, beq_iff_eq]
  split <;> rfl

/-- An indirect branch on lanes goes to its address, or raises ALIGN off a packet boundary; on no lane it falls through
(R73). -/
theorem Ctx.indirect_of_ready {a : BitVec 5} (ha : c.busy [a] = false) (x : BitVec 5) : c.indirect s k a x =
    if m = 0#32 then .go s { c.r with xfer := .fall }
    else if (c.low m a x).extractLsb' 0 4 = 0#4 then .go s { c.r with xfer := .goto (c.low m a x) }
    else .trap s (c.trap .align (infoOf (c.low m a x))) := by
  unfold Ctx.indirect
  simp only [hk, ha, Bool.or_false, Bool.false_eq_true, if_false, hm, bne_iff_ne, ite_not]

/-- Where its lanes are none, or its address lies on a packet boundary, an indirect branch makes its transfer. -/
theorem Ctx.indirect_of_aligned {a x : BitVec 5} (ha : c.busy [a] = false)
    (hx : m = 0#32 ∨ (c.low m a x).extractLsb' 0 4 = 0#4) :
    c.indirect s k a x = .go s { c.r with xfer := if m = 0#32 then .fall else .goto (c.low m a x) } := by
  rw [Ctx.indirect_of_ready hk hm s ha]
  by_cases h : m = 0#32
  · rw [if_pos h, if_pos h]
  · rw [if_neg h, if_neg h, if_pos (hx.resolve_left h)]

end Transfers

/-- A loop goes round unless its counter has come to 1 (R74). -/
theorem counter_goes_round (v : Word) : (v - 1 != 0#64) = true ↔ v ≠ 1#64 := by
  rw [bne_iff_ne, Ne, Ne, BitVec.sub_eq_iff_eq_add, BitVec.zero_add]
  rfl

/-- Settles O14, instruction by instruction. -/
theorem controlInstructionsStageTransfers : Obligations.ControlInstructionsStageTransfers := by
  intro s c m k d a x off off16
  refine ⟨fun hs => ?_, fun hm hk => ⟨fun hs => ?_, fun hs => ?_, fun hs hw => ?_, fun ha hx => ?_, fun hb hs => ?_,
    fun hd hs => ?_⟩⟩
  · exact exec_of_go (f := fun s c => .go s { c.r with xfer := .goto (target c.r (off.signExtend 64)) }) (fun _ => rfl) hs rfl
  · have h := Ctx.branch_of_ready hk hm s off true
    simp only [beq_iff_eq] at h
    exact exec_of_go (fun _ => rfl) hs h
  · have h := Ctx.branch_of_ready hk hm s off false
    simp only [beq_eq_false_iff_ne, ite_not] at h
    exact exec_of_go (fun _ => rfl) hs h
  · refine exec_of_go (fun _ => rfl) hs ?_
    simp only [hw, hk, hm, Bool.false_eq_true, if_false]
  · exact ⟨fun hs => exec_of_go (fun _ => rfl) hs (Ctx.indirect_of_aligned hk hm s ha hx),
      fun hs => exec_of_go (fun _ => rfl) hs (Ctx.indirect_of_aligned hk hm s ha hx)⟩
  · refine exec_of_go (fun _ => rfl) hs ?_
    simp only [hk, hb, hm, Bool.or_false, Bool.false_eq_true, if_false, target]
  · refine exec_of_go (fun _ => rfl) hs ?_
    simp only [hk, hd, hm, Bool.or_false, Bool.false_eq_true, if_false]
    cases lowest m with
    | none => rfl
    | some j => simp only [counter_goes_round, ne_eq, ite_not, target]

/-- Settles O15, instruction by instruction. -/
theorem runAndPoolInstructionsComplete : Obligations.RunAndPoolInstructionsComplete := by
  intro s c
  refine ⟨fun hs => ?_, fun hs => ?_, fun a b x scope hs hb => ?_, fun n q hs hg hq hgranted => ?_, fun n hs hn => ?_⟩
  · exact exec_of_go (f := fun s c => .go s c.r) (fun _ => rfl) hs rfl
  · exact exec_of_go (f := fun s c => .go s { c.r with yield := true }) (fun _ => rfl) hs rfl
  · exact exec_of_go (fun _ => rfl) hs (by simp [hb])
  · exact exec_of_go (fun _ => rfl) hs (by simp [Nat.not_lt.mpr hg, hq, hgranted])
  · exact exec_of_go (fun _ => rfl) hs (if_neg (Nat.not_le.mpr hn))

/-- Settles O16: where an address, a claim or a give is refused, and where a claim waits. -/
theorem branchAndPoolTraps : Obligations.BranchAndPoolTraps := by
  intro s c m k a x n
  refine ⟨fun hm hk ha h0 hx => ?_, fun hs hn => ?_, fun hs hn => ?_, fun hs hn hq => ?_⟩
  · have h := Ctx.indirect_of_ready hk hm s ha x
    rw [if_neg h0, if_neg hx] at h
    exact ⟨fun hs => exec_of_trap (fun _ => rfl) hs h, fun hs => exec_of_trap (fun _ => rfl) hs h⟩
  · exact exec_of_trap (fun _ => rfl) hs (if_pos hn)
  · exact exec_of_trap (fun _ => rfl) hs (if_pos hn)
  · refine exec_of_stall (fun _ => rfl) hs ?_
    rw [if_neg (Nat.not_lt.mpr hn)]
    cases hc : c.p.claim with
    | none => rfl
    | some q => simp [hq q hc]

/-! ### Memory instructions: waits and traps -/

/-- The shared head of the memory instructions on lanes: the wait, the check of the set operand, nothing where no lane is live
(R64, R130, R216). -/
def Ctx.ChecksMemory (c : Ctx) (s : State) (k : BitVec 3) (codes : List (BitVec 5)) (x : Issue) : Prop :=
  c.ChecksLanes s k codes x ∧ (c.ready k codes → c.mask k = some 0#32 → x = .go s c.r)

theorem Ctx.checksMemory_onLanes (c : Ctx) (s : State) (k : BitVec 3) (codes : List (BitVec 5)) (g : Mask → Issue) :
    c.ChecksMemory s k codes (c.onLanes s k codes g) := by
  refine ⟨c.checksLanes_head s k codes _, fun hr hm => ?_⟩
  obtain ⟨hk, hc⟩ := hr
  simp [Ctx.onLanes, hk, hc, hm]

/-- The meaning of each memory instruction on lanes begins with that head, on the operands `memoryForm` names. -/
theorem memoryForm_checksMemory {i : Instr} {k : BitVec 3} {codes : List (BitVec 5)} (h : memoryForm i = some (k, codes)) :
    ∃ f, (∀ s, exec i s = s.issue i f) ∧ ∀ s c, Ctx.ChecksMemory c s k codes (f s c) := by
  cases i
  case ld | st | ldn | stn | ldt | stt | pref | rwr | atomAdd | atomFadd | atomBinc | atomXchg | atomMinS | atomMaxS |
      atomMinU | atomMaxU | atomAnd | atomOr | atomXor | atomCas | acq | fread | rel | ffill | fclr =>
    cases h; exact ⟨_, fun _ => rfl, fun s c => Ctx.checksMemory_onLanes c s _ _ _⟩
  all_goals cases h

/-- A global address beyond 57 bits is PERM, first of all (R113). -/
theorem State.locate_of_beyond (s : State) (c : Ctx) {a : Word} (h : bitsOf a 63 57 ≠ 0) (n : Nat) (acc : Access) :
    s.locate c a n acc = (.error (.perm, a), s) := by
  simp [State.locate, h]

/-- One off its size is ALIGN (R132). -/
theorem State.locate_of_misaligned (s : State) (c : Ctx) {a : Word} {n : Nat} (h : bitsOf a 63 57 = 0) (hn : a.toNat % n ≠ 0)
    (acc : Access) : s.locate c a n acc = (.error (.align, a), s) := by
  simp [State.locate, h, hn]

/-- One that does not translate is what its translation answers (R120). -/
theorem State.locate_of_untranslated {s t : State} {c : Ctx} {a : Word} {n : Nat} {acc : Access} {code : Code}
    (h : bitsOf a 63 57 = 0) (hn : a.toNat % n = 0) (ht : s.translate c.w.core c.tenant a acc = (.error code, t)) :
    s.locate c a n acc = (.error (code, a), t) := by
  simp [State.locate, h, hn, ht]

/-- After lanes that are located, the first that is not stops a load (R132). -/
theorem State.locateAll_of_first_bad {s t u : State} {c : Ctx} {n : Nat} {acc : Access} {pre rest : List (Nat × Word)}
    {j : Nat} {a : Word} {ls : List (Nat × Word × Page)} {e : Code × Word} (hpre : s.locateAll c n acc pre = (.ok ls, t))
    (hbad : t.locate c a n acc = (.error e, u)) : s.locateAll c n acc (pre ++ (j, a) :: rest) = (.error e, u) := by
  induction pre generalizing s ls with
  | nil =>
    cases hpre
    simp [State.locateAll, hbad]
  | cons x r ih =>
    simp only [List.cons_append, State.locateAll] at hpre ⊢
    cases hx : s.locate c x.2 n acc with
    | mk p v =>
      cases p with
      | error e => simp [hx] at hpre
      | ok p =>
        rw [hx] at hpre
        dsimp only at hpre ⊢
        cases hr : v.locateAll c n acc r with
        | mk q w =>
          cases q with
          | error e => simp [hr] at hpre
          | ok q =>
            rw [hr] at hpre
            cases hpre
            rw [ih hr]

/-- The lanes of a store are taken in order: those behind some that pass go on from what these staged (R132). -/
theorem State.storeLanes_append {s t : State} {c : Ctx} {id : Nat} {o : Opnds} {sz : BitVec 3} {na : Bool}
    {pre : List (Nat × Word)} {hs hs' : List Held} (hpre : s.storeLanes c id o sz na pre hs = (.ok hs', t))
    (rest : List (Nat × Word)) : s.storeLanes c id o sz na (pre ++ rest) hs = t.storeLanes c id o sz na rest hs' := by
  induction pre generalizing s hs with
  | nil =>
    cases hpre
    rfl
  | cons x r ih =>
    simp only [List.cons_append, State.storeLanes] at hpre ⊢
    cases hx : s.locate c x.2 (szBytes sz) .write with
    | mk p v =>
      cases p with
      | error e => simp [hx] at hpre
      | ok p =>
        rw [hx] at hpre
        dsimp only at hpre ⊢
        cases hw : v.plainWrite c.w.core c.tenant id na p x.2.toNat (c.storeData o.d o.x sz x.1) hs with
        | mk q w =>
          cases q with
          | error e => simp [hw] at hpre
          | ok q =>
            rw [hw] at hpre
            exact ih hpre

/-- After lanes that pass, the first that is not located stops a store (R132). -/
theorem State.storeLanes_of_first_bad {s t u : State} {c : Ctx} {id : Nat} {o : Opnds} {sz : BitVec 3} {na : Bool}
    {pre rest : List (Nat × Word)} {j : Nat} {a : Word} {hs hs' : List Held} {e : Code × Word}
    (hpre : s.storeLanes c id o sz na pre hs = (.ok hs', t)) (hbad : t.locate c a (szBytes sz) .write = (.error e, u)) :
    s.storeLanes c id o sz na (pre ++ (j, a) :: rest) hs = (.error e, u) := by
  rw [State.storeLanes_append hpre]
  simp [State.storeLanes, hbad]

section NearLanes

variable {c : Ctx} {n : Nat} {pre rest : List (Nat × Word)}
  (hpre : ∀ x ∈ pre, c.l.nearOk c.w.core x.2 n = true ∧ nearOff x.2 % n = 0)

include hpre

/-- Lanes whose near addresses pass raise nothing (R125, R132). -/
theorem Ctx.nearBad_of_ok : c.nearBad n pre = none := by
  rw [Ctx.nearBad, List.findSome?_eq_none_iff]
  intro x hx
  obtain ⟨hok, halign⟩ := hpre x hx
  simp [hok, halign]

/-- After them, a lane outside near space that it may use is PERM. -/
theorem Ctx.nearBad_of_outside {j : Nat} {a : Word} (ha : c.l.nearOk c.w.core a n = false) :
    c.nearBad n (pre ++ (j, a) :: rest) = some (.perm, a) := by
  have h := Ctx.nearBad_of_ok hpre
  unfold Ctx.nearBad at h ⊢
  rw [List.findSome?_append, h]
  simp [ha]

/-- After them, a lane off its size is ALIGN. -/
theorem Ctx.nearBad_of_misaligned {j : Nat} {a : Word} (ha : c.l.nearOk c.w.core a n = true) (hn : nearOff a % n ≠ 0) :
    c.nearBad n (pre ++ (j, a) :: rest) = some (.align, a) := by
  have h := Ctx.nearBad_of_ok hpre
  unfold Ctx.nearBad at h ⊢
  rw [List.findSome?_append, h]
  simp [ha, hn]

end NearLanes

section Accesses

variable {s t : State} {c : Ctx} {m : Mask} {o : Opnds} {sz : BitVec 3} (hm : c.mask o.k = some m) (h0 : m ≠ 0#32)
  (hr : c.ready o.k (szCodes o.d sz ++ [o.a, o.b]))

include hm h0 hr

/-- A load one of whose lanes is not located takes that lane's trap (R132). -/
theorem exec_ld_of_error {cp : BitVec 2} {la : BitVec 4} {e : Code × Word} (hs : s.sees (.ld o sz cp la) = some c)
    (h : s.locateAll c (szBytes sz) .read (c.addresses m o.a o.b o.x (szBytes sz)) = (.error e, t)) :
    exec (.ld o sz cp la) s = .next (t.takeTrap c.w (c.trapAt e .read)) := by
  refine exec_of_trap (fun _ => rfl) hs ?_
  rw [Ctx.onLanes_of_ready hr hm h0, h]

/-- A store one of whose lanes does not pass takes that lane's trap (R132). -/
theorem exec_st_of_error {cp : BitVec 2} {e : Code × Word} (hs : s.sees (.st o sz cp) = some c)
    (h : (s.freshId c.w.core).2.storeLanes c (s.freshId c.w.core).1 o sz (cp == 1#2)
      (c.addresses m o.a o.b o.x (szBytes sz)) [] = (.error e, t)) :
    exec (.st o sz cp) s = .next (t.takeTrap c.w (c.trapAt e .write)) := by
  refine exec_of_trap (fun _ => rfl) hs ?_
  rw [Ctx.onLanes_of_ready hr hm h0]
  dsimp only
  rw [h]

/-- A near load one of whose addresses does not pass takes its trap (R125, R132). -/
theorem exec_ldn_of_bad {la : BitVec 4} {e : Code × Word} (hs : s.sees (.ldn o sz la) = some c)
    (h : c.nearBad (szBytes sz) (c.addresses m o.a o.b o.x (szBytes sz)) = some e) :
    exec (.ldn o sz la) s = .next (s.takeTrap c.w (c.trapAt e .read)) := by
  refine exec_of_trap (fun _ => rfl) hs ?_
  rw [Ctx.onLanes_of_ready hr hm h0]
  dsimp only
  rw [h]

/-- A near store one of whose addresses does not pass takes its trap (R125, R132). -/
theorem exec_stn_of_bad {e : Code × Word} (hs : s.sees (.stn o sz) = some c)
    (h : c.nearBad (szBytes sz) (c.addresses m o.a o.b o.x (szBytes sz)) = some e) :
    exec (.stn o sz) s = .next (s.takeTrap c.w (c.trapAt e .write)) := by
  refine exec_of_trap (fun _ => rfl) hs ?_
  rw [Ctx.onLanes_of_ready hr hm h0]
  dsimp only
  rw [h]

/-- A near load that waits for nothing and reads a slice frozen for its core takes PEERFLT (R363). -/
theorem exec_ldn_of_frozen {la : BitVec 4} (hs : s.sees (.ldn o sz la) = some c) {ea : List (Nat × Word)}
    (hea : c.addresses m o.a o.b o.x (szBytes sz) = ea)
    (hok : ∀ x ∈ ea, c.l.nearOk c.w.core x.2 (szBytes sz) = true ∧ nearOff x.2 % szBytes sz = 0)
    (hwait : (s.core c.w.core).mustWait (c.nearRanges (szBytes sz) false ea) [] = false)
    (hfull : (s.core c.w.core).boardFull = false) (haway : c.l.awayFor (c.nearRanges (szBytes sz) false ea) = false)
    (hfrozen : ∃ x ∈ ea, c.l.frozenFor (nearCore c.w.core x.2) c.w.core = true) :
    exec (.ldn o sz la) s = .next (s.trapped c .peerflt) := by
  refine exec_of_trap (fun _ => rfl) hs ?_
  rw [Ctx.onLanes_of_ready hr hm h0]
  dsimp only
  rw [hea, Ctx.nearBad_of_ok hok]
  simp only [hwait, hfull, haway, Bool.or_false, Bool.false_eq_true, if_false, List.any_eq_true, if_pos hfrozen]

end Accesses

/-- Settles O23: the shared head; then, lane after lane, the first that does not pass. -/
theorem memoryInstructionsStallTrapOrSkip : Obligations.MemoryInstructionsStallTrapOrSkip := by
  constructor
  · intro s c i k codes hform hsees
    obtain ⟨f, hexec, hchecks⟩ := memoryForm_checksMemory hform
    obtain ⟨⟨hstall, htrap⟩, hnone⟩ := hchecks s c
    exact ⟨fun hr => exec_of_stall hexec hsees (hstall hr), fun hr hm => exec_of_trap hexec hsees (htrap hr hm),
      fun hr hm => exec_of_go hexec hsees (hnone hr hm)⟩
  · intro s s1 c m o sz cp la e hm h0 hr n ea
    refine ⟨exec_ld_of_error hm h0 hr, exec_st_of_error hm h0 hr, fun pre rest j a hea => ⟨fun ls hs hpre => ?_,
      fun hs' hs hpre => ?_, fun hpre => ⟨fun hs => ?_, fun hs => ?_⟩⟩, fun hs => exec_ldn_of_frozen hm h0 hr hs rfl⟩
    · have bad {v : State} {e : Code × Word} (h : s1.locate c a n .read = (.error e, v)) :=
        exec_ld_of_error hm h0 hr hs ((congrArg _ hea).trans (State.locateAll_of_first_bad hpre h))
      exact ⟨fun h => bad (s1.locate_of_beyond c h _ _), fun h hn => bad (s1.locate_of_misaligned c h hn _),
        fun h hn code v ht => bad (State.locate_of_untranslated h hn ht)⟩
    · have bad {v : State} {e : Code × Word} (h : s1.locate c a n .write = (.error e, v)) :=
        exec_st_of_error hm h0 hr hs ((congrArg (State.storeLanes _ _ _ _ _ _ · _) hea).trans
          (State.storeLanes_of_first_bad hpre h))
      exact ⟨fun h => bad (s1.locate_of_beyond c h _ _), fun h hn => bad (s1.locate_of_misaligned c h hn _),
        fun h hn code v ht => bad (State.locate_of_untranslated h hn ht)⟩
    · exact ⟨fun ha => exec_ldn_of_bad hm h0 hr hs ((congrArg _ hea).trans (Ctx.nearBad_of_outside hpre ha)),
        fun ha hn => exec_ldn_of_bad hm h0 hr hs ((congrArg _ hea).trans (Ctx.nearBad_of_misaligned hpre ha hn))⟩
    · exact ⟨fun ha => exec_stn_of_bad hm h0 hr hs ((congrArg _ hea).trans (Ctx.nearBad_of_outside hpre ha)),
        fun ha hn => exec_stn_of_bad hm h0 hr hs ((congrArg _ hea).trans (Ctx.nearBad_of_misaligned hpre ha hn))⟩

/-! ### Taking a trap (O53) -/

/-- A state whose memory, tenants and device registers are another's. -/
structure State.SameTables (s u : State) : Prop where
  mem : u.mem = s.mem
  tenants : u.tenants = s.tenants
  dev : u.dev = s.dev

section SameTables

variable {s u : State} (h : s.SameTables u)
include h

theorem State.SameTables.readWord (pa : Nat) : u.readWord pa = s.readWord pa := by
  simp only [State.readWord]
  congr 2
  induction (8 : Nat) generalizing pa with
  | zero => rfl
  | succ n ih => simp [State.readBytes, State.readByte, State.cell, h.mem, h.dev, ih]

theorem State.SameTables.tenant (t : Nat) : u.tenant t = s.tenant t := by simp [State.tenant, h.tenants]

theorem State.SameTables.localPa (pa : Nat) : u.localPa pa = s.localPa pa := by simp only [State.localPa, h.dev]

theorem State.SameTables.walkEntry (t va table level : Nat) : u.walkEntry t va table level = s.walkEntry t va table level := by
  simp only [State.walkEntry, h.localPa, h.readWord, h.tenant]

theorem State.SameTables.walkFrom (t va table n : Nat) : u.walkFrom t va table n = s.walkFrom t va table n := by
  induction n generalizing table with
  | zero => simp only [State.walkFrom, h.walkEntry]
  | succ n ih => simp only [State.walkFrom, h.walkEntry, ih]

theorem State.SameTables.walk (t va : Nat) : u.walk t va = s.walk t va := by
  simp only [State.walk, h.walkFrom, h.tenant]

theorem State.SameTables.remotePa (pa : Nat) : u.remotePa pa = s.remotePa pa := by simp only [State.remotePa, h.dev]

theorem State.SameTables.translateHome (t : Nat) (va : Word) (acc : Access) :
    u.translateHome t va acc = s.translateHome t va acc := by
  simp only [State.translateHome, h.walk, h.remotePa, h.dev]

/-- A handler's entry is read through the tables and the memory alone. -/
theorem State.SameTables.vector (l : Launch) (c : Code) : u.vector l c = s.vector l c := by
  simp only [State.vector, h.translateHome, h.readWord]

end SameTables

/-- The state with the run of a trapping warp discarded, and its launch's waiting list without the warp. -/
def State.discarded (s : State) (w : WarpRef) (l : Nat) : State :=
  (s.modWarp w Warp.discard).modLaunch l fun x => x.forget w

theorem State.vector_discarded (s : State) (w : WarpRef) (k : Nat) (l : Launch) (c : Code) :
    (s.discarded w k).vector l c = s.vector l c :=
  State.SameTables.vector ⟨rfl, rfl, rfl⟩ l c

theorem State.vector_modLaunch (s : State) (k : Nat) (f : Launch → Launch) (l : Launch) (c : Code) :
    (s.modLaunch k f).vector l c = s.vector l c :=
  State.SameTables.vector ⟨rfl, rfl, rfl⟩ l c

/-- A core that the device does not have. -/
theorem State.core_of_absent {s : State} {c : Nat} (h : ¬ c < s.cores.length) : s.core c = Core.reset := by
  simp [State.core, List.getD_eq_getElem?_getD, List.getElem?_eq_none (Nat.le_of_not_lt h)]

/-- A core that has a warp is one of the device's. -/
theorem State.core_lt_of_warp? {s : State} {w : WarpRef} {p : Warp} (h : s.warp? w = some p) : w.core < s.cores.length := by
  by_contra hlt
  have hnone : Core.reset.warp? w.slot w.hnd = none := by cases w.hnd <;> rfl
  simp [State.warp?, State.core_of_absent hlt, hnone] at h

theorem State.warp?_discarded {s : State} {w : WarpRef} {p : Warp} (k : Nat) (h : s.warp? w = some p) :
    (s.discarded w k).warp? w = some p.discard := by
  have hmod : (s.modWarp w Warp.discard).warp? w = some p.discard := by
    simp [State.warp?_modWarp s w w Warp.discard (State.core_lt_of_warp? h), h]
  exact hmod

section TakeTrap

variable {s : State} {w : WarpRef} {p : Warp} {l : Launch} {t : Trap}
  (hwarp : s.warp? w = some p) (hlaunch : s.launch? p.launch = some l)
include hwarp hlaunch

/-- A trap of a handler warp ends its launch. -/
theorem State.takeTrap_of_handlerWarp (hhnd : w.hnd = true) (hx : t.code ≠ .xlate) :
    s.takeTrap w t = (s.discarded w p.launch).endLaunch p.launch w.core { code := t.code, detail := p.logical } := by
  simp [State.takeTrap, State.discarded, hwarp, hlaunch, hhnd, hx]

/-- A code that goes to no handler meets its default fate. -/
theorem State.takeTrap_of_never (hhnd : w.hnd = false) (hx : t.code ≠ .xlate) (hnever : t.code.never = true) :
    s.takeTrap w t = (s.discarded w p.launch).defaultFate w p t := by
  simp [State.takeTrap, State.discarded, hwarp, hlaunch, hhnd, hx, hnever]

/-- A code that may go to a handler goes where its entry of the vector table says. -/
theorem State.takeTrap_of_vectored (hhnd : w.hnd = false) (hx : t.code ≠ .xlate) (hnever : t.code.never = false) :
    s.takeTrap w t = match s.vector l t.code with
      | .error _ => (s.discarded w p.launch).endLaunch p.launch w.core { code := t.code, detail := p.logical }
      | .ok none => (s.discarded w p.launch).defaultFate w p t
      | .ok (some e) => (s.discarded w p.launch).modWarp w fun p =>
          { p with sched := .pending, readyAt := none, wait := .handler t e } := by
  rw [← State.vector_discarded s w p.launch l]
  simp only [State.takeTrap, hwarp, hlaunch, hhnd, hx, hnever]
  rfl

/-- XLATE without a handler sends its record and meets its default fate. -/
theorem State.takeTrap_of_xlate (hx : t.code = .xlate) (hno : w.hnd = true ∨ l.card.tvt = 0#64) :
    s.takeTrap w t =
      ((s.discarded w p.launch).xlateRecord l.tenant t.addr w.core t.kind l.card.addr).defaultFate w p t := by
  rcases hno with hhnd | htvt
  · simp [State.takeTrap, State.discarded, hwarp, hlaunch, hx, hhnd]
  · by_cases hhnd : w.hnd = true
    · simp [State.takeTrap, State.discarded, hwarp, hlaunch, hx, hhnd]
    · simp [State.takeTrap, State.discarded, hwarp, hlaunch, hx, hhnd, Code.never, State.vector, htvt]

end TakeTrap

/-- A code whose default fate is to end the launch. -/
theorem State.defaultFate_of_ends (s : State) (w : WarpRef) (p : Warp) {t : Trap} (hx : t.code ≠ .xlate)
    (hf : t.code ≠ .futempty) (hb : t.code ≠ .brk) (hl : t.code ≠ .logfull) :
    s.defaultFate w p t = s.endLaunch p.launch w.core { code := t.code, detail := p.logical } := by
  cases hc : t.code <;> simp_all [State.defaultFate]

/-- The codes that go to no handler end their launch. -/
theorem Code.ne_of_never {c : Code} (h : c.never = true) : c ≠ .xlate ∧ c ≠ .futempty ∧ c ≠ .brk ∧ c ≠ .logfull := by
  cases c <;> simp_all [Code.never]

section LogFull

variable {s : State} {w : WarpRef} {p : Warp} {l : Launch}
  (hwarp : s.warp? w = some p) (hlaunch : s.launch? p.launch = some l)
include hlaunch

theorem State.logFull_of_outstanding (hwait : l.logWait = true) : s.logFull p.launch (some w) = s := by
  simp [State.logFull, hlaunch, hwait]

include hwarp

/-- LOGFULL of a launch without one outstanding, by the warp's kind and the entry of the vector table. -/
theorem State.logFull_of_first (hwait : l.logWait = false) (hdue : p.handlerDue = none) :
    s.logFull p.launch (some w) =
      let u := s.modLaunch p.launch fun x => { x with logWait := true }
      if w.hnd then u.endLaunch p.launch w.core { code := .logfull, detail := p.logical }
      else match s.vector l .logfull with
        | .error _ => u.endLaunch p.launch w.core { code := .logfull, detail := p.logical }
        | .ok none => u
        | .ok (some e) => u.modWarp w fun x => { x with due := some ({
            code := .logfull, pos := 25, info := 0, lanes := some x.live, kind := 0, addr := x.pc }, e) } := by
  rw [← State.vector_modLaunch s p.launch fun x => { x with logWait := true }]
  simp only [State.logFull, hlaunch, hwait, hwarp, hdue]
  rfl

end LogFull

section Return

variable {s : State} {c : Ctx} {t : Trap} {at_ : Word} (hquiet : s.quiet c.w c.p = true) (htrap : c.p.trap = some (t, at_))
include hquiet htrap

theorem State.commitTret_logfull (hcode : t.code = .logfull) :
    s.commitTret c false = .done ((s.modCore c.w.core fun k => { k with hnds := Tab.drop k.hnds c.w.slot }).modWarp
      (ownerRef c.w) fun y => { y with wdog := 0, due := none }) := by
  simp [State.commitTret, hquiet, htrap, hcode]

theorem State.commitTret_other (hcode : t.code ≠ .logfull) :
    s.commitTret c false = .done ((s.modCore c.w.core fun k => { k with hnds := Tab.drop k.hnds c.w.slot }).returnFrom
      (ownerRef c.w) t at_ (at_ != trapAddr c.own.pc) c.r.yield (c.p.sched == .active)) := by
  simp [State.commitTret, hquiet, htrap, hcode]

end Return

theorem Trap.blocks_iff (t : Trap) (at_ own : Word) :
    t.blocks (at_ != own) = true ↔ t.code = .xlate ∧ at_ = own ∧ t.resolved = false := by
  simp [Trap.blocks, and_assoc]

/-- The return of a run that has staged no yield. -/
theorem State.returnFrom_of_not_yielded (u : State) (w : WarpRef) (t : Trap) (at_ own : Word) (sched : Sched) :
    u.returnFrom w t at_ (at_ != own) false (sched == .active) = u.modWarp w fun x => { x with
      pc := at_, wdog := 0, fetched := if at_ = x.pc ∧ x.stop = false then x.fetched else none,
      wait := if t.code = .xlate ∧ at_ = own ∧ t.resolved = false then .fault (t.info / 2048) t.kind else .none,
      sched := if x.stop = true then x.sched
        else if sched = .active ∧ ¬ (t.code = .xlate ∧ at_ = own ∧ t.resolved = false) then .active else .pending,
      readyAt := none,
      lastIssue := (u.core w.core).cyc.toNat } := by
  simp only [State.returnFrom, ← Trap.blocks_iff]
  cases hb : t.blocks (at_ != own) <;> cases hs : sched <;> simp

/-- Settles O53, from what each case of taking a trap, of LOGFULL and of a return does. -/
theorem trapsAreTaken : Obligations.TrapsAreTaken := by
  intro s w p l t hwarp hlaunch d ends
  have hd : s.discarded w p.launch = d := rfl
  have never_ends : w.hnd = false → t.code.never = true → ends := by
    intro hhnd hnever
    obtain ⟨hx, hf, hb, hl⟩ := Code.ne_of_never hnever
    exact (State.takeTrap_of_never hwarp hlaunch hhnd hx hnever).trans (State.defaultFate_of_ends _ _ _ hx hf hb hl)
  refine ⟨?_, ?_, fun hhnd hx _ => State.takeTrap_of_handlerWarp hwarp hlaunch hhnd hx, ?_,
    State.logFull_of_outstanding hlaunch, ?_, never_ends, ?_, ?_⟩
  · intro _ q hq _
    rw [← hd, State.warp?_discarded p.launch hwarp] at hq
    obtain rfl := Option.some.inj hq
    exact ⟨rfl, rfl, rfl, rfl, rfl⟩
  · intro hhnd hnever hx hl
    have htake := State.takeTrap_of_vectored hwarp hlaunch hhnd hx hnever
    refine ⟨fun e he => ?_, fun he => ⟨fun hf => ?_, fun hf hb => ?_⟩, fun he => ?_⟩
    · rw [htake, he, hd]
    · rw [htake, he, hd]; simp [State.defaultFate, hf]
    · show s.takeTrap w t = _; rw [htake, he, hd]; exact State.defaultFate_of_ends _ _ _ hx hf hb hl
    · show s.takeTrap w t = _; rw [htake, he, hd]
  · intro hwait hdue u
    have hfull := State.logFull_of_first hwarp hlaunch hwait hdue
    refine ⟨fun hhnd e he => ?_, fun hhnd he => ?_, fun hend => ?_⟩
    · rw [hfull, he]; simp [hhnd, u]
    · rw [hfull, he]; simp [hhnd, u]
    · rw [hfull]
      by_cases hhnd : w.hnd = true
      · simp [hhnd, u]
      · simp [hhnd, u, hend.resolve_left hhnd]
  · rintro c x at_ rfl hquiet htrap hcode
    exact State.commitTret_logfull hquiet htrap hcode
  · intro hx hno
    rw [State.takeTrap_of_xlate hwarp hlaunch hx hno, hd]
    simp [State.defaultFate, hx]
  · rintro c at_ rfl hquiet htrap hcode hyield
    rw [State.commitTret_other hquiet htrap hcode, hyield]
    exact congrArg Applied.done (State.returnFrom_of_not_yielded ..)

/-! ### Values that reach a core (O42) -/

/-- A change of a thing at a key depends on the change of that thing alone. -/
theorem Dict.change_congr {α : Type} {d : Dict α} {n : Nat} {x : α} (h : Dict.find d n = some x) {f g : α → α}
    (hfg : f x = g x) : Dict.change d n f = Dict.change d n g := by
  induction d with
  | nil => rfl
  | cons e r ih =>
    by_cases hk : e.1 = n
    · simp only [Dict.find, hk, if_true, Option.some.injEq] at h
      simp [Dict.change, hk, h, hfg]
    · simp only [Dict.find, hk, if_false] at h
      simp [Dict.change, hk, ih h]

/-- A change of a core depends on the change of that core alone. -/
theorem State.modCore_congr {s : State} {c : Nat} {f g : Core → Core} (hfg : f (s.core c) = g (s.core c)) :
    s.modCore c f = s.modCore c g := by
  have hlist : listChange s.cores c f = listChange s.cores c g := listChange_congr fun x hx => by
    simpa [State.core, List.getD_eq_getElem?_getD, hx] using hfg
  simp only [State.modCore, hlist]

/-- A change of a warp depends on the change of that warp alone. -/
theorem State.modWarp_congr {s : State} {w : WarpRef} {p : Warp} (h : s.warp? w = some p) {f g : Warp → Warp}
    (hfg : f p = g p) : s.modWarp w f = s.modWarp w g := by
  refine State.modCore_congr ?_
  unfold State.warp? Core.warp? at h
  simp only [Core.modWarp]
  split at h
  · next hh => simp only [hh, if_true, Dict.change_congr h hfg]
  · next hh => simp only [hh, Bool.false_eq_true, if_false, Dict.change_congr h hfg]

/-! A table after a list of values has been set. -/

section SetList

variable {α : Type} (l : List α) (key : α → Nat) (val : α → Word) (t : Tab Word)

theorem Tab.get_foldl_set_other {k : Nat} (h : ∀ x ∈ l, key x ≠ k) :
    Tab.get 0#64 (l.foldl (fun t x => Tab.set 0#64 t (key x) (val x)) t) k = Tab.get 0#64 t k := by
  induction l generalizing t with
  | nil => rfl
  | cons x r ih =>
    rw [List.foldl_cons, ih _ fun y hy => h y (List.mem_cons_of_mem _ hy), Tab.get_set_ne]
    exact (h x (List.mem_cons_self ..)).symm

/-- The value of a key that no other value is set at. -/
theorem Tab.get_foldl_set_mem {x : α} (hx : x ∈ l) (h : ∀ y ∈ l, key y = key x → val y = val x) :
    Tab.get 0#64 (l.foldl (fun t x => Tab.set 0#64 t (key x) (val x)) t) (key x) = val x := by
  induction l generalizing t x with
  | nil => cases hx
  | cons a r ih =>
    rw [List.foldl_cons]
    by_cases hr : ∃ y ∈ r, key y = key x
    · obtain ⟨y, hy, hkey⟩ := hr
      have hval : val y = val x := h y (List.mem_cons_of_mem _ hy) hkey
      have hlast := ih (Tab.set 0#64 t (key a) (val a)) hy fun z hz hzy =>
        (h z (List.mem_cons_of_mem _ hz) (hzy.trans hkey)).trans hval.symm
      rwa [hkey, hval] at hlast
    · obtain rfl : x = a := (List.mem_cons.mp hx).resolve_right fun hxr => hr ⟨x, hxr, rfl⟩
      rw [Tab.get_foldl_set_other _ _ _ _ fun y hy hkey => hr ⟨y, hy, hkey⟩, Tab.get_set_self]

end SetList

/-! Awaited values. -/

/-- Whether a warp's run awaits a value of an identifier. -/
def Warp.AwaitsIn (p : Warp) (id : Nat) (q : Pend) : Prop := ∃ r, p.run = some r ∧ q ∈ r.pend ∧ q.id = id ∧ q.arrived = false

/-- What `execPendingValueArrival` finds of the runs in progress. -/
def awaitedIn (id : Nat) (e : WarpRef × Warp) : Option (WarpRef × Warp × Pend) :=
  match e.2.run with
  | some r => (r.pend.find? fun q => q.id == id && !q.arrived).map fun q => (e.1, e.2, q)
  | none => none

theorem awaitedIn_some {id : Nat} {e : WarpRef × Warp} {x : WarpRef × Warp × Pend} (h : awaitedIn id e = some x) :
    x.1 = e.1 ∧ x.2.1 = e.2 ∧ e.2.AwaitsIn id x.2.2 := by
  unfold awaitedIn at h
  split at h
  · next r hr =>
    obtain ⟨q, hq, rfl⟩ := Option.map_eq_some_iff.mp h
    have := List.find?_some hq
    simp only [Bool.and_eq_true, beq_iff_eq, Bool.not_eq_true'] at this
    exact ⟨rfl, rfl, r, hr, List.mem_of_find?_eq_some hq, this⟩
  · cases h

theorem awaitedIn_isSome {id : Nat} {e : WarpRef × Warp} {q : Pend} (h : e.2.AwaitsIn id q) :
    (awaitedIn id e).isSome = true := by
  obtain ⟨r, hr, hq, hid, ha⟩ := h
  simp only [awaitedIn, hr, Option.isSome_map, List.find?_isSome]
  exact ⟨q, hq, by simp [hid, ha]⟩

theorem execPendingValueArrival_eq (core id : Nat) (s : State) :
    execPendingValueArrival core id s = match (s.residents core).findSome? (awaitedIn id) with
      | some (w, p, q) => .next (s.arriveInRun core w p q)
      | none =>
        match (s.residents core).find? fun e => e.2.marks.any fun m => m.id == id && m.known with
        | some (w, p) => .next (s.arriveMarks core w p id)
        | none => .next s := rfl

section Arrival

variable {s : State} {core id : Nat} {w : WarpRef} {p : Warp} (hmem : (w, p) ∈ s.residents core)
include hmem

/-- The one value awaited under an identifier arrives. -/
theorem pendingValueArrival_of_awaited {q : Pend} (hq : p.AwaitsIn id q)
    (hone : ∀ e ∈ s.residents core, ∀ q', e.2.AwaitsIn id q' → e = (w, p) ∧ q' = q) :
    exec (.pendingValueArrival core id) s = .next (s.arriveInRun core w p q) := by
  show execPendingValueArrival core id s = _
  have hsome : ((s.residents core).findSome? (awaitedIn id)).isSome = true :=
    List.findSome?_isSome_iff.mpr ⟨_, hmem, awaitedIn_isSome hq⟩
  obtain ⟨⟨w', p', q'⟩, hfound⟩ := Option.isSome_iff_exists.mp hsome
  obtain ⟨e, he, hin⟩ := List.exists_of_findSome?_eq_some hfound
  obtain ⟨hw, hp, hawaits⟩ := awaitedIn_some hin
  obtain ⟨rfl, rfl⟩ := hone e he q' hawaits
  simp only at hw hp
  rw [execPendingValueArrival_eq, hfound, hw, hp]

/-- Known values reach the registers they marked. -/
theorem pendingValueArrival_of_marked (hm : ∃ m ∈ p.marks, m.id = id ∧ m.known = true)
    (hnone : ∀ e ∈ s.residents core, ∀ q, ¬ e.2.AwaitsIn id q)
    (hone : ∀ e ∈ s.residents core, ∀ m ∈ e.2.marks, m.id = id → m.known = true → e = (w, p)) :
    exec (.pendingValueArrival core id) s = .next (s.arriveMarks core w p id) := by
  show execPendingValueArrival core id s = _
  have hruns : (s.residents core).findSome? (awaitedIn id) = none := by
    rw [List.findSome?_eq_none_iff]
    intro e he
    by_contra hc
    obtain ⟨x, hx⟩ := Option.ne_none_iff_exists'.mp hc
    exact hnone e he _ (awaitedIn_some hx).2.2
  have hsome : ((s.residents core).find? fun e => e.2.marks.any fun m => m.id == id && m.known).isSome = true := by
    rw [List.find?_isSome]
    obtain ⟨m, hmark, hid, hknown⟩ := hm
    exact ⟨_, hmem, List.any_eq_true.mpr ⟨m, hmark, by simp [hid, hknown]⟩⟩
  obtain ⟨e, hfound⟩ := Option.isSome_iff_exists.mp hsome
  have hany := List.find?_some hfound
  obtain ⟨m, hmark, hkn⟩ := List.any_eq_true.mp hany
  simp only [Bool.and_eq_true, beq_iff_eq] at hkn
  obtain rfl := hone e (List.mem_of_find?_eq_some hfound) m hmark hkn.1 hkn.2
  rw [execPendingValueArrival_eq, hruns, hfound]

end Arrival

/-- What the arrival of a value does to its run. -/
theorem State.arriveInRun_eq (s : State) (core : Nat) (w : WarpRef) (p : Warp) (q : Pend) :
    s.arriveInRun core w p q =
      let freed := s.modCore core fun k => k.freeReqs q.id
      let trapAt (code : Code) (n : Nat) : Trap := { code := code, pos := n, info := 0, lanes := none, kind := 0 }
      let good : Bool := match q.dest with
        | .set _ => (freed.core core).kmakeOk core p.launch ((q.vals.head?.map (·.2)).getD 0#64)
        | .win _ _ => true
      if q.poison then freed.takeTrap w (trapAt .poison q.pos)
      else if good then freed.modRun w fun r =>
        Run.settle { r with pend := r.pend.map fun x => if x.id = q.id then { x with arrived := true } else x }
      else freed.takeTrap w (trapAt .setkind q.pos) := by
  unfold State.arriveInRun
  cases q.poison with
  | true => rfl
  | false =>
    cases hdest : q.dest with
    | win => simp
    | set => 
      simp only [Bool.false_eq_true, if_false, Bool.not_eq_true', beq_iff_eq]
      split <;> simp_all

/-! A special function's results. -/

/-- The union of single lanes. -/
theorem getLsbD_foldl_laneBit {α : Type} (l : List (Nat × α)) (m : Mask) (i : Nat) (hi : i < 32) :
    (l.foldl (fun m e => m ||| laneBit e.1) m).getLsbD i = true ↔ m.getLsbD i = true ∨ ∃ e ∈ l, e.1 = i := by
  induction l generalizing m with
  | nil => simp
  | cons e r ih =>
    rw [List.foldl_cons, ih]
    have hbit : (laneBit e.1).getLsbD i = true ↔ e.1 = i := by
      simp only [laneBit, BitVec.getLsbD_ofNat, hi, decide_true, Bool.true_and, Nat.testBit_two_pow, decide_eq_true_eq]
    simp only [BitVec.getLsbD_or, Bool.or_eq_true, hbit, List.mem_cons, exists_eq_or_imp, or_assoc]

/-- The results that reach the register: of live lanes, and of those that the register still stands for. -/
def SfqOp.results (q : SfqOp) (live : Mask) : List (Nat × Word × BitVec 5) :=
  (q.vals.filter fun e => live.getLsbD e.1).map fun e => (e.1, q.result e.2)

theorem SfqOp.mem_results {q : SfqOp} {live : Mask} {x : Nat × Word × BitVec 5} :
    x ∈ q.results live ↔ ∃ e ∈ q.vals, live.getLsbD e.1 = true ∧ x = (e.1, q.result e.2) := by
  simp only [SfqOp.results, List.mem_map, List.mem_filter]
  exact ⟨fun ⟨e, ⟨he, hl⟩, hx⟩ => ⟨e, he, hl, hx.symm⟩, fun ⟨e, he, hl, hx⟩ => ⟨e, ⟨he, hl⟩, hx.symm⟩⟩

/-- The lanes of the results. -/
def SfqOp.gotLanes (q : SfqOp) (live : Mask) : Mask :=
  (q.results live).foldl (fun m e => m ||| laneBit e.1) 0#32 &&& q.lanes

theorem SfqOp.getLsbD_gotLanes (q : SfqOp) (live : Mask) (i : Nat) :
    (q.gotLanes live).getLsbD i = true ↔ live.getLsbD i = true ∧ q.lanes.getLsbD i = true ∧ ∃ e ∈ q.vals, e.1 = i := by
  by_cases hi : i < 32
  · simp only [SfqOp.gotLanes, BitVec.getLsbD_and, Bool.and_eq_true, getLsbD_foldl_laneBit _ _ _ hi, BitVec.getLsbD_zero,
      Bool.false_eq_true, false_or, SfqOp.mem_results]
    constructor
    · rintro ⟨⟨_, ⟨e, he, hl, rfl⟩, rfl⟩, hlane⟩
      exact ⟨hl, hlane, e, he, rfl⟩
    · rintro ⟨hl, hlane, e, he, rfl⟩
      exact ⟨⟨_, ⟨e, he, hl, rfl⟩, rfl⟩, hlane⟩
  · simp [BitVec.getLsbD_of_ge _ i (Nat.le_of_not_lt hi)]

/-- The registers of the owner after the results. -/
def SfqOp.regsAfter (q : SfqOp) (live : Mask) (g : Nat) (regs : Tab Word) : Tab Word :=
  if q.reg < 8 * g then ((q.results live).filter fun e => q.lanes.getLsbD e.1).foldl
    (fun t e => Tab.set 0#64 t (32 * q.reg + e.1) e.2.1) regs
  else regs

theorem SfqOp.get_regsAfter_of_lane {q : SfqOp} {live : Mask} {g : Nat} {regs : Tab Word}
    (hnodup : (q.vals.map fun e => e.1).Nodup) {e : Nat × Word} (he : e ∈ q.vals) (hg : q.reg < 8 * g)
    (hl : live.getLsbD e.1 = true) (hlane : q.lanes.getLsbD e.1 = true) :
    Tab.get 0#64 (q.regsAfter live g regs) (32 * q.reg + e.1) = (q.result e.2).1 := by
  rw [SfqOp.regsAfter, if_pos hg]
  have hx : (e.1, q.result e.2) ∈ (q.results live).filter fun x => q.lanes.getLsbD x.1 :=
    List.mem_filter.mpr ⟨SfqOp.mem_results.mpr ⟨e, he, hl, rfl⟩, hlane⟩
  refine Tab.get_foldl_set_mem _ (fun x : Nat × Word × BitVec 5 => 32 * q.reg + x.1) (fun x => x.2.1) _ hx fun y hy hkey => ?_
  obtain ⟨e', he', -, rfl⟩ := SfqOp.mem_results.mp (List.mem_filter.mp hy).1
  obtain rfl : e' = e := List.inj_on_of_nodup_map hnodup he' he (Nat.add_left_cancel hkey)
  rfl

theorem SfqOp.get_regsAfter_other {q : SfqOp} {live : Mask} {g : Nat} {regs : Tab Word} {key : Nat}
    (h : ∀ e ∈ q.vals, q.reg < 8 * g → live.getLsbD e.1 = true → q.lanes.getLsbD e.1 = true → key ≠ 32 * q.reg + e.1) :
    Tab.get 0#64 (q.regsAfter live g regs) key = Tab.get 0#64 regs key := by
  unfold SfqOp.regsAfter
  split
  · next hg =>
    refine Tab.get_foldl_set_other _ (fun x : Nat × Word × BitVec 5 => 32 * q.reg + x.1) (fun x => x.2.1) _ fun x hx => ?_
    obtain ⟨hx, hlane⟩ := List.mem_filter.mp hx
    obtain ⟨e, he, hl, rfl⟩ := SfqOp.mem_results.mp hx
    exact (h e he hg hl hlane).symm
  · rfl

/-- The flags of a warp stand where the registers of its owner change. -/
theorem State.warp?_modWarp_regs {s : State} {w : WarpRef} {p : Warp} (h : s.warp? w = some p) (v : WarpRef) (regs : Tab Word)
    (hv : v.core < s.cores.length) :
    ∃ p', (s.modWarp v fun x => { x with regs := regs }).warp? w = some p' ∧ p'.fpflags = p.fpflags := by
  rw [State.warp?_modWarp s v w _ hv]
  split
  · rw [h]
    exact ⟨_, rfl, rfl⟩
  · exact ⟨p, h, rfl⟩

/-- What the completion of an operation of a warp does. -/
theorem sfqCompletion_of_found {s : State} {w : WarpRef} {p o : Warp} {id : Nat} {q : SfqOp} (hwarp : s.warp? w = some p)
    (howner : s.warp? (ownerRef w) = some o) (hfound : (p.sfq.find? fun x => x.token == id) = some q) :
    exec (.sfqCompletion w id) s =
      .next ((s.modWarp (ownerRef w) fun x => { x with regs := q.regsAfter p.live o.g o.regs }).modWarp w fun x => { x with
        sfq := x.sfq.filter fun y => y.token != id
        fpflags := p.fpflags ||| (q.results p.live).foldl (fun x e => x ||| e.2.2) 0#5
        marks := (x.marks.filter fun y => y.owner != .token id).map fun y =>
          if y.reg = q.reg then { y with lanes := y.lanes &&& ~~~(q.gotLanes p.live) } else y }) := by
  obtain ⟨p', hwarp', hflags⟩ := State.warp?_modWarp_regs hwarp (ownerRef w) (q.regsAfter p.live o.g o.regs)
    (State.core_lt_of_warp? howner)
  have hyields (g : Mask) :
      Mark.yields q.reg g = fun y => if y.reg = q.reg then { y with lanes := y.lanes &&& ~~~g } else y := by
    funext y; simp only [Mark.yields, beq_iff_eq]
  show execSfqCompletion w id s = _
  simp only [execSfqCompletion, hwarp, howner, hfound, hyields]
  refine congrArg Host.Outcome.next ((congrArg (fun u => State.modWarp u w _) (State.modWarp_congr
    (g := fun x => { x with regs := q.regsAfter p.live o.g o.regs }) howner ?_)).trans (State.modWarp_congr hwarp' ?_))
  · unfold SfqOp.regsAfter
    split <;> rfl
  · simp only [hflags]
    rfl

/-! Deposits. -/

/-- A core that has a deposit is one of the device's. -/
theorem State.core_lt_of_deposit {s : State} {core : Nat} {d : Deposit} (h : d ∈ (s.core core).deposits) :
    core < s.cores.length := by
  by_contra hlt
  rw [State.core_of_absent hlt] at h
  cases h

/-- The state in which a deposit has reached its core. -/
def State.depositCome (s : State) (core : Nat) (d : Deposit) : State :=
  if d.arrived then s else s.modCore core fun k => k.depositArrives d

/-- A core without a deposit. -/
def State.depositGone (s : State) (core id : Nat) : State :=
  s.modCore core fun k => { k with deposits := k.deposits.filter fun x => x.id != id }

section Deposits

variable {s : State} {core id : Nat} {d : Deposit} (hfound : ((s.core core).deposits.find? fun x => x.id == id) = some d)
include hfound

/-- A deposit that is the first for its warp is the first once it has come. -/
theorem State.firstArrived_depositCome
    (hfirst : (s.core core).firstArrived d.launch d.slot = if d.arrived then some d else none) :
    (((s.depositCome core d).core core).firstArrived d.launch d.slot).map (·.id) = some id := by
  have hid : d.id = id := by simpa using List.find?_some hfound
  unfold State.depositCome
  cases harr : d.arrived with
  | true => simp [hfirst, harr, hid]
  | false =>
    have hlt := State.core_lt_of_deposit (List.mem_of_find?_eq_some hfound)
    simp only [harr, Bool.false_eq_true, if_false] at hfirst ⊢
    rw [State.core_modCore, if_pos ⟨rfl, hlt⟩]
    have hbefore := List.find?_eq_none.mp hfirst
    have hrest : ((s.core core).deposits.filter fun x => x.id != d.id).find?
        (fun x => x.arrived && x.slot == d.slot && x.launch == d.launch) = none :=
      List.find?_eq_none.mpr fun x hx => hbefore x (List.mem_of_mem_filter hx)
    simp only [Core.firstArrived, Core.depositArrives, List.find?_append, hrest]
    simp [hid]

variable (hturn : d.arrived = true ∨ (s.core core).depositBehind d = false) (hsus : s.suspended d.launch core = false)
include hturn hsus

/-- A deposit in its turn, once it has come. -/
theorem deposit_of_turn :
    exec (.deposit core id) s = match Dict.find (s.core core).warps d.slot with
      | none => .next ((s.depositCome core d).depositGone core id)
      | some p =>
        if p.launch != d.launch then .next ((s.depositCome core d).depositGone core id)
        else if (((s.depositCome core d).core core).firstArrived d.launch d.slot).map (·.id) != some id
            || !p.takesDeposit (Dict.find (s.core core).hnds d.slot) d then .next (s.depositCome core d)
        else .next (((((s.depositCome core d).modWarp { core := core, slot := d.slot, hnd := false } fun p =>
          p.takeDeposit d).tellDeposit p d)).depositGone core id) := by
  have hbehind : (!d.arrived && (s.core core).depositBehind d) = false := by rcases hturn with h | h <;> simp [h]
  have hsus' : (s.depositCome core d).suspended d.launch core = false := by
    unfold State.depositCome; split <;> exact hsus
  show execDeposit core id s = _
  unfold execDeposit
  simp only [hfound, hbehind, Bool.false_eq_true, if_false]
  show (if (s.depositCome core d).suspended d.launch core = true then _ else _) = _
  rw [if_neg (by simp [hsus'])]
  rfl

end Deposits

/-! Invalidations. -/

/-- A state that differs from another in the instruction caches alone. -/
def State.SameButIcache (s t : State) : Prop :=
  t = { s with cores := t.cores } ∧ ∀ c, t.core c = { s.core c with icache := (t.core c).icache }

theorem State.SameButIcache.modCore {s t : State} (h : s.SameButIcache t) (c : Nat)
    (f : Dict (BitVec 128 × Nat) → Dict (BitVec 128 × Nat)) :
    s.SameButIcache (t.modCore c fun k => { k with icache := f k.icache }) := by
  obtain ⟨hstate, hcores⟩ := h
  refine ⟨?_, fun k => ?_⟩
  · conv_lhs => rw [hstate]
    rfl
  · rw [State.core_modCore]
    split
    · rw [hcores k]
    · exact hcores k

theorem State.SameButIcache.foldl {α : Type} (l : List α) (c : α → Nat)
    (f : Dict (BitVec 128 × Nat) → Dict (BitVec 128 × Nat))
    {s t : State} (h : s.SameButIcache t) :
    s.SameButIcache (l.foldl (fun s x => s.modCore (c x) fun k => { k with icache := f k.icache }) t) := by
  induction l generalizing t with
  | nil => exact h
  | cons x r ih => exact ih (h.modCore (c x) f)

/-- Whether an invalidation of a range of a tenant's addresses covers a line (R77). -/
def State.icinvHits (s : State) (tenant : Nat) (base len : Word) (line : Nat) : Bool :=
  (s.codeRanges tenant base.toNat len.toNat (len.toNat / 65536 + 2)).any fun r => r.1 < 16 * line + 16 && 16 * line < r.1 + r.2

/-- An invalidation that completes lets its warp fetch, and else touches the instruction caches alone. -/
theorem icinvCompletion_spec {s : State} {w : WarpRef} {p : Warp} {l : Launch} (hwarp : s.warp? w = some p)
    (hlaunch : s.launchOf w = some l) (hicinv : p.icinv.isSome) :
    ∃ t : State, exec (.icinvCompletion w) s = .next (t.modWarp w fun x => { x with icinv := none }) ∧ s.SameButIcache t := by
  obtain ⟨⟨scope, base, len⟩, hx⟩ := Option.isSome_iff_exists.mp hicinv
  refine ⟨_, ?_, State.SameButIcache.foldl (coresWithin w.core scope) id
    (fun d => d.filter fun e => !s.icinvHits l.tenant base len e.1) ⟨rfl, fun _ => rfl⟩⟩
  show execIcinvCompletion w s = _
  simp only [execIcinvCompletion, hwarp, hlaunch, hx]
  rfl

/-- Settles O42: each event by the lemma that says what it does. -/
theorem valueEventsComplete : Obligations.ValueEventsComplete := by
  refine ⟨fun s core id w => ?_, ?_⟩
  · exact ⟨exec_event_next rfl s, exec_event_next rfl s, exec_event_next rfl s, exec_event_next rfl s, exec_event_next rfl s,
      exec_event_next rfl s⟩
  intro s core id w p o awaited freed trapAt
  refine ⟨?_, ?_, ?_, ?_, ?_, ?_, ?_⟩
  · intro q hmem hq hone good
    rw [pendingValueArrival_of_awaited hmem hq hone, State.arriveInRun_eq]
    obtain ⟨r, -, -, rfl, -⟩ := hq
    rfl
  · intro hmem hm hnone hone
    exact pendingValueArrival_of_marked hmem hm hnone hone
  · intro q hwarp howner hfound hnodup
    refine ⟨_, _, _, sfqCompletion_of_found hwarp howner hfound, SfqOp.getLsbD_gotLanes q p.live, ?_, ?_⟩
    · exact fun e he hg hl hlane => SfqOp.get_regsAfter_of_lane hnodup he hg hl hlane
    · exact fun key h => SfqOp.get_regsAfter_other h
  · intro d hfound hturn hsus come gone
    have hexec := deposit_of_turn hfound hturn hsus
    refine ⟨fun hno => ?_, fun hslot hl hfirst => ?_⟩
    · rw [hexec]
      cases hslot : Dict.find (s.core core).warps d.slot with
      | none => rfl
      | some q => simp only [bne_iff_ne, ne_eq, hno q hslot, not_false_eq_true, if_true]; rfl
    · have hhead := State.firstArrived_depositCome hfound hfirst
      rw [hexec, hslot]
      simp only [hl, hhead, bne_self_eq_false, Bool.false_eq_true, if_false, Bool.false_or, Bool.not_eq_true']
      cases p.takesDeposit (Dict.find (s.core core).hnds d.slot) d <;> rfl
  · intro hneed
    show execAcknowledgementReturn core id s = _
    simp [execAcknowledgementReturn, hneed, freed]
  · intro x hx
    show execL1Eviction core id s = _
    simp [execL1Eviction, hx]
  · intro l hwarp hlaunch hicinv
    exact icinvCompletion_spec hwarp hlaunch hicinv

/-! ### The commit of a run (O41) -/

/-- The slots of a write-back around one of them: those after it are higher. -/
theorem wbSlots_split {wb : BitVec 16} {i : Nat} (hi : i < 16) (hwb : wb.getLsbD i = true) :
    ∃ before after, wbSlots wb = before ++ i :: after ∧ ∀ n ∈ after, n < 16 ∧ i < n ∧ wb.getLsbD n = true := by
  have hmem {n : Nat} : n ∈ wbSlots wb ↔ n < 16 ∧ wb.getLsbD n = true := by simp [wbSlots]
  obtain ⟨before, after, hsplit⟩ := List.append_of_mem (hmem.mpr ⟨hi, hwb⟩)
  have hsorted : (before ++ i :: after).Pairwise (· < ·) := hsplit ▸ List.Pairwise.filter _ List.pairwise_lt_range
  obtain ⟨-, htail, -⟩ := List.pairwise_append.mp hsorted
  refine ⟨before, after, hsplit, fun n hn => ?_⟩
  obtain ⟨hn16, hwbn⟩ := hmem.mp (show n ∈ wbSlots wb from hsplit ▸ List.mem_append_right _ (List.mem_cons_of_mem _ hn))
  exact ⟨hn16, (List.pairwise_cons.mp htail).1 n hn, hwbn⟩

/-! The write-back. -/

/-- The lanes of a slot that the write-back writes. -/
def Ctx.writtenLanes (c : Ctx) (i : Nat) : Mask := c.p.live &&& ~~~(lateLanes (settleLate c.p.live (c.r.lateFor i)))

/-- The write-back of some slots, in order. -/
def Ctx.writeSlots (c : Ctx) (slots : List Nat) (t : Tab Word) : Tab Word :=
  slots.foldl (fun t i => (c.writtenLanes i).toList.foldl
    (fun t j => Tab.set 0#64 t (32 * c.r.regOf i + j) (Tab.get 0#64 c.r.win (32 * i + j))) t) t

theorem Ctx.writeBack_eq (c : Ctx) (wb : BitVec 16) : c.writeBack wb = c.writeSlots (wbSlots wb) c.own.regs := rfl

theorem lt_of_getLsbD {m : Mask} {j : Nat} (h : m.getLsbD j = true) : j < 32 := by
  by_contra hc
  simp [BitVec.getLsbD_of_ge m j (Nat.le_of_not_lt hc)] at h

section WriteBack

variable (c : Ctx)

theorem Ctx.get_writeSlots_other {slots : List Nat} {key : Nat} (t : Tab Word)
    (h : ∀ i ∈ slots, ∀ j, (c.writtenLanes i).getLsbD j = true → key ≠ 32 * c.r.regOf i + j) :
    Tab.get 0#64 (c.writeSlots slots t) key = Tab.get 0#64 t key := by
  induction slots generalizing t with
  | nil => rfl
  | cons i r ih =>
    have hrest := ih ((c.writtenLanes i).toList.foldl
      (fun t j => Tab.set 0#64 t (32 * c.r.regOf i + j) (Tab.get 0#64 c.r.win (32 * i + j))) t)
      fun n hn => h n (List.mem_cons_of_mem _ hn)
    refine hrest.trans (Tab.get_lanes_other _ _ _ _ (fun j => Tab.get 0#64 c.r.win (32 * i + j)) fun j hj => ?_)
    exact h i (List.mem_cons_self ..) j ((Mask.mem_toList _ _).mp hj)

/-- A lane written for a slot that no later slot of its register follows holds the window's value. -/
theorem Ctx.get_writeBack_of_written {wb : BitVec 16} {i j : Nat} (hi : i < 16) (hwb : wb.getLsbD i = true)
    (hlast : ∀ n, i < n → n < 16 → wb.getLsbD n = true → c.r.regOf n ≠ c.r.regOf i)
    (hj : (c.writtenLanes i).getLsbD j = true) :
    Tab.get 0#64 (c.writeBack wb) (32 * c.r.regOf i + j) = Tab.get 0#64 c.r.win (32 * i + j) := by
  obtain ⟨before, after, hsplit, hafter⟩ := wbSlots_split hi hwb
  rw [Ctx.writeBack_eq, hsplit, Ctx.writeSlots, List.foldl_append, List.foldl_cons]
  refine (c.get_writeSlots_other _ fun n hn j' hj' hkey => ?_).trans
    (Tab.get_lanes _ _ _ _ (fun j => Tab.get 0#64 c.r.win (32 * i + j)) ((Mask.mem_toList _ _).mpr hj))
  obtain ⟨hn, hin, hwbn⟩ := hafter n hn
  have := hlast n hin hn hwbn
  have := lt_of_getLsbD hj
  have := lt_of_getLsbD hj'
  omega

/-- A lane of a register stands where no slot of the register writes it. -/
theorem Ctx.get_writeBack_other {wb : BitVec 16} {key : Nat}
    (h : ∀ i j, i < 16 → wb.getLsbD i = true → (c.writtenLanes i).getLsbD j = true → key ≠ 32 * c.r.regOf i + j) :
    Tab.get 0#64 (c.writeBack wb) key = Tab.get 0#64 c.own.regs key := by
  refine c.get_writeSlots_other _ fun i hi j hj => ?_
  obtain ⟨hi, hwb⟩ : i < 16 ∧ wb.getLsbD i = true := by simpa [wbSlots] using hi
  exact h i j hi hwb hj

theorem getLsbD_lateLanes (ls : List Late) (j : Nat) :
    (lateLanes ls).getLsbD j = true ↔ ∃ q ∈ ls, q.lanes.getLsbD j = true := by
  have hgen (m : Mask) : (ls.foldl (fun m l => m ||| l.lanes) m).getLsbD j = true ↔
      m.getLsbD j = true ∨ ∃ q ∈ ls, q.lanes.getLsbD j = true := by
    induction ls generalizing m with
    | nil => simp
    | cons l r ih => simp [ih, or_assoc]
  simpa [lateLanes] using hgen 0#32

theorem Ctx.getLsbD_writtenLanes (i j : Nat) :
    (c.writtenLanes i).getLsbD j = true ↔ c.p.live.getLsbD j = true ∧
      ¬ ∃ q ∈ settleLate c.p.live (c.r.lateFor i), q.lanes.getLsbD j = true := by
  rw [← getLsbD_lateLanes]
  simp only [Ctx.writtenLanes, BitVec.getLsbD_and, BitVec.getLsbD_not, Bool.and_eq_true]
  constructor
  · rintro ⟨hl, -, hn⟩
    exact ⟨hl, by simpa using hn⟩
  · rintro ⟨hl, hn⟩
    exact ⟨hl, decide_eq_true (lt_of_getLsbD hl), by simpa using hn⟩

end WriteBack

/-! The marks. -/

/-- What a mark of a write-back is waited for by: the result tag, or the warp's next issue. -/
def writeBackOwner (tag : Option Nat) : MarkBy := match tag with | some q => .tag q | none => .untagged

/-- The marks of a slot's awaited values. -/
def Ctx.slotMarks (c : Ctx) (tag : Option Nat) (i : Nat) : List Mark :=
  (settleLate c.p.live (c.r.lateFor i)).map fun l =>
    { reg := c.r.regOf i, owner := writeBackOwner tag, id := l.id, lanes := l.lanes, vals := l.vals, known := l.known,
      poison := l.poison }

/-- The marks after those of some slots, in order. -/
def Ctx.markSlots (c : Ctx) (tag : Option Nat) (slots : List Nat) (ms : List Mark) : List Mark :=
  slots.foldl (fun ms i => ms.filter (fun m => m.reg != c.r.regOf i) ++ c.slotMarks tag i) ms

theorem Ctx.newMarks_eq (c : Ctx) (wb : BitVec 16) (tag : Option Nat) :
    c.newMarks wb tag = c.markSlots tag (wbSlots wb) [] := rfl

section Marks

variable (c : Ctx) (tag : Option Nat)

theorem Ctx.mem_markSlots_of {slots : List Nat} {ms : List Mark} {m : Mark} (h : m ∈ c.markSlots tag slots ms) :
    m ∈ ms ∨ ∃ i ∈ slots, m ∈ c.slotMarks tag i := by
  induction slots generalizing ms with
  | nil => exact .inl h
  | cons i r ih =>
    rcases ih h with h | ⟨n, hn, hm⟩
    · rcases List.mem_append.mp h with h | h
      · exact .inl (List.mem_of_mem_filter h)
      · exact .inr ⟨i, List.mem_cons_self .., h⟩
    · exact .inr ⟨n, List.mem_cons_of_mem _ hn, hm⟩

theorem Ctx.mem_markSlots_of_kept {slots : List Nat} {ms : List Mark} {m : Mark} (h : m ∈ ms)
    (hkept : ∀ i ∈ slots, m.reg ≠ c.r.regOf i) : m ∈ c.markSlots tag slots ms := by
  induction slots generalizing ms with
  | nil => exact h
  | cons i r ih =>
    refine ih (List.mem_append_left _ (List.mem_filter.mpr ⟨h, ?_⟩)) fun n hn => hkept n (List.mem_cons_of_mem _ hn)
    simpa using hkept i (List.mem_cons_self ..)

theorem Ctx.mem_slotMarks {i : Nat} {m : Mark} (h : m ∈ c.slotMarks tag i) :
    m.reg = c.r.regOf i ∧ m.owner = writeBackOwner tag := by
  obtain ⟨l, -, rfl⟩ := List.mem_map.mp h
  exact ⟨rfl, rfl⟩

theorem Ctx.mem_newMarks {wb : BitVec 16} {m : Mark} (h : m ∈ c.newMarks wb tag) :
    (∃ i, i < 16 ∧ wb.getLsbD i = true ∧ m.reg = c.r.regOf i) ∧
      m.owner = writeBackOwner tag := by
  rcases c.mem_markSlots_of tag h with h | ⟨i, hi, hm⟩
  · cases h
  · obtain ⟨hi, hwb⟩ : i < 16 ∧ wb.getLsbD i = true := by simpa [wbSlots] using hi
    exact ⟨⟨i, hi, hwb, (c.mem_slotMarks tag hm).1⟩, (c.mem_slotMarks tag hm).2⟩

/-- An awaited lane of the last slot of its register is marked. -/
theorem Ctx.exists_newMark {wb : BitVec 16} {i j : Nat} (hi : i < 16) (hwb : wb.getLsbD i = true)
    (hlast : ∀ n, i < n → n < 16 → wb.getLsbD n = true → c.r.regOf n ≠ c.r.regOf i)
    {q : Late} (hq : q ∈ settleLate c.p.live (c.r.lateFor i)) (hj : q.lanes.getLsbD j = true) :
    ∃ m ∈ c.newMarks wb tag, m.reg = c.r.regOf i ∧ m.lanes.getLsbD j = true := by
  obtain ⟨before, after, hsplit, hafter⟩ := wbSlots_split hi hwb
  refine ⟨{ reg := c.r.regOf i, owner := writeBackOwner tag, id := q.id, lanes := q.lanes, vals := q.vals, known := q.known,
            poison := q.poison }, ?_, rfl, hj⟩
  rw [Ctx.newMarks_eq, hsplit, Ctx.markSlots, List.foldl_append, List.foldl_cons]
  refine c.mem_markSlots_of_kept tag (List.mem_append_right _ (List.mem_map.mpr ⟨q, hq, rfl⟩)) fun n hn => ?_
  obtain ⟨hn, hin, hwbn⟩ := hafter n hn
  exact (hlast n hin hn hwbn).symm

/-- A run that awaits nothing leaves no mark. -/
theorem Ctx.newMarks_of_nothing_late (wb : BitVec 16) (h : ∀ i, c.r.lateFor i = []) : c.newMarks wb tag = [] := by
  refine List.eq_nil_iff_forall_not_mem.mpr fun m hm => ?_
  rcases c.mem_markSlots_of tag hm with hm | ⟨i, -, hm⟩
  · cases hm
  · simp [Ctx.slotMarks, h, settleLate] at hm

end Marks

/-! The state after steps 1 to 3. -/

/-- What the values of reads that have arrived leave of a run as it was. -/
theorem Run.lapse_eq (r : Run) : ∃ win sets, r.lapse = { r with win := win, sets := sets, pend := r.lapse.pend } := by
  have hdeliver (l : List Pend) : ∀ r : Run, ∃ win sets, l.foldl Run.deliver r = { r with win := win, sets := sets } := by
    induction l with
    | nil => exact fun r => ⟨r.win, r.sets, rfl⟩
    | cons q l ih =>
      intro r
      obtain ⟨win, sets, h⟩ := ih (r.deliver q)
      refine ⟨win, sets, h.trans ?_⟩
      unfold Run.deliver
      split
      · split <;> rfl
      · rfl
  obtain ⟨win, sets, h⟩ := hdeliver (r.pend.filter fun q => q.arrived) r
  exact ⟨win, sets, by rw [Run.lapse, h]⟩

/-- No barrier loses its binding between two states whose core has the same barriers. -/
theorem State.barmis_of_same {s t : State} {w : WarpRef} (h : (t.core w.core).barriers = (s.core w.core).barriers) :
    s.barmis t w = t := by
  have hnone : s.unbound t w.core = [] := by
    rw [State.unbound, h]
    exact List.filter_eq_nil_iff.mpr fun n _ => by simp
  simp only [State.barmis, hnone]

/-- What a core holds beside its warps and handlers stands where a warp changes. -/
theorem State.core_modWarp_field {α : Type} (g : Core → α)
    (hg : ∀ (k : Core) ws hs, g { k with warps := ws, hnds := hs } = g k)
    (s : State) (w : WarpRef) (f : Warp → Warp) (c : Nat) : g ((s.modWarp w f).core c) = g (s.core c) := by
  unfold State.modWarp
  rw [State.core_modCore]
  split
  · unfold Core.modWarp
    split
    · exact hg _ _ _
    · exact hg _ _ _
  · rfl

theorem State.barriers_modWarp (s : State) (w : WarpRef) (f : Warp → Warp) (c : Nat) :
    ((s.modWarp w f).core c).barriers = (s.core c).barriers :=
  State.core_modWarp_field Core.barriers (fun _ _ _ => rfl) s w f c

theorem State.modWarp_id (s : State) (w : WarpRef) : s.modWarp w id = s := by
  have hdict (d : Dict Warp) (n : Nat) : Dict.change d n id = d := by
    induction d with
    | nil => rfl
    | cons e r ih =>
      by_cases h : e.1 = n
      · subst h; simp [Dict.change]
      · simp [Dict.change, h, ih]
  have hcore : (fun k : Core => k.modWarp w.slot w.hnd id) = id := by
    funext k
    cases w.hnd <;> simp [Core.modWarp, hdict]
  rw [State.modWarp, hcore]
  exact State.modCore_id s w.core

theorem ownerRef_of_ordinary {w : WarpRef} (h : w.hnd = false) : ownerRef w = w := by
  cases w; simp_all [ownerRef]

/-- Changes of one warp in order are one change of it. -/
theorem State.foldl_modWarp {α : Type} (l : List α) (f : α → Warp → Warp) (s : State) (w : WarpRef) :
    l.foldl (fun s x => s.modWarp w (f x)) s = s.modWarp w fun p => l.foldl (fun p x => f x p) p := by
  induction l generalizing s with
  | nil => exact (State.modWarp_id s w).symm
  | cons x r ih => simp only [List.foldl_cons, ih, State.modWarp_modWarp]

/-- The set registers of a warp after the staged values. -/
def stagedSets (sets : List (Nat × Word)) (k : Tab Word) : Tab Word := sets.foldl (fun t e => Tab.set 0#64 t e.1 e.2) k

theorem foldl_stagedSets (sets : List (Nat × Word)) (p : Warp) :
    sets.foldl (fun (p : Warp) e => { p with k := Tab.set 0#64 p.k e.1 e.2 }) p = { p with k := stagedSets sets p.k } := by
  induction sets generalizing p with
  | nil => rfl
  | cons e r ih => exact ih _

/-- An ordinary warp after steps 1 to 3 of a commit that stages no change but its set registers. -/
def Ctx.committed (c : Ctx) (wb : BitVec 16) (tag : Option Nat) (p : Warp) : Warp :=
  { p with
    g := p.g + c.r.claimed, regs := c.writeBack wb, k := stagedSets c.r.sets c.p.k, claim := none,
    marks := p.marks ++ c.newMarks wb tag, run := some { c.r with commit := some (wb, tag, 1), pend := [] },
    fpflags := p.fpflags ||| c.r.flags, history := lastEight (p.history ++ [c.r.mem]) }

/-- Steps 1 to 3 of the commit of an ordinary warp that stages no change but its set registers. -/
theorem State.commitState_eq {s : State} {c : Ctx} (wb : BitVec 16) (tag : Option Nat) (hwarp : s.warp? c.w = some c.p)
    (hhnd : c.w.hnd = false) (hdet : c.l.isDet = false) (heff : c.r.setEff = []) (hsrs : c.r.srs = []) :
    s.commitState c wb tag = s.modWarp c.w (c.committed wb tag) := by
  have hset : (fun (s : State) (e : Nat × Word) =>
      if e.1 = 0 then s.modWarp c.w fun p => { p with k := Tab.set 0#64 p.k 0 e.2 }
      else s.modWarp c.w fun o => { o with k := Tab.set 0#64 o.k e.1 e.2 }) =
      fun s e => s.modWarp c.w fun p => { p with k := Tab.set 0#64 p.k e.1 e.2 } := by
    funext s e
    split
    · next h => rw [h]
    · rfl
  simp only [State.commitState, hdet, Bool.false_eq_true, if_false, heff, hsrs, List.foldl_nil, hset,
    ownerRef_of_ordinary hhnd, State.barmis_of_same, State.foldl_modWarp, State.modWarp_modWarp, foldl_stagedSets]
  refine State.modWarp_congr hwarp ?_
  simp only [Ctx.committed, heff, hsrs]

/-! The course of a commit. -/

/-- The parts of a context. -/
theorem State.parts_of_ctx? {s : State} {w : WarpRef} {c : Ctx} (h : s.ctx? w = some c) :
    s.warp? w = some c.p ∧ c.p.run = some c.r ∧ s.launch? c.p.launch = some c.l ∧ s.warp? (ownerRef w) = some c.own := by
  unfold State.ctx? at h
  split at h
  · cases h
  · next p hp =>
    split at h
    · next r l o hr hl ho =>
      obtain rfl := Option.some.inj h
      exact ⟨hp, hr, hl, ho⟩
    · cases h

/-- The context of an ordinary warp that has changed. -/
def Ctx.after (c : Ctx) (p : Warp) (r : Run) : Ctx := { c with p := p, r := r, own := p }

theorem State.ctx?_modWarp {s : State} {c : Ctx} (hwarp : s.warp? c.w = some c.p) (hlaunch : s.launch? c.p.launch = some c.l)
    (hhnd : c.w.hnd = false) {f : Warp → Warp} {r : Run} (hl : (f c.p).launch = c.p.launch) (hrun : (f c.p).run = some r) :
    (s.modWarp c.w f).ctx? c.w = some (c.after (f c.p) r) := by
  have hafter : (s.modWarp c.w f).warp? c.w = some (f c.p) := by
    simp [State.warp?_modWarp s c.w c.w f (State.core_lt_of_warp? hwarp), hwarp]
  simp only [State.ctx?, hafter, hrun, hl, State.launch?_modWarp, hlaunch, ownerRef_of_ordinary hhnd]
  rfl

section CommitFrom

variable {s t : State} {c : Ctx} {wb : BitVec 16} {tag : Option Nat} {stage : Nat}
  (hctx : s.ctx? c.w = some c) (hcommit : c.r.commit = some (wb, tag, stage)) (hwait : c.r.waitId = none)
include hctx hcommit hwait

theorem State.commitFrom_of_go (hstep : s.commitStep c wb tag stage = .go t) (moved : Bool) (n : Nat) :
    s.commitFrom c.w moved (n + 1) = t.commitFrom c.w true n := by
  simp [State.commitFrom, hctx, hcommit, hwait, hstep]

theorem State.commitFrom_of_stop (hstep : s.commitStep c wb tag stage = .stop t) (moved : Bool) (n : Nat) :
    s.commitFrom c.w moved (n + 1) = t := by
  simp [State.commitFrom, hctx, hcommit, hwait, hstep]

theorem State.commitFrom_of_trap {e : Trap} (hstep : s.commitStep c wb tag stage = .trap t e) (moved : Bool) (n : Nat) :
    s.commitFrom c.w moved (n + 1) = t.takeTrap c.w e := by
  simp [State.commitFrom, hctx, hcommit, hwait, hstep]

theorem State.commitFrom_of_wait (hstep : s.commitStep c wb tag stage = .wait) (moved : Bool) (n : Nat) :
    s.commitFrom c.w moved (n + 1) = { s with stall := !moved } := by
  simp [State.commitFrom, hctx, hcommit, hwait, hstep]

end CommitFrom

theorem exec_runCommit {s : State} {c : Ctx} (hctx : s.ctx? c.w = some c) :
    exec (.runCommit c.w) s = .next (s.commitFrom c.w false (40 * c.r.held.length + 59 + 1)) := by
  show execRunCommit c.w s = _
  simp [execRunCommit, hctx]

/-- The first stage, where its checks pass and it awaits nothing. -/
theorem State.commitStep_zero {s : State} {c : Ctx} {wb : BitVec 16} {tag : Option Nat} (hfault : c.commitFault wb = none)
    (hread : c.r.awaitsRead wb tag = false) (hsweep : s.waitsForSweep c = false) :
    s.commitStep c wb tag 0 = .go (s.commitState { c with r := c.r.lapse } wb tag) := by
  simp [State.commitStep, hfault, hread, hsweep]

/-- The second stage with every held effect performed and no group to give back. -/
theorem State.commitStep_one {s : State} {c : Ctx} (wb : BitVec 16) (tag : Option Nat) (hheld : c.r.held = [])
    (hgive : c.r.give = none) :
    s.commitStep c wb tag 1 = .go (s.modRun c.w fun r => { r with commit := some (wb, tag, 2) }) := by
  simp only [State.commitStep, hheld, hgive]

/-- The last stage, once the transfer is made. -/
theorem State.commitStep_two {s u : State} {c : Ctx} (wb : BitVec 16) (tag : Option Nat) (h : s.transfer c = .done u) :
    s.commitStep c wb tag 2 = .stop ((s.barmis u c.w).endCommit c) := by
  simp only [State.commitStep, h]

theorem State.transfer_fall {s : State} {c : Ctx} (h : c.r.xfer = .fall) :
    s.transfer c = .done (s.modWarp c.w fun p => { p with pc := c.r.fall, fetched := none }) := by
  simp only [State.transfer, h]

/-- The end of a commit that stages nothing for it, of a warp that waits for nothing. -/
theorem State.endCommit_of_plain {u : State} {c : Ctx} {p : Warp} (hwarp : u.warp? c.w = some p) (hstamp : p.stamp = c.p.stamp)
    (hsoft : c.r.soft = none) (hyield : c.r.yield = false) (heff : c.r.setEff = []) (hwait : p.wait = .none) :
    u.endCommit c = u.modWarp c.w fun x => { x with
      run := none, wdog := 0, ppoint := c.r.ppoint, region := if p.live = 0#32 then none else x.region } := by
  simp only [State.endCommit, hwarp, hstamp, bne_self_eq_false, hsoft, hyield, heff, hwait, Bool.false_and, Bool.false_or,
    Bool.false_eq_true, if_false, List.foldl_nil]
  exact State.modWarp_congr hwarp rfl

/-- A run that stages and awaits nothing but its write-back. -/
structure Run.Plain (r : Run) : Prop where
  sets : r.sets = []
  setEff : r.setEff = []
  pend : r.pend = []
  held : r.held = []
  give : r.give = none
  xfer : r.xfer = .fall
  srs : r.srs = []
  yield : r.yield = false
  soft : r.soft = none
  waitId : r.waitId = none
  claim : r.res.claim = none

theorem Run.Plain.lapse {r : Run} (h : r.Plain) : r.lapse = r := by
  have hpend := h.pend
  cases r
  simp_all [Run.lapse]

theorem Run.Plain.lateFor {r : Run} (h : r.Plain) (i : Nat) : r.lateFor i = [] := by
  simp [Run.lateFor, h.pend, h.held]

/-- A warp after the end of a plain run. -/
def Ctx.ended (c : Ctx) (p : Warp) : Warp :=
  { p with
    pc := c.r.fall, fetched := none, run := none, wdog := 0, ppoint := c.r.ppoint
    region := if p.live = 0#32 then none else p.region }

section PlainRun

variable {s : State} {w : WarpRef} {c : Ctx} {wb : BitVec 16} {tag : Option Nat} (hctx : s.ctx? w = some c)
  (hplain : c.r.Plain)  (hwait : c.p.wait = .none)
include hctx hplain hwait

theorem commitFrom_two_of_plain (hcommit : c.r.commit = some (wb, tag, 2)) (moved : Bool) (n : Nat) :
    s.commitFrom w moved (n + 1) = s.modWarp w c.ended := by
  obtain rfl := State.w_of_ctx? hctx
  obtain ⟨hwarp, -, -, -⟩ := State.parts_of_ctx? hctx
  have hmoved : (s.modWarp c.w fun p => { p with pc := c.r.fall, fetched := none }).warp? c.w =
      some { c.p with pc := c.r.fall, fetched := none } := by
    simp [State.warp?_modWarp s c.w c.w _ (State.core_lt_of_warp? hwarp), hwarp]
  rw [State.commitFrom_of_stop hctx hcommit hplain.waitId (State.commitStep_two wb tag (State.transfer_fall hplain.xfer)),
    State.barmis_of_same (State.barriers_modWarp ..),
    State.endCommit_of_plain hmoved rfl hplain.soft hplain.yield hplain.setEff hwait, State.modWarp_modWarp]
  exact State.modWarp_congr hwarp rfl

variable (hhnd : w.hnd = false)
include hhnd

theorem commitFrom_one_of_plain (hcommit : c.r.commit = some (wb, tag, 1)) (moved : Bool) (n : Nat) :
    s.commitFrom w moved (n + 2) = s.modWarp w c.ended := by
  obtain rfl := State.w_of_ctx? hctx
  obtain ⟨hwarp, hrun, hlaunch, -⟩ := State.parts_of_ctx? hctx
  have hctx2 := State.ctx?_modWarp hwarp hlaunch hhnd
    (f := fun p => { p with run := p.run.map fun r => { r with commit := some (wb, tag, 2) } }) rfl (by rw [hrun]; rfl)
  rw [State.commitFrom_of_go hctx hcommit hplain.waitId (State.commitStep_one wb tag hplain.held hplain.give)]
  refine (commitFrom_two_of_plain hctx2 { hplain with } hwait rfl true n).trans ?_
  rw [State.modWarp_modWarp]
  rfl

/-- The commit of a plain run, all its stages. -/
theorem runCommit_of_plain (hdet : c.l.isDet = false) (hcommit : c.r.commit = some (wb, tag, 0))
    (hfault : c.commitFault wb = none) :
    exec (.runCommit w) s = .next (s.modWarp w fun p => { p with
      regs := c.writeBack wb, run := none, fetched := none, claim := none, pc := c.r.fall, wdog := 0, ppoint := c.r.ppoint,
      region := if p.live = 0#32 then none else p.region,
      fpflags := p.fpflags ||| c.r.flags, history := lastEight (p.history ++ [c.r.mem]) }) := by
  obtain rfl := State.w_of_ctx? hctx
  obtain ⟨hwarp, hrun, hlaunch, -⟩ := State.parts_of_ctx? hctx
  have hread : c.r.awaitsRead wb tag = false := by simp [Run.awaitsRead, hplain.pend]
  have hsweep : s.waitsForSweep c = false := by simp [State.waitsForSweep, hplain.held]
  have hstep0 := State.commitStep_zero (s := s) hfault hread hsweep
  rw [hplain.lapse, State.commitState_eq wb tag hwarp hhnd hdet hplain.setEff hplain.srs] at hstep0
  have hctx1 := State.ctx?_modWarp hwarp hlaunch hhnd (f := c.committed wb tag) rfl rfl
  rw [exec_runCommit hctx, hplain.held, State.commitFrom_of_go hctx hcommit hplain.waitId hstep0]
  refine congrArg Host.Outcome.next ((commitFrom_one_of_plain hctx1 { hplain with pend := rfl } hwait hhnd rfl true _).trans ?_)
  rw [State.modWarp_modWarp]
  refine State.modWarp_congr hwarp ?_
  simp [Ctx.ended, Ctx.committed, Ctx.after, c.newMarks_of_nothing_late tag wb hplain.lateFor, Run.claimed, hplain.claim,
    hplain.sets, stagedSets]

end PlainRun

/-! Groups given back. -/

/-- A table without the entries whose keys fail a test. -/
theorem Tab.get_filter (t : Tab Word) (keep : Nat → Bool) (key : Nat) :
    Tab.get 0#64 (t.filter fun e => keep e.1) key = if keep key then Tab.get 0#64 t key else 0#64 := by
  induction t with
  | nil => simp [Tab.get]
  | cons e r ih =>
    by_cases hk : e.1 = key
    · subst hk
      by_cases hkeep : keep e.1 = true
      · simp [hkeep, Tab.get]
      · simp [hkeep, ih]
    · by_cases hkeep : keep e.1 = true
      · simp [hkeep, Tab.get, hk, ih]
      · simp [hkeep, Tab.get, hk, ih]

/-- The warps stand where a core changes beside them. -/
theorem State.warp?_modCore_field {s : State} {f : Core → Core} (hf : ∀ k : Core, (f k).warps = k.warps ∧ (f k).hnds = k.hnds)
    (c : Nat) (w : WarpRef) : (s.modCore c f).warp? w = s.warp? w := by
  have hcore : ((s.modCore c f).core w.core).warps = (s.core w.core).warps ∧
      ((s.modCore c f).core w.core).hnds = (s.core w.core).hnds := by
    rw [State.core_modCore]
    split
    · exact hf _
    · exact ⟨rfl, rfl⟩
  simp only [State.warp?, Core.warp?, hcore]

/-- What a warp that gives groups back keeps, and what its core counts of them. -/
theorem State.giveGroups_spec {s : State} {c : Ctx} (n : Nat) (hwarp : s.warp? c.w = some c.p) (hhnd : c.w.hnd = false)
    (hown : c.own = c.p) :
    ((s.giveGroups c n).core c.w.core).returned = (s.core c.w.core).returned + n * liveSlices c.p.live ∧
      (s.giveGroups c n).warp? c.w = some ((c.p.give n).forgetAbove (c.p.g - n)) := by
  have hlt := State.core_lt_of_warp? hwarp
  have hother : c.w ≠ { c.w with hnd := true } := fun h => by simpa [hhnd] using congrArg WarpRef.hnd h
  have hret (u : State) (v : WarpRef) (f : Warp → Warp) :
      ((u.modWarp v f).core c.w.core).returned = (u.core c.w.core).returned :=
    State.core_modWarp_field Core.returned (fun _ _ _ => rfl) u v f c.w.core
  simp only [State.giveGroups, ownerRef_of_ordinary hhnd, hown]
  constructor
  · rw [State.core_modCore, if_pos ⟨rfl, by simpa [State.modWarp_cores, listChange_length] using hlt⟩]
    simp only [hret]
  · refine (State.warp?_modCore_field ?_ _ _).trans ?_
    · exact fun _ => ⟨rfl, rfl⟩
    rw [State.warp?_modWarp _ _ _ _ (by simpa [State.modWarp_cores, listChange_length] using hlt), if_neg hother,
      State.modWarp_modWarp, State.warp?_modWarp _ _ _ _ hlt, if_pos rfl, hwarp]
    rfl

theorem Warp.get_regs_give (o : Warp) (n key : Nat) :
    Tab.get 0#64 ((o.give n).forgetAbove (o.g - n)).regs key =
      if key < 256 * (o.g - n) then Tab.get 0#64 o.regs key else 0#64 := by
  refine (Tab.get_filter o.regs (fun k => k < 256 * (o.g - n)) key).trans ?_
  simp

/-! Lanes that exit. -/

/-- A core that keeps each of its warps, but for the groups to which their threads belong. -/
def Core.KeepsWarps (k k' : Core) : Prop :=
  ∀ slot p, Dict.find k.warps slot = some p → ∃ q, Dict.find k'.warps slot = some q ∧ q = { p with groups := q.groups }

theorem Core.KeepsWarps.refl {k : Core} : k.KeepsWarps k := fun _ p h => ⟨p, h, rfl⟩

theorem Core.KeepsWarps.trans {k k' k'' : Core} (h : k.KeepsWarps k') (h' : k'.KeepsWarps k'') : k.KeepsWarps k'' := by
  intro slot p hp
  obtain ⟨q, hq, hqp⟩ := h slot p hp
  obtain ⟨q', hq', hqq⟩ := h' slot q hq
  exact ⟨q', hq', by rw [hqq, hqp]⟩

/-- Warps changed in their groups alone. -/
theorem Dict.find_map_snd {α : Type} (d : Dict α) (f : α → α) (n : Nat) :
    Dict.find (d.map fun e => (e.1, f e.2)) n = (Dict.find d n).map f := by
  induction d with
  | nil => rfl
  | cons e r ih => by_cases h : e.1 = n <;> simp [Dict.find, h, ih]

theorem Core.keepsWarps_modWarp (k : Core) (slot : Nat) (f : Warp → Warp) (hf : ∀ p, f p = { p with groups := (f p).groups }) :
    k.KeepsWarps (k.modWarp slot false f) := by
  intro n p hp
  have hfind : Dict.find (k.modWarp slot false f).warps n =
      if n = slot then (Dict.find k.warps n).map f else Dict.find k.warps n :=
    Dict.find_change _ _ _ _
  rw [hfind, hp]
  split
  · exact ⟨f p, rfl, hf p⟩
  · exact ⟨p, rfl, rfl⟩

theorem Core.keepsWarps_dissolve (k : Core) (c e : Nat) : k.KeepsWarps (k.dissolve c e) := by
  unfold Core.dissolve
  split
  · exact .refl
  · intro n p hp
    refine ⟨_, (Dict.find_map_snd k.warps (fun p => { p with groups := p.groups.filter _ }) n).trans (by rw [hp]; rfl), rfl⟩

theorem Core.keepsWarps_settleBarriers (k : Core) (c e : Nat) : k.KeepsWarps (k.settleBarriers c e) := by
  unfold Core.settleBarriers
  split
  · exact .refl
  · exact fun n p hp => ⟨p, hp, rfl⟩

theorem Core.keepsWarps_leaveGroup (k : Core) (c e slot : Nat) (m : Mask) : k.KeepsWarps (k.leaveGroup c e slot m) := by
  unfold Core.leaveGroup
  split
  · exact .refl
  · next x _ =>
    have hstore (st : List SetEntry) : k.KeepsWarps { k with store := st } := fun n p hp => ⟨p, hp, rfl⟩
    have hwarps := (hstore _).trans (Core.keepsWarps_modWarp
      { k with store := listChange k.store e fun y => { y with bits := x.bits &&& ~~~(maskBits slot m) } } slot
      (fun p => { p with groups := p.groups.filter fun g => !(g.2 == groupId c e x.gen && m.getLsbD g.1) }) fun _ => rfl)
    dsimp only
    split
    · exact hwarps
    · split
      · exact hwarps.trans (Core.keepsWarps_dissolve _ c e)
      · exact hwarps.trans (Core.keepsWarps_settleBarriers _ c e)

theorem Core.keepsWarps_leaveGroups (k : Core) (c l slot : Nat) (m : Mask) : k.KeepsWarps (k.leaveGroups c l slot m) := by
  unfold Core.leaveGroups
  generalize List.range 256 = es
  induction es generalizing k with
  | nil => exact .refl
  | cons e r ih =>
    refine Core.KeepsWarps.trans ?_ (ih _)
    dsimp only
    split
    · split
      · exact Core.keepsWarps_leaveGroup k c e slot m
      · exact .refl
    · exact .refl

/-- A warp without some of its lanes. -/
def Warp.without (slot : Nat) (m : Mask) (p : Warp) : Warp :=
  { p with
    live := p.live &&& ~~~m, region := if p.live &&& ~~~m = 0#32 then none else p.region
    k := Tab.set 0#64 p.k 0 (localValue slot ((Tab.get 0#64 p.k 0).setWidth 32 &&& p.live &&& ~~~m)) }

/-- Only live lanes exit. -/
theorem Warp.without_live (slot : Nat) (m : Mask) (p : Warp) : p.without slot (m &&& p.live) = p.without slot m := by
  have hlive : p.live &&& ~~~(m &&& p.live) = p.live &&& ~~~m := by
    ext i hi
    simp only [BitVec.getElem_and, BitVec.getElem_not]
    cases p.live[i] <;> simp
  simp only [Warp.without, BitVec.and_assoc, hlive]

section ExitLanes

variable {u : State} {w : WarpRef} {p : Warp} (hwarp : u.warp? w = some p) (m : Mask)
include hwarp

theorem State.exitLanes_apply (hkind : ∃ n src, p.kind = .apply n src) :
    u.exitLanes w m = u.modWarp w fun _ => p.without w.slot m := by
  obtain ⟨n, src, hkind⟩ := hkind
  simp only [State.exitLanes, hwarp, hkind]
  exact State.modWarp_congr hwarp (p.without_live w.slot m)

variable (hkind : p.kind = .ordinary)
include hkind

/-- The exit of lanes of an ordinary warp: its lanes, its groups, the launch's count, and the device barriers. -/
theorem State.exitLanes_ordinary : ∃ d : Device → Device,
    u.exitLanes w m = ((((u.modWarp w fun _ => p.without w.slot m).modCore w.core fun k =>
      k.leaveGroups w.core p.launch w.slot (m &&& p.live)).modLaunch p.launch fun l =>
        { l with exited := l.exited + countLanes (m &&& p.live) }).modDev d) := by
  have hmod : (u.modWarp w fun x => x.without w.slot (m &&& p.live)) = u.modWarp w fun _ => p.without w.slot m :=
    State.modWarp_congr hwarp (p.without_live w.slot m)
  rw [← hmod]
  simp only [State.exitLanes, hwarp, hkind]
  exact ⟨_, rfl⟩

/-- The warp and the launch after the exit. -/
theorem State.exitLanes_ordinary_spec (hhnd : w.hnd = false) :
    (∃ q : Warp, (u.exitLanes w m).warp? w = some q ∧ q = { p.without w.slot m with groups := q.groups }) ∧
      (u.exitLanes w m).launch? p.launch =
        (u.launch? p.launch).map fun l => { l with exited := l.exited + countLanes (m &&& p.live) } := by
  obtain ⟨d, hexit⟩ := State.exitLanes_ordinary hwarp m hkind
  have hlt := State.core_lt_of_warp? hwarp
  rw [hexit]
  constructor
  · show ∃ q, ((u.modWarp w _).modCore w.core _).warp? w = some q ∧ _
    have hfind : Dict.find (((u.modWarp w fun _ => p.without w.slot m).core w.core).warps) w.slot =
        some (p.without w.slot m) := by
      have hself : (u.modWarp w fun _ => p.without w.slot m).warp? w = some (p.without w.slot m) := by
        simp [State.warp?_modWarp u w w _ hlt, hwarp]
      simpa [State.warp?, Core.warp?, hhnd] using hself
    obtain ⟨q, hq, hqp⟩ := Core.keepsWarps_leaveGroups _ w.core p.launch w.slot (m &&& p.live) _ _ hfind
    refine ⟨q, ?_, hqp⟩
    simp only [State.warp?, Core.warp?, hhnd, Bool.false_eq_true, if_false]
    rw [State.core_modCore, if_pos ⟨rfl, by simpa [State.modWarp_cores, listChange_length] using hlt⟩]
    exact hq
  · exact (State.launch?_modLaunch _ p.launch p.launch _).trans (if_pos rfl)

end ExitLanes

/-! Blocks entered and left. -/

/-- A warp that goes on at an address, ready from the cycle it does so where it has left the active set. -/
def Warp.goOn (pc : Word) (cyc : Nat) (p : Warp) : Warp :=
  { p with
    region := p.region.map fun r => (r.1 <|> some pc, r.2), pc := pc, fetched := none, wait := .none
    readyAt := if p.sched = .active then none else some cyc }

/-- A warp that changes and then goes on elsewhere. -/
theorem State.continueAt_modWarp (s : State) (w : WarpRef) (f : Warp → Warp) (pc : Word) :
    (s.modWarp w f).continueAt w pc = s.modWarp w fun p => (f p).goOn pc (s.core w.core).cyc.toNat := by
  have hcyc : ((s.modWarp w f).core w.core).cyc = (s.core w.core).cyc :=
    State.core_modWarp_field Core.cyc (fun _ _ _ => rfl) s w f w.core
  simp only [State.continueAt, hcyc, State.modWarp_modWarp, beq_iff_eq]
  rfl

section Transfers

variable {s : State} {c : Ctx} (hout : s.depositOut c.w = false) (hwarp : s.warp? c.w = some c.p)
include hout hwarp

/-- The block of an `apply.s` whose value lies in one slot. -/
theorem State.transfer_apply {v : Word} {b0 b1 : Nat} {block cont : Word} {ms : Members}
    (hxfer : c.r.xfer = .apply v false b0 b1 block cont ms) (hone : ms.slots.length = 1) :
    s.transfer c = .done (s.modWarp c.w fun p => Warp.goOn block (s.core c.w.core).cyc.toNat { p with
      applies := p.applies ++ [{ cont := cont, k0 := Tab.get 0#64 p.k 0, session := none, argk := none }]
      k := Tab.set 0#64 p.k 0 (localValue c.w.slot (ms.lanesIn c.w.core c.w.slot &&& p.live)) }) := by
  simp only [State.transfer, hxfer, hout, Bool.false_eq_true, if_false, State.commitApply, hwarp, hone, decide_true,
    Bool.not_false, Bool.and_self, if_true, State.enterBlock, State.continueAt_modWarp]

/-- The end of a block that no session and no ARGK launch opened. -/
theorem State.transfer_enda {a : OpenApply} (hxfer : c.r.xfer = .enda) (hlast : c.p.applies.getLast? = some a)
    (hsession : a.session = none) (hargk : a.argk = none) :
    s.transfer c = .done (s.modWarp c.w fun p => Warp.goOn a.cont (s.core c.w.core).cyc.toNat { p with
      applies := p.applies.dropLast
      k := Tab.set 0#64 p.k 0 (localValue c.w.slot (a.k0.setWidth 32 &&& p.live)) }) := by
  simp only [State.transfer, hxfer, hout, Bool.false_eq_true, if_false, State.commitEnda, hwarp, hlast, hsession, hargk,
    State.continueAt_modWarp]

end Transfers

/-! One held effect. -/

section HeldStep

variable {s : State} {c : Ctx} (rest : List Held)

theorem State.heldStep_bind (add : Bool) (base len g : Word) :
    s.heldStep c (.bind add base len g) rest = .done ((s.modLaunch c.p.launch fun l => { l with
      binds := if add then (if (base, len, g) ∈ l.binds then l.binds else l.binds ++ [(base, len, g)])
        else l.binds.filter fun b => b ≠ (base, len, g) }).setHeld c.w rest) := by
  simp only [State.heldStep, Held.isSync, Held.isFlush, Bool.false_and, Bool.or_self, Bool.false_eq_true, if_false]
  cases add
  · simp only [Bool.not_false, if_true, Bool.false_eq_true, if_false, bne, beq_eq_decide, ne_eq, decide_not]
  · simp only [Bool.not_true, Bool.false_eq_true, if_false, if_true, List.contains_iff_mem]

variable (hout : s.depositOut c.w = false)
include hout

/-- A home access goes to its home, and the commit waits for it, where its entry is taken and it may arrive. -/
theorem State.heldStep_home {id : Nat} {d : BitVec 5} {m : Mask} {a : HomeAcc} {hs : List HomeAcc}
    (harrives : s.accessArrives a.sector = true) (hreq : (s.core c.w.core).reqs.any (fun q => q.id == id) = true) :
    s.heldStep c (.home id d m (a :: hs)) rest = .sent (s.sendAccess c id m a) := by
  simp [State.heldStep, hout, Held.isFlush, State.sendFirst, harrives, hreq]

theorem State.heldStep_fence (scope : Nat) :
    s.heldStep c (.fence scope) rest = .done ((if 3 ≤ scope then s.writeBackAll c.w.core else s).setHeld c.w rest) := by
  simp [State.heldStep, hout, Held.isFlush]

/-- A deposit sent takes an entry of its target core. -/
theorem State.heldStep_rwr {target slot ctr reg : Nat} {vals : List (Nat × Word)}
    (hroom : (s.core target).deposits.length < 64) :
    s.heldStep c (.rwr target slot ctr reg vals) rest = .done (((s.freshId target).2.modCore target fun k => { k with
      deposits := k.deposits ++ [{ id := (s.freshId target).1, launch := c.p.launch, slot := slot, ctr := ctr, reg := reg,
                                   vals := vals, sender := (c.w.core, sessionKey c.w), arrived := false,
                                   heard := c.l.heardBy (vals.map fun e => c.thread e.1) }] }).setHeld c.w rest) := by
  simp [State.heldStep, hout, Held.isFlush, Nat.not_le.mpr hroom]

end HeldStep

/-! Staged changes. -/

/-- A group that is gone is not changed. -/
theorem State.commitEff_group_none {s : State} {c : Ctx} {g : BitVec 24} (m : Mask)
    (h : (s.core c.w.core).group? c.w.core c.p.launch g = none) :
    s.commitEff c (.join g m) = s ∧ s.commitEff c (.leave g m) = s ∧ s.commitEff c (.dissolve g) = s := by
  simp only [State.commitEff, h, and_self]

/-- A group of the core is joined, left or dissolved. -/
theorem State.commitEff_group_some {s : State} {c : Ctx} {g : BitVec 24} {e : Nat} (m : Mask)
    (h : (s.core c.w.core).group? c.w.core c.p.launch g = some e) :
    (s.commitEff c (.join g m) = s.modCore c.w.core fun k => k.joinGroup c.w.core e c.w.slot m) ∧
      (s.commitEff c (.leave g m) = s.modCore c.w.core fun k => k.leaveGroup c.w.core e c.w.slot m) ∧
      (s.commitEff c (.dissolve g) = s.modCore c.w.core fun k => k.dissolve c.w.core e) := by
  simp only [State.commitEff, h, and_self]

/-! What the parts of O41 say. -/

theorem Run.regOf_lapse (r : Run) : r.lapse.regOf = r.regOf := by
  obtain ⟨win, sets, h⟩ := r.lapse_eq
  funext i
  rw [h]; rfl

theorem Run.claimed_lapse (r : Run) : r.lapse.claimed = r.claimed := by
  obtain ⟨win, sets, h⟩ := r.lapse_eq
  rw [h]; rfl

/-- The write-back of steps 1 to 3. -/
theorem commitStep_zero_spec {s : State} {c : Ctx} {wb : BitVec 16} {tag : Option Nat} (hwarp : s.warp? c.w = some c.p)
    (hhnd : c.w.hnd = false) (hdet : c.l.isDet = false) (heff : c.r.setEff = []) (hsrs : c.r.srs = [])
    (hfault : c.commitFault wb = none) (hread : c.r.awaitsRead wb tag = false) (hsweep : s.waitsForSweep c = false) :
    s.commitStep c wb tag 0 = .go (s.modWarp c.w (Ctx.committed { c with r := c.r.lapse } wb tag)) := by
  obtain ⟨win, sets, hlapse⟩ := c.r.lapse_eq
  rw [State.commitStep_zero hfault hread hsweep]
  refine congrArg CommitStep.go (State.commitState_eq (c := { c with r := c.r.lapse }) wb tag hwarp hhnd hdet ?_ ?_)
  · rw [hlapse]; exact heff
  · rw [hlapse]; exact hsrs

/-- The set registers after the commit. -/
theorem get_stagedSets_mem {sets : List (Nat × Word)} {e : Nat × Word} (k : Tab Word) (he : e ∈ sets)
    (hone : ∀ e' ∈ sets, e'.1 = e.1 → e' = e) : Tab.get 0#64 (stagedSets sets k) e.1 = e.2 :=
  Tab.get_foldl_set_mem sets Prod.fst Prod.snd k he fun y hy hkey => congrArg Prod.snd (hone y hy hkey)

theorem get_stagedSets_other {sets : List (Nat × Word)} {n : Nat} (k : Tab Word) (hn : ∀ e ∈ sets, e.1 ≠ n) :
    Tab.get 0#64 (stagedSets sets k) n = Tab.get 0#64 k n :=
  Tab.get_foldl_set_other sets Prod.fst Prod.snd k hn

/-- A lane that a slot of one register awaits keeps what the register held. -/
theorem Ctx.get_writeBack_of_late (c : Ctx) {wb : BitVec 16} {i j : Nat}
    (hone : ∀ n, n < 16 → n ≠ i → wb.getLsbD n = true → c.r.regOf n ≠ c.r.regOf i) (hlive : c.p.live.getLsbD j = true)
    (hlate : ∃ q ∈ settleLate c.p.live (c.r.lateFor i), q.lanes.getLsbD j = true) :
    Tab.get 0#64 (c.writeBack wb) (32 * c.r.regOf i + j) = Tab.get 0#64 c.own.regs (32 * c.r.regOf i + j) := by
  refine c.get_writeBack_other fun n j' hn hwb hj' hkey => ?_
  have hj := lt_of_getLsbD hlive
  have hj'' := lt_of_getLsbD hj'
  by_cases hni : n = i
  · subst hni
    obtain rfl : j = j' := by omega
    exact ((c.getLsbD_writtenLanes n j).mp hj').2 hlate
  · have := hone n hn hni hwb
    omega

/-- A slot of a register of its own: what it awaits is marked and keeps what the register held, and else the window stands. -/
theorem Ctx.writeBack_spec (c : Ctx) (tag : Option Nat) {wb : BitVec 16} {i j : Nat} (hi : i < 16) (hwb : wb.getLsbD i = true)
    (hone : ∀ n, n < 16 → n ≠ i → wb.getLsbD n = true → c.r.regOf n ≠ c.r.regOf i) (hlive : c.p.live.getLsbD j = true) :
    ((∃ q ∈ settleLate c.p.live (c.r.lateFor i), q.lanes.getLsbD j = true) →
      (∃ m ∈ c.newMarks wb tag, m.reg = c.r.regOf i ∧ m.lanes.getLsbD j = true) ∧
        Tab.get 0#64 (c.writeBack wb) (32 * c.r.regOf i + j) = Tab.get 0#64 c.own.regs (32 * c.r.regOf i + j)) ∧
    ((∀ q ∈ settleLate c.p.live (c.r.lateFor i), q.lanes.getLsbD j = false) →
      Tab.get 0#64 (c.writeBack wb) (32 * c.r.regOf i + j) = Tab.get 0#64 c.r.win (32 * i + j)) := by
  have hlast (n : Nat) (hin : i < n) (hn : n < 16) := hone n hn (Nat.ne_of_gt hin)
  refine ⟨fun hlate => ?_, fun hnone => ?_⟩
  · obtain ⟨q, hq, hj⟩ := hlate
    exact ⟨c.exists_newMark tag hi hwb hlast hq hj, c.get_writeBack_of_late hone hlive ⟨q, hq, hj⟩⟩
  · refine c.get_writeBack_of_written hi hwb hlast ((c.getLsbD_writtenLanes i j).mpr ⟨hlive, ?_⟩)
    rintro ⟨q, hq, hj⟩
    rw [hnone q hq] at hj
    cases hj

/-- The whole commit of a plain run. -/
theorem runCommit_plain_spec (s : State) (c : Ctx) (wb : BitVec 16) (tag : Option Nat) (hctx : s.ctx? c.w = some c)
    (hhnd : c.w.hnd = false) (hdet : c.l.isDet = false) (hplain : c.r.Plain) (hcommit : c.r.commit = some (wb, tag, 0))
    (hwait : c.p.wait = .none) (hfault : c.commitFault wb = none) :
    ∃ regs : Tab Word,
      exec (.runCommit c.w) s = .next (s.modWarp c.w fun p => { p with
        regs := regs, run := none, fetched := none, claim := none, pc := c.r.fall, wdog := 0, ppoint := c.r.ppoint,
        region := if p.live = 0#32 then none else p.region,
        fpflags := p.fpflags ||| c.r.flags, history := lastEight (p.history ++ [c.r.mem]) }) ∧
      (∀ i j, i < 16 → wb.getLsbD i = true → c.p.live.getLsbD j = true →
        (∀ n, i < n → n < 16 → wb.getLsbD n = true → c.r.regOf n ≠ c.r.regOf i) →
        Tab.get 0#64 regs (32 * c.r.regOf i + j) = Tab.get 0#64 c.r.win (32 * i + j)) ∧
      (∀ key, (∀ i j, i < 16 → wb.getLsbD i = true → c.p.live.getLsbD j = true → key ≠ 32 * c.r.regOf i + j) →
        Tab.get 0#64 regs key = Tab.get 0#64 c.p.regs key) := by
  obtain ⟨hwarp, -, -, howner⟩ := State.parts_of_ctx? hctx
  have hown : c.own = c.p := by
    rw [ownerRef_of_ordinary hhnd, hwarp] at howner
    exact (Option.some.inj howner).symm
  have hwritten (i j : Nat) : (c.writtenLanes i).getLsbD j = true ↔ c.p.live.getLsbD j = true := by
    rw [c.getLsbD_writtenLanes]
    simp [hplain.lateFor, settleLate]
  refine ⟨_, runCommit_of_plain hctx hplain hwait hhnd hdet hcommit hfault, ?_, ?_⟩
  · exact fun i j hi hwb hj hlast => c.get_writeBack_of_written hi hwb hlast ((hwritten i j).mpr hj)
  · intro key hkey
    rw [← hown]
    exact c.get_writeBack_other fun i j hi hwb hj => hkey i j hi hwb ((hwritten i j).mp hj)

/-- Groups given back at step 5. -/
theorem commitStep_one_give {s : State} {c : Ctx} (wb : BitVec 16) (tag : Option Nat) {n : Nat} (hheld : c.r.held = [])
    (hgive : c.r.give = some n) (hhnd : c.w.hnd = false) (hwarp : s.warp? c.w = some c.p) (hown : c.own = c.p) :
    ∃ t, s.commitStep c wb tag 1 = .go t ∧ (t.core c.w.core).returned = (s.core c.w.core).returned + n * liveSlices c.p.live ∧
      ∃ q : Warp, t.warp? c.w = some q ∧ q.g = c.p.g - n ∧
        (∀ key, Tab.get 0#64 q.regs key = if key < 256 * (c.p.g - n) then Tab.get 0#64 c.p.regs key else 0#64) := by
  obtain ⟨hreturned, hafter⟩ := State.giveGroups_spec n hwarp hhnd hown
  refine ⟨(s.giveGroups c n).modRun c.w fun r => { r with commit := some (wb, tag, 2) }, ?_, ?_, ?_⟩
  · simp only [State.commitStep, hheld, hgive]
  · exact (State.core_modWarp_field Core.returned (fun _ _ _ => rfl) _ _ _ _).trans hreturned
  · have hrun := State.warp?_modWarp _ c.w c.w
      (fun p => { p with run := p.run.map fun r => { r with commit := some (wb, tag, 2) } })
      (State.core_lt_of_warp? hafter)
    rw [if_pos rfl, hafter] at hrun
    exact ⟨_, hrun, rfl, Warp.get_regs_give c.p n⟩

/-- Settles O41, part by part: the whole commit of a plain run, the course of the stages, and what each stage does. -/
theorem runCommitWritesBack : Obligations.RunCommitWritesBack := by
  refine ⟨?_, ?_, ?_, ?_, ?_, ?_, ?_⟩
  · intro s c wb tag hctx hhnd hdet hr hclaim hwait hfault
    have hplain : c.r.Plain := by
      constructor
      case claim => exact hclaim
      all_goals rw [hr]
    exact runCommit_plain_spec s c wb tag hctx hhnd hdet hplain (by rw [hr]) hwait hfault
  · intro s t c wb tag n e hctx hcommit hwait
    rw [exec_runCommit hctx]
    refine ⟨fun h => ?_, fun h => ?_, fun h => ?_, fun h => ?_⟩
    · rw [State.commitFrom_of_go hctx hcommit hwait h]
    · rw [State.commitFrom_of_stop hctx hcommit hwait h]
    · rw [State.commitFrom_of_trap hctx hcommit hwait h]
    · rw [State.commitFrom_of_wait hctx hcommit hwait h]; rfl
  · intro s c wb tag hwarp hhnd hown hdet heff hsrs hfault hread hsweep r
    let c' : Ctx := { c with r := r }
    have hregs : c'.r.regOf = c.r.regOf := c.r.regOf_lapse
    refine ⟨c'.writeBack wb, stagedSets r.sets c.p.k, c'.newMarks wb tag, ?_, fun e he hone => get_stagedSets_mem _ he hone,
      fun n hn => get_stagedSets_other _ hn, fun m hm => ?_, fun i j hi hwb hone hlive => ?_⟩
    · rw [commitStep_zero_spec hwarp hhnd hdet heff hsrs hfault hread hsweep]
      refine congrArg CommitStep.go (State.modWarp_congr hwarp ?_)
      simp only [Ctx.committed, c.r.claimed_lapse]
      rfl
    · have hmark := c'.mem_newMarks tag hm
      rw [hregs] at hmark
      exact hmark
    · have hslot := c'.writeBack_spec tag hi hwb (by rw [hregs]; exact hone) hlive
      rw [hregs, show c'.own = c.p from hown] at hslot
      exact hslot
  · intro s c v n g m bits core store
    refine ⟨rfl, rfl, rfl, rfl, rfl, rfl, fun _ _ => rfl, fun _ => rfl, ?_, State.commitEff_group_none m⟩
    exact fun e he => State.commitEff_group_some m he
  · intro s c wb tag h rest t
    refine ⟨fun hheld => ?_, fun hout => ⟨?_, ?_, ?_⟩, State.heldStep_bind rest⟩
    · refine ⟨fun h => ?_, fun h => ?_, fun h => ?_⟩ <;> simp only [State.commitStep, hheld, h]
    · exact fun _ _ _ _ _ harrives hreq => State.heldStep_home rest hout harrives hreq
    · exact State.heldStep_fence rest hout
    · exact fun _ _ _ _ _ hroom => State.heldStep_rwr rest hout hroom
  · intro s c wb tag n hheld hgive hhnd _ hwarp hown
    exact commitStep_one_give wb tag hheld hgive hhnd hwarp hown
  · intro s c wb tag ends k0
    have ends_of {u : State} (h : s.transfer c = .done u) : ends u := State.commitStep_two wb tag h
    refine ⟨fun h => ends_of (State.transfer_fall h), fun a h => ends_of ?_, fun m h => ⟨ends_of ?_, fun p hp => ⟨?_, ?_⟩⟩,
      ?_, ?_, fun e u h hdone => ends_of ?_, ?_⟩
    · simp only [State.transfer, h]
    · simp only [State.transfer, h]
    · exact fun hkind => (State.exitLanes_apply hp m hkind).trans (State.modWarp_congr hp rfl)
    · intro hkind hhnd
      obtain ⟨⟨q, hq, hqp⟩, hlaunch⟩ := State.exitLanes_ordinary_spec hp m hkind hhnd
      refine ⟨⟨q, hq, ?_⟩, fun l hl => ⟨_, ?_, rfl⟩⟩
      · rw [hqp]
        exact ⟨rfl, rfl, rfl, rfl, rfl⟩
      · rw [hlaunch, hl, Option.map_some]
    · intro v b0 b1 block cont ms hxfer hout hone hwarp
      exact ends_of (State.transfer_apply hout hwarp hxfer hone)
    · intro a hxfer hout hwarp hlast hsession hargk
      exact ends_of (State.transfer_enda hout hwarp hxfer hlast hsession hargk)
    · simp only [State.transfer, h, hdone]
    · intro u p hwarp hstamp hsoft hyield heff _ hwait
      exact State.endCommit_of_plain hwarp hstamp hsoft hyield heff hwait

end Sys2Proof.Machine

/-! PROOFS. Every step keeps the memories canonical (O59): what a function of the model that returns a state does to the
canonical form of home memory, host memory and near slices, one lemma a function, in the order of the model. -/

namespace Sys2Proof.Machine

/-! ### Small changes of the state -/

theorem State.memoriesWf_mk {s : State} {dies : List Die} {tenants : List Tenant} {launches : Dict Launch} {dev : Device}
    {agenda : List Act} {oracle : Nat} {focus : Option WarpRef} {stall : Bool} {chain : Option WarpRef}
    {marks : List SyncMark} {posted : Dict (List Nat)} :
    (State.mk s.mem s.cores dies tenants launches dev agenda oracle focus stall chain marks posted).memoriesWf =
      s.memoriesWf :=
  rfl

theorem State.memoriesWf_modTenant {s : State} (h : s.memoriesWf = true) (t : Nat) (f : Tenant → Tenant) :
    (s.modTenant t f).memoriesWf = true :=
  h
theorem State.memoriesWf_modDie {s : State} (h : s.memoriesWf = true) (t : Nat) (f : Die → Die) :
    (s.modDie t f).memoriesWf = true :=
  h
theorem State.memoriesWf_modDev {s : State} (h : s.memoriesWf = true) (f : Device → Device) :
    (s.modDev f).memoriesWf = true :=
  h
theorem State.memoriesWf_modLaunch {s : State} (h : s.memoriesWf = true) (l : Nat) (f : Launch → Launch) :
    (s.modLaunch l f).memoriesWf = true :=
  h

/-! ### Changes of a core that leave its near slices -/

theorem Core.near_foldl {α : Type} (l : List α) (f : Core → α → Core) (hf : ∀ k x, (f k x).near = k.near) (k : Core) :
    (l.foldl f k).near = k.near := by
  induction l generalizing k with
  | nil => rfl
  | cons x r ih => rw [List.foldl_cons, ih, hf]

@[simp] theorem Core.near_modWarp (k : Core) (slot : Nat) (hnd : Bool) (f : Warp → Warp) :
    (k.modWarp slot hnd f).near = k.near := by
  unfold Core.modWarp; split <;> rfl

@[simp] theorem Core.near_seenFor (k : Core) (own : List Nat) (v : Word) : (k.seenFor own v).near = k.near := by
  unfold Core.seenFor; split <;> rfl

@[simp] theorem Core.near_asSeen (k : Core) : k.asSeen.near = k.near := rfl
@[simp] theorem Core.near_keepSeen (k : Core) : k.keepSeen.near = k.near := rfl

@[simp] theorem Core.near_settleBarriers (k : Core) (c e : Nat) : (k.settleBarriers c e).near = k.near := by
  unfold Core.settleBarriers; split <;> rfl

@[simp] theorem Core.near_settleAll (k : Core) (c : Nat) : (k.settleAll c).near = k.near :=
  Core.near_foldl _ _ (fun k e => by grind [Core.near_settleBarriers]) k

@[simp] theorem Core.near_freeStore (k : Core) (e : Nat) : (k.freeStore e).near = k.near := rfl

@[simp] theorem Core.near_dissolve (k : Core) (c e : Nat) : (k.dissolve c e).near = k.near := by
  unfold Core.dissolve; split <;> rfl

@[simp] theorem Core.near_joinGroup (k : Core) (c e slot : Nat) (m : Mask) : (k.joinGroup c e slot m).near = k.near := by
  unfold Core.joinGroup; split <;> simp

@[simp] theorem Core.near_leaveGroup (k : Core) (c e slot : Nat) (m : Mask) : (k.leaveGroup c e slot m).near = k.near := by
  unfold Core.leaveGroup
  grind [Core.near_modWarp, Core.near_dissolve, Core.near_settleBarriers]

@[simp] theorem Core.near_leaveGroups (k : Core) (c l slot : Nat) (m : Mask) : (k.leaveGroups c l slot m).near = k.near :=
  Core.near_foldl _ _ (fun k e => by grind [Core.near_leaveGroup]) k

@[simp] theorem Core.near_freeSlotOf (k : Core) (slot : Nat) : (k.freeSlotOf slot).near = k.near := rfl
@[simp] theorem Core.near_dropReads (k : Core) (base len : Nat) : (k.dropReads base len).near = k.near := rfl
@[simp] theorem Core.near_freeReqs (k : Core) (id : Nat) : (k.freeReqs id).near = k.near := rfl
@[simp] theorem Core.near_depositArrives (k : Core) (d : Deposit) : (k.depositArrives d).near = k.near := rfl
@[simp] theorem Core.near_giveUp (k : Core) (id : Nat) : (k.giveUp id).near = k.near := rfl
@[simp] theorem Core.near_dropPreempt (k : Core) (l : Nat) : (k.dropPreempt l).near = k.near := rfl

@[simp] theorem Core.near_freeLaunch (k : Core) (c l : Nat) : (k.freeLaunch c l).near = k.near :=
  Core.near_foldl _ _ (fun k e => by grind [Core.near_dissolve, Core.near_freeStore]) k

@[simp] theorem Core.near_dropLaunch (k : Core) (c l : Nat) : (k.dropLaunch c l).near = k.near := by
  unfold Core.dropLaunch
  dsimp only
  rw [Core.near_freeLaunch]
  refine Core.near_foldl _ _ (fun k e => ?_) k
  rw [Core.near_freeSlotOf]

/-! ### Results that carry a state

A result keeps the memories canonical where the state it carries has them so; `wait` and `stall` carry none. -/

/-- The state that the result of an instruction issued carries has its memories canonical. -/
def Issue.MemoriesWf : Issue → Prop
  | .go s _ => s.memoriesWf = true
  | .trap s _ => s.memoriesWf = true
  | .stall => True
  | .raised s => s.memoriesWf = true

/-- The state that the result of a decision carries has its memories canonical. -/
def Decided.MemoriesWf : Decided → Prop
  | .made s => s.memoriesWf = true
  | .wait => True
  | .raised s => s.memoriesWf = true

/-- The state that the result of a change applied carries has its memories canonical. -/
def Applied.MemoriesWf : Applied → Prop
  | .done s => s.memoriesWf = true
  | .wait => True
  | .raised s => s.memoriesWf = true

/-- The state that the result of an access performed carries has its memories canonical. -/
def Performed.MemoriesWf : Performed → Prop
  | .done _ _ s => s.memoriesWf = true
  | .wait => True
  | .raised s => s.memoriesWf = true

/-- The state that the result of a held effect performed carries has its memories canonical. -/
def HeldStep.MemoriesWf : HeldStep → Prop
  | .done s => s.memoriesWf = true
  | .sent s => s.memoriesWf = true
  | .wait => True

/-- The state that the result of a stage of a commit carries has its memories canonical. -/
def CommitStep.MemoriesWf : CommitStep → Prop
  | .go s => s.memoriesWf = true
  | .stop s => s.memoriesWf = true
  | .wait => True
  | .trap s _ => s.memoriesWf = true

theorem Decided.memoriesWf_made {d : Decided} {s : State} (h : d.MemoriesWf) (e : d = .made s) : s.memoriesWf = true := by
  subst e; exact h

theorem Decided.memoriesWf_raised {d : Decided} {s : State} (h : d.MemoriesWf) (e : d = .raised s) :
    s.memoriesWf = true := by
  subst e; exact h

theorem Applied.memoriesWf_done {d : Applied} {s : State} (h : d.MemoriesWf) (e : d = .done s) : s.memoriesWf = true := by
  subst e; exact h

theorem Applied.memoriesWf_raised {d : Applied} {s : State} (h : d.MemoriesWf) (e : d = .raised s) :
    s.memoriesWf = true := by
  subst e; exact h

theorem Performed.memoriesWf_done {d : Performed} {v : Word} {fl : BitVec 5} {s : State} (h : d.MemoriesWf)
    (e : d = .done v fl s) : s.memoriesWf = true := by
  subst e; exact h

theorem Performed.memoriesWf_raised {d : Performed} {s : State} (h : d.MemoriesWf) (e : d = .raised s) :
    s.memoriesWf = true := by
  subst e; exact h

theorem HeldStep.memoriesWf_done {d : HeldStep} {s : State} (h : d.MemoriesWf) (e : d = .done s) : s.memoriesWf = true := by
  subst e; exact h

theorem HeldStep.memoriesWf_sent {d : HeldStep} {s : State} (h : d.MemoriesWf) (e : d = .sent s) : s.memoriesWf = true := by
  subst e; exact h

theorem Issue.memoriesWf_go {d : Issue} {r : Run} {s : State} (h : d.MemoriesWf) (e : d = .go s r) :
    s.memoriesWf = true := by
  subst e; exact h

theorem Issue.memoriesWf_trap {d : Issue} {r : Trap} {s : State} (h : d.MemoriesWf) (e : d = .trap s r) :
    s.memoriesWf = true := by
  subst e; exact h

theorem Issue.memoriesWf_raised {d : Issue} {s : State} (h : d.MemoriesWf) (e : d = .raised s) : s.memoriesWf = true := by
  subst e; exact h

theorem CommitStep.memoriesWf_go {d : CommitStep} {s : State} (h : d.MemoriesWf) (e : d = .go s) : s.memoriesWf = true := by
  subst e; exact h

theorem CommitStep.memoriesWf_stop {d : CommitStep} {s : State} (h : d.MemoriesWf) (e : d = .stop s) :
    s.memoriesWf = true := by
  subst e; exact h

theorem CommitStep.memoriesWf_trap {d : CommitStep} {s : State} {t : Trap} (h : d.MemoriesWf) (e : d = .trap s t) :
    s.memoriesWf = true := by
  subst e; exact h

/-! ### Rules for folds, tables and lists of cores -/

/-- What changes the record of the order of events alone leaves the memories as they are. -/
theorem State.Ordered.memoriesWf {s t : State} (o : s.Ordered t) (h : s.memoriesWf = true) : t.memoriesWf = true := by
  obtain ⟨_, _, _, rfl⟩ := o; exact h

theorem State.memoriesWf_freshId_snd {s : State} (h : s.memoriesWf = true) (c : Nat) : (s.freshId c).2.memoriesWf = true :=
  State.memoriesWf_modCore h c _ fun _ hk => hk

theorem State.memoriesWf_sendPacket {s : State} (h : s.memoriesWf = true) (node : Nat) :
    (s.sendPacket node).memoriesWf = true := by
  obtain ⟨_, _, _, e⟩ := s.sendPacket_eq node; rw [e]; exact h

/-- A fold that carries a state beside what it makes keeps the memories canonical where each of its steps does. -/
theorem memoriesWf_foldl_snd {α β : Type} (l : List α) (f : β × State → α → β × State)
    (hf : ∀ r x, r.2.memoriesWf = true → (f r x).2.memoriesWf = true) {r : β × State} (h : r.2.memoriesWf = true) :
    (l.foldl f r).2.memoriesWf = true := by
  induction l generalizing r with
  | nil => exact h
  | cons x xs ih => exact ih (hf r x h)

/-- The flits of other packets put on links keep the memories canonical. -/
theorem State.memoriesWf_pump {s : State} (h : s.memoriesWf = true) (n : Nat) : (s.pump n).memoriesWf = true := by
  obtain ⟨_, _, _, e⟩ := s.pump_eq n; rw [e]; exact h

/-- Cores that hold the slices of cores of a state keep the memories canonical. -/
theorem State.memoriesWf_of_near {s t : State} (h : s.memoriesWf = true) (hm : t.mem = s.mem)
    (hc : ∀ k ∈ t.cores, ∃ j ∈ s.cores, k.near = j.near) : t.memoriesWf = true := by
  rw [State.memoriesWf_iff] at h ⊢
  refine ⟨hm ▸ h.1, fun k hk => ?_⟩
  obtain ⟨j, hj, e⟩ := hc k hk
  exact e ▸ h.2 j hj

/-- Cores changed each by its place, but for their slices, hold the slices of what they were. -/
theorem near_of_mem_map_zipIdx {l : List Core} {f : Core × Nat → Core} (hf : ∀ x, (f x).near = x.1.near) :
    ∀ k ∈ l.zipIdx.map f, ∃ j ∈ l, k.near = j.near := by
  intro k hk
  obtain ⟨x, hx, rfl⟩ := List.mem_map.1 hk
  exact ⟨x.1, List.fst_mem_of_mem_zipIdx hx, hf x⟩

theorem Tab.wfFrom_filter {α : Type} [DecidableEq α] (d : α) (t : Tab α) (p : Nat × α → Bool) (o : Option Nat)
    (h : Tab.wfFrom d o t = true) : Tab.wfFrom d o (t.filter p) = true := by
  induction t generalizing o with
  | nil => rfl
  | cons e r ih =>
    simp only [Tab.wfFrom, Bool.and_eq_true, decide_eq_true_eq] at h
    rw [List.filter_cons]
    split
    · simp only [Tab.wfFrom, Bool.and_eq_true, decide_eq_true_eq]
      exact ⟨h.1, ih _ h.2⟩
    · refine ih o (Tab.wfFrom_weaken d r e.1 o ?_ h.2)
      intro m hm; subst hm; simpa using Nat.le_of_lt (of_decide_eq_true h.1.1)

/-- A memory without some of its bytes keeps the canonical form. -/
theorem Memory.wf_filter (m : Memory) (p : Nat × Byte → Bool) (h : Memory.wf m = true) : Memory.wf (m.filter p) = true :=
  Tab.wfFrom_filter _ m p none h

/-- Bytes written one after another keep the canonical form. -/
theorem Memory.wf_foldl_write (ws : List (Nat × Byte)) (m : Memory) (h : Memory.wf m = true) :
    Memory.wf (ws.foldl (fun t e => Memory.write t e.1 e.2) m) = true := by
  induction ws generalizing m with
  | nil => exact h
  | cons w r ih => exact ih _ (Memory.wf_write m w.1 w.2 h)

theorem State.memoriesWf_transmit {s : State} (h : s.memoriesWf = true) : s.transmit.memoriesWf = true :=
  State.memoriesWf_pump (s := s.drawn.modDev fun d => { d with unsent := d.unsent ++ [Config.freeFlit s.oracle] }) h _

/-- Cores changed one by one, but for their slices, hold the slices of what they were. -/
theorem near_of_mem_map {l : List Core} {f : Core → Core} (hf : ∀ k, (f k).near = k.near) :
    ∀ k ∈ l.map f, ∃ j ∈ l, k.near = j.near := by
  intro k hk
  obtain ⟨j, hj, rfl⟩ := List.mem_map.1 hk
  exact ⟨j, hj, hf j⟩

/-! ### Draws, translations, traps and the decisions of record mode -/

theorem State.memoriesWf_modRun {s : State} (h : s.memoriesWf = true) (w : WarpRef) (f : Run → Run) :
    (s.modRun w f).memoriesWf = true := by
  unfold State.modRun
  grind [State.memoriesWf_modWarp, Core.near_modWarp, State.memoriesWf_mk]

theorem State.memoriesWf_drawBit {s t' : State} {x : Bool} (e : s.drawBit = (x, t')) (h : s.memoriesWf = true) :
    t'.memoriesWf = true := by
  unfold State.drawBit at e
  grind [State.memoriesWf_mk]

theorem State.memoriesWf_drawNat {s t' : State} {n x : Nat} (e : s.drawNat n = (x, t')) (h : s.memoriesWf = true) :
    t'.memoriesWf = true := by
  unfold State.drawNat at e
  grind [State.memoriesWf_mk]

theorem State.memoriesWf_drawWord {s t' : State} {x : Word} (e : s.drawWord = (x, t')) (h : s.memoriesWf = true) :
    t'.memoriesWf = true := by
  unfold State.drawWord at e
  grind [State.memoriesWf_mk]

theorem State.memoriesWf_freshId {s t' : State} {c x : Nat} (e : s.freshId c = (x, t')) (h : s.memoriesWf = true) :
    t'.memoriesWf = true := by
  unfold State.freshId at e
  grind [State.memoriesWf_modCore, State.memoriesWf_mk]

theorem State.memoriesWf_pageOf {s t' : State} {c t va : Nat} {x : Except Code Page} (e : s.pageOf c t va = (x, t'))
    (h : s.memoriesWf = true) : t'.memoriesWf = true := by
  unfold State.pageOf at e
  grind [State.memoriesWf_modCore, State.memoriesWf_modDie, State.memoriesWf_drawBit, State.memoriesWf_mk]

theorem State.memoriesWf_translate {s t' : State} {c t : Nat} {va : Word} {acc : Access} {x : Except Code Page}
    (e : s.translate c t va acc = (x, t')) (h : s.memoriesWf = true) : t'.memoriesWf = true := by
  unfold State.translate at e
  grind [State.memoriesWf_pageOf]

theorem State.memoriesWf_nearWrites {s : State} (h : s.memoriesWf = true) (l : Launch) (c off : Nat) (hidden : Bool)
    (bs : List Byte) : (s.nearWrites l c off hidden bs).memoriesWf = true := by
  induction bs generalizing s off with
  | nil => exact h
  | cons b r ih => exact ih (State.memoriesWf_nearWrite h l c off hidden b) _

theorem State.memoriesWf_setTags {s : State} (h : s.memoriesWf = true) (l : Launch) (c off n : Nat) (hidden : Bool)
    (tag : Nat) : (s.setTags l c off n hidden tag).memoriesWf = true := by
  unfold State.setTags
  grind [State.memoriesWf_modCore, State.memoriesWf_foldl, State.memoriesWf_mk]

theorem State.memoriesWf_faultRecord {s : State} (h : s.memoriesWf = true) (t : Nat) (addr : Word) (core : Nat)
    (cause : Code) (kind card : Nat) : (s.faultRecord t addr core cause kind card).memoriesWf = true := by
  unfold State.faultRecord
  grind [State.memoriesWf_modTenant, State.memoriesWf_modDev, State.memoriesWf_writeWord, State.memoriesWf_mk]

theorem State.memoriesWf_xlateRecord {s : State} (h : s.memoriesWf = true) (t : Nat) (addr : Word) (core kind card : Nat) :
    (s.xlateRecord t addr core kind card).memoriesWf = true := by
  unfold State.xlateRecord
  grind [State.memoriesWf_modTenant, State.memoriesWf_faultRecord, State.memoriesWf_mk]

theorem State.memoriesWf_endLaunch {s : State} (h : s.memoriesWf = true) (l c : Nat) (cause : Cause) :
    (s.endLaunch l c cause).memoriesWf = true := by
  unfold State.endLaunch
  grind [State.memoriesWf_modCore, State.memoriesWf_modLaunch, State.memoriesWf_mk]

theorem State.memoriesWf_defaultFate {s : State} (h : s.memoriesWf = true) (w : WarpRef) (p : Warp) (t : Trap) :
    (s.defaultFate w p t).memoriesWf = true := by
  unfold State.defaultFate
  grind [State.memoriesWf_modWarp, State.memoriesWf_endLaunch, Core.near_modWarp, State.memoriesWf_mk]

theorem State.memoriesWf_takeTrap {s : State} (h : s.memoriesWf = true) (w : WarpRef) (t : Trap) :
    (s.takeTrap w t).memoriesWf = true := by
  unfold State.takeTrap
  grind [State.memoriesWf_modLaunch, State.memoriesWf_modWarp, State.memoriesWf_xlateRecord, State.memoriesWf_endLaunch,
    State.memoriesWf_defaultFate, Core.near_modWarp, State.memoriesWf_mk]

theorem State.memoriesWf_peerFault {s : State} (h : s.memoriesWf = true) (w : WarpRef) :
    (s.peerFault w).memoriesWf = true := by
  unfold State.peerFault
  grind [State.memoriesWf_modRun, State.memoriesWf_takeTrap]

theorem State.memoriesWf_returnFrom {s : State} (h : s.memoriesWf = true) (w : WarpRef) (t : Trap) (at_ : Word)
    (changed yielded wasActive : Bool) : (s.returnFrom w t at_ changed yielded wasActive).memoriesWf = true := by
  unfold State.returnFrom
  grind [State.memoriesWf_modWarp, Core.near_modWarp, State.memoriesWf_mk]

theorem State.memoriesWf_logFull {s : State} (h : s.memoriesWf = true) (l : Nat) (w : Option WarpRef) :
    (s.logFull l w).memoriesWf = true := by
  unfold State.logFull
  repeat' split
  all_goals grind [State.memoriesWf_modLaunch, State.memoriesWf_modWarp, State.memoriesWf_endLaunch]

theorem State.memoriesWf_diverge {s : State} (h : s.memoriesWf = true) (l : Nat) (w : Option WarpRef) (x : Launch) :
    (s.diverge l w x).memoriesWf = true := by
  unfold State.diverge
  grind [State.memoriesWf_endLaunch]

theorem State.memoriesWf_writeDetmode {s : State} (h : s.memoriesWf = true) (l : Nat) (v : Word) :
    (s.writeDetmode l v).memoriesWf = true := by
  unfold State.writeDetmode
  grind [State.memoriesWf_modLaunch, State.memoriesWf_mk]

theorem State.memoriesWf_queueForLog {s : State} (h : s.memoriesWf = true) (l : Nat) (key : Option WarpRef × Word × Nat) :
    (s.queueForLog l key).memoriesWf = true := by
  unfold State.queueForLog
  grind [State.memoriesWf_modLaunch, State.memoriesWf_mk]

theorem State.memoriesWf_stallForLog {s : State} (h : s.memoriesWf = true) (l : Nat) (x : Launch) (w : Option WarpRef)
    (key : Option WarpRef × Word × Nat) : (s.stallForLog l x w key).MemoriesWf := by
  unfold State.stallForLog
  grind [State.memoriesWf_modLaunch, State.memoriesWf_logFull, State.memoriesWf_queueForLog, State.memoriesWf_mk,
    Decided.MemoriesWf]

theorem State.memoriesWf_divergeFor {s : State} (h : s.memoriesWf = true) (l : Nat) (w : Option WarpRef) (x : Launch) :
    (s.divergeFor l w x).MemoriesWf := by
  unfold State.divergeFor
  grind [State.memoriesWf_diverge, Decided.MemoriesWf]

theorem State.memoriesWf_decide {s : State} (h : s.memoriesWf = true) (l : Nat) (w : Option WarpRef) (kind : Nat)
    (obj word1 : Word) : (s.decide l w kind obj word1).MemoriesWf := by
  unfold State.decide
  grind [State.memoriesWf_modLaunch, State.memoriesWf_writeWord, State.memoriesWf_stallForLog, State.memoriesWf_divergeFor,
    Decided.memoriesWf_made, State.memoriesWf_mk, Decided.MemoriesWf]

theorem State.memoriesWf_decideSync {s : State} (h : s.memoriesWf = true) (l : Nat) (w : Option WarpRef) (th va : Nat) :
    (s.decideSync l w th va).MemoriesWf := by
  unfold State.decideSync
  grind [State.memoriesWf_modLaunch, State.memoriesWf_decide, Decided.memoriesWf_made, State.memoriesWf_mk,
    Decided.MemoriesWf]

theorem State.memoriesWf_decideEach {s : State} (h : s.memoriesWf = true) (l : Nat) (w : Option WarpRef)
    (key : Option WarpRef × Word × Nat) (ds : List (State → Decided))
    (hds : ∀ d ∈ ds, ∀ s : State, s.memoriesWf = true → (d s).MemoriesWf) : (s.decideEach l w key ds).MemoriesWf := by
  have fold (r : Decided) (hr : r.MemoriesWf) :
      (ds.foldl (fun r f => match r with | .made s => f s | r => r) r).MemoriesWf := by
    induction ds generalizing r with
    | nil => exact hr
    | cons d ds ih =>
      refine ih (fun f hf => hds f (List.mem_cons_of_mem _ hf)) _ ?_
      cases r with
      | made t => exact hds d (by simp) t hr
      | wait => trivial
      | raised t => exact hr
  unfold State.decideEach
  split
  · exact h
  · split
    · exact h
    · split
      · exact State.memoriesWf_stallForLog h _ _ _ _
      · dsimp only
        split
        · next t hr => exact show (Decided.made t).MemoriesWf by rw [← hr]; exact fold _ (State.memoriesWf_modLaunch h _ _)
        · next t hr => exact show (Decided.raised t).MemoriesWf by rw [← hr]; exact fold _ (State.memoriesWf_modLaunch h _ _)
        · trivial

theorem State.memoriesWf_decideAll {s : State} (h : s.memoriesWf = true) (l : Nat) (w : WarpRef) (ts : List (Nat × Nat)) :
    (s.decideAll l w ts).MemoriesWf := by
  refine State.memoriesWf_decideEach h _ _ _ _ fun d hd t ht => ?_
  obtain ⟨e, -, rfl⟩ := List.mem_map.1 hd
  exact State.memoriesWf_decideSync ht _ _ _ _

/-! ### Accesses, objects and values of sets -/

theorem Ctx.memoriesWf_vec {s : State} (h : s.memoriesWf = true) (c : Ctx) (k : BitVec 3) (d : BitVec 5)
    (uses : List (BitVec 5)) (f : Nat → Word × BitVec 5) : (c.vec s k d uses f).MemoriesWf := by
  unfold Ctx.vec
  grind [State.memoriesWf_foldl, Issue.MemoriesWf]

theorem Ctx.memoriesWf_pure {s : State} (h : s.memoriesWf = true) (c : Ctx) (k : BitVec 3) (d : BitVec 5)
    (uses : List (BitVec 5)) (f : Nat → Word) : (c.pure s k d uses f).MemoriesWf := by
  unfold Ctx.pure
  grind [Issue.MemoriesWf]

theorem State.memoriesWf_setObjWord {s : State} (h : s.memoriesWf = true) (obj : List Span) (off : Nat) (v : Word) :
    (s.setObjWord obj off v).memoriesWf = true := by
  unfold State.setObjWord
  grind [State.memoriesWf_writeWord]

theorem State.memoriesWf_spans {s t' : State} {c t : Nat} {va : Word} {n : Nat} {acc : Access} {k : Nat}
    {x : Except (Code × Word) (List Span)} (e : s.spans c t va n acc k = (x, t')) (h : s.memoriesWf = true) :
    t'.memoriesWf = true := by
  induction k generalizing s t' x c t va n acc with
  | zero => cases e; exact h
  | succ k ih =>
    unfold State.spans at e
    grind [State.memoriesWf_translate]

theorem State.memoriesWf_spansWhile {s t' : State} {c t : Nat} {va : Word} {n : Nat} {acc : Access} {k : Nat} {x : List Span}
    (e : s.spansWhile c t va n acc k = (x, t')) (h : s.memoriesWf = true) : t'.memoriesWf = true := by
  induction k generalizing s t' x c t va n acc with
  | zero => cases e; exact h
  | succ k ih =>
    unfold State.spansWhile at e
    grind [State.memoriesWf_translate]

theorem State.memoriesWf_objSpans {s t' : State} {c t : Nat} {va : Word} {acc : Access} {at_ : Nat} {extent : Word → Nat}
    {most : Nat} {x : Except (Code × Word) (List Span × Nat)} (e : s.objSpans c t va acc at_ extent most = (x, t'))
    (h : s.memoriesWf = true) : t'.memoriesWf = true := by
  unfold State.objSpans at e
  split at e
  · next h1 => cases e; exact State.memoriesWf_spans h1 h
  · next h1 =>
    have w1 := State.memoriesWf_spans h1 h
    dsimp only at e
    split at e
    · next h2 => cases e; exact State.memoriesWf_spans h2 w1
    · next h2 =>
      cases e
      exact State.memoriesWf_spansWhile rfl (State.memoriesWf_spans h2 w1)

theorem State.memoriesWf_resolve {s t' : State} {k : Core} {c l t : Nat} {staged : List SetEff} {v : Word} {view : MemView}
    {x : Resolved} (e : s.resolve k c l t staged v view = (x, t')) (h : s.memoriesWf = true) : t'.memoriesWf = true := by
  unfold State.resolve at e
  grind [State.memoriesWf_packets, State.memoriesWf_flushSector, State.memoriesWf_objSpans, State.memoriesWf_foldl]

theorem State.memoriesWf_canonical {s t' : State} {c : Nat} {l : Launch} {ms : Members} {ops : List Word} {x : Canon}
    (e : s.canonical c l ms ops = (x, t')) (h : s.memoriesWf = true) : t'.memoriesWf = true := by
  unfold State.canonical at e
  grind [State.memoriesWf_spans]

theorem State.memoriesWf_exitLanes {s : State} (h : s.memoriesWf = true) (w : WarpRef) (m : Mask) :
    (s.exitLanes w m).memoriesWf = true := by
  unfold State.exitLanes
  grind [State.memoriesWf_modCore, State.memoriesWf_modDev, State.memoriesWf_modLaunch, State.memoriesWf_modWarp,
    Core.near_modWarp, Core.near_leaveGroups, State.memoriesWf_mk]

theorem Ctx.memoriesWf_vecR {s : State} (h : s.memoriesWf = true) (c : Ctx) (k : BitVec 3) (d : BitVec 5)
    (uses : List (BitVec 5)) (rm : BitVec 3) (f : Nat → Word × BitVec 5) : (c.vecR s k d uses rm f).MemoriesWf := by
  unfold Ctx.vecR
  grind [Ctx.memoriesWf_vec, Issue.memoriesWf_go, Issue.MemoriesWf]

theorem State.memoriesWf_blockOf {s t' : State} {c t : Nat} {p : Page} {j : Nat} {acc : Access}
    {x : Except (Code × Word) Block} (e : s.blockOf c t p j acc = (x, t')) (h : s.memoriesWf = true) :
    t'.memoriesWf = true := by
  unfold State.blockOf at e
  grind [State.memoriesWf_translate]

theorem State.memoriesWf_blocksOf {s t' : State} {c t : Nat} {p : Page} {acc : Access} {xs : List Nat}
    {x : Except (Code × Word) (List Block)} (e : s.blocksOf c t p acc xs = (x, t')) (h : s.memoriesWf = true) :
    t'.memoriesWf = true := by
  induction xs generalizing s t' x c t p acc with
  | nil => cases e; exact h
  | cons y ys ih =>
    unfold State.blocksOf at e
    grind [State.memoriesWf_blockOf]

theorem State.memoriesWf_plainWrite {s t' : State} {c t id : Nat} {na : Bool} {p : Page} {va : Nat} {bs : List Byte}
    {hs : List Held} {x : Except (Code × Word) (List Held)} (e : s.plainWrite c t id na p va bs hs = (x, t'))
    (h : s.memoriesWf = true) : t'.memoriesWf = true := by
  unfold State.plainWrite at e
  grind [State.memoriesWf_blocksOf, State.memoriesWf_foldl]

theorem State.memoriesWf_locate {s t' : State} {c : Ctx} {a : Word} {size : Nat} {acc : Access}
    {x : Except (Code × Word) Page} (e : s.locate c a size acc = (x, t')) (h : s.memoriesWf = true) :
    t'.memoriesWf = true := by
  unfold State.locate at e
  grind [State.memoriesWf_translate]

theorem State.memoriesWf_locateAll {s t' : State} {c : Ctx} {size : Nat} {acc : Access} {xs : List (Nat × Word)}
    {x : Except (Code × Word) (List (Nat × Word × Page))} (e : s.locateAll c size acc xs = (x, t'))
    (h : s.memoriesWf = true) : t'.memoriesWf = true := by
  induction xs generalizing s t' x c size acc with
  | nil => cases e; exact h
  | cons y ys ih =>
    unfold State.locateAll at e
    grind [State.memoriesWf_locate]

theorem State.memoriesWf_takeReqs {s t' : State} {c id : Nat} {secs : List Nat} (e : s.takeReqs c id secs = some t')
    (h : s.memoriesWf = true) : t'.memoriesWf = true := by
  unfold State.takeReqs at e
  grind [State.memoriesWf_modCore, State.memoriesWf_foldl, State.memoriesWf_mk]

theorem State.memoriesWf_plainRead {s t' : State} {c pa n : Nat} {na : Bool} {x : List Byte}
    (e : s.plainRead c pa n na = (x, t')) (h : s.memoriesWf = true) : t'.memoriesWf = true := by
  unfold State.plainRead at e
  grind [State.memoriesWf_loadFill]

theorem State.memoriesWf_syncTell {s : State} (h : s.memoriesWf = true) (l : Nat) (loc : SyncLoc) (who : SyncBy)
    (how : Touch) (pre post : List Byte) (ids : List Nat) : (s.syncTell l loc who how pre post ids).memoriesWf = true :=
  (s.syncTell_ordered _ _ _ _ _ _ _).memoriesWf h

theorem State.memoriesWf_hears {s t' : State} {l : Nat} {ths got x : List Nat} (e : s.hears l ths got = (x, t'))
    (h : s.memoriesWf = true) : t'.memoriesWf = true := by
  have o := s.hears_ordered l ths got
  rw [e] at o
  exact o.memoriesWf h

theorem State.memoriesWf_sync {s : State} (h : s.memoriesWf = true) (l : Nat) (loc : SyncLoc) (who : SyncBy) (how : Touch)
    (pre post : List Byte) : (s.sync l loc who how pre post).memoriesWf = true :=
  (s.sync_ordered _ _ _ _ _ _).memoriesWf h

theorem State.memoriesWf_keepMarks {s : State} (h : s.memoriesWf = true) (pa : Nat) (pre post : List Byte) :
    (s.keepMarks pa pre post).memoriesWf = true := by
  unfold State.keepMarks
  grind [State.memoriesWf_mk]

theorem State.memoriesWf_syncAll {s : State} (h : s.memoriesWf = true) (l : Nat) (es : List SyncRead) :
    (s.syncAll l es).memoriesWf = true :=
  (s.syncAll_ordered _ _).memoriesWf h

theorem State.memoriesWf_tellDeposit {s : State} (h : s.memoriesWf = true) (p : Warp) (d : Deposit) :
    (s.tellDeposit p d).memoriesWf = true :=
  (s.tellDeposit_ordered _ _).memoriesWf h

theorem Ctx.memoriesWf_late {s : State} (h : s.memoriesWf = true) (c : Ctx) (k : BitVec 3) (d : BitVec 5)
    (uses : List (BitVec 5)) (la : BitVec 4) (f : Mask → List (Nat × Word) × BitVec 5) :
    (c.late s k d uses la f).MemoriesWf := by
  unfold Ctx.late
  grind [State.memoriesWf_freshId, Issue.MemoriesWf]

/-! ### Groups, blocks, engine commands and fetches -/

theorem Ctx.memoriesWf_test {s : State} (h : s.memoriesWf = true) (c : Ctx) (k : BitVec 3) (d kf : Nat)
    (uses : List (BitVec 5)) (f : Nat → Bool × BitVec 5) : (c.test s k d kf uses f).MemoriesWf := by
  unfold Ctx.test
  grind [State.memoriesWf_foldl, Issue.MemoriesWf]

theorem Ctx.memoriesWf_readSet {s t' : State} {c : Ctx} {v : Word} {view : MemView} {x : Resolved}
    (e : c.readSet s v view = (x, t')) (h : s.memoriesWf = true) : t'.memoriesWf = true := by
  unfold Ctx.readSet at e
  grind [State.memoriesWf_resolve, Core.near_seenFor]

theorem Ctx.memoriesWf_resolve {s t' : State} {c : Ctx} {v : Word} {view : MemView} {x : Resolved}
    (e : c.resolve s v view = (x, t')) (h : s.memoriesWf = true) : t'.memoriesWf = true := by
  unfold Ctx.resolve at e
  grind [State.memoriesWf_decideAll, Ctx.memoriesWf_readSet, Decided.memoriesWf_made, Decided.memoriesWf_raised]

theorem Ctx.memoriesWf_stageSet {s : State} (h : s.memoriesWf = true) (c : Ctx) (d : Nat) (ms : Members) (ops : List Word) :
    (c.stageSet s d ms ops).MemoriesWf := by
  unfold Ctx.stageSet
  grind [State.memoriesWf_canonical, State.memoriesWf_mk, Issue.MemoriesWf]

theorem Ctx.memoriesWf_algebra {s : State} (h : s.memoriesWf = true) (c : Ctx) (d a b : BitVec 5) (f : Mask → Mask → Mask) :
    (c.algebra s d a b f).MemoriesWf := by
  unfold Ctx.algebra
  grind [State.memoriesWf_decideAll, Ctx.memoriesWf_readSet, Ctx.memoriesWf_stageSet, Issue.memoriesWf_trap,
    Issue.memoriesWf_raised, Decided.memoriesWf_made, Decided.memoriesWf_raised, Issue.MemoriesWf]

theorem Ctx.memoriesWf_ofMembers {s : State} (h : s.memoriesWf = true) (c : Ctx) (k : BitVec 3) (d a : BitVec 5)
    (uses : List (BitVec 5)) (f : Members → Nat → Word) : (c.ofMembers s k d a uses f).MemoriesWf := by
  unfold Ctx.ofMembers
  grind [State.memoriesWf_freshId, Ctx.memoriesWf_resolve, Issue.MemoriesWf]

theorem Ctx.memoriesWf_queue {s : State} (h : s.memoriesWf = true) (c : Ctx) (a : BitVec 5) {f : State → List Span → Issue}
    (hf : ∀ (s : State) obj, s.memoriesWf = true → (f s obj).MemoriesWf) : (c.queue s a f).MemoriesWf := by
  unfold Ctx.queue
  grind [State.memoriesWf_objSpans, Issue.MemoriesWf]

theorem Ctx.memoriesWf_changeGroup {s : State} (h : s.memoriesWf = true) (c : Ctx) (k : BitVec 3) (a : BitVec 5)
    (f : BitVec 24 → Mask → SetEff) : (c.changeGroup s k a f).MemoriesWf := by
  unfold Ctx.changeGroup
  grind [Issue.MemoriesWf]

theorem Ctx.memoriesWf_apply {s : State} (h : s.memoriesWf = true) (c : Ctx) (k : BitVec 3) (off : BitVec 18) (repack : Bool)
    (b0 b1 : Nat) : (c.apply s k off repack b0 b1).MemoriesWf := by
  unfold Ctx.apply
  grind [Ctx.memoriesWf_resolve, Issue.MemoriesWf]

theorem State.memoriesWf_continueAt {s : State} (h : s.memoriesWf = true) (w : WarpRef) (pc : Word) :
    (s.continueAt w pc).memoriesWf = true := by
  unfold State.continueAt
  grind [State.memoriesWf_modWarp, Core.near_modWarp, State.memoriesWf_mk]

theorem State.memoriesWf_enterBlock {s : State} (h : s.memoriesWf = true) (w : WarpRef) (block cont : Word) (m : Mask)
    (session argk : Option Nat) : (s.enterBlock w block cont m session argk).memoriesWf = true := by
  unfold State.enterBlock
  grind [State.memoriesWf_modWarp, State.memoriesWf_continueAt, Core.near_modWarp, State.memoriesWf_mk]

theorem State.memoriesWf_modSession {s : State} (h : s.memoriesWf = true) (c id : Nat) (f : Session → Session) :
    (s.modSession c id f).memoriesWf = true := by
  unfold State.modSession
  grind [State.memoriesWf_modCore, State.memoriesWf_mk]

theorem State.memoriesWf_endSession {s : State} (h : s.memoriesWf = true) (c : Nat) (x : Session) :
    (s.endSession c x).memoriesWf = true := by
  unfold State.endSession
  grind [State.memoriesWf_modCore, State.memoriesWf_continueAt, State.memoriesWf_foldl, State.memoriesWf_mk]

theorem State.memoriesWf_nextTurn {s : State} (h : s.memoriesWf = true) (c id : Nat) (qs : List Nat) :
    (s.nextTurn c id qs).memoriesWf = true := by
  induction qs with
  | nil => unfold State.nextTurn; grind [State.memoriesWf_endSession]
  | cons q r ih => unfold State.nextTurn; grind [State.memoriesWf_enterBlock, State.memoriesWf_modSession]

theorem State.memoriesWf_startSession {s : State} (h : s.memoriesWf = true) (c : Nat) (x : Session) (ms : Members) :
    (s.startSession c x ms).memoriesWf = true := by
  unfold State.startSession
  grind [State.memoriesWf_continueAt, State.memoriesWf_modSession, State.memoriesWf_endSession, State.memoriesWf_nextTurn,
    State.memoriesWf_foldl, State.memoriesWf_mk]

theorem State.memoriesWf_resolveAgain {s t' : State} {w : WarpRef} {p : Warp} {t : Nat} {v : Word} {x : Resolved}
    (e : s.resolveAgain w p t v = (x, t')) (h : s.memoriesWf = true) : t'.memoriesWf = true := by
  unfold State.resolveAgain at e
  grind [State.memoriesWf_decideSync, State.memoriesWf_resolve, State.memoriesWf_syncAll, Decided.memoriesWf_made,
    Decided.memoriesWf_raised]

theorem State.memoriesWf_commitApply {s : State} (h : s.memoriesWf = true) (w : WarpRef) (v : Word) (repack : Bool)
    (b0 b1 : Nat) (block cont : Word) (ms : Members) : (s.commitApply w v repack b0 b1 block cont ms).MemoriesWf := by
  unfold State.commitApply
  grind [State.memoriesWf_modCore, State.memoriesWf_modWarp, State.memoriesWf_enterBlock, State.memoriesWf_modSession,
    State.memoriesWf_startSession, State.memoriesWf_resolveAgain, Core.near_modWarp, State.memoriesWf_mk, Applied.MemoriesWf]

theorem State.memoriesWf_endTurn {s : State} (h : s.memoriesWf = true) (c id : Nat) :
    (s.endTurn c id).memoriesWf = true := by
  unfold State.endTurn
  grind [State.memoriesWf_nextTurn]

theorem State.memoriesWf_dropTurns {s : State} (h : s.memoriesWf = true) (c : Nat) (as : List OpenApply) :
    (s.dropTurns c as).memoriesWf = true := by
  unfold State.dropTurns
  grind [State.memoriesWf_endTurn, State.memoriesWf_foldl]

theorem State.memoriesWf_closeRepack {s : State} (h : s.memoriesWf = true) (c id : Nat) :
    (s.closeRepack c id).memoriesWf = true := by
  unfold State.closeRepack
  grind [State.memoriesWf_exitLanes, State.memoriesWf_endSession, State.memoriesWf_foldl]

theorem State.memoriesWf_sourceFlags {s : State} (h : s.memoriesWf = true) (c id : Nat) (p : Warp) :
    (s.sourceFlags c id p).memoriesWf = true := by
  unfold State.sourceFlags
  grind [State.memoriesWf_modWarp, Core.near_modWarp, State.memoriesWf_foldl, State.memoriesWf_mk]

theorem State.memoriesWf_retireApply {s : State} (h : s.memoriesWf = true) (w : WarpRef) :
    (s.retireApply w).memoriesWf = true := by
  unfold State.retireApply
  grind [State.memoriesWf_modCore, State.memoriesWf_modSession, State.memoriesWf_dropTurns, State.memoriesWf_closeRepack,
    State.memoriesWf_sourceFlags, Core.near_settleAll, Core.near_leaveGroups, Core.near_freeSlotOf, State.memoriesWf_foldl,
    State.memoriesWf_mk]

theorem State.memoriesWf_copyBack {s : State} (h : s.memoriesWf = true) (w : WarpRef) (p : Warp) (id : Nat)
    (src : List (Nat × Nat × Nat)) : (s.copyBack w p id src).memoriesWf = true := by
  unfold State.copyBack
  grind [State.memoriesWf_modWarp, Core.near_modWarp, State.memoriesWf_foldl, State.memoriesWf_mk]

theorem State.memoriesWf_commitEnda {s t' : State} {w : WarpRef} (e : s.commitEnda w = some t') (h : s.memoriesWf = true) :
    t'.memoriesWf = true := by
  unfold State.commitEnda at e
  grind [State.memoriesWf_modLaunch, State.memoriesWf_modWarp, State.memoriesWf_continueAt, State.memoriesWf_endTurn,
    State.memoriesWf_retireApply, State.memoriesWf_copyBack, Core.near_modWarp, State.memoriesWf_mk]

theorem State.memoriesWf_addWarp {s : State} (h : s.memoriesWf = true) (c slot : Nat) (p : Warp) :
    (s.addWarp c slot p).memoriesWf = true := by
  unfold State.addWarp
  grind [State.memoriesWf_modCore, State.memoriesWf_modDev, State.memoriesWf_mk]

theorem State.memoriesWf_noteWrites {s : State} (h : s.memoriesWf = true) (writer : Option (Nat × Nat))
    (rs : List NearRange) : (s.noteWrites writer rs).memoriesWf = true := by
  unfold State.noteWrites
  grind [State.memoriesWf_modCore, State.memoriesWf_foldl, State.memoriesWf_mk]

theorem Ctx.memoriesWf_branch {s : State} (h : s.memoriesWf = true) (c : Ctx) (k : BitVec 3) (off : BitVec 26)
    (onEmpty : Bool) : (c.branch s k off onEmpty).MemoriesWf := by
  unfold Ctx.branch
  grind [Issue.MemoriesWf]

theorem Ctx.memoriesWf_indirect {s : State} (h : s.memoriesWf = true) (c : Ctx) (k : BitVec 3) (a x : BitVec 5) :
    (c.indirect s k a x).MemoriesWf := by
  unfold Ctx.indirect
  grind [Issue.MemoriesWf]

theorem State.memoriesWf_cmdTags {s : State} (h : s.memoriesWf = true) (l : Launch) (core : Nat) (x : Cmd) :
    (s.cmdTags l core x).memoriesWf = true := by
  unfold State.cmdTags
  grind [State.memoriesWf_setTags, State.memoriesWf_foldl]

theorem State.memoriesWf_swapHalves {s : State} (h : s.memoriesWf = true) (l core region : Nat) :
    (s.swapHalves l core region).memoriesWf = true := by
  unfold State.swapHalves
  grind [State.memoriesWf_modLaunch, State.memoriesWf_mk]

theorem Ctx.memoriesWf_engine {s : State} (h : s.memoriesWf = true) (c : Ctx) (k : BitVec 3) (uses : List (BitVec 5))
    {f : Issue} (hf : f.MemoriesWf) : (c.engine s k uses f).MemoriesWf := by
  unfold Ctx.engine
  grind [Issue.MemoriesWf]

theorem State.memoriesWf_pieces {s t' : State} {c t : Nat} {va : Word} {n : Nat} {acc : Access} {k : Nat}
    {x : List (Word × Nat × Except Code Page)} (e : s.pieces c t va n acc k = (x, t')) (h : s.memoriesWf = true) :
    t'.memoriesWf = true := by
  induction k generalizing s t' x c t va n acc with
  | zero => cases e; exact h
  | succ k ih =>
    unfold State.pieces at e
    grind [State.memoriesWf_translate]

theorem State.memoriesWf_piecesAll {s t' : State} {c t : Nat} {acc : Access} {xs : List (Word × Nat)}
    {x : List (List (Word × Nat × Except Code Page))} (e : s.piecesAll c t acc xs = (x, t')) (h : s.memoriesWf = true) :
    t'.memoriesWf = true := by
  induction xs generalizing s t' x c t acc with
  | nil => cases e; exact h
  | cons y ys ih =>
    unfold State.piecesAll at e
    grind [State.memoriesWf_pieces]

theorem State.memoriesWf_checkCopy {s t' : State} {c : Ctx} {cp : Copy} {known : Option (List Nat)} {x : Except Trap Copy}
    (e : s.checkCopy c cp known = (x, t')) (h : s.memoriesWf = true) : t'.memoriesWf = true := by
  unfold State.checkCopy at e
  extract_lets at e
  split at e
  · cases e; exact h
  · split at e
    next h1 =>
    have w1 := State.memoriesWf_translate h1 h
    extract_lets at e
    split at e
    · cases e; exact w1
    · split at e
      next h2 =>
      have w2 := State.memoriesWf_piecesAll h2 w1
      extract_lets at e
      split at e
      · cases e; exact w2
      · split at e
        next h3 =>
        have w3 := State.memoriesWf_piecesAll h3 w2
        extract_lets bad at e
        clear_value bad
        split at e <;> exact (Prod.mk.inj e).2 ▸ w3

theorem Ctx.memoriesWf_sendCopy {s : State} (h : s.memoriesWf = true) (c : Ctx) (cp : Copy) :
    (c.sendCopy s cp).MemoriesWf := by
  unfold Ctx.sendCopy
  grind [State.memoriesWf_mk, Issue.MemoriesWf]

theorem Ctx.memoriesWf_copy {s : State} (h : s.memoriesWf = true) (c : Ctx) (d a b : BitVec 5) (t : BitVec 6) (dir : Nat)
    (mcast : Option (List Nat)) : (c.copy s d a b t dir mcast).MemoriesWf := by
  unfold Ctx.copy
  grind [State.memoriesWf_checkCopy, Ctx.memoriesWf_sendCopy, Issue.memoriesWf_trap, State.memoriesWf_mk, Issue.MemoriesWf]

theorem State.memoriesWf_drawUpTo {s t' : State} {m k : Nat} {x : List Nat} (e : s.drawUpTo m k = (x, t'))
    (h : s.memoriesWf = true) : t'.memoriesWf = true := by
  induction k generalizing s t' x m with
  | zero => cases e; exact h
  | succ k ih =>
    unfold State.drawUpTo at e
    grind [State.memoriesWf_drawNat]

theorem State.memoriesWf_drawSwitches {s t' : State} {versions m k : Nat} {x : List (List Nat)}
    (e : s.drawSwitches versions m k = (x, t')) (h : s.memoriesWf = true) : t'.memoriesWf = true := by
  induction k generalizing s t' x versions m with
  | zero => cases e; exact h
  | succ k ih =>
    unfold State.drawSwitches at e
    grind [State.memoriesWf_drawUpTo]

theorem State.memoriesWf_rowWrite {s : State} (h : s.memoriesWf = true) (core : Nat) (f : Automaton → Automaton) :
    (s.rowWrite core f).memoriesWf = true := by
  unfold State.rowWrite
  grind [State.memoriesWf_modCore, State.memoriesWf_mk]

theorem State.memoriesWf_performAuto {s t' : State} {l : Launch} {core id : Nat} {x : Cmd} {v : BitVec 5}
    (e : s.performAuto l core id x = (v, t')) (h : s.memoriesWf = true) : t'.memoriesWf = true := by
  unfold State.performAuto at e
  grind [State.memoriesWf_modCore, State.memoriesWf_nearWrites, State.memoriesWf_cmdTags, State.memoriesWf_drawSwitches,
    State.memoriesWf_rowWrite, State.memoriesWf_foldl, State.memoriesWf_mk]

theorem Ctx.memoriesWf_array {s : State} (h : s.memoriesWf = true) (c : Ctx) (k : BitVec 3) (uses : List (BitVec 5))
    {f : Issue} (hf : f.MemoriesWf) : (c.array s k uses f).MemoriesWf :=
  Ctx.memoriesWf_engine h c k uses (by split <;> assumption)

theorem Ctx.memoriesWf_sendIf {s : State} (h : s.memoriesWf = true) (c : Ctx) (bad : Option Trap) (x : Cmd) :
    (c.sendIf s bad x).MemoriesWf := by
  unfold Ctx.sendIf
  grind [Issue.MemoriesWf]

theorem State.memoriesWf_fillCode {s : State} (h : s.memoriesWf = true) (c : Nat) (ls : List (Nat × BitVec 128)) :
    (s.fillCode c ls).memoriesWf = true := by
  unfold State.fillCode
  grind [State.memoriesWf_modCore, State.memoriesWf_foldl, State.memoriesWf_mk]

theorem State.memoriesWf_viewPackets {s t' : State} {c t : Nat} {va : Word} {view : Nat → Option (BitVec 128)} {k : Nat}
    {x : Except (Code × Word) (List (Nat × BitVec 128))} (e : s.viewPackets c t va view k = some (x, t'))
    (h : s.memoriesWf = true) : t'.memoriesWf = true := by
  induction k generalizing s t' va x with
  | zero => cases e; exact h
  | succ k ih =>
    unfold State.viewPackets at e
    grind [State.memoriesWf_translate]

theorem State.memoriesWf_viewRun {s t' : State} {c t : Nat} {va : Word} {view : Nat → Option (BitVec 128)}
    {x : Except Trap (List (Nat × BitVec 128))} (e : s.viewRun c t va view = some (x, t')) (h : s.memoriesWf = true) :
    t'.memoriesWf = true := by
  unfold State.viewRun at e
  split at e
  · split at e
    · cases e; grind [State.memoriesWf_viewPackets]
    · grind [State.memoriesWf_viewPackets]
  · grind [State.memoriesWf_viewPackets]
  · cases e

theorem State.memoriesWf_oldRun {s t' : State} {c t : Nat} {va : Word} {x : Except Trap (List (Nat × BitVec 128))}
    (e : s.oldRun c t va = some (x, t')) (h : s.memoriesWf = true) : t'.memoriesWf = true := by
  unfold State.oldRun at e
  grind [State.memoriesWf_translate, State.memoriesWf_viewRun]

theorem State.memoriesWf_fetchRun {s t' : State} {c t : Nat} {va : Word} {x : Except Trap (List (BitVec 128))}
    (e : s.fetchRun c t va = some (x, t')) (h : s.memoriesWf = true) : t'.memoriesWf = true := by
  unfold State.fetchRun at e
  grind [State.memoriesWf_drawBit, State.memoriesWf_fillCode, State.memoriesWf_viewRun, State.memoriesWf_oldRun]

theorem State.memoriesWf_header {s : State} (h : s.memoriesWf = true) (w : WarpRef) (p o : Warp) (l : Launch) (f : Fetched) :
    (s.header w p o l f).MemoriesWf := by
  unfold State.header
  dsimp only
  repeat' split
  all_goals simp [Issue.MemoriesWf, h]

theorem State.memoriesWf_modSub {s : State} (h : s.memoriesWf = true) (core place : Nat) (f : Sub → Sub) :
    (s.modSub core place f).memoriesWf = true := by
  unfold State.modSub
  grind [State.memoriesWf_modCore, State.memoriesWf_mk]

/-! ### Sweeps, commands performed and home accesses -/

theorem State.memoriesWf_settleDie {s : State} (h : s.memoriesWf = true) (d : Nat) : (s.settleDie d).memoriesWf = true := by
  unfold State.settleDie
  grind [State.memoriesWf_modDie, State.memoriesWf_modSub, State.memoriesWf_foldl, State.memoriesWf_mk]

theorem State.memoriesWf_settleSweeps {s : State} (h : s.memoriesWf = true) : (s.settleSweeps).memoriesWf = true := by
  unfold State.settleSweeps
  grind [State.memoriesWf_settleDie, State.memoriesWf_foldl]

theorem State.memoriesWf_sweepFails {s : State} (h : s.memoriesWf = true) (l : Nat) :
    (s.sweepFails l).memoriesWf = true := by
  unfold State.sweepFails
  grind [State.memoriesWf_endLaunch]

theorem State.memoriesWf_decideJoin {s : State} (h : s.memoriesWf = true) (l : Nat) (w : Option WarpRef) (sid : Nat)
    (x : Nat × Nat) : (s.decideJoin l w sid x).MemoriesWf := by
  unfold State.decideJoin
  grind [State.memoriesWf_decide, Decided.memoriesWf_made, Decided.MemoriesWf]

theorem State.memoriesWf_startSweep {s : State} (h : s.memoriesWf = true) (w : WarpRef) (l : Launch) (sid : Nat)
    (ths : List Nat) (dh : Bool) (base : Word) (page : Page) :
    (s.startSweep w l sid ths dh base page).memoriesWf = true := by
  unfold State.startSweep
  grind [State.memoriesWf_modDie, State.memoriesWf_modDev, State.memoriesWf_modSub, State.memoriesWf_sweepFails,
    State.memoriesWf_foldl, State.memoriesWf_mk]

theorem State.memoriesWf_enterSub {s : State} (h : s.memoriesWf = true) (l : Launch) (core place : Nat) (ths : List Nat)
    (u : Sub) : (s.enterSub l core place ths u).memoriesWf = true := by
  unfold State.enterSub
  extract_lets n u s1
  have h1 : s1.memoriesWf = true := by
    refine State.memoriesWf_modLaunch (State.memoriesWf_modDev (State.memoriesWf_modCore h _ _ ?_) _) _ _
    exact fun _ hk => hk
  split
  · exact h1
  · exact State.memoriesWf_foldl h1 _ _ fun _ ht _ _ => ht

theorem State.memoriesWf_leaveSub {s : State} (h : s.memoriesWf = true) (core place : Nat) :
    (s.leaveSub core place).memoriesWf = true := by
  unfold State.leaveSub
  grind [State.memoriesWf_modCore, State.memoriesWf_modDie, State.memoriesWf_modLaunch, State.memoriesWf_settleSweeps,
    State.memoriesWf_foldl, State.memoriesWf_mk]

theorem State.memoriesWf_performSweep {s t' : State} {l : Launch} {core : Nat} {ids : List Nat} {x : Cmd} {v : BitVec 5}
    (e : s.performSweep l core ids x = (v, t')) (h : s.memoriesWf = true) : t'.memoriesWf = true := by
  unfold State.performSweep at e
  grind [State.memoriesWf_nearWrites, State.memoriesWf_cmdTags, State.memoriesWf_modSub, State.memoriesWf_settleSweeps]

theorem State.memoriesWf_retireHandler {s : State} (h : s.memoriesWf = true) (core l : Nat) (merged : Bool) (hdl : Word)
    (n slot sweep : Nat) (ths : List Nat) : (s.retireHandler core l merged hdl n slot sweep ths).memoriesWf = true := by
  unfold State.retireHandler
  grind [State.memoriesWf_modSub, State.memoriesWf_settleSweeps]

theorem State.memoriesWf_sweepFault {s : State} (h : s.memoriesWf = true) (d idx : Nat) (w : Sweep) (t card : Nat)
    (begun : Option Nat) (e : Code × Word) : (s.sweepFault d idx w t card begun e).memoriesWf = true := by
  rw [State.sweepFault]
  split
  · exact State.memoriesWf_xlateRecord h _ _ _ _ _
  · exact State.memoriesWf_sweepFails h _

theorem State.memoriesWf_sweepRead {s t' : State} {d idx : Nat} {w : Sweep} {l : Launch} {x : Nat × Nat × Bool}
    (e : s.sweepRead d idx w l x = some t') (h : s.memoriesWf = true) : t'.memoriesWf = true := by
  unfold State.sweepRead at e
  grind [State.memoriesWf_modDie, State.memoriesWf_decide, State.memoriesWf_modSub, State.memoriesWf_settleSweeps,
    State.memoriesWf_sweepFails, State.memoriesWf_sweepFault, Decided.memoriesWf_made, Decided.memoriesWf_raised,
    State.memoriesWf_mk]

theorem State.memoriesWf_sweepFetch {s t' : State} {d idx : Nat} {w : Sweep} {l : Launch}
    (e : s.sweepFetch d idx w l = some t') (h : s.memoriesWf = true) : t'.memoriesWf = true := by
  unfold State.sweepFetch at e
  grind [State.memoriesWf_modDie, State.memoriesWf_sweepFails, State.memoriesWf_sweepFault, State.memoriesWf_foldl,
    State.memoriesWf_mk]

theorem State.memoriesWf_sweepStep {s t' : State} {d idx : Nat} (e : s.sweepStep d idx = some t') (h : s.memoriesWf = true) :
    t'.memoriesWf = true := by
  unfold State.sweepStep at e
  grind [State.memoriesWf_sweepRead, State.memoriesWf_sweepFetch]

theorem State.memoriesWf_deliver {s t' : State} {g : Staged} {t : Nat × Nat × Nat} (e : s.deliver g t = some t')
    (h : s.memoriesWf = true) : t'.memoriesWf = true := by
  unfold State.deliver at e
  grind [State.memoriesWf_modCore, State.memoriesWf_modLaunch, State.memoriesWf_nearWrites, State.memoriesWf_setTags,
    State.memoriesWf_noteWrites, State.memoriesWf_swapHalves, State.memoriesWf_modSub, State.memoriesWf_mk]

theorem State.memoriesWf_put {s : State} (h : s.memoriesWf = true) (l : Launch) (p : Put) :
    (s.put l p).memoriesWf = true := by
  cases p with
  | near c off v m => exact State.memoriesWf_nearWrite h _ _ _ _ _
  | home pa v m => exact State.memoriesWf_writeByte h _ _

theorem State.memoriesWf_shuffle {s t' : State} {xs : List α} {k : Nat} {x : List α} (e : s.shuffle xs k = (x, t'))
    (h : s.memoriesWf = true) : t'.memoriesWf = true := by
  induction k generalizing s t' x xs with
  | zero => cases e; exact h
  | succ k ih =>
    unfold State.shuffle at e
    grind [State.memoriesWf_drawNat]

theorem State.memoriesWf_putAll {s : State} (h : s.memoriesWf = true) (l : Launch) (overlap : Bool) (us : List (List Put)) :
    (s.putAll l overlap us).memoriesWf = true := by
  unfold State.putAll
  grind [State.memoriesWf_put, State.memoriesWf_shuffle, State.memoriesWf_foldl]

theorem State.memoriesWf_moveUnits {s : State} (h : s.memoriesWf = true) (old : State) (l : Launch) (sc dc : Nat)
    (xs : List (List (Nat × Nat))) : (s.moveUnits old l sc dc xs).memoriesWf = true := by
  induction xs generalizing s old l sc dc with
  | nil => exact h
  | cons y ys ih =>
    unfold State.moveUnits
    grind [State.memoriesWf_drawWord, State.memoriesWf_nearWrite, State.memoriesWf_foldl]

theorem State.memoriesWf_performCopy {s t' : State} {l : Launch} {core : Nat} {c : Copy} {x : BitVec 5}
    (e : s.performCopy l core c = (x, t')) (h : s.memoriesWf = true) : t'.memoriesWf = true := by
  unfold State.performCopy at e
  grind [State.memoriesWf_packets, State.memoriesWf_writeBack, State.memoriesWf_flushSector, State.memoriesWf_nearWrite,
    State.memoriesWf_cmdTags, State.memoriesWf_shuffle, State.memoriesWf_putAll, State.memoriesWf_moveUnits,
    State.memoriesWf_foldl]

theorem State.memoriesWf_closeCopy {s : State} (h : s.memoriesWf = true) (core : Nat) (c : Copy) :
    (s.closeCopy core c).memoriesWf = true := by
  unfold State.closeCopy
  grind [State.memoriesWf_flushSector, State.memoriesWf_foldl]

theorem State.memoriesWf_matrixStep {s t' from_ : State} {l : Launch} {core : Nat} {m : Mloop} {st : Nat} {x : BitVec 5}
    (e : s.matrixStep from_ l core m st = (x, t')) (h : s.memoriesWf = true) : t'.memoriesWf = true := by
  unfold State.matrixStep at e
  grind [State.memoriesWf_modCore, State.memoriesWf_foldl, State.memoriesWf_mk]

theorem State.memoriesWf_matrixSteps {s t' from_ : State} {l : Launch} {core : Nat} {m : Mloop} {st k : Nat} {x : BitVec 5}
    (e : s.matrixSteps from_ l core m st k = (x, t')) (h : s.memoriesWf = true) : t'.memoriesWf = true := by
  induction k generalizing s t' x from_ l core m st with
  | zero => cases e; exact h
  | succ k ih =>
    unfold State.matrixSteps at e
    grind [State.memoriesWf_matrixStep]

theorem State.memoriesWf_performLoop {s t' : State} {l : Launch} {core id : Nat} {m : Mloop} {x : BitVec 5}
    (e : s.performLoop l core id m = (x, t')) (h : s.memoriesWf = true) : t'.memoriesWf = true := by
  unfold State.performLoop at e
  grind [State.memoriesWf_modCore, State.memoriesWf_matrixSteps, State.memoriesWf_foldl, State.memoriesWf_mk]

theorem State.memoriesWf_performTile {s t' : State} {l : Launch} {core : Nat} {x : Cmd} {v : BitVec 5}
    (e : s.performTile l core x = (v, t')) (h : s.memoriesWf = true) : t'.memoriesWf = true := by
  unfold State.performTile at e
  grind [State.memoriesWf_modCore, State.memoriesWf_nearWrites, State.memoriesWf_cmdTags, State.memoriesWf_foldl,
    State.memoriesWf_mk]

theorem State.memoriesWf_performCmd {s t' : State} {l : Launch} {core id : Nat} {x : Cmd} {v : BitVec 5}
    (e : s.performCmd l core id x = (v, t')) (h : s.memoriesWf = true) : t'.memoriesWf = true := by
  unfold State.performCmd at e
  grind [State.memoriesWf_performAuto, State.memoriesWf_performSweep, State.memoriesWf_performCopy,
    State.memoriesWf_performLoop, State.memoriesWf_performTile]

theorem State.memoriesWf_noteFetch {s : State} (h : s.memoriesWf = true) (l : Launch) (core id : Nat) (x : Cmd) :
    (s.noteFetch l core id x).memoriesWf = true := by
  unfold State.noteFetch
  grind [State.memoriesWf_modCore, State.memoriesWf_mk]

theorem State.memoriesWf_modCmd {s : State} (h : s.memoriesWf = true) (core id : Nat) (f : EngRec → EngRec) :
    (s.modCmd core id f).memoriesWf = true := by
  unfold State.modCmd
  grind [State.memoriesWf_modCore, State.memoriesWf_mk]

theorem Ctx.memoriesWf_onLanes {s : State} (h : s.memoriesWf = true) (c : Ctx) (k : BitVec 3) (uses : List (BitVec 5))
    {f : Mask → Issue} (hf : ∀ m, (f m).MemoriesWf) : (c.onLanes s k uses f).MemoriesWf := by
  unfold Ctx.onLanes
  grind [Issue.MemoriesWf]

theorem State.memoriesWf_loadLanes {s t' : State} {c : Nat} {sz : BitVec 3} {na : Bool} {xs : List (Nat × Word × Page)}
    {x : List (Nat × Word)} (e : s.loadLanes c sz na xs = (x, t')) (h : s.memoriesWf = true) : t'.memoriesWf = true := by
  induction xs generalizing s t' x c sz na with
  | nil => cases e; exact h
  | cons y ys ih =>
    unfold State.loadLanes at e
    grind [State.memoriesWf_plainRead]

theorem State.memoriesWf_storeLanes {s t' : State} {c : Ctx} {id : Nat} {o : Opnds} {sz : BitVec 3} {na : Bool}
    {xs : List (Nat × Word)} {hs : List Held} {x : Except (Code × Word) (List Held)}
    (e : s.storeLanes c id o sz na xs hs = (x, t')) (h : s.memoriesWf = true) : t'.memoriesWf = true := by
  induction xs generalizing s hs with
  | nil => cases e; exact h
  | cons y ys ih =>
    unfold State.storeLanes at e
    grind [State.memoriesWf_locate, State.memoriesWf_plainWrite]

theorem State.memoriesWf_elements {s t' : State} {c : Ctx} {o : Opnds} {dt chk : BitVec 1} {acc : Access} {j : Nat}
    {x : Except (Code × Word) (Page × Nat)} (e : s.elements c o dt chk acc j = (x, t')) (h : s.memoriesWf = true) :
    t'.memoriesWf = true := by
  unfold State.elements at e
  extract_lets ea at e
  split at e
  · grind [State.memoriesWf_translate]
  · next h1 =>
    have w1 := State.memoriesWf_translate h1 h
    split at e
    · grind
    · split at e
      · grind
      · extract_lets first at e
        clear_value first
        grind [State.memoriesWf_blockOf]

theorem State.memoriesWf_readElement {s t' : State} {c t : Nat} {p : Page} {e : Nat}
    {x : Except (Code × Word) (Nat × Option Nat × List Nat)} (e : s.readElement c t p e = (x, t'))
    (h : s.memoriesWf = true) : t'.memoriesWf = true := by
  unfold State.readElement at e
  grind [State.memoriesWf_packets, State.memoriesWf_flushSector, State.memoriesWf_blockOf, State.memoriesWf_plainRead,
    State.memoriesWf_foldl]

theorem State.memoriesWf_loadElements {s t' : State} {c : Ctx} {p : Page} {first : Nat} {dt : BitVec 1} {rm : BitVec 3}
    {ftz : BitVec 1} {j : Nat} {x : Except (Code × Word) (Word × BitVec 5 × List Nat)}
    (e : s.loadElements c p first dt rm ftz j = (x, t')) (h : s.memoriesWf = true) : t'.memoriesWf = true := by
  unfold State.loadElements at e
  extract_lets f r at e
  have hr : r.2.memoriesWf = true := by
    refine memoriesWf_foldl_snd _ _ (fun r i hr => ?_) h
    split
    · exact hr
    · split
      · next he => exact State.memoriesWf_readElement he hr
      · next he => exact State.memoriesWf_readElement he hr
  clear_value r
  split at e <;> exact (Prod.mk.inj e).2 ▸ hr

theorem State.memoriesWf_loadFormatted {s t' : State} {c : Ctx} {o : Opnds} {dt : BitVec 1} {rm : BitVec 3}
    {ftz chk : BitVec 1} {xs : List Nat} {x : Except (Code × Word) (List (Nat × Word) × BitVec 5 × List Nat)}
    (e : s.loadFormatted c o dt rm ftz chk xs = (x, t')) (h : s.memoriesWf = true) : t'.memoriesWf = true := by
  induction xs generalizing s t' x c o dt rm ftz chk with
  | nil => cases e; exact h
  | cons y ys ih =>
    unfold State.loadFormatted at e
    grind [State.memoriesWf_elements, State.memoriesWf_loadElements]

theorem State.memoriesWf_storeElements {s t' : State} {c : Ctx} {o : Opnds} {dt : BitVec 1} {rm : BitVec 3} {chk : BitVec 1}
    {xs : List Nat} {x : Except Trap (List EltWrite)} (e : s.storeElements c o dt rm chk xs = (x, t'))
    (h : s.memoriesWf = true) : t'.memoriesWf = true := by
  induction xs generalizing s t' x c o dt rm chk with
  | nil => cases e; exact h
  | cons y ys ih =>
    unfold State.storeElements at e
    grind [State.memoriesWf_elements]

theorem State.memoriesWf_blockWrites {s t' : State} {c t : Nat} {src : EFmt} {rm : BitVec 3} {ftz : Bool}
    {es : List EltWrite} {xs : List (Page × Nat)} {x : Except (Code × Word) (List HomeAcc)}
    (e : s.blockWrites c t src rm ftz es xs = (x, t')) (h : s.memoriesWf = true) : t'.memoriesWf = true := by
  induction xs generalizing s t' x c t src rm ftz es with
  | nil => cases e; exact h
  | cons y ys ih =>
    unfold State.blockWrites at e
    grind [State.memoriesWf_blockOf, State.memoriesWf_foldl]

theorem State.memoriesWf_performAtom {s t' : State} {a : AtomAcc} {x : Word} (e : s.performAtom a = (x, t'))
    (h : s.memoriesWf = true) : t'.memoriesWf = true := by
  unfold State.performAtom at e
  grind [State.memoriesWf_writeBytes]

theorem State.memoriesWf_performElements {s t' : State} {b : Block} {src : EFmt} {es : List BlockElt} {rm : BitVec 3}
    {ftz : Bool} {x : BitVec 5} (e : s.performElements b src es rm ftz = (x, t')) (h : s.memoriesWf = true) :
    t'.memoriesWf = true := by
  unfold State.performElements at e
  grind [State.memoriesWf_writeByte, State.memoriesWf_writeBytes, State.memoriesWf_foldl]

theorem State.memoriesWf_performMerge {s : State} (h : s.memoriesWf = true) (obj : List Span)
    (ms : List (Nat × Nat × Mask)) : (s.performMerge obj ms).memoriesWf = true := by
  unfold State.performMerge
  grind [State.memoriesWf_setObjWord, State.memoriesWf_foldl]

theorem State.memoriesWf_performChunk {s : State} (h : s.memoriesWf = true) (obj : List Span)
    (ms : List (Nat × Nat × Mask)) : (s.performChunk obj ms).memoriesWf = true := by
  unfold State.performChunk
  grind [State.memoriesWf_setObjWord, State.memoriesWf_performMerge]

theorem State.memoriesWf_performPush {s t' : State} {obj : List Span} {v x : Word} (e : s.performPush obj v = (x, t'))
    (h : s.memoriesWf = true) : t'.memoriesWf = true := by
  unfold State.performPush at e
  grind [State.memoriesWf_setObjWord]

theorem State.memoriesWf_performPop {s t' : State} {obj : List Span} {x : Word} (e : s.performPop obj = (x, t'))
    (h : s.memoriesWf = true) : t'.memoriesWf = true := by
  unfold State.performPop at e
  grind [State.memoriesWf_setObjWord]

theorem State.memoriesWf_enqueueCard {s : State} (h : s.memoriesWf = true) (tenant card : Nat) (w40 : Word)
    (core : Option Nat) (host : Bool) : (s.enqueueCard tenant card w40 core host).memoriesWf = true := by
  unfold State.enqueueCard
  grind [State.memoriesWf_modDev, State.memoriesWf_mk]

theorem State.memoriesWf_performPost {s t' : State} {card pa : Nat} {depth : Option Nat} {any : Bool} {core tenant : Nat}
    {host : Bool} {x : Word} (e : s.performPost card pa depth any core tenant host = (x, t')) (h : s.memoriesWf = true) :
    t'.memoriesWf = true := by
  unfold State.performPost at e
  grind [State.memoriesWf_writeWord, State.memoriesWf_enqueueCard]

theorem State.memoriesWf_notePoster {s : State} (h : s.memoriesWf = true) (tenant card who : Nat) :
    (s.notePoster tenant card who).memoriesWf = true := by
  unfold State.notePoster
  grind [State.memoriesWf_modDev, State.memoriesWf_mk]

theorem State.memoriesWf_performRemote {s t' : State} {r : RemoteSync} {x : Word} (e : s.performRemote r = (x, t'))
    (h : s.memoriesWf = true) : t'.memoriesWf = true := by
  unfold State.performRemote at e
  grind [State.memoriesWf_writeByte, State.memoriesWf_writeWord, State.memoriesWf_performAtom, State.memoriesWf_foldl]

theorem State.memoriesWf_performAcc {s : State} (h : s.memoriesWf = true) (l : Nat) (a : HomeAcc) :
    (s.performAcc l a).2.2.memoriesWf = true := by
  cases a with
  | atom th a => exact State.memoriesWf_performAtom rfl h
  | guard th va pa scope => exact State.memoriesWf_writeWord h _ _
  | future th va pa scope v =>
    cases v with
    | none => exact State.memoriesWf_writeWord h _ _
    | some v => exact State.memoriesWf_writeWord (State.memoriesWf_writeWord h _ _) _ _
  | blockBytes bs ws => exact State.memoriesWf_foldl h _ _ fun _ ht w _ => State.memoriesWf_writeByte ht _ _
  | blockElts b f es rm z => exact State.memoriesWf_performElements rfl h
  | kmerge th obj ms => exact State.memoriesWf_performMerge h _ _
  | chunk th obj ms => exact State.memoriesWf_performChunk h _ _
  | kqpush th obj v => exact State.memoriesWf_performPush rfl h
  | kqpop th obj => exact State.memoriesWf_performPop rfl h
  | post th card pa depth any core tenant =>
    have hp := State.memoriesWf_performPost (card := card) (pa := pa) (depth := depth) (any := any) (core := core)
      (tenant := tenant) (host := false) rfl h
    unfold State.performAcc
    dsimp only
    split
    · exact State.memoriesWf_notePoster hp _ _ _
    · exact hp
  | hostPost card pa tenant =>
    have hp := State.memoriesWf_performPost (card := card) (pa := pa) (depth := none) (any := true) (core := 0)
      (tenant := tenant) (host := true) rfl h
    unfold State.performAcc
    dsimp only
    refine State.memoriesWf_modTenant ?_ _ _
    split
    · exact State.memoriesWf_notePoster hp _ _ _
    · exact hp
  | qtake core tenant level => unfold State.performAcc; dsimp only; split <;> exact h
  | remote src num r => exact State.memoriesWf_performRemote rfl h

theorem State.memoriesWf_push {s : State} (h : s.memoriesWf = true) (c l : Nat) (a : HomeAcc) :
    (s.push c l a).memoriesWf = true := by
  unfold State.push
  grind [State.memoriesWf_foldl, State.memoriesWf_writeBack]

theorem State.memoriesWf_perform {s : State} (h : s.memoriesWf = true) (c l : Nat) (w : Option WarpRef) (a : HomeAcc) :
    (s.perform c l w a).MemoriesWf := by
  have flush {s : State} (h : s.memoriesWf = true) (secs : List Nat) :
      (secs.foldl (fun s sec => if c < 144 then s.flushSector c sec else s) s).memoriesWf = true :=
    State.memoriesWf_foldl h _ _ fun _ ht _ _ => by
      split
      · exact State.memoriesWf_flushSector ht _ _
      · exact ht
  unfold State.perform
  split
  · trivial
  · dsimp only
    split
    · exact State.memoriesWf_performAcc (flush (flush (State.memoriesWf_push h _ _ _) _) _) _ _
    · split
      · trivial
      · next hd => exact Decided.memoriesWf_raised (State.memoriesWf_decideSync h _ _ _ _) hd
      · next hd =>
        have hs := Decided.memoriesWf_made (State.memoriesWf_decideSync h _ _ _ _) hd
        exact State.memoriesWf_performAcc (flush (flush (State.memoriesWf_push hs _ _ _) _) _) _ _

theorem State.memoriesWf_sendHome {s : State} (h : s.memoriesWf = true) (q : HomeReq) :
    (s.sendHome q).memoriesWf = true := by
  unfold State.sendHome
  grind [State.memoriesWf_modDev, State.memoriesWf_mk]

theorem State.memoriesWf_notePerformed {s : State} (h : s.memoriesWf = true) (q : HomeReq) (v : Word) (fl : BitVec 5) :
    (s.notePerformed q v fl).memoriesWf = true := by
  unfold State.notePerformed
  grind [State.memoriesWf_modWarp, Core.near_modWarp, State.memoriesWf_mk]

theorem State.memoriesWf_takePacket {s : State} (h : s.memoriesWf = true) (src num : Nat) :
    (s.takePacket src num).memoriesWf = true := by
  unfold State.takePacket
  grind [State.memoriesWf_modDev, State.memoriesWf_mk]

theorem State.memoriesWf_queueRemote {s : State} (h : s.memoriesWf = true) (src num : Nat) (acc : RemoteSync) :
    (s.queueRemote src num acc).memoriesWf = true := by
  unfold State.queueRemote
  grind [State.memoriesWf_modDev, State.memoriesWf_sendHome, State.memoriesWf_takePacket, State.memoriesWf_mk]

theorem State.memoriesWf_takePlain {s : State} (h : s.memoriesWf = true) (src num : Nat) (acc : RemoteSync) :
    (s.takePlain src num acc).memoriesWf = true := by
  have hp : ((s.takePacket src num).performRemote acc).2.memoriesWf = true :=
    State.memoriesWf_performRemote rfl (State.memoriesWf_takePacket h _ _)
  unfold State.takePlain
  dsimp only
  split
  · exact hp
  · exact State.memoriesWf_sendPacket hp _

theorem State.memoriesWf_drainRemote {s : State} (h : s.memoriesWf = true) (k : Nat) :
    (s.drainRemote k).memoriesWf = true := by
  induction k generalizing s with
  | zero => exact h
  | succ k ih =>
    unfold State.drainRemote
    grind [State.memoriesWf_queueRemote, State.memoriesWf_takePlain]

theorem State.memoriesWf_readAtHome {s : State} (h : s.memoriesWf = true) (w : WarpRef) (secs : List Nat) :
    (s.readAtHome w secs).memoriesWf = true := by
  unfold State.readAtHome
  grind [State.memoriesWf_modDev, State.memoriesWf_modWarp, State.memoriesWf_packets, State.memoriesWf_flushSector,
    State.memoriesWf_drainRemote, Core.near_modWarp, State.memoriesWf_foldl, State.memoriesWf_mk]

theorem State.memoriesWf_tell {t : State} (h : t.memoriesWf = true) (s : State) (q : HomeReq) :
    (s.tell q t).memoriesWf = true :=
  (s.tell_ordered t q).memoriesWf h

theorem State.memoriesWf_packetsOf {s : State} (h : s.memoriesWf = true) (a : HomeAcc) :
    (s.packetsOf a).memoriesWf = true := by
  unfold State.packetsOf
  split
  · exact State.memoriesWf_sendPacket h _
  · exact State.memoriesWf_packets h _

theorem State.memoriesWf_serve {s : State} (h : s.memoriesWf = true) (q : HomeReq) : (s.serve q).MemoriesWf := by
  unfold State.serve
  grind [State.memoriesWf_modDev, State.memoriesWf_perform, State.memoriesWf_notePerformed, State.memoriesWf_tell,
    State.memoriesWf_packetsOf, Performed.memoriesWf_done, Performed.memoriesWf_raised, State.memoriesWf_mk,
    Decided.MemoriesWf]

theorem State.memoriesWf_endRound {s : State} (h : s.memoriesWf = true) (sec : Nat) :
    (s.endRound sec).memoriesWf = true := by
  unfold State.endRound
  grind [State.memoriesWf_modDev, State.memoriesWf_drainRemote, State.memoriesWf_mk]

theorem State.memoriesWf_serveLanes {s : State} (h : s.memoriesWf = true) (q : HomeReq) (k : Nat) :
    (s.serveLanes q k).memoriesWf = true := by
  induction k generalizing s q with
  | zero => exact h
  | succ k ih =>
    unfold State.serveLanes
    grind [State.memoriesWf_modRun, State.memoriesWf_serve, Decided.memoriesWf_made, State.memoriesWf_mk]

theorem State.memoriesWf_serveGroup {s : State} (h : s.memoriesWf = true) (qs : List HomeReq) :
    (s.serveGroup qs).memoriesWf = true := by
  unfold State.serveGroup
  grind [State.memoriesWf_flushSector, State.memoriesWf_serve, State.memoriesWf_serveLanes, Decided.memoriesWf_made,
    Decided.memoriesWf_raised, State.memoriesWf_foldl]

/-! ### Held effects, commits and the clock -/

theorem State.memoriesWf_unitBlock {s t' : State} {c t : Nat} {p : Page} {va : Nat} {x : Except (Code × Word) (Option Block)}
    (e : s.unitBlock c t p va = (x, t')) (h : s.memoriesWf = true) : t'.memoriesWf = true := by
  unfold State.unitBlock at e
  grind [State.memoriesWf_blockOf]

theorem State.memoriesWf_atomLanes {s t' : State} {c : Ctx} {op : AtomOp} {wide : Bool} {scope : Nat} {b x : BitVec 5}
    {xs : List (Nat × Word)} {v : Except (Code × Word) (List HomeAcc)} (e : s.atomLanes c op wide scope b x xs = (v, t'))
    (h : s.memoriesWf = true) : t'.memoriesWf = true := by
  induction xs generalizing s t' v c op wide scope b x with
  | nil => cases e; exact h
  | cons y ys ih =>
    unfold State.atomLanes at e
    grind [State.memoriesWf_locate, State.memoriesWf_unitBlock]

theorem State.memoriesWf_locateWrites {s t' : State} {c : Ctx} {size : Nat} {xs : List (Nat × Word)}
    {x : Except (Code × Word) (List (Nat × Word × Page))} (e : s.locateWrites c size xs = (x, t'))
    (h : s.memoriesWf = true) : t'.memoriesWf = true := by
  induction xs generalizing s t' x c size with
  | nil => cases e; exact h
  | cons y ys ih =>
    unfold State.locateWrites at e
    grind [State.memoriesWf_locate]

theorem State.memoriesWf_setHeld {s : State} (h : s.memoriesWf = true) (w : WarpRef) (hs : List Held) :
    (s.setHeld w hs).memoriesWf = true := by
  unfold State.setHeld
  grind [State.memoriesWf_modRun, State.memoriesWf_mk]

theorem State.memoriesWf_sendAccess {s : State} (h : s.memoriesWf = true) (c : Ctx) (id : Nat) (m : Mask) (h : HomeAcc) :
    (s.sendAccess c id m h).memoriesWf = true := by
  unfold State.sendAccess
  grind [State.memoriesWf_modRun, State.memoriesWf_sendHome, State.memoriesWf_mk]

theorem State.memoriesWf_sendFirst {s : State} (h : s.memoriesWf = true) (c : Ctx) (id : Nat) (m : Mask)
    (hs : List HomeAcc) : (s.sendFirst c id m hs).MemoriesWf := by
  unfold State.sendFirst
  grind [State.memoriesWf_takeReqs, State.memoriesWf_sendAccess, HeldStep.MemoriesWf]

theorem State.memoriesWf_noteArrival {s : State} (h : s.memoriesWf = true) (w : WarpRef) (id j : Nat) (v : Word)
    (done : Bool) : (s.noteArrival w id j v done).memoriesWf = true := by
  unfold State.noteArrival
  grind [State.memoriesWf_modWarp, Core.near_modWarp, State.memoriesWf_mk]

theorem State.memoriesWf_tellArrival {s : State} (h : s.memoriesWf = true) (c : Ctx) (j : Nat) (loc : SyncLoc) :
    (s.tellArrival c j loc).memoriesWf = true := by
  unfold State.tellArrival
  grind [State.memoriesWf_sync]

theorem State.memoriesWf_arriveNamed {s : State} (h : s.memoriesWf = true) (c : Ctx) (id n j : Nat) (last : Bool) :
    (s.arriveNamed c id n j last).MemoriesWf := by
  unfold State.arriveNamed
  grind [State.memoriesWf_modCore, State.memoriesWf_modRun, State.memoriesWf_drawWord, State.memoriesWf_decide,
    State.memoriesWf_noteArrival, State.memoriesWf_tellArrival, Decided.memoriesWf_made, State.memoriesWf_mk,
    Decided.MemoriesWf]

theorem State.memoriesWf_arriveDevice {s : State} (h : s.memoriesWf = true) (c : Ctx) (id n j : Nat) (last : Bool) :
    (s.arriveDevice c id n j last).MemoriesWf := by
  unfold State.arriveDevice
  grind [State.memoriesWf_modDev, State.memoriesWf_writeBackAll, State.memoriesWf_decide, State.memoriesWf_noteArrival,
    State.memoriesWf_tellArrival, Decided.memoriesWf_made, State.memoriesWf_mk, Decided.MemoriesWf]

theorem HeldStep.memoriesWf_ofDecided {d : Decided} (h : d.MemoriesWf) (w : WarpRef) (rest : List Held) :
    (HeldStep.ofDecided w rest d).MemoriesWf := by
  cases d with
  | made s => exact State.memoriesWf_setHeld h w rest
  | wait => trivial
  | raised s => exact h

theorem HeldStep.memoriesWf_peerFault {x : HeldStep} (h : x.MemoriesWf) (w : WarpRef) :
    (HeldStep.peerFault w x).MemoriesWf := by
  cases x with
  | done s => exact State.memoriesWf_modRun h w _
  | sent s => exact h
  | wait => trivial

theorem State.memoriesWf_tellCommand {s t' : State} {c : Ctx} {x : Cmd} {rs : List NearRange} {ts : List (Nat × Bool)}
    {v : List Nat} (e : s.tellCommand c x rs ts = (v, t')) (h : s.memoriesWf = true) : t'.memoriesWf = true := by
  unfold State.tellCommand at e
  grind [State.memoriesWf_modLaunch, State.memoriesWf_syncTell]

/-- Bytes of a near store performed, but those of a frozen region, keep the memories canonical. -/
theorem State.memoriesWf_nearBytesHeld {s : State} (h : s.memoriesWf = true) (l : Launch) (core : Nat)
    (ws : List (Nat × Nat × Byte)) :
    (ws.foldl (fun s x => if l.frozenFor x.1 core then s
      else (s.nearWrite l x.1 x.2.1 false x.2.2).setTags l x.1 x.2.1 1 false 0) s).memoriesWf = true :=
  State.memoriesWf_foldl h _ _ fun _ ht _ _ => by
    split
    · exact ht
    · exact State.memoriesWf_setTags (State.memoriesWf_nearWrite ht _ _ _ _ _) _ _ _ _ _ _

/-- A near store performed keeps the memories canonical. -/
theorem State.memoriesWf_heldStep_near {s : State} (h : s.memoriesWf = true) (c : Ctx) (m : Mask)
    (ws : List (Nat × Nat × Byte)) (rest : List Held) : (s.heldStep c (.near m ws) rest).MemoriesWf := by
  unfold State.heldStep
  extract_lets core k done
  have hd (t : State) (ht : t.memoriesWf = true) : (done t).MemoriesWf := State.memoriesWf_setHeld ht c.w rest
  clear_value done
  split
  · trivial
  · dsimp only
    split
    · trivial
    · have hn := hd _ (State.memoriesWf_modLaunch (State.memoriesWf_noteWrites (State.memoriesWf_nearBytesHeld h c.l core ws)
        none (ws.flatMap fun x => c.l.range x.1 x.2.1 1 true)) c.p.launch fun l =>
          l.touch core (ws.flatMap fun x => c.l.range x.1 x.2.1 1 true) [] (c.threads m))
      split
      · exact HeldStep.memoriesWf_peerFault hn _
      · exact hn

theorem State.memoriesWf_heldStep {s : State} (h : s.memoriesWf = true) (c : Ctx) (e : Held) (rest : List Held) :
    (s.heldStep c e rest).MemoriesWf := by
  cases e
  case near m ws => exact State.memoriesWf_heldStep_near h c m ws rest
  all_goals
    unfold State.heldStep
    extract_lets core k done
    have hd (t : State) (ht : t.memoriesWf = true) : (done t).MemoriesWf := State.memoriesWf_setHeld ht c.w rest
    clear_value done
    grind [State.memoriesWf_storeBytes, State.memoriesWf_sendFirst, State.memoriesWf_modCore, State.memoriesWf_freshId,
      State.memoriesWf_setHeld, State.memoriesWf_foldl, State.memoriesWf_modLaunch, State.memoriesWf_writeBackAll,
      State.memoriesWf_writeBack, State.memoriesWf_modWarp, State.memoriesWf_swapHalves, State.memoriesWf_tellCommand,
      HeldStep.memoriesWf_ofDecided, State.memoriesWf_arriveNamed, State.memoriesWf_arriveDevice, State.memoriesWf_decide,
      State.memoriesWf_enterSub, State.memoriesWf_leaveSub, State.memoriesWf_startSweep, State.memoriesWf_decideJoin,
        HeldStep.MemoriesWf]

theorem State.memoriesWf_takeBarmis {s : State} (h : s.memoriesWf = true) (w : WarpRef) (p : Warp) :
    (s.takeBarmis w p).memoriesWf = true := by
  unfold State.takeBarmis
  grind [State.memoriesWf_modWarp, State.memoriesWf_takeTrap, Core.near_modWarp, State.memoriesWf_mk]

theorem State.memoriesWf_barmis {t : State} (h : t.memoriesWf = true) (s : State) (w : WarpRef) :
    (s.barmis t w).memoriesWf = true := by
  unfold State.barmis
  split
  · exact h
  · refine State.memoriesWf_modCore (State.memoriesWf_foldl h _ _ fun _ ht _ _ => State.memoriesWf_takeBarmis ht _ _) _ _ ?_
    exact fun _ hk => hk

theorem State.memoriesWf_writeSys {s : State} (h : s.memoriesWf = true) (c : Ctx) (num : Nat) (v : Word) :
    (s.writeSys c num v).memoriesWf = true := by
  unfold State.writeSys
  grind [State.memoriesWf_modLaunch, State.memoriesWf_modWarp, Core.near_modWarp, State.memoriesWf_mk]

theorem State.memoriesWf_commitEff {s : State} (h : s.memoriesWf = true) (c : Ctx) (e : SetEff) :
    (s.commitEff c e).memoriesWf = true := by
  rw [State.commitEff.eq_def]
  split
  all_goals grind [State.memoriesWf_modCore, State.memoriesWf_modLaunch, State.memoriesWf_modWarp, State.memoriesWf_modRun,
    State.memoriesWf_freshId, State.memoriesWf_writeSys, Core.near_freeStore, Core.near_dissolve, Core.near_joinGroup,
    Core.near_leaveGroup]

theorem State.memoriesWf_commitState {s : State} (h : s.memoriesWf = true) (c : Ctx) (wb : BitVec 16) (tag : Option Nat) :
    (s.commitState c wb tag).memoriesWf = true := by
  unfold State.commitState
  grind [State.memoriesWf_modLaunch, State.memoriesWf_modWarp, State.memoriesWf_writeBack, State.memoriesWf_setHeld,
    State.memoriesWf_barmis, State.memoriesWf_commitEff, Core.near_modWarp, State.memoriesWf_foldl, State.memoriesWf_mk]

theorem State.memoriesWf_giveGroups {s : State} (h : s.memoriesWf = true) (c : Ctx) (n : Nat) :
    (s.giveGroups c n).memoriesWf = true := by
  unfold State.giveGroups
  grind [State.memoriesWf_modCore, State.memoriesWf_modWarp, Core.near_modWarp, State.memoriesWf_mk]

theorem State.memoriesWf_commitTret {s : State} (h : s.memoriesWf = true) (c : Ctx) (e : Bool) :
    (s.commitTret c e).MemoriesWf := by
  rw [State.commitTret.eq_def]
  grind [State.memoriesWf_modCore, State.memoriesWf_modWarp, State.memoriesWf_endLaunch, State.memoriesWf_returnFrom,
    Applied.MemoriesWf]

theorem State.memoriesWf_transfer {s : State} (h : s.memoriesWf = true) (c : Ctx) : (s.transfer c).MemoriesWf := by
  unfold State.transfer
  grind [State.memoriesWf_modWarp, State.memoriesWf_exitLanes, State.memoriesWf_commitApply, State.memoriesWf_commitEnda,
    State.memoriesWf_commitTret, Core.near_modWarp, Applied.memoriesWf_done, State.memoriesWf_mk, Applied.MemoriesWf]

theorem State.memoriesWf_passTurn {s : State} (h : s.memoriesWf = true) (w : WarpRef) (p : Warp) :
    (s.passTurn w p).memoriesWf = true := by
  unfold State.passTurn
  grind [State.memoriesWf_modCore, State.memoriesWf_mk]

theorem State.memoriesWf_softTrap {s : State} (h : s.memoriesWf = true) (w : WarpRef) (p : Warp) (x : Code × Nat × Nat) :
    (s.softTrap w p x).memoriesWf = true := by
  unfold State.softTrap
  grind [State.memoriesWf_modWarp, State.memoriesWf_defaultFate, State.memoriesWf_takeTrap, Core.near_modWarp,
    State.memoriesWf_mk]

theorem State.memoriesWf_softInHandler {s : State} (h : s.memoriesWf = true) (c : Ctx) (x : Code × Nat × Nat) :
    (s.softInHandler c x).memoriesWf = true := by
  unfold State.softInHandler
  grind [State.memoriesWf_endLaunch]

theorem State.memoriesWf_endCommit {s : State} (h : s.memoriesWf = true) (c : Ctx) : (s.endCommit c).memoriesWf = true := by
  unfold State.endCommit
  grind [State.memoriesWf_modWarp, State.memoriesWf_passTurn, State.memoriesWf_softTrap, State.memoriesWf_softInHandler,
    Core.near_modWarp, State.memoriesWf_foldl, State.memoriesWf_mk]

theorem State.memoriesWf_commitStep {s : State} (h : s.memoriesWf = true) (c : Ctx) (wb : BitVec 16) (tag : Option Nat)
    (stage : Nat) : (s.commitStep c wb tag stage).MemoriesWf := by
  unfold State.commitStep
  grind [State.memoriesWf_modRun, State.memoriesWf_heldStep, State.memoriesWf_barmis, State.memoriesWf_commitState,
    State.memoriesWf_giveGroups, State.memoriesWf_transfer, State.memoriesWf_endCommit, HeldStep.memoriesWf_done,
    HeldStep.memoriesWf_sent, Applied.memoriesWf_done, Applied.memoriesWf_raised, State.memoriesWf_mk, CommitStep.MemoriesWf]

theorem State.memoriesWf_commitFrom {s : State} (h : s.memoriesWf = true) (w : WarpRef) (moved : Bool) (k : Nat) :
    (s.commitFrom w moved k).memoriesWf = true := by
  induction k generalizing s w moved with
  | zero => exact h
  | succ k ih =>
    unfold State.commitFrom
    grind [State.memoriesWf_takeTrap, State.memoriesWf_commitStep, CommitStep.memoriesWf_go, CommitStep.memoriesWf_stop,
      CommitStep.memoriesWf_trap, State.memoriesWf_mk]

theorem State.memoriesWf_giveTurns {s : State} (h : s.memoriesWf = true) (c : Nat) : (s.giveTurns c).memoriesWf = true := by
  unfold State.giveTurns
  grind [State.memoriesWf_modCore, State.memoriesWf_foldl, State.memoriesWf_mk]

theorem State.memoriesWf_turnWaits {s : State} (h : s.memoriesWf = true) (w : WarpRef) (p : Warp) :
    (s.turnWaits w p).memoriesWf = true := by
  unfold State.turnWaits
  grind [State.memoriesWf_modWarp, State.memoriesWf_passTurn, Core.near_modWarp, State.memoriesWf_mk]

theorem State.memoriesWf_leaveActive {s : State} (h : s.memoriesWf = true) (w : WarpRef) (p : Warp) :
    (s.leaveActive w p).memoriesWf = true := by
  unfold State.leaveActive
  grind [State.memoriesWf_modWarp, Core.near_modWarp, State.memoriesWf_mk]

theorem State.memoriesWf_tickWarp {s : State} (h : s.memoriesWf = true) (w : WarpRef) (p : Warp) :
    (s.tickWarp w p).memoriesWf = true := by
  unfold State.tickWarp
  grind [State.memoriesWf_modWarp, State.memoriesWf_turnWaits, State.memoriesWf_leaveActive, Core.near_modWarp,
    State.memoriesWf_mk]

theorem State.memoriesWf_tickCore {s : State} (h : s.memoriesWf = true) (c : Nat) : (s.tickCore c).memoriesWf = true := by
  unfold State.tickCore
  split
  · exact h
  · refine State.memoriesWf_modCore (State.memoriesWf_giveTurns (State.memoriesWf_foldl
      (State.memoriesWf_modCore h c _ ?_) _ _ fun _ ht _ _ => State.memoriesWf_tickWarp ht _ _) _) _ _ ?_
    all_goals exact fun _ hk => hk

theorem State.memoriesWf_lateWrites {s : State} (h : s.memoriesWf = true) : (s.lateWrites).memoriesWf = true := by
  unfold State.lateWrites
  grind [State.memoriesWf_writeDetmode, State.memoriesWf_foldl, State.memoriesWf_mk]

theorem State.memoriesWf_tick {s : State} (h : s.memoriesWf = true) : (s.tick).memoriesWf = true := by
  unfold State.tick
  grind [State.memoriesWf_modDev, State.memoriesWf_tickCore, State.memoriesWf_lateWrites, State.memoriesWf_foldl,
    State.memoriesWf_mk]

theorem State.memoriesWf_arriveInRun {s : State} (h : s.memoriesWf = true) (core : Nat) (w : WarpRef) (p : Warp) (q : Pend) :
    (s.arriveInRun core w p q).memoriesWf = true := by
  unfold State.arriveInRun
  extract_lets t at_ v badSet
  have ht : t.memoriesWf = true := State.memoriesWf_modCore h core _ fun _ hk => hk
  clear_value badSet
  grind [State.memoriesWf_takeTrap, State.memoriesWf_modRun]

theorem State.memoriesWf_arriveMarks {s : State} (h : s.memoriesWf = true) (core : Nat) (w : WarpRef) (p : Warp) (id : Nat) :
    (s.arriveMarks core w p id).memoriesWf = true := by
  unfold State.arriveMarks
  grind [State.memoriesWf_modCore, State.memoriesWf_modWarp, Core.near_modWarp, Core.near_freeReqs, State.memoriesWf_foldl,
    State.memoriesWf_mk]

theorem State.memoriesWf_poison {s : State} (h : s.memoriesWf = true) (core id : Nat) :
    (s.poison core id).memoriesWf = true :=
  State.memoriesWf_modCore h core _ fun _ hk => hk

theorem State.memoriesWf_holdArray {s : State} (h : s.memoriesWf = true) (core : Nat) (l : Launch) :
    (s.holdArray core l).memoriesWf = true := by
  unfold State.holdArray
  grind [State.memoriesWf_modCore, State.memoriesWf_mk]

theorem State.memoriesWf_modCore_const {s : State} (h : s.memoriesWf = true) (c : Nat) (k : Core)
    (hk : k.near = (s.core c).near) : (s.modCore c fun _ => k).memoriesWf = true := by
  have put (l : List Core) (i : Nat) (hl : ∀ x ∈ l, Memory.wf x.near = true)
      (hk : k.near = (l.getD i Core.reset).near) : ∀ x ∈ listChange l i fun _ => k, Memory.wf x.near = true := by
    induction l generalizing i with
    | nil => intro x hx; cases hx
    | cons a r ih =>
      obtain ⟨ha, hr⟩ := List.forall_mem_cons.1 hl
      cases i with
      | zero => exact List.forall_mem_cons.2 ⟨by rw [hk]; exact ha, hr⟩
      | succ i => exact List.forall_mem_cons.2 ⟨ha, ih i hr hk⟩
  rw [State.memoriesWf_iff] at h ⊢
  exact ⟨h.1, put s.cores c h.2 hk⟩

theorem State.memoriesWf_amsGroup {s : State} (h : s.memoriesWf = true) (core slot l e : Nat) :
    (s.amsGroup core slot l e).memoriesWf = true := by
  rw [State.amsGroup.eq_def]
  refine State.memoriesWf_modWarp (State.memoriesWf_modCore_const h _ _ ?_) _ _
  rw [Core.near_joinGroup]; rfl

theorem State.memoriesWf_dropMembers {s : State} (h : s.memoriesWf = true) (w : WarpRef) (as : List OpenApply) :
    (s.dropMembers w as).memoriesWf = true := by
  unfold State.dropMembers
  grind [State.memoriesWf_modLaunch, State.memoriesWf_foldl, State.memoriesWf_mk]

/-! ### Launches, queues, the management core and the links -/

theorem State.memoriesWf_cardWrite {s : State} (h : s.memoriesWf = true) (t : Nat) (card : Word) {f : State → Nat → State}
    (hf : ∀ (s : State) pa, s.memoriesWf = true → (f s pa).memoriesWf = true) :
    (s.cardWrite t card f).memoriesWf = true := by
  unfold State.cardWrite
  split
  · exact State.memoriesWf_faultRecord h _ _ _ _ _ _
  · exact hf _ _ h

theorem State.memoriesWf_endCard {s : State} (h : s.memoriesWf = true) (t : Nat) (card : Word) (cause : Option Cause) :
    (s.endCard t card cause).memoriesWf = true :=
  State.memoriesWf_cardWrite (State.memoriesWf_cardWrite h t card fun _ _ ht => State.memoriesWf_writeWord ht _ _) t card
    fun _ _ ht => State.memoriesWf_writeWord (State.memoriesWf_writeWord ht _ _) _ _

theorem State.memoriesWf_cardError {s : State} (h : s.memoriesWf = true) (t card kind : Nat) (host : Bool) :
    (s.cardError t card kind host).memoriesWf = true := by
  unfold State.cardError
  grind [State.memoriesWf_modDev, State.memoriesWf_faultRecord, State.memoriesWf_poison, State.memoriesWf_endCard,
    State.memoriesWf_mk]

theorem State.memoriesWf_decrement {s : State} (h : s.memoriesWf = true) (t : Nat) (succ : Word) :
    (s.decrement t succ).memoriesWf = true :=
  State.memoriesWf_cardWrite h t succ fun s pa h => by
    grind [State.memoriesWf_writeWord, State.memoriesWf_keepMarks, State.memoriesWf_enqueueCard, State.memoriesWf_cardError,
      State.memoriesWf_modDev]

theorem State.memoriesWf_endActions {s : State} (h : s.memoriesWf = true) (t card : Nat) (cause : Option Cause) (succ : Word)
    (host : Bool) : (s.endActions t card cause succ host).memoriesWf = true := by
  unfold State.endActions
  grind [State.memoriesWf_modDev, State.memoriesWf_endCard, State.memoriesWf_decrement, State.memoriesWf_mk]

theorem State.memoriesWf_takeBarriers {s : State} (h : s.memoriesWf = true) (id : Nat) (dbm : BitVec 16) :
    (s.takeBarriers id dbm).memoriesWf = true := by
  unfold State.takeBarriers
  grind [State.memoriesWf_modDev, State.memoriesWf_mk]

theorem State.memoriesWf_beginLaunch {s t' : State} {tenant : Nat} {x : Card} {depth : Nat} {ams host : Bool}
    {poster : Option Nat} {members : List (Nat × Nat × Mask)} {v : Nat}
    (e : s.beginLaunch tenant x depth ams host poster members = (v, t')) (h : s.memoriesWf = true) :
    t'.memoriesWf = true := by
  unfold State.beginLaunch at e
  grind [State.memoriesWf_modDev, State.memoriesWf_takeBarriers, State.memoriesWf_mk]

theorem State.memoriesWf_flushHeld {s t' : State} {l : Nat} {xs : List (Nat × HeldAtom)} {x : Bool}
    (e : s.flushHeld l xs = (x, t')) (h : s.memoriesWf = true) : t'.memoriesWf = true := by
  induction xs generalizing s t' x l with
  | nil => cases e; exact h
  | cons y ys ih =>
    unfold State.flushHeld at e
    grind [State.memoriesWf_modCore, State.memoriesWf_perform, State.memoriesWf_tell, Performed.memoriesWf_done,
      Performed.memoriesWf_raised, State.memoriesWf_mk]

theorem State.memoriesWf_deviceFlush {s t' : State} {l : Launch} {x : Bool} (e : s.deviceFlush l = (x, t'))
    (h : s.memoriesWf = true) : t'.memoriesWf = true := by
  unfold State.deviceFlush at e
  grind [State.memoriesWf_flushHeld]

theorem State.memoriesWf_writeBackLaunch {s : State} (h : s.memoriesWf = true) (l : Launch) :
    (s.writeBackLaunch l).memoriesWf = true := by
  unfold State.writeBackLaunch
  grind [State.memoriesWf_writeBackAll, State.memoriesWf_foldl]

theorem State.memoriesWf_releaseGuards {s : State} (h : s.memoriesWf = true) (l : Launch) :
    (s.releaseGuards l).memoriesWf = true := by
  unfold State.releaseGuards
  grind [State.memoriesWf_writeWord, State.memoriesWf_flushSector, State.memoriesWf_syncTell, State.memoriesWf_foldl]

theorem State.memoriesWf_dropLaunchAt {s : State} (h : s.memoriesWf = true) (l c : Nat) :
    (s.dropLaunchAt l c).memoriesWf = true := by
  unfold State.dropLaunchAt
  grind [State.memoriesWf_modCore, State.memoriesWf_leaveSub, Core.near_dropLaunch, State.memoriesWf_foldl]

theorem State.memoriesWf_preemptDone {s : State} (h : s.memoriesWf = true) (t : Nat) (gone : Nat × Nat → Bool) :
    (s.preemptDone t gone).memoriesWf = true := by
  unfold State.preemptDone
  grind [State.memoriesWf_modTenant, State.memoriesWf_modDev, State.memoriesWf_mk]

theorem State.memoriesWf_releaseAll {s : State} (h : s.memoriesWf = true) (l : Launch) :
    (s.releaseAll l).memoriesWf = true := by
  unfold State.releaseAll
  grind [State.memoriesWf_modDev, State.memoriesWf_dropLaunchAt, State.memoriesWf_preemptDone, State.memoriesWf_foldl,
    State.memoriesWf_mk]

theorem State.memoriesWf_report {s : State} (h : s.memoriesWf = true) (l : Launch) (cause : Option Cause) :
    (s.report l cause).memoriesWf = true := by
  unfold State.report
  grind [State.memoriesWf_endActions, State.memoriesWf_foldl]

theorem State.memoriesWf_finish {s : State} (h : s.memoriesWf = true) (l : Launch) : (s.finish l).memoriesWf = true := by
  unfold State.finish
  grind [State.memoriesWf_writeBackLaunch, State.memoriesWf_releaseGuards, State.memoriesWf_releaseAll,
    State.memoriesWf_report]

theorem State.memoriesWf_tryEnd {s : State} (h : s.memoriesWf = true) (l : Launch) : (s.tryEnd l).memoriesWf = true := by
  unfold State.tryEnd
  grind [State.memoriesWf_decide, State.memoriesWf_deviceFlush, State.memoriesWf_finish, Decided.memoriesWf_made,
    Decided.memoriesWf_raised]

theorem State.memoriesWf_takePlace {s : State} (h : s.memoriesWf = true) (c id : Nat) (x : Card) :
    (s.takePlace c id x).memoriesWf = true := by
  unfold State.takePlace
  grind [State.memoriesWf_modCore, State.memoriesWf_modLaunch, Core.near_dropReads, State.memoriesWf_mk]

theorem State.memoriesWf_putUnit {s : State} (h : s.memoriesWf = true) (c id j : Nat) (x : Card) :
    (s.putUnit c id j x).memoriesWf = true := by
  unfold State.putUnit
  grind [State.memoriesWf_modDev, State.memoriesWf_modLaunch, State.memoriesWf_takePlace, State.memoriesWf_mk]

theorem State.memoriesWf_placeUnit {s : State} (h : s.memoriesWf = true) (c : Nat) (q : QItem) (x : Card) :
    (s.placeUnit c q x).MemoriesWf := by
  unfold State.placeUnit
  grind [State.memoriesWf_modDev, State.memoriesWf_decide, State.memoriesWf_beginLaunch, State.memoriesWf_putUnit,
    Decided.memoriesWf_made, Decided.memoriesWf_raised, State.memoriesWf_mk, Decided.MemoriesWf]

theorem State.memoriesWf_tookUnit {s : State} (h : s.memoriesWf = true) (c : Nat) (q : QItem) :
    (s.tookUnit c q).memoriesWf = true := by
  unfold State.tookUnit
  grind [State.memoriesWf_modCore, State.memoriesWf_mk]

theorem State.memoriesWf_countPasses {s : State} (h : s.memoriesWf = true) (cs : List Nat) (c : Nat) :
    (s.countPasses cs c).memoriesWf = true := by
  unfold State.countPasses
  grind [State.memoriesWf_modCore, State.memoriesWf_foldl, State.memoriesWf_mk]

theorem State.memoriesWf_modItem {s : State} (h : s.memoriesWf = true) (id : Nat) (f : QItem → QItem) :
    (s.modItem id f).memoriesWf = true := by
  unfold State.modItem
  grind [State.memoriesWf_modDev, State.memoriesWf_mk]

theorem State.memoriesWf_dropItem {s : State} (h : s.memoriesWf = true) (id : Nat) : (s.dropItem id).memoriesWf = true := by
  unfold State.dropItem
  grind [State.memoriesWf_modDev, State.memoriesWf_mk]

theorem State.memoriesWf_cardWalk {s : State} (h : s.memoriesWf = true) (core t card : Nat) (a : Word) :
    (s.cardWalk core t card a).memoriesWf = true := by
  unfold State.cardWalk
  grind [State.memoriesWf_xlateRecord]

theorem State.memoriesWf_failItem {s : State} (h : s.memoriesWf = true) (q : QItem) (code : Code) (detail : Nat)
    (succ : Word) : (s.failItem q code detail succ).memoriesWf = true := by
  unfold State.failItem
  grind [State.memoriesWf_endActions, State.memoriesWf_dropItem]

theorem State.memoriesWf_heldItem {s : State} (h : s.memoriesWf = true) (q : QItem) (x : Card) :
    (s.heldItem q x).memoriesWf = true := by
  unfold State.heldItem
  grind [State.memoriesWf_modLaunch, State.memoriesWf_beginLaunch, State.memoriesWf_tryEnd, State.memoriesWf_modItem,
    State.memoriesWf_dropItem, State.memoriesWf_cardWalk, State.memoriesWf_failItem, State.memoriesWf_mk]

theorem State.memoriesWf_startMessage {s : State} (h : s.memoriesWf = true) (core : Nat) (m : Message) (x : Card) :
    (s.startMessage core m x).memoriesWf = true := by
  unfold State.startMessage
  grind [State.memoriesWf_modCore, State.memoriesWf_modLaunch, State.memoriesWf_beginLaunch, State.memoriesWf_putUnit,
    State.memoriesWf_mk]

theorem State.memoriesWf_discardMessage {s : State} (h : s.memoriesWf = true) (core i : Nat) (m : Message) (code : Code) :
    (s.discardMessage core i m code).memoriesWf = true := by
  unfold State.discardMessage
  grind [State.memoriesWf_modCore, State.memoriesWf_faultRecord, State.memoriesWf_mk]

theorem State.memoriesWf_readMessage {s : State} (h : s.memoriesWf = true) (core i : Nat) (m : Message) :
    (s.readMessage core i m).memoriesWf = true := by
  unfold State.readMessage
  grind [State.memoriesWf_modCore, State.memoriesWf_cardWalk, State.memoriesWf_discardMessage, State.memoriesWf_mk]

theorem State.memoriesWf_preempt {s : State} (h : s.memoriesWf = true) (core l : Nat) :
    (s.preempt core l).memoriesWf = true := by
  unfold State.preempt
  grind [State.memoriesWf_modCore, State.memoriesWf_mk]

theorem State.memoriesWf_preemptTenant {s : State} (h : s.memoriesWf = true) (t : Nat) (cores : List Nat) :
    (s.preemptTenant t cores).memoriesWf = true := by
  unfold State.preemptTenant
  grind [State.memoriesWf_modTenant, State.memoriesWf_modDev, State.memoriesWf_preempt, State.memoriesWf_foldl,
    State.memoriesWf_mk]

theorem State.memoriesWf_leaveSession {s : State} (h : s.memoriesWf = true) (w : WarpRef) (p : Warp) :
    (s.leaveSession w p).memoriesWf = true := by
  unfold State.leaveSession
  grind [State.memoriesWf_modSession, State.memoriesWf_mk]

theorem State.memoriesWf_haltWarp {s : State} (h : s.memoriesWf = true) (w : WarpRef) (p : Warp) :
    (s.haltWarp w p).memoriesWf = true := by
  unfold State.haltWarp
  grind [State.memoriesWf_modLaunch, State.memoriesWf_modWarp, State.memoriesWf_leaveSession, Core.near_modWarp,
    State.memoriesWf_mk]

theorem State.memoriesWf_endByTime {s : State} (h : s.memoriesWf = true) (core : Nat) (l : Launch) :
    (s.endByTime core l).memoriesWf = true := by
  unfold State.endByTime
  grind [State.memoriesWf_modCore, State.memoriesWf_faultRecord, State.memoriesWf_endLaunch, Core.near_dropPreempt]

theorem State.memoriesWf_clearRegions {s : State} (h : s.memoriesWf = true) (core : Nat) (l : Launch) (ps : List Warp) :
    (s.clearRegions core l ps).memoriesWf = true := by
  unfold State.clearRegions
  grind [State.memoriesWf_nearWrites, State.memoriesWf_setTags, State.memoriesWf_foldl]

theorem State.memoriesWf_saveLaunch {s : State} (h : s.memoriesWf = true) (core : Nat) (l : Launch) (p : Place)
    (size : Nat) : (s.saveLaunch core l p size).memoriesWf = true := by
  unfold State.saveLaunch
  grind [State.memoriesWf_modCore, State.memoriesWf_modDev, State.memoriesWf_modLaunch, State.memoriesWf_preemptDone,
    State.memoriesWf_clearRegions, Core.near_dropPreempt, State.memoriesWf_mk]

theorem State.memoriesWf_writeSaveArea {s : State} (h : s.memoriesWf = true) (t : Nat) :
    (s.writeSaveArea t).memoriesWf = true := by
  unfold State.writeSaveArea
  grind [State.memoriesWf_writeByte, State.memoriesWf_foldl, State.memoriesWf_mk]

theorem State.memoriesWf_restore {s : State} (h : s.memoriesWf = true) (x : SavedLaunch) (l : Launch) :
    (s.restore x l).memoriesWf = true := by
  unfold State.restore
  extract_lets base len ts now s1 s2 s3 ranges reached
  have h2 : s2.memoriesWf = true :=
    State.memoriesWf_modCore (s := s1) h x.core _ fun k hk => Memory.wf_foldl_write _ _ (Memory.wf_filter _ _ hk)
  have h3 : s3.memoriesWf = true := h2
  exact State.memoriesWf_flushAll (State.memoriesWf_of_near (t := { s3 with cores := s3.cores.zipIdx.map reached }) h3 rfl
    (near_of_mem_map_zipIdx fun _ => rfl)) _

theorem State.memoriesWf_firmwareInit {s : State} (h : s.memoriesWf = true) : s.firmwareInit.memoriesWf = true :=
  State.memoriesWf_of_near h rfl (near_of_mem_map_zipIdx fun _ => rfl)

theorem State.memoriesWf_acceptImage {s : State} (h : s.memoriesWf = true) (hash : BitVec 384) :
    (s.acceptImage hash).memoriesWf = true := by
  unfold State.acceptImage
  grind [State.memoriesWf_modDev, State.memoriesWf_firmwareInit, State.memoriesWf_mk]

theorem State.memoriesWf_rejectImage {s : State} (h : s.memoriesWf = true) : (s.rejectImage).memoriesWf = true := by
  unfold State.rejectImage
  grind [State.memoriesWf_modDev, State.memoriesWf_mk]

theorem State.memoriesWf_verify {s : State} (h : s.memoriesWf = true) : (s.verify).memoriesWf = true := by
  unfold State.verify
  grind [State.memoriesWf_drawn, State.memoriesWf_acceptImage, State.memoriesWf_rejectImage]

theorem State.memoriesWf_acceptService {s : State} (h : s.memoriesWf = true) (cmd arg : Nat) (fail : BitVec 8) :
    (s.acceptService cmd arg fail).memoriesWf = true := by
  unfold State.acceptService
  grind [State.memoriesWf_modDev, State.memoriesWf_mk]

theorem State.memoriesWf_moveBlock {s : State} (h : s.memoriesWf = true) (b : Nat) : (s.moveBlock b).memoriesWf = true := by
  unfold State.moveBlock
  grind [State.memoriesWf_modDev, State.memoriesWf_writeBytes, State.memoriesWf_mk]

theorem State.memoriesWf_endService {s : State} (h : s.memoriesWf = true) (v : Service) :
    (s.endService v).memoriesWf = true := by
  unfold State.endService
  grind [State.memoriesWf_modCore, State.memoriesWf_modDev, State.memoriesWf_pump, State.memoriesWf_moveBlock,
    State.memoriesWf_mk]

theorem State.memoriesWf_invalidate {s : State} (h : s.memoriesWf = true) (tenant : Nat) (v : Word) (inv : Option Nat) :
    (s.invalidate tenant v inv).memoriesWf = true := by
  unfold State.invalidate
  grind [State.memoriesWf_modTenant, State.memoriesWf_mk]

theorem State.memoriesWf_noteHead {s : State} (h : s.memoriesWf = true) (t : Nat) (was : Tenant) :
    (s.noteHead t was).memoriesWf = true := by
  unfold State.noteHead
  grind [State.memoriesWf_modDev, State.memoriesWf_mk]

theorem State.memoriesWf_linkAnswer {s t' : State} {p x : Port} (e : s.linkAnswer p = (x, t')) (h : s.memoriesWf = true) :
    t'.memoriesWf = true := by
  unfold State.linkAnswer at e
  grind [State.memoriesWf_drawBit, State.memoriesWf_drawNat, State.memoriesWf_mk]

theorem State.memoriesWf_ackOldest {s : State} (h : s.memoriesWf = true) : (s.ackOldest).memoriesWf = true := by
  unfold State.ackOldest
  grind [State.memoriesWf_modDev, State.memoriesWf_drawBit, State.memoriesWf_mk]

/-! ### Meanings of instructions and events -/

theorem State.memoriesWf_issue {s t : State} {i : Instr} {f : State → Ctx → Issue} (e : s.issue i f = .next t)
    (h : s.memoriesWf = true) (hf : ∀ (s : State) (c : Ctx), s.memoriesWf = true → (f s c).MemoriesWf) :
    t.memoriesWf = true := by
  unfold State.issue at e
  split at e
  · cases e
  · next w _ =>
    split at e
    · cases e
    · next c _ =>
      have hi := hf s c h
      split at e
      · split at e
        all_goals
          next hs =>
            cases e
            rw [hs] at hi
            grind [Issue.MemoriesWf, State.memoriesWf_modWarp, State.memoriesWf_takeTrap, State.memoriesWf_mk]
      · cases e
        exact State.memoriesWf_takeTrap h _ _

theorem State.memoriesWf_issueAtom {s t : State} {i : Instr} {op : AtomOp} {o : Opnds} {scope : BitVec 3} {w : BitVec 1}
    (e : s.issueAtom i op o scope w = .next t) (h : s.memoriesWf = true) : t.memoriesWf = true := by
  refine State.memoriesWf_issue e h fun s c h => ?_
  grind [Ctx.memoriesWf_onLanes, State.memoriesWf_atomLanes, State.memoriesWf_freshId, Issue.MemoriesWf]

theorem State.memoriesWf_issueBind {s t : State} {i : Instr} {add : Bool} {a b cc : BitVec 5}
    (e : s.issueBind i add a b cc = .next t) (h : s.memoriesWf = true) : t.memoriesWf = true := by
  refine State.memoriesWf_issue e h fun s c h => ?_
  dsimp only
  repeat' split
  all_goals simp [Issue.MemoriesWf, h]

theorem State.memoriesWf_issueFuture {s t : State} {i : Instr} {k : BitVec 3} {a x : BitVec 5} {scope : BitVec 3}
    {uses : List (BitVec 5)} {val : Ctx → Nat → Option Word} (e : s.issueFuture i k a x scope uses val = .next t)
    (h : s.memoriesWf = true) : t.memoriesWf = true := by
  refine State.memoriesWf_issue e h fun s c h => ?_
  grind [Ctx.memoriesWf_onLanes, State.memoriesWf_locateWrites, State.memoriesWf_freshId, Issue.MemoriesWf]

theorem State.memoriesWf_issuePost {s t : State} {i : Instr} {d a : BitVec 5} {q dir : BitVec 2} {spawn : Bool}
    (e : s.issuePost i d a q dir spawn = .next t) (h : s.memoriesWf = true) : t.memoriesWf = true := by
  refine State.memoriesWf_issue e h fun s c h => ?_
  grind [State.memoriesWf_translate, State.memoriesWf_freshId, Issue.MemoriesWf]

theorem memoriesWf_execKtestInt {k : BitVec 3} {d a b : BitVec 5} {ity cc : BitVec 3} {all : BitVec 1} {kf : BitVec 3}
    {s t' : State} (e : execKtestInt k d a b ity cc all kf s = .next t') (h : s.memoriesWf = true) :
    t'.memoriesWf = true := by
  refine State.memoriesWf_issue e h fun s c h => ?_
  grind [Ctx.memoriesWf_test, Issue.MemoriesWf]

theorem memoriesWf_execKtestFloat {k : BitVec 3} {d a b : BitVec 5} {ty : BitVec 2} {fc : BitVec 3} {ftz all : BitVec 1}
    {kf : BitVec 3} {s t' : State} (e : execKtestFloat k d a b ty fc ftz all kf s = .next t') (h : s.memoriesWf = true) :
    t'.memoriesWf = true := by
  refine State.memoriesWf_issue e h fun s c h => ?_
  grind [Ctx.memoriesWf_test, State.memoriesWf_foldl, Issue.MemoriesWf]

theorem memoriesWf_execKand {d a b : BitVec 5} {s t' : State} (e : execKand d a b s = .next t') (h : s.memoriesWf = true) :
    t'.memoriesWf = true := by
  refine State.memoriesWf_issue e h fun s c h => ?_
  grind [Ctx.memoriesWf_algebra, Issue.MemoriesWf]

theorem memoriesWf_execKor {d a b : BitVec 5} {s t' : State} (e : execKor d a b s = .next t') (h : s.memoriesWf = true) :
    t'.memoriesWf = true := by
  refine State.memoriesWf_issue e h fun s c h => ?_
  grind [Ctx.memoriesWf_algebra, Issue.MemoriesWf]

theorem memoriesWf_execKdiff {d a b : BitVec 5} {s t' : State} (e : execKdiff d a b s = .next t') (h : s.memoriesWf = true) :
    t'.memoriesWf = true := by
  refine State.memoriesWf_issue e h fun s c h => ?_
  grind [Ctx.memoriesWf_algebra, Issue.MemoriesWf]

theorem memoriesWf_execKcount {k : BitVec 3} {d a : BitVec 5} {s t' : State} (e : execKcount k d a s = .next t')
    (h : s.memoriesWf = true) : t'.memoriesWf = true := by
  refine State.memoriesWf_issue e h fun s c h => ?_
  grind [Ctx.memoriesWf_ofMembers, Issue.MemoriesWf]

theorem memoriesWf_execKfirst {k : BitVec 3} {d a b x : BitVec 5} {s t' : State} (e : execKfirst k d a b x s = .next t')
    (h : s.memoriesWf = true) : t'.memoriesWf = true := by
  refine State.memoriesWf_issue e h fun s c h => ?_
  grind [Ctx.memoriesWf_ofMembers, Issue.MemoriesWf]

theorem memoriesWf_execKmakeV {d a : BitVec 5} {s t' : State} (e : execKmakeV d a s = .next t') (h : s.memoriesWf = true) :
    t'.memoriesWf = true := by
  refine State.memoriesWf_issue e h fun s c h => ?_
  grind [Core.near_seenFor, Issue.MemoriesWf]

theorem memoriesWf_execKmakeM {d a : BitVec 5} {s t' : State} (e : execKmakeM d a s = .next t') (h : s.memoriesWf = true) :
    t'.memoriesWf = true := by
  refine State.memoriesWf_issue e h fun s c h => ?_
  grind [Issue.MemoriesWf]

theorem memoriesWf_execKself {d : BitVec 5} {s t' : State} (e : execKself d s = .next t') (h : s.memoriesWf = true) :
    t'.memoriesWf = true := by
  refine State.memoriesWf_issue e h fun s c h => ?_
  grind [Issue.MemoriesWf]

theorem memoriesWf_execKld {d a b x : BitVec 5} {s t' : State} (e : execKld d a b x s = .next t') (h : s.memoriesWf = true) :
    t'.memoriesWf = true := by
  refine State.memoriesWf_issue e h fun s c h => ?_
  grind [State.memoriesWf_freshId, State.memoriesWf_locate, State.memoriesWf_takeReqs, State.memoriesWf_plainRead,
    Issue.MemoriesWf]

theorem memoriesWf_execKst {d a b x : BitVec 5} {s t' : State} (e : execKst d a b x s = .next t') (h : s.memoriesWf = true) :
    t'.memoriesWf = true := by
  refine State.memoriesWf_issue e h fun s c h => ?_
  grind [State.memoriesWf_freshId, State.memoriesWf_plainWrite, State.memoriesWf_locate, Issue.MemoriesWf]

theorem memoriesWf_execKmerge {d a : BitVec 5} {s t' : State} (e : execKmerge d a s = .next t') (h : s.memoriesWf = true) :
    t'.memoriesWf = true := by
  refine State.memoriesWf_issue e h fun s c h => ?_
  grind [State.memoriesWf_freshId, State.memoriesWf_objSpans, State.memoriesWf_resolve, Ctx.memoriesWf_resolve,
    Issue.MemoriesWf]

theorem memoriesWf_execKfree {d : BitVec 5} {s t' : State} (e : execKfree d s = .next t') (h : s.memoriesWf = true) :
    t'.memoriesWf = true := by
  refine State.memoriesWf_issue e h fun s c h => ?_
  grind [Core.near_seenFor, Issue.MemoriesWf]

theorem memoriesWf_execKqpush {d a b : BitVec 5} {s t' : State} (e : execKqpush d a b s = .next t')
    (h : s.memoriesWf = true) : t'.memoriesWf = true := by
  refine State.memoriesWf_issue e h fun s c h => ?_
  grind [State.memoriesWf_freshId, Ctx.memoriesWf_queue, Issue.memoriesWf_go, Issue.MemoriesWf]

theorem memoriesWf_execKqpop {d a : BitVec 5} {s t' : State} (e : execKqpop d a s = .next t') (h : s.memoriesWf = true) :
    t'.memoriesWf = true := by
  refine State.memoriesWf_issue e h fun s c h => ?_
  grind [State.memoriesWf_freshId, Ctx.memoriesWf_queue, Issue.memoriesWf_go, Issue.MemoriesWf]

theorem memoriesWf_execGmake {k : BitVec 3} {d : BitVec 5} {s t' : State} (e : execGmake k d s = .next t')
    (h : s.memoriesWf = true) : t'.memoriesWf = true := by
  refine State.memoriesWf_issue e h fun s c h => ?_
  grind [State.memoriesWf_mk, Issue.MemoriesWf]

theorem memoriesWf_execJoin {k : BitVec 3} {a : BitVec 5} {s t' : State} (e : execJoin k a s = .next t')
    (h : s.memoriesWf = true) : t'.memoriesWf = true := by
  refine State.memoriesWf_issue e h fun s c h => ?_
  grind [Ctx.memoriesWf_changeGroup, Issue.MemoriesWf]

theorem memoriesWf_execLeave {k : BitVec 3} {a : BitVec 5} {s t' : State} (e : execLeave k a s = .next t')
    (h : s.memoriesWf = true) : t'.memoriesWf = true := by
  refine State.memoriesWf_issue e h fun s c h => ?_
  grind [Ctx.memoriesWf_changeGroup, Issue.MemoriesWf]

theorem memoriesWf_execGdis {a : BitVec 5} {s t' : State} (e : execGdis a s = .next t') (h : s.memoriesWf = true) :
    t'.memoriesWf = true := by
  refine State.memoriesWf_issue e h fun s c h => ?_
  grind [Core.near_dissolve, Issue.MemoriesWf]

theorem memoriesWf_execApplyS {k : BitVec 3} {off : BitVec 18} {s t' : State} (e : execApplyS k off s = .next t')
    (h : s.memoriesWf = true) : t'.memoriesWf = true := by
  refine State.memoriesWf_issue e h fun s c h => ?_
  grind [Ctx.memoriesWf_apply, Issue.MemoriesWf]

theorem memoriesWf_execApplyR {k : BitVec 3} {off : BitVec 18} {b0 b1 : BitVec 4} {s t' : State}
    (e : execApplyR k off b0 b1 s = .next t') (h : s.memoriesWf = true) : t'.memoriesWf = true := by
  refine State.memoriesWf_issue e h fun s c h => ?_
  grind [Ctx.memoriesWf_apply, Issue.MemoriesWf]

theorem memoriesWf_execEnda {s t' : State} (e : execEnda s = .next t') (h : s.memoriesWf = true) : t'.memoriesWf = true := by
  refine State.memoriesWf_issue e h fun s c h => ?_
  grind [Issue.MemoriesWf]

theorem memoriesWf_execApplyWarpCreation {core : Nat} {s t' : State} (e : execApplyWarpCreation core s = .next t')
    (h : s.memoriesWf = true) : t'.memoriesWf = true := by
  unfold execApplyWarpCreation at e
  grind [State.memoriesWf_drawn, State.memoriesWf_modSession, State.memoriesWf_addWarp, State.memoriesWf_foldl,
    State.memoriesWf_mk]

theorem memoriesWf_execSysrd {k : BitVec 3} {d : BitVec 5} {num : BitVec 10} {s t' : State}
    (e : execSysrd k d num s = .next t') (h : s.memoriesWf = true) : t'.memoriesWf = true := by
  refine State.memoriesWf_issue e h fun s c h => ?_
  grind [Ctx.memoriesWf_pure, Issue.MemoriesWf]

theorem memoriesWf_execSyswr {a : BitVec 5} {num : BitVec 10} {s t' : State} (e : execSyswr a num s = .next t')
    (h : s.memoriesWf = true) : t'.memoriesWf = true := by
  refine State.memoriesWf_issue e h fun s c h => ?_
  grind [Issue.MemoriesWf]

theorem memoriesWf_execTrap {imm : BitVec 10} {s t' : State} (e : execTrap imm s = .next t') (h : s.memoriesWf = true) :
    t'.memoriesWf = true := by
  refine State.memoriesWf_issue e h fun s c h => ?_
  grind [Issue.MemoriesWf]

theorem memoriesWf_execBrk {imm : BitVec 10} {s t' : State} (e : execBrk imm s = .next t') (h : s.memoriesWf = true) :
    t'.memoriesWf = true := by
  refine State.memoriesWf_issue e h fun s c h => ?_
  grind [Issue.MemoriesWf]

theorem memoriesWf_execTret {e : BitVec 1} {s t' : State} (e : execTret e s = .next t') (h : s.memoriesWf = true) :
    t'.memoriesWf = true := by
  refine State.memoriesWf_issue e h fun s c h => ?_
  grind [Issue.MemoriesWf]

theorem memoriesWf_execLmark {imm : BitVec 10} {s t' : State} (e : execLmark imm s = .next t') (h : s.memoriesWf = true) :
    t'.memoriesWf = true := by
  refine State.memoriesWf_issue e h fun s c h => ?_
  grind [Issue.MemoriesWf]

theorem memoriesWf_execPpoint {mask : BitVec 16} {s t' : State} (e : execPpoint mask s = .next t')
    (h : s.memoriesWf = true) : t'.memoriesWf = true := by
  refine State.memoriesWf_issue e h fun s c h => ?_
  grind [Issue.MemoriesWf]

theorem memoriesWf_execIdb {a b : BitVec 5} {s t' : State} (e : execIdb a b s = .next t') (h : s.memoriesWf = true) :
    t'.memoriesWf = true := by
  refine State.memoriesWf_issue e h fun s c h => ?_
  grind [Issue.MemoriesWf]

theorem memoriesWf_execIde {s t' : State} (e : execIde s = .next t') (h : s.memoriesWf = true) : t'.memoriesWf = true := by
  refine State.memoriesWf_issue e h fun s c h => ?_
  grind [Issue.MemoriesWf]

theorem memoriesWf_execNop {s t' : State} (e : execNop s = .next t') (h : s.memoriesWf = true) : t'.memoriesWf = true := by
  refine State.memoriesWf_issue e h fun s c h => ?_
  grind [Issue.MemoriesWf]

theorem memoriesWf_execBra {off : BitVec 26} {s t' : State} (e : execBra off s = .next t') (h : s.memoriesWf = true) :
    t'.memoriesWf = true := by
  refine State.memoriesWf_issue e h fun s c h => ?_
  grind [Issue.MemoriesWf]

theorem memoriesWf_execBre {k : BitVec 3} {off : BitVec 26} {s t' : State} (e : execBre k off s = .next t')
    (h : s.memoriesWf = true) : t'.memoriesWf = true := by
  refine State.memoriesWf_issue e h fun s c h => ?_
  grind [Ctx.memoriesWf_branch, Issue.MemoriesWf]

theorem memoriesWf_execBrn {k : BitVec 3} {off : BitVec 26} {s t' : State} (e : execBrn k off s = .next t')
    (h : s.memoriesWf = true) : t'.memoriesWf = true := by
  refine State.memoriesWf_issue e h fun s c h => ?_
  grind [Ctx.memoriesWf_branch, Issue.MemoriesWf]

theorem memoriesWf_execBrx {k : BitVec 3} {a x : BitVec 5} {s t' : State} (e : execBrx k a x s = .next t')
    (h : s.memoriesWf = true) : t'.memoriesWf = true := by
  refine State.memoriesWf_issue e h fun s c h => ?_
  grind [Ctx.memoriesWf_indirect, Issue.MemoriesWf]

theorem memoriesWf_execRet {k : BitVec 3} {a x : BitVec 5} {s t' : State} (e : execRet k a x s = .next t')
    (h : s.memoriesWf = true) : t'.memoriesWf = true := by
  refine State.memoriesWf_issue e h fun s c h => ?_
  grind [Ctx.memoriesWf_indirect, Issue.MemoriesWf]

theorem memoriesWf_execCall {k : BitVec 3} {off : BitVec 26} {s t' : State} (e : execCall k off s = .next t')
    (h : s.memoriesWf = true) : t'.memoriesWf = true := by
  refine State.memoriesWf_issue e h fun s c h => ?_
  grind [Issue.MemoriesWf]

theorem memoriesWf_execLoop {k : BitVec 3} {d : BitVec 5} {off : BitVec 16} {s t' : State}
    (e : execLoop k d off s = .next t') (h : s.memoriesWf = true) : t'.memoriesWf = true := by
  refine State.memoriesWf_issue e h fun s c h => ?_
  grind [State.memoriesWf_mk, Issue.MemoriesWf]

theorem memoriesWf_execExit {k : BitVec 3} {s t' : State} (e : execExit k s = .next t') (h : s.memoriesWf = true) :
    t'.memoriesWf = true := by
  refine State.memoriesWf_issue e h fun s c h => ?_
  grind [Issue.MemoriesWf]

theorem memoriesWf_execYield {s t' : State} (e : execYield s = .next t') (h : s.memoriesWf = true) :
    t'.memoriesWf = true := by
  refine State.memoriesWf_issue e h fun s c h => ?_
  grind [Issue.MemoriesWf]

theorem memoriesWf_execIcinv {a b x : BitVec 5} {scope : BitVec 2} {s t' : State} (e : execIcinv a b x scope s = .next t')
    (h : s.memoriesWf = true) : t'.memoriesWf = true := by
  refine State.memoriesWf_issue e h fun s c h => ?_
  grind [Issue.MemoriesWf]

theorem memoriesWf_execClaim {n : BitVec 16} {s t' : State} (e : execClaim n s = .next t') (h : s.memoriesWf = true) :
    t'.memoriesWf = true := by
  refine State.memoriesWf_issue e h fun s c h => ?_
  grind [Issue.MemoriesWf]

theorem memoriesWf_execGive {n : BitVec 16} {s t' : State} (e : execGive n s = .next t') (h : s.memoriesWf = true) :
    t'.memoriesWf = true := by
  refine State.memoriesWf_issue e h fun s c h => ?_
  grind [Issue.MemoriesWf]

theorem memoriesWf_execTall {g : BitVec 2} {mask : BitVec 16} {s t' : State} (e : execTall g mask s = .next t')
    (h : s.memoriesWf = true) : t'.memoriesWf = true := by
  refine State.memoriesWf_issue e h fun s c h => ?_
  grind [Issue.MemoriesWf]

theorem memoriesWf_execTany {g : BitVec 2} {mask : BitVec 16} {s t' : State} (e : execTany g mask s = .next t')
    (h : s.memoriesWf = true) : t'.memoriesWf = true := by
  refine State.memoriesWf_issue e h fun s c h => ?_
  grind [Issue.MemoriesWf]

theorem memoriesWf_execTffr {k : BitVec 3} {d a : BitVec 5} {s t' : State} (e : execTffr k d a s = .next t')
    (h : s.memoriesWf = true) : t'.memoriesWf = true := by
  refine State.memoriesWf_issue e h fun s c h => ?_
  grind [Issue.MemoriesWf]

theorem memoriesWf_execCpy {k : BitVec 3} {d a b : BitVec 5} {t : BitVec 6} {dir : BitVec 2} {s t' : State}
    (e : execCpy k d a b t dir s = .next t') (h : s.memoriesWf = true) : t'.memoriesWf = true := by
  refine State.memoriesWf_issue e h fun s c h => ?_
  grind [Ctx.memoriesWf_engine, Ctx.memoriesWf_copy, Issue.MemoriesWf]

theorem memoriesWf_execCpym {k : BitVec 3} {d a b : BitVec 5} {t : BitVec 6} {pmask : BitVec 4} {s t' : State}
    (e : execCpym k d a b t pmask s = .next t') (h : s.memoriesWf = true) : t'.memoriesWf = true := by
  refine State.memoriesWf_issue e h fun s c h => ?_
  grind [Ctx.memoriesWf_engine, Ctx.memoriesWf_copy, Issue.MemoriesWf]

theorem memoriesWf_execMloop {k : BitVec 3} {d : BitVec 5} {t : BitVec 4} {zs ftz mx : BitVec 1} {fmt : BitVec 3}
    {s t' : State} (e : execMloop k d t zs ftz mx fmt s = .next t') (h : s.memoriesWf = true) : t'.memoriesWf = true := by
  refine State.memoriesWf_issue e h fun s c h => ?_
  grind [Ctx.memoriesWf_engine, Issue.memoriesWf_go, Issue.memoriesWf_trap, Issue.MemoriesWf]

theorem memoriesWf_execMzero {k : BitVec 3} {t : BitVec 4} {s t' : State} (e : execMzero k t s = .next t')
    (h : s.memoriesWf = true) : t'.memoriesWf = true := by
  refine State.memoriesWf_issue e h fun s c h => ?_
  grind [Ctx.memoriesWf_engine, Issue.memoriesWf_go, Issue.memoriesWf_trap, Issue.MemoriesWf]

theorem memoriesWf_execMrdN {k : BitVec 3} {d : BitVec 5} {t : BitVec 4} {bf e : BitVec 1} {s t' : State}
    (e : execMrdN k d t bf e s = .next t') (h : s.memoriesWf = true) : t'.memoriesWf = true := by
  refine State.memoriesWf_issue e h fun s c h => ?_
  grind [Ctx.memoriesWf_engine, Issue.memoriesWf_go, Issue.memoriesWf_trap, Issue.MemoriesWf]

theorem memoriesWf_execMrdW {k : BitVec 3} {d a : BitVec 5} {t : BitVec 4} {e : BitVec 1} {la : BitVec 4} {s t' : State}
    (e : execMrdW k d a t e la s = .next t') (h : s.memoriesWf = true) : t'.memoriesWf = true := by
  refine State.memoriesWf_issue e h fun s c h => ?_
  grind [State.memoriesWf_freshId, Ctx.memoriesWf_engine, Issue.memoriesWf_go, Issue.memoriesWf_trap, Issue.MemoriesWf]

theorem memoriesWf_execMwrN {k : BitVec 3} {d : BitVec 5} {t : BitVec 4} {s t' : State} (e : execMwrN k d t s = .next t')
    (h : s.memoriesWf = true) : t'.memoriesWf = true := by
  refine State.memoriesWf_issue e h fun s c h => ?_
  grind [Ctx.memoriesWf_engine, Issue.memoriesWf_go, Issue.memoriesWf_trap, Issue.MemoriesWf]

theorem memoriesWf_execMwrW {k : BitVec 3} {d a : BitVec 5} {t : BitVec 4} {s t' : State} (e : execMwrW k d a t s = .next t')
    (h : s.memoriesWf = true) : t'.memoriesWf = true := by
  refine State.memoriesWf_issue e h fun s c h => ?_
  grind [Ctx.memoriesWf_engine, Issue.memoriesWf_go, Issue.memoriesWf_trap, Issue.MemoriesWf]

theorem memoriesWf_execLacfg {k : BitVec 3} {a : BitVec 5} {s t' : State} (e : execLacfg k a s = .next t')
    (h : s.memoriesWf = true) : t'.memoriesWf = true := by
  refine State.memoriesWf_issue e h fun s c h => ?_
  grind [Ctx.memoriesWf_array, Ctx.memoriesWf_sendIf, Issue.MemoriesWf]

theorem memoriesWf_execLaseed {k : BitVec 3} {a b : BitVec 5} {s t' : State} (e : execLaseed k a b s = .next t')
    (h : s.memoriesWf = true) : t'.memoriesWf = true := by
  refine State.memoriesWf_issue e h fun s c h => ?_
  grind [Ctx.memoriesWf_array, Ctx.memoriesWf_sendIf, Issue.MemoriesWf]

theorem memoriesWf_execLainfN {k : BitVec 3} {d a b : BitVec 5} {after : BitVec 1} {s t' : State}
    (e : execLainfN k d a b after s = .next t') (h : s.memoriesWf = true) : t'.memoriesWf = true := by
  refine State.memoriesWf_issue e h fun s c h => ?_
  grind [Ctx.memoriesWf_array, Ctx.memoriesWf_sendIf, Issue.memoriesWf_trap, Issue.MemoriesWf]

theorem memoriesWf_execLainfW {k : BitVec 3} {d a : BitVec 5} {after : BitVec 1} {la : BitVec 4} {s t' : State}
    (e : execLainfW k d a after la s = .next t') (h : s.memoriesWf = true) : t'.memoriesWf = true := by
  refine State.memoriesWf_issue e h fun s c h => ?_
  grind [State.memoriesWf_freshId, State.memoriesWf_drawSwitches, Ctx.memoriesWf_array, Issue.memoriesWf_go,
    Issue.memoriesWf_trap, Issue.MemoriesWf]

theorem memoriesWf_execLafb {k : BitVec 3} {a b : BitVec 5} {p : BitVec 1} {s t' : State} (e : execLafb k a b p s = .next t')
    (h : s.memoriesWf = true) : t'.memoriesWf = true := by
  refine State.memoriesWf_issue e h fun s c h => ?_
  grind [Ctx.memoriesWf_array, Ctx.memoriesWf_sendIf, Issue.memoriesWf_trap, Issue.MemoriesWf]

theorem memoriesWf_execLardN {k : BitVec 3} {d a b : BitVec 5} {inc after : BitVec 1} {s t' : State}
    (e : execLardN k d a b inc after s = .next t') (h : s.memoriesWf = true) : t'.memoriesWf = true := by
  refine State.memoriesWf_issue e h fun s c h => ?_
  grind [Ctx.memoriesWf_array, Ctx.memoriesWf_sendIf, Issue.memoriesWf_trap, Issue.MemoriesWf]

theorem memoriesWf_execLardW {k : BitVec 3} {d a : BitVec 5} {after : BitVec 1} {la : BitVec 4} {s t' : State}
    (e : execLardW k d a after la s = .next t') (h : s.memoriesWf = true) : t'.memoriesWf = true := by
  refine State.memoriesWf_issue e h fun s c h => ?_
  grind [State.memoriesWf_freshId, State.memoriesWf_drawSwitches, Ctx.memoriesWf_array, Issue.memoriesWf_go,
    Issue.memoriesWf_trap, Issue.MemoriesWf]

theorem memoriesWf_execLawrN {k : BitVec 3} {d a b : BitVec 5} {s t' : State} (e : execLawrN k d a b s = .next t')
    (h : s.memoriesWf = true) : t'.memoriesWf = true := by
  refine State.memoriesWf_issue e h fun s c h => ?_
  grind [Ctx.memoriesWf_array, Ctx.memoriesWf_sendIf, Issue.memoriesWf_trap, Issue.MemoriesWf]

theorem memoriesWf_execLawrW {k : BitVec 3} {d a : BitVec 5} {s t' : State} (e : execLawrW k d a s = .next t')
    (h : s.memoriesWf = true) : t'.memoriesWf = true := by
  refine State.memoriesWf_issue e h fun s c h => ?_
  grind [Ctx.memoriesWf_array, Issue.memoriesWf_go, Issue.memoriesWf_trap, Issue.MemoriesWf]

theorem memoriesWf_execSfq {k : BitVec 3} {d a b : BitVec 5} {ty : BitVec 2} {fn : BitVec 4} {ftz : BitVec 1} {s t' : State}
    (e : execSfq k d a b ty fn ftz s = .next t') (h : s.memoriesWf = true) : t'.memoriesWf = true := by
  refine State.memoriesWf_issue e h fun s c h => ?_
  grind [State.memoriesWf_mk, Issue.MemoriesWf]

theorem memoriesWf_execSfw {mask : BitVec 16} {s t' : State} (e : execSfw mask s = .next t') (h : s.memoriesWf = true) :
    t'.memoriesWf = true := by
  refine State.memoriesWf_issue e h fun s c h => ?_
  grind [Issue.MemoriesWf]

theorem memoriesWf_execSfqCompletion {w : WarpRef} {token : Nat} {s t' : State} (e : execSfqCompletion w token s = .next t')
    (h : s.memoriesWf = true) : t'.memoriesWf = true := by
  unfold execSfqCompletion at e
  grind [State.memoriesWf_modWarp, Core.near_modWarp, State.memoriesWf_foldl, State.memoriesWf_mk]

theorem memoriesWf_execInstructionFetch {w : WarpRef} {s t' : State} (e : execInstructionFetch w s = .next t')
    (h : s.memoriesWf = true) : t'.memoriesWf = true := by
  unfold execInstructionFetch at e
  repeat' split at e
  all_goals grind [State.memoriesWf_modWarp, State.memoriesWf_takeTrap, State.memoriesWf_fetchRun, State.memoriesWf_mk]

theorem memoriesWf_execRunHeader {w : WarpRef} {s t' : State} (e : execRunHeader w s = .next t') (h : s.memoriesWf = true) :
    t'.memoriesWf = true := by
  unfold execRunHeader at e
  grind [State.memoriesWf_modWarp, State.memoriesWf_takeTrap, State.memoriesWf_header, Core.near_modWarp,
    Issue.memoriesWf_go, Issue.memoriesWf_trap, Issue.memoriesWf_raised, State.memoriesWf_mk]

theorem memoriesWf_execSwsub {k : BitVec 3} {d a : BitVec 5} {s t' : State} (e : execSwsub k d a s = .next t')
    (h : s.memoriesWf = true) : t'.memoriesWf = true := by
  refine State.memoriesWf_issue e h fun s c h => ?_
  grind [State.memoriesWf_drawn, State.memoriesWf_translate, Ctx.memoriesWf_engine, Issue.memoriesWf_go,
    Issue.memoriesWf_trap, State.memoriesWf_mk, Issue.MemoriesWf]

theorem memoriesWf_execSwleave {k : BitVec 3} {a : BitVec 5} {s t' : State} (e : execSwleave k a s = .next t')
    (h : s.memoriesWf = true) : t'.memoriesWf = true := by
  refine State.memoriesWf_issue e h fun s c h => ?_
  grind [Ctx.memoriesWf_engine, Issue.memoriesWf_go, Issue.memoriesWf_trap, Issue.MemoriesWf]

theorem memoriesWf_execSwgo {k : BitVec 3} {a : BitVec 5} {sid : BitVec 4} {dh : BitVec 1} {s t' : State}
    (e : execSwgo k a sid dh s = .next t') (h : s.memoriesWf = true) : t'.memoriesWf = true := by
  refine State.memoriesWf_issue e h fun s c h => ?_
  grind [State.memoriesWf_translate, Ctx.memoriesWf_engine, Issue.memoriesWf_go, Issue.memoriesWf_trap, Issue.MemoriesWf]

theorem memoriesWf_execSwrd {k : BitVec 3} {d a : BitVec 5} {mm : BitVec 2} {s t' : State}
    (e : execSwrd k d a mm s = .next t') (h : s.memoriesWf = true) : t'.memoriesWf = true := by
  refine State.memoriesWf_issue e h fun s c h => ?_
  grind [Ctx.memoriesWf_engine, Ctx.memoriesWf_sendIf, Issue.memoriesWf_trap, Issue.MemoriesWf]

theorem memoriesWf_execSwmerge {k : BitVec 3} {d a b : BitVec 5} {s t' : State} (e : execSwmerge k d a b s = .next t')
    (h : s.memoriesWf = true) : t'.memoriesWf = true := by
  refine State.memoriesWf_issue e h fun s c h => ?_
  grind [Ctx.memoriesWf_engine, Ctx.memoriesWf_sendIf, Issue.memoriesWf_trap, Issue.MemoriesWf]

theorem memoriesWf_execSwwait {a : BitVec 5} {s t' : State} (e : execSwwait a s = .next t') (h : s.memoriesWf = true) :
    t'.memoriesWf = true := by
  refine State.memoriesWf_issue e h fun s c h => ?_
  grind [Issue.MemoriesWf]

theorem memoriesWf_execSweepPageFetch {die idx : Nat} {s t' : State} (e : execSweepPageFetch die idx s = .next t')
    (h : s.memoriesWf = true) : t'.memoriesWf = true := by
  unfold execSweepPageFetch at e
  grind [State.memoriesWf_sweepStep]

theorem memoriesWf_execPageDelivery {die idx : Nat} {s t' : State} (e : execPageDelivery die idx s = .next t')
    (h : s.memoriesWf = true) : t'.memoriesWf = true := by
  unfold execPageDelivery at e
  grind [State.memoriesWf_modDie, State.memoriesWf_settleSweeps, State.memoriesWf_deliver, State.memoriesWf_mk]

theorem memoriesWf_execSweepHandlerCreation {core : Nat} {s t' : State} (e : execSweepHandlerCreation core s = .next t')
    (h : s.memoriesWf = true) : t'.memoriesWf = true := by
  unfold execSweepHandlerCreation at e
  grind [State.memoriesWf_modCore, State.memoriesWf_drawn, State.memoriesWf_hears, State.memoriesWf_addWarp,
    State.memoriesWf_foldl, State.memoriesWf_mk]

theorem memoriesWf_execEngineCommandStart {core id : Nat} {s t' : State} (e : execEngineCommandStart core id s = .next t')
    (h : s.memoriesWf = true) : t'.memoriesWf = true := by
  unfold execEngineCommandStart at e
  grind [State.memoriesWf_noteWrites, State.memoriesWf_performCmd, State.memoriesWf_noteFetch, State.memoriesWf_modCmd,
    State.memoriesWf_poison, State.memoriesWf_mk]

theorem memoriesWf_execEngineCommandCompletion {core id : Nat} {s t' : State}
    (e : execEngineCommandCompletion core id s = .next t') (h : s.memoriesWf = true) : t'.memoriesWf = true := by
  unfold execEngineCommandCompletion at e
  grind [State.memoriesWf_modCore, State.memoriesWf_modWarp, State.memoriesWf_endLaunch, State.memoriesWf_peerFault,
    State.memoriesWf_closeCopy, HeldStep.memoriesWf_peerFault, State.memoriesWf_poison, Core.near_modWarp,
    State.memoriesWf_mk]

theorem memoriesWf_execLd {o : Opnds} {sz : BitVec 3} {cp : BitVec 2} {la : BitVec 4} {s t' : State}
    (e : execLd o sz cp la s = .next t') (h : s.memoriesWf = true) : t'.memoriesWf = true := by
  refine State.memoriesWf_issue e h fun s c h => ?_
  grind [State.memoriesWf_freshId, State.memoriesWf_locateAll, State.memoriesWf_takeReqs, Ctx.memoriesWf_onLanes,
    State.memoriesWf_loadLanes, Issue.memoriesWf_go, Issue.memoriesWf_trap, Issue.MemoriesWf]

theorem memoriesWf_execSt {o : Opnds} {sz : BitVec 3} {cp : BitVec 2} {s t' : State} (e : execSt o sz cp s = .next t')
    (h : s.memoriesWf = true) : t'.memoriesWf = true := by
  refine State.memoriesWf_issue e h fun s c h => ?_
  grind [State.memoriesWf_freshId, Ctx.memoriesWf_onLanes, State.memoriesWf_storeLanes, Issue.memoriesWf_go,
    Issue.memoriesWf_trap, Issue.MemoriesWf]

theorem memoriesWf_execLdn {o : Opnds} {sz : BitVec 3} {la : BitVec 4} {s t' : State} (e : execLdn o sz la s = .next t')
    (h : s.memoriesWf = true) : t'.memoriesWf = true := by
  refine State.memoriesWf_issue e h fun s c h => ?_
  grind [State.memoriesWf_freshId, Ctx.memoriesWf_onLanes, Issue.memoriesWf_go, Issue.memoriesWf_trap, Issue.MemoriesWf]

theorem memoriesWf_execStn {o : Opnds} {sz : BitVec 3} {s t' : State} (e : execStn o sz s = .next t')
    (h : s.memoriesWf = true) : t'.memoriesWf = true := by
  refine State.memoriesWf_issue e h fun s c h => ?_
  grind [Ctx.memoriesWf_onLanes, Issue.memoriesWf_go, Issue.memoriesWf_trap, Issue.MemoriesWf]

theorem memoriesWf_execLdt {o : Opnds} {dt : BitVec 1} {rm : BitVec 3} {ftz chk : BitVec 1} {la : BitVec 4} {s t' : State}
    (e : execLdt o dt rm ftz chk la s = .next t') (h : s.memoriesWf = true) : t'.memoriesWf = true := by
  refine State.memoriesWf_issue e h fun s c h => ?_
  grind [State.memoriesWf_freshId, State.memoriesWf_takeReqs, Ctx.memoriesWf_onLanes, State.memoriesWf_loadFormatted,
    Issue.memoriesWf_go, Issue.memoriesWf_trap, Issue.MemoriesWf]

theorem memoriesWf_execStt {o : Opnds} {dt : BitVec 1} {rm : BitVec 3} {ftz chk : BitVec 1} {s t' : State}
    (e : execStt o dt rm ftz chk s = .next t') (h : s.memoriesWf = true) : t'.memoriesWf = true := by
  refine State.memoriesWf_issue e h fun s c h => Ctx.memoriesWf_onLanes h c _ _ fun m => ?_
  split
  · next h1 => exact State.memoriesWf_storeElements h1 h
  · next h1 =>
    have w1 := State.memoriesWf_storeElements h1 h
    extract_lets plain enc ws
    clear_value ws
    split
    · next h2 => exact State.memoriesWf_blockWrites h2 w1
    · next h2 =>
      have w2 := State.memoriesWf_blockWrites h2 w1
      split
      · exact w2
      · exact State.memoriesWf_freshId_snd w2 c.w.core

theorem memoriesWf_execPref {k : BitVec 3} {a b x : BitVec 5} {lv : BitVec 1} {s t' : State}
    (e : execPref k a b x lv s = .next t') (h : s.memoriesWf = true) : t'.memoriesWf = true := by
  refine State.memoriesWf_issue e h fun s c h => Ctx.memoriesWf_onLanes h c _ _ fun m => ?_
  extract_lets r
  have hr : r.2.memoriesWf = true := by
    refine memoriesWf_foldl_snd _ _ (fun r x hr => ?_) h
    split <;> next h1 => exact State.memoriesWf_translate h1 hr
  clear_value r
  split
  next h2 =>
  have w2 := State.memoriesWf_freshId h2 hr
  split
  · exact w2
  · next h3 =>
    refine State.memoriesWf_foldl (State.memoriesWf_takeReqs h3 w2) _ _ fun t ht sec _ => ?_
    split
    · exact State.memoriesWf_loadFill ht _ _ _ _
    · exact ht

theorem memoriesWf_execHomeAccessPerform {sector : Nat} {s t' : State} (e : execHomeAccessPerform sector s = .next t')
    (h : s.memoriesWf = true) : t'.memoriesWf = true := by
  unfold execHomeAccessPerform at e
  grind [State.memoriesWf_drawBit, State.memoriesWf_serve, State.memoriesWf_endRound, State.memoriesWf_serveGroup,
    Decided.memoriesWf_made, Decided.memoriesWf_raised]

theorem memoriesWf_execRwr {k : BitVec 3} {a b x : BitVec 5} {s t' : State} (e : execRwr k a b x s = .next t')
    (h : s.memoriesWf = true) : t'.memoriesWf = true := by
  refine State.memoriesWf_issue e h fun s c h => ?_
  grind [Ctx.memoriesWf_onLanes, Issue.memoriesWf_go, Issue.memoriesWf_trap, Issue.MemoriesWf]

theorem memoriesWf_execAwt {d b x : BitVec 5} {ctr : BitVec 2} {sub clr : BitVec 1} {s t' : State}
    (e : execAwt d b x ctr sub clr s = .next t') (h : s.memoriesWf = true) : t'.memoriesWf = true := by
  refine State.memoriesWf_issue e h fun s c h => ?_
  grind [Issue.MemoriesWf]

theorem memoriesWf_execAcq {k : BitVec 3} {d a : BitVec 5} {scope : BitVec 3} {la : BitVec 4} {s t' : State}
    (e : execAcq k d a scope la s = .next t') (h : s.memoriesWf = true) : t'.memoriesWf = true := by
  refine State.memoriesWf_issue e h fun s c h => Ctx.memoriesWf_onLanes h c _ _ fun m => ?_
  extract_lets g
  split
  · next h1 => exact State.memoriesWf_locate h1 h
  · next h1 =>
    have w1 := State.memoriesWf_locate h1 h
    dsimp only
    split
    · trivial
    · split
      · trivial
      · next h2 => exact Decided.memoriesWf_raised (State.memoriesWf_decideSync w1 _ _ _ _) h2
      · next h2 =>
        have w2 := Decided.memoriesWf_made (State.memoriesWf_decideSync w1 _ _ _ _) h2
        split
        · trivial
        · next h3 =>
          have w3 := State.memoriesWf_readAtHome (State.memoriesWf_takeReqs h3 (State.memoriesWf_freshId_snd w2 c.w.core))
            c.w
          split
          · exact State.memoriesWf_foldl (w3 _) _ _ fun _ ht _ _ => State.memoriesWf_flushSector ht _ _
          · exact w3 _

theorem memoriesWf_execRel {k : BitVec 3} {a : BitVec 5} {scope : BitVec 3} {s t' : State}
    (e : execRel k a scope s = .next t') (h : s.memoriesWf = true) : t'.memoriesWf = true := by
  refine State.memoriesWf_issue e h fun s c h => ?_
  grind [State.memoriesWf_freshId, State.memoriesWf_locate, Ctx.memoriesWf_onLanes, Issue.memoriesWf_go,
    Issue.memoriesWf_trap, Issue.MemoriesWf]

theorem memoriesWf_execFence {scope : BitVec 3} {s t' : State} (e : execFence scope s = .next t') (h : s.memoriesWf = true) :
    t'.memoriesWf = true := by
  refine State.memoriesWf_issue e h fun s c h => ?_
  grind [State.memoriesWf_flushAll, Issue.MemoriesWf]

theorem memoriesWf_execPublish {a : BitVec 5} {s t' : State} (e : execPublish a s = .next t') (h : s.memoriesWf = true) :
    t'.memoriesWf = true := by
  refine State.memoriesWf_issue e h fun s c h => ?_
  grind [Issue.MemoriesWf]

theorem memoriesWf_execFread {k : BitVec 3} {d a : BitVec 5} {scope : BitVec 3} {la : BitVec 4} {s t' : State}
    (e : execFread k d a scope la s = .next t') (h : s.memoriesWf = true) : t'.memoriesWf = true := by
  refine State.memoriesWf_issue e h fun s c h => Ctx.memoriesWf_onLanes h c _ _ fun m => ?_
  split
  · next h1 => exact State.memoriesWf_locateAll h1 h
  · next h1 =>
    have w1 := State.memoriesWf_locateAll h1 h
    extract_lets secs
    split
    · trivial
    · split
      · trivial
      · next h2 => exact Decided.memoriesWf_raised (State.memoriesWf_decideAll w1 _ _ _) h2
      · next h2 =>
        have w2 := Decided.memoriesWf_made (State.memoriesWf_decideAll w1 _ _ _) h2
        split
        next h3 =>
        have w3 := State.memoriesWf_freshId h3 w2
        split
        · trivial
        · next h4 =>
          have w4 := State.memoriesWf_readAtHome (State.memoriesWf_takeReqs h4 w3) c.w secs
          dsimp only
          split <;> exact w4

theorem memoriesWf_execQtake {d a : BitVec 5} {q : BitVec 2} {s t' : State} (e : execQtake d a q s = .next t')
    (h : s.memoriesWf = true) : t'.memoriesWf = true := by
  refine State.memoriesWf_issue e h fun s c h => ?_
  grind [State.memoriesWf_freshId, Issue.MemoriesWf]

theorem memoriesWf_execAms {d a b : BitVec 5} {s t' : State} (e : execAms d a b s = .next t') (h : s.memoriesWf = true) :
    t'.memoriesWf = true := by
  refine State.memoriesWf_issue e h fun s c h => ?_
  grind [State.memoriesWf_locate, Issue.MemoriesWf]

theorem memoriesWf_execBbind {a : BitVec 5} {n : BitVec 6} {s t' : State} (e : execBbind a n s = .next t')
    (h : s.memoriesWf = true) : t'.memoriesWf = true := by
  refine State.memoriesWf_issue e h fun s c h => ?_
  grind [Issue.MemoriesWf]

theorem memoriesWf_execBunb {n : BitVec 6} {s t' : State} (e : execBunb n s = .next t') (h : s.memoriesWf = true) :
    t'.memoriesWf = true := by
  refine State.memoriesWf_issue e h fun s c h => ?_
  grind [Issue.MemoriesWf]

theorem memoriesWf_execBarr {k : BitVec 3} {d : BitVec 5} {n : BitVec 6} {s t' : State} (e : execBarr k d n s = .next t')
    (h : s.memoriesWf = true) : t'.memoriesWf = true := by
  refine State.memoriesWf_issue e h fun s c h => ?_
  grind [State.memoriesWf_freshId, Issue.MemoriesWf]

theorem memoriesWf_execBwt {a : BitVec 5} {n : BitVec 6} {s t' : State} (e : execBwt a n s = .next t')
    (h : s.memoriesWf = true) : t'.memoriesWf = true := by
  refine State.memoriesWf_issue e h fun s c h => ?_
  grind [Core.near_asSeen, Issue.MemoriesWf]

theorem memoriesWf_execDbar {k : BitVec 3} {d : BitVec 5} {n : BitVec 4} {s t' : State} (e : execDbar k d n s = .next t')
    (h : s.memoriesWf = true) : t'.memoriesWf = true := by
  refine State.memoriesWf_issue e h fun s c h => ?_
  grind [State.memoriesWf_freshId, Issue.MemoriesWf]

theorem memoriesWf_execDwt {a : BitVec 5} {n : BitVec 4} {s t' : State} (e : execDwt a n s = .next t')
    (h : s.memoriesWf = true) : t'.memoriesWf = true := by
  refine State.memoriesWf_issue e h fun s c h => ?_
  grind [State.memoriesWf_flushAll, Issue.MemoriesWf]

theorem memoriesWf_execTrail {te : BitVec 1} {tag : BitVec 3} {wb : BitVec 16} {s t' : State}
    (e : execTrail te tag wb s = .next t') (h : s.memoriesWf = true) : t'.memoriesWf = true := by
  refine State.memoriesWf_issue e h fun s c h => ?_
  grind [Issue.MemoriesWf]

theorem memoriesWf_execRunCommit {w : WarpRef} {s t' : State} (e : execRunCommit w s = .next t') (h : s.memoriesWf = true) :
    t'.memoriesWf = true := by
  unfold execRunCommit at e
  grind [State.memoriesWf_commitFrom, State.memoriesWf_mk]

theorem memoriesWf_execActiveSetEntry {core : Nat} {s t' : State} (e : execActiveSetEntry core s = .next t')
    (h : s.memoriesWf = true) : t'.memoriesWf = true := by
  unfold execActiveSetEntry at e
  grind [State.memoriesWf_modCore, State.memoriesWf_modWarp, Core.near_modWarp, State.memoriesWf_mk]

theorem memoriesWf_execWatchdogExpiry {w : WarpRef} {s t' : State} (e : execWatchdogExpiry w s = .next t')
    (h : s.memoriesWf = true) : t'.memoriesWf = true := by
  unfold execWatchdogExpiry at e
  grind [State.memoriesWf_takeTrap]

theorem memoriesWf_execClaimGrant {core : Nat} {s t' : State} (e : execClaimGrant core s = .next t')
    (h : s.memoriesWf = true) : t'.memoriesWf = true := by
  unfold execClaimGrant at e
  grind [State.memoriesWf_modCore, State.memoriesWf_modWarp, Core.near_modWarp, State.memoriesWf_mk]

theorem memoriesWf_execClaimDeadlock {core : Nat} {s t' : State} (e : execClaimDeadlock core s = .next t')
    (h : s.memoriesWf = true) : t'.memoriesWf = true := by
  unfold execClaimDeadlock at e
  split at e
  · cases e; exact h
  · cases e
    refine State.memoriesWf_foldl (State.memoriesWf_modCore h _ _ ?_) _ _ fun _ ht _ _ => State.memoriesWf_takeTrap ht _ _
    exact fun _ hk => hk

theorem memoriesWf_execAcknowledgementReturn {core id : Nat} {s t' : State}
    (e : execAcknowledgementReturn core id s = .next t') (h : s.memoriesWf = true) : t'.memoriesWf = true := by
  unfold execAcknowledgementReturn at e
  grind [State.memoriesWf_modCore, Core.near_freeReqs]

theorem memoriesWf_execPendingValueArrival {core id : Nat} {s t' : State} (e : execPendingValueArrival core id s = .next t')
    (h : s.memoriesWf = true) : t'.memoriesWf = true := by
  unfold execPendingValueArrival at e
  grind [State.memoriesWf_arriveInRun, State.memoriesWf_arriveMarks]

theorem memoriesWf_execDeposit {core id : Nat} {s t' : State} (e : execDeposit core id s = .next t')
    (h : s.memoriesWf = true) : t'.memoriesWf = true := by
  unfold execDeposit at e
  grind [State.memoriesWf_modCore, State.memoriesWf_modWarp, State.memoriesWf_tellDeposit, Core.near_modWarp,
    Core.near_depositArrives, State.memoriesWf_mk]

theorem memoriesWf_execIcinvCompletion {w : WarpRef} {s t' : State} (e : execIcinvCompletion w s = .next t')
    (h : s.memoriesWf = true) : t'.memoriesWf = true := by
  unfold execIcinvCompletion at e
  grind [State.memoriesWf_modCore, State.memoriesWf_modWarp, Core.near_modWarp, State.memoriesWf_foldl, State.memoriesWf_mk]

theorem memoriesWf_execL1Eviction {core sector : Nat} {s t' : State} (e : execL1Eviction core sector s = .next t')
    (h : s.memoriesWf = true) : t'.memoriesWf = true := by
  unfold execL1Eviction at e
  grind [State.memoriesWf_flushSector]

theorem memoriesWf_execUncorrectableDataError {core id : Nat} {s t' : State}
    (e : execUncorrectableDataError core id s = .next t') (h : s.memoriesWf = true) : t'.memoriesWf = true := by
  unfold execUncorrectableDataError at e
  grind [State.memoriesWf_poison]

theorem memoriesWf_execFabricResponseTimeout {core id : Nat} {s t' : State}
    (e : execFabricResponseTimeout core id s = .next t') (h : s.memoriesWf = true) : t'.memoriesWf = true := by
  unfold execFabricResponseTimeout at e
  grind [State.memoriesWf_modCore, State.memoriesWf_modDev, State.memoriesWf_freshId, State.memoriesWf_notePerformed,
    State.memoriesWf_poison, Core.near_giveUp, State.memoriesWf_mk]

theorem memoriesWf_execWarpCreation {core : Nat} {s t' : State} (e : execWarpCreation core s = .next t')
    (h : s.memoriesWf = true) : t'.memoriesWf = true := by
  unfold execWarpCreation at e
  grind [State.memoriesWf_modCore, State.memoriesWf_modLaunch, State.memoriesWf_drawn, State.memoriesWf_addWarp,
    State.memoriesWf_holdArray, State.memoriesWf_amsGroup, State.memoriesWf_mk]

theorem memoriesWf_execHandlerWarpCreation {core slot : Nat} {s t' : State}
    (e : execHandlerWarpCreation core slot s = .next t') (h : s.memoriesWf = true) : t'.memoriesWf = true := by
  unfold execHandlerWarpCreation at e
  grind [State.memoriesWf_modCore, State.memoriesWf_modDev, State.memoriesWf_mk]

theorem memoriesWf_execWarpRetirement {w : WarpRef} {s t' : State} (e : execWarpRetirement w s = .next t')
    (h : s.memoriesWf = true) : t'.memoriesWf = true := by
  unfold execWarpRetirement at e
  grind [State.memoriesWf_modCore, State.memoriesWf_dropTurns, State.memoriesWf_retireApply, State.memoriesWf_retireHandler,
    State.memoriesWf_barmis, State.memoriesWf_passTurn, State.memoriesWf_dropMembers, Core.near_keepSeen,
    Core.near_freeSlotOf]

theorem memoriesWf_execDeviceBarrierPhase {j : Nat} {s t' : State} (e : execDeviceBarrierPhase j s = .next t')
    (h : s.memoriesWf = true) : t'.memoriesWf = true := by
  unfold execDeviceBarrierPhase at e
  grind [State.memoriesWf_modDev, State.memoriesWf_deviceFlush, State.memoriesWf_mk]

theorem memoriesWf_execLaunchEnd {l : Nat} {s t' : State} (e : execLaunchEnd l s = .next t') (h : s.memoriesWf = true) :
    t'.memoriesWf = true := by
  unfold execLaunchEnd at e
  grind [State.memoriesWf_deviceFlush, State.memoriesWf_tryEnd]

theorem memoriesWf_execLaunchAbort {l : Nat} {s t' : State} (e : execLaunchAbort l s = .next t') (h : s.memoriesWf = true) :
    t'.memoriesWf = true := by
  unfold execLaunchAbort at e
  grind [State.memoriesWf_deviceFlush, State.memoriesWf_writeBackLaunch, State.memoriesWf_releaseAll,
    State.memoriesWf_report]

theorem memoriesWf_execUnitPlacement {core : Nat} {s t' : State} (e : execUnitPlacement core s = .next t')
    (h : s.memoriesWf = true) : t'.memoriesWf = true := by
  unfold execUnitPlacement at e
  grind [State.memoriesWf_placeUnit, State.memoriesWf_tookUnit, Decided.memoriesWf_made, Decided.memoriesWf_raised]

theorem memoriesWf_execAnyQueuePlacement {pick : Nat} {s t' : State} (e : execAnyQueuePlacement pick s = .next t')
    (h : s.memoriesWf = true) : t'.memoriesWf = true := by
  unfold execAnyQueuePlacement at e
  split at e
  · cases e; exact h
  · split at e
    · cases e; exact h
    · extract_lets cs t at e
      have ht : t.memoriesWf = true := h
      clear_value t
      grind [State.memoriesWf_placeUnit, State.memoriesWf_tookUnit, State.memoriesWf_countPasses, State.memoriesWf_modDev,
        Decided.memoriesWf_made, Decided.memoriesWf_raised]

theorem memoriesWf_execCardRead {idx : Nat} {s t' : State} (e : execCardRead idx s = .next t') (h : s.memoriesWf = true) :
    t'.memoriesWf = true := by
  unfold execCardRead at e
  grind [State.memoriesWf_modItem, State.memoriesWf_cardWalk, State.memoriesWf_failItem, State.memoriesWf_heldItem,
    State.memoriesWf_mk]

theorem memoriesWf_execArgkMemberStart {l : Nat} {w : WarpRef} {s t' : State} (e : execArgkMemberStart l w s = .next t')
    (h : s.memoriesWf = true) : t'.memoriesWf = true := by
  unfold execArgkMemberStart at e
  grind [State.memoriesWf_modLaunch, State.memoriesWf_modWarp, State.memoriesWf_hears, State.memoriesWf_enterBlock,
    Core.near_modWarp, State.memoriesWf_mk]

theorem memoriesWf_execAmsArrival {core : Nat} {s t' : State} (e : execAmsArrival core s = .next t')
    (h : s.memoriesWf = true) : t'.memoriesWf = true := by
  unfold execAmsArrival at e
  grind [State.memoriesWf_startMessage, State.memoriesWf_readMessage]

theorem memoriesWf_execSchedulingStateError {tenant card : Nat} {s t' : State}
    (e : execSchedulingStateError tenant card s = .next t') (h : s.memoriesWf = true) : t'.memoriesWf = true := by
  unfold execSchedulingStateError at e
  grind [State.memoriesWf_modDev, State.memoriesWf_modLaunch, State.memoriesWf_faultRecord, State.memoriesWf_endLaunch,
    State.memoriesWf_poison, State.memoriesWf_cardError, State.memoriesWf_dropItem, State.memoriesWf_mk]

theorem memoriesWf_execPreemptionRequest {core l : Nat} {s t' : State} (e : execPreemptionRequest core l s = .next t')
    (h : s.memoriesWf = true) : t'.memoriesWf = true := by
  unfold execPreemptionRequest at e
  grind [State.memoriesWf_preempt]

theorem memoriesWf_execWarpStop {w : WarpRef} {s t' : State} (e : execWarpStop w s = .next t') (h : s.memoriesWf = true) :
    t'.memoriesWf = true := by
  unfold execWarpStop at e
  grind [State.memoriesWf_haltWarp]

theorem memoriesWf_execPtimeExpiry {core l : Nat} {s t' : State} (e : execPtimeExpiry core l s = .next t')
    (h : s.memoriesWf = true) : t'.memoriesWf = true := by
  unfold execPtimeExpiry at e
  grind [State.memoriesWf_endByTime]

theorem memoriesWf_execContextSave {core l : Nat} {s t' : State} (e : execContextSave core l s = .next t')
    (h : s.memoriesWf = true) : t'.memoriesWf = true := by
  unfold execContextSave at e
  grind [State.memoriesWf_flushAll, State.memoriesWf_endByTime, State.memoriesWf_saveLaunch, State.memoriesWf_writeSaveArea,
    State.memoriesWf_mk]

theorem memoriesWf_execContextResume {core l : Nat} {s t' : State} (e : execContextResume core l s = .next t')
    (h : s.memoriesWf = true) : t'.memoriesWf = true := by
  unfold execContextResume at e
  grind [State.memoriesWf_restore]

theorem memoriesWf_execPreemptCore {tenant core : Nat} {s t' : State} (e : execPreemptCore tenant core s = .next t')
    (h : s.memoriesWf = true) : t'.memoriesWf = true := by
  unfold execPreemptCore at e
  grind [State.memoriesWf_preemptTenant]

theorem memoriesWf_execPreemptAll {tenant : Nat} {s t' : State} (e : execPreemptAll tenant s = .next t')
    (h : s.memoriesWf = true) : t'.memoriesWf = true := by
  unfold execPreemptAll at e
  grind [State.memoriesWf_preemptTenant]

theorem memoriesWf_execPowerUp {s t' : State} (e : execPowerUp s = .next t') (h : s.memoriesWf = true) :
    t'.memoriesWf = true := by
  cases e
  rw [State.memoriesWf_iff] at h ⊢
  refine ⟨Memory.wf_filter _ _ h.1, fun k hk => ?_⟩
  rw [List.eq_of_mem_replicate hk]
  rfl

theorem memoriesWf_execImageArrival {mbx ed ml : Bool} {hash : BitVec 384} {s t' : State}
    (e : execImageArrival mbx ed ml hash s = .next t') (h : s.memoriesWf = true) : t'.memoriesWf = true := by
  unfold execImageArrival at e
  grind [State.memoriesWf_modDev, State.memoriesWf_mk]

theorem memoriesWf_execMailboxGo {v : Word} {s t' : State} (e : execMailboxGo v s = .next t') (h : s.memoriesWf = true) :
    t'.memoriesWf = true := by
  unfold execMailboxGo at e
  grind [State.memoriesWf_modDev, State.memoriesWf_mk]

theorem memoriesWf_execCoreStart {core : Nat} {s t' : State} (e : execCoreStart core s = .next t')
    (h : s.memoriesWf = true) : t'.memoriesWf = true := by
  unfold execCoreStart at e
  grind [State.memoriesWf_modCore, State.memoriesWf_mk]

theorem memoriesWf_execSpdmRequest {s t' : State} (e : execSpdmRequest s = .next t') (h : s.memoriesWf = true) :
    t'.memoriesWf = true := by
  unfold execSpdmRequest at e
  grind [State.memoriesWf_modDev, State.memoriesWf_mk]

theorem memoriesWf_execHostLinkTraining {rate width : Nat} {s t' : State} (e : execHostLinkTraining rate width s = .next t')
    (h : s.memoriesWf = true) : t'.memoriesWf = true := by
  unfold execHostLinkTraining at e
  grind [State.memoriesWf_modDev, State.memoriesWf_mk]

theorem memoriesWf_execEnable {v : Word} {s t' : State} (e : execEnable v s = .next t') (h : s.memoriesWf = true) :
    t'.memoriesWf = true := by
  unfold execEnable at e
  grind [State.memoriesWf_modDev, State.memoriesWf_mk]

theorem memoriesWf_execDrain {core : Nat} {s t' : State} (e : execDrain core s = .next t') (h : s.memoriesWf = true) :
    t'.memoriesWf = true := by
  unfold execDrain at e
  split at e
  · cases e; exact h
  · split at e
    · cases e; exact State.memoriesWf_acceptService (s := { s with oracle := s.oracle + 1 }) h _ _ _
    · cases e
      refine State.memoriesWf_foldl (State.memoriesWf_modCore (State.memoriesWf_acceptService h _ _ _) _ _ ?_) _ _
        fun _ ht _ _ => ?_
      · exact fun _ hk => hk
      · split
        · exact State.memoriesWf_preempt ht _ _
        · exact ht

theorem memoriesWf_execUnfence {core : Nat} {s t' : State} (e : execUnfence core s = .next t') (h : s.memoriesWf = true) :
    t'.memoriesWf = true := by
  unfold execUnfence at e
  grind [State.memoriesWf_modCore, State.memoriesWf_acceptService, State.memoriesWf_mk]

theorem memoriesWf_execRetire {pa : Nat} {s t' : State} (e : execRetire pa s = .next t') (h : s.memoriesWf = true) :
    t'.memoriesWf = true := by
  unfold execRetire at e
  grind [State.memoriesWf_acceptService, State.memoriesWf_mk]

theorem memoriesWf_execRecal {port : Nat} {s t' : State} (e : execRecal port s = .next t') (h : s.memoriesWf = true) :
    t'.memoriesWf = true := by
  unfold execRecal at e
  grind [State.memoriesWf_modDev, State.memoriesWf_acceptService, State.memoriesWf_mk]

theorem memoriesWf_execReload {cc : Nat} {s t' : State} (e : execReload cc s = .next t') (h : s.memoriesWf = true) :
    t'.memoriesWf = true := by
  unfold execReload at e
  grind [State.memoriesWf_modDev, State.memoriesWf_acceptService, State.memoriesWf_mk]

theorem memoriesWf_execServiceCommandDone {s t' : State} (e : execServiceCommandDone s = .next t')
    (h : s.memoriesWf = true) : t'.memoriesWf = true := by
  unfold execServiceCommandDone at e
  grind [State.memoriesWf_modDev, State.memoriesWf_endService, State.memoriesWf_mk]

theorem memoriesWf_execFresolve {tenant : Nat} {v : Word} {s t' : State} (e : execFresolve tenant v s = .next t')
    (h : s.memoriesWf = true) : t'.memoriesWf = true := by
  unfold execFresolve at e
  split at e
  · cases e; exact h
  · extract_lets page kind mine fix core saved item t at e
    have ht : t.memoriesWf = true := State.memoriesWf_of_near h rfl (near_of_mem_map (f := core) fun _ => rfl)
    cases e
    exact ht

theorem memoriesWf_execTlbinvPage {tenant : Nat} {v : Word} {s t' : State} (e : execTlbinvPage tenant v s = .next t')
    (h : s.memoriesWf = true) : t'.memoriesWf = true := by
  unfold execTlbinvPage at e
  grind [State.memoriesWf_invalidate]

theorem memoriesWf_execTlbinvAll {tenant : Nat} {v : Word} {s t' : State} (e : execTlbinvAll tenant v s = .next t')
    (h : s.memoriesWf = true) : t'.memoriesWf = true := by
  unfold execTlbinvAll at e
  grind [State.memoriesWf_invalidate]

theorem memoriesWf_execTlbInvalidationDone {tenant : Nat} {s t' : State} (e : execTlbInvalidationDone tenant s = .next t')
    (h : s.memoriesWf = true) : t'.memoriesWf = true := by
  unfold execTlbInvalidationDone at e
  split at e
  · cases e; exact h
  · split at e
    · cases e; exact h
    · extract_lets keep t at e
      have ht : t.memoriesWf = true :=
        State.memoriesWf_of_near h rfl (near_of_mem_map (f := fun k => { k with tlb := k.tlb.filter keep }) fun _ => rfl)
      cases e
      exact ht

theorem memoriesWf_execHostPost {tenant : Nat} {card : Word} {s t' : State} (e : execHostPost tenant card s = .next t')
    (h : s.memoriesWf = true) : t'.memoriesWf = true := by
  unfold execHostPost at e
  grind [State.memoriesWf_modTenant, State.memoriesWf_modDev, State.memoriesWf_faultRecord, State.memoriesWf_sendHome,
    State.memoriesWf_mk]

theorem memoriesWf_execFqctlWrite {tenant : Nat} {v : Word} {s t' : State} (e : execFqctlWrite tenant v s = .next t')
    (h : s.memoriesWf = true) : t'.memoriesWf = true := by
  unfold execFqctlWrite at e
  grind [State.memoriesWf_modTenant, State.memoriesWf_mk]

theorem memoriesWf_execRegisterWrite {fn offset : Nat} {v : Word} {s t' : State}
    (e : execRegisterWrite fn offset v s = .next t') (h : s.memoriesWf = true) : t'.memoriesWf = true := by
  unfold execRegisterWrite at e
  grind [State.memoriesWf_modTenant, State.memoriesWf_modDev, State.memoriesWf_noteHead]

theorem memoriesWf_execBar2Write {pa : Nat} {bytes : List Byte} {s t' : State} (e : execBar2Write pa bytes s = .next t')
    (h : s.memoriesWf = true) : t'.memoriesWf = true := by
  unfold execBar2Write at e
  grind [State.memoriesWf_writeBytes]

theorem memoriesWf_execPowerOverLimit {s t' : State} (e : execPowerOverLimit s = .next t') (h : s.memoriesWf = true) :
    t'.memoriesWf = true := by
  unfold execPowerOverLimit at e
  grind [State.memoriesWf_modDev, State.memoriesWf_mk]

theorem memoriesWf_execThermalThrottle {s t' : State} (e : execThermalThrottle s = .next t') (h : s.memoriesWf = true) :
    t'.memoriesWf = true := by
  unfold execThermalThrottle at e
  grind [State.memoriesWf_modDev, State.memoriesWf_mk]

theorem memoriesWf_execThermalHalt {s t' : State} (e : execThermalHalt s = .next t') (h : s.memoriesWf = true) :
    t'.memoriesWf = true := by
  unfold execThermalHalt at e
  grind [State.memoriesWf_modDev, State.memoriesWf_mk]

theorem memoriesWf_execLinkFlitReceive {port : Nat} {seq : BitVec 12} {payload : BitVec 256} {crc bad : Bool} {s t' : State}
    (e : execLinkFlitReceive port seq payload crc bad s = .next t') (h : s.memoriesWf = true) : t'.memoriesWf = true := by
  unfold execLinkFlitReceive at e
  grind [State.memoriesWf_modDev, State.memoriesWf_pump, State.memoriesWf_linkAnswer, State.memoriesWf_ackOldest,
    State.memoriesWf_mk]

theorem memoriesWf_execEndToEndResend {dst num : Nat} {s t' : State} (e : execEndToEndResend dst num s = .next t')
    (h : s.memoriesWf = true) : t'.memoriesWf = true := by
  unfold execEndToEndResend at e
  grind [State.memoriesWf_transmit]

theorem memoriesWf_execRemoteSyncArrival {src num : Nat} {acc : RemoteSync} {s t' : State}
    (e : execRemoteSyncArrival src num acc s = .next t') (h : s.memoriesWf = true) : t'.memoriesWf = true := by
  unfold execRemoteSyncArrival at e
  grind [State.memoriesWf_modDev, State.memoriesWf_drainRemote, State.memoriesWf_mk]

/-! ### Steps -/

theorem memoriesWf_execFfill {k : BitVec 3} {a b x : BitVec 5} {scope : BitVec 3} {s t : State}
    (e : execFfill k a b x scope s = .next t) (h : s.memoriesWf = true) : t.memoriesWf = true :=
  State.memoriesWf_issueFuture e h

theorem memoriesWf_execFclr {k : BitVec 3} {a x : BitVec 5} {scope : BitVec 3} {s t : State}
    (e : execFclr k a x scope s = .next t) (h : s.memoriesWf = true) : t.memoriesWf = true :=
  State.memoriesWf_issueFuture e h

/-- The meaning of each instruction on lanes keeps the memories canonical. -/
theorem laneForm_keepsMemoriesWf {i : Instr} {x : BitVec 3 × BitVec 5 × List (BitVec 5) × Bool} (h : laneForm i = some x) :
    ∃ f, (∀ s, exec i s = s.issue i f) ∧ ∀ (s : State) (c : Ctx), s.memoriesWf = true → (f s c).MemoriesWf := by
  cases i
  case add | sub | min | max | mul | mulhi | mad | shl | shr | sar | rot | clz | ctz | popc | brev | cmp | abs |
      neg | icvt | fmin | fmax | fdot2 | fsgn =>
    exact ⟨_, fun _ => rfl, fun _ c h => Ctx.memoriesWf_vec h c _ _ _ _⟩
  case fadd | fsub | fmul | fma | fnma | frnd | fscl | fcvt =>
    exact ⟨_, fun _ => rfl, fun _ c h => Ctx.memoriesWf_vecR h c _ _ _ _ _⟩
  case and | or | xor | andn | sel | ext | ins | movi | movh | addi | lea | sfp =>
    exact ⟨_, fun _ => rfl, fun _ c h => Ctx.memoriesWf_pure h c _ _ _ _⟩
  case xperm | xshf | xbc | xbal | xred | xscan | xtopk =>
    exact ⟨_, fun _ => rfl, fun _ c h => Ctx.memoriesWf_late h c _ _ _ _ _⟩
  all_goals cases h

theorem memoriesWf_exec_of_laneForm {i : Instr} {x : BitVec 3 × BitVec 5 × List (BitVec 5) × Bool} {s t : State}
    (hi : laneForm i = some x) (e : exec i s = .next t) (h : s.memoriesWf = true) : t.memoriesWf = true := by
  obtain ⟨f, hexec, hf⟩ := laneForm_keepsMemoriesWf hi
  rw [hexec] at e
  exact State.memoriesWf_issue e h hf

theorem memoriesWf_of_issueAtom {s t : State} {i : Instr} (e : exec i s = .next t) (h : s.memoriesWf = true)
    (hi : ∃ op o scope w, exec i s = s.issueAtom i op o scope w) : t.memoriesWf = true := by
  obtain ⟨op, o, scope, w, hi⟩ := hi
  exact State.memoriesWf_issueAtom (hi ▸ e) h

theorem memoriesWf_of_issueBind {s t : State} {i : Instr} (e : exec i s = .next t) (h : s.memoriesWf = true)
    (hi : ∃ add a b cc, exec i s = s.issueBind i add a b cc) : t.memoriesWf = true := by
  obtain ⟨add, a, b, cc, hi⟩ := hi
  exact State.memoriesWf_issueBind (hi ▸ e) h

theorem memoriesWf_of_issuePost {s t : State} {i : Instr} (e : exec i s = .next t) (h : s.memoriesWf = true)
    (hi : ∃ d a q dir spawn, exec i s = s.issuePost i d a q dir spawn) : t.memoriesWf = true := by
  obtain ⟨d, a, q, dir, spawn, hi⟩ := hi
  exact State.memoriesWf_issuePost (hi ▸ e) h

/-- Every instruction and event keeps the memories canonical. -/
theorem memoriesWf_exec {i : Instr} {s t : State} (e : exec i s = .next t) (h : s.memoriesWf = true) :
    t.memoriesWf = true := by
  cases i
  case add | sub | min | max | mul | mulhi | mad | shl | shr | sar | rot | clz | ctz | popc | brev | cmp | abs |
      neg | icvt | fmin | fmax | fdot2 | fsgn | fadd | fsub | fmul | fma | fnma | frnd | fscl | fcvt | and | or |
      xor | andn | sel | ext | ins | movi | movh | addi | lea | sfp | xperm | xshf | xbc | xbal | xred | xscan |
      xtopk =>
    exact memoriesWf_exec_of_laneForm rfl e h
  case atomAdd | atomFadd | atomBinc | atomXchg | atomMinS | atomMaxS | atomMinU | atomMaxU | atomAnd | atomOr |
      atomXor | atomCas =>
    exact memoriesWf_of_issueAtom e h ⟨_, _, _, _, rfl⟩
  case bind | unbind =>
    exact memoriesWf_of_issueBind e h ⟨_, _, _, _, rfl⟩
  case post | spawn =>
    exact memoriesWf_of_issuePost e h ⟨_, _, _, _, _, rfl⟩
  case nop => exact memoriesWf_execNop e h
  case trail => exact memoriesWf_execTrail e h
  case bra => exact memoriesWf_execBra e h
  case bre => exact memoriesWf_execBre e h
  case brn => exact memoriesWf_execBrn e h
  case brx => exact memoriesWf_execBrx e h
  case call => exact memoriesWf_execCall e h
  case ret => exact memoriesWf_execRet e h
  case loop => exact memoriesWf_execLoop e h
  case exit => exact memoriesWf_execExit e h
  case yield => exact memoriesWf_execYield e h
  case icinv => exact memoriesWf_execIcinv e h
  case claim => exact memoriesWf_execClaim e h
  case give => exact memoriesWf_execGive e h
  case ktestInt => exact memoriesWf_execKtestInt e h
  case ktestFloat => exact memoriesWf_execKtestFloat e h
  case kand => exact memoriesWf_execKand e h
  case kor => exact memoriesWf_execKor e h
  case kdiff => exact memoriesWf_execKdiff e h
  case kcount => exact memoriesWf_execKcount e h
  case kfirst => exact memoriesWf_execKfirst e h
  case kmakeV => exact memoriesWf_execKmakeV e h
  case kmakeM => exact memoriesWf_execKmakeM e h
  case kself => exact memoriesWf_execKself e h
  case kld => exact memoriesWf_execKld e h
  case kst => exact memoriesWf_execKst e h
  case kmerge => exact memoriesWf_execKmerge e h
  case kfree => exact memoriesWf_execKfree e h
  case kqpush => exact memoriesWf_execKqpush e h
  case kqpop => exact memoriesWf_execKqpop e h
  case applyS => exact memoriesWf_execApplyS e h
  case applyR => exact memoriesWf_execApplyR e h
  case enda => exact memoriesWf_execEnda e h
  case gmake => exact memoriesWf_execGmake e h
  case join => exact memoriesWf_execJoin e h
  case leave => exact memoriesWf_execLeave e h
  case gdis => exact memoriesWf_execGdis e h
  case sfq => exact memoriesWf_execSfq e h
  case sfw => exact memoriesWf_execSfw e h
  case ld => exact memoriesWf_execLd e h
  case st => exact memoriesWf_execSt e h
  case ldn => exact memoriesWf_execLdn e h
  case stn => exact memoriesWf_execStn e h
  case ldt => exact memoriesWf_execLdt e h
  case stt => exact memoriesWf_execStt e h
  case pref => exact memoriesWf_execPref e h
  case rwr => exact memoriesWf_execRwr e h
  case awt => exact memoriesWf_execAwt e h
  case acq => exact memoriesWf_execAcq e h
  case rel => exact memoriesWf_execRel e h
  case fence => exact memoriesWf_execFence e h
  case publish => exact memoriesWf_execPublish e h
  case fread => exact memoriesWf_execFread e h
  case ffill => exact memoriesWf_execFfill e h
  case fclr => exact memoriesWf_execFclr e h
  case cpy => exact memoriesWf_execCpy e h
  case cpym => exact memoriesWf_execCpym e h
  case tall => exact memoriesWf_execTall e h
  case tany => exact memoriesWf_execTany e h
  case tffr => exact memoriesWf_execTffr e h
  case mloop => exact memoriesWf_execMloop e h
  case mzero => exact memoriesWf_execMzero e h
  case mrdN => exact memoriesWf_execMrdN e h
  case mrdW => exact memoriesWf_execMrdW e h
  case mwrN => exact memoriesWf_execMwrN e h
  case mwrW => exact memoriesWf_execMwrW e h
  case lacfg => exact memoriesWf_execLacfg e h
  case laseed => exact memoriesWf_execLaseed e h
  case lainfN => exact memoriesWf_execLainfN e h
  case lainfW => exact memoriesWf_execLainfW e h
  case lafb => exact memoriesWf_execLafb e h
  case lardN => exact memoriesWf_execLardN e h
  case lardW => exact memoriesWf_execLardW e h
  case lawrN => exact memoriesWf_execLawrN e h
  case lawrW => exact memoriesWf_execLawrW e h
  case swsub => exact memoriesWf_execSwsub e h
  case swleave => exact memoriesWf_execSwleave e h
  case swgo => exact memoriesWf_execSwgo e h
  case swrd => exact memoriesWf_execSwrd e h
  case swmerge => exact memoriesWf_execSwmerge e h
  case swwait => exact memoriesWf_execSwwait e h
  case qtake => exact memoriesWf_execQtake e h
  case ams => exact memoriesWf_execAms e h
  case bbind => exact memoriesWf_execBbind e h
  case bunb => exact memoriesWf_execBunb e h
  case barr => exact memoriesWf_execBarr e h
  case bwt => exact memoriesWf_execBwt e h
  case dbar => exact memoriesWf_execDbar e h
  case dwt => exact memoriesWf_execDwt e h
  case trap => exact memoriesWf_execTrap e h
  case tret => exact memoriesWf_execTret e h
  case sysrd => exact memoriesWf_execSysrd e h
  case syswr => exact memoriesWf_execSyswr e h
  case brk => exact memoriesWf_execBrk e h
  case lmark => exact memoriesWf_execLmark e h
  case ppoint => exact memoriesWf_execPpoint e h
  case idb => exact memoriesWf_execIdb e h
  case ide => exact memoriesWf_execIde e h
  case instructionFetch => exact memoriesWf_execInstructionFetch e h
  case runHeader => exact memoriesWf_execRunHeader e h
  case runCommit => exact memoriesWf_execRunCommit e h
  case pendingValueArrival => exact memoriesWf_execPendingValueArrival e h
  case sfqCompletion => exact memoriesWf_execSfqCompletion e h
  case deposit => exact memoriesWf_execDeposit e h
  case warpCreation => exact memoriesWf_execWarpCreation e h
  case claimGrant => exact memoriesWf_execClaimGrant e h
  case activeSetEntry => exact memoriesWf_execActiveSetEntry e h
  case warpRetirement => exact memoriesWf_execWarpRetirement e h
  case launchEnd => exact memoriesWf_execLaunchEnd e h
  case launchAbort => exact memoriesWf_execLaunchAbort e h
  case deviceBarrierPhase => exact memoriesWf_execDeviceBarrierPhase e h
  case applyWarpCreation => exact memoriesWf_execApplyWarpCreation e h
  case watchdogExpiry => exact memoriesWf_execWatchdogExpiry e h
  case claimDeadlock => exact memoriesWf_execClaimDeadlock e h
  case handlerWarpCreation => exact memoriesWf_execHandlerWarpCreation e h
  case l1Eviction => exact memoriesWf_execL1Eviction e h
  case homeAccessPerform => exact memoriesWf_execHomeAccessPerform e h
  case engineCommandStart => exact memoriesWf_execEngineCommandStart e h
  case engineCommandCompletion => exact memoriesWf_execEngineCommandCompletion e h
  case sweepPageFetch => exact memoriesWf_execSweepPageFetch e h
  case pageDelivery => exact memoriesWf_execPageDelivery e h
  case sweepHandlerCreation => exact memoriesWf_execSweepHandlerCreation e h
  case cardRead => exact memoriesWf_execCardRead e h
  case unitPlacement => exact memoriesWf_execUnitPlacement e h
  case anyQueuePlacement => exact memoriesWf_execAnyQueuePlacement e h
  case argkMemberStart => exact memoriesWf_execArgkMemberStart e h
  case amsArrival => exact memoriesWf_execAmsArrival e h
  case preemptionRequest => exact memoriesWf_execPreemptionRequest e h
  case warpStop => exact memoriesWf_execWarpStop e h
  case ptimeExpiry => exact memoriesWf_execPtimeExpiry e h
  case contextSave => exact memoriesWf_execContextSave e h
  case contextResume => exact memoriesWf_execContextResume e h
  case uncorrectableDataError => exact memoriesWf_execUncorrectableDataError e h
  case schedulingStateError => exact memoriesWf_execSchedulingStateError e h
  case enable => exact memoriesWf_execEnable e h
  case drain => exact memoriesWf_execDrain e h
  case unfence => exact memoriesWf_execUnfence e h
  case retire => exact memoriesWf_execRetire e h
  case recal => exact memoriesWf_execRecal e h
  case reload => exact memoriesWf_execReload e h
  case serviceCommandDone => exact memoriesWf_execServiceCommandDone e h
  case mailboxGo => exact memoriesWf_execMailboxGo e h
  case powerUp => exact memoriesWf_execPowerUp e h
  case imageArrival => exact memoriesWf_execImageArrival e h
  case coreStart => exact memoriesWf_execCoreStart e h
  case fresolve => exact memoriesWf_execFresolve e h
  case tlbinvPage => exact memoriesWf_execTlbinvPage e h
  case tlbinvAll => exact memoriesWf_execTlbinvAll e h
  case tlbInvalidationDone => exact memoriesWf_execTlbInvalidationDone e h
  case hostPost => exact memoriesWf_execHostPost e h
  case preemptCore => exact memoriesWf_execPreemptCore e h
  case preemptAll => exact memoriesWf_execPreemptAll e h
  case fqctlWrite => exact memoriesWf_execFqctlWrite e h
  case registerWrite => exact memoriesWf_execRegisterWrite e h
  case bar2Write => exact memoriesWf_execBar2Write e h
  case linkFlitReceive _ _ payload _ _ => exact memoriesWf_execLinkFlitReceive (payload := payload) e h
  case endToEndResend => exact memoriesWf_execEndToEndResend e h
  case remoteSyncArrival => exact memoriesWf_execRemoteSyncArrival e h
  case fabricResponseTimeout => exact memoriesWf_execFabricResponseTimeout e h
  case powerOverLimit => exact memoriesWf_execPowerOverLimit e h
  case thermalThrottle => exact memoriesWf_execThermalThrottle e h
  case thermalHalt => exact memoriesWf_execThermalHalt e h
  case icinvCompletion => exact memoriesWf_execIcinvCompletion e h
  case acknowledgementReturn => exact memoriesWf_execAcknowledgementReturn e h
  case spdmRequest => exact memoriesWf_execSpdmRequest e h
  case hostLinkTraining => exact memoriesWf_execHostLinkTraining e h

theorem State.memoriesWf_overhear {t : State} (h : t.memoriesWf = true) (s : State) (w : WarpRef) :
    (s.overhear t w).memoriesWf = true :=
  (s.overhear_ordered t w).memoriesWf h

/-- The act of a warp keeps the memories canonical. -/
theorem State.memoriesWf_act {s t : State} {w : WarpRef} (e : s.act w = .next t) (h : s.memoriesWf = true) :
    t.memoriesWf = true := by
  have hs : ({ s with focus := some w, stall := false } : State).memoriesWf = true := h
  unfold State.act at e
  dsimp only at e
  split at e
  · cases e; exact hs
  · exact memoriesWf_exec e hs
  · split at e
    · cases e; exact State.memoriesWf_takeTrap hs _ _
    · cases e; exact hs

/-- What an act takes of its core's cycle keeps the memories canonical. -/
theorem State.memoriesWf_charge {s : State} (h : s.memoriesWf = true) (w : WarpRef) (a : Asks) (stamp : Nat) (old : Core) :
    (s.charge w a stamp old).memoriesWf = true := by
  unfold State.charge
  grind [State.memoriesWf_modCore, State.memoriesWf_modWarp]

/-- The act of a warp in its cycle keeps the memories canonical. -/
theorem State.memoriesWf_issueAct {s t : State} {w : WarpRef} (e : s.issueAct w = .next t) (h : s.memoriesWf = true) :
    t.memoriesWf = true := by
  unfold State.issueAct at e
  split at e
  · cases e; exact h
  · split at e
    · cases e; exact h
    · split at e
      · next ha =>
        split at e
        · cases e; exact h
        · cases e
          exact State.memoriesWf_charge (State.memoriesWf_overhear (State.memoriesWf_act ha h) s w) _ _ _ _
      · cases e
      · cases e

/-- A cycle of the clock keeps the memories canonical. -/
theorem State.memoriesWf_cycle {s : State} (h : s.memoriesWf = true) : s.cycle.memoriesWf = true := by
  unfold State.cycle
  split
  · exact h
  · extract_lets n t
    have hn : n.memoriesWf = true := State.memoriesWf_of_near h rfl (near_of_mem_map_zipIdx fun k => by split <;> rfl)
    have ht : t.memoriesWf = true := State.memoriesWf_verify (State.memoriesWf_tick hn)
    exact State.memoriesWf_of_near ht rfl (near_of_mem_map_zipIdx fun k => by split <;> rfl)

/-- An event of the agenda keeps the memories canonical. -/
theorem State.memoriesWf_eventAct {s t : State} {i : Instr} (e : s.eventAct i = .next t) (h : s.memoriesWf = true) :
    t.memoriesWf = true := by
  unfold State.eventAct at e
  split at e
  · exact State.memoriesWf_issueAct e h
  · split at e
    · cases e; exact h
    · exact memoriesWf_exec e h

/-- Settles O59, by the act that the agenda names. -/
theorem stepsKeepMemoriesCanonical : Obligations.StepsKeepMemoriesCanonical := by
  intro s t h e
  unfold step at e
  split at e
  · cases e; exact h
  · next r _ => exact State.memoriesWf_issueAct e (s := { s with agenda := r }) h
  · next r _ => cases e; exact State.memoriesWf_cycle (s := { s with agenda := r }) h
  · next r _ => exact State.memoriesWf_eventAct e (s := { s with agenda := r }) h

end Sys2Proof.Machine

/-! PROOFS. Memory instructions that pass their checks (O24 to O30): what each holds, awaits and reads at its issue. -/

namespace Sys2Proof.Machine

/-! ### Loads -/

section Loads

variable {s s1 s2 : State} {c : Ctx} {m : Mask} {o : Opnds} {sz : BitVec 3} {la : BitVec 4} (hm : c.mask o.k = some m)
  (h0 : m ≠ 0#32) (hr : c.ready o.k (szCodes o.d sz ++ [o.a, o.b]))

include hm h0 hr

/-- A load whose lanes are located and whose sectors have request entries reads them through the L1 and awaits its registers
(R132, R64). -/
theorem exec_ld_of_ok {cp : BitVec 2} {ls : List (Nat × Word × Page)} (hs : s.sees (.ld o sz cp la) = some c)
    (hloc : s.locateAll c (szBytes sz) .read (c.addresses m o.a o.b o.x (szBytes sz)) = (.ok ls, s1))
    (hreq : (s1.freshId c.w.core).2.takeReqs c.w.core (s1.freshId c.w.core).1 (laneSectors (szBytes sz) ls) = some s2) :
    exec (.ld o sz cp la) s = .next ((s2.loadLanes c.w.core sz (cp == 1#2) ls).2.issued c
      { c.r.await (s1.freshId c.w.core).1 (.win o.d (if sz.toNat = 7 then 4 else 1))
          (s2.loadLanes c.w.core sz (cp == 1#2) ls).1 la with mem := true }) := by
  refine exec_of_go (fun _ => rfl) hs ?_
  rw [Ctx.onLanes_of_ready hr hm h0, hloc]
  dsimp only
  rw [hreq]

/-- A near load that waits for nothing reads its bytes at issue and awaits its registers (R132, R64). -/
theorem exec_ldn_of_ok (hs : s.sees (.ldn o sz la) = some c) {ea : List (Nat × Word)}
    (hea : c.addresses m o.a o.b o.x (szBytes sz) = ea)
    (hok : ∀ x ∈ ea, c.l.nearOk c.w.core x.2 (szBytes sz) = true ∧ nearOff x.2 % szBytes sz = 0 ∧
      c.l.frozenFor (nearCore c.w.core x.2) c.w.core = false)
    (hwait : (s.core c.w.core).mustWait (c.nearRanges (szBytes sz) false ea) [] = false)
    (hfull : (s.core c.w.core).boardFull = false) (haway : c.l.awayFor (c.nearRanges (szBytes sz) false ea) = false) :
    exec (.ldn o sz la) s = .next ((s.freshId c.w.core).2.issued c
      (c.r.await (s.freshId c.w.core).1 (.win o.d (if sz.toNat = 7 then 4 else 1))
        (ea.flatMap fun x =>
          ((loadValues sz (s.nearBytes c.l (nearCore c.w.core x.2) (nearOff x.2) false (szBytes sz))).zipIdx).map
            fun e => (32 * e.2 + x.1, e.1)) la)) := by
  have hbad : c.nearBad (szBytes sz) ea = none :=
    Ctx.nearBad_of_ok fun x hx => ⟨(hok x hx).1, (hok x hx).2.1⟩
  have hfrozen : (ea.any fun x => c.l.frozenFor (nearCore c.w.core x.2) c.w.core) = false :=
    List.any_eq_false.mpr fun x hx => by simp [(hok x hx).2.2]
  refine exec_of_go (fun _ => rfl) hs ?_
  rw [Ctx.onLanes_of_ready hr hm h0]
  dsimp only
  rw [hea, hbad]
  simp only [hwait, hfull, haway, hfrozen, Bool.or_false, Bool.false_eq_true, if_false]

end Loads

/-- Settles O24, the load through the L1 and the near load. -/
theorem loadsComplete : Obligations.LoadsComplete := by
  intro s s1 s2 c m o sz cp la ls hm h0 hr n regs ea
  exact ⟨exec_ld_of_ok hm h0 hr, fun hs => exec_ldn_of_ok hm h0 hr hs rfl⟩

/-! ### Stores -/

/-- A translation changes no byte of memory. -/
theorem State.mem_pageOf {s t : State} {c tenant va : Nat} {x : Except Code Page} (e : s.pageOf c tenant va = (x, t)) :
    t.mem = s.mem := by
  unfold State.pageOf at e
  grind [State.drawBit, State.modCore, State.modDie]

theorem State.mem_translate {s t : State} {c tenant : Nat} {va : Word} {acc : Access} {x : Except Code Page}
    (e : s.translate c tenant va acc = (x, t)) : t.mem = s.mem := by
  unfold State.translate at e
  grind [State.mem_pageOf]

theorem State.mem_locate {s t : State} {c : Ctx} {a : Word} {n : Nat} {acc : Access} {x : Except (Code × Word) Page}
    (e : s.locate c a n acc = (x, t)) : t.mem = s.mem := by
  unfold State.locate at e
  grind [State.mem_translate]

theorem State.mem_locateAll {s t : State} {c : Ctx} {n : Nat} {acc : Access} {ls : List (Nat × Word)}
    {x : Except (Code × Word) (List (Nat × Word × Page))} (e : s.locateAll c n acc ls = (x, t)) : t.mem = s.mem := by
  induction ls generalizing s t x with
  | nil => cases e; rfl
  | cons y r ih =>
    unfold State.locateAll at e
    grind [State.mem_locate]

theorem State.mem_blocksOf {s t : State} {c tenant : Nat} {p : Page} {acc : Access} {js : List Nat}
    {x : Except (Code × Word) (List Block)} (e : s.blocksOf c tenant p acc js = (x, t)) : t.mem = s.mem := by
  induction js generalizing s t x with
  | nil => cases e; rfl
  | cons j r ih =>
    unfold State.blocksOf State.blockOf at e
    grind [State.mem_translate]

theorem State.mem_plainWrite {s t : State} {c tenant id : Nat} {na : Bool} {p : Page} {va : Nat} {bs : List Byte}
    {hs : List Held} {x : Except (Code × Word) (List Held)} (e : s.plainWrite c tenant id na p va bs hs = (x, t)) :
    t.mem = s.mem := by
  unfold State.plainWrite at e
  grind [State.mem_blocksOf]

/-- The data of a store is held, and no byte of memory changes. -/
theorem State.mem_storeLanes {s t : State} {c : Ctx} {id : Nat} {o : Opnds} {sz : BitVec 3} {na : Bool}
    {ls : List (Nat × Word)} {hs : List Held} {x : Except (Code × Word) (List Held)}
    (e : s.storeLanes c id o sz na ls hs = (x, t)) : t.mem = s.mem := by
  induction ls generalizing s t hs x with
  | nil => cases e; rfl
  | cons y r ih =>
    unfold State.storeLanes at e
    split at e
    · next hloc => cases e; exact State.mem_locate hloc
    · next hloc =>
      split at e
      · next hw => cases e; exact (State.mem_plainWrite hw).trans (State.mem_locate hloc)
      · next hw => rw [ih e, State.mem_plainWrite hw, State.mem_locate hloc]

/-- The bytes that a store of a lane on a plain page holds. -/
def Ctx.laneWrites (c : Ctx) (o : Opnds) (sz : BitVec 3) (x : Nat × Word × Page) : List ByteWrite :=
  (c.storeData o.d o.x sz x.1).zipIdx.map fun e =>
    { pa := x.2.2.phys x.2.1.toNat + e.2, mask := 0xFF#8, val := e.1 }

/-- A page whose format is plain. -/
def Page.plain (p : Page) : Prop := fmtBad p.fmt = false ∧ (fmtOf p.fmt).mx = false

theorem State.plainWrite_of_plain {p : Page} (hp : p.plain) (s : State) (c tenant id : Nat) (na : Bool) (va : Nat)
    (bs : List Byte) (hs : List Held) : s.plainWrite c tenant id na p va bs hs =
      (.ok (addHeld hs (.bytes na (bs.zipIdx.map fun e => { pa := p.phys va + e.2, mask := 0xFF#8, val := e.1 }))), s) := by
  obtain ⟨hbad, hmx⟩ := hp
  simp [State.plainWrite, hbad, hmx]

/-- Lanes on plain pages add their bytes, in order, to the one effect that a store holds. -/
theorem State.storeLanes_of_plain {s t : State} {c : Ctx} {id : Nat} {o : Opnds} {sz : BitVec 3} {na : Bool}
    {ea : List (Nat × Word)} {ls : List (Nat × Word × Page)} (h : s.locateAll c (szBytes sz) .write ea = (.ok ls, t))
    (hp : ∀ x ∈ ls, x.2.2.plain) (hea : ea ≠ []) {hs : List Held} {ws : List ByteWrite}
    (hadd : ∀ bs, addHeld hs (.bytes na bs) = [.bytes na (ws ++ bs)]) :
    s.storeLanes c id o sz na ea hs = (.ok [.bytes na (ws ++ ls.flatMap (c.laneWrites o sz))], t) := by
  induction ea generalizing s ls hs ws with
  | nil => exact absurd rfl hea
  | cons x r ih =>
    simp only [State.storeLanes, State.locateAll] at h ⊢
    cases hx : s.locate c x.2 (szBytes sz) .write with
    | mk p v =>
      cases p with
      | error e => simp [hx] at h
      | ok p =>
        rw [hx] at h
        dsimp only at h ⊢
        cases hl : v.locateAll c (szBytes sz) .write r with
        | mk q w =>
          cases q with
          | error e => simp [hl] at h
          | ok q =>
            rw [hl] at h
            cases h
            rw [State.plainWrite_of_plain (hp _ List.mem_cons_self), hadd]
            dsimp only
            cases r with
            | nil => cases hl; simp [State.storeLanes, Ctx.laneWrites]
            | cons y r =>
              rw [ih hl (fun y hy => hp y (List.mem_cons_of_mem _ hy)) (List.cons_ne_nil y r)
                (ws := ws ++ c.laneWrites o sz (x.1, x.2, p)) fun bs => by simp [addHeld, Ctx.laneWrites]]
              simp [Ctx.laneWrites]

section Stores

variable {s s1 : State} {c : Ctx} {m : Mask} {o : Opnds} {sz : BitVec 3} (hm : c.mask o.k = some m)
  (h0 : m ≠ 0#32) (hr : c.ready o.k (szCodes o.d sz ++ [o.a, o.b]))

/-- The lanes of a mask that is not empty have addresses. -/
theorem Ctx.addresses_ne_nil (c : Ctx) {m : Mask} (h0 : m ≠ 0#32) (a b x : BitVec 5) (n : Nat) :
    c.addresses m a b x n ≠ [] := by
  intro h
  refine h0 (BitVec.eq_of_getLsbD_eq fun j _ => ?_)
  have hnil : m.toList = [] := List.map_eq_nil_iff.mp h
  have hj := Mask.mem_toList m j
  simp only [hnil, List.not_mem_nil, false_iff, Bool.not_eq_true] at hj
  simp [hj]

include hm h0 hr

/-- A store all of whose lanes pass holds its data for the commit (R132). -/
theorem exec_st_of_ok {cp : BitVec 2} {hs : List Held} (hsees : s.sees (.st o sz cp) = some c)
    (hown : ∀ x ∈ c.addresses m o.a o.b o.x (szBytes sz), c.l.ownBad x.2.toNat (szBytes sz) = false)
    (h : (s.freshId c.w.core).2.storeLanes c (s.freshId c.w.core).1 o sz (cp == 1#2)
      (c.addresses m o.a o.b o.x (szBytes sz)) [] = (.ok hs, s1)) :
    exec (.st o sz cp) s = .next (s1.issued c { c.r with held := c.r.held ++ hs }) := by
  have hbad : ((c.addresses m o.a o.b o.x (szBytes sz)).any fun x => c.l.ownBad x.2.toNat (szBytes sz)) = false :=
    List.any_eq_false.mpr fun x hx => by simp [hown x hx]
  refine exec_of_go (fun _ => rfl) hsees ?_
  rw [Ctx.onLanes_of_ready hr hm h0]
  dsimp only
  rw [h]
  simp only [hbad, Bool.false_eq_true, if_false]

/-- A near store whose addresses pass holds each byte at its core and offset (R132). -/
theorem exec_stn_of_ok (hsees : s.sees (.stn o sz) = some c)
    (hok : ∀ x ∈ c.addresses m o.a o.b o.x (szBytes sz),
      c.l.nearOk c.w.core x.2 (szBytes sz) = true ∧ nearOff x.2 % szBytes sz = 0) :
    exec (.stn o sz) s = .next (s.issued c (c.r.hold (.near m ((c.addresses m o.a o.b o.x (szBytes sz)).flatMap fun x =>
      (c.storeData o.d o.x sz x.1).zipIdx.map fun e => (nearCore c.w.core x.2, nearOff x.2 + e.2, e.1))))) := by
  refine exec_of_go (fun _ => rfl) hsees ?_
  rw [Ctx.onLanes_of_ready hr hm h0]
  dsimp only
  rw [Ctx.nearBad_of_ok hok]

end Stores

/-- An instruction put back in its run leaves the near slices. -/
theorem State.near_issued (s : State) (c : Ctx) (r : Run) (core : Nat) :
    ((s.issued c r).core core).near = (s.core core).near :=
  State.core_modWarp_field Core.near (fun _ _ _ => rfl) _ _ _ _

/-- Settles O25: what the lanes of a store hold, and what a near store holds. -/
theorem storesComplete : Obligations.StoresComplete := by
  intro s s1 c m o sz cp ls hm h0 hr n ea
  refine ⟨fun hs hown => ⟨fun hs' h => ⟨exec_st_of_ok hm h0 hr hs hown h, (State.mem_storeLanes h :)⟩, fun h hp => ?_⟩,
    fun hs hok => ⟨exec_stn_of_ok hm h0 hr hs hok, rfl, State.near_issued s c _⟩⟩
  have hstore := State.storeLanes_of_plain (id := (s.freshId c.w.core).1) (o := o) (na := cp == 1#2) h hp
    (c.addresses_ne_nil h0 _ _ _ _) (hs := []) (ws := []) fun _ => rfl
  exact ⟨exec_st_of_ok hm h0 hr hs hown hstore, (State.mem_locateAll h :)⟩

/-! ### Formatted accesses -/

section Formatted

variable {s s1 s2 s3 : State} {c : Ctx} {m : Mask} {o : Opnds} {dt : BitVec 1} {rm : BitVec 3} {ftz chk : BitVec 1}
  (hm : c.mask o.k = some m) (h0 : m ≠ 0#32) (hr : c.ready o.k [o.d, o.a, o.b])

include hm h0 hr

/-- A formatted load whose elements are read awaits them (R134 to R136). -/
theorem exec_ldt_of_ok {la : BitVec 4} {vs : List (Nat × Word)} {fl : BitVec 5} {secs : List Nat}
    (hsees : s.sees (.ldt o dt rm ftz chk la) = some c)
    (hload : s.loadFormatted c o dt rm ftz chk m.toList = (.ok (vs, fl, secs), s1))
    (hreq : (s1.freshId c.w.core).2.takeReqs c.w.core (s1.freshId c.w.core).1 (dedup secs) = some s2) :
    exec (.ldt o dt rm ftz chk la) s = .next (s2.issued c
      { ((c.r.await (s1.freshId c.w.core).1 (.win o.d 1) vs la).flag fl).rounded rm m with mem := true }) := by
  refine exec_of_go (fun _ => rfl) hsees ?_
  rw [Ctx.onLanes_of_ready hr hm h0, hload]
  dsimp only
  rw [hreq]

end Formatted

/-- The code of an element of a formatted store, with its flags. -/
def EltWrite.encoded (e : EltWrite) (dt : BitVec 1) (rm : BitVec 3) (ftz : BitVec 1) : Nat × BitVec 5 :=
  encodeVal (fmtOf e.page.fmt).efmt rm (ftz == 1#1) e.rnd (decodeFtz (dtFmt dt) (ftz == 1#1) e.code)

theorem blockOrder_of_plain {es : List EltWrite} (h : ∀ e ∈ es, (fmtOf e.page.fmt).mx = false) : blockOrder es = [] := by
  have hnone : (es.filter fun e => (fmtOf e.page.fmt).mx) = [] :=
    List.filter_eq_nil_iff.mpr fun e he => by simp [h e he]
  simp [blockOrder, hnone]

section Formatted

variable {s s1 s3 : State} {c : Ctx} {m : Mask} {o : Opnds} {dt : BitVec 1} {rm : BitVec 3} {ftz chk : BitVec 1}
  {es : List EltWrite} (hm : c.mask o.k = some m) (h0 : m ≠ 0#32) (hr : c.ready o.k [o.d, o.a, o.b])
  (hsees : s.sees (.stt o dt rm ftz chk) = some c) (hstore : s.storeElements c o dt rm chk m.toList = (.ok es, s1))
  (hown : ∀ e ∈ es, let w := (fmtOf e.page.fmt).efmt.width
    c.l.ownBad (e.page.va + w * e.num / 8) ((w * e.num + w - 1) / 8 - w * e.num / 8 + 1) = false)

include hm h0 hr hsees hstore hown

/-- A formatted store of plain elements holds each encoded in its page's format (R137). -/
theorem exec_stt_of_plain (hplain : ∀ e ∈ es, (fmtOf e.page.fmt).mx = false) {ws : List ByteWrite}
    (hws : ws = es.flatMap fun e => bitWrites e.page.pa ((fmtOf e.page.fmt).efmt.width * e.num)
      (fmtOf e.page.fmt).efmt.width (e.encoded dt rm ftz).1) :
    exec (.stt o dt rm ftz chk) s = .next ((s1.freshId c.w.core).2.issued c
      (((if ws = [] then c.r else c.r.hold (.bytes false ws)).flag
        (es.foldl (fun x e => x ||| (e.encoded dt rm ftz).2) 0#5)).rounded rm m)) := by
  have hall : (es.filter fun e => !(fmtOf e.page.fmt).mx) = es :=
    List.filter_eq_self.mpr fun e he => by simp [hplain e he]
  have horder := blockOrder_of_plain hplain
  have hscale : c.l.scaleBad es = false := by simp [Launch.scaleBad, horder]
  refine exec_of_go (fun _ => rfl) hsees ?_
  rw [Ctx.onLanes_of_ready hr hm h0, hstore]
  dsimp only
  rw [horder, hall]
  simp only [State.blockWrites, hscale, Bool.false_or]
  rw [if_neg (by simpa using hown)]
  simp only [if_true, List.foldl_nil, BitVec.or_zero, List.flatMap_map, List.foldl_map]
  subst hws
  rfl

/-- A formatted store of elements in blocks holds one access a block (R138). -/
theorem exec_stt_of_blocks (hblocks : ∀ e ∈ es, (fmtOf e.page.fmt).mx = true) {hs : List HomeAcc} (hne : hs ≠ [])
    (hscale : c.l.scaleBad es = false)
    (hwrites : s1.blockWrites c.w.core c.tenant (dtFmt dt) rm (ftz == 1#1) es (blockOrder es) = (.ok hs, s3)) :
    exec (.stt o dt rm ftz chk) s = .next ((s3.freshId c.w.core).2.issued c
      (((c.r.hold (.home (s3.freshId c.w.core).1 24#5 0#32 hs)).flag
        (hs.foldl (fun x h => x ||| h.issueFlags) 0#5)).rounded rm m)) := by
  have hnone : (es.filter fun e => !(fmtOf e.page.fmt).mx) = [] :=
    List.filter_eq_nil_iff.mpr fun e he => by simp [hblocks e he]
  refine exec_of_go (fun _ => rfl) hsees ?_
  rw [Ctx.onLanes_of_ready hr hm h0, hstore]
  dsimp only
  rw [hnone, hwrites]
  simp only [hscale, Bool.false_or]
  rw [if_neg (by simpa using hown)]
  simp [hne]

end Formatted

/-- Settles O26, the formatted load and the two cases of the formatted store. -/
theorem formattedAccessesComplete : Obligations.FormattedAccessesComplete := by
  intro s s1 s2 s3 c m o dt rm ftz chk la vs fl secs es hm h0 hr
  refine ⟨exec_ldt_of_ok hm h0 hr, fun hsees hstore hes => ?_, fun hs hsees hstore hblocks hne hscale hown hwrites => ?_⟩
  · exact exec_stt_of_plain hm h0 hr hsees hstore (fun e he => (hes e he).2) (fun e he => (hes e he).1) rfl
  · exact exec_stt_of_blocks hm h0 hr hsees hstore hown hblocks hne hscale hwrites

/-! ### Atomics and futures -/

/-- The lanes of a mask each pass a check that the check of all of them passes. -/
theorem Mask.any_toList_eq_false {m : Mask} {p : Nat → Bool} (h : ∀ j, m.getLsbD j = true → p j = false) :
    m.toList.any p = false :=
  List.any_eq_false.mpr fun j hj => by simp [h j ((Mask.mem_toList m j).mp hj)]

/-- An atomic whose lanes pass holds one access a lane (R140, R141). -/
theorem State.issueAtom_of_ok {s s1 : State} {i : Instr} {c : Ctx} {m : Mask} {op : AtomOp} {o : Opnds} {scope : BitVec 3}
    {w : BitVec 1} {hs : List HomeAcc} (hexec : exec i s = s.issueAtom i op o scope w) (hm : c.mask o.k = some m)
    (h0 : m ≠ 0#32)
    (hown : ∀ j, m.getLsbD j = true → c.l.ownBad (c.src o.a o.x j).toNat (if w = 1#1 then 8 else 4) = false)
    (hsees : s.sees i = some c) (hr : c.ready o.k ([o.d, o.a, o.b] ++ (if op = .cas then [o.x] else [])))
    (h : s.atomLanes c op (w == 1#1) scope.toNat o.b o.x (m.toList.map fun j => (j, c.src o.a o.x j)) = (.ok hs, s1)) :
    exec i s = .next ((s1.freshId c.w.core).2.issued c
      { c.r.hold (.home (s1.freshId c.w.core).1 o.d m hs) with mem := true }) := by
  rw [hexec, State.issueAtom, State.issue_of_sees hsees, Ctx.onLanes_of_ready hr hm h0, h]
  simp only [Mask.any_toList_eq_false hown, Bool.false_eq_true, if_false]

/-- Settles O27: the twelve atomics are issued alike. -/
theorem atomicsComplete : Obligations.AtomicsComplete := by
  intro s s1 c m o scope w hs hm h0 hown
  refine ⟨?_, ?_, ?_, ?_, ?_, ?_, ?_, ?_, ?_, ?_, ?_, ?_⟩ <;>
    exact State.issueAtom_of_ok rfl hm h0 hown

/-- A filling or a clearing of futures whose lanes pass holds one access a lane (R153). -/
theorem State.issueFuture_of_ok {s s1 : State} {i : Instr} {c : Ctx} {m : Mask} {k : BitVec 3} {a x : BitVec 5}
    {scope : BitVec 3} {uses : List (BitVec 5)} {val : Ctx → Nat → Option Word} {ls : List (Nat × Word × Page)}
    (hsees : s.sees i = some c) (hm : c.mask k = some m) (h0 : m ≠ 0#32) (hr : c.ready k uses)
    (h : s.locateWrites c 16 (m.toList.map fun j => (j, c.src a x j)) = (.ok ls, s1))
    (hown : ∀ e ∈ ls, c.l.ownBad e.2.1.toNat 16 = false) :
    s.issueFuture i k a x scope uses val = .next ((s1.freshId c.w.core).2.issued c
      { c.r.hold (.home (s1.freshId c.w.core).1 24#5 m (ls.map fun e =>
          .future (c.thread e.1) e.2.1.toNat (e.2.2.phys e.2.1.toNat) scope.toNat (val c e.1))) with mem := true }) := by
  have hany : (ls.any fun e => c.l.ownBad e.2.1.toNat 16) = false := List.any_eq_false.mpr fun e he => by simp [hown e he]
  rw [State.issueFuture, State.issue_of_sees hsees, Ctx.onLanes_of_ready hr hm h0, h]
  simp only [hany, Bool.false_eq_true, if_false]

section Futures

variable {s s1 s2 s3 : State} {c : Ctx} {m : Mask} {k : BitVec 3} {d a : BitVec 5} {scope : BitVec 3} {la : BitVec 4}
  {ls : List (Nat × Word × Page)} (hm : c.mask k = some m) (h0 : m ≠ 0#32) (hr : c.ready k [d, a])
  (hsees : s.sees (.fread k d a scope la) = some c)
  (hloc : s.locateAll c 16 .read (m.toList.map fun j => (j, c.src a 0#5 j)) = (.ok ls, s1))
  (hout : s1.depositOut c.w = false) (hturn : s1.homeBefore c.w c.p.queued (laneSectors 16 ls) = false)
  (hmade : s1.decideAll c.p.launch c.w (ls.map fun x => (c.thread x.1, x.2.1.toNat)) = .made s2)
  (hreq : (s2.freshId c.w.core).2.takeReqs c.w.core (s2.freshId c.w.core).1 (laneSectors 16 ls) = some s3)

/-- A lane's future is full at its home. -/
def State.futureFull (t : State) (x : Nat × Word × Page) : Bool :=
  (t.readWord (x.2.2.phys x.2.1.toNat + 8)).getLsbD 0

include hm h0 hr hsees hloc hout hturn hmade hreq

/-- A read of futures that are all full awaits their values (R152). -/
theorem exec_fread_of_full (hfull : ∀ x ∈ ls, (s3.readAtHome c.w (laneSectors 16 ls)).futureFull x = true) :
    exec (.fread k d a scope la) s = .next ((s3.readAtHome c.w (laneSectors 16 ls)).issued c
      { c.r.await (s2.freshId c.w.core).1 (.win d 1)
          (ls.map fun x => (x.1, (s3.readAtHome c.w (laneSectors 16 ls)).readWord (x.2.2.phys x.2.1.toNat))) la
        with mem := true }) := by
  have hnone : (ls.filter fun x => !(s3.readAtHome c.w (laneSectors 16 ls)).futureFull x) = [] :=
    List.filter_eq_nil_iff.mpr fun x hx => by simp [hfull x hx]
  unfold State.futureFull at hnone
  refine exec_of_go (fun _ => rfl) hsees ?_
  rw [Ctx.onLanes_of_ready hr hm h0, hloc]
  dsimp only
  rw [hout, hturn, hmade]
  dsimp only
  rw [hreq]
  dsimp only
  rw [hnone]
  rfl

/-- One of them empty, it takes FUTEMPTY with the lanes of the empty ones (R152). -/
theorem exec_fread_of_empty {y : Nat × Word × Page} {rest : List (Nat × Word × Page)}
    (hempty : (ls.filter fun x => !(s3.readAtHome c.w (laneSectors 16 ls)).futureFull x) = y :: rest) :
    exec (.fread k d a scope la) s = .next ((s3.readAtHome c.w (laneSectors 16 ls)).takeTrap c.w
      { c.trap .futempty (infoOf y.2.1) with
        lanes := some ((y :: rest).foldl (fun m e => m ||| BitVec.ofNat 32 (2 ^ e.1)) 0#32) }) := by
  unfold State.futureFull at hempty
  refine exec_of_trap (fun _ => rfl) hsees ?_
  rw [Ctx.onLanes_of_ready hr hm h0, hloc]
  dsimp only
  rw [hout, hturn, hmade]
  dsimp only
  rw [hreq]
  dsimp only
  rw [hempty]
  rfl

end Futures

theorem exec_ffill (k : BitVec 3) (a b x : BitVec 5) (scope : BitVec 3) (s : State) : exec (.ffill k a b x scope) s =
    s.issueFuture (.ffill k a b x scope) k a x scope [a, b] fun c j => some (c.src b x j) := by
  show execFfill k a b x scope s = _
  rw [execFfill]

theorem exec_fclr (k : BitVec 3) (a x : BitVec 5) (scope : BitVec 3) (s : State) : exec (.fclr k a x scope) s =
    s.issueFuture (.fclr k a x scope) k a x scope [a] fun _ _ => none := by
  show execFclr k a x scope s = _
  rw [execFclr]

/-- Settles O30, by the reads, then the fillings and clearings. -/
theorem futuresComplete : Obligations.FuturesComplete := by
  intro s s1 s2 s3 c m k d a b x scope la ls hm h0
  refine ⟨fun hr hsees hloc hout hturn hmade hreq => ⟨exec_fread_of_full hm h0 hr hsees hloc hout hturn hmade hreq,
    fun y rest => exec_fread_of_empty hm h0 hr hsees hloc hout hturn hmade hreq⟩,
    fun h hown => ⟨fun hr hsees => ?_, fun hr hsees => ?_⟩⟩
  · exact (exec_ffill k a b x scope s).trans (State.issueFuture_of_ok hsees hm h0 hr h hown)
  · exact (exec_fclr k a x scope s).trans (State.issueFuture_of_ok hsees hm h0 hr h hown)

/-! ### Bindings, releases, acquires, fences and publications -/

section Bindings

variable {s : State} {c : Ctx} {i : Instr} {a b cc : BitVec 5} (hsees : s.sees i = some c) (hr : c.busy [a, b, cc] = false)
  (hbase : (c.low c.k0 a 0#5).toNat % 32 = 0) (hlen : (c.low c.k0 b 0#5).toNat % 32 = 0)
  (hg : (c.low c.k0 cc 0#5).toNat % 8 = 0)

/-- Bindings that a run holds already. -/
def Run.stagedBinds (r : Run) : List (Word × Word × Word) :=
  r.held.filterMap fun h => match h with | .bind true x y z => some (x, y, z) | _ => none

include hsees hr hbase hlen hg

/-- A binding or unbinding whose addresses are aligned is held where the table has room; one of no bytes does nothing
(R147). -/
theorem issueBind_of_ok {add : Bool} (hroom : add = true → c.l.binds.length + c.r.stagedBinds.length < 512) :
    s.issueBind i add a b cc = .next (s.issued c (if c.low c.k0 b 0#5 = 0#64 then c.r else
      c.r.hold (.bind add (c.low c.k0 a 0#5) (c.low c.k0 b 0#5) (c.low c.k0 cc 0#5)))) := by
  rw [State.issueBind, State.issue_of_sees hsees]
  simp only [hr, hbase, hlen, hg, bne_self_eq_false, Bool.false_eq_true, if_false]
  by_cases hzero : c.low c.k0 b 0#5 = 0#64
  · simp only [hzero, if_true]
  · simp only [hzero, if_false]
    rw [if_neg]
    intro hfull
    simp only [Bool.and_eq_true, decide_eq_true_eq] at hfull
    obtain ⟨⟨⟨hadd, -⟩, -⟩, hle⟩ := hfull
    have hmany : 512 ≤ c.l.binds.length + c.r.stagedBinds.length :=
      hle.trans (Nat.add_le_add_left (List.length_filter_le _ _) _)
    exact absurd hmany (Nat.not_le.mpr (hroom hadd))

end Bindings

/-- The bindings a run holds, counted. -/
theorem Run.length_stagedBinds (r : Run) : r.stagedBinds.length =
    (r.held.filter fun h => match h with | .bind true _ _ _ => true | _ => false).length := by
  unfold Run.stagedBinds
  rw [← List.countP_eq_length_filter, List.length_filterMap_eq_countP]
  refine List.countP_congr fun h _ => ?_
  split <;> simp_all

theorem exec_bind (a b cc : BitVec 5) (s : State) : exec (.bind a b cc) s = s.issueBind (.bind a b cc) true a b cc := by
  show execBind a b cc s = _
  rw [execBind]

theorem exec_unbind (a b cc : BitVec 5) (s : State) :
    exec (.unbind a b cc) s = s.issueBind (.unbind a b cc) false a b cc := by
  show execUnbind a b cc s = _
  rw [execUnbind]

/-- A fence with no deposit of its warp on the way is held; one of cluster scope or wider writes back and drops the sectors
of its core at issue (R150). -/
theorem exec_fence_of_ok {s : State} {c : Ctx} {scope : BitVec 3} (hsees : s.sees (.fence scope) = some c)
    (hout : s.depositOut c.w = false) : exec (.fence scope) s = .next
      ((if 3 ≤ scope.toNat then s.flushAll c.w.core else s).issued c (c.r.hold (.fence scope.toNat))) := by
  refine exec_of_go (fun _ => rfl) hsees ?_
  rw [hout]
  rfl

/-- A publication of a shadow region of its own core is held (R151). -/
theorem exec_publish_of_ok {s : State} {c : Ctx} {a : BitVec 5} {n : Nat} {sh : Nat × Nat} (hr : c.busy [a] = false)
    (hsees : s.sees (.publish a) = some c)
    (hregion : (c.l.card.shadows.zipIdx.find? fun e => e.1.1 == nearOff (c.low c.k0 a 0#5)) = some (sh, n))
    (hhigh : bitsOf (c.low c.k0 a 0#5) 63 32 = 0) (hmid : bitsOf (c.low c.k0 a 0#5) 23 19 = 0)
    (hcore : nearCore c.w.core (c.low c.k0 a 0#5) = c.w.core) (hplace : (c.l.place? c.w.core).isSome) :
    exec (.publish a) s = .next (s.issued c (c.r.hold (.publish n))) := by
  refine exec_of_go (fun _ => rfl) hsees ?_
  simp only [hr, hregion, hhigh, hmid, hcore, hplace, beq_self_eq_true, Bool.and_true, Bool.false_eq_true, if_false,
    if_true]

section Guards

variable {s s1 s2 s3 : State} {c : Ctx} {m : Mask} {k : BitVec 3} {d a : BitVec 5} {scope : BitVec 3} {la : BitVec 4}
  {p : Page} (hm : c.mask k = some m) (h0 : m ≠ 0#32)

include hm h0

/-- A release whose guard word is located holds its access (R148). -/
theorem exec_rel_of_ok (hr : c.ready k [a]) (hsees : s.sees (.rel k a scope) = some c)
    (hloc : s.locate c (c.low m a 0#5) 8 .modify = (.ok p, s1)) (hfmt : fmtBad p.fmt = false)
    (hown : c.l.ownBad (c.low m a 0#5).toNat 8 = false) :
    exec (.rel k a scope) s = .next ((s1.freshId c.w.core).2.issued c (c.r.hold
      (.rel (s1.freshId c.w.core).1 scope.toNat (c.low m a 0#5).toNat (p.phys (c.low m a 0#5).toNat) (c.lowThread m) m))) := by
  refine exec_of_go (fun _ => rfl) hsees ?_
  rw [Ctx.onLanes_of_ready hr hm h0]
  dsimp only
  rw [hloc]
  simp only [hfmt, hown, Bool.false_eq_true, if_false]

/-- An acquire whose turn has come reads its guard word at its home and awaits it; of cluster scope or wider, it writes
back and drops the sectors bound to the word first (R149). -/
theorem exec_acq_of_ok (hr : c.ready k [d, a]) (hsees : s.sees (.acq k d a scope la) = some c) {g : Word}
    (hg : c.low m a 0#5 = g) (hloc : s.locate c g 8 .read = (.ok p, s1)) (hout : s1.depositOut c.w = false)
    (hturn : s1.homeBefore c.w c.p.queued [p.phys g.toNat / 32] = false)
    (hmade : s1.decideSync c.p.launch (some c.w) (c.lowThread m) g.toNat = .made s2)
    (hreq : (s2.freshId c.w.core).2.takeReqs c.w.core (s2.freshId c.w.core).1 [p.phys g.toNat / 32] = some s3)
    {home : State} (hhome : home = s3.readAtHome c.w [p.phys g.toNat / 32]) :
    exec (.acq k d a scope la) s = .next
      ((if 3 ≤ scope.toNat then
          (home.boundSectors c.w.core c.l g).foldl (fun s sec => s.flushSector c.w.core sec) home else home).issued c
        (c.r.await (s2.freshId c.w.core).1 (.win d 1) (m.toList.map fun j => (j, home.readWord (p.phys g.toNat))) la)) := by
  subst hhome hg
  refine exec_of_go (fun _ => rfl) hsees ?_
  rw [Ctx.onLanes_of_ready hr hm h0]
  dsimp only
  rw [hloc]
  dsimp only
  rw [hout, hturn, hmade]
  dsimp only
  rw [hreq]
  rfl

end Guards

/-- Settles O29, one instruction after another. -/
theorem synchronisationInstructionsComplete : Obligations.SynchronisationInstructionsComplete := by
  intro s s1 s2 s3 c m k d a b cc scope la p
  refine ⟨?_, exec_fence_of_ok, fun n sh hr hsees => exec_publish_of_ok hr hsees, fun hm h0 => ⟨exec_rel_of_ok hm h0,
    fun hr hsees hloc hout hturn hmade hreq => exec_acq_of_ok hm h0 hr hsees rfl hloc hout hturn hmade hreq rfl⟩⟩
  intro hr base len g hbase hlen hg
  refine ⟨fun hsees => ?_, fun hsees hroom => ?_⟩
  · exact (exec_unbind a b cc s).trans (issueBind_of_ok hsees hr hbase hlen hg fun h => absurd h Bool.false_ne_true)
  · have hcount : c.l.binds.length + c.r.stagedBinds.length < 512 := by
      rw [Run.length_stagedBinds]
      exact hroom
    exact (exec_bind a b cc s).trans (issueBind_of_ok hsees hr hbase hlen hg fun _ => hcount)

end Sys2Proof.Machine

/-! PROOFS. Bytes, homes and the L1 of a core: what a byte written, a sector written back and a sector put leave of what a core
reads and of what the homes hold (R112, R115, R116). -/

namespace Sys2Proof.Machine

/-! ### Bytes of numbers and of sectors -/

/-- A byte of the number that a list of bytes holds. -/
theorem bytesToNat_byte (bs : List Byte) (i : Nat) : bytesToNat bs / 2 ^ (8 * i) % 2 ^ 8 = (bs.getD i 0#8).toNat := by
  induction bs generalizing i with
  | nil => simp [bytesToNat]
  | cons b r ih =>
    unfold bytesToNat
    cases i with
    | zero =>
      have := b.isLt
      simp only [Nat.mul_zero, Nat.pow_zero, Nat.div_one, List.getD_cons_zero]
      omega
    | succ i =>
      have hdiv : (b.toNat + 256 * bytesToNat r) / 256 = bytesToNat r := by
        have := b.isLt
        omega
      rw [List.getD_cons_succ, ← ih i, Nat.mul_succ, Nat.add_comm (8 * i), Nat.pow_add, ← Nat.div_div_eq_div_mul, hdiv]

/-- A list of bytes fills as many bytes of a number. -/
theorem bytesToNat_lt (bs : List Byte) : bytesToNat bs < 2 ^ (8 * bs.length) := by
  induction bs with
  | nil => simp [bytesToNat]
  | cons b r ih =>
    have := b.isLt
    rw [bytesToNat, List.length_cons, Nat.mul_succ, Nat.pow_add]
    omega

/-- A byte of a sector's data. -/
theorem sectorByte_sectorOf {bs : List Byte} (h : bs.length ≤ 32) (i : Nat) : sectorByte (sectorOf bs) i = bs.getD i 0#8 := by
  refine BitVec.eq_of_toNat_eq ?_
  have hlt : bytesToNat bs < 2 ^ 256 :=
    (bytesToNat_lt bs).trans_le (Nat.pow_le_pow_right (by decide) (by omega))
  rw [← bytesToNat_byte, sectorByte, sectorOf, BitVec.extractLsb'_toNat, BitVec.toNat_ofNat, Nat.mod_eq_of_lt hlt,
    Nat.shiftRight_eq_div_pow]

/-- A byte of a sector some of whose bytes are replaced. -/
theorem sectorByte_sectorWith (d : BitVec 256) (f : Nat → Option Byte) {i : Nat} (hi : i < 32) :
    sectorByte (sectorWith d f) i = (f i).getD (sectorByte d i) := by
  rw [sectorWith, sectorByte_sectorOf (by simp)]
  simp [List.getD_eq_getElem?_getD, hi]

theorem State.length_readBytes (s : State) (pa n : Nat) : (s.readBytes pa n).length = n := by
  induction n generalizing pa with
  | zero => rfl
  | succ n ih => simp [State.readBytes, ih]

/-- The bytes read at their homes, one by one. -/
theorem State.getD_readBytes (s : State) (pa : Nat) {n i : Nat} (hi : i < n) :
    (s.readBytes pa n).getD i 0#8 = s.readByte (pa + i) := by
  induction n generalizing pa i with
  | zero => omega
  | succ n ih =>
    cases i with
    | zero => rfl
    | succ i => rw [State.readBytes, List.getD_cons_succ, ih (pa + 1) (by omega), Nat.add_right_comm, Nat.add_assoc]

/-! ### Cells -/

/-- The address within the device of an address of its own node (R369). -/
def State.ownPa (s : State) (pa : Nat) : Nat :=
  let n := pa / 2 ^ 44 % 256
  if n != 0 && n != 255 && n == s.dev.nodeid.toNat then pa % 2 ^ 44 else pa

/-- The cell of an address whose block may have been moved to a spare (R383). -/
def State.spareCell (s : State) (p : Nat) : Nat :=
  match s.dev.spares.find? fun e => e.1 == p / 4096 with
  | some e => 2 ^ 60 + e.2 * 4096 + p % 4096
  | none => p

theorem State.cell_def (s : State) (pa : Nat) : s.cell pa = s.spareCell (s.ownPa pa) := rfl

theorem State.ownPa_eq (s : State) (pa : Nat) : s.ownPa pa = s.ownPa (4096 * (pa / 4096)) + pa % 4096 := by
  have hnode : 4096 * (pa / 4096) / 2 ^ 44 % 256 = pa / 2 ^ 44 % 256 := by omega
  unfold State.ownPa
  simp only [hnode]
  split <;> omega

theorem State.ownPa_page_mod (s : State) (n : Nat) : s.ownPa (4096 * n) % 4096 = 0 := by
  unfold State.ownPa
  dsimp only
  split <;> omega

theorem State.spareCell_add (s : State) {p i : Nat} (hp : p % 4096 = 0) (hi : i < 4096) :
    s.spareCell (p + i) = s.spareCell p + i := by
  have hpage : (p + i) / 4096 = p / 4096 := by omega
  unfold State.spareCell
  rw [hpage]
  split <;> omega

theorem State.spareCell_mod (s : State) {p : Nat} (hp : p % 4096 = 0) : s.spareCell p % 4096 = 0 := by
  unfold State.spareCell
  split <;> omega

/-- The cells of a page of 4 KiB lie in order from a multiple of 4,096. -/
theorem State.cell_eq (s : State) (pa : Nat) : s.cell pa = s.cell (4096 * (pa / 4096)) + pa % 4096 := by
  rw [s.cell_def, s.ownPa_eq, s.spareCell_add (s.ownPa_page_mod _) (Nat.mod_lt _ (by decide)), s.cell_def]

theorem State.cell_page_mod (s : State) (n : Nat) : s.cell (4096 * n) % 4096 = 0 := by
  rw [s.cell_def]
  exact s.spareCell_mod (s.ownPa_page_mod n)

/-- The cells of a sector lie in order from its first. -/
theorem State.cell_sector (s : State) (pa : Nat) : s.cell pa = s.cell (32 * (pa / 32)) + pa % 32 := by
  rw [s.cell_eq pa, s.cell_eq (32 * (pa / 32))]
  have : 32 * (pa / 32) / 4096 = pa / 4096 := by omega
  rw [this]
  omega

/-- The first cell of a sector is a multiple of 32. -/
theorem State.cell_sector_mod (s : State) (sec : Nat) : s.cell (32 * sec) % 32 = 0 := by
  have := s.cell_page_mod (32 * sec / 4096)
  rw [s.cell_eq]
  omega

/-- Two addresses are of one cell where their sectors are of the same cells and they have the same place in them. -/
theorem State.cell_eq_iff (s : State) (a b : Nat) :
    s.cell a = s.cell b ↔ s.cell (32 * (a / 32)) = s.cell (32 * (b / 32)) ∧ a % 32 = b % 32 := by
  have ha := s.cell_sector_mod (a / 32)
  have hb := s.cell_sector_mod (b / 32)
  rw [s.cell_sector a, s.cell_sector b]
  omega

/-! ### Sectors put and dropped -/

theorem Tab.length_place {α : Type} (t : Tab α) (k : Nat) (v : α) : (Tab.place t k v).length = t.length + 1 := by
  induction t with
  | nil => rfl
  | cons e r ih =>
    unfold Tab.place
    split <;> simp [ih]

theorem Tab.length_drop_le {α : Type} (t : Tab α) (k : Nat) : (Tab.drop t k).length ≤ t.length := by
  induction t with
  | nil => exact Nat.le_refl _
  | cons e r ih =>
    unfold Tab.drop
    split <;> simp only [List.length_cons] <;> omega

/-- A key put makes a dictionary longer by one at most. -/
theorem Dict.length_put_le {α : Type} (t : Dict α) (k : Nat) (v : α) : (Dict.put t k v).length ≤ t.length + 1 := by
  rw [Dict.put, Tab.length_place]
  exact Nat.add_le_add_right (Tab.length_drop_le t k) 1

/-- A key that is there put again does not make it longer. -/
theorem Dict.length_put_le_of_some {α : Type} {t : Dict α} {k : Nat} {x : α} (h : Dict.find t k = some x) (v : α) :
    (Dict.put t k v).length ≤ t.length := by
  have hlt : (Tab.drop t k).length < t.length := by
    induction t with
    | nil => cases h
    | cons e r ih =>
      unfold Tab.drop
      by_cases he : e.1 = k
      · rw [if_pos he]
        exact Nat.lt_succ_of_le (Tab.length_drop_le r k)
      · rw [if_neg he]
        rw [Dict.find, if_neg he] at h
        exact Nat.succ_lt_succ (ih h)
  rw [Dict.put, Tab.length_place]
  exact hlt

/-- The sector that a core holds under a number. -/
def State.l1At (s : State) (c sec : Nat) : Option Sector := Dict.find (s.core c).l1 sec

theorem State.coreByte_eq (s : State) (c pa : Nat) : s.coreByte c pa = match s.l1At c (pa / 32) with
    | some x => if x.filled || x.dirty.getLsbD (pa % 32) then sectorByte x.data (pa % 32) else s.readByte pa
    | none => s.readByte pa := rfl

theorem State.flushedByte_eq (s : State) (c pa : Nat) : s.flushedByte c pa = match s.l1At c (pa / 32) with
    | some x => if x.dirty.getLsbD (pa % 32) then sectorByte x.data (pa % 32) else s.readByte pa
    | none => s.readByte pa := rfl

theorem State.l1At_setSector {s : State} {c : Nat} (hc : c < s.cores.length) (sec : Nat) (x : Sector) (k : Nat) :
    (s.setSector c sec x).l1At c k = if k = sec then some x else s.l1At c k := by
  simp only [State.l1At, State.setSector, State.core_modCore, hc, and_self, if_true, Dict.find_put]

@[simp] theorem State.readByte_setSector (s : State) (c sec : Nat) (x : Sector) (pa : Nat) :
    (s.setSector c sec x).readByte pa = s.readByte pa := rfl

theorem State.length_l1_setSector_le (s : State) (c sec : Nat) (x : Sector) :
    ((s.setSector c sec x).core c).l1.length ≤ (s.core c).l1.length + 1 := by
  rw [State.setSector, State.core_modCore]
  split
  · exact Dict.length_put_le _ _ _
  · exact Nat.le_succ _

/-- While the L1 has room, a sector put evicts none. -/
theorem State.putSector_of_room {s : State} {c : Nat} (h : (s.core c).l1.length < 8192) (sec : Nat) (x : Sector) :
    s.putSector c sec x = s.setSector c sec x := by
  rw [State.putSector, State.roomInL1, if_pos h, ite_self]

/-! ### What a step leaves of the cells, the cores and the homes -/

/-- A step after which each address names the cell it did, there are as many cores, and the core has room for no more than `n`
sectors fewer. -/
structure State.L1Step (s t : State) (c n : Nat) : Prop where
  cell : t.cell = s.cell
  cores : t.cores.length = s.cores.length
  l1 : (t.core c).l1.length ≤ (s.core c).l1.length + n

theorem State.L1Step.refl (s : State) (c : Nat) : s.L1Step s c 0 := ⟨rfl, rfl, Nat.le_refl _⟩

theorem State.L1Step.trans {s t u : State} {c m n : Nat} (h : s.L1Step t c m) (h' : t.L1Step u c n) :
    s.L1Step u c (m + n) :=
  ⟨h'.cell.trans h.cell, h'.cores.trans h.cores, by have := h.l1; have := h'.l1; omega⟩

theorem State.l1Step_packets (s : State) (c : Nat) (secs : List Nat) : s.L1Step (s.packets secs) c 0 :=
  ⟨funext fun _ => State.packets_cell s secs _, by simp, by simp⟩

theorem State.l1Step_writeByte (s : State) (c pa : Nat) (v : Byte) : s.L1Step (s.writeByte pa v) c 0 :=
  ⟨rfl, rfl, Nat.le_refl _⟩

theorem State.l1Step_setSector (s : State) (c sec : Nat) (x : Sector) : s.L1Step (s.setSector c sec x) c 1 :=
  ⟨rfl, listChange_length _ _ _, s.length_l1_setSector_le c sec x⟩

theorem State.l1Step_setSector_of_some {s : State} {c sec : Nat} {y : Sector} (h : s.l1At c sec = some y) (x : Sector) :
    s.L1Step (s.setSector c sec x) c 0 := by
  refine ⟨rfl, listChange_length _ _ _, ?_⟩
  rw [State.setSector, State.core_modCore]
  split
  · exact Dict.length_put_le_of_some h x
  · exact Nat.le_refl _

/-! ### A sector written back and dropped (R116) -/

/-- The bytes of a sector that a mask marks, written to their homes. -/
theorem State.writeDirty_spec (s : State) (c sec : Nat) (x : Sector) (is : List Nat) (his : ∀ i ∈ is, i < 32) :
    let t := is.foldl (fun s i => if x.dirty.getLsbD i then s.writeByte (32 * sec + i) (sectorByte x.data i) else s) s
    s.L1Step t c 0 ∧ t.l1At c = s.l1At c ∧ ∀ pa, t.readByte pa =
      if s.cell (32 * (pa / 32)) = s.cell (32 * sec) ∧ pa % 32 ∈ is ∧ x.dirty.getLsbD (pa % 32) = true then
        sectorByte x.data (pa % 32) else s.readByte pa := by
  induction is generalizing s with
  | nil => exact ⟨State.L1Step.refl s c, rfl, fun pa => by simp⟩
  | cons i r ih =>
    have hi := his i List.mem_cons_self
    have hr (s : State) := ih s fun j hj => his j (List.mem_cons_of_mem i hj)
    simp only [List.foldl_cons]
    by_cases hd : x.dirty.getLsbD i = true
    · rw [if_pos hd]
      obtain ⟨hstep, hl1, hread⟩ := hr (s.writeByte (32 * sec + i) (sectorByte x.data i))
      refine ⟨(s.l1Step_writeByte c _ _).trans hstep, hl1, fun pa => ?_⟩
      have hcell : (s.writeByte (32 * sec + i) (sectorByte x.data i)).cell = s.cell := rfl
      have hsec : (32 * sec + i) / 32 = sec := by omega
      have hoff : (32 * sec + i) % 32 = i := by omega
      rw [hread, hcell, State.readByte_writeByte]
      simp only [List.mem_cons, s.cell_eq_iff pa, hsec, hoff]
      by_cases hpa : pa % 32 = i
      · subst hpa
        by_cases hc : s.cell (32 * (pa / 32)) = s.cell (32 * sec) <;> simp [hc, hd]
      · simp [hpa]
    · rw [if_neg hd]
      obtain ⟨hstep, hl1, hread⟩ := hr s
      refine ⟨hstep, hl1, fun pa => ?_⟩
      rw [hread]
      by_cases hpa : pa % 32 = i
      · subst hpa
        simp [hd]
      · simp [List.mem_cons, hpa]

theorem State.writeBack_of_none {s : State} {c sec : Nat} (h : s.l1At c sec = none) : s.writeBack c sec = s := by
  unfold State.l1At at h
  unfold State.writeBack
  rw [h]

section L1

variable {s : State} {c : Nat} (hc : c < s.cores.length)

/-- The bytes of the homes once a sector of a core is written back. -/
def State.homeAfter (s : State) (c sec pa : Nat) : Byte :=
  if s.cell (32 * (pa / 32)) = s.cell (32 * sec) then s.flushedByte c (32 * sec + pa % 32) else s.readByte pa

/-- Addresses of the same place in sectors of the same cells are one byte. -/
theorem State.readByte_congr {a b : Nat} (h : s.cell a = s.cell b) : s.readByte a = s.readByte b :=
  congrArg (Memory.read s.mem) h

theorem State.readByte_same_sector {sec pa : Nat} (h : s.cell (32 * (pa / 32)) = s.cell (32 * sec)) :
    s.readByte pa = s.readByte (32 * sec + pa % 32) := by
  refine State.readByte_congr ((s.cell_eq_iff _ _).mpr ⟨?_, by omega⟩)
  rw [h, show (32 * sec + pa % 32) / 32 = sec by omega]

include hc

/-- A sector written back: its dirty bytes are at their homes, and it is clean. -/
theorem State.writeBack_spec (sec : Nat) : s.L1Step (s.writeBack c sec) c 0 ∧
    (∀ pa, (s.writeBack c sec).readByte pa = s.homeAfter c sec pa) ∧
    ∀ k, (s.writeBack c sec).l1At c k =
      if k = sec then (s.l1At c sec).map fun x => { x with dirty := 0#32 } else s.l1At c k := by
  cases hx : s.l1At c sec with
  | none =>
    rw [State.writeBack_of_none hx]
    refine ⟨State.L1Step.refl s c, fun pa => ?_, fun k => ?_⟩
    · unfold State.homeAfter
      split
      · next h => rw [State.flushedByte_eq, show (32 * sec + pa % 32) / 32 = sec by omega, hx, State.readByte_same_sector h]
      · rfl
    · split
      · next h => rw [h, hx]; rfl
      · rfl
  | some x =>
    have hfind : Dict.find (s.core c).l1 sec = some x := hx
    unfold State.writeBack
    rw [hfind]
    dsimp only
    obtain ⟨u, hu⟩ : ∃ u, u = if x.dirty = 0#32 then s else s.packets [sec] := ⟨_, rfl⟩
    have hsu : s.L1Step u c 0 ∧ u.l1At c = s.l1At c ∧ u.readByte = s.readByte := by
      subst hu
      split
      · exact ⟨State.L1Step.refl s c, rfl, rfl⟩
      · exact ⟨s.l1Step_packets c _, by simp [State.l1At, funext_iff], by simp [funext_iff]⟩
    obtain ⟨hstep, hl1, hread⟩ := hsu
    obtain ⟨hstep', hl1', hread'⟩ := u.writeDirty_spec c sec x (List.range 32) fun i hi => List.mem_range.mp hi
    rw [← hu]
    have hcores := (hstep.trans hstep').cores
    refine ⟨(hstep.trans hstep').trans (State.l1Step_setSector_of_some (by rw [hl1', hl1, hx]) _), fun pa => ?_, fun k => ?_⟩
    · refine (hread' pa).trans ?_
      have hlt : pa % 32 < 32 := Nat.mod_lt _ (by decide)
      simp only [hstep.cell, List.mem_range, hlt, true_and, hread, State.homeAfter]
      rw [State.flushedByte_eq, show (32 * sec + pa % 32) / 32 = sec by omega,
        show (32 * sec + pa % 32) % 32 = pa % 32 by omega, hx]
      by_cases h : s.cell (32 * (pa / 32)) = s.cell (32 * sec)
      · simp only [h, true_and, if_true, State.readByte_same_sector h]
      · simp only [h, false_and, if_false]
    · rw [State.l1At_setSector (by rw [hcores]; exact hc), hl1', hl1]
      rfl

/-- An address of a sector, or of other cells than the sector's. -/
def State.inOrApart (s : State) (sec pa : Nat) : Prop := pa / 32 = sec ∨ s.cell (32 * (pa / 32)) ≠ s.cell (32 * sec)

omit hc in
theorem State.homeAfter_of_in {sec pa : Nat} (h : pa / 32 = sec) : s.homeAfter c sec pa = s.flushedByte c pa := by
  subst h
  rw [State.homeAfter, if_pos rfl, Nat.div_add_mod]

omit hc in
theorem State.homeAfter_of_apart {sec pa : Nat} (h : s.cell (32 * (pa / 32)) ≠ s.cell (32 * sec)) :
    s.homeAfter c sec pa = s.readByte pa := if_neg h

/-- What a core reads of a sector written back is what it read, and so is what it reads of other cells. -/
theorem State.coreByte_writeBack {sec pa : Nat} (h : s.inOrApart sec pa) :
    (s.writeBack c sec).coreByte c pa = s.coreByte c pa := by
  obtain ⟨-, hread, hl1⟩ := State.writeBack_spec hc sec
  rw [State.coreByte_eq, State.coreByte_eq, hl1]
  by_cases hin : pa / 32 = sec
  · rw [if_pos hin, hread, State.homeAfter_of_in hin, State.flushedByte_eq, hin]
    cases s.l1At c sec with
    | none => rfl
    | some x => cases hf : x.filled <;> simp [hf]
  · rw [if_neg hin, hread, State.homeAfter_of_apart (h.resolve_left hin)]

/-- The homes of a sector written back, and of other cells, will hold what they would have held. -/
theorem State.flushedByte_writeBack {sec pa : Nat} (h : s.inOrApart sec pa) :
    (s.writeBack c sec).flushedByte c pa = s.flushedByte c pa := by
  obtain ⟨-, hread, hl1⟩ := State.writeBack_spec hc sec
  rw [State.flushedByte_eq, hl1]
  by_cases hin : pa / 32 = sec
  · rw [if_pos hin, hread, State.homeAfter_of_in hin]
    cases s.l1At c sec with
    | none => rfl
    | some x => simp
  · rw [if_neg hin, hread, State.homeAfter_of_apart (h.resolve_left hin), State.flushedByte_eq]

end L1

/-! ### A byte of a plain store (R115, R132, R138) -/

/-- The byte that a store leaves: the bits outside its mask are what the core held. -/
def State.storedByte (s : State) (c : Nat) (w : ByteWrite) : Byte :=
  (w.val &&& w.mask) ||| (s.coreByte c w.pa &&& ~~~w.mask)

/-- A sector that is there, put again, evicts none. -/
theorem State.putSector_of_some {s : State} {c sec : Nat} {y : Sector} (h : s.l1At c sec = some y) (x : Sector) :
    s.putSector c sec x = s.setSector c sec x := by
  unfold State.l1At at h
  rw [State.putSector, h, Option.isSome_some, if_pos rfl]

/-- The mask of one byte of a sector. -/
theorem getLsbD_bit {i : Nat} (hi : i < 32) (j : Nat) : (BitVec.ofNat 32 (2 ^ i)).getLsbD j = decide (j = i) := by
  rw [BitVec.getLsbD_ofNat, Nat.testBit_two_pow]
  by_cases h : j = i
  · simp [h, hi]
  · simp [h, Ne.symm h]

/-- A sector of which a core holds nothing. -/
def Sector.blank : Sector := { data := 0#256, dirty := 0#32, filled := false }

/-- A sector with a byte replaced. -/
def Sector.withByte (x : Sector) (i : Nat) (v : Byte) : Sector :=
  { x with data := sectorWith x.data fun j => if j = i then some v else none }

/-- What a core reads of a sector it holds, over the byte at its home. -/
def Sector.shown (x : Sector) (i : Nat) (home : Byte) : Byte :=
  if x.filled || x.dirty.getLsbD i then sectorByte x.data i else home

theorem State.coreByte_eq_shown (s : State) (c pa : Nat) :
    s.coreByte c pa = ((s.l1At c (pa / 32)).getD Sector.blank).shown (pa % 32) (s.readByte pa) := by
  rw [State.coreByte_eq]
  cases s.l1At c (pa / 32) with
  | none => simp [Sector.shown, Sector.blank]
  | some x => rfl

theorem Sector.data_withByte (x : Sector) (i : Nat) (v : Byte) {j : Nat} (hj : j < 32) :
    sectorByte (x.withByte i v).data j = if j = i then v else sectorByte x.data j := by
  rw [Sector.withByte, sectorByte_sectorWith _ _ hj]
  split <;> rfl

section StoreByte

variable {s : State} {c : Nat} (hc : c < s.cores.length) (w : ByteWrite)

/-- A byte stored without `.na` goes into its sector, marked dirty. -/
theorem State.storeByte_false (hroom : (s.core c).l1.length < 8192) :
    s.storeByte c false w = s.setSector c (w.pa / 32)
      { ((s.l1At c (w.pa / 32)).getD Sector.blank).withByte (w.pa % 32) (s.storedByte c w) with
        dirty := ((s.l1At c (w.pa / 32)).getD Sector.blank).dirty ||| BitVec.ofNat 32 (2 ^ (w.pa % 32)) } := by
  have hput := State.putSector_of_room hroom (w.pa / 32)
  unfold State.l1At State.storeByte
  dsimp only
  cases hx : Dict.find (s.core c).l1 (w.pa / 32) with
  | none =>
    simp only [Bool.false_eq_true, if_false, hx, hput, Option.getD_none, Sector.withByte, Sector.blank, BitVec.zero_or,
      State.storedByte]
  | some x =>
    simp only [Bool.false_eq_true, if_false, hx, hput, Option.getD_some, Sector.withByte, State.storedByte]

include hc

/-- A byte stored without `.na`, the L1 having room: the core reads it back, every other byte it reads stands, and no home byte
changes. -/
theorem State.storeByte_spec (hroom : (s.core c).l1.length < 8192) :
    s.L1Step (s.storeByte c false w) c 1 ∧ (s.storeByte c false w).mem = s.mem ∧
    ∀ pa, (s.storeByte c false w).coreByte c pa = if pa = w.pa then s.storedByte c w else s.coreByte c pa := by
  rw [State.storeByte_false w hroom]
  refine ⟨s.l1Step_setSector c _ _, rfl, fun pa => ?_⟩
  have hlt : pa % 32 < 32 := Nat.mod_lt _ (by decide)
  rw [State.coreByte_eq_shown, State.coreByte_eq_shown, State.l1At_setSector hc]
  by_cases hin : pa / 32 = w.pa / 32
  · rw [if_pos hin, Option.getD_some, Sector.shown, Sector.data_withByte _ _ _ hlt, BitVec.getLsbD_or,
      getLsbD_bit (Nat.mod_lt _ (by decide)), hin]
    by_cases hpa : pa = w.pa
    · subst hpa
      simp
    · have hoff : ¬ pa % 32 = w.pa % 32 := by omega
      simp only [hoff, hpa, decide_false, Bool.or_false, if_false, Sector.shown, Sector.withByte, State.readByte_setSector]
  · rw [if_neg hin, if_neg fun h => hin (congrArg (· / 32) h), State.readByte_setSector]

/-- With `.na` it goes through to its home, behind the dirty bytes of its sector, and into the sector where that is there. -/
theorem State.storeByte_true : s.L1Step (s.storeByte c true w) c 0 ∧
    (∀ k, (s.storeByte c true w).l1At c k = if k = w.pa / 32
      then ((s.writeBack c (w.pa / 32)).l1At c k).map fun x => x.withByte (w.pa % 32) (s.storedByte c w)
      else (s.writeBack c (w.pa / 32)).l1At c k) ∧
    ∀ pa, (s.storeByte c true w).readByte pa =
      if s.cell pa = s.cell w.pa then s.storedByte c w else (s.writeBack c (w.pa / 32)).readByte pa := by
  have hcore := State.coreByte_writeBack hc (sec := w.pa / 32) (pa := w.pa) (Or.inl rfl)
  obtain ⟨hstep, -, -⟩ := State.writeBack_spec hc (w.pa / 32)
  unfold State.storeByte State.storedByte
  simp only [if_true, hcore]
  generalize s.writeBack c (w.pa / 32) = u at hstep ⊢
  have hcu : c < u.cores.length := hstep.cores ▸ hc
  generalize w.val &&& w.mask ||| s.coreByte c w.pa &&& ~~~w.mask = v
  cases hx : u.l1At c (w.pa / 32) with
  | none =>
    have hfind : Dict.find (u.core c).l1 (w.pa / 32) = none := hx
    rw [hfind]
    refine ⟨hstep.trans (u.l1Step_writeByte c _ _), fun k => ?_, fun pa => ?_⟩
    · change u.l1At c k = _
      split
      · next h => rw [h, hx]; rfl
      · rfl
    · rw [← hstep.cell]
      exact u.readByte_writeByte w.pa pa v
  | some x =>
    have hfind : Dict.find (u.core c).l1 (w.pa / 32) = some x := hx
    rw [hfind]
    dsimp only
    rw [State.putSector_of_some hx]
    refine ⟨(hstep.trans (State.l1Step_setSector_of_some hx _)).trans (State.l1Step_writeByte _ c _ _), fun k => ?_,
      fun pa => ?_⟩
    · refine (State.l1At_setSector hcu _ _ k).trans ?_
      split
      · next h => rw [h, hx]; rfl
      · rfl
    · rw [← hstep.cell]
      exact State.readByte_writeByte _ w.pa pa v

/-- A byte stored with `.na`: the core reads it back and the home has it; what the core reads beside it of the sector, or of
other cells, stands, and the dirty bytes of the sector are at their homes. -/
theorem State.storeByte_na_spec : s.L1Step (s.storeByte c true w) c 0 ∧
    (∀ pa, s.inOrApart (w.pa / 32) pa →
      (s.storeByte c true w).coreByte c pa = (if pa = w.pa then s.storedByte c w else s.coreByte c pa) ∧
      (s.storeByte c true w).flushedByte c pa = (if pa = w.pa then s.storedByte c w else s.flushedByte c pa)) ∧
    (∀ pa, pa / 32 = w.pa / 32 → (s.storeByte c true w).readByte pa = (s.storeByte c true w).flushedByte c pa) ∧
    ∀ pa, s.cell (32 * (pa / 32)) ≠ s.cell (32 * (w.pa / 32)) → (s.storeByte c true w).readByte pa = s.readByte pa := by
  obtain ⟨hstep, hl1, hread⟩ := State.storeByte_true hc w
  obtain ⟨-, hhome, hback⟩ := State.writeBack_spec hc (w.pa / 32)
  have hcoreBack (pa : Nat) := State.coreByte_writeBack hc (sec := w.pa / 32) (pa := pa)
  have hflushBack (pa : Nat) := State.flushedByte_writeBack hc (sec := w.pa / 32) (pa := pa)
  have happart {pa : Nat} (h : s.cell (32 * (pa / 32)) ≠ s.cell (32 * (w.pa / 32))) : ¬ s.cell pa = s.cell w.pa :=
    fun e => h ((s.cell_eq_iff _ _).mp e).1
  have hsame {pa : Nat} (h : pa / 32 = w.pa / 32) : s.cell pa = s.cell w.pa ↔ pa = w.pa := by
    rw [s.cell_eq_iff, h]
    constructor
    · intro e
      omega
    · intro e
      rw [e]
      exact ⟨rfl, rfl⟩
  generalize s.writeBack c (w.pa / 32) = u at *
  refine ⟨hstep, fun pa hpa => ?_, fun pa hin => ?_, fun pa hpa => ?_⟩
  · by_cases hin : pa / 32 = w.pa / 32
    · rw [← hcoreBack pa hpa, ← hflushBack pa hpa]
      simp only [State.coreByte_eq, State.flushedByte_eq, hl1, hread, hsame hin, if_pos hin]
      have hlt : pa % 32 < 32 := Nat.mod_lt _ (by decide)
      have hoff : pa % 32 = w.pa % 32 ↔ pa = w.pa := by omega
      rw [hback, if_pos hin]
      cases s.l1At c (w.pa / 32) with
      | none => exact ⟨rfl, rfl⟩
      | some x =>
        simp only [Option.map_some, Sector.data_withByte _ _ _ hlt, hoff]
        cases x.filled <;> simp [Sector.withByte]
    · have hcell := hpa.resolve_left hin
      have hne : pa ≠ w.pa := fun e => hin (congrArg (· / 32) e)
      rw [if_neg hne, if_neg hne, ← hcoreBack pa hpa, ← hflushBack pa hpa]
      simp only [State.coreByte_eq, State.flushedByte_eq, hl1, hread, happart hcell, if_neg hin, if_false, and_self]
  · rw [State.flushedByte_eq, hl1, if_pos hin, hback, if_pos hin]
    cases s.l1At c (w.pa / 32) with
    | none => rfl
    | some x => simp [Sector.withByte]
  · rw [hread, if_neg (happart hpa), hhome, State.homeAfter_of_apart hpa]

end StoreByte

end Sys2Proof.Machine

/-! PROOFS. A plain store performed at its commit (O52). -/

namespace Sys2Proof.Machine

theorem State.inOrApart_congr {s t : State} (h : t.cell = s.cell) (sec pa : Nat) : t.inOrApart sec pa ↔ s.inOrApart sec pa := by
  rw [State.inOrApart, State.inOrApart, h]

theorem State.storedByte_congr {s t : State} {c : Nat} {w : ByteWrite} (h : t.coreByte c w.pa = s.coreByte c w.pa) :
    t.storedByte c w = s.storedByte c w := by
  rw [State.storedByte, State.storedByte, h]

/-- Bytes stored without `.na` one after another, at different addresses, the L1 having room for them. -/
theorem State.foldl_storeByte_spec (c : Nat) (ws : List ByteWrite) (hws : (ws.map ByteWrite.pa).Nodup) {s : State}
    (hc : c < s.cores.length) (hroom : (s.core c).l1.length + ws.length ≤ 8192) :
    let t := ws.foldl (fun s w => s.storeByte c false w) s
    t.mem = s.mem ∧ (∀ w ∈ ws, t.coreByte c w.pa = s.storedByte c w) ∧
    ∀ pa, (∀ w ∈ ws, w.pa ≠ pa) → t.coreByte c pa = s.coreByte c pa := by
  induction ws generalizing s with
  | nil => exact ⟨rfl, fun w hw => absurd hw List.not_mem_nil, fun pa _ => rfl⟩
  | cons w r ih =>
    rw [List.map_cons, List.nodup_cons] at hws
    rw [List.length_cons] at hroom
    obtain ⟨hstep, hmem, hread⟩ := State.storeByte_spec hc w (by omega)
    have hw : ∀ x ∈ r, w.pa ≠ x.pa := fun x hx e => hws.1 (e ▸ List.mem_map_of_mem hx)
    obtain ⟨hmem', hstored, hother⟩ := ih hws.2 (s := s.storeByte c false w) (hstep.cores ▸ hc)
      (by have := hstep.l1; omega)
    refine ⟨hmem'.trans hmem, fun x hx => ?_, fun pa hpa => ?_⟩
    · rcases List.mem_cons.mp hx with rfl | hx
      · exact (hother x.pa fun y hy => (hw y hy).symm).trans (by rw [hread, if_pos rfl])
      · exact (hstored x hx).trans (State.storedByte_congr (by rw [hread, if_neg (hw x hx).symm]))
    · exact (hother pa fun y hy => hpa y (List.mem_cons_of_mem w hy)).trans
        (by rw [hread, if_neg (hpa w List.mem_cons_self).symm])

/-- What is left once bytes are stored with `.na`: the core reads them back; what it reads beside them of their sectors and of
other cells stands; the dirty bytes of their sectors are at their homes; homes of other cells stand. -/
structure State.StoredThrough (s t : State) (c : Nat) (ws : List ByteWrite) : Prop where
  stored : ∀ w ∈ ws, t.coreByte c w.pa = s.storedByte c w ∧ t.flushedByte c w.pa = s.storedByte c w
  beside : ∀ pa, (∀ w ∈ ws, s.inOrApart (w.pa / 32) pa ∧ w.pa ≠ pa) →
    t.coreByte c pa = s.coreByte c pa ∧ t.flushedByte c pa = s.flushedByte c pa
  home : ∀ pa, (∀ w ∈ ws, s.inOrApart (w.pa / 32) pa) →
    (∃ w ∈ ws, w.pa / 32 = pa / 32) ∨ s.readByte pa = s.flushedByte c pa → t.readByte pa = t.flushedByte c pa
  outside : ∀ pa, (∀ w ∈ ws, s.cell (32 * (w.pa / 32)) ≠ s.cell (32 * (pa / 32))) → t.readByte pa = s.readByte pa

/-- Bytes stored with `.na` one after another, at different addresses, no two in different sectors of the same cells. -/
theorem State.foldl_storeByte_na_spec (c : Nat) (ws : List ByteWrite) (hws : (ws.map ByteWrite.pa).Nodup) {s : State}
    (hc : c < s.cores.length) (hsecs : ∀ w ∈ ws, ∀ x ∈ ws, s.inOrApart (x.pa / 32) w.pa) :
    s.StoredThrough (ws.foldl (fun s w => s.storeByte c true w) s) c ws := by
  induction ws generalizing s with
  | nil =>
    exact ⟨fun w hw => absurd hw List.not_mem_nil, fun _ _ => ⟨rfl, rfl⟩,
      fun pa _ h => h.elim (fun ⟨w, hw, _⟩ => absurd hw List.not_mem_nil) id, fun _ _ => rfl⟩
  | cons w r ih =>
    rw [List.map_cons, List.nodup_cons] at hws
    obtain ⟨hstep, hread, hhome, hout⟩ := State.storeByte_na_spec hc w
    have hw : ∀ x ∈ r, w.pa ≠ x.pa := fun x hx e => hws.1 (e ▸ List.mem_map_of_mem hx)
    have hrel (a b : Nat) := State.inOrApart_congr hstep.cell a b
    have hrest : s.storeByte c true w |>.StoredThrough _ c r := ih hws.2 (hstep.cores ▸ hc) fun x hx y hy =>
      (hrel _ _).mpr (hsecs x (List.mem_cons_of_mem w hx) y (List.mem_cons_of_mem w hy))
    obtain ⟨hstored, hbeside, hhome', hout'⟩ := hrest
    have hin {x : ByteWrite} (hx : x ∈ w :: r) : s.inOrApart (w.pa / 32) x.pa := hsecs x hx w List.mem_cons_self
    rw [List.foldl_cons]
    refine ⟨fun x hx => ?_, fun pa hpa => ?_, fun pa hpa h => ?_, fun pa hpa => ?_⟩
    · obtain ⟨hcore, hflush⟩ := hread x.pa (hin hx)
      rcases List.mem_cons.mp hx with rfl | hr
      · obtain ⟨hcore', hflush'⟩ := hbeside x.pa fun y hy =>
          ⟨(hrel _ _).mpr (hsecs x hx y (List.mem_cons_of_mem x hy)), (hw y hy).symm⟩
        rw [hcore', hflush', hcore, hflush]
        exact ⟨if_pos rfl, if_pos rfl⟩
      · have hsame := State.storedByte_congr (hcore.trans (if_neg (hw x hr).symm))
        rw [← hsame]
        exact hstored x hr
    · obtain ⟨hrelw, hne⟩ := hpa w List.mem_cons_self
      obtain ⟨hcore, hflush⟩ := hread pa hrelw
      obtain ⟨hcore', hflush'⟩ := hbeside pa fun y hy =>
        ⟨(hrel _ _).mpr (hpa y (List.mem_cons_of_mem w hy)).1, (hpa y (List.mem_cons_of_mem w hy)).2⟩
      rw [hcore', hflush', hcore, hflush, if_neg hne.symm, if_neg hne.symm]
      exact ⟨rfl, rfl⟩
    · refine hhome' pa (fun y hy => (hrel _ _).mpr (hpa y (List.mem_cons_of_mem w hy))) ?_
      by_cases hsec : pa / 32 = w.pa / 32
      · exact Or.inr (hhome pa hsec)
      · rcases h with ⟨x, hx, he⟩ | h
        · rcases List.mem_cons.mp hx with rfl | hr
          · exact absurd he.symm hsec
          · exact Or.inl ⟨x, hr, he⟩
        · have hcell := (hpa w List.mem_cons_self).resolve_left hsec
          rw [hout pa hcell, h, (hread pa (hpa w List.mem_cons_self)).2, if_neg fun e => hsec (congrArg (· / 32) e)]
          exact Or.inr rfl
    · exact (hout' pa fun y hy => by rw [hstep.cell]; exact hpa y (List.mem_cons_of_mem w hy)).trans
        (hout pa (hpa w List.mem_cons_self).symm)

/-- What is held of a plain store, performed. -/
theorem State.heldStep_bytes {s t : State} {c : Ctx} {na : Bool} {ws : List ByteWrite} {rest : List Held}
    (h : s.heldStep c (.bytes na ws) rest = .done t) : t = (s.storeBytes c.w.core na ws).setHeld c.w rest := by
  simp only [State.heldStep, Held.isSync, Held.isFlush, Bool.false_and, Bool.or_self, Bool.false_eq_true, if_false,
    HeldStep.done.injEq] at h
  exact h.symm

theorem State.mem_setHeld (s : State) (w : WarpRef) (hs : List Held) : (s.setHeld w hs).mem = s.mem := rfl

theorem State.readByte_setHeld (s : State) (w : WarpRef) (hs : List Held) (pa : Nat) :
    (s.setHeld w hs).readByte pa = s.readByte pa := rfl

theorem State.l1_setHeld (s : State) (w : WarpRef) (hs : List Held) (c : Nat) :
    ((s.setHeld w hs).core c).l1 = (s.core c).l1 :=
  State.core_modWarp_field Core.l1 (fun _ _ _ => rfl) _ _ _ _

theorem State.coreByte_setHeld (s : State) (w : WarpRef) (hs : List Held) (c pa : Nat) :
    (s.setHeld w hs).coreByte c pa = s.coreByte c pa := by
  unfold State.coreByte
  rw [State.l1_setHeld]
  rfl

theorem State.coreByte_packets (s : State) (secs : List Nat) (c pa : Nat) :
    (s.packets secs).coreByte c pa = s.coreByte c pa := by
  rw [State.coreByte_eq, State.coreByte_eq, State.l1At, State.packets_core, State.packets_readByte]
  rfl

theorem State.flushedByte_packets (s : State) (secs : List Nat) (c pa : Nat) :
    (s.packets secs).flushedByte c pa = s.flushedByte c pa := by
  rw [State.flushedByte_eq, State.flushedByte_eq, State.l1At, State.packets_core, State.packets_readByte]
  rfl

theorem State.storeBytes_na_spec {s : State} {c : Nat} {ws : List ByteWrite} (hws : (ws.map ByteWrite.pa).Nodup)
    (hc : c < s.cores.length) (hsecs : ∀ w ∈ ws, ∀ x ∈ ws, s.inOrApart (x.pa / 32) w.pa) :
    s.StoredThrough (s.storeBytes c true ws) c ws := by
  unfold State.storeBytes
  rw [if_pos rfl]
  generalize dedup (ws.map fun w => w.pa / 32) = secs
  have hcell : (s.packets secs).cell = s.cell := (s.l1Step_packets c secs).cell
  obtain ⟨hstored, hbeside, hhome, hout⟩ := State.foldl_storeByte_na_spec c ws hws (s := s.packets secs)
    ((s.l1Step_packets c secs).cores ▸ hc) fun w hw x hx => (State.inOrApart_congr hcell _ _).mpr (hsecs w hw x hx)
  have hcore (pa : Nat) := s.coreByte_packets secs c pa
  have hflush (pa : Nat) := s.flushedByte_packets secs c pa
  simp only [State.inOrApart_congr hcell, hcell, hcore, hflush, State.packets_readByte, State.storedByte_congr (hcore _)]
    at hstored hbeside hhome hout
  exact ⟨hstored, hbeside, hhome, hout⟩

theorem State.storeBytes_spec {s : State} {c : Nat} {ws : List ByteWrite} (hws : (ws.map ByteWrite.pa).Nodup)
    (hc : c < s.cores.length) (hroom : (s.core c).l1.length + ws.length ≤ 8192) :
    (s.storeBytes c false ws).mem = s.mem ∧ (∀ w ∈ ws, (s.storeBytes c false ws).coreByte c w.pa = s.storedByte c w) ∧
    ∀ pa, (∀ w ∈ ws, w.pa ≠ pa) → (s.storeBytes c false ws).coreByte c pa = s.coreByte c pa :=
  State.foldl_storeByte_spec c ws hws hc hroom

/-- Settles O52: without `.na` byte by byte into the L1; with it through to the homes. -/
theorem storesTouchOnlyTheirBytes : Obligations.StoresTouchOnlyTheirBytes := by
  intro s t c na ws rest hc hcells hroom hna hdone core stored apart inside outside
  have hws : (ws.map ByteWrite.pa).Nodup := by
    refine List.Nodup.of_map s.cell ?_
    rw [List.map_map]
    exact hcells
  have hne {pa : Nat} (h : apart pa) : ∀ w ∈ ws, w.pa ≠ pa := fun w hw e => h w hw (congrArg s.cell e)
  obtain rfl := State.heldStep_bytes hdone
  simp only [State.coreByte_setHeld, State.readByte_setHeld, State.mem_setHeld]
  cases na with
  | false =>
    obtain ⟨hmem, hstored, hother⟩ := State.storeBytes_spec hws hc hroom
    exact ⟨hstored, fun pa hpa _ => hother pa (hne hpa), fun _ => hmem, fun h => absurd h Bool.false_ne_true⟩
  | true =>
    have hsecs : ∀ w ∈ ws, ∀ x ∈ ws, s.inOrApart (x.pa / 32) w.pa := fun w hw x hx =>
      or_iff_not_imp_right.mpr fun h => hna rfl w hw x hx (not_not.mp h)
    have hinside {pa : Nat} (h : inside pa) : ∀ w ∈ ws, s.inOrApart (w.pa / 32) pa := by
      obtain ⟨x, hx, e⟩ := h
      intro w hw
      rw [State.inOrApart, ← e]
      exact hsecs x hx w hw
    obtain ⟨hstored, hbeside, hhome, hout⟩ := State.storeBytes_na_spec hws hc hsecs
    refine ⟨fun w hw => (hstored w hw).1, fun pa hpa h => ?_, fun h => absurd h.symm Bool.false_ne_true, fun _ =>
      ⟨fun w hw => ?_, fun pa hin hpa => ?_, hout⟩⟩
    · have hrel : ∀ w ∈ ws, s.inOrApart (w.pa / 32) pa := by
        rcases h with h | h | h
        · exact absurd h.symm Bool.false_ne_true
        · exact hinside h
        · exact fun w hw => Or.inr (h w hw).symm
      exact (hbeside pa fun w hw => ⟨hrel w hw, hne hpa w hw⟩).1
    · exact (hhome w.pa (hsecs w hw) (Or.inl ⟨w, hw, rfl⟩)).trans (hstored w hw).2
    · exact (hhome pa (hinside hin) (Or.inl hin)).trans
        (hbeside pa fun w hw => ⟨hinside hin w hw, hne hpa w hw⟩).2

end Sys2Proof.Machine

/-! PROOFS. Prefetches, remote register writes and counter waits (O28). -/

namespace Sys2Proof.Machine

/-- A step that changes no byte of memory, nor one that a core would read, and takes room in its L1 for `n` sectors at most. -/
structure State.Unseen (s t : State) (c n : Nat) : Prop extends s.L1Step t c n where
  mem : t.mem = s.mem
  core : ∀ pa, t.coreByte c pa = s.coreByte c pa

theorem State.Unseen.refl (s : State) (c : Nat) : s.Unseen s c 0 := ⟨State.L1Step.refl s c, rfl, fun _ => rfl⟩

theorem State.Unseen.trans {s t u : State} {c m n : Nat} (h : s.Unseen t c m) (h' : t.Unseen u c n) : s.Unseen u c (m + n) :=
  ⟨h.toL1Step.trans h'.toL1Step, h'.mem.trans h.mem, fun pa => (h'.core pa).trans (h.core pa)⟩

theorem State.Unseen.zero_trans {s t u : State} {c n : Nat} (h : s.Unseen t c 0) (h' : t.Unseen u c n) : s.Unseen u c n :=
  Nat.zero_add n ▸ h.trans h'

theorem State.Unseen.mono {s t : State} {c m n : Nat} (h : s.Unseen t c m) (hn : m ≤ n) : s.Unseen t c n :=
  ⟨⟨h.cell, h.cores, h.l1.trans (Nat.add_le_add_left hn _)⟩, h.mem, h.core⟩

theorem State.Unseen.readByte {s t : State} {c n : Nat} (h : s.Unseen t c n) (pa : Nat) : t.readByte pa = s.readByte pa := by
  rw [State.readByte, State.readByte, h.mem, h.cell]

/-- A step that leaves the sectors of a core, the homes and the cells. -/
theorem State.unseen_of_l1 {s t : State} {c : Nat} (hcell : t.cell = s.cell) (hcores : t.cores.length = s.cores.length)
    (hmem : t.mem = s.mem) (hl1 : (t.core c).l1 = (s.core c).l1) : s.Unseen t c 0 := by
  refine ⟨⟨hcell, hcores, by rw [hl1]; exact Nat.le_refl _⟩, hmem, fun pa => ?_⟩
  have hread : t.readByte pa = s.readByte pa := by rw [State.readByte, State.readByte, hmem, hcell]
  rw [State.coreByte_eq, State.coreByte_eq, State.l1At, State.l1At, hl1, hread]

/-- A change of a core that leaves its sectors. -/
theorem State.unseen_modCore (s : State) (c k : Nat) {f : Core → Core} (hf : ∀ x, (f x).l1 = x.l1) :
    s.Unseen (s.modCore k f) c 0 := by
  refine State.unseen_of_l1 rfl (listChange_length _ _ _) rfl ?_
  rw [State.core_modCore]
  split
  · exact hf _
  · rfl

theorem State.unseen_drawBit {s t : State} {b : Bool} (e : s.drawBit = (b, t)) (c : Nat) : s.Unseen t c 0 := by
  cases e
  exact State.unseen_of_l1 rfl rfl rfl rfl

/-- A translation kept. -/
theorem State.unseen_keep (s : State) (c k d : Nat) (f : Core → Core) (g : Die → Die) (hf : ∀ x, (f x).l1 = x.l1) :
    s.Unseen ((s.modCore k f).modDie d g) c 0 :=
  (s.unseen_modCore c k hf).zero_trans (State.unseen_of_l1 rfl rfl rfl rfl)

theorem State.unseen_pageOf {s t : State} {k tenant va : Nat} {x : Except Code Page} (e : s.pageOf k tenant va = (x, t))
    (c : Nat) : s.Unseen t c 0 := by
  unfold State.pageOf at e
  dsimp only at e
  split at e
  · cases e
    exact s.unseen_keep c _ _ _ _ fun _ => rfl
  · cases e
    exact State.Unseen.refl s c
  · split at e
    · cases e
      exact State.Unseen.refl s c
    · split at e
      · next hdraw =>
        cases e
        exact State.unseen_drawBit hdraw c
      · next hdraw =>
        cases e
        exact (State.unseen_drawBit hdraw c).zero_trans (State.unseen_keep _ c k _ _ _ fun _ => rfl)
  · split at e
    all_goals
      next hdraw =>
        cases e
        exact State.unseen_drawBit hdraw c

theorem State.unseen_translate {s t : State} {k tenant : Nat} {va : Word} {acc : Access} {x : Except Code Page}
    (e : s.translate k tenant va acc = (x, t)) (c : Nat) : s.Unseen t c 0 := by
  unfold State.translate at e
  split at e
  · cases e
    exact State.Unseen.refl s c
  · split at e
    · next hpage =>
      cases e
      exact State.unseen_pageOf hpage c
    · next hpage =>
      split at e
      all_goals
        cases e
        exact State.unseen_pageOf hpage c

theorem State.unseen_takeReqs {s t : State} {k id : Nat} {secs : List Nat} (e : s.takeReqs k id secs = some t) (c : Nat) :
    s.Unseen t c 0 := by
  unfold State.takeReqs at e
  split at e
  · cases e
    exact State.Unseen.refl s c
  · split at e
    · cases e
      exact s.unseen_modCore c k fun _ => rfl
    · cases e

theorem sectorsOf_sector (sec : Nat) : sectorsOf (32 * sec) 32 = [sec] := by
  have hlast : (32 * sec + 32 - 1) / 32 - 32 * sec / 32 + 1 = 1 := by omega
  have hfirst : 32 * sec / 32 = sec := by omega
  rw [sectorsOf, if_neg (by decide), hlast, hfirst]
  simp

/-- A sector filled from its home shows what the core read of it (R115). -/
theorem State.shown_filledSector (s : State) (c sec : Nat) {i : Nat} (hi : i < 32) (home : Byte) :
    (s.filledSector c sec).shown i home = s.coreByte c (32 * sec + i) := by
  have hsec : (32 * sec + i) / 32 = sec := by omega
  have hoff : (32 * sec + i) % 32 = i := by omega
  rw [State.coreByte_eq, hsec, hoff]
  unfold State.filledSector State.l1At
  cases Dict.find (s.core c).l1 sec with
  | none =>
    simp only [Sector.shown, Bool.true_or, if_true]
    rw [sectorByte_sectorOf (by rw [State.length_readBytes]), State.getD_readBytes _ _ hi]
  | some x =>
    cases hf : x.filled with
    | true => simp [Sector.shown, hf]
    | false =>
      cases hd : x.dirty.getLsbD i <;> simp [Sector.shown, hf, sectorByte_sectorWith _ _ hi, hd]

/-- While the L1 has room, a sector brought nearer changes nothing that is read. -/
theorem State.unseen_loadFill {s : State} {c : Nat} (hc : c < s.cores.length) (hroom : (s.core c).l1.length < 8192)
    (sec : Nat) : s.Unseen (s.loadFill c (32 * sec) 32 false) c 1 := by
  have hput {u : State} (h : s.Unseen u c 0) : s.Unseen (u.putSector c sec (u.filledSector c sec)) c 1 := by
    have hcu : c < u.cores.length := h.cores ▸ hc
    rw [State.putSector_of_room (h.l1.trans_lt hroom)]
    refine h.zero_trans ⟨u.l1Step_setSector c _ _, rfl, fun pa => ?_⟩
    rw [State.coreByte_eq_shown, State.l1At_setSector hcu]
    split
    · next hin =>
      subst hin
      rw [Option.getD_some, State.shown_filledSector _ _ _ (Nat.mod_lt _ (by decide)), Nat.div_add_mod]
    · rw [State.readByte_setSector, ← State.coreByte_eq_shown]
  have hpackets (secs : List Nat) : s.Unseen (s.packets secs) c 0 :=
    ⟨s.l1Step_packets c secs, by simp, s.coreByte_packets secs c⟩
  unfold State.loadFill
  rw [sectorsOf_sector, List.foldl_cons, List.foldl_nil]
  split
  · dsimp only
    split
    · exact hput (hpackets [sec])
    · exact (hpackets [sec]).mono (Nat.zero_le 1)
  · dsimp only
    split
    · exact hput (State.Unseen.refl s c)
    · exact (State.Unseen.refl s c).mono (Nat.zero_le 1)

/-- The state once the sectors of a list are brought nearer, or translated only. -/
theorem State.unseen_foldl_loadFill {c : Nat} (lv : BitVec 1) (secs : List Nat) {s : State} (hc : c < s.cores.length)
    (hroom : (s.core c).l1.length + secs.length ≤ 8192) :
    s.Unseen (secs.foldl (fun s sec => if lv = 0#1 then s.loadFill c (32 * sec) 32 false else s) s) c secs.length := by
  induction secs generalizing s with
  | nil => exact State.Unseen.refl s c
  | cons sec r ih =>
    rw [List.length_cons] at hroom
    have hstep : s.Unseen (if lv = 0#1 then s.loadFill c (32 * sec) 32 false else s) c 1 := by
      split
      · exact State.unseen_loadFill hc (by omega) sec
      · exact (State.Unseen.refl s c).mono (Nat.zero_le 1)
    rw [List.foldl_cons, List.length_cons, Nat.add_comm]
    exact hstep.trans (ih (hstep.cores ▸ hc) (by have := hstep.l1; omega))

/-- A lane of a prefetch adds its sector where its address translates (R139). -/
def Ctx.prefetchLane (c : Ctx) (r : List Nat × State) (e : Nat × Word) : List Nat × State :=
  match r.2.translate c.w.core c.tenant e.2 .read with
  | (.error _, s) => (r.1, s)
  | (.ok p, s) => (r.1 ++ [p.phys e.2.toNat / 32], s)

/-- The sectors of a prefetch, and the state after its translations. -/
def Ctx.prefetched (c : Ctx) (s : State) (ea : List (Nat × Word)) : List Nat × State := ea.foldl c.prefetchLane ([], s)

theorem Ctx.prefetchLane_spec (c : Ctx) (r : List Nat × State) (e : Nat × Word) (k : Nat) :
    (c.prefetchLane r e).1.length ≤ r.1.length + 1 ∧ r.2.Unseen (c.prefetchLane r e).2 k 0 := by
  unfold Ctx.prefetchLane
  split
  · next h => exact ⟨Nat.le_succ _, State.unseen_translate h k⟩
  · next h => exact ⟨by simp, State.unseen_translate h k⟩

/-- A prefetch finds at most one sector a lane, and its translations are not seen. -/
theorem Ctx.foldl_prefetchLane_spec (c : Ctx) (ea : List (Nat × Word)) (r : List Nat × State) (k : Nat) :
    (ea.foldl c.prefetchLane r).1.length ≤ r.1.length + ea.length ∧ r.2.Unseen (ea.foldl c.prefetchLane r).2 k 0 := by
  induction ea generalizing r with
  | nil => exact ⟨Nat.le_refl _, State.Unseen.refl r.2 k⟩
  | cons e rest ih =>
    obtain ⟨hlen, hstep⟩ := c.prefetchLane_spec r e k
    obtain ⟨hlen', hrest⟩ := ih (c.prefetchLane r e)
    rw [List.foldl_cons, List.length_cons]
    exact ⟨by omega, hstep.zero_trans hrest⟩

theorem length_dedup_le (l : List Nat) : (dedup l).length ≤ l.length := by
  have hfold (l a : List Nat) : (l.foldl (fun a x => if a.contains x then a else a ++ [x]) a).length ≤ a.length + l.length := by
    induction l generalizing a with
    | nil => exact Nat.le_refl _
    | cons x r ih =>
      rw [List.foldl_cons]
      refine (ih _).trans ?_
      split <;> simp only [List.length_append, List.length_cons, List.length_nil] <;> omega
  simpa [dedup] using hfold l []

theorem Ctx.length_addresses_le (c : Ctx) (m : Mask) (a b x : BitVec 5) (n : Nat) : (c.addresses m a b x n).length ≤ 32 := by
  rw [Ctx.addresses, List.length_map, Mask.toList]
  exact (List.length_filter_le _ _).trans (by simp [lanes])

section Prefetch

variable {s : State} {c : Ctx} {m : Mask} {k : BitVec 3} {a b x : BitVec 5}

/-- The state after a prefetch of one lane or more: its translations, its request entries and, but for one to L2, its
sectors. -/
def Ctx.afterPref (c : Ctx) (s : State) (ea : List (Nat × Word)) (lv : BitVec 1) : State :=
  let r := c.prefetched s ea
  let u := (r.2.freshId c.w.core).2
  match u.takeReqs c.w.core (r.2.freshId c.w.core).1 (dedup r.1) with
  | none => u
  | some v => (dedup r.1).foldl (fun s sec => if lv = 0#1 then s.loadFill c.w.core (32 * sec) 32 false else s) v

theorem Ctx.afterPref_of_none {ea : List (Nat × Word)}
    (h : ((c.prefetched s ea).2.freshId c.w.core).2.takeReqs c.w.core ((c.prefetched s ea).2.freshId c.w.core).1
      (dedup (c.prefetched s ea).1) = none) (lv : BitVec 1) :
    c.afterPref s ea lv = ((c.prefetched s ea).2.freshId c.w.core).2 := by
  simp only [Ctx.afterPref, h]

theorem Ctx.afterPref_of_some {ea : List (Nat × Word)} {v : State}
    (h : ((c.prefetched s ea).2.freshId c.w.core).2.takeReqs c.w.core ((c.prefetched s ea).2.freshId c.w.core).1
      (dedup (c.prefetched s ea).1) = some v) (lv : BitVec 1) :
    c.afterPref s ea lv = (dedup (c.prefetched s ea).1).foldl
      (fun s sec => if lv = 0#1 then s.loadFill c.w.core (32 * sec) 32 false else s) v := by
  simp only [Ctx.afterPref, h]

/-- A prefetch that finds room changes nothing that is read. -/
theorem Ctx.unseen_afterPref (hc : c.w.core < s.cores.length) {ea : List (Nat × Word)} (hea : ea.length ≤ 32)
    (hroom : (s.core c.w.core).l1.length + 32 ≤ 8192) (lv : BitVec 1) : s.Unseen (c.afterPref s ea lv) c.w.core 32 := by
  obtain ⟨hlen, hpref⟩ := c.foldl_prefetchLane_spec ea ([], s) c.w.core
  rw [List.length_nil, Nat.zero_add] at hlen
  have hfresh : s.Unseen ((c.prefetched s ea).2.freshId c.w.core).2 c.w.core 0 :=
    hpref.zero_trans (State.unseen_modCore _ _ _ fun _ => rfl)
  have hsecs : (dedup (c.prefetched s ea).1).length ≤ 32 := (length_dedup_le _).trans (hlen.trans hea)
  cases hreq : ((c.prefetched s ea).2.freshId c.w.core).2.takeReqs c.w.core ((c.prefetched s ea).2.freshId c.w.core).1
      (dedup (c.prefetched s ea).1) with
  | none =>
    rw [Ctx.afterPref_of_none hreq]
    exact hfresh.mono (Nat.zero_le 32)
  | some v =>
    have hv := hfresh.zero_trans (State.unseen_takeReqs hreq c.w.core)
    rw [Ctx.afterPref_of_some hreq]
    exact (hv.zero_trans (State.unseen_foldl_loadFill lv _ (hv.cores ▸ hc) (by have := hv.l1; omega))).mono hsecs

/-- A prefetch goes on (R139). -/
theorem exec_pref_of_ready {lv : BitVec 1} (hm : c.mask k = some m) (h0 : m ≠ 0#32) (hr : c.ready k [a, b])
    (hsees : s.sees (.pref k a b x lv) = some c) :
    exec (.pref k a b x lv) s = .next ((c.afterPref s (c.addresses m a b x 32) lv).issued c c.r) := by
  refine exec_of_go (fun _ => rfl) hsees ?_
  rw [Ctx.onLanes_of_ready hr hm h0]
  dsimp only
  split
  · next hreq =>
    rw [Ctx.afterPref_of_none hreq]
    rfl
  · next hreq =>
    rw [Ctx.afterPref_of_some hreq]
    rfl

end Prefetch

/-- A remote register write whose descriptor is good is held (R144). -/
theorem exec_rwr_of_ok {s : State} {c : Ctx} {m : Mask} {k : BitVec 3} {a b x : BitVec 5} {t : Word} (ht : c.low m a x = t)
    (hm : c.mask k = some m) (h0 : m ≠ 0#32) (hr : c.ready k [a, b]) (hsees : s.sees (.rwr k a b x) = some c)
    (hgood : bitsOf t 63 17 = 0) :
    exec (.rwr k a b x) s = .next (s.issued c (c.r.hold (.rwr (coreAt c.w.core (bitsOf t 1 0)) (bitsOf t 7 2)
      (bitsOf t 16 15) (bitsOf t 14 8) (m.toList.map fun j => (j, c.src b x j))))) := by
  subst ht
  refine exec_of_go (fun _ => rfl) hsees ?_
  rw [Ctx.onLanes_of_ready hr hm h0]
  simp only [hgood, bne_self_eq_false, Bool.false_eq_true, if_false]

/-- A counter wait reads its counter and stages the counter's change (R146). -/
theorem exec_awt_of_ready {s : State} {c : Ctx} {d b x : BitVec 5} {ctr : BitVec 2} {sub clr : BitVec 1}
    (hd : c.busy [d] = false) (hsees : s.sees (.awt d b x ctr sub clr) = some c) {n : Nat} {v : BitVec 16 × Bool}
    (hn : n = min c.r.ops.1.toNat 65535) (hv : v = c.p.ctr.getD ctr.toNat (0#16, false)) :
    exec (.awt d b x ctr sub clr) s = .next (s.issued c
      ((c.r.write d c.p.live fun _ => BitVec.ofNat 64 (v.1.toNat + (if v.2 then 65536 else 0))).stage
        (.counter ctr.toNat (if sub = 1#1 then BitVec.ofNat 16 n else 0#16) (clr == 1#1)))) := by
  subst hn hv
  refine exec_of_go (fun _ => rfl) hsees ?_
  rw [hd]
  rfl

/-- The core of a warp that an instruction is issued for is one of the device. -/
theorem State.core_lt_of_sees {s : State} {i : Instr} {c : Ctx} (h : s.sees i = some c) : c.w.core < s.cores.length := by
  unfold State.sees at h
  split at h
  · obtain ⟨w, -, hctx⟩ := Option.bind_eq_some_iff.mp h
    have hw := State.w_of_ctx? hctx
    obtain ⟨hwarp, -, -, -⟩ := State.parts_of_ctx? hctx
    rw [hw]
    exact State.core_lt_of_warp? hwarp
  · cases h

/-- Settles O28. -/
theorem prefetchAndRemoteRegisterInstructionsComplete :
    Obligations.PrefetchAndRemoteRegisterInstructionsComplete := by
  intro s c m k d a b x ctr sub clr
  refine ⟨fun lv hm hr hsees => ?_, exec_rwr_of_ok rfl, fun hd hsees => exec_awt_of_ready hd hsees rfl rfl⟩
  by_cases h0 : m = 0#32
  · subst h0
    refine ⟨s, exec_of_go (fun _ => rfl) hsees ?_, fun _ => ⟨rfl, fun _ => rfl⟩⟩
    exact (c.checksMemory_onLanes s k [a, b] _).2 hr hm
  · refine ⟨_, exec_pref_of_ready hm h0 hr hsees, fun hroom => ?_⟩
    have h := Ctx.unseen_afterPref (State.core_lt_of_sees hsees) (c.length_addresses_le m a b x 32) hroom lv
    exact ⟨h.mem, h.core⟩

end Sys2Proof.Machine

/-! PROOFS. What the host does once a caravan core runs its image (O51). -/

namespace Sys2Proof.Machine

/-! ### A fault resolved (R122, R346) -/

section Resolve

variable {s : State} {t : Nat} {v : Word}

/-- A warp of a tenant whose fault on a page is resolved. -/
def State.resolveFor (s : State) (t page kind : Nat) (p : Warp) : Warp :=
  if (match s.launch? p.launch with | some x => x.tenant == t | none => false) then p.resolve page kind else p

theorem State.resolveFor_of_tenant {p : Warp} {l : Launch} (hl : s.launch? p.launch = some l) (ht : l.tenant = t)
    (page kind : Nat) : s.resolveFor t page kind p = p.resolve page kind := by
  simp [State.resolveFor, hl, ht]

/-- The cores once a fault of a tenant on a page is resolved. -/
def State.resolveCore (s : State) (t page kind : Nat) (k : Core) : Core :=
  let fix (e : Nat × Warp) : Nat × Warp := (e.1, s.resolveFor t page kind e.2)
  { k with
    warps := k.warps.map fix, hnds := k.hnds.map fix
    messages := k.messages.map fun m =>
      if m.tenant == t && kind == 0 && m.fault == some page then { m with fault := none } else m }

theorem Core.warp?_resolveCore (s : State) (t page kind : Nat) (k : Core) (slot : Nat) (hnd : Bool) :
    (s.resolveCore t page kind k).warp? slot hnd = (k.warp? slot hnd).map (s.resolveFor t page kind) := by
  unfold Core.warp? State.resolveCore
  cases hnd <;> exact Dict.find_map_snd _ _ _

/-- A fault resolved: the cores' warps resolve it, and its record leaves the tenant's list. -/
theorem exec_fresolve_spec (hb : s.dev.booted = true) (ht : t < 16) : ∃ u : State,
    exec (.fresolve t v) s = .next u ∧ u.mem = s.mem ∧ u.launches = s.launches ∧
      u.cores = s.cores.map (s.resolveCore t (bitsOf v 56 16) (bitsOf v 1 0)) ∧
      u.tenants = listChange s.tenants t fun r => { r with
        unresolved := r.unresolved.filter fun x => !(x.2.1 == bitsOf v 56 16 && x.2.2 == bitsOf v 1 0) } := by
  have hgo : (!s.dev.booted || decide (16 ≤ t)) = false := by simp [hb, Nat.not_le.mpr ht]
  rw [show exec (.fresolve t v) s = execFresolve t v s from rfl, execFresolve, hgo]
  exact ⟨_, rfl, rfl, rfl, rfl, rfl⟩

/-- A warp of the tenant once its fault is resolved: it goes on, or its handler's return will let it (R122). -/
theorem Warp.resolve_spec (page kind : Nat) (p : Warp) :
    p.resolve page kind = { p with wait := (p.resolve page kind).wait, trap := (p.resolve page kind).trap } ∧
    (p.wait = .fault page kind → (p.resolve page kind).wait = .none) ∧
    (∀ (x : Trap) (a : Word), p.wait = .handler x a ∨ p.trap = some (x, a) →
      x.code = .xlate → x.info / 2048 = page → x.kind = kind →
      (p.wait = .handler x a → (p.resolve page kind).wait = .handler { x with resolved := true } a) ∧
      (p.trap = some (x, a) → (p.resolve page kind).trap = some ({ x with resolved := true }, a))) ∧
    (p.trap = none → (p.resolve page kind).trap = none) ∧
    (p.wait ≠ .fault page kind → (∀ x a, p.wait ≠ .handler x a) → (p.resolve page kind).wait = p.wait) := by
  refine ⟨rfl, fun h => ?_, fun x a _ hcode hinfo hkind => ?_, fun h => ?_, fun hf hh => ?_⟩
  · simp [Warp.resolve, h]
  · have hx : x.resolve page kind = { x with resolved := true } := by simp [Trap.resolve, hcode, hinfo, hkind]
    exact ⟨fun h => by simp [Warp.resolve, h, hx], fun h => by simp [Warp.resolve, h, hx]⟩
  · simp [Warp.resolve, h]
  · unfold Warp.resolve
    cases hw : p.wait with
    | fault g k =>
      rw [hw] at hf
      have hne : ¬ (g = page ∧ k = kind) := fun ⟨hg, hk⟩ => hf (by rw [hg, hk])
      simp [hne]
    | handler x a => exact absurd hw (hh x a)
    | _ => rfl

end Resolve

/-- Cores changed alike. -/
theorem State.core_map {s u : State} {f : Core → Core} (h : u.cores = s.cores.map f) {c : Nat} (hc : c < s.cores.length) :
    u.core c = f (s.core c) := by
  simp [State.core, h, List.getD_eq_getElem?_getD, hc]

/-! ### An invalidation (R123) -/

/-- An invalidation done takes from every TLB what it covers of the tenant's. -/
def keepsTranslation (t : Nat) (inv : Option Nat) (e : Nat × Page) : Bool := !(e.1 == t && covers inv e.2)

theorem keepsTranslation_iff (t : Nat) (inv : Option Nat) (e : Nat × Page) :
    keepsTranslation t inv e = true ↔ ¬ (e.1 = t ∧ covers inv e.2 = true) := by
  simp [keepsTranslation, imp_iff_not_or]

theorem exec_tlbInvalidationDone_spec {s : State} {t : Nat} {inv : Option Nat} (hinv : (s.tenant t).tlbBusy = some inv)
    (hold : s.usesOld t = false) : ∃ u : State,
    exec (.tlbInvalidationDone t) s = .next (u.modTenant t fun r => { r with tlbBusy := none }) ∧
      u = { s with cores := u.cores, dies := u.dies } ∧
      u.cores = s.cores.map (fun k => { k with tlb := k.tlb.filter (keepsTranslation t inv) }) ∧
      u.dies = s.dies.map (fun d => { d with tlb := d.tlb.filter (keepsTranslation t inv) }) := by
  rw [show exec (.tlbInvalidationDone t) s = execTlbInvalidationDone t s from rfl, execTlbInvalidationDone, hinv]
  dsimp only
  rw [hold]
  exact ⟨_, rfl, rfl, rfl, rfl⟩

theorem State.core_filtered {s u : State} {p : Nat × Page → Bool}
    (h : u.cores = s.cores.map fun k => { k with tlb := k.tlb.filter p }) (c : Nat) :
    u.core c = { s.core c with tlb := (u.core c).tlb } ∧ ∀ e ∈ (u.core c).tlb, e ∈ (s.core c).tlb ∧ p e = true := by
  by_cases hc : c < s.cores.length
  · rw [State.core_map h hc]
    exact ⟨rfl, fun e he => List.mem_filter.mp he⟩
  · have hu : u.core c = Core.reset := State.core_of_absent (by rw [h, List.length_map]; exact hc)
    rw [hu, State.core_of_absent hc]
    exact ⟨rfl, fun e he => absurd he List.not_mem_nil⟩

theorem State.die_filtered {s u : State} {p : Nat × Page → Bool}
    (h : u.dies = s.dies.map fun d => { d with tlb := d.tlb.filter p }) (d : Nat) : ∀ e ∈ (u.die d).tlb, p e = true := by
  unfold State.die
  rw [h, List.getD_eq_getElem?_getD, List.getElem?_map]
  cases s.dies[d]? with
  | none => exact fun e he => absurd he List.not_mem_nil
  | some x => exact fun e he => (List.mem_filter.mp he).2

/-! ### Posts and registers -/

/-- A post of the host that passes its checks goes to the card's home (R372). -/
theorem exec_hostPost_of_ok {s : State} {t pa : Nat} {v : Word} (hb : s.dev.booted = true) (ht : t < 16)
    (hpost : (s.tenant t).posting = false) (halign : v.toNat % 128 = 0) (hva : bitsOf v 63 57 = 0)
    (hpa : s.translateHome t (v + 0x40#64) .modify = .ok pa) :
    ∃ q : HomeReq, q.acc = .hostPost v.toNat pa t ∧ q.tenant = t ∧ q.sector = (HomeAcc.hostPost v.toNat pa t).sector ∧
      exec (.hostPost t v) s = .next (((s.sendHome q).modDev fun d => { d with nextStamp := d.nextStamp + 1 }).modTenant t
        fun r => { r with posting := true }) := by
  rw [show exec (.hostPost t v) s = execHostPost t v s from rfl, execHostPost]
  simp only [hb, hpost, halign, hva, Nat.not_le.mpr ht, hpa, decide_false, Bool.not_true, Bool.or_false, bne_self_eq_false,
    Bool.false_eq_true, if_false]
  exact ⟨_, rfl, rfl, rfl, rfl⟩

/-- An invalidation asked for by a write begins where none is busy (R123, R375). -/
theorem State.invalidate_of_idle {s : State} {t : Nat} {v : Word} (hb : s.dev.booted = true) (ht : t < 16)
    (hgo : v.getLsbD 0 = true) (hidle : (s.tenant t).tlbBusy = none) (inv : Option Nat) :
    s.invalidate t v inv = s.modTenant t fun r => { r with tlbBusy := some inv } := by
  simp [State.invalidate, hb, hgo, hidle, Nat.not_le.mpr ht]

theorem exec_tlbinvPage (t : Nat) (v : Word) (s : State) : exec (.tlbinvPage t v) s =
    .next (if v.getLsbD 1 then s else s.invalidate t v (some (bitsOf v 56 16))) := rfl

theorem exec_tlbinvAll (t : Nat) (v : Word) (s : State) : exec (.tlbinvAll t v) s =
    .next (if v.getLsbD 1 then s.invalidate t v none else s) := rfl

/-- A write of FQHEAD that FQTAIL then differs from sends vector 0 (R368). -/
theorem State.noteHead_eq (u : State) (t : Nat) (was : Tenant) : u.noteHead t was =
    if was.fqtail = was.fqhead ∧ (u.tenant t).fqtail ≠ (u.tenant t).fqhead ∧ (u.tenant t).fqctl.getLsbD 12 = true
    then u.modDev fun d => { d with vectors := d.vectors ++ [(t + 1, 0)] } else u := by
  simp only [State.noteHead, Bool.and_eq_true, beq_iff_eq, bne_iff_ne, and_assoc]

theorem exec_registerWrite (t offset : Nat) (v : Word) {s : State} (hb : s.dev.booted = true) :
    exec (.registerWrite (t + 1) offset v) s =
      .next ((s.modTenant t fun r => r.writeReg offset v).noteHead t (s.tenant t)) := by
  show execRegisterWrite (t + 1) offset v s = _
  simp only [execRegisterWrite, hb, if_true]

theorem exec_fqctlWrite {s : State} {t : Nat} (hb : s.dev.booted = true) (ht : t < 16) (v : Word) :
    exec (.fqctlWrite t v) s = .next (s.modTenant t fun r =>
      { r with fqctl := (v &&& 0x100F#64) ||| (r.fqctl &&& 0x100#64 &&& ~~~v) }) := by
  show execFqctlWrite t v s = _
  rw [execFqctlWrite, if_neg (by simp [hb, Nat.not_le.mpr ht])]

theorem exec_bar2Write {s : State} {pa : Nat} {bytes : List Byte} (hb : s.dev.booted = true)
    (hlen : pa + bytes.length ≤ 768 * 2 ^ 30) : exec (.bar2Write pa bytes) s = .next (s.writeBytes pa bytes) := by
  show execBar2Write pa bytes s = _
  rw [execBar2Write, if_neg (by simpa [hb] using hlen)]

/-- Settles O51, event by event. -/
theorem hostEventsComplete : Obligations.HostEventsComplete := by
  intro s t v hb ht
  refine ⟨?_, fun hgo hbusy => ⟨fun hall => ?_, fun hall => ?_⟩, fun inv hinv hold => ?_,
    fun pa hpost halign hva hpa => exec_hostPost_of_ok hb ht hpost halign hva hpa, exec_fqctlWrite hb ht v, fun offset => ?_,
    fun pa bytes => exec_bar2Write hb⟩
  · obtain ⟨u, hexec, hmem, hlaunches, hcores, htenants⟩ := exec_fresolve_spec (v := v) hb ht
    refine ⟨u, hexec, hmem, hlaunches, fun hlen => ?_, fun w p l hp hl htn => ?_⟩
    · rw [State.tenant, htenants, listChange_getD, if_pos ⟨rfl, hlen ▸ ht⟩]
      rfl
    · refine ⟨p.resolve (bitsOf v 56 16) (bitsOf v 1 0), ?_, Warp.resolve_spec _ _ p⟩
      have hcore : u.core w.core = _ := State.core_map hcores (State.core_lt_of_warp? hp)
      have hfind : (s.core w.core).warp? w.slot w.hnd = some p := hp
      rw [State.warp?, hcore, Core.warp?_resolveCore, hfind, Option.map_some, State.resolveFor_of_tenant hl htn]
  · rw [exec_tlbinvPage, hall, if_neg Bool.false_ne_true, State.invalidate_of_idle hb ht hgo hbusy]
  · rw [exec_tlbinvAll, hall, if_pos rfl, State.invalidate_of_idle hb ht hgo hbusy]
  · obtain ⟨u, hexec, hframe, hcores, hdies⟩ := exec_tlbInvalidationDone_spec hinv hold
    refine ⟨u, hexec, hframe, fun c => ?_, fun d e he => (keepsTranslation_iff t inv e).mp (State.die_filtered hdies d e he)⟩
    obtain ⟨hsame, hkept⟩ := State.core_filtered hcores c
    exact ⟨hsame, fun e he => ⟨(hkept e he).1, (keepsTranslation_iff t inv e).mp (hkept e he).2⟩⟩
  · rw [exec_registerWrite t offset v hb, State.noteHead_eq]

end Sys2Proof.Machine

/-! PROOFS. The home atomic units, the engine commands, the copies and the sweeps (O48). -/

namespace Sys2Proof.Machine

/-! ### An access performed at its home -/

section Homes

variable {s t : State} {id : Nat} {q : HomeReq}

/-- An access that its unit performs: its packets are sent, what it returned is noted, and what it tells is told. -/
theorem State.serve_of_done {v : Word} {fl : BitVec 5}
    (h : s.perform q.core q.launch (if q.core < 144 then some q.warp else none) q.acc = .done v fl t) :
    s.serve q = .made (s.tell q (((t.modDev fun d => { d with
      homeQ := d.homeQ.filter fun x => !(x.id == q.id && x.core == q.core) }).packetsOf q.acc).notePerformed q v fl)) := by
  rw [State.serve, h]

theorem State.serve_of_raised (h : s.perform q.core q.launch (if q.core < 144 then some q.warp else none) q.acc = .raised t) :
    s.serve q = .raised t := by
  rw [State.serve, h]

section Alone

variable (hq : s.nextAccess id = some q) (halone : ¬ (q.core < 144 ∧ q.acc.combines q.acc = true))

include hq halone

/-- The oldest access of a unit that nothing may be combined with is served alone, and its round ends. -/
theorem exec_homeAccessPerform_of_made (h : s.serve q = .made t) :
    exec (.homeAccessPerform id) s = .next (t.endRound id) := by
  show execHomeAccessPerform id s = _
  rw [execHomeAccessPerform, hq]
  dsimp only
  rw [if_neg (by simpa using halone)]
  dsimp only
  rw [h]

theorem exec_homeAccessPerform_of_raised (h : s.serve q = .raised t) : exec (.homeAccessPerform id) s = .next t := by
  show execHomeAccessPerform id s = _
  rw [execHomeAccessPerform, hq]
  dsimp only
  rw [if_neg (by simpa using halone)]
  dsimp only
  rw [h]

end Alone

/-- One that a gateway may combine with others is served with them or alone, by a free choice (R209). -/
theorem exec_homeAccessPerform_combined (hq : s.nextAccess id = some q) (hcore : q.core < 144)
    (hcomb : q.acc.combines q.acc = true) :
    let u : State := { s with oracle := s.oracle + 1 }
    exec (.homeAccessPerform id) s = .next (if Config.freeBit s.oracle = true
      then (u.serveGroup (u.combined q)).endRound id
      else match u.serve q with | .made v => v.endRound id | .raised v => v | .wait => u) := by
  intro u
  show execHomeAccessPerform id s = _
  rw [execHomeAccessPerform, hq]
  dsimp only
  rw [if_pos (by simp [hcore, hcomb]), State.drawBit]
  cases Config.freeBit s.oracle with
  | true => rfl
  | false =>
    rw [if_neg Bool.false_ne_true]
    dsimp only
    cases u.serve q <;> rfl

end Homes

/-- An access performed for a core: the sectors of its core that it names, then those it reaches, are flushed first
(R116). -/
theorem State.perform_of_made {s : State} {core l : Nat} {h : HomeAcc} {w : Option WarpRef} (hc : core < 144)
    (hcan : s.canPerform h = true) (hmade : ∀ th va, h.unit = some (th, va) → s.decideSync l w th va = .made s) :
    let flush (v : State) (secs : List Nat) : State := secs.foldl (fun v sec => v.flushSector core sec) v
    let p := s.push core l h
    let u := flush (flush p h.sectors) ((flush p h.sectors).reach h)
    s.perform core l w h = .done (u.performAcc l h).1 (u.performAcc l h).2.1 (u.performAcc l h).2.2 := by
  intro flush p u
  rw [State.perform, hcan]
  simp only [Bool.not_true, Bool.false_eq_true, if_false, hc, if_true]
  cases hu : h.unit with
  | none => rfl
  | some x =>
    obtain ⟨th, va⟩ := x
    dsimp only
    rw [hmade th va hu]

/-- The push of a guard access: the sectors bound to its word are written back, at cluster scope or wider (R203). -/
theorem State.push_guard {s : State} {x : Launch} {core l : Nat} (hl : s.launch? l = some x) (hc : core < 144)
    (th va pa scope : Nat) : s.push core l (.guard th va pa scope) =
      if 3 ≤ scope then (s.boundSectors core x (BitVec.ofNat 64 va)).foldl (fun v sec => v.writeBack core sec) s else s := by
  simp [State.push, hl, hc]

/-! ### The operation of an atomic (R140) -/

section Atomics

variable (a : AtomAcc)

theorem AtomAcc.width_pos : 0 < a.width := by
  unfold AtomAcc.width
  split <;> decide

/-- A code of a width, signed. -/
theorem signedOf_toNat {w : Nat} (x : BitVec w) (hw : 0 < w) : signedOf w x.toNat = x.toInt := by
  have hpow : 2 ^ w = 2 * 2 ^ (w - 1) := by rw [← Nat.pow_succ']; congr 1; omega
  rw [signedOf, Nat.mod_eq_of_lt x.isLt, BitVec.toInt_eq_toNat_cond]
  by_cases h : x.toNat < 2 ^ (w - 1)
  · rw [if_pos h, if_pos (by omega)]
  · rw [if_neg h, if_neg (by omega)]
    push_cast
    rfl

/-- The second operand of an atomic in its width. -/
theorem AtomAcc.toNat_operand (v : Word) : (v.setWidth a.width).toNat = v.toNat % 2 ^ a.width := BitVec.toNat_setWidth _ _

/-- What each operation leaves. -/
theorem AtomAcc.result_spec (x : BitVec a.width) : let b := a.b.setWidth a.width
    BitVec.ofNat a.width (a.result x.toNat) = (match a.op with
      | .add => x + b
      | .fadd =>
        let f : EFmt := if a.wide = true then .f64 else .f32
        BitVec.ofNat a.width (floatResult f 0#3 0#1 0 ((decodeVal f x.toNat).add 0#3 (decodeVal f b.toNat))).1
      | .binc => if x < b then x + 1 else x
      | .xchg => b
      | .minS => if x.sle b = true then x else b
      | .maxS => if x.sle b = true then b else x
      | .minU => if x ≤ b then x else b
      | .maxU => if x ≤ b then b else x
      | .and => x &&& b
      | .or => x ||| b
      | .xor => x ^^^ b
      | .cas => if x = a.c.setWidth a.width then b else x) := by
  intro b
  have hb : a.b.toNat % 2 ^ a.width = b.toNat := (a.toNat_operand a.b).symm
  have hof (y : BitVec a.width) : BitVec.ofNat a.width y.toNat = y := BitVec.eq_of_toNat_eq (by simp)
  unfold AtomAcc.result
  simp only [hb, signedOf_toNat x a.width_pos, signedOf_toNat b a.width_pos]
  cases a.op with
  | add => exact BitVec.eq_of_toNat_eq (by simp)
  | fadd => rfl
  | binc =>
    simp only [← BitVec.lt_def]
    split
    · exact BitVec.eq_of_toNat_eq (by simp)
    · exact hof x
  | xchg => exact hof b
  | minS =>
    simp only [BitVec.sle_iff_toInt_le]
    by_cases h : x.toInt ≤ b.toInt
    · rw [if_neg (Int.not_lt.mpr h), if_pos h, hof]
    · rw [if_pos (Int.not_le.mp h), if_neg h, hof]
  | maxS =>
    simp only [BitVec.sle_iff_toInt_le]
    rcases Int.lt_trichotomy x.toInt b.toInt with h | h | h
    · rw [if_pos h, if_pos (Int.le_of_lt h), hof]
    · rw [if_neg (by omega), if_pos (Int.le_of_eq h), hof, BitVec.eq_of_toInt_eq h]
    · rw [if_neg (by omega), if_neg (Int.not_le.mpr h), hof]
  | minU =>
    simp only [BitVec.le_def]
    by_cases h : x.toNat ≤ b.toNat
    · rw [Nat.min_eq_left h, if_pos h, hof]
    · rw [Nat.min_eq_right (Nat.le_of_not_le h), if_neg h, hof]
  | maxU =>
    simp only [BitVec.le_def]
    by_cases h : x.toNat ≤ b.toNat
    · rw [Nat.max_eq_right h, if_pos h, hof]
    · rw [Nat.max_eq_left (Nat.le_of_not_le h), if_neg h, hof]
  | and => simp
  | or => simp
  | xor => simp
  | cas =>
    rw [← a.toNat_operand a.c]
    simp only [BitVec.toNat_inj]
    split
    · exact hof b
    · exact hof x

/-- What an atomic returns: the old value, extended as its operation says. -/
theorem AtomAcc.returned_spec (x : BitVec a.width) : a.returned x.toNat = (match a.op with
    | .minS => x.signExtend 64
    | .maxS => x.signExtend 64
    | _ => x.setWidth 64) := by
  have hsigned : BitVec.ofInt 64 (signedOf a.width x.toNat) = x.signExtend 64 := by
    rw [signedOf_toNat x a.width_pos]
    rfl
  have hplain : BitVec.ofNat 64 x.toNat = x.setWidth 64 := BitVec.eq_of_toNat_eq (by simp)
  unfold AtomAcc.returned
  cases a.op
  case minS | maxS => exact hsigned
  all_goals exact hplain

/-- An atomic performed: the old value read, the operation's written. -/
theorem State.performAcc_atom (s : State) (l th : Nat) : let n := a.width / 8
    let old : BitVec a.width := BitVec.ofNat a.width (bytesToNat (s.readBytes a.pa n))
    s.performAcc l (.atom th a) =
      (a.returned old.toNat, 0#5, s.writeBytes a.pa (natToBytes (a.result old.toNat) n)) := by
  intro n old
  have hn : 8 * n = a.width := by
    unfold n AtomAcc.width
    split <;> rfl
  have hold : old.toNat = bytesToNat (s.readBytes a.pa n) := by
    have hlt := bytesToNat_lt (s.readBytes a.pa n)
    rw [State.length_readBytes, hn] at hlt
    exact Nat.mod_eq_of_lt hlt
  rw [hold]
  rfl

end Atomics

/-! ### Engine commands -/

section Engine

variable {s t : State} {core id : Nat} {e : EngRec} {l : Launch}
  (he : ((s.core core).engine.find? fun x => x.id == id) = some e) (hl : s.launch? e.launch = some l)

section Start

variable (hstarted : e.started = false) (hmay : (s.core core).mayStart e = true) (haway : l.awayFor e.ranges = false)

include he hl hstarted hmay haway

/-- A command that nothing keeps back is performed as it starts (log 15). -/
theorem exec_engineCommandStart_of_ok {fl : BitVec 5} (hpoison : e.poisoned s l core = false)
    (hcmd : s.performCmd l core id e.cmd = (fl, t)) :
    exec (.engineCommandStart core id) s = .next
      (((t.noteFetch l core id e.cmd).noteWrites (some (core, id)) e.ranges).modCmd core id fun x =>
        { x with started := true, flags := fl }) := by
  show execEngineCommandStart core id s = _
  rw [execEngineCommandStart, he]
  dsimp only
  rw [hl]
  simp only [hstarted, hmay, haway, hpoison, hcmd, Bool.not_true, Bool.or_false, Bool.false_eq_true, if_false]

/-- A poisoned one is not (R264; log 67). -/
theorem exec_engineCommandStart_of_poisoned (hpoison : e.poisoned s l core = true) :
    exec (.engineCommandStart core id) s = .next
      ((s.noteFetch l core id e.cmd).modCmd core id fun x =>
        { x with started := true, poison := true, peer := !x.poison }) := by
  show execEngineCommandStart core id s = _
  rw [execEngineCommandStart, he]
  dsimp only
  rw [hl]
  simp only [hstarted, hmay, haway, hpoison, Bool.not_true, Bool.or_false, Bool.false_eq_true, if_false, if_true]

end Start

include he

/-- A command that is no copy and none of the automaton array leaves the scoreboard, and its flags join its warp's. -/
theorem exec_engineCommandCompletion_of_plain (hstarted : e.started = true) (hpoison : e.poison = false)
    (hpeer : e.peer = false) (hauto : e.cmd.automaton = false) (hcopy : ∀ c, e.cmd ≠ .copy c) :
    exec (.engineCommandCompletion core id) s = .next
      ((s.modCore core fun k => { k with engine := k.engine.filter fun x => x.id != id }).modWarp e.warp fun p =>
        if p.stamp = e.stamp then { p with fpflags := p.fpflags ||| e.flags } else p) := by
  show execEngineCommandCompletion core id s = _
  rw [execEngineCommandCompletion, he]
  simp only [hstarted, hpoison, hpeer, hauto, Bool.not_true, Bool.false_and, Bool.false_eq_true, if_false, beq_iff_eq]
  split <;> rfl

end Engine

/-! ### Sweeps -/

/-- A Barchan serves the first sweep in turn that is not paused (R294). -/
theorem exec_sweepPageFetch_of_first {s t : State} {die id : Nat} (hbefore : ∀ i, i < id → s.sweepStep die i = none)
    (h : s.sweepStep die id = some t) : exec (.sweepPageFetch die id) s = .next t := by
  have hnone : ((List.range id).any fun i => (s.sweepStep die i).isSome) = false :=
    List.any_eq_false.mpr fun i hi => by simp [hbefore i (List.mem_range.mp hi)]
  show execSweepPageFetch die id s = _
  rw [execSweepPageFetch, hnone, if_neg Bool.false_ne_true, h]

/-- A staged page reaches its subscription (R297). -/
theorem exec_pageDelivery_of_staged {s t : State} {die id : Nat} {g : Staged} {x : Nat × Nat × Nat}
    (hstaged : ((s.die die).staged.flatMap fun g => g.todo.map fun t => (g, t))[id]? = some (g, x))
    (h : s.deliver g x = some t) : exec (.pageDelivery die id) s = .next ((t.modDie die fun d => { d with
      staged := (d.staged.map fun y => if y.sweep == g.sweep && y.page == g.page
        then { y with todo := y.todo.filter fun z => z != x } else y).filter fun y => y.todo != [] }).settleSweeps) := by
  show execPageDelivery die id s = _
  rw [execPageDelivery, hstaged]
  dsimp only
  rw [h]

/-! ### Codes and bytes of a row (R248) -/

theorem length_splitCodes (v w n : Nat) : (splitCodes v w n).length = n := by
  induction n generalizing v with
  | zero => rfl
  | succ n ih => rw [splitCodes, List.length_cons, ih]

/-- Codes split and joined again are the number's low bits. -/
theorem joinCodes_splitCodes (v w n : Nat) : joinCodes w (splitCodes v w n) = v % 2 ^ (w * n) := by
  induction n generalizing v with
  | zero => simp [splitCodes, joinCodes, Nat.mod_one]
  | succ n ih => rw [splitCodes, joinCodes, ih, Nat.mod_mod, Nat.mul_succ, Nat.add_comm (w * n), Nat.pow_add, Nat.mod_mul]

theorem natToBytes_bytesToNat (bs : List Byte) : natToBytes (bytesToNat bs) bs.length = bs := by
  induction bs with
  | nil => rfl
  | cons b r ih =>
    have hb := b.isLt
    have hdiv : (b.toNat + 256 * bytesToNat r) / 256 = bytesToNat r := by omega
    have hmod : BitVec.ofNat 8 (b.toNat + 256 * bytesToNat r) = b := by
      refine BitVec.eq_of_toNat_eq ?_
      rw [BitVec.toNat_ofNat]
      omega
    rw [bytesToNat, List.length_cons, natToBytes, hdiv, ih, hmod]

/-- The bytes of a number all of whose bits are 1. -/
theorem natToBytes_ones (n : Nat) : natToBytes (2 ^ (8 * n) - 1) n = List.replicate n 0xFF#8 := by
  induction n with
  | zero => rfl
  | succ n ih =>
    have hpos : 0 < 2 ^ (8 * n) := Nat.pow_pos (by decide)
    have hpow : 2 ^ (8 * (n + 1)) = 2 ^ (8 * n) * 256 := by rw [Nat.mul_succ, Nat.pow_add]
    have hdiv : (2 ^ (8 * (n + 1)) - 1) / 256 = 2 ^ (8 * n) - 1 := by omega
    have hmod : BitVec.ofNat 8 (2 ^ (8 * (n + 1)) - 1) = 0xFF#8 := by
      refine BitVec.eq_of_toNat_eq ?_
      rw [BitVec.toNat_ofNat]
      change (2 ^ (8 * (n + 1)) - 1) % 256 = 255
      omega
    rw [natToBytes, hdiv, ih, hmod, List.replicate_succ]

/-- A plain row whose bits are whole bytes. -/
structure WholeRow (tag cnt : Nat) : Prop where
  plain : tagMx tag = false
  whole : cnt * (tagFmt tag).width % 8 = 0

theorem WholeRow.bits {tag cnt : Nat} (h : WholeRow tag cnt) : (tagFmt tag).width * cnt = 8 * rowBytes tag cnt := by
  have := h.whole
  rw [rowBytes, h.plain, Nat.mul_comm]
  simp only [Bool.false_eq_true, if_false]
  omega

/-- A row of codes taken from bytes, put back as bytes: they are the same, all bits of each written. -/
theorem rowMasked_splitCodes {tag cnt : Nat} (h : WholeRow tag cnt) (val : Nat → Byte) :
    rowMasked tag (splitCodes (bytesToNat ((List.range (rowBytes tag cnt)).map val)) (tagFmt tag).width cnt) =
      (List.range (rowBytes tag cnt)).map fun i => (val i, 0xFF#8) := by
  have hlen : ((List.range (rowBytes tag cnt)).map val).length = rowBytes tag cnt := by simp
  have hlt := bytesToNat_lt ((List.range (rowBytes tag cnt)).map val)
  have hback := natToBytes_bytesToNat ((List.range (rowBytes tag cnt)).map val)
  rw [hlen] at hlt hback
  have hones : List.replicate (rowBytes tag cnt) 0xFF#8 = (List.range (rowBytes tag cnt)).map fun _ => 0xFF#8 := by simp
  simp only [rowMasked, length_splitCodes, joinCodes_splitCodes, h.bits, Nat.mod_eq_of_lt hlt, hback, natToBytes_ones]
  rw [hones, List.zip_map']

theorem zipIdx_map_range {α : Type} (f : Nat → α) (n : Nat) :
    ((List.range n).map f).zipIdx = (List.range n).map fun i => (f i, i) := by
  refine List.ext_getElem (by simp) fun i h _ => ?_
  simp

theorem State.nearBytes_eq_map (s : State) (l : Launch) (c off : Nat) (hidden : Bool) (n : Nat) :
    s.nearBytes l c off hidden n = (List.range n).map fun i => s.nearByte l c (off + i) hidden := by
  induction n generalizing off with
  | zero => rfl
  | succ n ih =>
    rw [State.nearBytes, ih, List.range_succ_eq_map, List.map_cons, List.map_map]
    congr 1
    refine List.map_congr_left fun i _ => ?_
    rw [Function.comp_apply, Nat.succ_eq_add_one, Nat.add_comm i, Nat.add_assoc]

/-- Writes split into units are, one after another, the writes. -/
theorem flatten_splitUnits (ws : List Put) : (splitUnits ws).flatten = ws := by
  induction ws with
  | nil => rfl
  | cons w r ih =>
    have hstep : splitUnits (w :: r) = match splitUnits r with
        | (x :: g) :: rest => if x.unit = w.unit then (w :: x :: g) :: rest else [w] :: (x :: g) :: rest
        | _ => [w] :: splitUnits r := rfl
    rw [hstep]
    generalize splitUnits r = us at ih ⊢
    split
    · split <;> simpa using ih
    · simpa using ih

/-! ### Where the bytes of a copy go -/

/-- Whether the same bytes are named: as many cores, the same near slices, and each address of the same cell. -/
structure State.SamePlaces (s t : State) : Prop where
  cores : t.cores.length = s.cores.length
  near : ∀ k, (t.core k).near = (s.core k).near
  cell : t.cell = s.cell

theorem State.SamePlaces.refl (s : State) : s.SamePlaces s := ⟨rfl, fun _ => rfl, rfl⟩

theorem State.SamePlaces.trans {s t u : State} (h : s.SamePlaces t) (h' : t.SamePlaces u) : s.SamePlaces u :=
  ⟨h'.cores.trans h.cores, fun k => (h'.near k).trans (h.near k), h'.cell.trans h.cell⟩

theorem State.SamePlaces.foldl {α : Type} {f : State → α → State} (hf : ∀ (s : State) (x : α), s.SamePlaces (f s x))
    (xs : List α) (s : State) : s.SamePlaces (xs.foldl f s) := by
  induction xs generalizing s with
  | nil => exact State.SamePlaces.refl s
  | cons x r ih => exact (hf s x).trans (ih (f s x))

theorem State.SamePlaces.nearByte {s t : State} (h : s.SamePlaces t) (l : Launch) (c off : Nat) (hidden : Bool) :
    t.nearByte l c off hidden = s.nearByte l c off hidden := by
  unfold State.nearByte
  rw [h.near c]

theorem State.samePlaces_modCore (s : State) (c : Nat) {f : Core → Core} (hf : ∀ k, (f k).near = k.near) :
    s.SamePlaces (s.modCore c f) := by
  refine ⟨listChange_length _ _ _, fun k => ?_, rfl⟩
  rw [State.core_modCore]
  split
  · exact hf _
  · rfl

theorem State.samePlaces_packets (s : State) (secs : List Nat) : s.SamePlaces (s.packets secs) :=
  ⟨by simp, fun k => by simp, funext fun _ => State.packets_cell s secs _⟩

theorem State.samePlaces_writeByte (s : State) (pa : Nat) (v : Byte) : s.SamePlaces (s.writeByte pa v) :=
  ⟨rfl, fun _ => rfl, rfl⟩

theorem State.samePlaces_writeBack (s : State) (c sec : Nat) : s.SamePlaces (s.writeBack c sec) := by
  unfold State.writeBack
  split
  · next x _ =>
    have hdirty (u : State) : u.SamePlaces ((List.range 32).foldl
        (fun s i => if x.dirty.getLsbD i then s.writeByte (32 * sec + i) (sectorByte x.data i) else s) u) :=
      State.SamePlaces.foldl (fun s i => by
        split
        · exact s.samePlaces_writeByte _ _
        · exact State.SamePlaces.refl s) _ u
    have hsent : s.SamePlaces (if x.dirty = 0#32 then s else s.packets [sec]) := by
      split
      · exact State.SamePlaces.refl s
      · exact s.samePlaces_packets [sec]
    exact (hsent.trans (hdirty _)).trans (State.samePlaces_modCore _ c fun _ => rfl)
  · exact State.SamePlaces.refl s

theorem State.samePlaces_flushSector (s : State) (c sec : Nat) : s.SamePlaces (s.flushSector c sec) :=
  (s.samePlaces_writeBack c sec).trans (State.samePlaces_modCore _ c fun _ => rfl)

theorem State.samePlaces_setTags (s : State) (l : Launch) (c off n : Nat) (hidden : Bool) (tag : Nat) :
    s.SamePlaces (s.setTags l c off n hidden tag) := by
  unfold State.setTags
  split
  · exact State.SamePlaces.refl s
  · refine State.SamePlaces.foldl (fun s line => ?_) _ s
    exact s.samePlaces_modCore c fun _ => rfl

theorem State.samePlaces_cmdTags_copy (s : State) (l : Launch) (core : Nat) (c : Copy) :
    s.SamePlaces (s.cmdTags l core (.copy c)) := by
  have htags (k : Nat) (pieces : List (Int × Nat)) (tag : Nat) (s : State) :=
    State.SamePlaces.foldl (f := fun s (p : Int × Nat) => s.setTags l k p.1.toNat p.2 true tag)
      (fun s p => s.samePlaces_setTags l k _ _ _ _) pieces s
  unfold State.cmdTags
  dsimp only
  split
  · exact State.SamePlaces.foldl (fun s k => (htags k _ _ s).trans (htags _ _ _ _)) _ s
  · exact State.SamePlaces.refl s
  · exact State.SamePlaces.foldl (fun s e => s.samePlaces_setTags l _ _ _ _ _) _ s

/-! ### Writes one after another, no two to one byte -/

/-- The bytes that rows name are different. -/
theorem cell_inj {rows n : Nat} {cellOf : Nat → Nat → Nat}
    (h : ((List.range rows).flatMap fun r => (List.range n).map (cellOf r)).Nodup) {r r' i i' : Nat} (hr : r < rows)
    (hr' : r' < rows) (hi : i < n) (hi' : i' < n) (e : cellOf r i = cellOf r' i') : r = r' ∧ i = i' := by
  obtain ⟨hrow, hdisjoint⟩ := List.nodup_flatMap.mp h
  have hrr : r = r' := by
    by_contra hne
    have hsymm : Std.Symm (Function.onFun List.Disjoint fun r => (List.range n).map (cellOf r)) :=
      ⟨fun _ _ hd _ hx hy => hd hy hx⟩
    have hdis := hdisjoint.forall (List.mem_range.mpr hr) (List.mem_range.mpr hr') hne
    exact hdis (List.mem_map_of_mem (List.mem_range.mpr hi)) (e ▸ List.mem_map_of_mem (List.mem_range.mpr hi'))
  subst hrr
  exact ⟨rfl, List.inj_on_of_nodup_map (hrow r (List.mem_range.mpr hr)) (List.mem_range.mpr hi) (List.mem_range.mpr hi') e⟩

/-- The last write to a byte shows: where all writes to it are of one value, that value. -/
theorem foldl_write_read {σ : Type} {write : σ → Nat × Byte → σ} {read : σ → Byte} {hit : Nat → Prop} [DecidablePred hit]
    {P : σ → Prop} (hP : ∀ s w, P s → P (write s w))
    (hread : ∀ s w, P s → read (write s w) = if hit w.1 then w.2 else read s) {v : Byte} (ws : List (Nat × Byte))
    (hv : ∀ w ∈ ws, hit w.1 → w.2 = v) (hany : ∃ w ∈ ws, hit w.1) (s : σ) (hs : P s) : read (ws.foldl write s) = v := by
  have hkeep (ws : List (Nat × Byte)) (hv : ∀ w ∈ ws, hit w.1 → w.2 = v) (s : σ) (hs : P s) (h : read s = v) :
      read (ws.foldl write s) = v := by
    induction ws generalizing s with
    | nil => exact h
    | cons w r ih =>
      refine ih (fun x hx => hv x (List.mem_cons_of_mem w hx)) _ (hP s w hs) ?_
      rw [hread s w hs]
      split
      · next hw => exact hv w List.mem_cons_self hw
      · exact h
  induction ws generalizing s with
  | nil => exact absurd hany (by simp)
  | cons w r ih =>
    have hrest : ∀ x ∈ r, hit x.1 → x.2 = v := fun x hx => hv x (List.mem_cons_of_mem w hx)
    by_cases hw : hit w.1
    · refine hkeep r hrest _ (hP s w hs) ?_
      rw [hread s w hs, if_pos hw]
      exact hv w List.mem_cons_self hw
    · obtain ⟨x, hx, hxw⟩ := hany
      rcases List.mem_cons.mp hx with rfl | hx
      · exact absurd hxw hw
      · exact ih hrest ⟨x, hx, hxw⟩ _ (hP s w hs)

/-- Each byte that rows write, no two of them the same, holds what was written. -/
theorem foldl_rows_read {σ : Type} {write : σ → Nat × Byte → σ} {read : σ → Nat → Byte} {cellOf : Nat → Nat}
    {P : σ → Prop} (hP : ∀ s w, P s → P (write s w))
    (hread : ∀ s w a, P s → read (write s w) a = if cellOf a = cellOf w.1 then w.2 else read s a) {rows n : Nat}
    {place : Nat → Nat → Nat} {val : Nat → Nat → Byte} {ws : List (Nat × Byte)}
    (hws : ∀ w, w ∈ ws ↔ ∃ r < rows, ∃ i < n, w = (place r i, val r i))
    (hcells : ((List.range rows).flatMap fun r => (List.range n).map fun i => cellOf (place r i)).Nodup) {s : σ} (hs : P s)
    {r i : Nat} (hr : r < rows) (hi : i < n) : read (ws.foldl write s) (place r i) = val r i := by
  refine foldl_write_read (read := fun s => read s (place r i)) (hit := fun a => cellOf (place r i) = cellOf a) hP
    (fun s w hs => hread s w _ hs) ws (fun w hw hhit => ?_)
    ⟨_, (hws _).mpr ⟨r, hr, i, hi, rfl⟩, rfl⟩ s hs
  obtain ⟨r', hr', i', hi', rfl⟩ := (hws w).mp hw
  obtain ⟨rfl, rfl⟩ := cell_inj hcells hr hr' hi hi' hhit
  rfl

theorem mem_rows {rows n : Nat} {g : Nat → Nat → Nat × Byte} (w : Nat × Byte) :
    w ∈ (List.range rows).flatMap (fun r => (List.range n).map (g r)) ↔ ∃ r < rows, ∃ i < n, w = g r i := by
  simp only [List.mem_flatMap, List.mem_map, List.mem_range, eq_comm]

/-! ### Copies performed (R249) -/

/-- A byte of a near region after a byte of it is written. -/
theorem State.nearByte_nearWrite {s : State} {l : Launch} {c : Nat} {p : Place} (hp : l.place? c = some p)
    (hc : c < s.cores.length) (off a : Nat) (v : Byte) : (s.nearWrite l c off true v).nearByte l c a true =
      if l.sliceOff p a true = l.sliceOff p off true then v else s.nearByte l c a true := by
  simp only [State.nearWrite, State.nearByte, hp, State.core_modCore, hc, and_self, if_true]
  exact Memory.read_write _ _ _ _

theorem State.length_cores_nearWrite (s : State) (l : Launch) (c off : Nat) (hidden : Bool) (v : Byte) :
    (s.nearWrite l c off hidden v).cores.length = s.cores.length := by
  unfold State.nearWrite
  split
  · rfl
  · exact listChange_length _ _ _

/-- Bytes of rows written to a near region, no two of them the same. -/
theorem State.nearByte_foldl_nearWrite {s : State} {l : Launch} {c : Nat} {p : Place} (hp : l.place? c = some p)
    (hc : c < s.cores.length) {rows n : Nat} {place : Nat → Nat → Nat} {val : Nat → Nat → Byte} {ws : List (Nat × Byte)}
    (hws : ∀ w, w ∈ ws ↔ ∃ r < rows, ∃ i < n, w = (place r i, val r i))
    (hcells : ((List.range rows).flatMap fun r => (List.range n).map fun i => l.sliceOff p (place r i) true).Nodup)
    {r i : Nat} (hr : r < rows) (hi : i < n) :
    (ws.foldl (fun s w => s.nearWrite l c w.1 true w.2) s).nearByte l c (place r i) true = val r i :=
  foldl_rows_read (read := fun (s : State) a => s.nearByte l c a true) (P := fun s => c < s.cores.length)
    (fun s w hs => by rw [State.length_cores_nearWrite]; exact hs)
    (fun s w a hs => State.nearByte_nearWrite hp hs w.1 a w.2) hws hcells hc hr hi

/-- Bytes of rows written to their homes, no two of them the same. -/
theorem State.readByte_foldl_writeByte {s : State} {cellOf : Nat → Nat} (hs : s.cell = cellOf) {rows n : Nat}
    {place : Nat → Nat → Nat} {val : Nat → Nat → Byte} {ws : List (Nat × Byte)}
    (hws : ∀ w, w ∈ ws ↔ ∃ r < rows, ∃ i < n, w = (place r i, val r i))
    (hcells : ((List.range rows).flatMap fun r => (List.range n).map fun i => cellOf (place r i)).Nodup)
    {r i : Nat} (hr : r < rows) (hi : i < n) :
    (ws.foldl (fun s w => s.writeByte w.1 w.2) s).readByte (place r i) = val r i :=
  foldl_rows_read (write := fun s w => s.writeByte w.1 w.2) (read := State.readByte) (P := fun s => s.cell = cellOf)
    (fun s w hs => hs) (fun s w a hs => by rw [State.readByte_writeByte, hs]) hws hcells hs hr hi

theorem byte_of_full_mask (v x : Byte) : (v &&& 0xFF#8) ||| (x &&& ~~~0xFF#8) = v := by
  rw [show (0xFF#8 : Byte) = BitVec.allOnes 8 from rfl, BitVec.and_allOnes, BitVec.not_allOnes, BitVec.and_zero,
    BitVec.or_zero]

theorem State.put_near (s : State) (l : Launch) (c off : Nat) (v : Byte) :
    s.put l (.near c off v 0xFF#8) = s.nearWrite l c off true v := by
  rw [State.put, byte_of_full_mask]

theorem State.put_home (s : State) (l : Launch) (pa : Nat) (v : Byte) : s.put l (.home pa v 0xFF#8) = s.writeByte pa v := by
  rw [State.put, byte_of_full_mask]

/-- The byte of a copy's side in near space, or in global memory, that is byte `i` of its row `r`. -/
def Copy.nearDst (c : Copy) (r i : Nat) : Nat := (rowOff (nearOff (nearLow c.dst)) c.dstr r).toNat + i

def Copy.nearSrc (c : Copy) (r i : Nat) : Nat := (rowOff (nearOff (nearLow c.src)) c.sstr r).toNat + i

def Copy.homeDst (c : Copy) (r i : Nat) : Nat :=
  c.phys (c.dst + BitVec.ofInt 64 (c.dstr * (r : Int)) + BitVec.ofNat 64 i)

def Copy.homeSrc (c : Copy) (r i : Nat) : Nat :=
  c.phys (c.src + BitVec.ofInt 64 (c.sstr * (r : Int)) + BitVec.ofNat 64 i)

section Copies

variable {c : Copy} {f : Nat} (hrow : WholeRow f c.cnt)

include hrow

/-- A row of a copy to near space that changes no format is put byte by byte. -/
theorem Copy.flatten_rowPuts_in {core r : Nat} (hdir : c.dir = 0) (hm : c.mcast = none) (htag : c.tagOf r = f)
    (val : Nat → Byte) (scales : List Nat) :
    (c.rowPuts core r (splitCodes (bytesToNat ((List.range (rowBytes f c.cnt)).map val)) (tagFmt f).width c.cnt)
      scales).flatten = (List.range (rowBytes f c.cnt)).map fun i =>
        Put.near (nearCore core (nearLow c.dst)) (c.nearDst r i) (val i) 0xFF#8 := by
  rw [Copy.rowPuts, if_pos hdir]
  simp only [Copy.targets, hm, List.flatMap_cons, List.flatMap_nil, List.append_nil, htag, rowMasked_splitCodes hrow,
    rowUnits, hrow.plain, Bool.false_eq_true, if_false, flatten_splitUnits, zipIdx_map_range, List.map_map]
  rfl

/-- So is one of a copy to global memory. -/
theorem Copy.flatten_rowPuts_out {core r : Nat} (hdir : c.dir = 1) (hf : entryTag c.fmt = f) (val : Nat → Byte)
    (scales : List Nat) :
    (c.rowPuts core r (splitCodes (bytesToNat ((List.range (rowBytes f c.cnt)).map val)) (tagFmt f).width c.cnt)
      scales).flatten = (List.range (rowBytes f c.cnt)).map fun i =>
        Put.home (c.homeDst r i) (val i) 0xFF#8 := by
  rw [Copy.rowPuts, if_neg (by rw [hdir]; decide)]
  simp only [hf, rowMasked_splitCodes hrow, rowUnits, hrow.plain, Bool.false_eq_true, if_false, flatten_splitUnits,
    Copy.physAll, List.zip_map', List.map_map]
  rfl

end Copies

/-- The state in which a copy with global memory reads: the sectors of its global side are written back, or flushed where
it writes there (R201). -/
def State.copyFlushed (s : State) (core : Nat) (c : Copy) : State :=
  (c.sectors.foldl (fun s sec => if c.dir = 0 then s.writeBack core sec else s.flushSector core sec) s).packets c.sectors

theorem State.samePlaces_copyFlushed (s : State) (core : Nat) (c : Copy) : s.SamePlaces (s.copyFlushed core c) := by
  refine (State.SamePlaces.foldl (fun s sec => ?_) _ s).trans (State.samePlaces_packets _ _)
  split
  · exact s.samePlaces_writeBack core sec
  · exact s.samePlaces_flushSector core sec

theorem convertRow_self (tag : Nat) (rm : BitVec 3) (ftz : Bool) (u : Nat → Nat) (cs scales : List Nat) :
    convertRow tag tag rm ftz u cs scales = (cs, scales, 0#5) := by
  rw [convertRow, if_pos rfl]

/-- A plain copy has no scales that its data could meet. -/
theorem Copy.areasMeet_of_plain {c : Copy} (h : ∀ r < c.rows, tagMx (c.tagOf r) = false) (core : Nat) :
    c.areasMeet core = false := by
  have hnone : c.scalePieces (nearHigh c.dst) = [] := by
    unfold Copy.scalePieces Copy.rowList
    rw [List.map_eq_nil_iff, List.filter_eq_nil_iff]
    intro r hr
    split at hr
    · exact absurd hr List.not_mem_nil
    · simp [h r (List.mem_range.mp hr)]
  simp [Copy.areasMeet, hnone]

/-- A row of a copy with global memory: its writes in their units, and its flags. -/
def State.copyRow (s : State) (l : Launch) (core : Nat) (c : Copy) (r : Nat) : List (List Put) × BitVec 5 :=
  let x := s.readRow l core c r
  let u (i : Nat) : Nat := srBits c.seed c.tid (BitVec.ofNat 64 (2 ^ 63 + c.tag * 2 ^ 32 + r)) (BitVec.ofNat 64 i)
  let y := if c.dir = 0 then convertRow (entryTag c.fmt) (c.tagOf r) c.rm c.ftz u x.1 x.2
    else convertRow (c.tagOf r) (entryTag c.fmt) c.rm c.ftz u x.1 x.2
  (c.rowPuts core r y.1 y.2.1, y.2.2)

theorem State.copyRow_of_same {c : Copy} {r : Nat} (h : c.tagOf r = entryTag c.fmt) (s : State) (l : Launch) (core : Nat) :
    s.copyRow l core c r = (c.rowPuts core r (s.readRow l core c r).1 (s.readRow l core c r).2, 0#5) := by
  unfold State.copyRow
  simp only [h, convertRow_self, ite_self]

/-- A copy with global memory performed. -/
theorem State.performCopy_eq {c : Copy} (hrows : c.rows ≠ 0) (hcnt : c.cnt ≠ 0) (hdir : c.dir ≠ 2) (s : State) (l : Launch)
    (core : Nat) : s.performCopy l core c =
      (((List.range c.rows).map ((s.copyFlushed core c).copyRow l core c)).foldl (fun f r => f ||| r.2) 0#5,
        ((s.copyFlushed core c).cmdTags l core (.copy c)).putAll l (c.rowsOverlap || c.areasMeet core)
          (((List.range c.rows).map ((s.copyFlushed core c).copyRow l core c)).flatMap (·.1))) := by
  have hlist : c.rowList = List.range c.rows := by rw [Copy.rowList, if_neg hcnt]
  unfold State.performCopy
  rw [if_neg (by simp [hrows, hcnt]), if_neg hdir, hlist]
  rfl

/-- A copy that changes no format, performed: every row's bytes are put, in the order of the rows, and no flag is raised. -/
theorem State.performCopy_of_puts {s : State} {l : Launch} {core : Nat} {c : Copy} {n : Nat} {put : Nat → Nat → Put}
    (hrows : c.rows ≠ 0) (hcnt : c.cnt ≠ 0) (hdir : c.dir ≠ 2) (hoverlap : c.rowsOverlap = false)
    (htags : ∀ r < c.rows, c.tagOf r = entryTag c.fmt) (hplain : tagMx (entryTag c.fmt) = false)
    (hputs : ∀ r < c.rows, (c.rowPuts core r ((s.copyFlushed core c).readRow l core c r).1
      ((s.copyFlushed core c).readRow l core c r).2).flatten = (List.range n).map (put r)) :
    s.performCopy l core c = (0#5, ((List.range c.rows).flatMap fun r => (List.range n).map (put r)).foldl
      (fun s w => s.put l w) ((s.copyFlushed core c).cmdTags l core (.copy c))) := by
  have hmeet := Copy.areasMeet_of_plain (fun r hr => by rw [htags r hr, hplain]) core
  rw [State.performCopy_eq hrows hcnt hdir]
  generalize s.copyFlushed core c = u at hputs ⊢
  have hrow : (List.range c.rows).map (u.copyRow l core c) = (List.range c.rows).map fun r =>
      (c.rowPuts core r (u.readRow l core c r).1 (u.readRow l core c r).2, 0#5) :=
    List.map_congr_left fun r hr => u.copyRow_of_same (htags r (List.mem_range.mp hr)) l core
  have hflags (rs : List Nat) (g : Nat → List (List Put)) :
      (rs.map fun r => (g r, 0#5)).foldl (fun f r => f ||| r.2) 0#5 = 0#5 := by
    induction rs with
    | nil => rfl
    | cons r rs ih => simpa using ih
  have hflat : (((List.range c.rows).map fun r => (c.rowPuts core r (u.readRow l core c r).1 (u.readRow l core c r).2,
      0#5)).flatMap (·.1)).flatten = (List.range c.rows).flatMap fun r => (List.range n).map (put r) := by
    rw [List.flatMap_map, List.flatMap, List.flatten_flatten, List.map_map, List.flatMap]
    refine congrArg List.flatten (List.map_congr_left fun r hr => ?_)
    exact hputs r (List.mem_range.mp hr)
  rw [hrow, hflags, hoverlap, hmeet, State.putAll, if_neg (by decide), hflat]

theorem State.copyFlushed_in {c : Copy} (hdir : c.dir = 0) (s : State) (core : Nat) : s.copyFlushed core c =
    (c.sectors.foldl (fun v sec => v.writeBack core sec) s).packets c.sectors := by
  simp only [State.copyFlushed, hdir, if_true]

section Performed

variable {s : State} {l : Launch} {core : Nat} {c : Copy} (hrows : c.rows ≠ 0) (hcnt : c.cnt ≠ 0)

/-- Puts in a near region, one after another, are writes there. -/
theorem State.foldl_put_near (s : State) (l : Launch) (k n : Nat) (rs : List Nat) (place : Nat → Nat → Nat)
    (val : Nat → Nat → Byte) :
    (rs.flatMap fun r => (List.range n).map fun i => Put.near k (place r i) (val r i) 0xFF#8).foldl (fun s w => s.put l w) s =
      (rs.flatMap fun r => (List.range n).map fun i => (place r i, val r i)).foldl
        (fun s w => s.nearWrite l k w.1 true w.2) s := by
  simp only [List.foldl_flatMap, List.foldl_map, State.put_near]

/-- Puts at homes, one after another, are writes there. -/
theorem State.foldl_put_home (s : State) (l : Launch) (n : Nat) (rs : List Nat) (place : Nat → Nat → Nat)
    (val : Nat → Nat → Byte) :
    (rs.flatMap fun r => (List.range n).map fun i => Put.home (place r i) (val r i) 0xFF#8).foldl (fun s w => s.put l w) s =
      (rs.flatMap fun r => (List.range n).map fun i => (place r i, val r i)).foldl (fun s w => s.writeByte w.1 w.2) s := by
  simp only [List.foldl_flatMap, List.foldl_map, State.put_home]

include hrows hcnt

section Plain

variable {f : Nat} (hf : entryTag c.fmt = f) (hrow : WholeRow f c.cnt) (hoverlap : c.rowsOverlap = false)
  (htags : ∀ r < c.rows, c.tagOf r = f)

include hf hrow hoverlap htags

/-- A copy to near space that changes no format leaves in each byte of its destination the byte of its source, as its home
holds it once the core's sectors are written back. -/
theorem State.performCopy_in (hdir : c.dir = 0) (hm : c.mcast = none) {p : Place}
    (hp : l.place? (nearCore core (nearLow c.dst)) = some p) (hlt : nearCore core (nearLow c.dst) < s.cores.length)
    (hcells : ((List.range c.rows).flatMap fun r => (List.range (rowBytes f c.cnt)).map fun i =>
      l.sliceOff p (c.nearDst r i) true).Nodup) :
    (s.performCopy l core c).1 = 0#5 ∧ ∀ r < c.rows, ∀ i < rowBytes f c.cnt,
      (s.performCopy l core c).2.nearByte l (nearCore core (nearLow c.dst)) (c.nearDst r i) true =
      (c.sectors.foldl (fun v sec => v.writeBack core sec) s).readByte (c.homeSrc r i) := by
  have hplaces := (s.samePlaces_copyFlushed core c).trans (State.samePlaces_cmdTags_copy (s.copyFlushed core c) l core c)
  have hread (pa : Nat) : (s.copyFlushed core c).readByte pa =
      (c.sectors.foldl (fun v sec => v.writeBack core sec) s).readByte pa := by
    rw [State.copyFlushed_in hdir, State.packets_readByte]
  have hputs (r : Nat) (hr : r < c.rows) : (c.rowPuts core r ((s.copyFlushed core c).readRow l core c r).1
      ((s.copyFlushed core c).readRow l core c r).2).flatten = (List.range (rowBytes f c.cnt)).map fun i =>
        Put.near (nearCore core (nearLow c.dst)) (c.nearDst r i) ((s.copyFlushed core c).readByte (c.homeSrc r i)) 0xFF#8 := by
    unfold State.readRow
    rw [if_pos hdir, hf]
    simp only [Copy.physAll, List.map_map]
    exact Copy.flatten_rowPuts_in hrow hdir hm (htags r hr) _ _
  rw [State.performCopy_of_puts hrows hcnt (by rw [hdir]; decide) hoverlap (fun r hr => (htags r hr).trans hf.symm)
    (hf ▸ hrow.plain) hputs, State.foldl_put_near]
  refine ⟨rfl, fun r hr i hi => ?_⟩
  exact (State.nearByte_foldl_nearWrite hp (hplaces.cores ▸ hlt) (fun w => mem_rows w) hcells hr hi).trans (hread _)

/-- One to global memory leaves in each byte of its destination the near byte of its source. -/
theorem State.performCopy_out (hdir : c.dir = 1) (hcells : ((List.range c.rows).flatMap fun r =>
      (List.range (rowBytes f c.cnt)).map fun i => s.cell (c.homeDst r i)).Nodup) :
    (s.performCopy l core c).1 = 0#5 ∧ ∀ r < c.rows, ∀ i < rowBytes f c.cnt,
      (s.performCopy l core c).2.readByte (c.homeDst r i) =
      s.nearByte l (nearCore core (nearLow c.src)) (c.nearSrc r i) false := by
  have hflushed := s.samePlaces_copyFlushed core c
  have hplaces := hflushed.trans (State.samePlaces_cmdTags_copy (s.copyFlushed core c) l core c)
  have hputs (r : Nat) (hr : r < c.rows) : (c.rowPuts core r ((s.copyFlushed core c).readRow l core c r).1
      ((s.copyFlushed core c).readRow l core c r).2).flatten = (List.range (rowBytes f c.cnt)).map fun i =>
        Put.home (c.homeDst r i) ((s.copyFlushed core c).nearByte l (nearCore core (nearLow c.src)) (c.nearSrc r i) false)
          0xFF#8 := by
    unfold State.readRow
    rw [if_neg (by rw [hdir]; decide)]
    simp only [State.nearBytes_eq_map, htags r hr]
    exact Copy.flatten_rowPuts_out hrow hdir hf _ _
  rw [State.performCopy_of_puts hrows hcnt (by rw [hdir]; decide) hoverlap (fun r hr => (htags r hr).trans hf.symm)
    (hf ▸ hrow.plain) hputs, State.foldl_put_home]
  refine ⟨rfl, fun r hr i hi => ?_⟩
  exact (State.readByte_foldl_writeByte hplaces.cell (fun w => mem_rows w) hcells hr hi).trans (hflushed.nearByte l _ _ _)

end Plain

omit hrows in
/-- The moves of a copy within near space: one a byte. -/
theorem Copy.mem_moves (m : Nat × Nat) :
    m ∈ c.moves.flatten ↔ ∃ r < c.rows, ∃ i < c.cnt, m = (c.nearSrc r i, c.nearDst r i) := by
  have hlist : c.rowList = List.range c.rows := by rw [Copy.rowList, if_neg hcnt]
  simp only [Copy.moves, hlist, List.mem_flatten, List.mem_flatMap, List.mem_map, List.mem_range]
  constructor
  · rintro ⟨us, ⟨r, hr, u, -, rfl⟩, hm⟩
    obtain ⟨i, hi, rfl⟩ := List.mem_map.mp hm
    exact ⟨r, hr, i, List.mem_range.mp (List.mem_filter.mp hi).1, rfl⟩
  · rintro ⟨r, hr, i, hi, rfl⟩
    refine ⟨_, ⟨r, hr, (c.nearDst r i) / 8 - (c.nearDst r 0) / 8, ?_, rfl⟩,
      List.mem_map.mpr ⟨i, List.mem_filter.mpr ⟨List.mem_range.mpr hi, ?_⟩, rfl⟩⟩
    · simp only [Copy.nearDst]
      omega
    · rw [beq_iff_eq]
      simp only [Copy.nearDst]
      omega

/-- A copy within near space whose sides do not meet leaves in each byte of its destination the byte of its source. -/
theorem State.performCopy_near (hdir : c.dir = 2) (hself : c.selfOverlap l core = false) {p : Place}
    (hp : l.place? (nearCore core (nearLow c.dst)) = some p) (hlt : nearCore core (nearLow c.dst) < s.cores.length)
    (hcells : ((List.range c.rows).flatMap fun r => (List.range c.cnt).map fun i =>
      l.sliceOff p (c.nearDst r i) true).Nodup) :
    (s.performCopy l core c).1 = 0#5 ∧ ∀ r < c.rows, ∀ i < c.cnt,
      (s.performCopy l core c).2.nearByte l (nearCore core (nearLow c.dst)) (c.nearDst r i) true =
      s.nearByte l (nearCore core (nearLow c.src)) (c.nearSrc r i) false := by
  have hplaces := s.samePlaces_cmdTags_copy l core c
  have hcopy : s.performCopy l core c = (0#5, (c.moves.flatten.map fun m =>
      (m.2, (s.cmdTags l core (.copy c)).nearByte l (nearCore core (nearLow c.src)) m.1 false)).foldl
        (fun t w => t.nearWrite l (nearCore core (nearLow c.dst)) w.1 true w.2) (s.cmdTags l core (.copy c))) := by
    rw [List.foldl_map]
    unfold State.performCopy
    rw [if_neg (by simp [hrows, hcnt]), if_pos hdir]
    dsimp only
    rw [hself, if_neg Bool.false_ne_true]
  have hws (w : Nat × Byte) : w ∈ (c.moves.flatten.map fun m =>
      (m.2, (s.cmdTags l core (.copy c)).nearByte l (nearCore core (nearLow c.src)) m.1 false)) ↔
      ∃ r < c.rows, ∃ i < c.cnt,
        w = (c.nearDst r i, s.nearByte l (nearCore core (nearLow c.src)) (c.nearSrc r i) false) := by
    simp only [List.mem_map, Copy.mem_moves hcnt, hplaces.nearByte]
    constructor
    · rintro ⟨m, ⟨r, hr, i, hi, rfl⟩, rfl⟩
      exact ⟨r, hr, i, hi, rfl⟩
    · rintro ⟨r, hr, i, hi, rfl⟩
      exact ⟨_, ⟨r, hr, i, hi, rfl⟩, rfl⟩
  rw [hcopy]
  exact ⟨rfl, fun r hr i hi => State.nearByte_foldl_nearWrite hp (hplaces.cores ▸ hlt) hws hcells hr hi⟩

end Performed

/-- Settles O48, event by event. -/
theorem homeAndEngineEventsComplete : Obligations.HomeAndEngineEventsComplete := by
  intro s t core id
  refine ⟨fun q hq => ⟨fun v fl halone hdone => ?_, fun halone hraised => ?_, exec_homeAccessPerform_combined hq⟩,
    fun h l w hc hcan hmade => State.perform_of_made hc hcan hmade,
    fun x l th va pa scope hl hc => State.push_guard hl hc th va pa scope,
    fun l th va pa scope v a => ⟨s.performAcc_atom a l th, fun x => ⟨a.result_spec x, a.returned_spec x⟩, rfl, rfl, rfl⟩,
    fun e l he hl => ⟨fun hstarted hmay haway => ⟨fun fl => exec_engineCommandStart_of_ok he hl hstarted hmay haway,
      exec_engineCommandStart_of_poisoned he hl hstarted hmay haway⟩, exec_engineCommandCompletion_of_plain he⟩,
    fun c l p fl hm hrows hcnt hcmd => ?_, exec_sweepPageFetch_of_first, fun g x => exec_pageDelivery_of_staged⟩
  · exact exec_homeAccessPerform_of_made hq halone (State.serve_of_done hdone)
  · exact exec_homeAccessPerform_of_raised hq halone (State.serve_of_raised hraised)
  · have hfl : fl = (s.performCopy l core c).1 := (congrArg Prod.fst hcmd).symm
    have ht : t = (s.performCopy l core c).2 := (congrArg Prod.snd hcmd).symm
    rw [hfl, ht]
    intro f n src dst cells target
    refine ⟨fun hdir hself hp hlt hcells => ?_, fun hdir hplain hwhole hoverlap htags => ?_⟩
    · have hn : n = c.cnt := if_pos hdir
      clear_value n
      subst hn
      exact State.performCopy_near hrows hcnt hdir hself hp hlt hcells
    · have hn : n = rowBytes f c.cnt := if_neg hdir
      clear_value n
      subst hn
      exact ⟨fun hin hp hlt hcells =>
          State.performCopy_in hrows hcnt rfl ⟨hplain, hwhole⟩ hoverlap htags hin hm hp hlt hcells,
        fun hout hcells => State.performCopy_out hrows hcnt rfl ⟨hplain, hwhole⟩ hoverlap htags hout hcells⟩

end Sys2Proof.Machine

/-! PROOFS. Vector instructions (O1 to O5, O9 to O13): the elements of the integer forms, the fields and constants, the float
forms, the cross-lane instructions, and the special-function queue. -/

namespace Sys2Proof.Machine

/-! ### Integer elements (R82, R160) -/

theorem intBounds_le (f : EFmt) : (intBounds f).1 ≤ (intBounds f).2 := by
  have hhalf := Nat.two_pow_pos (f.width - 1)
  have hall := Nat.two_pow_pos f.width
  unfold intBounds
  split <;> dsimp only <;> omega

/-- A clamped number is the number held between the bounds of the format. -/
theorem clampInt_eq (f : EFmt) (r : Int) :
    clampInt f r = (wrapInt f (max (intBounds f).1 (min (intBounds f).2 r)),
      decide (r < (intBounds f).1 ∨ (intBounds f).2 < r)) := by
  have hle := intBounds_le f
  have hclamp : (if r < (intBounds f).1 then (intBounds f).1 else if (intBounds f).2 < r then (intBounds f).2 else r)
      = max (intBounds f).1 (min (intBounds f).2 r) := by
    split_ifs <;> omega
  unfold clampInt wrapInt
  dsimp only
  rw [hclamp, Bool.decide_or]

/-- The element and the flag of an exact result, under `.sat` and without. -/
theorem intResult_eq (f : EFmt) (sat : BitVec 1) (r : Int) :
    intResult f sat r = (wrapInt f (if sat = 1#1 then max (intBounds f).1 (min (intBounds f).2 r) else r),
      flagIf (sat == 1#1 && decide (r < (intBounds f).1 ∨ (intBounds f).2 < r)) fSAT) := by
  unfold intResult
  rw [clampInt_eq]
  by_cases h : sat = 1#1
  · simp [h]
  · simp [h, flagIf]

/-- A code of a format is the element of its value. -/
theorem wrapInt_intOf {f : EFmt} {x : Nat} (h : x < 2 ^ f.width) : wrapInt f (intOf f x) = x := by
  have hx : ((x : Int) % (2 ^ f.width : Nat)).toNat = x := by
    rw [← Int.natCast_mod, Nat.mod_eq_of_lt h, Int.toNat_natCast]
  unfold wrapInt intOf
  split
  · unfold signedOf
    rw [Nat.mod_eq_of_lt h]
    dsimp only
    split
    · exact hx
    · have hcast : ((2 : Int) ^ f.width) = ((2 ^ f.width : Nat) : Int) := by norm_cast
      rw [hcast, Int.sub_emod_right, hx]
  · rw [Nat.mod_eq_of_lt h, hx]

/-- Source b of an integer form is a code of its format. -/
theorem Ctx.subB_lt (c : Ctx) {f : EFmt} (hf : f.isInt = true) (o : Opnds) (j e : Nat) : c.subB f o j e < 2 ^ f.width := by
  unfold Ctx.subB
  rw [if_pos hf]
  split
  · exact wrapInt_lt f _
  · exact subOf_lt f _ e

theorem ityFmt_isInt (ity : BitVec 3) : (ityFmt ity).isInt = true := by
  unfold ityFmt
  split <;> rfl

/-- Flags of the elements of the lanes of a mask are those of all its elements. -/
theorem foldl_or_mapSubs_flagIf (f : EFmt) (l : List Nat) (g : Nat → Nat → Nat) (p : Nat → Nat → Bool) (fl : BitVec 5) :
    l.foldl (fun x j => x ||| (mapSubs f fun e => (g j e, flagIf (p j e) fl)).2) 0#5 =
      flagIf (l.any fun j => (List.range f.count).any fun e => p j e) fl := by
  simp only [mapSubs_flags, foldl_or_flagIf]

section Elements

variable {s : State} {c : Ctx} {m : Mask} {i : Instr} {k : BitVec 3} {d : BitVec 5} {uses : List (BitVec 5)} {f : EFmt}
  (hs : s.sees i = some c) (hr : c.ready k (d :: uses)) (hm : c.mask k = some m)

include hs hr hm

/-- A form whose elements are codes of the format and raise no flag completes with them. -/
theorem elementWise_of_codes {g : Ctx → Nat → Nat → Nat} {g' : Nat → Nat → Nat}
    (h : exec i s = s.issue i fun s c => c.vec s k d uses fun j => mapSubs f fun e => (g c j e, 0#5))
    (hg : ∀ j e, g c j e = g' j e) (hlt : ∀ j e, g' j e < 2 ^ f.width) : ElementWise s c m i d f g' 0#5 := by
  refine elementWise_of_vec (g := fun c j e => (g c j e, 0#5)) h hs hr hm (fun j e _ _ => ?_) ?_
  · rw [hg, Nat.mod_eq_of_lt (hlt j e)]
  · exact foldl_or_zero _ _ fun j _ => (mapSubs_flags f _).trans (foldl_or_zero _ _ fun _ _ => rfl)

/-- A form whose elements are exact integer results, placed or not by element, wraps or clamps them (R160). -/
theorem elementWise_of_intResult {sat : BitVec 1} {r : Ctx → Nat → Nat → Int}
    (h : exec i s = s.issue i fun s c => c.vec s k d uses fun j => mapSubs f fun e => intResult f sat (r c j e)) :
    ElementWise s c m i d f
      (fun j e => wrapInt f (if sat = 1#1 then max (intBounds f).1 (min (intBounds f).2 (r c j e)) else r c j e))
      (flagIf (sat == 1#1 && m.toList.any fun j => (List.range f.count).any fun e =>
        decide (r c j e < (intBounds f).1 ∨ (intBounds f).2 < r c j e)) fSAT) := by
  refine elementWise_of_vec h hs hr hm (fun j e _ _ => ?_) ?_
  · rw [intResult_eq, Nat.mod_eq_of_lt (wrapInt_lt f _)]
  · simp only [intResult_eq]
    rw [foldl_or_mapSubs_flagIf]
    simp only [List.and_any_distrib_left]

end Elements

/-- The lesser of two values has the code that `min` selects (R160). -/
theorem wrapInt_min {f : EFmt} {x y : Nat} (hx : x < 2 ^ f.width) (hy : y < 2 ^ f.width) :
    (if intOf f y < intOf f x then y else x) = wrapInt f (min (intOf f x) (intOf f y)) := by
  split
  · next h => rw [min_eq_right h.le, wrapInt_intOf hy]
  · next h => rw [min_eq_left (not_lt.mp h), wrapInt_intOf hx]

/-- The greater of two values has the code that `max` selects (R160). -/
theorem wrapInt_max {f : EFmt} {x y : Nat} (hx : x < 2 ^ f.width) (hy : y < 2 ^ f.width) :
    (if intOf f x < intOf f y then y else x) = wrapInt f (max (intOf f x) (intOf f y)) := by
  split
  · next h => rw [max_eq_right h.le, wrapInt_intOf hy]
  · next h => rw [max_eq_left (not_lt.mp h), wrapInt_intOf hx]

/-- Settles O1: every form is a wrapped or clamped exact result, element by element. -/
theorem integerArithmeticElements : Obligations.IntegerArithmeticElements := by
  intro s c m o ity sat hm f a b wrapped arithmetic
  have hb (j e : Nat) : c.subB f o j e < 2 ^ f.width := c.subB_lt (ityFmt_isInt ity) o j e
  refine ⟨fun hr => ⟨fun hs => ?_, fun hs => ?_, fun hs => ?_, fun hs => ?_, fun hs => ?_, fun hs => ?_⟩, fun hr hs => ?_⟩
  · exact (elementWise_of_intResult hs hr hm rfl :)
  · exact (elementWise_of_intResult hs hr hm rfl :)
  · exact (elementWise_of_intResult hs hr hm rfl :)
  · exact elementWise_of_codes hs hr hm rfl (fun j e => wrapInt_min (subOf_lt f _ e) (hb j e)) fun _ _ => wrapInt_lt f _
  · exact elementWise_of_codes hs hr hm rfl (fun j e => wrapInt_max (subOf_lt f _ e) (hb j e)) fun _ _ => wrapInt_lt f _
  · exact elementWise_of_codes hs hr hm rfl (fun _ _ => rfl) fun _ _ => wrapInt_lt f _
  · exact (elementWise_of_intResult hs hr hm rfl :)

/-! ### Shifts and bit counts (R162) -/

/-- A rotation's two parts do not meet, and together they are a code. -/
theorem rot_parts {w n a : Nat} (hn : n ≤ w) (ha : a < 2 ^ w) :
    a * 2 ^ n % 2 ^ w + a / 2 ^ (w - n) = (a * 2 ^ n % 2 ^ w) ||| (a / 2 ^ (w - n)) ∧
    (a * 2 ^ n % 2 ^ w) ||| (a / 2 ^ (w - n)) < 2 ^ w := by
  have hw : 2 ^ w = 2 ^ n * 2 ^ (w - n) := by rw [← Nat.pow_add, Nat.add_sub_cancel' hn]
  have hlow : a / 2 ^ (w - n) < 2 ^ n := Nat.div_lt_of_lt_mul (by rwa [Nat.mul_comm, ← hw])
  constructor
  · rw [hw, Nat.mul_comm a, Nat.mul_mod_mul_left]
    exact Nat.two_pow_add_eq_or_of_lt hlow _
  · exact Nat.or_lt_two_pow (Nat.mod_lt _ (Nat.two_pow_pos w))
      (lt_of_lt_of_le hlow (Nat.pow_le_pow_right two_pos hn))

theorem clzOf_spec {w a : Nat} (ha : a < 2 ^ w) :
    clzOf w a ≤ w ∧ a < 2 ^ (w - clzOf w a) ∧ (clzOf w a < w → 2 ^ (w - clzOf w a - 1) ≤ a) := by
  unfold clzOf
  split
  · next h => simp [h]
  · next h =>
    have hlog : Nat.log2 a < w := (Nat.log2_lt h).mpr ha
    have hplace : w - (w - 1 - Nat.log2 a) = Nat.log2 a + 1 := by omega
    rw [hplace]
    exact ⟨by omega, Nat.lt_log2_self, fun _ => Nat.log2_self_le h⟩

theorem ctzOf_spec (w a : Nat) :
    ctzOf w a ≤ w ∧ a % 2 ^ ctzOf w a = 0 ∧ (ctzOf w a < w → a.testBit (ctzOf w a) = true) := by
  have hlow {n : Nat} (h : ∀ b < n, a.testBit b = false) : a % 2 ^ n = 0 := by
    refine Nat.eq_of_testBit_eq fun b => ?_
    rw [Nat.testBit_mod_two_pow, Nat.zero_testBit]
    by_cases hb : b < n
    · simp [h b hb]
    · simp [hb]
  unfold ctzOf
  cases hfind : (List.range w).find? fun b => a.testBit b with
  | none =>
    simp only [List.find?_eq_none, List.mem_range, Bool.not_eq_true] at hfind
    exact ⟨le_rfl, hlow hfind, fun h => absurd h (lt_irrefl w)⟩
  | some n =>
    obtain ⟨hbit, hn, hbelow⟩ := List.find?_range_eq_some.mp hfind
    exact ⟨(List.mem_range.mp hn).le, hlow fun b hb => by simpa using hbelow b hb, fun _ => hbit⟩

theorem popcOf_le (w a : Nat) : popcOf w a ≤ w := by
  simpa [popcOf] using List.length_filter_le (fun b => a.testBit b) (List.range w)

/-- Bit by bit, the reversal of a code is a code whose bits stand in the opposite order. -/
theorem brevOf_spec (w a : Nat) :
    brevOf w a < 2 ^ w ∧ ∀ b, b < w → (brevOf w a).testBit b = a.testBit (w - 1 - b) := by
  induction w with
  | zero => simp [brevOf]
  | succ w ih =>
    obtain ⟨hlt, hbits⟩ := ih
    have hstep : brevOf (w + 1) a = Nat.bit (a.testBit w) (brevOf w a) := by
      simp only [brevOf, List.range_succ, List.foldl_append, List.foldl_cons, List.foldl_nil, Nat.bit_val]
      cases a.testBit w <;> rfl
    rw [hstep]
    refine ⟨by rw [Nat.bit_val, Nat.pow_succ]; have := Bool.toNat_lt (a.testBit w); omega, fun b hb => ?_⟩
    cases b with
    | zero => rw [Nat.testBit_bit_zero]; rfl
    | succ b => rw [Nat.testBit_bit_succ, hbits b (by omega)]; congr 1; omega

theorem ityFmt_width_pos (ity : BitVec 3) : 0 < (ityFmt ity).width := by
  unfold ityFmt
  split <;> decide

/-- Settles O2: each form is one code an element, and the bit counts and the reversal are as characterised above. -/
theorem shiftAndBitCountElements : Obligations.ShiftAndBitCountElements := by
  intro s c m ity f
  have hwidth {n : Nat} (h : n ≤ f.width) : n < 2 ^ f.width := lt_of_le_of_lt h Nat.lt_two_pow_self
  constructor
  · intro o hm hr a n gives
    have hrot (j e : Nat) := rot_parts (Nat.mod_lt (c.subB f o j e) (ityFmt_width_pos ity)).le (subOf_lt f (c.src o.a o.x j) e)
    refine ⟨fun hs => ?_, fun hs => ?_, fun hs => ?_, fun hs => ?_⟩
    · exact elementWise_of_codes hs hr hm rfl (fun _ _ => rfl) fun _ _ => Nat.mod_lt _ (Nat.two_pow_pos _)
    · exact elementWise_of_codes hs hr hm rfl (fun _ _ => rfl) fun j e =>
        lt_of_le_of_lt (Nat.div_le_self _ _) (subOf_lt f _ e)
    · exact elementWise_of_codes hs hr hm rfl (fun _ _ => rfl) fun _ _ => wrapInt_lt f _
    · exact elementWise_of_codes hs hr hm rfl (fun j e => (hrot j e).1) fun j e => (hrot j e).2
  · intro k d a hm hr x ElementIs
    refine ⟨fun hs => ⟨_, elementWise_of_codes hs hr hm rfl (fun _ _ => rfl) fun j e => ?_, fun j e _ _ => ?_⟩,
      fun hs => ⟨_, elementWise_of_codes hs hr hm rfl (fun _ _ => rfl) fun j e => ?_, fun j e _ _ => ?_⟩,
      fun hs => ⟨_, elementWise_of_codes hs hr hm rfl (fun _ _ => rfl) fun j e => ?_, fun j e _ _ => ?_⟩,
      fun hs => ⟨_, elementWise_of_codes hs hr hm rfl (fun _ _ => rfl) fun j e => ?_, fun j e _ _ => ?_⟩⟩
    · exact hwidth (clzOf_spec (subOf_lt f _ e)).1
    · exact clzOf_spec (subOf_lt f _ e)
    · exact hwidth (ctzOf_spec _ _).1
    · exact ctzOf_spec _ _
    · exact hwidth (popcOf_le _ _)
    · rfl
    · exact (brevOf_spec _ _).1
    · exact brevOf_spec _ _

/-! ### Comparisons and signs (R163, R164) -/

/-- The condition of each comparison code. -/
theorem ccHolds_eq (cc : BitVec 3) (a b : Int) :
    ccHolds cc a b = (match cc.toNat with
      | 0 => decide (a = b) | 1 => decide (a ≠ b) | 2 => decide (a < b)
      | 3 => decide (a ≤ b) | 4 => decide (b < a) | _ => decide (b ≤ a)) := by
  have hne : (a != b) = decide (a ≠ b) := decide_not.symm
  unfold ccHolds
  rw [hne]
  rfl

/-- Settles O3: a comparison gives one of two codes, a magnitude or a negation is an exact result. -/
theorem compareAndSignElements : Obligations.CompareAndSignElements := by
  intro s c m ity f
  constructor
  · intro o cc hm hr hs
    have hcode (q : Bool) : (if q = true then 2 ^ f.width - 1 else 0) < 2 ^ f.width := by
      have := Nat.two_pow_pos f.width
      split <;> omega
    exact elementWise_of_codes hs hr hm rfl
      (fun _ _ => congrArg (fun q : Bool => if q = true then 2 ^ f.width - 1 else 0) (ccHolds_eq cc _ _)) fun _ _ => hcode _
  · intro k d a sat hm hr x gives
    refine ⟨fun hs => ?_, fun hs => ?_⟩
    · simpa only [Int.natCast_natAbs] using (elementWise_of_intResult hs hr hm rfl :)
    · exact (elementWise_of_intResult hs hr hm rfl :)

/-! ### Bit fields, constants and address sums (R161, R165, R166) -/

/-- A field below the top of the register, zero-extended, is the register moved down under a mask. -/
theorem extField_false (p len : Nat) (hlen : len ≤ 64) (v : Word) :
    extField false p len v = (v >>> p) &&& BitVec.ofNat 64 (2 ^ len - 1) := by
  have hpow : 2 ^ len ≤ 2 ^ 64 := Nat.pow_le_pow_right two_pos hlen
  have hpos := Nat.two_pow_pos len
  have hmask : (2 ^ len - 1) % 2 ^ 64 = 2 ^ len - 1 := Nat.mod_eq_of_lt (by omega)
  have hfield : v.toNat / 2 ^ p % 2 ^ len % 2 ^ 64 = v.toNat / 2 ^ p % 2 ^ len :=
    Nat.mod_eq_of_lt ((Nat.mod_lt _ hpos).trans_le hpow)
  refine BitVec.eq_of_toNat_eq ?_
  unfold extField
  simp only [Bool.false_eq_true, if_false, BitVec.toNat_and, BitVec.toNat_ofNat, BitVec.toNat_ushiftRight,
    Nat.shiftRight_eq_div_pow]
  rw [hfield, hmask, Nat.and_two_pow_sub_one_eq_mod]

/-- A field, sign-extended, is the register moved to its top and down again with its sign. -/
theorem extField_true {p lenm : Nat} (h : p + lenm + 1 ≤ 64) (v : Word) :
    extField true p (lenm + 1) v = (v <<< (63 - lenm - p)).sshiftRight (63 - lenm) := by
  have hfield : extField true p (lenm + 1) v = (v.extractLsb' p (lenm + 1)).signExtend 64 := by
    have hval : v.toNat / 2 ^ p % 2 ^ (lenm + 1) = (v.extractLsb' p (lenm + 1)).toNat := by
      rw [BitVec.extractLsb'_toNat, Nat.shiftRight_eq_div_pow]
    unfold extField
    rw [if_pos rfl, hval, signedOf_toNat _ (Nat.succ_pos lenm)]
    rfl
  rw [hfield]
  ext b hb
  simp only [BitVec.getElem_signExtend, BitVec.getElem_sshiftRight, BitVec.getElem_extractLsb', BitVec.getElem_shiftLeft,
    BitVec.msb_eq_getLsbD_last, BitVec.getLsbD_extractLsb', BitVec.getLsbD_shiftLeft]
  have hbit {x y : Nat} (hy : y < 64) (hxy : y = x) : v.getLsbD x = v[y] := by
    subst hxy
    exact BitVec.getLsbD_eq_getElem hy
  by_cases hlow : b < lenm + 1
  · rw [dif_pos hlow, dif_pos (by omega), hbit (y := 63 - lenm + b - (63 - lenm - p)) (by omega) (by omega)]
    simp only [show ¬ 63 - lenm + b < 63 - lenm - p by omega, decide_false, Bool.not_false, Bool.true_and]
  · rw [dif_neg hlow, dif_neg (by omega), show 64 - 1 - (63 - lenm - p) = p + (lenm + 1 - 1) by omega]
    simp only [show lenm + 1 - 1 < lenm + 1 by omega, show 64 - 1 < 64 by omega, show ¬ 64 - 1 < 63 - lenm - p by omega,
      decide_true, decide_false, Bool.not_false, Bool.true_and]

/-- A field replaced, with its mask made where it stands. -/
theorem insField_eq (p len : Nat) (old v : Word) :
    insField p len old v =
      (old &&& ~~~(BitVec.ofNat 64 (2 ^ len - 1) <<< p)) ||| ((v <<< p) &&& (BitVec.ofNat 64 (2 ^ len - 1) <<< p)) := by
  have hmask : BitVec.ofNat 64 ((2 ^ len - 1) * 2 ^ p) = BitVec.ofNat 64 (2 ^ len - 1) <<< p := by
    refine BitVec.eq_of_toNat_eq ?_
    rw [BitVec.toNat_shiftLeft, Nat.shiftLeft_eq, BitVec.toNat_ofNat, BitVec.toNat_ofNat, Nat.mod_mul_mod]
  unfold insField
  rw [hmask]

/-- An instruction that sees a context has fields its entry accepts. -/
theorem State.legal_of_sees {s : State} {i : Instr} {c : Ctx} (h : s.sees i = some c) : i.legal = true := by
  unfold State.sees at h
  split at h
  · assumption
  · cases h

/-- A bit field that is accepted lies inside the register (R165). -/
theorem ext_inside {k : BitVec 3} {d a : BitVec 5} {sx : BitVec 1} {lenm p : BitVec 6}
    (h : (Instr.ext k d a sx lenm p).legal = true) : p.toNat + lenm.toNat + 1 ≤ 64 :=
  of_decide_eq_true (Bool.and_elim_right h)

/-- An instruction on lanes without flags completes lane by lane with any function that its own agrees with. -/
theorem laneWise_of_eq {s : State} {c : Ctx} {m : Mask} {i : Instr} {k : BitVec 3} {d : BitVec 5}
    {uses : List (BitVec 5)} {f : Ctx → Nat → Word} {g : Nat → Word} (hs : s.sees i = some c)
    (hr : c.ready k (d :: uses)) (hm : c.mask k = some m) (h : exec i s = s.issue i fun s c => c.pure s k d uses (f c))
    (hg : ∀ j, f c j = g j) : LaneWise s c m i d g :=
  funext hg ▸ laneWise_of_pure h hs hr hm

/-- Settles O4: each form is its lane function; a bit field lies inside the register (R165). -/
theorem bitwiseAndFieldResults : Obligations.BitwiseAndFieldResults := by
  intro s c m gives
  refine ⟨fun k d a lenm p => ⟨fun hm hr hs => ?_, fun hm hr hs => ?_, fun hm hr hs => ?_⟩,
    fun k d a imm => ⟨fun hm hr hs => ?_, fun hm hr hs => ?_, fun hm hr hs => ?_⟩, ?_⟩
  · exact laneWise_of_eq hs hr hm rfl fun j => extField_false _ _ (by omega) _
  · exact laneWise_of_eq hs hr hm rfl fun j => extField_true (ext_inside (State.legal_of_sees hs)) _
  · exact laneWise_of_eq hs hr hm rfl fun j => insField_eq _ _ _ _
  · exact laneWise_of_pure rfl hs hr hm
  · exact laneWise_of_pure rfl hs hr hm
  · exact laneWise_of_pure rfl hs hr hm
  · intro o sh a b
    exact ⟨fun hm hr hs => laneWise_of_eq hs hr hm rfl fun _ => rfl, fun hm hr hs => laneWise_of_eq hs hr hm rfl fun _ => rfl,
      fun hm hr hs => laneWise_of_eq hs hr hm rfl fun _ => rfl, fun hm hr hs => laneWise_of_eq hs hr hm rfl fun _ => rfl,
      fun hm hr hs => laneWise_of_eq hs hr hm rfl fun _ => rfl, fun hm hr hs => laneWise_of_eq hs hr hm rfl fun _ => rfl⟩

/-! ### Integer conversions (R167, R168) -/

/-- The element of the source that an element of the destination of a conversion takes, if it takes one (R168). -/
def convertSource (src dst : EFmt) (part e : Nat) : Option Nat :=
  if dst.count ≤ src.count then (if part * dst.count + e < src.count then some (part * dst.count + e) else none)
  else if part * src.count ≤ e ∧ e < (part + 1) * src.count then some (e - part * src.count) else none

/-- What an element of the destination is that takes none: zero, or kept where the destination has more elements. -/
def convertRest (src dst : EFmt) (old : Word) (e : Nat) : Nat := if dst.count ≤ src.count then 0 else subOf dst old e

/-- A conversion, element by element of its destination. -/
theorem convertParts_eq (src dst : EFmt) (part : Nat) (a old : Word) (g : Nat → Nat → Nat × BitVec 5) :
    convertParts src dst part a old g = mapSubs dst fun e =>
      (convertSource src dst part e).elim (convertRest src dst old e, 0#5) fun n => g e (subOf src a n) := by
  unfold convertParts convertSource convertRest
  by_cases h : dst.count ≤ src.count
  · simp only [h, if_true]
    congr 1
    funext e
    split <;> rfl
  · simp only [h, if_false]
    congr 1
    funext e
    by_cases he : part * src.count ≤ e ∧ e < (part + 1) * src.count
    · simp only [he, decide_true, Bool.and_self, and_self, if_true, Option.elim_some]
    · rw [if_neg he, if_neg (by simpa using he)]
      rfl

theorem convertRest_lt (src dst : EFmt) (old : Word) (e : Nat) : convertRest src dst old e < 2 ^ dst.width := by
  unfold convertRest
  split
  · exact Nat.two_pow_pos _
  · exact subOf_lt dst old e

/-- Settles O5: an element either takes one of the source, as an exact result, or is what it was or zero. -/
theorem integerConversionElements : Obligations.IntegerConversionElements := by
  intro s c m k d a dst src sat part hm hr hs f g p source value outside
  have hexec : exec (.icvt k d a dst src sat part) s = s.issue (.icvt k d a dst src sat part) fun s c =>
      c.vec s k d [a] fun j => mapSubs f fun e => (convertSource g f p e).elim (convertRest g f (c.src d 0#5 j) e, 0#5)
        fun n => intResult f sat (intOf g (subOf g (c.src a 0#5 j) n)) := by
    change execIcvt k d a dst src sat part s = _
    unfold execIcvt
    simp only [convertParts_eq]
    rfl
  have hsource (e : Nat) : convertSource g f p e = source e := rfl
  refine elementWise_of_vec hexec hs hr hm (fun j e _ _ => ?_) ?_
  · rw [hsource]
    cases source e with
    | none => exact Nat.mod_eq_of_lt (convertRest_lt g f _ e)
    | some n =>
      dsimp only [Option.elim_some]
      rw [intResult_eq, Nat.mod_eq_of_lt (wrapInt_lt f _)]
  · have hflag (j e : Nat) : ((convertSource g f p e).elim (convertRest g f (c.src d 0#5 j) e, 0#5)
        fun n => intResult f sat (intOf g (subOf g (c.src a 0#5 j) n))).2 =
        flagIf (sat == 1#1 && match source e with | some n => outside (value j n) | none => false) fSAT := by
      rw [hsource]
      cases source e with
      | none => simp only [Bool.and_false]; rfl
      | some n => exact congrArg Prod.snd (intResult_eq f sat _)
    simp only [mapSubs_flags, hflag, foldl_or_flagIf, List.and_any_distrib_left] <;> rfl

/-! ### Float forms (R99, R171 to R176) -/

/-- Only a stochastic rounding counts (R99). -/
theorem Run.rounded_nearest (r : Run) (m : Mask) : r.rounded 0#3 m = r := if_neg (by decide)

theorem mapSubs_word (f : EFmt) (g : Nat → Nat × BitVec 5) :
    (mapSubs f g).1 = packSubs f ((List.range f.count).map fun e => (g e).1) :=
  congrArg (packSubs f) List.map_map

section Lanes

variable {s : State} {c : Ctx} {m : Mask} {i : Instr} {k : BitVec 3} {d : BitVec 5} {uses : List (BitVec 5)}
  {F : State → Ctx → Issue} {rm : BitVec 3}
  (hs : s.sees i = some c) (hr : c.ready k (d :: uses)) (hm : c.mask k = some m) (hexec : ∀ s, exec i s = s.issue i F)

include hs hr hm hexec

/-- A form on lanes that rounds under a mode completes, and a stochastic one counts in the lanes named (R99, R157). -/
theorem exec_of_vecR {g : Nat → Word × BitVec 5} (h : F s c = c.vecR s k d uses rm g) :
    exec i s = .next (s.issued c (Run.rounded
      ((c.r.write d m fun j => (g j).1).flag (m.toList.foldl (fun x j => x ||| (g j).2) 0#5)) rm m)) := by
  refine exec_of_go hexec hs ?_
  rw [h, Ctx.vecR, Ctx.vec_of_ready hr hm, hm]
  rfl

/-- A form on lanes that rounds under no mode completes and counts nothing. -/
theorem exec_of_vec {g : Nat → Word × BitVec 5} (h : F s c = c.vec s k d uses g) :
    exec i s = .next (s.issued c (Run.rounded
      ((c.r.write d m fun j => (g j).1).flag (m.toList.foldl (fun x j => x ||| (g j).2) 0#5)) 0#3 m)) := by
  rw [Run.rounded_nearest]
  exact exec_of_go hexec hs (h.trans (Ctx.vec_of_ready hr hm s g))

/-- A form that rounds element by element, its elements and flags written out. -/
theorem exec_of_vecR_elements {f : EFmt} {g : Nat → Nat → Nat × BitVec 5}
    (h : F s c = c.vecR s k d uses rm fun j => mapSubs f (g j)) :
    exec i s = .next (s.issued c (Run.rounded
      ((c.r.write d m fun j => packSubs f ((List.range f.count).map fun e => (g j e).1)).flag
        (m.toList.foldl (fun x j => x ||| (List.range f.count).foldl (fun y e => y ||| (g j e).2) 0#5) 0#5)) rm m)) := by
  simpa only [mapSubs_word, mapSubs_flags] using exec_of_vecR hs hr hm hexec h

end Lanes

/-- Settles O9: every form is `Ctx.vecR` over its elements' exact results. -/
theorem floatArithmeticResults : Obligations.FloatArithmeticResults := by
  intro s c m o ty rm ftz hm f read a b b' x gives
  refine ⟨fun hr => ⟨fun hs => ?_, fun hs => ?_, fun hs => ?_, fun hs => ?_⟩, fun hr => ⟨fun hs => ?_, fun hs => ?_⟩⟩
  all_goals exact exec_of_vecR_elements hs hr hm (fun _ => rfl) rfl

/-- Settles O10: the selections, the tree product sum and the sign operations round under no mode, the others under theirs. -/
theorem floatSelectionAndConversionResults : Obligations.FloatSelectionAndConversionResults := by
  intro s c m gives
  refine ⟨fun o ty ftz => ⟨fun hm hr hs => ?_, fun hm hr hs => ?_⟩, fun o ty rm ftz hm hr hs => ?_,
    fun o e opc hm hr hs => ?_, fun k d a rm ftz => ⟨fun ty hm hr hs => ?_, fun dst src part hm hr hs => ?_⟩⟩
  · exact exec_of_vec hs hr hm (fun _ => rfl) rfl
  · exact exec_of_vec hs hr hm (fun _ => rfl) rfl
  · exact exec_of_vec hs hr hm (fun _ => rfl) rfl
  · exact exec_of_vec hs hr hm (fun _ => rfl) rfl
  · exact exec_of_vecR hs hr hm (fun _ => rfl) rfl
  · exact exec_of_vecR hs hr hm (fun _ => rfl) rfl

/-! ### Cross-lane instructions (R177 to R182) -/

/-- A cross-lane form that waits for nothing awaits its results, or does nothing where no lane is named (R64, R178). -/
theorem awaits_of_late {s : State} {c : Ctx} {m : Mask} {i : Instr} {k : BitVec 3} {d : BitVec 5}
    {uses : List (BitVec 5)} {F : State → Ctx → Issue} {la : BitVec 4} {g : Mask → List (Nat × Word) × BitVec 5}
    (hs : s.sees i = some c) (hr : c.ready k (d :: uses)) (hm : c.mask k = some m)
    (hexec : ∀ s, exec i s = s.issue i F) (h : F s c = c.late s k d uses la g) :
    Awaits s c m i d la (g m).1 (g m).2 := by
  obtain ⟨hk, hd⟩ := hr
  have hlate : F s c = if m = 0#32 then .go s c.r else .go (s.freshId c.w.core).2
      ((c.r.await (s.freshId c.w.core).1 (.win d 1) (g m).1 la).flag (g m).2) := by
    simp only [h, Ctx.late, hk, hd, hm, Bool.or_false, Bool.false_eq_true, if_false]
  unfold Awaits
  split
  · next h0 => exact exec_of_go hexec hs (hlate.trans (if_pos h0))
  · next h0 => exact exec_of_go hexec hs (hlate.trans (if_neg h0))

/-- A move whose registers are made element by element awaits those elements (R179). -/
theorem awaits_of_moves {s : State} {c : Ctx} {m : Mask} {i : Instr} {k : BitVec 3} {d : BitVec 5}
    {uses : List (BitVec 5)} {F : State → Ctx → Issue} {la : BitVec 4} {f : EFmt} {g : Mask → Nat → Nat → Nat}
    {g' : Nat → Nat → Nat} (hs : s.sees i = some c) (hr : c.ready k (d :: uses)) (hm : c.mask k = some m)
    (hexec : ∀ s, exec i s = s.issue i F) (h : F s c = c.late s k d uses la fun m => (lanesMade f m (g m), 0#5))
    (hg : ∀ j e, g m j e = g' j e) :
    Awaits s c m i d la (m.toList.map fun j => (j, packSubs f ((List.range f.count).map (g' j)))) 0#5 := by
  rw [← show g m = g' from funext₂ hg]
  exact awaits_of_late (g := fun m => (lanesMade f m (g m), 0#5)) hs hr hm hexec h

/-- A sum of distinct powers of two has the bits of their exponents. -/
theorem testBit_foldl_two_pow (p : Nat → Bool) (n b : Nat) :
    (((List.range n).filter p).foldl (fun x e => x + 2 ^ e) 0).testBit b = (decide (b < n) && p b) := by
  have hbits : ∀ n, ((List.range n).filter p).foldl (fun x e => x + 2 ^ e) 0 < 2 ^ n ∧
      ∀ b, (((List.range n).filter p).foldl (fun x e => x + 2 ^ e) 0).testBit b = (decide (b < n) && p b) := by
    intro n
    induction n with
    | zero => simp
    | succ n ih =>
      obtain ⟨hlt, hbits⟩ := ih
      rw [List.range_succ, List.filter_append, List.foldl_append, Nat.pow_succ]
      have hbelow {b : Nat} (h : b ≠ n) : decide (b < n + 1) = decide (b < n) := decide_eq_decide.mpr (by omega)
      cases hp : p n with
      | false =>
        simp only [List.filter_cons, hp, Bool.false_eq_true, if_false, List.filter_nil, List.foldl_nil, hbits]
        refine ⟨by omega, fun b => ?_⟩
        by_cases h : b = n
        · simp [h, hp]
        · rw [hbelow h]
      | true =>
        simp only [List.filter_cons, hp, if_true, List.filter_nil, List.foldl_cons, List.foldl_nil]
        refine ⟨by omega, fun b => ?_⟩
        rw [Nat.add_comm, ← Nat.mul_one (2 ^ n), Nat.two_pow_add_eq_or_of_lt hlt, Nat.mul_one, Nat.testBit_or,
          Nat.testBit_two_pow, hbits]
        by_cases h : b = n
        · simp [h, hp]
        · rw [hbelow h]
          simp [Ne.symm h]
  exact (hbits n).2 b

theorem EFmt.count_pos (f : EFmt) : 0 < f.count := by cases f <;> decide

/-- The word that `xbal` gives: the elements of the lanes named that are not zero, over the whole warp (R179). -/
def Ctx.ballot (c : Ctx) (f : EFmt) (m : Mask) (a : BitVec 5) : Word :=
  BitVec.ofNat 64 (((List.range (32 * f.count)).filter fun e =>
    m.getLsbD (e / f.count) && c.element f a 0#5 e != 0).foldl (fun x e => x + 2 ^ e) 0)

theorem Ctx.getLsbD_ballot (c : Ctx) (f : EFmt) (m : Mask) (a : BitVec 5) {e : Nat} (he : e < 64) :
    (c.ballot f m a).getLsbD e = (m.getLsbD (e / f.count) && c.p.live.getLsbD (e / f.count) &&
      decide (Machine.subOf f (c.src a 0#5 (e / f.count)) (e % f.count) ≠ 0)) := by
  unfold Ctx.ballot Ctx.element
  rw [BitVec.getLsbD_ofNat, testBit_foldl_two_pow]
  by_cases hlane : e < 32 * f.count
  · cases hlive : c.p.live.getLsbD (e / f.count) <;> simp [he, hlane, bne, beq_eq_decide]
  · have habsent : m.getLsbD (e / f.count) = false :=
      BitVec.getLsbD_of_ge m _ ((Nat.le_div_iff_mul_le (EFmt.count_pos f)).mpr (not_lt.mp hlane))
    simp [hlane, habsent]

/-- Where the place is out of range the element is zero. -/
theorem element_or_zero (p : Prop) [Decidable p] (e : Nat) (g : Nat → Nat) :
    (match (if p then none else some e) with
      | some e => g e
      | none => 0) = if p then 0 else g e := by
  by_cases h : p <;> simp only [h, if_true, if_false]

/-- Settles O11: the sources are read at issue, and each move is a function of the place of the element. -/
theorem crossLaneMoveResults : Obligations.CrossLaneMoveResults := by
  intro s c m o wd la hm f total source n moved
  refine ⟨fun hr => ⟨fun hs => ?_, fun hs => ?_, fun mode hs => ?_⟩, fun hr hs => ⟨c.ballot f m o.a, ?_, fun e he => ?_⟩⟩
  · exact awaits_of_moves hs hr hm (fun _ => rfl) rfl fun _ _ => rfl
  · exact awaits_of_moves hs hr hm (fun _ => rfl) rfl fun _ _ => rfl
  · refine awaits_of_moves hs hr hm (fun _ => rfl) rfl fun j e => ?_
    unfold shiftFrom
    rcases mode.toNat with _ | _ | _ | q
    case succ.succ.zero => rfl
    all_goals exact element_or_zero _ _ (c.element f o.a o.x)
  · exact awaits_of_late (g := fun m => (m.toList.map fun j => (j, c.ballot f m o.a), 0#5)) hs hr hm (fun _ => rfl) rfl
  · exact c.getLsbD_ballot f m o.a he

/-! ### Reductions, scans and rankings (R180 to R182) -/

section Reductions

variable (c : Ctx) (f : EFmt) (a : BitVec 5) (m : Mask)

/-- What is made of each element of the lanes named, lane by lane. -/
theorem Ctx.map_listOf {α : Type} (g : Nat × Nat × Nat → α) :
    (c.listOf f a m).map g =
      m.toList.flatMap fun j => (List.range f.count).map fun e => g (j, e, Machine.subOf f (c.src a 0#5 j) e) := by
  unfold Ctx.listOf
  simp only [List.map_flatMap, List.map_map, Function.comp_def]

theorem Ctx.length_listOf : (c.listOf f a m).length = m.toList.length * f.count := by
  simp [Ctx.listOf]

end Reductions

/-- A result for each place of a list, read at a place. -/
theorem getD_map_range {α : Type} (g : Nat → α) (z : α) {l n : Nat} (h : n < l) :
    ((List.range l).map g).getD n z = g n := by
  simp [h]

/-- Settles O12: the lists of elements are those of the lanes named, in lane order. -/
theorem crossLaneReductionResults : Obligations.CrossLaneReductionResults := by
  intro s c m k d a b rty la hm f codes
  have hcodes : (c.listOf f a m).map (·.2.2) = codes := c.map_listOf f a m _
  refine ⟨fun rop rm ftz exc hr => ⟨fun hs => ?_, ?_⟩, fun sel km1 hr hs => ?_⟩
  · rw [← hcodes]
    exact (awaits_of_late hs hr hm (fun _ => rfl) rfl :)
  · intro hs pre
    have hpre (n : Nat) : reduce f rop rm ftz
        (((c.listOf f a m).map (·.2.2)).take (if (exc == 1#1) = true then n else n + 1)) = pre n := by
      rw [hcodes]
      simp only [beq_iff_eq]
      rfl
    refine Eq.mp (congrArg₂ (Awaits s c m _ d la) ?_ ?_) (awaits_of_late hs hr hm (fun _ => rfl) rfl :)
    · refine List.map_congr_left fun x hx => congrArg (fun l => (x.1, packSubs f l)) (List.map_congr_left fun i hi => ?_)
      have hplace : x.2 * f.count + i < ((c.listOf f a m).map (·.2.2)).length := by
        rw [List.length_map, Ctx.length_listOf]
        have hlane := List.snd_lt_of_mem_zipIdx hx
        have hi := List.mem_range.mp hi
        nlinarith
      rw [getD_map_range _ _ hplace]
      exact congrArg Prod.fst (hpre _)
    · rw [← hcodes, ← funext hpre]
      exact List.foldl_map
  · intro keys
    have hkeys : (c.listOf f a m).map (fun e => (e.2.2, c.src b 0#5 e.1 + BitVec.ofNat 64 e.2.1)) = keys :=
      c.map_listOf f a m _
    rw [← hkeys]
    refine Eq.mp (congrArg₂ (Awaits s c m _ d la) ?_ ?_) (awaits_of_late hs hr hm (fun _ => rfl) rfl :)
    · simp only [Nat.lt_succ_iff, beq_iff_eq] <;> rfl
    · rfl

/-! ### The special-function queue (R184 to R191) -/

section Sfq

variable {s : State} {c : Ctx} {m : Mask} {k : BitVec 3} {d a b : BitVec 5} {ty : BitVec 2} {fn : BitVec 4} {ftz : BitVec 1}

/-- An `sfq` whose register neither the warp nor the warp that owns the registers has marked takes the lowest free token and is
staged for the commit (R186, R190). -/
theorem exec_sfq_of_free {t : Nat} (hs : s.sees (.sfq k d a b ty fn ftz) = some c) (hm : c.mask k = some m)
    (hr : c.ready k [a, b]) (hreg : c.r.regOf d.toNat < 8 * c.own.g) (hhazard : c.p.hazard c.own (c.r.regOf d.toNat) = false)
    (hnamed : (c.r.sfq.any fun e => c.r.regOf e.1.toNat == c.r.regOf d.toNat) = false) (ht : c.freeToken = some t) :
    let op : SfqOp :=
      { token := t, reg := c.r.regOf d.toNat, lanes := m, vals := m.toList.map fun j => (j, c.src a 0#5 j),
        fn := fn.toNat, ty := ty, ftz := ftz == 1#1 }
    let r := (c.r.write b m fun _ => BitVec.ofNat 64 t).hold (.sfq op)
    exec (.sfq k d a b ty fn ftz) s = .next (s.issued c
      { r with sfq := r.sfq ++ [(d, t)], res := { r.res with tokens := r.res.tokens ++ [t] } }) := by
  obtain ⟨hk, hc⟩ := hr
  refine exec_of_go (fun _ => rfl) hs ?_
  simp [hk, hc, hm, not_le.mpr hreg, hhazard, hnamed, ht]

/-- An `sfw` that names no busy token goes on (R189). -/
theorem exec_sfw_of_done {mask : BitVec 16} (hs : s.sees (.sfw mask) = some c)
    (hdone : ∀ q ∈ c.p.sfq, mask.getLsbD q.token = false) : exec (.sfw mask) s = .next (s.issued c c.r) := by
  refine exec_of_go (fun _ => rfl) hs (if_neg ?_)
  simpa [Warp.sfwWaits] using hdone

/-- `sfp` gives each lane named the mask of the tokens that are not busy (R191). -/
theorem laneWise_sfp (hs : s.sees (.sfp k d) = some c) (hm : c.mask k = some m) (hr : c.ready k [d]) :
    LaneWise s c m (.sfp k d) d fun _ =>
      BitVec.ofNat 64 (((List.range 16).filter fun t => !c.p.tokenBusy t).foldl (fun x t => x + 2 ^ t) 0) :=
  laneWise_of_pure rfl hs hr hm

end Sfq

/-- A handler warp at position 1 of a run over a warp whose register v1 carries a token's mark, as a handler of LOGFULL may find it
(R347; the handler waits for no mark of that warp). -/
def State.handlerOverMark : State :=
  { (State.reset.placeSlot 0#32).modCore 0 fun k =>
      { k with
        hnds := k.warps.map fun e => (e.1, { e.2 with kind := .handler })
        warps := k.warps.map fun e => (e.1, { e.2 with
          run := none
          marks := [{ reg := 1, owner := .token 0, id := 0, lanes := 1#32, vals := [], known := false, poison := false }] }) }
    with focus := some { core := 0, slot := 0, hnd := true } }

/-- Whether an outcome is a next state in which a launch ends. -/
def endsLaunch : Host.Outcome State Fault Refusal → Bool
  | .next t => t.launches.any fun e => e.2.cause.isSome
  | _ => false

/-- What the handler warp's `sfq` sees meets every condition of O13 but that its owner's register carries a mark. -/
theorem handlerOverMark_sees :
    ((State.handlerOverMark.sees (.sfq 0#3 1#5 2#5 16#5 1#2 0#4 0#1)).any fun c =>
      c.mask 0#3 == some 0xFFFFFFFF#32 && !c.busyK 0 && !c.busy [2#5, 16#5] && c.r.regOf 1 < 8 * c.own.g && c.p.marks == []
        && c.r.sfq == [] && c.freeToken == some 0) = true := by decide +kernel

/-- Its `sfq` raises RUNHAZ (R186), which ends the launch of a handler warp (R347). -/
theorem handlerOverMark_endsLaunch :
    endsLaunch (exec (.sfq 0#3 1#5 2#5 16#5 1#2 0#4 0#1) State.handlerOverMark) = true ∧
    endsLaunch (.next State.handlerOverMark) = false := by decide +kernel

/-- Refutes O13: the marks of an `sfq`'s register are also those of the warp that owns the registers, and the statement supposes
only that the issuing warp has none there. A handler warp whose owner has marked the register takes RUNHAZ. -/
theorem not_specialFunctionQueueResults : ¬ Obligations.SpecialFunctionQueueResults := by
  intro h
  obtain ⟨c, hs, hc⟩ := (Option.any_eq_true _ _).mp handlerOverMark_sees
  simp only [Bool.and_eq_true, beq_iff_eq, decide_eq_true_eq, Bool.not_eq_true'] at hc
  obtain ⟨⟨⟨⟨⟨⟨hm, hk⟩, hbusy⟩, hreg⟩, hmarks⟩, hsfq⟩, hfree⟩ := hc
  have hissued := (h _ c).1 _ _ _ _ _ _ _ _ _ hs hm ⟨hk, hbusy⟩ hreg (by rw [hmarks]; rfl) (by rw [hsfq]; rfl) hfree
  obtain ⟨hends, hgoes⟩ := handlerOverMark_endsLaunch
  rw [hissued] at hends
  exact Bool.false_ne_true (hgoes.symm.trans hends)

end Sys2Proof.Machine

/-! PROOFS. Thread sets (O17, O19 to O22): tests, counts and the making of set values, sets in memory and set queues, groups
and applies. -/

namespace Sys2Proof.Machine

/-! ### Tests (R218 to R220) -/

/-- The lanes of a mask that hit. -/
def hitMask (m : Mask) (p : Nat → Bool) : Mask :=
  m.toList.foldl (fun t j => if p j then t ||| BitVec.ofNat 32 (2 ^ j) else t) 0#32

/-- A lane is among those that hit where it was before or where it is one of those tested and hits. -/
theorem getLsbD_foldl_hits {l : List Nat} (hl : ∀ x ∈ l, x < 32) (p : Nat → Bool) (t : Mask) (j : Nat) :
    (l.foldl (fun t j => if p j then t ||| BitVec.ofNat 32 (2 ^ j) else t) t).getLsbD j = true ↔
      t.getLsbD j = true ∨ j ∈ l ∧ p j = true := by
  induction l generalizing t with
  | nil => simp
  | cons x r ih =>
    rw [List.foldl_cons, ih fun y hy => hl y (List.mem_cons_of_mem x hy)]
    cases hp : p x with
    | false =>
      have hne : p j = true → j ≠ x := by
        rintro h rfl
        exact Bool.false_ne_true (hp.symm.trans h)
      grind
    | true =>
      rw [if_pos rfl, BitVec.getLsbD_or, getLsbD_bit (hl x List.mem_cons_self)]
      grind

theorem getLsbD_hitMask (m : Mask) (p : Nat → Bool) (j : Nat) :
    (hitMask m p).getLsbD j = true ↔ m.getLsbD j = true ∧ p j = true := by
  have hlanes : ∀ x ∈ m.toList, x < 32 := fun x hx => BitVec.lt_of_getLsbD ((Mask.mem_toList m x).mp hx)
  rw [hitMask, getLsbD_foldl_hits hlanes, Mask.mem_toList]
  simp

/-- A lane hits where all its elements agree, or where some do, as the form says (R219). -/
theorem hits_range (all : BitVec 1) (n : Nat) (p : Nat → Bool) : hits all ((List.range n).map p) = true ↔
    if all = 1#1 then ∀ e, e < n → p e = true else ∃ e, e < n ∧ p e = true := by
  unfold hits
  split <;> simp

section Tests

variable {s : State} {c : Ctx} {m : Mask} {k : BitVec 3} {d kf : Nat} {uses : List (BitVec 5)} (hm : c.mask k = some m)
  (hr : c.ready k uses) (hd : c.busyK d = false) (hf : c.busyK kf = false)

include hm hr hd hf

/-- A test that waits for nothing stages the lanes that hit and the others, or does nothing where no lane is live (R220). -/
theorem Ctx.test_of_ready (f : Nat → Bool × BitVec 5) : c.test s k d kf uses f =
    .go s (if m = 0#32 then c.r else
      ((c.r.setK d (localValue c.w.slot (hitMask m fun j => (f j).1))).setK kf
        (localValue c.w.slot (m &&& ~~~hitMask m fun j => (f j).1))).flag
          (m.toList.foldl (fun x j => x ||| (f j).2) 0#5)) := by
  obtain ⟨hk, hu⟩ := hr
  unfold Ctx.test
  simp only [hk, hu, hd, hf, hm, Bool.or_false, Bool.false_eq_true, if_false]
  split <;> rfl

/-- So it splits its lanes by what they hit. -/
theorem exec_of_test {i : Instr} {F : State → Ctx → Issue} {f : Nat → Bool × BitVec 5} {hit : Nat → Prop} {fl : BitVec 5}
    (hexec : ∀ s, exec i s = s.issue i F) (hs : s.sees i = some c) (h : F s c = c.test s k d kf uses f)
    (hhit : ∀ j, (f j).1 = true ↔ hit j) (hfl : m.toList.foldl (fun x j => x ||| (f j).2) 0#5 = fl) :
    ∃ t : Mask, (∀ j, t.getLsbD j = true ↔ m.getLsbD j = true ∧ hit j) ∧
      exec i s = .next (s.issued c (if m = 0#32 then c.r else
        ((c.r.setK d (localValue c.w.slot t)).setK kf (localValue c.w.slot (m &&& ~~~t))).flag fl)) := by
  subst hfl
  exact ⟨hitMask m fun j => (f j).1, fun j => (getLsbD_hitMask m _ j).trans (and_congr_right fun _ => hhit j),
    exec_of_go hexec hs (h.trans (Ctx.test_of_ready hm hr hd hf f))⟩

end Tests

/-- Settles O17: both forms are `Ctx.test` over the conditions of their elements. -/
theorem testsSplitTheirLanes : Obligations.TestsSplitTheirLanes := by
  intro s c m k d a b all kf hm hr hd hf splits agree
  constructor
  · intro ity cc f hs
    exact exec_of_test hm hr hd hf (fun _ => rfl) hs rfl (fun j => hits_range all f.count _)
      (foldl_or_zero _ _ fun _ _ => rfl)
  · intro ty fc ftz f test hs
    refine exec_of_test hm hr hd hf (fun _ => rfl) hs rfl (fun j => ?_) ?_
    · dsimp only
      rw [List.map_map]
      exact hits_range all f.count _
    · simp only [List.foldl_map]
      rfl

/-! ### Counts, ranks and the making of set values (R222, R223) -/

/-- The members one by one: core, slot and lane, ascending (R222). -/
def Members.listed (ms : Members) : List (Nat × Nat × Nat) := ms.flatMap fun e => e.2.2.toList.map fun j => (e.1, e.2.1, j)

theorem Members.count_eq_length_listed (ms : Members) : ms.count = ms.listed.length := by
  have hfrom (n : Nat) : ms.foldl (fun n e => n + countLanes e.2.2) n = n + ms.listed.length := by
    induction ms generalizing n with
    | nil => rfl
    | cons e r ih =>
      rw [List.foldl_cons, ih]
      simp [Members.listed, countLanes, Nat.add_assoc]
  exact (hfrom 0).trans (Nat.zero_add _)

section Counts

variable {s s1 : State} {c : Ctx} {m : Mask} {k : BitVec 3} {d a : BitVec 5} {uses : List (BitVec 5)} {i : Instr}
  {F : State → Ctx → Issue} {f : Members → Nat → Word} (hm : c.mask k = some m) (ha : c.busyK a.toNat = false)
  (hr : c.ready k (d :: uses)) (hs : s.sees i = some c) (hexec : ∀ s, exec i s = s.issue i F)
  (h : F s c = c.ofMembers s k d a uses f)

include hm ha hr hs hexec h

/-- What is asked of the members of a set does nothing where no lane is live (R218). -/
theorem exec_ofMembers_of_none (h0 : m = 0#32) : exec i s = .next (s.issued c c.r) := by
  obtain ⟨hk, hu⟩ := hr
  refine exec_of_go hexec hs (h.trans ?_)
  simp only [Ctx.ofMembers, hk, ha, hu, hm, h0, Bool.or_false, Bool.false_eq_true, if_false, if_true]

/-- Else it writes what the members give, or awaits it where the set is in memory (R222). -/
theorem exec_ofMembers_of_members {ms : Members} {g : Nat → Word} (h0 : m ≠ 0#32)
    (hres : c.resolve s (c.kval a.toNat) .stored = (.members ms, s1)) (hg : ∀ j, f ms j = g j) :
    if setKind (c.kval a.toNat) = 3 then
      exec i s = .next ((s1.freshId c.w.core).2.issued c
        (c.r.await (s1.freshId c.w.core).1 (.win d 1) (m.toList.map fun j => (j, g j)) 0#4))
    else exec i s = .next (s1.issued c (c.r.write d m g)) := by
  obtain ⟨hk, hu⟩ := hr
  obtain rfl : f ms = g := funext hg
  have hdone : F s c = if setKind (c.kval a.toNat) = 3 then
      .go (s1.freshId c.w.core).2
        (c.r.await (s1.freshId c.w.core).1 (.win d 1) (m.toList.map fun j => (j, f ms j)) 0#4)
      else .go s1 (c.r.write d m (f ms)) := by
    simp only [h, Ctx.ofMembers, hk, ha, hu, hm, h0, hres, Bool.or_false, Bool.false_eq_true, if_false, beq_iff_eq]
  split
  · next h3 => exact exec_of_go hexec hs (hdone.trans (if_pos h3))
  · next h3 => exact exec_of_go hexec hs (hdone.trans (if_neg h3))

end Counts

/-- `kmake.v` stages the value that it checks, or takes SETKIND (R223). -/
theorem exec_kmakeV_of_ready {s : State} {c : Ctx} {d a : BitVec 5} {v : Word} (hd : c.busyK d.toNat = false)
    (ha : c.busy [a] = false) (hs : s.sees (.kmakeV d a) = some c) (hv : c.low c.k0 a 0#5 = v) :
    exec (.kmakeV d a) s =
      if ((s.core c.w.core).seenFor c.r.res.entries v).kmakeOk c.w.core c.p.launch v then
        .next (s.issued c (c.r.setK d.toNat v))
      else .next (s.trapped c .setkind) := by
  subst hv
  split
  · next hok => exact exec_of_go (fun _ => rfl) hs (by simp [hd, ha, hok])
  · next hbad => exact exec_of_trap (fun _ => rfl) hs (by simp [hd, ha, hbad])

/-- Settles O19: the count and the rank are read off the members; what is made of lanes is a local value. -/
theorem setCountsAndMakingComplete : Obligations.SetCountsAndMakingComplete := by
  intro s s1 c m k d a b x ms
  constructor
  · intro hm ha gives members
    exact ⟨fun hr hs => ⟨exec_ofMembers_of_none hm ha hr hs (fun _ => rfl) rfl, fun h0 hres =>
        exec_ofMembers_of_members hm ha hr hs (fun _ => rfl) rfl h0 hres fun _ =>
          congrArg (BitVec.ofNat 64) ms.count_eq_length_listed⟩,
      fun hr hs => ⟨exec_ofMembers_of_none hm ha hr hs (fun _ => rfl) rfl, fun h0 hres =>
        exec_ofMembers_of_members hm ha hr hs (fun _ => rfl) rfl h0 hres fun _ => rfl⟩⟩
  · intro hd v
    refine ⟨fun ha hs => exec_kmakeV_of_ready hd ha hs rfl, fun ha hs => ?_, fun hs => ?_⟩
    · exact exec_of_go (fun _ => rfl) hs (if_neg (by simp [hd, ha]))
    · exact exec_of_go (fun _ => rfl) hs (if_neg (by simp [hd]))

/-! ### Sets in memory and set queues (R224 to R228) -/

section SetMemory

variable {s s1 s2 : State} {c : Ctx} {d a b x : BitVec 5} {p : Page} {va : Word}

/-- The address of `kld` and `kst`, from the lowest live lane of k0 (R224). -/
def Ctx.setAddress (c : Ctx) (a b x : BitVec 5) : Word :=
  c.low c.k0 a x + (match lowest c.k0 with | some j => c.offset b x 8 j | none => 0#64)

/-- `kld` whose address is located and whose sector has a request entry reads its value and awaits it (R224). -/
theorem exec_kld_of_ok (hd : c.busyK d.toNat = false) (hab : c.busy [a, b] = false) (hva : c.setAddress a b x = va)
    (hs : s.sees (.kld d a b x) = some c) (hloc : s.locate c va 8 .read = (.ok p, s1))
    (hreq : (s1.freshId c.w.core).2.takeReqs c.w.core (s1.freshId c.w.core).1 [p.phys va.toNat / 32] = some s2) :
    exec (.kld d a b x) s = .next ((s2.plainRead c.w.core (p.phys va.toNat) 8 false).2.issued c
      (c.r.await (s1.freshId c.w.core).1 (.set d.toNat)
        [(0, BitVec.ofNat 64 (bytesToNat (s2.plainRead c.w.core (p.phys va.toNat) 8 false).1))] 0#4)) := by
  refine exec_of_go (fun _ => rfl) hs ?_
  simp only [hd, hab, Bool.or_false, Bool.false_eq_true, if_false]
  generalize hv : c.low c.k0 a x + _ = v
  obtain rfl : va = v := hva.symm.trans hv
  rw [hloc]
  dsimp only
  rw [hreq]

/-- `kst` whose write is staged, of bytes that the launch owns, holds it for the commit (R224). -/
theorem exec_kst_of_ok {staged : List Held} (hd : c.busyK d.toNat = false) (hab : c.busy [a, b] = false)
    (hva : c.setAddress a b x = va) (hs : s.sees (.kst d a b x) = some c)
    (hloc : s.locate c va 8 .write = (.ok p, s1))
    (hw : (s1.freshId c.w.core).2.plainWrite c.w.core c.tenant (s1.freshId c.w.core).1 false p va.toNat
      (wordBytes (c.kval d.toNat)) [] = (.ok staged, s2)) (hown : c.l.ownBad va.toNat 8 = false) :
    exec (.kst d a b x) s = .next (s2.issued c { c.r with held := c.r.held ++ staged }) := by
  refine exec_of_go (fun _ => rfl) hs ?_
  simp only [hd, hab, Bool.or_false, Bool.false_eq_true, if_false]
  generalize hv : c.low c.k0 a x + _ = v
  obtain rfl : va = v := hva.symm.trans hv
  rw [hloc]
  dsimp only
  rw [hw]
  simp only [hown, Bool.false_eq_true, if_false]

end SetMemory

section Objects

variable {s s1 s2 : State} {c : Ctx} {d a b : BitVec 5} {obj : List Span} {need : Nat} {va : Word}
  (hva : c.low c.k0 a 0#5 = va) (hhigh : bitsOf va 63 57 = 0) (halign : va.toNat % 32 = 0)

include hva hhigh halign

/-- `kmerge` into an object that is found holds the merge of the members, or does nothing where there are none (R225). -/
theorem exec_kmerge_of_ok {ms : Members} (hd : c.busyK d.toNat = false) (ha : c.busy [a] = false)
    (hs : s.sees (.kmerge d a) = some c)
    (hobj : s.objSpans c.w.core c.tenant va .modify 8 (fun w => 8 * setCap w) setMost = (.ok (obj, need), s1))
    (hres : c.resolve s1 (c.kval d.toNat) .liveHere = (.members ms, s2)) :
    if ms = [] then exec (.kmerge d a) s = .next (s2.issued c c.r)
    else c.l.ownBad va.toNat need = false →
      exec (.kmerge d a) s = .next ((s2.freshId c.w.core).2.issued c
        (c.r.hold (.home (s2.freshId c.w.core).1 24#5 0#32 [.kmerge (c.lowThread c.k0) obj ms]))) := by
  subst hva
  split
  · next hnone =>
    refine exec_of_go (fun _ => rfl) hs ?_
    simp only [hd, ha, hhigh, halign, hobj, hres, hnone, Bool.or_false, bne_self_eq_false, Bool.false_eq_true, if_false,
      if_true]
  · next hsome =>
    intro hown
    refine exec_of_go (fun _ => rfl) hs ?_
    simp only [hd, ha, hhigh, halign, hobj, hres, hsome, hown, Bool.or_false, bne_self_eq_false, Bool.false_eq_true,
      if_false]

/-- A queue that is found, of bytes that the launch owns, is handed to the instruction that names it (R227, R228). -/
theorem Ctx.queue_of_ok
    (hobj : s.objSpans c.w.core c.tenant va .modify 16 (fun w => 8 * queueCap w) queueMost = (.ok (obj, need), s2))
    (hown : c.l.ownBad va.toNat need = false) (f : State → List Span → Issue) : c.queue s a f = f s2 obj := by
  subst hva
  simp only [Ctx.queue, hhigh, halign, hobj, hown, bne_self_eq_false, Bool.false_eq_true, if_false]

end Objects

section Freeing

variable {s : State} {c : Ctx} {d : BitVec 5} (hd : c.busyK d.toNat = false) (hs : s.sees (.kfree d) = some c) {v : Word}
  (hv : c.kval d.toNat = v)

include hd hs hv

/-- `kfree` of an empty value or of a local one does nothing (R226). -/
theorem exec_kfree_of_local (h : v = 0#64 ∨ (setKind v = 1 ∧ setWellFormed v = true)) :
    exec (.kfree d) s = .next (s.issued c c.r) := by
  subst hv
  have hkind : setKind (c.kval d.toNat) = 0 ∧ setWellFormed (c.kval d.toNat) = true ∨
      setKind (c.kval d.toNat) = 1 ∧ setWellFormed (c.kval d.toNat) = true :=
    h.imp_left fun h0 => by rw [h0]; decide
  refine exec_of_go (fun _ => rfl) hs ?_
  rcases hkind with ⟨hkind, hwf⟩ | ⟨hkind, hwf⟩ <;> simp [hd, hwf, hkind]

/-- `kfree` of a core value that names an entry of its launch, with no group, frees that entry at the commit (R226). -/
theorem exec_kfree_of_core (hkind : setKind v = 2) (hwf : setWellFormed v = true)
    (hok : ((s.core c.w.core).seenFor c.r.res.entries v).coreValueOk c.w.core c.p.launch v = true)
    (hgroup : (((s.core c.w.core).seenFor c.r.res.entries v).store[bitsOf v 7 0]?.bind (·.group)) = none) :
    exec (.kfree d) s = .next (s.issued c (c.r.stage (.freeEntry (bitsOf v 7 0) (v.extractLsb' 16 8)))) := by
  subst hv
  refine exec_of_go (fun _ => rfl) hs ?_
  simp only [hd, hwf, hkind, hok, hgroup, Bool.not_true, Option.isSome_none, Bool.or_false, Bool.false_eq_true, if_false]

/-- `kfree` of a memory value that names a used spill chunk of its launch frees that chunk at the commit (R226). -/
theorem exec_kfree_of_memory {j : Nat} (hkind : setKind v = 3) (hwf : setWellFormed v = true)
    (hchunk : ((s.usedChunks c.w.core c.l).find? fun j =>
      (chunkAddr c.l c.w.core j &&& 0x01FFFFFFFFFFFFE0#64) == (v &&& 0x01FFFFFFFFFFFFE0#64)) = some j) :
    exec (.kfree d) s = .next (s.issued c (c.r.stage (.freeChunk j))) := by
  subst hv
  refine exec_of_go (fun _ => rfl) hs ?_
  simp only [hd, hwf, hkind, hchunk, Bool.not_true, Bool.false_eq_true, if_false]

/-- `kfree` of a group value takes SETKIND (R226). -/
theorem exec_kfree_of_group (hkind : setKind v = 4) : exec (.kfree d) s = .next (s.trapped c .setkind) := by
  subst hv
  refine exec_of_trap (fun _ => rfl) hs ?_
  simp only [hd, hkind, Bool.false_eq_true, if_false, ite_self]

end Freeing

/-- Settles O20: reads, writes, merges, queues, then the kinds of values freed. -/
theorem setMemoryInstructionsComplete : Obligations.SetMemoryInstructionsComplete := by
  constructor
  · intro s s1 s2 c d a b x p hd hab va
    exact ⟨exec_kld_of_ok hd hab rfl, fun staged => exec_kst_of_ok hd hab rfl⟩
  · intro s s1 s2 c d a b obj need va id held
    constructor
    · intro hhigh halign
      refine ⟨fun ms hd ha hs => exec_kmerge_of_ok rfl hhigh halign hd ha hs,
        fun hobj had hown => ⟨fun hb hs => ?_, fun hs => ?_⟩⟩
      all_goals
        refine exec_of_go (fun _ => rfl) hs ((if_neg ?_).trans (Ctx.queue_of_ok rfl hhigh halign hobj hown _))
      · simp [hb, had]
      · simp [had]
    · intro hd hs v core
      exact ⟨exec_kfree_of_local hd hs rfl, exec_kfree_of_core hd hs rfl, fun j => exec_kfree_of_memory hd hs rfl,
        exec_kfree_of_group hd hs rfl⟩

/-! ### Groups (R229) -/

section Groups

variable {s : State} {c : Ctx} {m : Mask} {k : BitVec 3} {d a : BitVec 5} (hm : c.mask k = some m)
  (hk : c.busyK k.toNat = false)

include hm hk

/-- `gmake` of no lane makes the empty value (R229). -/
theorem exec_gmake_of_none (hd : c.busyK d.toNat = false) (hs : s.sees (.gmake k d) = some c) (h0 : m = 0#32) :
    exec (.gmake k d) s = .next (s.issued c (c.r.setK d.toNat 0#64)) := by
  refine exec_of_go (fun _ => rfl) hs ?_
  simp only [hk, hd, hm, h0, Bool.or_false, Bool.false_eq_true, if_false, if_true]

/-- `gmake` of live lanes reserves the lowest free entry and names the group to be made in it (R229). -/
theorem exec_gmake_of_free (hd : c.busyK d.toNat = false) (hs : s.sees (.gmake k d) = some c) (h0 : m ≠ 0#32) {e : Nat}
    {x : SetEntry} (he : (s.core c.w.core).freeEntry = some e) (hx : (s.core c.w.core).store[e]? = some x) :
    let r := (c.r.setK d.toNat (groupValue (groupId c.w.core e x.gen))).stage (.group e m)
    exec (.gmake k d) s = .next (s.issued c { r with res := { r.res with entries := r.res.entries ++ [e] } }) := by
  refine exec_of_go (fun _ => rfl) hs ?_
  simp only [hk, hd, hm, h0, he, hx, Bool.or_false, Bool.false_eq_true, if_false]

/-- A change of the members of a live group is staged for the commit; with no live lane there is none (R218, R229). -/
theorem Ctx.changeGroup_of_ready (ha : c.busyK a.toNat = false) {f : BitVec 24 → Mask → SetEff} :
    (m = 0#32 → c.changeGroup s k a f = .go s c.r) ∧
    ∀ g, m ≠ 0#32 → c.groupOf s a = some g → c.changeGroup s k a f = .go s (c.r.stage (f g m)) := by
  constructor
  · intro h0
    simp only [Ctx.changeGroup, hk, ha, hm, h0, Bool.or_false, Bool.false_eq_true, if_false, if_true]
  · intro g h0 hg
    simp only [Ctx.changeGroup, hk, ha, hm, h0, hg, Bool.or_false, Bool.false_eq_true, if_false]

/-- So is the change that an instruction makes by it. -/
theorem exec_of_changeGroup (ha : c.busyK a.toNat = false) {i : Instr} {F : State → Ctx → Issue}
    {f : BitVec 24 → Mask → SetEff} {g : BitVec 24} (hexec : ∀ s, exec i s = s.issue i F)
    (h : F s c = c.changeGroup s k a f) (hs : s.sees i = some c) :
    (m = 0#32 → exec i s = .next (s.issued c c.r)) ∧
    (m ≠ 0#32 → c.groupOf s a = some g → exec i s = .next (s.issued c (c.r.stage (f g m)))) := by
  obtain ⟨hnone, hsome⟩ := Ctx.changeGroup_of_ready hm hk ha (s := s) (f := f)
  exact ⟨fun h0 => exec_of_go hexec hs (h.trans (hnone h0)), fun h0 hg => exec_of_go hexec hs (h.trans (hsome g h0 hg))⟩

end Groups

/-- Settles O21, instruction by instruction. -/
theorem groupInstructionsComplete : Obligations.GroupInstructionsComplete := by
  intro s c m k d a g
  refine ⟨fun hm hk hd hs => ⟨exec_gmake_of_none hm hk hd hs, fun h0 e x => exec_gmake_of_free hm hk hd hs h0⟩,
    fun hm hk ha => ⟨exec_of_changeGroup hm hk ha (fun _ => rfl) rfl, exec_of_changeGroup hm hk ha (fun _ => rfl) rfl⟩,
    fun ha hg hs => exec_of_go (fun _ => rfl) hs ?_⟩
  simp only [ha, hg, Bool.false_eq_true, if_false]

/-! ### Applies (R231, R232, R237) -/

section Applies

variable {s s1 : State} {c : Ctx} {k : BitVec 3} {off : BitVec 18} {repack : Bool} {g0 g1 : Nat} {ms : Members}
  (hk : c.busyK k.toNat = false)
  (hown : (repack && match c.own.kind with | .apply _ _ => true | _ => false) = false)
  (hres : c.resolve s (c.kval k.toNat) .onCore = (.members ms, s1))

include hk hown hres

/-- An apply of no live member on the core only moves to its continuation (R232). -/
theorem Ctx.apply_of_none (hnone : ms.here (s1.core c.w.core) c.w.core c.p.launch = []) :
    c.apply s k off repack g0 g1 = .go s1 { c.r with xfer := .goto (c.r.packet + (off.signExtend 64 <<< 4)) } := by
  refine (if_neg (Bool.eq_false_iff.mp hk)).trans ((if_neg (Bool.eq_false_iff.mp hown)).trans ?_)
  simp only [hres, hnone, if_true]

/-- An apply with members of this warp, which clashes with no session, stages its block; as the fifth that is open it takes
SETOVF (R231, R232). -/
theorem Ctx.apply_of_members {here : Members} (hhere : ms.here (s1.core c.w.core) c.w.core c.p.launch = here)
    (hsome : here ≠ []) (hlanes : here.lanesIn c.w.core c.w.slot ≠ 0#32)
    (hslot : setKind (c.kval k.toNat) = 1 → bitsOf (c.kval k.toNat) 37 32 = c.w.slot)
    (hclash : (s1.core c.w.core).sessionClash c.p.launch (c.kval k.toNat) repack g0 g1 c.r.fall = false) :
    c.apply s k off repack g0 g1 = if c.p.applies.length < 4
      then .go s1 { c.r with
        xfer := .apply (c.kval k.toNat) repack g0 g1 c.r.fall (c.r.packet + (off.signExtend 64 <<< 4)) here }
      else .trap s1 (c.trap .setovf) := by
  have hlocal : (setKind (c.kval k.toNat) == 1 && bitsOf (c.kval k.toNat) 37 32 != c.w.slot) = false := by
    simpa using hslot
  refine (if_neg (Bool.eq_false_iff.mp hk)).trans ((if_neg (Bool.eq_false_iff.mp hown)).trans ?_)
  simp only [hres, hhere, hsome, beq_false_of_ne hlanes, hlocal, hclash, Bool.or_false, Bool.false_eq_true, if_false,
    ← not_lt, ite_not]

/-- Both forms of apply, by the members found (R232). -/
theorem exec_of_apply {i : Instr} {F : State → Ctx → Issue} (hexec : ∀ s, exec i s = s.issue i F) (hs : s.sees i = some c)
    (h : F s c = c.apply s k off repack g0 g1) :
    let cont := c.r.packet + (off.signExtend 64 <<< 4)
    let v := c.kval k.toNat
    let here := ms.here (s1.core c.w.core) c.w.core c.p.launch
    (here = [] → exec i s = .next (s1.issued c { c.r with xfer := .goto cont })) ∧
    (here ≠ [] → here.lanesIn c.w.core c.w.slot ≠ 0#32 → (setKind v = 1 → bitsOf v 37 32 = c.w.slot) →
      (s1.core c.w.core).sessionClash c.p.launch v repack g0 g1 c.r.fall = false →
      exec i s = .next (if c.p.applies.length < 4
        then s1.issued c { c.r with xfer := .apply v repack g0 g1 c.r.fall cont here }
        else s1.trapped c .setovf)) := by
  refine ⟨fun hnone => exec_of_go hexec hs (h.trans (Ctx.apply_of_none hk hown hres hnone)),
    fun hsome hlanes hslot hclash => ?_⟩
  have happly := h.trans (Ctx.apply_of_members (off := off) hk hown hres rfl hsome hlanes hslot hclash)
  split
  · next hroom => exact exec_of_go hexec hs (happly.trans (if_pos hroom))
  · next hfull => exact exec_of_trap hexec hs (happly.trans (if_neg hfull))

end Applies

/-- Settles O22: the two forms of apply, then `enda` inside a block and outside one. -/
theorem appliesComplete : Obligations.AppliesComplete := by
  intro s s1 c k off b0 b1 ms cont v inApply applies
  refine ⟨fun hk hown hs hres => exec_of_apply hk hown hres (fun _ => rfl) hs rfl,
    fun hk hown hs hres => exec_of_apply hk hown hres (fun _ => rfl) hs rfl,
    fun hs => ⟨fun hin => ?_, fun hnone hkind => ?_⟩⟩
  · refine exec_of_go (fun _ => rfl) hs ?_
    rcases hin with hopen | ⟨n, src, hkind⟩
    · simp only [hopen, decide_false, Bool.false_and, Bool.false_eq_true, if_false]
    · simp only [hkind, Bool.not_true, Bool.and_false, Bool.false_eq_true, if_false]
  · refine exec_of_trap (fun _ => rfl) hs ?_
    cases h : c.p.kind with
    | apply n src => exact absurd h (hkind n src)
    | _ => simp [hnone]

end Sys2Proof.Machine

/-! PROOFS. Copy and matrix commands (O35 to O37): tag waits and the first ready tag, copies that pass their checks, and the
tile commands held for the commit or received at issue. -/

namespace Sys2Proof.Machine

/-! ### Tag waits (R244, R245) -/

/-- A search of the numbers below a bound finds the least that passes, or finds none where none passes. -/
theorem find?_range_spec (n : Nat) (p : Nat → Bool) :
    (∃ t, (List.range n).find? p = some t ∧ (t < n ∧ p t = true) ∧ ∀ u, u < t → ¬(u < n ∧ p u = true)) ∨
      ((List.range n).find? p = none ∧ ∀ t, ¬(t < n ∧ p t = true)) := by
  cases h : (List.range n).find? p with
  | some t =>
    obtain ⟨hp, hlt, hleast⟩ := List.find?_range_eq_some.mp h
    refine .inl ⟨t, rfl, ⟨List.mem_range.mp hlt, hp⟩, fun u hu ⟨_, hpu⟩ => ?_⟩
    simpa [hpu] using hleast u hu
  | none =>
    refine .inr ⟨rfl, fun t ⟨ht, hpt⟩ => ?_⟩
    simpa [hpt] using List.find?_range_eq_none.mp h t ht

section Tags

variable {s : State} {c : Ctx}

/-- An instruction that waits for tags elsewhere than at the first position goes on where it need not wait (R244). -/
theorem exec_of_tagWait {i : Instr} {F : State → Ctx → Issue} {waits : Bool} (hexec : ∀ s, exec i s = s.issue i F)
    (hF : F s c = if c.r.pos != 1 && waits then .stall else .go s c.r) (hs : s.sees i = some c)
    (h : c.r.pos = 1 ∨ waits = false) : exec i s = .next (s.issued c c.r) := by
  refine exec_of_go hexec hs (hF.trans (if_neg ?_))
  rcases h with hpos | hready
  · simp [hpos]
  · simp [hready]

/-- `tffr` writes the number of the least named tag that is not busy, or all ones (R245). -/
theorem exec_tffr_of_ready {m : Mask} {k : BitVec 3} {d a : BitVec 5} (hm : c.mask k = some m) (hr : c.ready k [d, a])
    (hs : s.sees (.tffr k d a) = some c) :
    exec (.tffr k d a) s = .next (s.issued c (c.r.write d m fun _ =>
      match (List.range 64).find? fun t =>
        (c.low m a 0#5).getLsbD t && !(s.core c.w.core).tagBusy c.p.launch t with
      | some t => BitVec.ofNat 64 t
      | none => BitVec.allOnes 64)) := by
  obtain ⟨hk, hda⟩ := hr
  refine exec_of_go (fun _ => rfl) hs ?_
  simp only [hk, hda, hm, Bool.or_false, Bool.false_eq_true, if_false]
  rfl

end Tags

/-- Settles O35: the two waits, then the least ready tag. -/
theorem tagInstructionsComplete : Obligations.TagInstructionsComplete := by
  intro s c m k d a g mask busy
  refine ⟨exec_of_tagWait (fun _ => rfl) rfl, exec_of_tagWait (fun _ => rfl) rfl, fun hm hr hs => ?_⟩
  refine ⟨_, exec_tffr_of_ready hm hr hs, ?_⟩
  have hspec := find?_range_spec 64 fun t => (c.low m a 0#5).getLsbD t && !busy t
  simp only [Bool.and_eq_true, Bool.not_eq_true'] at hspec
  rcases hspec with ⟨t, hfind, hwanted, hleast⟩ | ⟨hfind, hnone⟩
  · exact .inl ⟨t, hwanted, hleast, by rw [hfind]⟩
  · exact .inr ⟨hnone, by rw [hfind]⟩

/-! ### Engine commands at issue (R239) -/

/-- A copy is sent where its tag is neither busy nor reserved and no other warp has waited longer (R243). -/
theorem Ctx.sendCopy_of_free {s : State} {c : Ctx} {x : Copy}
    (hbusy : (s.core c.w.core).tagBusy c.p.launch x.tag = false)
    (hreserved : (s.core c.w.core).tagReserved c.p.launch x.tag = false)
    (hfirst : (s.core c.w.core).grantedFirst c.w.slot c.w.hnd c.p = false) :
    c.sendCopy s x = .go s { c.r.hold (.engine (.copy x)) with
      res := { c.r.res with tags := c.r.res.tags ++ [x.tag] } } := by
  unfold Ctx.sendCopy
  simp only [hbusy, hreserved, hfirst, Bool.or_false, Bool.false_eq_true, if_false]
  rfl

section Engine

variable {s u : State} {c : Ctx} {i : Instr} {F : State → Ctx → Issue} {uses : List (BitVec 5)} {x : Issue}
  (hexec : ∀ s, exec i s = s.issue i F) (hF : F s c = c.engine s 0#3 uses x) (hs : s.sees i = some c)
  (hb : c.busy uses = false)

include hexec hF hs hb

/-- An engine command whose operands have arrived is issued where it passes its checks (R239). -/
theorem exec_of_engine {r : Run} (h : x = .go u r) : exec i s = .next (u.issued c r) :=
  exec_of_go hexec hs (hF.trans ((Ctx.engine_of_ready hb s x).trans h))

/-- So is a copy that is sent, with its tag free (R243). -/
theorem exec_of_sendCopy {cp : Copy} (h : x = c.sendCopy u cp)
    (hbusy : (u.core c.w.core).tagBusy c.p.launch cp.tag = false)
    (hreserved : (u.core c.w.core).tagReserved c.p.launch cp.tag = false)
    (hfirst : (u.core c.w.core).grantedFirst c.w.slot c.w.hnd c.p = false) :
    exec i s = .next (u.issued c { c.r.hold (.engine (.copy cp)) with
      res := { c.r.res with tags := c.r.res.tags ++ [cp.tag] } }) :=
  exec_of_engine hexec hF hs hb (h.trans (Ctx.sendCopy_of_free hbusy hreserved hfirst))

end Engine

/-! ### Copies (R246 to R250) -/

section Copies

variable {s s1 : State} {c : Ctx} {d a b : BitVec 5} {t : BitVec 6} {dir : Nat} {mcast : Option (List Nat)} {x cp' : Copy}
  (hx : c.copyOf d a b t dir mcast = x) (hzero : bitsOf (c.slot b) 63 49 = 0) (hrm : rmOk x.rm = true)

include hx hzero hrm

/-- A copy of no rows or no elements is sent as one of none (R247). -/
theorem Ctx.copy_of_empty (hempty : x.rows = 0 ∨ x.cnt = 0) :
    c.copy s d a b t dir mcast = c.sendCopy s { x with rows := 0, cnt := 0 } := by
  subst hx
  exact (if_neg (by simp [hzero, hrm])).trans (if_pos (by simpa using hempty))

variable {ne ng : Nat} (hne : bitsOf (c.slot b) 43 40 = ne) (hng : bitsOf (c.slot b) 44 44 = ng) (hrows : x.rows ≠ 0)
  (hcnt : x.cnt ≠ 0) (hblocks : ng = 1 → 5 ≤ ne ∧ ne ≤ 8)

include hne hng hrows hcnt hblocks

/-- A copy of elements whose descriptor's fields pass is sent once what remains of its checks passes: between near regions,
with no format and no conversion, those of both sides; else those of its global side (R248, R249). -/
theorem Ctx.copy_of_fields :
    (dir = 2 → ne = 0 → ng = 0 → x.rm = 0#3 → x.ftz = false → c.checkMove { x with near := [0] } = .ok cp' →
      c.copy s d a b t dir mcast = c.sendCopy s cp') ∧
    (dir ≠ 2 → (dir = 1 → ne = 0 → ng = 0 → c.tagsUnreadable x = false) →
      s.checkCopy c x (s.nearFormat c x ne ng) = (.ok cp', s1) →
      c.copy s d a b t dir mcast = c.sendCopy s1 cp') := by
  subst hx hne hng
  have hfields : ¬(bitsOf (c.slot b) 63 49 != 0 || !rmOk (c.copyOf d a b t dir mcast).rm) = true := by
    simp [hzero, hrm]
  have hsome : ¬((c.copyOf d a b t dir mcast).rows = 0 || (c.copyOf d a b t dir mcast).cnt = 0) = true := by
    simp [hrows, hcnt]
  have hformat : ¬(bitsOf (c.slot b) 44 44 == 1 &&
      !(5 ≤ bitsOf (c.slot b) 43 40 && bitsOf (c.slot b) 43 40 ≤ 8)) = true := by
    simpa using hblocks
  constructor
  · intro hdir hne hng hrm0 hftz hcheck
    refine (if_neg hfields).trans ((if_neg hsome).trans ((if_neg hformat).trans
      ((if_pos hdir).trans ((if_neg (by simp [hne, hng, hrm0, hftz])).trans ?_))))
    rw [hcheck]
  · intro hdir htags hcheck
    refine (if_neg hfields).trans ((if_neg hsome).trans ((if_neg hformat).trans
      ((if_neg hdir).trans ((if_neg (by simpa using htags)).trans ?_))))
    rw [hcheck]

end Copies

/-- Settles O36: both copy instructions, by what the descriptor asks for. -/
theorem copiesComplete : Obligations.CopiesComplete := by
  intro s s1 c k d a b t cp' w0 ne ng sent copies
  have hcopies {i : Instr} {F : State → Ctx → Issue} {dir : Nat} {mcast : Option (List Nat)}
      (hexec : ∀ s, exec i s = s.issue i F)
      (hF : F s c = c.engine s k [d, a, b, b + 1#5] (c.copy s d a b t dir mcast)) : copies i dir mcast := by
    rintro hs rfl hbusy hzero hrm
    refine ⟨fun hempty => exec_of_sendCopy hexec hF hs hbusy (Ctx.copy_of_empty rfl hzero hrm hempty),
      fun hrows hcnt hblocks => ?_⟩
    obtain ⟨hmove, hglobal⟩ :=
      Ctx.copy_of_fields (s := s) (s1 := s1) (cp' := cp') rfl hzero hrm rfl rfl hrows hcnt hblocks
    exact ⟨fun hdir hne hng hrm0 hftz hcheck =>
        exec_of_sendCopy hexec hF hs hbusy (hmove hdir hne hng hrm0 hftz hcheck),
      fun hdir htags hcheck => exec_of_sendCopy hexec hF hs hbusy (hglobal hdir htags hcheck)⟩
  exact ⟨fun dir => hcopies (fun _ => rfl) rfl, fun pmask => hcopies (fun _ => rfl) rfl⟩

/-! ### Matrix commands (R254 to R263) -/

/-- A row base that is a multiple of four and at most 60 passes (R262). -/
theorem rowBaseBad_of_ok {v : Word} (h4 : v.toNat % 4 = 0) (h60 : v.toNat ≤ 60) : rowBaseBad v = false := by
  simp [rowBaseBad, h4, h60]

section Tiles

variable {s : State} {c : Ctx} {d a : BitVec 5} {t : BitVec 4} (ht : t.toNat < c.l.card.tc)

include ht

theorem Ctx.tileBad_of_lt : c.tileBad t = false :=
  decide_eq_false (Nat.not_le.mpr ht)

/-- A matrix loop whose descriptor passes is held, and its tile becomes live (R256 to R258). -/
theorem exec_mloop_of_ok {zs ftz mx : BitVec 1} {fmt : BitVec 3} {m : Mloop}
    (hs : s.sees (.mloop 0#3 d t zs ftz mx fmt) = some c)
    (hb : c.busy [d, d + 1#5, d + 2#5, d + 3#5] = false)
    (hm : m =
      { fmt := fmt.toNat, mx := mx == 1#1, zs := zs == 1#1, ftz := ftz == 1#1, t := t.toNat,
        d0 := c.slot d, d1 := c.slot (d + 1#5), d2 := c.slot (d + 2#5), d3 := c.slot (d + 3#5) })
    (hok : m.bad c = none) :
    exec (.mloop 0#3 d t zs ftz mx fmt) s =
      .next (s.issued c ((c.r.hold (.engine (.mloop m))).stage (.tile t.toNat true))) := by
  subst hm
  refine exec_of_engine (fun _ => rfl) rfl hs hb ?_
  dsimp only
  rw [hok]
  exact if_neg (by simp [Ctx.tileBad_of_lt ht])

/-- A zeroing is held, and its tile becomes live (R261). -/
theorem exec_mzero_of_ok (hs : s.sees (.mzero 0#3 t) = some c) : exec (.mzero 0#3 t) s =
    .next (s.issued c ((c.r.hold (.engine (.mzero t.toNat))).stage (.tile t.toNat true))) :=
  exec_of_engine (fun _ => rfl) rfl hs rfl (if_neg (by simp [Ctx.tileBad_of_lt ht]))

/-- A read of a tile to near memory that the launch may write is held; where it says so, the tile is no longer live
(R262, R263). -/
theorem exec_mrdN_of_ok {bf e : BitVec 1} (hs : s.sees (.mrdN 0#3 d t bf e) = some c) (hb : c.busy [d] = false)
    (hnear : c.l.nearOk c.w.core (c.slot d) (if bf = 1#1 then 8192 else 16384) = true) :
    exec (.mrdN 0#3 d t bf e) s = .next (s.issued c
      (if e = 1#1 then (c.r.hold (.engine (.mrdN t.toNat (c.slot d).toNat (bf == 1#1)))).stage (.tile t.toNat false)
        else c.r.hold (.engine (.mrdN t.toNat (c.slot d).toNat (bf == 1#1))))) :=
  exec_of_engine (fun _ => rfl) rfl hs hb
    ((if_neg (by simp [Ctx.tileBad_of_lt ht])).trans (if_neg (by simp [hnear])))

/-- A write of a tile from near memory that the launch may read is held, and the tile becomes live (R262, R263). -/
theorem exec_mwrN_of_ok (hs : s.sees (.mwrN 0#3 d t) = some c) (hb : c.busy [d] = false)
    (hnear : c.l.nearOk c.w.core (c.slot d) 16384 = true) : exec (.mwrN 0#3 d t) s = .next (s.issued c
      ((c.r.hold (.engine (.mwrN t.toNat (c.slot d).toNat))).stage (.tile t.toNat true))) :=
  exec_of_engine (fun _ => rfl) rfl hs hb
    ((if_neg (by simp [Ctx.tileBad_of_lt ht])).trans (if_neg (by simp [hnear])))

variable (hb : c.busy [a, d, d + 1#5, d + 2#5, d + 3#5] = false) (h4 : (c.slot a).toNat % 4 = 0)
  (h60 : (c.slot a).toNat ≤ 60)

include hb h4 h60

/-- A write of rows of a tile from the window reads its slots at issue and is held, and the tile becomes live
(R262, R263). -/
theorem exec_mwrW_of_ok (hs : s.sees (.mwrW 0#3 d a t) = some c) : exec (.mwrW 0#3 d a t) s = .next (s.issued c
    ((c.r.hold (.engine (.mwrW t.toNat (c.slot a).toNat c.k0 (c.k0.toList.flatMap fun j =>
      (List.range 4).map fun q => (4 * j + q, c.src (d + BitVec.ofNat 5 q) 0#5 j))))).stage (.tile t.toNat true))) :=
  exec_of_engine (fun _ => rfl) rfl hs hb (if_neg (by simp [rowBaseBad_of_ok h4 h60, Ctx.tileBad_of_lt ht]))

/-- A read of rows of a tile to the window that need not wait takes the elements at issue and awaits its registers; where it
says so, the tile is no longer live (R262, R263). -/
theorem exec_mrdW_of_ok {e : BitVec 1} {la : BitVec 4} (hs : s.sees (.mrdW 0#3 d a t e la) = some c)
    (hwait : (s.core c.w.core).mustWait [] [(c.l.tile c.w.core t.toNat, false)] = false)
    (hfull : (s.core c.w.core).boardFull = false) :
    let el (j q x : Nat) : BitVec 32 := Tab.get 0#32 (s.core c.w.core).tiles
      (tileKey (c.l.tile c.w.core t.toNat) (c.slot a).toNat j q x)
    let r := c.r.await (s.freshId c.w.core).1 (.win d 4)
      (c.k0.toList.flatMap fun j => (List.range 4).map fun q => (32 * q + j, el j q 1 ++ el j q 0)) la
    exec (.mrdW 0#3 d a t e la) s = .next ((s.freshId c.w.core).2.issued c
      (if e = 1#1 then r.stage (.tile t.toNat false) else r)) :=
  exec_of_engine (fun _ => rfl) rfl hs hb
    ((if_neg (by simp [rowBaseBad_of_ok h4 h60, Ctx.tileBad_of_lt ht])).trans (if_neg (by simp [hwait, hfull])))

end Tiles

/-- Settles O37, command by command. -/
theorem matrixCommandsComplete : Obligations.MatrixCommandsComplete := by
  rintro s c k d a t rfl ht held quad row
  refine ⟨fun zs ftz mx fmt hs hb hok => exec_mloop_of_ok ht hs hb rfl hok, exec_mzero_of_ok ht,
    fun bf e hs hb hnear => ?_, exec_mwrN_of_ok ht,
    fun hb h4 h60 => ⟨exec_mwrW_of_ok ht hb h4 h60, fun e la hs => exec_mrdW_of_ok ht hb h4 h60 hs⟩⟩
  have hread := exec_mrdN_of_ok ht hs hb hnear
  dsimp only [held]
  split_ifs at hread ⊢ <;> exact hread

end Sys2Proof.Machine

/-! PROOFS. The learning-automaton array (O38): the versions of the cells that a reader sees, commands held for the commit, and
the window forms that read at issue. -/

namespace Sys2Proof.Machine

/-! ### Versions that a reader sees (R278) -/

/-- The cells as they are can always be seen. -/
theorem Automaton.versions_ne_nil (a : Automaton) (id : Nat) (after : Bool) : a.versions id after ≠ [] := by
  unfold Automaton.versions
  split <;> simp

theorem State.length_drawUpTo (s : State) (m n : Nat) : (s.drawUpTo m n).1.length = n := by
  induction n generalizing s with
  | zero => rfl
  | succ n ih => exact congrArg (· + 1) (ih (s.drawNat (m + 1)).2)

/-- A draw of numbers makes free choices and no other change. -/
theorem State.drawUpTo_snd (s : State) (m n : Nat) :
    (s.drawUpTo m n).2 = { s with oracle := (s.drawUpTo m n).2.oracle } := by
  induction n generalizing s with
  | zero => rfl
  | succ n ih => exact ih (s.drawNat (m + 1)).2

/-- Free choices made after free choices are free choices. -/
theorem State.eq_with_oracle_trans {s t u : State} (ht : t = { s with oracle := t.oracle })
    (hu : u = { t with oracle := u.oracle }) : u = { s with oracle := u.oracle } :=
  hu.trans (by rw [ht])

theorem State.drawSwitches_snd (s : State) (versions m n : Nat) :
    (s.drawSwitches versions m n).2 = { s with oracle := (s.drawSwitches versions m n).2.oracle } := by
  induction n generalizing s with
  | zero => rfl
  | succ n ih => exact State.eq_with_oracle_trans (s.drawUpTo_snd m (versions - 1)) (ih (s.drawUpTo m (versions - 1)).2)

/-- Each row has one switch to each version but the oldest. -/
theorem State.length_of_mem_drawSwitches {versions m n : Nat} {s : State} {x : List Nat}
    (hx : x ∈ (s.drawSwitches versions m n).1) : x.length = versions - 1 := by
  induction n generalizing s with
  | zero => cases hx
  | succ n ih =>
    rcases List.mem_cons.mp hx with rfl | hrest
    · exact s.length_drawUpTo m (versions - 1)
    · exact ih hrest

/-- With fewer switches in each row than versions, every row is seen in one of the versions. -/
theorem versionAt_mem {vs : List (Tab Byte)} {switches : List (List Nat)} (hvs : vs ≠ [])
    (hsw : ∀ x ∈ switches, x.length = vs.length - 1) (r j : Nat) : versionAt vs switches r j ∈ vs := by
  have hpos : 0 < vs.length := List.length_pos_of_ne_nil hvs
  have hrow : (switches.getD r []).length < vs.length := by
    rcases Nat.lt_or_ge r switches.length with h | h
    · have hlength := hsw _ (List.getElem_mem h)
      rw [List.getD_eq_getElem _ _ h]
      omega
    · rwa [List.getD_eq_default _ _ h]
  have hlt := (List.length_filter_le (fun t => t ≤ j) (switches.getD r [])).trans_lt hrow
  unfold versionAt
  rw [List.getD_eq_getElem _ _ hlt]
  exact List.getElem_mem hlt

/-- A reader sees every row, for every vector, in one of its versions (R278 rule 4). -/
theorem Automaton.versionAt_drawSwitches_mem (a : Automaton) (id : Nat) (after : Bool) (s : State) (m n r j : Nat) :
    versionAt (a.versions id after) (s.drawSwitches (a.versions id after).length m n).1 r j ∈ a.versions id after :=
  versionAt_mem (a.versions_ne_nil id after) (fun _ hx => State.length_of_mem_drawSwitches hx) r j

/-! ### Near operands (R280) -/

/-- A near operand on the issuing core, in the launch's region and aligned, passes. -/
theorem Ctx.ownNear_of_ok {c : Ctx} {a : Word} {n align : Nat}
    (h : c.l.nearOk c.w.core a n = true ∧ nearCore c.w.core a = c.w.core ∧ nearOff a % align = 0) (write : Bool) :
    c.ownNear a n align write = none := by
  obtain ⟨hok, hcore, halign⟩ := h
  simp [Ctx.ownNear, hok, hcore, halign]

/-- A command whose near operands pass is held. -/
theorem Ctx.sendIf_of_none {c : Ctx} {s : State} {bad : Option Trap} {x : Cmd} (h : bad = none) :
    c.sendIf s bad x = .go s (c.r.hold (.engine x)) := by
  rw [h]
  rfl

/-- Rows of the array pass (R284). -/
theorem rowsBad_of_le {a n : Word} (ha : a.toNat ≤ 255) (hn : a.toNat + n.toNat ≤ 256) : rowsBad a n = false := by
  simp [rowsBad, ha, hn]

/-- One row of the array passes. -/
theorem rowsBad_one {a : Word} (ha : a.toNat ≤ 255) : rowsBad a 1#64 = false :=
  rowsBad_of_le ha (Nat.succ_le_succ ha)

theorem State.SamePlaces.nearNat {s t : State} (h : s.SamePlaces t) (l : Launch) (core off n : Nat) :
    t.nearNat l core off n = s.nearNat l core off n := by
  simp only [State.nearNat, State.nearBytes_eq_map, h.nearByte]

/-- A fresh identifier and free choices leave near memory as it is. -/
theorem State.samePlaces_of_freshId {s u : State} {core : Nat}
    (hu : u = { (s.freshId core).2 with oracle := u.oracle }) : s.SamePlaces u := by
  rw [hu]
  exact (s.samePlaces_modCore core (f := fun k => { k with nextId := k.nextId + 1 }) fun _ => rfl).trans
    ⟨rfl, fun _ => rfl, rfl⟩

/-! ### Commands at issue (R279 to R284) -/

section Array

variable {s u : State} {c : Ctx} (hholder : (s.core c.w.core).auto.holder = some c.p.launch)

include hholder

/-- An automaton command of the launch that holds the array, whose operands have arrived, is issued where it passes its
checks. -/
theorem exec_of_array {i : Instr} {F : State → Ctx → Issue} {uses : List (BitVec 5)} {x : Issue} {r : Run}
    (hexec : ∀ s, exec i s = s.issue i F) (hF : F s c = c.array s 0#3 uses x) (hs : s.sees i = some c)
    (hb : c.busy uses = false) (h : x = .go u r) : exec i s = .next (u.issued c r) :=
  exec_of_engine hexec hF hs hb ((if_neg (by simp [hholder])).trans h)

/-- Where the launch's near operands and the command's numbers pass their checks, the command is held (R280). -/
theorem exec_of_sendIf {i : Instr} {F : State → Ctx → Issue} {uses : List (BitVec 5)} {refused : Prop}
    [Decidable refused] {trap : Issue} {bad : Option Trap} {x : Cmd} (hexec : ∀ s, exec i s = s.issue i F)
    (hF : F s c = c.array s 0#3 uses (if refused then trap else c.sendIf s bad x)) (hs : s.sees i = some c)
    (hb : c.busy uses = false) (hrefused : ¬refused) (hbad : bad = none) :
    exec i s = .next (s.issued c (c.r.hold (.engine x))) :=
  exec_of_array hholder hexec hF hs hb ((if_neg hrefused).trans (Ctx.sendIf_of_none hbad))

end Array

/-! ### Window readers (R278, R282, R284) -/

section WindowReaders

variable {s : State} {c : Ctx} {d a : BitVec 5} {f : BitVec 1} {la : BitVec 4}
  (hholder : (s.core c.w.core).auto.holder = some c.p.launch)
  (hb : c.busy [a, d, d + 1#5, d + 2#5, d + 3#5] = false)

include hholder hb

/-- A window read of a row awaits the bytes of a version of the row, received at issue. -/
theorem exec_lardW_of_ok (hs : s.sees (.lardW 0#3 d a f la) = some c) (hrow : (c.slot a).toNat ≤ 255)
    (hstall : c.readerStalls s [] f = false) :
    let au := (s.core c.w.core).auto
    ∃ u : State, ∃ cells ∈ au.versions (s.freshId c.w.core).1 (f == 1#1),
      exec (.lardW 0#3 d a f la) s = .next (u.issued c (c.r.await (s.freshId c.w.core).1 (.win d 4)
        (c.k0.toList.flatMap fun j => (List.range 4).map fun q =>
          (32 * q + j, BitVec.ofNat 64 (bytesToNat ((List.range 8).map fun i =>
            Tab.get au.fill cells (1024 * (c.slot a).toNat + 32 * j + 8 * q + i))))) la)) ∧
        u = { (s.freshId c.w.core).2 with oracle := u.oracle } := by
  intro au
  have hu := (s.freshId c.w.core).2.drawSwitches_snd (au.versions (s.freshId c.w.core).1 (f == 1#1)).length 1 256
  refine ⟨_, _, Automaton.versionAt_drawSwitches_mem _ _ _ (s.freshId c.w.core).2 1 256 (c.slot a).toNat 0, ?_, hu⟩
  refine exec_of_array hholder (fun _ => rfl) rfl hs hb ?_
  rw [if_neg (by simp [rowsBad_one hrow]), if_neg (by simp [hstall])]

/-- A window inference awaits the votes that its vector gives with each row in a version of it, received at issue. -/
theorem exec_lainfW_of_ok (hs : s.sees (.lainfW 0#3 d a f la) = some c)
    (hnear : c.l.nearOk c.w.core (c.slot a) 64 = true ∧ nearCore c.w.core (c.slot a) = c.w.core ∧
      nearOff (c.slot a) % 32 = 0)
    (hstall : c.readerStalls s (c.l.range c.w.core (nearOff (c.slot a)) 64 false) f = false) :
    let au := (s.core c.w.core).auto
    ∃ u : State, ∃ cells : Nat → Tab Byte, (∀ r, cells r ∈ au.versions (s.freshId c.w.core).1 (f == 1#1)) ∧
      let votes := au.votes cells (s.nearNat c.l c.w.core (nearOff (c.slot a)) 64)
      let slot (q : Nat) : Word :=
        votes.getD (4 * q + 3) 0#16 ++ votes.getD (4 * q + 2) 0#16 ++ votes.getD (4 * q + 1) 0#16
          ++ votes.getD (4 * q) 0#16
      exec (.lainfW 0#3 d a f la) s = .next (u.issued c (c.r.await (s.freshId c.w.core).1 (.win d 4)
        (c.k0.toList.flatMap fun j => (List.range 4).map fun q => (32 * q + j, slot q)) la)) ∧
        u = { (s.freshId c.w.core).2 with oracle := u.oracle } := by
  intro au
  have hu := (s.freshId c.w.core).2.drawSwitches_snd (au.versions (s.freshId c.w.core).1 (f == 1#1)).length 1 256
  refine ⟨_, fun r => versionAt _ _ r 0, fun r =>
    Automaton.versionAt_drawSwitches_mem _ _ _ (s.freshId c.w.core).2 1 256 r 0, ?_, hu⟩
  rw [← (State.samePlaces_of_freshId hu).nearNat c.l c.w.core (nearOff (c.slot a)) 64]
  refine exec_of_array hholder (fun _ => rfl) rfl hs hb ?_
  rw [Ctx.ownNear_of_ok hnear]
  dsimp only
  rw [if_neg (by simp [hstall])]

end WindowReaders

/-- Settles O38: the commands that are held, then the two window readers. -/
theorem automatonCommandsComplete : Obligations.AutomatonCommandsComplete := by
  rintro s c k d a b f la au rfl hholder own held m row quad reads
  refine ⟨fun hb ha hs => ?lacfg, fun hb hs => ?laseed, fun hb hm ha hs => ?lafb,
    fun hb => ⟨fun hm ha hd hs => ?lainfN, fun hrow hrows => ⟨fun inc hd hs => ?lardN, fun hd hs => ?lawrN⟩⟩,
    fun hb => ⟨fun hrow hs => ?lawrW, exec_lardW_of_ok hholder hb, exec_lainfW_of_ok hholder hb⟩⟩
  case lacfg => exact exec_of_array hholder (fun _ => rfl) rfl hs hb (Ctx.sendIf_of_none (Ctx.ownNear_of_ok ha _))
  case laseed => exact exec_of_array hholder (fun _ => rfl) rfl hs hb rfl
  case lafb =>
    exact exec_of_sendIf hholder (fun _ => rfl) rfl hs hb (Nat.not_lt.mpr hm) (Ctx.ownNear_of_ok ha _)
  case lainfN =>
    exact exec_of_sendIf hholder (fun _ => rfl) rfl hs hb (Nat.not_lt.mpr hm)
      (by rw [Ctx.ownNear_of_ok ha, Ctx.ownNear_of_ok hd]; rfl)
  case lardN =>
    exact exec_of_sendIf hholder (fun _ => rfl) rfl hs hb (by simp [rowsBad_of_le hrow hrows])
      (Ctx.ownNear_of_ok hd _)
  case lawrN =>
    exact exec_of_sendIf hholder (fun _ => rfl) rfl hs hb (by simp [rowsBad_of_le hrow hrows])
      (Ctx.ownNear_of_ok hd _)
  case lawrW =>
    exact exec_of_array hholder (fun _ => rfl) rfl hs hb (if_neg (by simp [rowsBad_one hrow]))

end Sys2Proof.Machine

/-! PROOFS. The page sweep (O39): the subscriptions that a sweep takes, commands that pass their checks, and the place and the
merge entries that a subscription reserves. -/

namespace Sys2Proof.Machine

/-! ### The subscriptions that a sweep takes (R293, R296) -/

/-- No place of a core at reset holds a subscription. -/
theorem Core.sub_reset (place : Nat) : (Core.reset.subs[place]?).bind (·.sub) = none := by
  show ((List.replicate 128 { gen := 0#8, sub := none : SubPlace })[place]?).bind (·.sub) = none
  rw [List.getElem?_replicate]
  split <;> rfl

/-- A place holds a subscription where the device has its core and the core the place. -/
theorem State.subAt_eq_some_iff {s : State} {core place : Nat} {u : Sub} :
    s.subAt core place = some u ↔
      ∃ k p, s.cores[core]? = some k ∧ k.subs[place]? = some p ∧ p.sub = some u := by
  rw [State.subAt, State.core, List.getD_eq_getElem?_getD]
  cases s.cores[core]? with
  | some k => simp [Option.bind_eq_some_iff]
  | none => simp [Core.sub_reset]

/-- A sweep takes the subscriptions of its launch and sweep id that do not run; in deterministic mode, those whose commit
its threads have heard of. -/
theorem State.mem_sweepTakes_iff {s : State} {l : Launch} {sid : Nat} {ths : List Nat} {x : Nat × Nat} :
    x ∈ s.sweepTakes l sid ths ↔
      ∃ u, s.subAt x.1 x.2 = some u ∧ u.launch = l.id ∧ u.sid = sid ∧ u.state ≠ .run ∧
        (l.isDet = true → s.subName x.1 x.2 ∈ l.heardBy ths) := by
  simp only [State.sweepTakes, List.mem_flatMap, List.mem_filterMap, Prod.exists, List.mem_zipIdx_iff_getElem?,
    State.subAt_eq_some_iff]
  constructor
  · rintro ⟨k, core, hk, p, place, hp, hx⟩
    cases hu : p.sub with
    | none => simp [hu] at hx
    | some u =>
      rw [hu] at hx
      obtain ⟨htakes, hplace⟩ := Option.ite_none_right_eq_some.mp hx
      cases hplace
      exact ⟨u, ⟨k, p, hk, hp, hu⟩, by simpa [and_assoc, imp_iff_not_or] using htakes⟩
  · rintro ⟨u, ⟨k, p, hk, hp, hu⟩, hlaunch, hsid, hrun, hheard⟩
    refine ⟨k, x.1, hk, p, x.2, hp, ?_⟩
    rw [hu]
    exact if_pos (by simpa [hlaunch, hsid, hrun, imp_iff_not_or] using hheard)

/-- A subscription happens before what each of the threads that commit it does next (R296). -/
theorem Launch.mem_heardBy_subscribed {l : Launch} {ths : List Nat} {t : Nat} (ht : t ∈ ths) (n : Nat) :
    n ∈ (l.subscribed ths n).heardBy [t] := by
  rw [Launch.heardBy, mem_dedup]
  simp [Launch.subscribed, Launch.hear_find, ht]

/-! ### Sweep commands at issue (R293, R303 to R305) -/

section Commands

variable {s s1 : State} {c : Ctx} {d a : BitVec 5}

/-- A leave whose handle has the format of R289 is held (R305). -/
theorem exec_swleave_of_ok (hb : c.busy [a] = false) (hs : s.sees (.swleave 0#3 a) = some c)
    (hh : handleBad c.w.core (c.slot a) = false) :
    exec (.swleave 0#3 a) s = .next (s.issued c (c.r.hold (.swleave (c.slot a)))) :=
  exec_of_engine (fun _ => rfl) rfl hs hb (if_neg (by simp [hh]))

/-- The start of a sweep whose base is aligned and translates to a page in a format that a sweep accepts is held (R293). -/
theorem exec_swgo_of_ok {sid : BitVec 4} {dh : BitVec 1} {p : Page} (hb : c.busy [a] = false)
    (hs : s.sees (.swgo 0#3 a sid dh) = some c) (hhigh : bitsOf (c.slot a) 63 57 = 0) (halign : (c.slot a).toNat % 256 = 0)
    (ht : s.translate c.w.core c.tenant (c.slot a) .read = (.ok p, s1)) (hfmt : sweepFormat p.fmt = true) :
    exec (.swgo 0#3 a sid dh) s =
      .next (s1.issued c (c.r.hold (.swgo sid.toNat (dh == 1#1) (c.slot a) p []))) := by
  refine exec_of_engine (fun _ => rfl) rfl hs hb ((if_neg (by simp [hhigh])).trans ((if_neg (by simp [halign])).trans ?_))
  rw [ht]
  exact if_neg (by simp [hfmt])

/-- A read of a subscription's results whose output the launch may write on its own core is held (R304). -/
theorem exec_swrd_of_ok {mm : BitVec 2} {u : Sub} (hb : c.busy [d, a] = false) (hs : s.sees (.swrd 0#3 d a mm) = some c)
    (hh : handleBad c.w.core (c.slot a) = false) (hu : (s.core c.w.core).sub? c.p.launch (c.slot a) = some u)
    (hnear : c.l.nearOk c.w.core (c.slot d) (u.q * u.outLen mm.toNat) = true ∧
      nearCore c.w.core (c.slot d) = c.w.core ∧ nearOff (c.slot d) % 32 = 0) :
    exec (.swrd 0#3 d a mm) s =
      .next (s.issued c (c.r.hold (.engine (.swrd (c.slot d).toNat (c.slot a) mm.toNat)))) := by
  refine exec_of_engine (fun _ => rfl) rfl hs hb ((if_neg (by simp [hh])).trans ?_)
  rw [hu]
  exact Ctx.sendIf_of_none (Ctx.ownNear_of_ok hnear _)

/-- A wait at the first position has been made at the header (R303). -/
theorem exec_swwait_of_first (hs : s.sees (.swwait a) = some c) (hpos : c.r.pos = 1)
    (hh : handleBad c.w.core c.r.ops.1 = false) : exec (.swwait a) s = .next (s.issued c c.r) := by
  refine exec_of_go (fun _ => rfl) hs ?_
  simp [hpos, hh]

/-- Elsewhere it goes on once the subscription is done or gone (R303). -/
theorem exec_swwait_of_done (hs : s.sees (.swwait a) = some c) (hpos : c.r.pos ≠ 1) (hb : c.busy [a] = false)
    (hh : handleBad c.w.core (c.slot a) = false)
    (hdone : ∀ u, (s.core c.w.core).sub? c.p.launch (c.slot a) = some u → u.state = .done) :
    exec (.swwait a) s = .next (s.issued c c.r) := by
  refine exec_of_go (fun _ => rfl) hs ?_
  simp only [hpos, hb, hh, if_false, Bool.and_false, Bool.false_eq_true]
  cases hu : (s.core c.w.core).sub? c.p.launch (c.slot a) with
  | none => rfl
  | some u => exact if_pos (by simp [hdone u hu])

end Commands

/-! ### Subscriptions (R292) -/

/-- Every landing slot is a shadow region. -/
theorem landing_shadowed {l : Launch} {u : Sub} (h : ∀ o ∈ u.landing, (l.regionAt o u.pageLen).isSome) :
    (u.landing.any fun o => (l.regionAt o u.pageLen).isNone) = false :=
  List.any_eq_false.mpr fun o ho => by simpa [Option.isSome_iff_ne_none] using h o ho

section Subscribing

variable {s s1 : State} {c : Ctx} {d a : BitVec 5}

/-- A subscription whose descriptor passes reserves a free place and its merge entries, and the live lanes read its handle
(R289, R292). -/
theorem exec_swsub_of_ok {i : Nat} {x : SubPlace} {p : Page}
    (hb : c.busy [d, a, a + 1#5, a + 2#5, a + 3#5] = false) (hs : s.sees (.swsub 0#3 d a) = some c)
    (hhent : bitsOf (c.slot (a + 2#5)) 63 57 = 0) (hhigh : bitsOf (c.slot (a + 3#5)) 63 24 = 0)
    (hmid : bitsOf (c.slot (a + 3#5)) 15 11 = 0) (hlow : bitsOf (c.slot (a + 3#5)) 7 6 = 0)
    (ht : s.translate c.w.core c.tenant (c.slot a) .read = (.ok p, s1))
    (hqb : c.l.nearOk c.w.core (BitVec.ofNat 64 (c.subOf a).qb) 1 = true ∧
      nearCore c.w.core (BitVec.ofNat 64 (c.subOf a).qb) = c.w.core)
    (hlb : c.l.nearOk c.w.core (BitVec.ofNat 64 (c.subOf a).lb) 1 = true ∧
      nearCore c.w.core (BitVec.ofNat 64 (c.subOf a).lb) = c.w.core)
    (hshadow : ∀ o ∈ (c.subOf a).landing, (c.l.regionAt o (c.subOf a).pageLen).isSome)
    (hfree : ∀ y ∈ (s.core c.w.core).subs, ∀ v, y.sub = some v → v.launch = (c.subOf a).launch →
      ∀ o ∈ v.landing, o ∉ (c.subOf a).landing)
    (hlist : (c.slot a).toNat % 8 = 0) (halign : (c.slot (a + 2#5)).toNat % 16 = 0)
    (hpick : s1.pick (s.core c.w.core).freePlaces = some i) (hx : (s.core c.w.core).subs[i]? = some x)
    (hmerges : (c.subOf a).q ≤ (s.core c.w.core).freeMerges)
    (hfirst : (s.core c.w.core).grantedFirst c.w.slot c.w.hnd c.p = false) :
    let r := (c.r.write d c.k0 fun _ => handleOf c.w.core i x.gen).hold (.swsub i (c.subOf a))
    exec (.swsub 0#3 d a) s = .next (s1.drawn.issued c
      { r with res := { r.res with places := r.res.places ++ [i], merges := r.res.merges + (c.subOf a).q } }) := by
  refine exec_of_engine (fun _ => rfl) rfl hs hb ((if_neg (by simp [hhent, hhigh, hmid, hlow])).trans ?_)
  rw [ht]
  have hlanding := landing_shadowed hshadow
  refine (if_neg (by simp [hqb])).trans ((if_neg (by simp [hlb, hlanding])).trans ((if_neg ?unused).trans
    ((if_neg (by simp [hlist])).trans ((if_neg (by simp [halign])).trans ?reserves))))
  case unused =>
    refine ne_true_of_eq_false (List.any_eq_false.mpr fun y hy => ?_)
    cases hv : y.sub with
    | none => exact Bool.false_ne_true
    | some v => simpa using hfree y hy v hv
  case reserves =>
    rw [hpick]
    refine (if_neg (by simp [hmerges, hfirst])).trans ?_
    rw [hx]

end Subscribing

/-- Settles O39, clause by clause. -/
theorem sweepCommandsComplete : Obligations.SweepCommandsComplete := by
  rintro s s1 c k d a b rfl core held own
  refine ⟨exec_swleave_of_ok, fun _ _ _ => exec_swgo_of_ok, fun _ _ _ _ => State.mem_sweepTakes_iff,
    fun _ _ _ n ht => Launch.mem_heardBy_subscribed ht n, fun _ _ => exec_swrd_of_ok,
    fun hb hs hh hnear => ?swmerge, fun hs => ⟨exec_swwait_of_first hs, exec_swwait_of_done hs⟩,
    fun _ _ _ => exec_swsub_of_ok⟩
  case swmerge =>
    exact exec_of_engine (fun _ => rfl) rfl hs hb
      ((if_neg (by simp [hh])).trans (Ctx.sendIf_of_none (Ctx.ownNear_of_ok hnear _)))

end Sys2Proof.Machine

/-! PROOFS. Tasks and barriers (O31, O32, O46): posts, takings and active messages at issue; what a barrier instruction waits
for and where it raises BARMIS; cards read, units placed and active messages started. -/

namespace Sys2Proof.Machine

/-! ### Posts, takings and active messages at issue (R323 to R325) -/

section Tasks

variable {s s1 : State} {c : Ctx} {d a b : BitVec 5} {q dir : BitVec 2} {p : Page} {card : Word}

/-- A post whose card is aligned and translates is held for its home; a spawn at the greatest depth takes SPAWNDEPTH
(R323). -/
theorem State.issuePost_of_ok {i : Instr} (hb : c.busy [a, d] = false) (halign : card.toNat % 128 = 0)
    (hhigh : bitsOf (card + 0x40#64) 63 57 = 0)
    (ht : s.translate c.w.core c.tenant (card + 0x40#64) .modify = (.ok p, s1)) (hcard : c.low c.k0 a 0#5 = card)
    (hs : s.sees i = some c) (spawn : Bool) :
    s.issuePost i d a q dir spawn = .next (if spawn = true ∧ c.l.depth = 8 then s1.trapped c .spawndepth
      else (s1.freshId c.w.core).2.issued c (c.r.hold (.home (s1.freshId c.w.core).1 d c.k0
        [.post (c.lowThread c.k0) card.toNat (p.phys (card.toNat + 0x40)) (if spawn then some (c.l.depth + 1) else none)
          (q == 2#2) (if q = 1#2 then neighbour c.w.core dir else c.w.core) c.tenant]))) := by
  subst hcard
  rw [State.issuePost, State.issue_of_sees hs]
  simp only [hb, halign, hhigh, ht, bne_self_eq_false, Bool.and_eq_true, beq_iff_eq, Bool.false_eq_true, if_false]
  by_cases hdeep : spawn = true ∧ c.l.depth = 8
  · rw [if_pos hdeep, if_pos hdeep]
    rfl
  · rw [if_neg hdeep, if_neg hdeep]

/-- A taking at one of the twelve levels is held for its home (R324). -/
theorem exec_qtake_of_ok (hb : c.busy [a, d] = false) (hs : s.sees (.qtake d a q) = some c)
    (hlevel : (c.low c.k0 a 0#5).toNat ≤ 11) :
    exec (.qtake d a q) s = .next ((s.freshId c.w.core).2.issued c (c.r.hold (.home (s.freshId c.w.core).1 d c.k0
      [.qtake (if q = 2#2 then none else some c.w.core) c.tenant (c.low c.k0 a 0#5).toNat]))) := by
  refine exec_of_go (fun _ => rfl) hs ?_
  simp only [hb, Nat.not_lt.mpr hlevel, Bool.false_eq_true, if_false]

/-- An active message whose card is located is held for the core that it names, or for its own (R325). -/
theorem exec_ams_of_ok {t : Nat} (hb : c.busy ([a, b] ++ (List.range 8).map fun i => d + BitVec.ofNat 5 i) = false)
    (hs : s.sees (.ams d a b) = some c) (hcard : c.low c.k0 a 0#5 = card) (ht : (c.low c.k0 b 0#5).toNat = t)
    (halign : card.toNat % 128 = 0) (hloc : s.locate c card 128 .read = (.ok p, s1)) (hcore : t < 144 ∨ t = 255)
    (hdepth : c.l.depth ≠ 8) :
    exec (.ams d a b) s = .next (s1.issued c (c.r.hold
      (.ams (if t = 255 then c.w.core else t) card.toNat (c.l.depth + 1)
        ((List.range 8).map fun i => c.low c.k0 (d + BitVec.ofNat 5 i) 0#5)))) := by
  subst hcard ht
  have htarget : (decide (144 ≤ (c.low c.k0 b 0#5).toNat) && (c.low c.k0 b 0#5).toNat != 255) = false := by
    rcases hcore with h | h
    · simp [Nat.not_le.mpr h]
    · simp [h]
  refine exec_of_go (fun _ => rfl) hs ?_
  simp only [hb, halign, hloc, htarget, hdepth, bne_self_eq_false, beq_iff_eq, Bool.false_eq_true, if_false]

end Tasks

/-- Settles O31: posts and spawns are issued alike; then the taking and the message. -/
theorem taskInstructionsComplete : Obligations.TaskInstructionsComplete := by
  intro s s1 c d a b q dir p card
  refine ⟨fun hb halign hhigh ht => ?_, exec_qtake_of_ok,
    fun hb hs halign hloc => exec_ams_of_ok hb hs rfl rfl halign hloc⟩
  have post {i : Instr} (hs : s.sees i = some c) (spawn : Bool) :=
    State.issuePost_of_ok (q := q) (dir := dir) hb halign hhigh ht rfl hs spawn
  refine ⟨fun hs => ?post, fun hs hdepth => ?spawn, fun hs hdepth => ?deep⟩
  case post => exact (post hs false).trans (congrArg _ (if_neg (by simp)))
  case spawn => exact (post hs true).trans (congrArg _ (if_neg (by simp [hdepth])))
  case deep => exact (post hs true).trans (congrArg _ (if_pos ⟨rfl, hdepth⟩))

/-! ### Named barriers at issue (R326 to R328) -/

section NamedBarriers

variable {s : State} {c : Ctx} {m : Mask} {k : BitVec 3} {d a : BitVec 5} {n : BitVec 6} {e : Nat}

section Bindings

variable {g : BitVec 24} (ha : c.busyK a.toNat = false) (hs : s.sees (.bbind a n) = some c) (hg : c.groupOf s a = some g)

include ha hs hg

/-- The binding of a free barrier to a live group is staged (R326). -/
theorem exec_bbind_of_free (hfree : ((s.core c.w.core).barriers[n.toNat]?.bind (·.gid)) = none) :
    exec (.bbind a n) s = .next (s.issued c (c.r.stage (.bbind n.toNat g))) := by
  refine exec_of_go (fun _ => rfl) hs ?_
  simp only [ha, hg, hfree, Option.isSome_none, Bool.false_eq_true, if_false]

/-- The binding of a bound barrier takes BARMIS (R326). -/
theorem exec_bbind_of_bound {h : BitVec 24} (hbound : ((s.core c.w.core).barriers[n.toNat]?.bind (·.gid)) = some h) :
    exec (.bbind a n) s = .next (s.trapped c .barmis) := by
  refine exec_of_trap (fun _ => rfl) hs ?_
  simp only [ha, hg, hbound, Option.isSome_some, Bool.false_eq_true, if_false, if_true]

end Bindings

/-- The unbinding of a barrier that a group of the launch is bound to is staged (R326). -/
theorem exec_bunb_of_bound (hs : s.sees (.bunb n) = some c) (he : c.boundEntry s n = some e) :
    exec (.bunb n) s = .next (s.issued c (c.r.stage (.bunb n.toNat))) :=
  exec_of_go (fun _ => rfl) hs (if_pos (by simp [he]))

/-- The unbinding of any other takes BARMIS (R326). -/
theorem exec_bunb_of_unbound (hs : s.sees (.bunb n) = some c) (he : c.boundEntry s n = none) :
    exec (.bunb n) s = .next (s.trapped c .barmis) := exec_of_trap (fun _ => rfl) hs (if_neg (by simp [he]))

/-- Arrivals are held for the commit; of no live lane there are none (R218, R327, R329). -/
theorem exec_of_arrival {i : Instr} {F : State → Ctx → Issue} {h : Nat → Held} (hexec : ∀ s, exec i s = s.issue i F)
    (hs : s.sees i = some c) (hF : F s c = if m = 0#32 then .go s c.r
      else .go (s.freshId c.w.core).2 (c.r.hold (h (s.freshId c.w.core).1))) :
    exec i s = .next (if m = 0#32 then s.issued c c.r
      else (s.freshId c.w.core).2.issued c (c.r.hold (h (s.freshId c.w.core).1))) := by
  split
  · next h0 => exact exec_of_go hexec hs (hF.trans (if_pos h0))
  · next h0 => exact exec_of_go hexec hs (hF.trans (if_neg h0))

/-- The lanes of an ordinary warp that are members are those of its slot's bits (log 54). -/
theorem Ctx.memberLanes_of_ordinary {x : SetEntry} (hx : (s.core c.w.core).asSeen.store[e]? = some x)
    (hw : c.w.hnd = false) : c.memberLanes s e = bitmapLanes x.bits c.w.slot := by
  simp [Ctx.memberLanes, hx, hw]

/-- No lane of a trap-handler warp is a member (R347). -/
theorem Ctx.memberLanes_of_handler (hw : c.w.hnd = true) (h0 : m ≠ 0#32) : c.memberLanes s e &&& m ≠ m := by
  rw [Ctx.memberLanes, if_pos hw, BitVec.zero_and]
  exact h0.symm

/-- Lanes that are not all members by the slot's bits are not all members, in any warp. -/
theorem Ctx.memberLanes_of_outside {x : SetEntry} (hx : (s.core c.w.core).asSeen.store[e]? = some x)
    (hout : bitmapLanes x.bits c.w.slot &&& m ≠ m) : c.memberLanes s e &&& m ≠ m := by
  cases hw : c.w.hnd with
  | false => rwa [Ctx.memberLanes_of_ordinary hx hw]
  | true =>
    refine Ctx.memberLanes_of_handler hw ?_
    rintro rfl
    exact hout BitVec.and_zero

section Arrivals

variable (hr : c.ready k [d]) (hm : c.mask k = some m) (hs : s.sees (.barr k d n) = some c)

include hr hm hs

/-- An arrival of members at a bound barrier is held (R327). -/
theorem exec_barr_of_members (he : c.boundEntry s n = some e) (hmem : c.memberLanes s e &&& m = m) :
    exec (.barr k d n) s = .next (if m = 0#32 then s.issued c c.r
      else (s.freshId c.w.core).2.issued c (c.r.hold (.barr (s.freshId c.w.core).1 d m n.toNat))) := by
  obtain ⟨hk, hd⟩ := hr
  refine exec_of_arrival (h := fun id => .barr id d m n.toNat) (fun _ => rfl) hs ?_
  simp only [hk, hd, hm, he, hmem, Bool.or_false, bne_self_eq_false, Bool.false_eq_true, if_false]

/-- An arrival of a lane that is no member takes BARMIS (R327). -/
theorem exec_barr_of_stranger (he : c.boundEntry s n = some e) (hmem : c.memberLanes s e &&& m ≠ m) :
    exec (.barr k d n) s = .next (s.trapped c .barmis) := by
  obtain ⟨hk, hd⟩ := hr
  refine exec_of_trap (fun _ => rfl) hs ?_
  simp only [hk, hd, hm, he, bne_iff_ne, hmem, Bool.or_false, Bool.false_eq_true, if_false, ne_eq, not_false_eq_true,
    if_true]

/-- An arrival at a barrier that no group of the launch is bound to takes BARMIS (R327; of no live lane too, log 28). -/
theorem exec_barr_of_unbound (he : c.boundEntry s n = none) :
    exec (.barr k d n) s = .next (s.trapped c .barmis) := by
  obtain ⟨hk, hd⟩ := hr
  refine exec_of_trap (fun _ => rfl) hs ?_
  simp only [hk, hd, hm, he, Bool.or_false, Bool.false_eq_true, if_false]

end Arrivals

/-- A wait at the first position has been made at the header (R328). -/
theorem exec_bwt_of_first (hs : s.sees (.bwt a n) = some c) (hpos : c.r.pos = 1) :
    exec (.bwt a n) s = .next (s.issued c c.r) := exec_of_go (fun _ => rfl) hs (if_pos hpos)

/-- A wait at a bound barrier goes on once its phase is past (R328). -/
theorem exec_bwt_of_past {b : Barrier} (hs : s.sees (.bwt a n) = some c) (ha : c.busy [a] = false)
    (hbound : (s.core c.w.core).asSeen.boundTo c.w.core c.p.launch n.toNat = some (b, e))
    (hout : s.depositOut c.w = false) (hpast : phaseWaits b.ph (c.low c.k0 a 0#5) = false) :
    exec (.bwt a n) s = .next (s.issued c c.r) := by
  refine exec_of_go (fun _ => rfl) hs ?_
  simp only [ha, hbound, hout, hpast, Bool.or_false, Bool.false_eq_true, if_false, ite_self]

/-- A wait inside a run at a barrier that no group of the launch is bound to takes BARMIS (R328). -/
theorem exec_bwt_of_unbound (hs : s.sees (.bwt a n) = some c) (hpos : c.r.pos ≠ 1) (ha : c.busy [a] = false)
    (hbound : (s.core c.w.core).asSeen.boundTo c.w.core c.p.launch n.toNat = none) :
    exec (.bwt a n) s = .next (s.trapped c .barmis) := by
  refine exec_of_trap (fun _ => rfl) hs ((if_neg hpos).trans ?_)
  simp only [ha, hbound, Bool.false_eq_true, if_false]

end NamedBarriers

/-! ### Device barriers at issue (R329) -/

section DeviceBarriers

variable {s : State} {c : Ctx} {m : Mask} {k : BitVec 3} {d a : BitVec 5} {j : BitVec 4}

/-- An arrival at a device barrier that the card allows is held (R329). -/
theorem exec_dbar_of_allowed (hr : c.ready k [d]) (hm : c.mask k = some m) (hs : s.sees (.dbar k d j) = some c)
    (hcard : c.l.card.dbm.getLsbD j.toNat = true) (hkind : c.p.kind.isHandler = false) :
    exec (.dbar k d j) s = .next (if m = 0#32 then s.issued c c.r
      else (s.freshId c.w.core).2.issued c (c.r.hold (.dbar (s.freshId c.w.core).1 d m j.toNat))) := by
  obtain ⟨hk, hd⟩ := hr
  refine exec_of_arrival (h := fun id => .dbar id d m j.toNat) (fun _ => rfl) hs ?_
  simp only [hk, hd, hm, hcard, hkind, Bool.or_false, Bool.not_true, Bool.false_eq_true, if_false]

/-- An arrival at a device barrier that the card does not allow, or of a handler warp, takes BARMIS (R329, R347). -/
theorem exec_dbar_of_refused (hr : c.ready k [d]) (hm : c.mask k = some m) (hs : s.sees (.dbar k d j) = some c)
    (h : c.l.card.dbm.getLsbD j.toNat = false ∨ c.p.kind.isHandler = true) :
    exec (.dbar k d j) s = .next (s.trapped c .barmis) := by
  obtain ⟨hk, hd⟩ := hr
  have hrefused : (!c.l.card.dbm.getLsbD j.toNat || c.p.kind.isHandler) = true := by simpa using h
  refine exec_of_trap (fun _ => rfl) hs ?_
  simp only [hk, hd, hm, hrefused, Bool.or_false, Bool.false_eq_true, if_false, if_true]

/-- A wait at a device barrier whose phase is past writes the core's L1 back and drops it (R201, R329). -/
theorem exec_dwt_of_past {b : DevBarrier} (hs : s.sees (.dwt a j) = some c) (ha : c.busy [a] = false)
    (hcard : c.l.card.dbm.getLsbD j.toNat = true) (hb : s.dev.dbars[j.toNat]? = some b) (hout : s.depositOut c.w = false)
    (hpast : phaseWaits b.ph (c.low c.k0 a 0#5) = false) :
    exec (.dwt a j) s = .next ((s.flushAll c.w.core).issued c c.r) := by
  refine exec_of_go (fun _ => rfl) hs ?_
  simp only [ha, hcard, hb, hout, hpast, Bool.or_false, Bool.not_true, Bool.false_eq_true, if_false, ite_self]

/-- A wait at a device barrier that the card does not allow takes BARMIS (R329). -/
theorem exec_dwt_of_refused (hs : s.sees (.dwt a j) = some c) (hcard : c.l.card.dbm.getLsbD j.toNat = false) :
    exec (.dwt a j) s = .next (s.trapped c .barmis) := exec_of_trap (fun _ => rfl) hs (if_pos (by simp [hcard]))

end DeviceBarriers

/-- Settles O32: what is staged, held and waited for; then where each instruction raises BARMIS. -/
theorem barrierInstructionsComplete : Obligations.BarrierInstructionsComplete := by
  intro s c m k d a n j
  refine ⟨fun _ => exec_bbind_of_free, fun _ => exec_bunb_of_bound, fun e x hr hm hs he hx hw hin => ?members,
    exec_bwt_of_first, fun b e hs ha => exec_bwt_of_past hs ha, exec_dbar_of_allowed, fun b => exec_dwt_of_past,
    exec_bunb_of_unbound, exec_barr_of_unbound, fun e x hr hm hs he hx hout => ?stranger,
    fun e hr hm h0 hs he hw => ?handler, fun g h ha hs hg => exec_bbind_of_bound ha hs hg,
    fun hr hm hs hcard => exec_dbar_of_refused hr hm hs (.inl hcard),
    fun hr hm hs hkind => exec_dbar_of_refused hr hm hs (.inr hkind), exec_bwt_of_unbound, exec_dwt_of_refused⟩
  case members => exact exec_barr_of_members hr hm hs he (by rwa [Ctx.memberLanes_of_ordinary hx hw])
  case stranger => exact exec_barr_of_stranger hr hm hs he (Ctx.memberLanes_of_outside hx hout)
  case handler => exact exec_barr_of_stranger hr hm hs he (Ctx.memberLanes_of_handler hw h0)

/-! ### Cards read (R312) -/

section CardReads

variable {s : State} {n : Nat} {q : QItem} {x : Card}

/-- A card of ordinary threads that holds waits in its queue for its units, with its fields (R312, R317). -/
theorem State.heldItem_of_units (hargk : x.argk = false) (hthreads : x.nthr ≠ 0) : s.heldItem q x = s.modDev fun d => { d with
    queue := d.queue.map fun y => if y.id = q.id then { y with card := some x, fault := none } else y } := by
  simp [State.heldItem, State.modItem, hargk, hthreads]

variable (hq : s.dev.queue[n]? = some q) (hcard : q.card = none) (hhead : s.isHead q = true)
  (hfault : s.stillFaults q.tenant q.fault = false)

include hq hcard hhead hfault

/-- A head card that holds is done with by its kind (R312). -/
theorem execCardRead_of_held (hread : s.readCard q.tenant q.addr = .held x) : execCardRead n s = .next (s.heldItem q x) := by
  simp only [execCardRead, hq, hcard, hhead, hfault, hread, Bool.not_true, Bool.or_false, Bool.false_eq_true, if_false]

/-- A head card that fails leaves its queue and performs its end actions (R312). -/
theorem execCardRead_of_fails {code : Code} {detail : Nat} {succ : Word}
    (hread : s.readCard q.tenant q.addr = .fails code detail succ) :
    execCardRead n s = .next (s.failItem q code detail succ) := by
  simp only [execCardRead, hq, hcard, hhead, hfault, hread, Bool.not_true, Bool.or_false, Bool.false_eq_true, if_false]

end CardReads

/-! ### Units placed (R317 to R319) -/

section Placement

variable {s t : State} {core n : Nat} {q : QItem} {x : Card} (hcard : q.card = some x)
  (hplaced : (s.core core).placed = false) (hserves : s.serves core = some q)

include hcard hplaced hserves

/-- A core places a unit of the card of its own queue that it serves (R318). -/
theorem execUnitPlacement_of_served (hown : q.core = some core) (hmade : s.placeUnit core q x = .made t) :
    execUnitPlacement core s = .next (t.tookUnit core q) := by
  simp only [execUnitPlacement, hserves, hcard, hplaced, hown, hmade, bne_self_eq_false, Bool.or_false, Bool.false_eq_true,
    if_false]

/-- The placer places a unit of an any-queue card on the core it chooses, where that core serves the card (R318, R319). -/
theorem execAnyQueuePlacement_of_chosen (hq : s.dev.queue[n]? = some q) (hany : q.core = none)
    (hfirst : s.dev.anyPlaced = false) (hchosen : s.chosen x (s.placer q) = some core)
    (hmade : ({ s with oracle := s.oracle + 1 } : State).placeUnit core q x = .made t) :
    execAnyQueuePlacement n s = .next (((t.tookUnit core q).countPasses (s.placer q) core).modDev fun d =>
      { d with anyPlaced := true, placeP := (core + 1) % 144 }) := by
  simp only [execAnyQueuePlacement, hq, hcard, hany, hfirst, hchosen, hplaced, hserves, hmade, Option.isSome_none,
    Option.map_some, bne_self_eq_false, Bool.or_false, Bool.false_eq_true, if_false]

end Placement

/-! ### Active messages at their core (R325) -/

section Messages

variable {s : State} {core : Nat} {m : Message} {rest : List Message} {x : Card}
  (hmessages : (s.core core).messages = m :: rest)

include hmessages

/-- A first message that has no card yet and waits for no walk is read (R325). -/
theorem execAmsArrival_of_unread (hheld : m.held = none) (hfault : s.stillFaults m.tenant m.fault = false) :
    execAmsArrival core s = .next (s.readMessage core 0 m) := by
  have hunread : s.unreadMessage core = some (m, 0) := by simp [State.unreadMessage, hmessages, hheld, hfault]
  rw [execAmsArrival, hunread]

/-- Its card's fields are held where the card is one of 1 to 32 ordinary threads (R325). -/
theorem State.readMessage_of_fit (hread : s.readCard m.tenant m.card = .held x) (hsome : x.nthr ≠ 0) (hwarp : x.nthr ≤ 32)
    (hargk : x.argk = false) : s.readMessage core 0 m = s.modCore core fun k =>
      { k with messages := { m with fault := none, held := some x } :: rest } := by
  simp only [State.readMessage, hread]
  rw [if_neg (by simp [hsome, Nat.not_lt.mpr hwarp, hargk])]
  exact State.modCore_congr (by simp [hmessages])

/-- Else the message is discarded, with a fault record (R325; its fields: logs 18, 73). -/
theorem State.readMessage_of_unfit (hread : s.readCard m.tenant m.card = .held x)
    (hbad : x.nthr = 0 ∨ 32 < x.nthr ∨ x.argk = true) : s.readMessage core 0 m =
      (s.modCore core fun k => { k with messages := rest }).faultRecord m.tenant (BitVec.ofNat 64 m.card) core .perm 0
        m.card := by
  simp only [State.readMessage, hread]
  rw [if_pos (by simpa [or_assoc] using hbad), State.discardMessage]
  exact congrArg (fun t : State => t.faultRecord m.tenant (BitVec.ofNat 64 m.card) core .perm 0 m.card)
    (State.modCore_congr (by simp [hmessages]))

/-- The first message starts its launch once every message has its card and its unit fits (R325). -/
theorem execAmsArrival_of_fits (hall : ∀ y ∈ m :: rest, y.held ≠ none) (hheld : m.held = some x)
    (hfits : s.fits core x none = true) : execAmsArrival core s = .next (s.startMessage core m x) := by
  have hread : s.unreadMessage core = none := by
    rw [State.unreadMessage, hmessages, List.find?_eq_none]
    intro y hy
    simp [hall y.1 (List.fst_mem_of_mem_zipIdx hy)]
  simp only [execAmsArrival, hread, hmessages, hheld, hfits, if_true]

end Messages

/-- Settles O46, event by event. -/
theorem cardEventsComplete : Obligations.CardEventsComplete := by
  intro s t core n q x
  refine ⟨fun hq hcard hhead hfault => ⟨fun hread hargk hthreads => ?holds, fun code detail succ hread =>
      execCardRead_of_fails hq hcard hhead hfault hread⟩,
    fun hserves hcard hown hplaced => execUnitPlacement_of_served hcard hplaced hserves hown,
    fun hq hcard hany hfirst hchosen hplaced hserves =>
      execAnyQueuePlacement_of_chosen hcard hplaced hserves hq hany hfirst hchosen,
    fun m rest hmessages => ⟨fun hheld hfault hread => ⟨fun hsome hwarp hargk => ?fit, fun hbad => ?unfit⟩,
      execAmsArrival_of_fits hmessages⟩⟩
  case holds =>
    exact (execCardRead_of_held hq hcard hhead hfault hread).trans (by rw [State.heldItem_of_units hargk hthreads])
  case fit =>
    exact (execAmsArrival_of_unread hmessages hheld hfault).trans
      (by rw [State.readMessage_of_fit hmessages hread hsome hwarp hargk])
  case unfit =>
    exact (execAmsArrival_of_unread hmessages hheld hfault).trans
      (by rw [State.readMessage_of_unfit hmessages hread hbad])

end Sys2Proof.Machine

/-! PROOFS. Traps and preemption (O33, O34, O47): system registers read, what the other system instructions stage, and the course
of a preemption, from its request to the launch saved and restored. -/

namespace Sys2Proof.Machine

/-! ### System registers and system instructions (R349 to R357) -/

/-- Bits 56 to 4 of a word, in their places. -/
theorem and_packetMask (v : Word) : v &&& 0x01FFFFFFFFFFFFF0#64 = BitVec.ofNat 64 (v.toNat % 2 ^ 57 / 16 * 16) := by
  have hmask : ∀ i < 64, (0x01FFFFFFFFFFFFF0#64).getLsbD i = (decide (4 ≤ i) && decide (i < 57)) := by decide
  refine BitVec.eq_of_getLsbD_eq fun i hi => ?_
  rw [BitVec.getLsbD_and, hmask i hi, BitVec.getLsbD_ofNat, show (16 : Nat) = 2 ^ 4 from rfl, Nat.testBit_mul_two_pow,
    Nat.testBit_div_two_pow, Nat.testBit_mod_two_pow, ← BitVec.testBit_toNat]
  by_cases h4 : 4 ≤ i
  · simp [h4, hi, Nat.sub_add_cancel h4, Bool.and_comm]
  · simp [h4]

/-- Settles O33: `sysrd` writes one word in all lanes; TRAPPC is the one register that the model gives by a mask. -/
theorem systemRegisterReads : Obligations.SystemRegisterReads := by
  intro s c m k d num hm hr hs
  have hread : LaneWise s c m (.sysrd k d num) d fun _ => c.sysReg s num.toNat :=
    laneWise_of_pure (f := fun c _ => c.sysReg s num.toNat) rfl hs hr hm
  convert hread using 2
  match num.toNat with
  | 1 => simp only [Ctx.sysReg, and_packetMask]
  | 0 | 2 | 3 | 4 | 5 | 6 | 7 | 8 | 9 | 10 | _ + 11 => rfl

section SystemInstructions

variable {s : State} {c : Ctx}

/-- The lowest `trap` or `brk` of a run is the one that acts after its commit (R353). -/
theorem Run.raise_eq (r : Run) (code : Code) (imm : BitVec 10) :
    r.raise code imm = { r with soft := r.soft <|> some (code, r.pos, imm.toNat) } := by
  unfold Run.raise
  cases r.soft <;> rfl

/-- A region that lies in the core's own near slice on whole lines is staged, where none is entered (R357). -/
theorem exec_idb_of_ok {a b : BitVec 5} {n len : Word} (hs : s.sees (.idb a b) = some c) (hregion : c.p.region = none)
    (hbusy : c.busy [a, b] = false) (hn : c.low c.k0 a 0#5 = n) (hlen : c.low c.k0 b 0#5 = len)
    (hnear : c.l.nearOk c.w.core n len.toNat = true) (hcore : nearCore c.w.core n = c.w.core) (hoff : nearOff n % 32 = 0)
    (hwhole : len.toNat % 32 = 0) :
    exec (.idb a b) s = .next (s.issued c (c.r.stage (.idb (nearOff n) len.toNat))) := by
  subst hn hlen
  refine exec_of_go (fun _ => rfl) hs ?_
  simp only [hbusy, hnear, hcore, hoff, hwhole, hregion, bne_self_eq_false, Bool.not_true, Bool.or_false,
    Option.isSome_none, Bool.false_eq_true, if_false]

/-- `tret` returns from a trap handler, and takes ILLOP elsewhere (R352). -/
theorem exec_tret (e : BitVec 1) (hs : s.sees (.tret e) = some c) : exec (.tret e) s = .next (if c.w.hnd
    then s.issued c { c.r with xfer := .tret (e == 1#1) } else s.trapped c .illop) := by
  cases hh : c.w.hnd with
  | true => exact exec_of_go (fun _ => rfl) hs (if_pos hh)
  | false => exact exec_of_trap (fun _ => rfl) hs (if_neg (Bool.eq_false_iff.mp hh))

end SystemInstructions

/-- Settles O34, instruction by instruction. -/
theorem systemInstructionsComplete : Obligations.SystemInstructionsComplete := by
  intro s c a b num imm e mask
  refine ⟨fun ha hs => ?syswr, fun hs => ?trap, fun hs => ?brk, exec_tret e, fun hs => ?lmark, fun hs => ?ppoint,
    fun hs => ?ide, fun te tag wb hs => ?trail, fun hs hregion hbusy => exec_idb_of_ok hs hregion hbusy rfl rfl⟩
  case syswr => exact exec_of_go (fun _ => rfl) hs (if_neg (Bool.eq_false_iff.mp ha))
  case trap =>
    rw [← Run.raise_eq]
    exact exec_of_go (f := fun s c => .go s (c.r.raise .user imm)) (fun _ => rfl) hs rfl
  case brk =>
    rw [← Run.raise_eq]
    exact exec_of_go (f := fun s c => .go s (c.r.raise .brk imm)) (fun _ => rfl) hs rfl
  case lmark => exact exec_of_go (f := fun s c => .go s (c.r.hold (.lmark imm.toNat))) (fun _ => rfl) hs rfl
  case ppoint => exact exec_of_go (f := fun s c => .go s { c.r with ppoint := some mask }) (fun _ => rfl) hs rfl
  case ide => exact exec_of_go (f := fun s c => .go s (c.r.stage .ide)) (fun _ => rfl) hs rfl
  case trail =>
    exact exec_of_go (f := fun s c => .go s { c.r with commit := some (wb, if te = 1#1 then some tag.toNat else none, 0) })
      (fun _ => rfl) hs rfl

/-! ### Preemption: its request (R355, R373, R376) -/

section Requests

variable {s : State} {core n : Nat} {l : Launch}

/-- A preemption that is not under way on a core begins there. -/
theorem State.preempt_of_idle (hidle : (s.core core).preempting n = false) : s.preempt core n = s.modCore core fun k =>
    { k with preempts := k.preempts ++ [{ launch := n, age := 0 }] } :=
  State.modCore_congr (if_neg (Bool.eq_false_iff.mp hidle))

/-- A core preempts a launch that must yield to a head card of a higher level (R355). -/
theorem execPreemptionRequest_of_yield (hl : s.launch? n = some l) (hp : l.preemptible core = true)
    (hidle : (s.core core).preempting n = false) (hyield : s.mustYield core l = true) :
    execPreemptionRequest core n s = .next (s.modCore core fun k =>
      { k with preempts := k.preempts ++ [{ launch := n, age := 0 }] }) := by
  simp only [execPreemptionRequest, hl, hp, hidle, hyield, Bool.not_false, Bool.and_true, if_true,
    State.preempt_of_idle hidle]

/-- The host preempts a tenant's launches on a core, or on all, once a caravan core runs its image (R373). -/
theorem execPreemptCore_of_booted {t : Nat} (hb : s.dev.booted = true) (ht : t < 16) (core : Nat) :
    execPreemptCore t core s = .next (s.preemptTenant t [core]) := if_pos (by simp [hb, ht])

theorem execPreemptAll_of_booted {t : Nat} (hb : s.dev.booted = true) (ht : t < 16) :
    execPreemptAll t s = .next (s.preemptTenant t (List.range 144)) := if_pos (by simp [hb, ht])

end Requests

/-! ### Preemption: warps that stop (R356 to R358) -/

section Stopping

variable {s : State} {w : WarpRef} {p : Warp}

/-- A stopped warp is suspended, with its registers. -/
theorem Warp.halt_stopped (p : Warp) : p.halt.stop = true ∧ p.halt.sched = .suspended ∧ p.halt.regs = p.regs := by
  refine ⟨rfl, rfl, ?_⟩
  unfold Warp.halt
  split <;> rfl

/-- A warp stopped inside an idempotent region stands at the region's entry, its run discarded (R357). -/
theorem Warp.halt_of_entered {e : Word} {off n : Nat} (h : p.region = some (some e, off, n)) :
    p.halt.pc = e ∧ p.halt.run = none := by
  unfold Warp.halt
  rw [h]
  exact ⟨rfl, rfl⟩

/-- One stopped outside a region that has an entry stands where it stood (R356). -/
theorem Warp.halt_of_unentered (h : p.region = none ∨ ∃ off n, p.region = some (none, off, n)) :
    p.halt.pc = p.pc ∧ p.halt.run = p.run ∧ p.halt.wait = p.wait := by
  unfold Warp.halt
  rcases h with h | ⟨off, n, h⟩ <;> rw [h] <;> exact ⟨rfl, rfl, rfl⟩

/-- Where a stopped warp still waits at a `bwt` (R22). -/
def State.stopsAt (s : State) (w : WarpRef) (p : Warp) : Option (Nat × Word) :=
  if p.region.isSome then none else s.waitsOn w p

/-- A warp stopped, with its decisions that waited for a record given up (R337), its handler apart. -/
def State.haltAlone (s : State) (w : WarpRef) (p : Warp) : State :=
  ((s.leaveSession w p).modWarp w fun x => { x.halt with stoppedAt := s.stopsAt w p }).modLaunch p.launch fun x => x.forget w

/-- A stopped warp's handler, if any, learns where it will return to. -/
theorem State.haltWarp_eq (s : State) (w : WarpRef) (p : Warp) : s.haltWarp w p = if w.hnd then s.haltAlone w p
    else (s.haltAlone w p).modWarp { w with hnd := true } fun h => h.returnsTo p.pc p.halt.pc := rfl

/-- A change of a session changes no warp. -/
theorem State.warp?_modSession (s : State) (core id : Nat) (f : Session → Session) (v : WarpRef) :
    (s.modSession core id f).warp? v = s.warp? v :=
  State.warp?_modCore_field (f := fun k => { k with sessions := k.sessions.map fun x => if x.id == id then f x else x })
    (fun _ => ⟨rfl, rfl⟩) core v

/-- A warp that leaves its session stays where it stands, as do all. -/
theorem State.warp?_leaveSession (s : State) (w : WarpRef) (p : Warp) (v : WarpRef) :
    (s.leaveSession w p).warp? v = s.warp? v := by
  unfold State.leaveSession
  split
  · exact s.warp?_modSession _ _ _ v
  · rfl

theorem State.warp?_haltAlone (hp : s.warp? w = some p) :
    (s.haltAlone w p).warp? w = some { p.halt with stoppedAt := s.stopsAt w p } := by
  have hleft : (s.leaveSession w p).warp? w = some p := (s.warp?_leaveSession w p w).trans hp
  exact (State.warp?_modWarp _ w w _ (State.core_lt_of_warp? hleft)).trans (by rw [if_pos rfl, hleft]; rfl)

/-- The warp once stopped: what its handler learns is not about it. -/
theorem State.warp?_haltWarp (hp : s.warp? w = some p) :
    (s.haltWarp w p).warp? w = some { p.halt with stoppedAt := s.stopsAt w p } := by
  have halone := State.warp?_haltAlone hp
  rw [State.haltWarp_eq]
  split
  · exact halone
  · next hh =>
    have hother : w ≠ { w with hnd := true } := fun h => hh (congrArg WarpRef.hnd h)
    have hlt : w.core < (s.haltAlone w p).cores.length := State.core_lt_of_warp? halone
    rw [State.warp?_modWarp _ { w with hnd := true } w _ hlt, if_neg hother, halone]

/-- A warp of a preempted launch stops at an eligible point, in time (R356, R358). -/
theorem execWarpStop_of_eligible (hp : s.warp? w = some p) (hstop : p.stop = false)
    (hreq : ∃ x ∈ (s.core w.core).preempts, x.launch = p.launch ∧ x.age < 2097152) (helig : p.eligible = true) :
    execWarpStop w s = .next (s.haltWarp w p) := by
  have hany : ((s.core w.core).preempts.any fun x => x.launch == p.launch && decide (x.age < 2097152)) = true := by
    simpa [List.any_eq_true] using hreq
  simp only [execWarpStop, hp, hstop, helig, hany, Bool.not_true, Bool.or_false, Bool.false_eq_true, if_false]

end Stopping

/-! ### Preemption: the launch saved, ended or restored (R358 to R360) -/

section Saving

variable {s : State} {core n : Nat} {l : Launch}

/-- A launch with a warp that has not stopped in time is ended (R358). -/
theorem execPtimeExpiry_of_late {e : Preempt} (hl : s.launch? n = some l)
    (he : ((s.core core).preempts.find? fun x => x.launch == n) = some e) (hage : 2097152 ≤ e.age)
    (hstop : s.allStopped core n = false) : execPtimeExpiry core n s = .next (s.endByTime core l) := by
  simp only [execPtimeExpiry, hl, he, hstop, Nat.not_lt.mpr hage, decide_false, Bool.or_false, Bool.false_eq_true, if_false]

/-- What a save stores in the context save area (R359, R376): free bytes at free places of the area (log 10). -/
theorem State.writeSaveArea_spec (s : State) (t : Nat) : ∃ image : List (Nat × Byte),
    (∀ e ∈ image, e.1 < (s.tenant t).ctxsize.toNat) ∧ s.writeSaveArea t =
      image.foldl (fun x e => x.writeByte ((s.tenant t).ctxbase.toNat + e.1) e.2) { s with oracle := s.oracle + 1 } :=
  ⟨_, fun _ he => of_decide_eq_true (List.mem_filter.mp he).2, rfl⟩

/-- A launch whose warps have stopped and whose work is drained is saved, or ended where its save does not fit (R359; the
size is free, log 10). -/
theorem execContextSave_of_drained {p : Place} (hl : s.launch? n = some l) (hplace : l.place? core = some p)
    (hpre : (s.core core).preempting n = true) (haway : p.away = false) (hcause : l.cause = none)
    (hstop : s.allStopped core n = true) (hdrained : s.drained core n = true) : ∃ size, 0 < size ∧
      execContextSave core n s = .next (if (s.tenant l.tenant).ctxsize.toNat < s.savedBytes l.tenant + size
        then s.drawn.endByTime core l else ((s.drawn.flushAll core).saveLaunch core l p size).writeSaveArea l.tenant) := by
  refine ⟨Config.freeNat s.oracle + 1, Nat.succ_pos _, ?_⟩
  simp only [execContextSave, hl, hplace, hpre, haway, hcause, hstop, hdrained, Option.isSome_none, Bool.not_true,
    Bool.or_false, Bool.false_eq_true, if_false]
  exact (apply_ite Host.Outcome.next _ _ _).symm

/-- A saved launch that fits again is restored (R360). -/
theorem execContextResume_of_resumable {x : SavedLaunch} (hl : s.launch? n = some l)
    (hx : (s.dev.saved.find? fun y => y.core == core && y.launch == n) = some x) (hfits : s.resumable x l = true) :
    execContextResume core n s = .next (s.restore x l) := by
  simp only [execContextResume, hl, hx, hfits, if_true]

end Saving

/-- Settles O47, event by event. -/
theorem preemptionEventsComplete : Obligations.PreemptionEventsComplete := by
  intro s core n l
  refine ⟨fun hl _ => execPreemptionRequest_of_yield hl, fun w p hp hstop hreq helig => ?stop,
    fun e => execPtimeExpiry_of_late, fun p hl hplace hpre haway hcause hstop hdrained => ?save,
    fun x => execContextResume_of_resumable,
    fun t hb ht => ⟨execPreemptCore_of_booted hb ht core, execPreemptAll_of_booted hb ht⟩⟩
  case stop =>
    obtain ⟨hstopped, hsched, hregs⟩ := p.halt_stopped
    exact ⟨s.haltWarp w p, execWarpStop_of_eligible hp hstop hreq helig,
      fun hh => (s.haltWarp_eq w p).trans (if_pos hh), fun _ => State.warp?_haltWarp hp, hstopped, hsched,
      fun _ _ _ => Warp.halt_of_entered, Warp.halt_of_unentered, hregs⟩
  case save =>
    obtain ⟨size, hsize, hexec⟩ := execContextSave_of_drained hl hplace hpre haway hcause hstop hdrained
    obtain ⟨image, hin, hwrite⟩ := ((s.drawn.flushAll core).saveLaunch core l p size).writeSaveArea_spec l.tenant
    exact ⟨size, image, hsize, hin, hexec.trans (by rw [hwrite]; rfl)⟩

end Sys2Proof.Machine

/-! PROOFS. Errors, responses that do not come and the fabric (O49): errors in data and in scheduling state, overdue responses,
the flits of a link, and packets sent again or of another node. -/

namespace Sys2Proof.Machine

/-! ### Errors in scheduling state (R316, R362) -/

section SchedulingState

variable {s : State} {t card : Nat}

/-- A queue entry in error, no unit of which has been placed, leaves its queue with POISON in its card (R362). -/
theorem execSchedulingStateError_of_queued {q : QItem}
    (hq : (s.dev.queue.find? fun x => x.tenant == t && x.addr == card) = some q) (hlaunch : q.launch = none) :
    execSchedulingStateError t card s = .next ((s.dropItem q.id).cardError t card 0 q.host) := by
  simp only [execSchedulingStateError, hq, hlaunch]

/-- An error in the DEP word of a card in no queue is noted (R362). -/
theorem execSchedulingStateError_of_unqueued (hq : ∀ q ∈ s.dev.queue, ¬ (q.tenant = t ∧ q.addr = card)) :
    execSchedulingStateError t card s = .next (s.modDev fun d => { d with depErrors := d.depErrors ++ [(t, card)] }) := by
  have hnone : (s.dev.queue.find? fun x => x.tenant == t && x.addr == card) = none := by
    rw [List.find?_eq_none]
    exact fun q hmem => by simpa using hq q hmem
  simp only [execSchedulingStateError, hnone]

/-- The next decrement of that card meets it (R316, R362). -/
theorem State.decrement_of_depError {pa : Nat} (hcard : card < 2 ^ 64) (herr : (t, card) ∈ s.dev.depErrors)
    (hpa : s.translateHome t (BitVec.ofNat 64 card + 0x40#64) .modify = .ok pa) :
    s.decrement t (BitVec.ofNat 64 card) =
      (s.modDev fun d => { d with depErrors := d.depErrors.filter fun x => x != (t, card) }).cardError t card 1
        (s.hostPosted t card) := by
  have haddr : (BitVec.ofNat 64 card).toNat = card := by rw [BitVec.toNat_ofNat, Nat.mod_eq_of_lt hcard]
  simp only [State.decrement, State.cardWrite, hpa, haddr, List.contains_iff_mem.mpr herr, if_true]

end SchedulingState

/-! ### Responses that do not come (R378, R398) -/

section Timeouts

variable {s : State} {core id : Nat}

/-- Whether a request entry or an engine command of an identifier has waited 2,100,000 cycles for another node. -/
theorem Core.overdue_iff (k : Core) (id : Nat) :
    ((k.reqs.any fun q => q.id == id && q.late) || (k.engine.any fun e => e.id == id && e.late)) = true ↔
      (∃ q ∈ k.reqs, q.id = id ∧ q.remote = true ∧ 2100000 ≤ q.age) ∨
        ∃ e ∈ k.engine, e.id = id ∧ e.poison = false ∧ 2100000 ≤ e.age := by
  simp [ReqEntry.late, EngRec.late]

/-- An access that is not queued at its home, once overdue, poisons its reader; in time it changes nothing (R378). -/
theorem execFabricResponseTimeout_of_unqueued (hq : ∀ q ∈ s.dev.homeQ, ¬ (q.core = core ∧ q.id = id)) :
    execFabricResponseTimeout core id s = .next
      (if ((s.core core).reqs.any fun q => q.id == id && q.late) || ((s.core core).engine.any fun e => e.id == id && e.late)
        then (s.poison core id).modCore core fun k => k.giveUp id else s) := by
  have hnone : (s.dev.homeQ.find? fun q => q.core == core && q.id == id) = none := by
    rw [List.find?_eq_none]
    exact fun q hmem => by simpa using hq q hmem
  simp only [execFabricResponseTimeout, hnone]
  exact (apply_ite Host.Outcome.next _ _ _).symm

/-- A read given up waits for no other node. -/
theorem Core.giveUp_eq (k : Core) (id : Nat) :
    k.giveUp id = { k with reqs := k.reqs.map fun q => if q.id = id then { q with remote := false } else q } := by
  simp only [Core.giveUp, beq_iff_eq]

/-- An access queued at its home in time is waited for (R378). -/
theorem execFabricResponseTimeout_of_queued {q : HomeReq}
    (hq : (s.dev.homeQ.find? fun x => x.core == core && x.id == id) = some q) (hage : q.age < 2100000) :
    execFabricResponseTimeout core id s = .next s := by
  have hnot : s.lateRequest q = false := by simp [State.lateRequest, Nat.not_le.mpr hage]
  simp only [execFabricResponseTimeout, hq, hnot, Bool.not_false, if_true]

end Timeouts

/-! ### The links (R377, R378) -/

section Links

variable {s : State} {i : Nat} {p : Port}

/-- An element of a list of which one is changed. -/
theorem listChange_getElem? {α : Type} (l : List α) (n m : Nat) (f : α → α) :
    (listChange l n f)[m]? = if m = n then l[m]?.map f else l[m]? := by
  induction l generalizing n m with
  | nil => simp [listChange]
  | cons x r ih => cases n <;> cases m <;> simp [listChange, ih]

/-- Flits put on links leave what each port takes next and what it asks for. -/
theorem State.pump_port (hp : s.dev.ports[i]? = some p) (n : Nat) :
    ∃ p', (s.pump n).dev.ports[i]? = some p' ∧ p'.next = p.next ∧ p'.asked = p.asked := by
  induction n generalizing s p with
  | zero => exact ⟨p, hp, rfl, rfl⟩
  | succ n ih =>
    unfold State.pump
    split
    · next v r j _ _ =>
      by_cases hij : i = j
      · obtain ⟨p', hp', hnext, hasked⟩ := ih (s := s.drawn.modDev fun d => { d with
          unsent := r, ports := listChange d.ports j fun p => p.put v }) (p := p.put v) (by
            simp [State.modDev, listChange_getElem?, hij ▸ hp, hij])
        exact ⟨p', hp', hnext, hasked⟩
      · exact ih (by simp [State.modDev, listChange_getElem?, hp, hij])
    · exact ⟨p, hp, rfl, rfl⟩

/-- What the other end of a link answers changes its replay window, its line and the count of free choices alone. -/
theorem State.linkAnswer_eq (s : State) (p : Port) : ∃ (q : Port) (o : Nat),
    s.linkAnswer p = (q, { s with oracle := o }) ∧ q.next = p.next := by
  unfold State.linkAnswer State.drawNat State.drawBit
  dsimp only
  cases Config.freeBit (s.oracle + 1) <;> exact ⟨_, _, rfl, rfl⟩

/-- An acknowledgement of the oldest kept packet changes the kept packets and the count of free choices alone. -/
theorem State.ackOldest_eq (s : State) : ∃ o sent,
    s.ackOldest = { s with oracle := o, dev := { s.dev with e2eSent := sent } } := by
  unfold State.ackOldest State.drawBit
  cases s.dev.e2eSent.head? with
  | none => exact ⟨_, _, rfl⟩
  | some x => cases Config.freeBit s.oracle <;> exact ⟨_, _, rfl⟩

/-- A flit in sequence is taken; for any other the port asks for a replay from the first flit that it lacks (R377). -/
theorem Port.take_spec (p : Port) (seq : BitVec 12) (good : Bool) :
    if good = true ∧ seq = p.next then (p.take seq good).next = p.next + 1 ∧ (p.take seq good).asked = none
    else (p.take seq good).next = p.next ∧ (p.take seq good).asked = some p.next := by
  have htake : (p.take seq good) = if good = true ∧ seq = p.next then { p with next := p.next + 1, asked := none }
      else { p with asked := some p.next } := by
    simp only [Port.take, Bool.and_eq_true, beq_iff_eq]
  rw [htake]
  split <;> exact ⟨rfl, rfl⟩

/-- The state after a port has come to stand as it does with a flit received; `last` tells whether its packet may acknowledge
another. -/
def State.portSet (s : State) (i : Nat) (p : Port) (last : Bool) : State :=
  let t := (s.modDev fun d => { d with ports := listChange d.ports i fun _ => p }).pump s.dev.unsent.length
  if last then t.ackOldest else t

/-- The port so set keeps what it takes next and what it asks for; of the rest of the state the links, the kept packets and the
count of free choices alone may change. -/
theorem State.portSet_spec (hp : s.dev.ports[i]? = some p) (q : Port) (last : Bool) : ∃ o unsent ports sent q',
    s.portSet i q last = { s with oracle := o, dev := { s.dev with unsent := unsent, ports := ports, e2eSent := sent } } ∧
      ports[i]? = some q' ∧ q'.next = q.next ∧ q'.asked = q.asked := by
  have hset : (s.modDev fun d => { d with ports := listChange d.ports i fun _ => q }).dev.ports[i]? = some q := by
    simp [State.modDev, listChange_getElem?, hp]
  obtain ⟨q', hq', hnext, hasked⟩ := State.pump_port hset s.dev.unsent.length
  obtain ⟨o, unsent, ports, hpump⟩ := State.pump_eq (s.modDev fun d => { d with ports := listChange d.ports i fun _ => q })
    s.dev.unsent.length
  rw [hpump] at hq'
  unfold State.portSet
  rw [hpump]
  cases last with
  | false => exact ⟨o, unsent, ports, _, q', rfl, hq', hnext, hasked⟩
  | true =>
    obtain ⟨o', sent, hack⟩ := State.ackOldest_eq _
    exact ⟨o', unsent, ports, sent, q', hack, hq', hnext, hasked⟩

/-- A flit received at a port in service, once the other end has answered. -/
theorem execLinkFlitReceive_of_answer {q : Port} {t : State} (hp : s.dev.ports[i]? = some p) (hin : p.inService = true)
    (hanswer : s.linkAnswer p = (q, t)) (seq : BitVec 12) (payload : BitVec 256) (crc bad : Bool) :
    execLinkFlitReceive i seq payload crc bad s =
      .next (t.portSet i (q.take seq (crc || bad)) (crc && !bad && seq == q.next)) := by
  simp only [execLinkFlitReceive, hp, hin, hanswer, Bool.not_true, Bool.false_eq_true, if_false]
  rfl

/-- A packet sent again changes the links and the count of free choices alone (R378). -/
theorem State.transmit_eq (s : State) : ∃ o unsent ports,
    s.transmit = { s with oracle := o, dev := { s.dev with unsent := unsent, ports := ports } } := by
  unfold State.transmit
  obtain ⟨o, unsent, ports, h⟩ := State.pump_eq _ _
  exact ⟨o, unsent, ports, h⟩

/-- A packet is sent again only while it is kept (R378). -/
theorem execEndToEndResend_eq (dst num : Nat) (s : State) :
    execEndToEndResend dst num s = .next (if (dst, num) ∈ s.dev.e2eSent then s.transmit else s) := by
  simp only [execEndToEndResend, List.contains_iff_mem]
  exact (apply_ite Host.Outcome.next _ _ _).symm

end Links

/-! ### Packets of other nodes (R378, R379) -/

section Arrivals

variable {s : State} {src num : Nat} {acc : RemoteSync}

/-- The one packet held back, next in number of its pair, is queued at its home or performed. -/
theorem State.drainRemote_of_next (hheld : s.dev.e2eHeld = [(src, num, acc)]) (hnext : s.packetNext (src, num, acc) = true) :
    s.drainRemote 1 = if isSyncOp acc.op = true then s.queueRemote src num acc else s.takePlain src num acc := by
  simp only [State.drainRemote, hheld, List.find?_cons_of_pos hnext]

/-- A packet that comes in sequence, with none held back and none of its node queued, is next. -/
theorem State.packetNext_of_sequence (hnum : num = Tab.get 0 s.dev.e2eSeen src)
    (hqueue : ∀ q ∈ s.dev.homeQ, q.core ≠ 256 + src)
    (hroom : isSyncOp acc.op = true → s.accessArrives (acc.pa / 32) = true) : s.packetNext (src, num, acc) = true := by
  have hnone : (s.dev.homeQ.any fun q => q.core == 256 + src) = false := by simpa using hqueue
  simp only [State.packetNext, hnum, hnone, beq_self_eq_true, Bool.not_false, Bool.true_and]
  cases hop : isSyncOp acc.op with
  | false => rfl
  | true => exact hroom hop

/-- A packet of another node that comes in sequence is held back, and then taken at once (R378, R379). -/
theorem execRemoteSyncArrival_of_sequence (hnum : num = Tab.get 0 s.dev.e2eSeen src) (hheld : s.dev.e2eHeld = [])
    (hqueue : ∀ q ∈ s.dev.homeQ, q.core ≠ 256 + src)
    (hroom : isSyncOp acc.op = true → s.accessArrives (acc.pa / 32) = true) :
    let t := s.modDev fun d => { d with e2eHeld := [(src, num, acc)] }
    execRemoteSyncArrival src num acc s =
      .next (if isSyncOp acc.op = true then t.queueRemote src num acc else t.takePlain src num acc) := by
  intro t
  have hnext : t.packetNext (src, num, acc) = true := State.packetNext_of_sequence hnum hqueue hroom
  have hold : (decide (num < Tab.get 0 s.dev.e2eSeen src) || s.dev.e2eHeld.any fun x => x.1 == src && x.2.1 == num) = false := by
    simp [hnum, hheld]
  have hadd : (s.modDev fun d => { d with e2eHeld := d.e2eHeld ++ [(src, num, acc)] }) = t := by
    simp only [t, State.modDev, hheld, List.nil_append]
  rw [execRemoteSyncArrival, hold, if_neg Bool.false_ne_true, hadd]
  exact congrArg _ (State.drainRemote_of_next rfl hnext)

end Arrivals

/-- Settles O49, event by event. -/
theorem errorAndFabricEventsComplete : Obligations.ErrorAndFabricEventsComplete := by
  intro s core id
  refine ⟨rfl, fun q => execSchedulingStateError_of_queued, execSchedulingStateError_of_unqueued,
    fun pa => State.decrement_of_depError, fun hq => ⟨fun hlate => ?late, fun hintime => ?intime⟩,
    fun q => execFabricResponseTimeout_of_queued, fun p seq payload crc bad hp hin => ?flit, fun dst => ?resend,
    fun acc => execRemoteSyncArrival_of_sequence⟩
  case late =>
    refine (execFabricResponseTimeout_of_unqueued hq).trans ?_
    simp only [if_pos (((s.core core).overdue_iff id).mpr hlate), Core.giveUp_eq]
  case intime =>
    exact (execFabricResponseTimeout_of_unqueued hq).trans
      (congrArg _ (if_neg (mt ((s.core core).overdue_iff id).mp hintime)))
  case flit =>
    obtain ⟨q, o, hanswer, hq⟩ := s.linkAnswer_eq p
    obtain ⟨o', unsent, ports, sent, q', hset, hport, hnext, hasked⟩ := State.portSet_spec (s := { s with oracle := o }) hp
      (q.take seq (crc || bad)) (crc && !bad && seq == q.next)
    refine ⟨_, q', (execLinkFlitReceive_of_answer hp hin hanswer seq payload crc bad).trans (congrArg _ hset), hport, rfl, rfl,
      rfl, ?_⟩
    simpa [hnext, hasked, hq] using q.take_spec seq (crc || bad)
  case resend =>
    obtain ⟨o, unsent, ports, hsend⟩ := s.transmit_eq
    refine ⟨_, execEndToEndResend_eq dst id s, ?_, ?_, ?_, ?_, fun h => if_neg h⟩ <;> rw [hsend] <;> split <;> rfl

end Sys2Proof.Machine

/-! PROOFS. The device as a whole to its host: its registers after reset (O57), what a halted device does (O60), and bring-up,
service commands, power and cooling (O50). -/

namespace Sys2Proof.Machine

/-! ### After reset (R371, R373, R377) -/

/-- A core not yet released has no warp and has counted no cycle. -/
theorem Core.reset_idle : Core.reset.started = false ∧ Core.reset.warps = [] ∧ Core.reset.hnds = [] ∧ Core.reset.engine = [] ∧
    Core.reset.cyc = 0#64 := ⟨rfl, rfl, rfl, rfl, rfl⟩

/-- A tenant's registers at reset are zero (R373). -/
theorem Tenant.reset_zero : let r := Tenant.reset
    r.troot = 0#64 ∧ r.fmtab = 0#64 ∧ r.fqbase = 0#64 ∧ r.fqctl = 0#64 ∧ r.fqhead = 0#64 ∧ r.fqtail = 0#64 ∧
      r.ctxbase = 0#64 ∧ r.ctxsize = 0#64 ∧ r.tlbBusy = none ∧ (∀ x ∈ r.winbase, x = 0#64) ∧ ∀ x ∈ r.winlim, x = 0#64 :=
  ⟨rfl, rfl, rfl, rfl, rfl, rfl, rfl, rfl, rfl, fun _ => List.eq_of_mem_replicate, fun _ => List.eq_of_mem_replicate⟩

/-- Features 0 to 10 but 8 are offered at reset (R371). -/
theorem Device.reset_offers (i : Nat) : Device.reset.devcap0.getLsbD i = (decide (i ≤ 10) && i != 8) := by
  by_cases hi : i < 64
  · have hall : ∀ j < 64, (0x6FF#64).getLsbD j = (decide (j ≤ 10) && j != 8) := by decide
    exact hall i hi
  · rw [BitVec.getLsbD_of_ge _ _ (Nat.le_of_not_lt hi), decide_eq_false (by omega), Bool.false_and]

/-- Settles O57: every core, tenant and port is a copy of its value at reset. -/
theorem resetState : Obligations.ResetState := by
  refine ⟨rfl, State.memoriesWf_reset, rfl, rfl, List.length_replicate, List.length_replicate, List.length_replicate,
    List.length_replicate, fun k hk => ?_, rfl, rfl, rfl, rfl, rfl, rfl, rfl, rfl, rfl, rfl, rfl, Device.reset_offers,
    fun r hr => ?_⟩
  · rw [List.eq_of_mem_replicate hk]
    exact Core.reset_idle
  · rw [List.eq_of_mem_replicate hr]
    exact Tenant.reset_zero

/-! ### A halted device (R385) -/

section Halted

variable {s : State}

theorem State.mayAct_of_halted (h : s.dev.halted = true) (w : WarpRef) (p : Warp) : s.mayAct w p = false := by
  simp [State.mayAct, h]

/-- No warp of a halted device makes its act. -/
theorem State.issueAct_of_halted (h : s.dev.halted = true) (w : WarpRef) : s.issueAct w = .next s := by
  unfold State.issueAct
  split
  · rfl
  · next p hp =>
    have hadmits : s.admits w p = false := Bool.eq_false_iff.mpr fun hadm => by
      simpa [State.mayAct_of_halted h] using State.mayAct_of_admits hp hadm
    rw [hadmits]
    rfl

theorem State.cycle_of_halted (h : s.dev.halted = true) : s.cycle = s := if_pos (by simp [h])

/-- Of the events of the agenda a halted device makes a power-up alone. -/
theorem State.eventAct_of_halted (h : s.dev.halted = true) {i : Instr} (hi : i ≠ .powerUp) : s.eventAct i = .next s := by
  unfold State.eventAct
  split
  · exact State.issueAct_of_halted h _
  · exact if_pos (by simp [h, hi])

end Halted

/-- Settles O60, by the act that the agenda names; where it names none, the next act is drawn. -/
theorem haltedDeviceStands : Obligations.HaltedDeviceStands := by
  intro s t hhalt hstep hpower
  unfold step at hstep
  split at hstep
  · cases hstep; rfl
  · next w rest _ =>
    rw [State.issueAct_of_halted (s := { s with agenda := rest }) hhalt] at hstep
    cases hstep; rfl
  · next rest _ =>
    rw [State.cycle_of_halted (s := { s with agenda := rest }) hhalt] at hstep
    cases hstep; rfl
  · next i rest hag =>
    have hi : i ≠ .powerUp := fun hi => hpower rest (hi ▸ hag)
    rw [State.eventAct_of_halted (s := { s with agenda := rest }) hhalt hi] at hstep
    cases hstep; rfl

/-! ### Bring-up (R339, R371, R380 to R382) -/

section BringUp

variable {s : State} {v : Word}

/-- The first write of 1 to ENABLE freezes what the driver chose (R371). -/
theorem execEnable_of_first (hb : s.dev.booted = true) (hv : v.getLsbD 0 = true) (hen : s.dev.enable = false) :
    execEnable v s = .next (s.modDev fun d => { d with
      enable := true, devcap0 := d.devcap0 &&& d.drvcap0, devcap1 := d.devcap1 &&& d.drvcap1 }) :=
  if_neg (by simp [hb, hv, hen])

theorem execCoreStart_of_held {core : Nat} (hb : s.dev.booted = true) (hheld : (s.core core).started = false) :
    execCoreStart core s = .next (s.modCore core fun k => { k with started := true, cyc := 0#64 }) :=
  if_neg (by simp [hb, hheld])

/-- An image offered by the mailbox is taken, or rejected for its place or its length (R381). -/
theorem execMailboxGo_of_fetching (hf : s.dev.fetching = true) (hv : v.getLsbD 0 = true) (hgo : s.dev.mbxgo = false) :
    execMailboxGo v s = .next (s.modDev fun d =>
      if d.mbxaddr.toNat % 4096 = 0 ∧ 1 ≤ bitsOf d.mbxlen 31 0 ∧ bitsOf d.mbxlen 31 0 ≤ 2 ^ 26
      then { d with mbxgo := true } else { d with rejects := d.rejects + 1 }) := by
  rw [execMailboxGo, if_neg (by simp [hf, hv, hgo])]
  dsimp only
  by_cases hok : s.dev.mbxaddr.toNat % 4096 = 0 ∧ 1 ≤ bitsOf s.dev.mbxlen 31 0 ∧ bitsOf s.dev.mbxlen 31 0 ≤ 2 ^ 26
  · rw [if_neg (by simp; omega), State.modDev, State.modDev, if_pos hok]
  · rw [if_pos (by simp; omega), State.modDev, State.modDev, if_neg hok]

/-- A caravan core fetches after power-up, and again once it has rejected an image. -/
theorem Boot.fetches_iff (b : Boot) : b.fetches = true ↔ b = .fetching ∨ b = .rejected := by
  simp [Boot.fetches]

/-- An image that arrives goes to verification (R380, R381). -/
theorem execImageArrival_of_fetching {mbx : Bool} (hf : s.dev.fetching = true) (hgo : mbx = true → s.dev.mbxgo = true)
    (ed ml : Bool) (hash : BitVec 384) : execImageArrival mbx ed ml hash s = .next (s.modDev fun d => { d with
      mbxgo := false, image := some (s.imageOf mbx ed ml hash)
      caravan := d.caravan.map fun b => if b = .fetching ∨ b = .rejected then .verifying else b }) := by
  rw [execImageArrival, if_neg (by simpa [hf] using hgo)]
  simp only [Boot.fetches_iff]

/-- BOOTST shows 2 while a caravan core verifies an image (R380). -/
theorem Device.bootst_of_verifying {d : Device} (h : .verifying ∈ d.caravan) : d.bootst.toNat % 256 = 2 := by
  have hstate : d.bootState = 2 := if_pos (List.any_eq_true.mpr ⟨_, h, rfl⟩)
  rw [Device.bootst, hstate, BitVec.toNat_ofNat]
  omega

/-- Some core verifies the image that has arrived. -/
theorem Device.verifying_mem_of_fetching {d : Device} (h : d.fetching = true) :
    .verifying ∈ d.caravan.map fun b => if b = Boot.fetching ∨ b = .rejected then Boot.verifying else b := by
  obtain ⟨b, hmem, hb⟩ := List.any_eq_true.mp h
  exact List.mem_map.mpr ⟨b, hmem, if_pos (b.fetches_iff.mp hb)⟩

/-- The end of a verification, at the cycle that the free choice gives (R380). -/
theorem State.verify_of_ends {x : ImageCheck} (hx : s.dev.image = some x) (hend : Config.freeBit s.oracle = true) :
    s.verify = if x.valid = true then s.drawn.acceptImage x.hash else s.drawn.rejectImage := by
  rw [State.verify, hx]
  exact if_pos hend

/-- An image accepted is measured and runs: on every caravan core, or under RELOAD on the one named (R380, R383). -/
theorem State.acceptImage_spec (s : State) (hash : BitVec 384) : let t := s.acceptImage hash
    t.dev.image = none ∧ t.dev.reload = none ∧ t.dev.measure = some hash ∧
      (s.dev.reload = none → t.dev.caravan = s.dev.caravan.map fun _ => .running) ∧
      ∀ c, s.dev.reload = some c → t.dev.caravan = listChange s.dev.caravan c fun _ => .running := by
  unfold State.acceptImage
  cases hr : s.dev.reload with
  | none => exact ⟨rfl, hr, rfl, fun _ => rfl, fun _ hc => nomatch hc⟩
  | some c => exact ⟨rfl, rfl, rfl, (nomatch ·), fun _ hc => by cases hc; rfl⟩

/-- An image rejected is counted; the caravan cores fetch again, or under RELOAD the one named runs its former image (R380,
R384). -/
theorem State.rejectImage_spec (s : State) : let t := s.rejectImage
    t.dev.image = none ∧ t.dev.reload = none ∧ t.dev.rejects = s.dev.rejects + 1 ∧ t.dev.measure = s.dev.measure ∧
      (s.dev.reload = none → t.dev.caravan = s.dev.caravan.map fun _ => .rejected) ∧
      ∀ c, s.dev.reload = some c → t.dev.caravan = listChange s.dev.caravan c fun _ => .running := by
  unfold State.rejectImage
  cases hr : s.dev.reload with
  | none => exact ⟨rfl, hr, rfl, rfl, fun _ => rfl, fun _ hc => nomatch hc⟩
  | some c => exact ⟨rfl, rfl, rfl, rfl, (nomatch ·), fun _ hc => by cases hc; rfl⟩

/-- A power-up keeps the memory that is not the package's (R380; log 24). -/
theorem execPowerUp_eq (s : State) : execPowerUp s = .next { State.reset with
    mem := s.mem.filter fun e => decide ((2 ^ 44 ≤ e.1 ∧ e.1 < 2 ^ 60) ∨ 2 ^ 62 ≤ e.1)
    dev := { State.reset.dev with caravan := List.replicate 4 Boot.fetching }
    agenda := s.agenda
    oracle := s.oracle } := by
  simp only [execPowerUp, Bool.decide_or, Bool.decide_and]

theorem execSpdmRequest_of_measured (h : s.dev.measure.isSome) :
    execSpdmRequest s = .next (s.modDev fun d => { d with spdm := d.spdm + 1 }) := if_pos h

theorem execHostLinkTraining_of_allowed {rate width : Nat} (hrate : rate ∈ linkRates) (hwidth : width ∈ linkWidths)
    (hhalt : s.dev.halted = false) : execHostLinkTraining rate width s = .next (s.modDev fun d =>
      { d with linkUp := true, linkRate := rate, linkWidth := width }) :=
  if_neg (by simp [hrate, hwidth, hhalt])

end BringUp

/-! ### Service commands (R383, R384, R386) -/

section Commands

variable {s : State} {n : Nat}

/-- A core on which no launch has its place drains at once (R383). -/
theorem execDrain_of_empty (hsvc : s.dev.svc = none) (hn : n < 144) (hempty : s.placesOn n = []) :
    execDrain n s = .next ((s.acceptService 1 n 0#8).modCore n fun k => { k with draining := true }) := by
  have hplaces : ((s.acceptService 1 n 0#8).modCore n fun k => { k with draining := true }).placesOn n = [] := hempty
  rw [execDrain, if_neg (by simp [hsvc]), if_neg (Nat.not_le.mpr hn)]
  dsimp only
  rw [hplaces, List.foldl_nil]

theorem execUnfence_of_core (hsvc : s.dev.svc = none) (hn : n < 144) : execUnfence n s =
    .next ((s.acceptService 2 n 0#8).modCore n fun k => { k with fenced := false, draining := false }) := by
  rw [execUnfence, if_neg (by simp [hsvc]), if_neg (Nat.not_le.mpr hn)]

/-- A block of local HBM is to be moved, or its stack has no spare left: code 3 (R384). -/
theorem execRetire_of_block {b : Nat} (hsvc : s.dev.svc = none) (hb : s.localBlock n = some b) : execRetire n s =
    .next (if Tab.get 0 s.dev.spareUsed (b % 12) < Config.spareBlocks (b % 12) then s.acceptService 3 n 0#8
      else s.acceptService 3 n 3#8) := by
  rw [execRetire, if_neg (by simp [hsvc]), hb]
  dsimp only
  by_cases hspare : Tab.get 0 s.dev.spareUsed (b % 12) < Config.spareBlocks (b % 12)
  · rw [if_neg (Nat.not_le.mpr hspare), if_pos hspare]
  · rw [if_pos (Nat.le_of_not_lt hspare), if_neg hspare]

theorem execRecal_of_port (hsvc : s.dev.svc = none) (hn : n < 72) : execRecal n s =
    .next ((s.acceptService 4 n 0#8).modDev fun d => { d with
      ports := listChange d.ports n fun p => { p with inService := false } }) := by
  rw [execRecal, if_neg (by simp [hsvc]), if_neg (Nat.not_le.mpr hn)]

/-- A caravan core fetches a new image while no other reloads (R383). -/
theorem execReload_of_idle (hsvc : s.dev.svc = none) (hn : n < 4) (hb : s.dev.booted = true) (hr : s.dev.reload = none) :
    execReload n s = .next ((s.acceptService 5 n 0#8).modDev fun d => { d with
      reload := some n, caravan := listChange d.caravan n fun _ => .fetching }) := by
  rw [execReload, if_neg (by simp [hsvc]), if_neg (Nat.not_le.mpr hn), if_neg (by simp [hr]), if_neg (by simp [hb])]

/-- Code 5 while a caravan core reloads (R384). -/
theorem execReload_of_reloading {c : Nat} (hsvc : s.dev.svc = none) (hn : n < 4) (hr : s.dev.reload = some c) :
    execReload n s = .next (s.acceptService 5 n 5#8) := by
  rw [execReload, if_neg (by simp [hsvc]), if_neg (Nat.not_le.mpr hn), if_pos (by simp [hr])]

/-- A command ends with its effect; a drain waits until its core is empty (R384, R386). -/
theorem execServiceCommandDone_of_ready {x : Service} (hsvc : s.dev.svc = some x)
    (hready : x.done = true ∨ x.cmd ≠ 1 ∨ s.emptied x.arg = true) :
    execServiceCommandDone s = .next ((s.endService x).modDev fun d => { d with svc := none, svcFail := x.fail }) := by
  rw [execServiceCommandDone, hsvc]
  refine if_neg fun hwaits => ?_
  simp only [Bool.and_eq_true, Bool.not_eq_true', decide_eq_true_eq] at hwaits
  obtain ⟨⟨hdone, hcmd⟩, hfull⟩ := hwaits
  simp [hdone, hcmd, hfull] at hready

end Commands

/-- Settles O50, event by event. -/
theorem firmwareEventsComplete : Obligations.FirmwareEventsComplete := by
  intro s n v
  refine ⟨fun hb => ⟨execEnable_of_first hb, execCoreStart_of_held hb⟩, fun hsvc => ?commands,
    fun x => execServiceCommandDone_of_ready,
    fun hf => ⟨execMailboxGo_of_fetching hf, fun mbx ed ml hash hgo => ?image⟩, fun x hx hend => ?verified,
    execPowerUp_eq s, rfl, rfl, rfl, execSpdmRequest_of_measured, fun rate width => execHostLinkTraining_of_allowed⟩
  case commands =>
    exact ⟨execDrain_of_empty hsvc, execUnfence_of_core hsvc, fun b => execRetire_of_block hsvc, execRecal_of_port hsvc,
      execReload_of_idle hsvc, fun c => execReload_of_reloading hsvc⟩
  case image =>
    have harrives := execImageArrival_of_fetching hf hgo ed ml hash
    refine ⟨s.imageOf mbx ed ml hash, harrives, fun hm => ?_, fun hm => ?_, fun t ht => ?_⟩
    · rw [hm]; rfl
    · rw [hm]; rfl
    · cases harrives.symm.trans ht
      exact Device.bootst_of_verifying (Device.verifying_mem_of_fetching hf)
  case verified =>
    refine ⟨_, rfl, ?_⟩
    rw [State.verify_of_ends hx hend]
    cases hvalid : x.valid with
    | true =>
      obtain ⟨himage, hreload, hmeasure, hall, hone⟩ := s.drawn.acceptImage_spec x.hash
      exact ⟨himage, hreload, fun _ => ⟨hmeasure, hall, hone⟩, fun h => nomatch h⟩
    | false =>
      obtain ⟨himage, hreload, hcount, hmeasure, hall, hone⟩ := s.drawn.rejectImage_spec
      exact ⟨himage, hreload, (nomatch ·), fun _ => ⟨hcount, hmeasure, hall, hone⟩⟩

end Sys2Proof.Machine
